-- ==== Sys2Proof/Word.lean ====
section
/-! DEFINITION. The word types of the machine (R8, R9) and the plainest arithmetic on them. -/

namespace Sys2Proof

/-- One byte of memory. -/
abbrev Byte := BitVec 8

/-- A 16-bit schedule half-word (R56). -/
abbrev Half := BitVec 16

/-- A 32-bit register value or instruction word. -/
abbrev Word := BitVec 32

/-- A 64-bit uniform register value, latch or address. -/
abbrev DWord := BitVec 64

/-- A set of lanes of a group, bit `l` for lane `l` (R177). -/
abbrev LaneMask := BitVec 64

/-- The 80 bits of one accumulator element (R311). -/
abbrev A80 := BitVec 80

/-- The 7-bit register field of an instruction word (R52). -/
abbrev Code := BitVec 7

end Sys2Proof
end

