-- ==== Sys2Proof/Config.lean ====
section
/-! DEFINITION. What the spec leaves to an implementation, and the free values. Each constant is opaque: nothing in Lean
can evaluate it or prove a value of it. The log entry named with each says why it is free. -/

namespace Sys2Proof.Config

/-- A free 64-bit value for each value of the counter `State.draws`, for a choice among several (R121, R164, R237, R251; log
entries 21, 22, 39, 42 and 67). -/
opaque freeValue : Nat → DWord

/-- Whether a read below its producer's latency takes the old value (R60, R129, R149, R156, R196; log entry 4). -/
opaque readsOld : Nat → Bool

/-- Whether source `src` of the instruction issued at `draws` reads, in a lane, the value before the write of a producer
below its latency (R60; log entry 4). -/
opaque seesOld (draws src lane producer : Nat) : Bool

/-- Which of the values that byte `b` of a matrix operand has had since acceptance element `e` reads (R332; log entry 40), from the
value of `State.draws`. -/
opaque readsAmong (draws e b : Nat) : Nat

/-- Cycles that pass with one step besides those the issue rule of R57 names (log entry 5). -/
opaque elapsed : Nat → Nat

/-- The fixed functions of R137 at the inputs whose exact result no FP32 value holds (log entry 6). -/
opaque rcp32 : Word → Word
opaque rsq32 : Word → Word
opaque exp2F32 : Word → Word
opaque log2F32 : Word → Word
opaque sin32 : Word → Word
opaque cos32 : Word → Word

/-- SHAKE256 with 64 bytes of output, which the spec names and does not define (R428; log entry 7). -/
opaque shake256 : List Byte → BitVec 512

/-- The bytes of an attestation report before its signature: measurement, life-cycle state, DEVCAP and nonce in a layout
that the spec does not give (R428; log entry 7). -/
opaque report : BitVec 512 → BitVec 3 → BitVec 64 → BitVec 256 → List Byte

/-- The signature of an attestation report under a key of the device, in the life-cycle state given (R428, R429; log entry 7). -/
opaque sign : Nat → List Byte → List Byte

/-- AES-256-GCM, which the spec names and does not define: the text that a key and a nonce make of a text, encrypting and
decrypting alike, and the tag of headers and an encrypted payload (R441; log entry 7). -/
opaque gcmText : BitVec 256 → BitVec 96 → List Byte → List Byte
opaque gcmTag : BitVec 256 → BitVec 96 → List Byte → List Byte → BitVec 128

/-- The bytes of a packet's transport headers, in a layout that the spec does not give, from what they state (R441, R443; log
entry 7). -/
opaque uetHeader : List Nat → List Byte

/-- The firmware image that the boot ROM checks and measures (R428; log entry 7). -/
opaque firmware : List Byte

/-- What a firmware image is for (R429). -/
inductive ImageClass where
  | manufacturing | production | diagnostic
  deriving DecidableEq, Repr, Inhabited

/-- What the image is for (R429; log entry 7). -/
opaque imageClass : ImageClass

/-- The image carries a valid signature under the key whose digest the fuses hold (R428; log entry 7). -/
opaque signatureValid : Bool

end Sys2Proof.Config
end

