-- ==== Sys2Proof/Machine/Bits.lean ====
section
/-! DEFINITION. Bit fields, sign extension, byte order and lines of 64 bytes (R8, R9, R32, R77). -/

namespace Sys2Proof.Machine

/-- Sign-extend an `n`-bit value to 64 bits. -/
def sext64 {n : Nat} (x : BitVec n) : DWord := x.signExtend 64

/-- Zero-extend or truncate to 64 bits. -/
def zext64 {n : Nat} (x : BitVec n) : DWord := x.setWidth 64

def low32 (x : DWord) : Word := x.setWidth 32

def high32 (x : DWord) : Word := x.extractLsb' 32 32

/-- A 64-bit value from its low and high halves (R50). -/
def pair64 (lo hi : Word) : DWord := hi ++ lo

/-- The combined value of a prefix pair, imm27 × 2^n + field (R32). -/
def combine {n : Nat} (imm : BitVec 27) (field : BitVec n) : BitVec (27 + n) := imm ++ field

/-- Field `[lo + n - 1 : lo]` of a number. -/
def nfield (x lo n : Nat) : Nat := x / 2 ^ lo % 2 ^ n

/-- The value of little-endian bytes (R9). -/
def leNat : List Byte → Nat
  | [] => 0
  | b :: rest => b.toNat + 256 * leNat rest

/-- `n` little-endian bytes of a value (R9). -/
def leBytes : Nat → Nat → List Byte
  | 0, _ => []
  | n + 1, x => BitVec.ofNat 8 x :: leBytes n (x / 256)

/-- Byte `i` of a line. -/
def lineByte (d : BitVec 512) (i : Nat) : Byte := d.extractLsb' (8 * i) 8

/-- The 512-bit mask of a byte mask, built from byte 0 upward. -/
def expandMask (m : BitVec 64) : BitVec 512 :=
  (List.range 64).foldl (fun acc i => if m.getLsbD i then acc ||| (0xFF#512 <<< (8 * i)) else acc) 0

/-- `old` with the bytes of `m` taken from `new`. -/
def mergeLine (m : BitVec 64) (old new : BitVec 512) : BitVec 512 :=
  let e := expandMask m
  (old &&& ~~~e) ||| (new &&& e)

/-- The mask and the line that hold `n` bytes of `x` at byte `off`. -/
def placeBytes (off n x : Nat) : BitVec 64 × BitVec 512 :=
  (BitVec.ofNat 64 ((2 ^ n - 1) * 2 ^ off), BitVec.ofNat 512 ((x % 2 ^ (8 * n)) * 2 ^ (8 * off)))

/-- The bits below `n`, all set. -/
def lowMask (n : Nat) : LaneMask := BitVec.ofNat 64 (2 ^ n - 1)

/-- The number of set bits (R107). -/
def popCount {n : Nat} (x : BitVec n) : Nat :=
  (List.range n).foldl (fun acc i => if x.getLsbD i then acc + 1 else acc) 0

/-- Round up to a multiple of `k`. -/
def roundUp (x k : Nat) : Nat := (x + (k - 1)) / k * k

/-- Ceiling of a quotient. -/
def ceilDiv (x k : Nat) : Nat := (x + (k - 1)) / k

/-- A record packed from (value, width) fields, the lowest field first. -/
def packFields : List (Nat × Nat) → Nat
  | [] => 0
  | (v, w) :: rest => v % 2 ^ w + 2 ^ w * packFields rest

end Sys2Proof.Machine
end

