-- ==== Sys2Proof/Machine/Sparse.lean ====
section
/-! DEFINITION. Sparse maps: lists of (key, value) pairs with rising keys and no entry equal to the value that an
unlisted key has. Memory, register stacks, register files, accumulators and scratchpads are held in this form. -/

namespace Sys2Proof.Machine

variable {α : Type}

/-- The value of key `i`; `z` where the key is not listed. -/
def sget (z : α) : List (Nat × α) → Nat → α
  | [], _ => z
  | (k, v) :: rest, i => if i = k then v else sget z rest i

/-- Insert an entry at its place among rising keys. -/
def sins (i : Nat) (v : α) : List (Nat × α) → List (Nat × α)
  | [] => [(i, v)]
  | (k, w) :: rest => if i < k then (i, v) :: (k, w) :: rest else (k, w) :: sins i v rest

/-- Set key `i` to `v`; setting it to `z` removes it. -/
def sset [DecidableEq α] (z : α) (m : List (Nat × α)) (i : Nat) (v : α) : List (Nat × α) :=
  let rest := m.filter fun e => e.1 ≠ i
  if v = z then rest else sins i v rest

/-- The canonical form: keys strictly rising, no value equal to `z`. -/
def swf [DecidableEq α] (z : α) : List (Nat × α) → Bool
  | [] => true
  | (k, v) :: rest => decide (v ≠ z) && rest.all (fun e => k < e.1) && swf z rest

/-- Insert a number into a strictly rising list. -/
def ninsert (n : Nat) : List Nat → List Nat
  | [] => [n]
  | m :: rest => if n < m then n :: m :: rest else if n = m then m :: rest else m :: ninsert n rest

end Sys2Proof.Machine
end

