-- ==== Sys2Proof/Syntax.lean ====
section
/-! DEFINITION. The instructions and the device operations of spec/opcode_table.json, one constructor per row.
The first part of `Instr` has an encoding (R69 to R102); the second part lists the operations and events of the
device, which no instruction word names (95_what_each_step_holds). -/

namespace Sys2Proof

/-- The instruction that a `PFX` word extends (R32, R66, R77): the fields of the second word of a prefix pair. -/
inductive Prefixed where
  | addi (d a : Code) (imm : BitVec 13)
  | lim (d : Code) (imm : BitVec 20)
  /-- `cond` is cond4 of major 2: branches and calls. -/
  | br (cond : BitVec 4) (off : BitVec 23)
  /-- A format M cell of majors 15 to 20 whose off5 is an offset. -/
  | mem (major : BitVec 5) (kind : BitVec 3) (ord : BitVec 2) (scope : BitVec 3) (d a : Code) (off : BitVec 5)
  deriving DecidableEq, Repr

/-- One data packet of a delivery as it reaches the receiving hub (R443). -/
structure UetPacket where
  /-- the receiving hub -/
  hub : Nat
  /-- its source: the IPv6 address of the sender's endpoint -/
  source : BitVec 128
  msg : BitVec 32
  cluster : Nat
  tag : Nat
  /-- byte offset of the box in the window, and its length -/
  base : Nat
  size : Nat
  /-- byte offset of the data in the box -/
  off : Nat
  /-- the payload as it travels: encrypted under an association -/
  data : List Byte
  /-- the data was poisoned at its source (R354) -/
  poison : Bool
  /-- reduction, 0 for a plain write, and log2 of the element size (R352) -/
  rop : Nat
  esz : Nat
  prot : Bool
  said : BitVec 32
  pn : BitVec 64
  /-- its AES-256-GCM tag (R441) -/
  auth : BitVec 128
  deriving DecidableEq, Repr

/-- One counter message of a delivery (R443). -/
structure UetFlag where
  hub : Nat
  /-- the IPv6 address of the sender's endpoint -/
  source : BitVec 128
  seq : BitVec 32
  cluster : Nat
  tag : Nat
  /-- byte offset of the box in the window, and its length -/
  base : Nat
  size : Nat
  prot : Bool
  said : BitVec 32
  pn : BitVec 64
  auth : BitVec 128
  deriving DecidableEq, Repr

inductive Instr where
  -- major 1 and major 0 (R75, R83)
  | pfx (imm : BitVec 27) (second : Option Prefixed)
  | nop
  | trap (code : BitVec 21)
  | rtt
  | isync
  | sread (d : Code) (index : BitVec 14)
  | swrite (a : Code) (index : BitVec 14)
  | swriteEm (a : Code)
  | swriteFpc (a : Code)
  | wspill (a : Code)
  | wfill (a : Code)
  -- major 2 (R82)
  | br (off : BitVec 23)
  | brNone (off : BitVec 23)
  | brAny (off : BitVec 23)
  | brAll (off : BitVec 23)
  | brUc (off : BitVec 23)
  | brNuc (off : BitVec 23)
  | call (f : BitVec 2) (off : BitVec 23)
  | callAny (f : BitVec 2) (off : BitVec 23)
  -- major 3 (R84)
  | ret
  | jmpr (a : Code)
  | callr (a b : Code)
  | callrAny (a b : Code)
  | wbase (a : Code)
  | rgn
  | ucmpEq (a b : Code)
  | ucmpNe (a b : Code)
  | ucmpLt (a b : Code)
  | ucmpLe (a b : Code)
  | ucmpLtu (a b : Code)
  | ucmpLeu (a b : Code)
  -- major 4 (R85)
  | add (d a b : Code)
  | sub (d a b : Code)
  | mul (d a b : Code)
  | mulhi (d a b : Code)
  | mulhu (d a b : Code)
  | div (d a b : Code)
  | divu (d a b : Code)
  | rem (d a b : Code)
  | remu (d a b : Code)
  | and (d a b : Code)
  | or (d a b : Code)
  | xor (d a b : Code)
  | andn (d a b : Code)
  | shl (d a b : Code)
  | shr (d a b : Code)
  | sra (d a b : Code)
  | shli (d a cnt : Code)
  | shri (d a cnt : Code)
  | srai (d a cnt : Code)
  | min (d a b : Code)
  | max (d a b : Code)
  | minu (d a b : Code)
  | maxu (d a b : Code)
  | abs (d a : Code)
  | clz (d a : Code)
  | popc (d a : Code)
  | brev (d a : Code)
  | sextb (d a : Code)
  | sexth (d a : Code)
  | mov (d a : Code)
  | mad (d a b : Code)
  | addD (d a b : Code)
  | subD (d a b : Code)
  | mulD (d a b : Code)
  | shlD (d a b : Code)
  | shrD (d a b : Code)
  | sraD (d a b : Code)
  | movD (d a : Code)
  | lea (size : BitVec 2) (d a b : Code)
  -- majors 5 and 6 (R86)
  | addi (d a : Code) (imm : BitVec 13)
  | lim (d : Code) (imm : BitVec 20)
  -- majors 7 and 8 (R87, R88)
  | addFmt (fmt : BitVec 2) (d a b : Code)
  | subFmt (fmt : BitVec 2) (d a b : Code)
  | mulFmt (fmt : BitVec 2) (d a b : Code)
  | divFmt (fmt : BitVec 2) (d a b : Code)
  | sqrtFmt (fmt : BitVec 2) (d a : Code)
  | minFmt (fmt : BitVec 2) (d a b : Code)
  | maxFmt (fmt : BitVec 2) (d a b : Code)
  | absFmt (fmt : BitVec 2) (d a : Code)
  | negFmt (fmt : BitVec 2) (d a : Code)
  | csgnFmt (fmt : BitVec 2) (d a b : Code)
  | rcpF32 (d a : Code)
  | rsqF32 (d a : Code)
  | exp2F32 (d a : Code)
  | log2F32 (d a : Code)
  | sinF32 (d a : Code)
  | cosF32 (d a : Code)
  | fma (fmt : BitVec 2) (d a b : Code)
  | fms (fmt : BitVec 2) (d a b : Code)
  | fnma (fmt : BitVec 2) (d a b : Code)
  | fnms (fmt : BitVec 2) (d a b : Code)
  -- major 9 (R89)
  | cvt (dst src : BitVec 3) (d a rnd : Code)
  | rintF64 (d a rnd : Code)
  | rintF32 (d a rnd : Code)
  | rintF16 (d a rnd : Code)
  | rintBf16 (d a rnd : Code)
  | bscale (d a : Code)
  | bquant (d a b : Code)
  | bdeq (d a b : Code)
  -- major 10 (R90)
  | cmpEq (type : BitVec 3) (d a b : Code)
  | cmpNe (type : BitVec 3) (d a b : Code)
  | cmpLt (type : BitVec 3) (d a b : Code)
  | cmpLe (type : BitVec 3) (d a b : Code)
  | cmpGt (type : BitVec 3) (d a b : Code)
  | cmpGe (type : BitVec 3) (d a b : Code)
  | cmpUn (fmt : BitVec 2) (d a b : Code)
  -- major 11 (R91)
  | pand (d a b : Code)
  | por (d a b : Code)
  | pxor (d a b : Code)
  | pandn (d a b : Code)
  | pnot (d a : Code)
  | pmov (d a : Code)
  | pset (d a : Code)
  | pget (d a : Code)
  | sel (k : BitVec 5) (d a b : Code)
  -- major 12 (R92)
  | mset (a : Code)
  | mand (a : Code)
  | mandn (a : Code)
  | mor (a : Code)
  | mall
  | mcnt (d : Code)
  | psave (d : Code)
  | prest (a : Code)
  -- major 13 (R93)
  | lpullAt (d a b : Code)
  | lpullBelow (d a b : Code)
  | lpullAbove (d a b : Code)
  | lpullXor (d a b : Code)
  | rdlane (d a b : Code)
  | wrlane (d a b : Code)
  | lmask (d a : Code)
  | lany (d a : Code)
  | lall (d a : Code)
  | lsame (d a : Code)
  | redAdd (d a : Code)
  | redMin (d a : Code)
  | redMax (d a : Code)
  | redMinu (d a : Code)
  | redMaxu (d a : Code)
  | redFaddF32 (d a : Code)
  | redFminF32 (d a : Code)
  | redFmaxF32 (d a : Code)
  | scanAdd (d a : Code)
  | scanFaddF32 (d a : Code)
  -- major 14 (R94)
  | setw (a : Code)
  | regroup (d : Code)
  | barSync (a : Code)
  | barArv (a : Code)
  | cbar
  | yield
  | exit (a : Code)
  | launch (a : Code)
  -- majors 15 and 16 (R95)
  | ldB (ord : BitVec 2) (scope : BitVec 3) (d a : Code) (off : BitVec 5)
  | ldH (ord : BitVec 2) (scope : BitVec 3) (d a : Code) (off : BitVec 5)
  | ldW (ord : BitVec 2) (scope : BitVec 3) (d a : Code) (off : BitVec 5)
  | ldD (ord : BitVec 2) (scope : BitVec 3) (d a : Code) (off : BitVec 5)
  | ldQ (ord : BitVec 2) (scope : BitVec 3) (d a : Code) (off : BitVec 5)
  | ldInvW (scope : BitVec 3) (d a : Code) (off : BitVec 5)
  | ldInvD (scope : BitVec 3) (d a : Code) (off : BitVec 5)
  | ldInvQ (scope : BitVec 3) (d a : Code) (off : BitVec 5)
  | stB (ord : BitVec 2) (scope : BitVec 3) (d a : Code) (off : BitVec 5)
  | stH (ord : BitVec 2) (scope : BitVec 3) (d a : Code) (off : BitVec 5)
  | stW (ord : BitVec 2) (scope : BitVec 3) (d a : Code) (off : BitVec 5)
  | stD (ord : BitVec 2) (scope : BitVec 3) (d a : Code) (off : BitVec 5)
  | stQ (ord : BitVec 2) (scope : BitVec 3) (d a : Code) (off : BitVec 5)
  -- majors 17 and 18 (R96)
  | atAddW (ord : BitVec 2) (scope : BitVec 3) (d a : Code) (off : BitVec 5)
  | atAddD (ord : BitVec 2) (scope : BitVec 3) (d a : Code) (off : BitVec 5)
  | atMinW (ord : BitVec 2) (scope : BitVec 3) (d a : Code) (off : BitVec 5)
  | atMaxW (ord : BitVec 2) (scope : BitVec 3) (d a : Code) (off : BitVec 5)
  | atMinuW (ord : BitVec 2) (scope : BitVec 3) (d a : Code) (off : BitVec 5)
  | atMaxuW (ord : BitVec 2) (scope : BitVec 3) (d a : Code) (off : BitVec 5)
  | atSwapW (ord : BitVec 2) (scope : BitVec 3) (d a : Code) (off : BitVec 5)
  | atCasW (ord : BitVec 2) (scope : BitVec 3) (d a : Code) (off : BitVec 5)
  | atAndW (ord : BitVec 2) (scope : BitVec 3) (d a : Code) (off : BitVec 5)
  | atOrW (ord : BitVec 2) (scope : BitVec 3) (d a : Code) (off : BitVec 5)
  | atXorW (ord : BitVec 2) (scope : BitVec 3) (d a : Code) (off : BitVec 5)
  | atSwapD (ord : BitVec 2) (scope : BitVec 3) (d a : Code) (off : BitVec 5)
  | atCasD (ord : BitVec 2) (scope : BitVec 3) (d a : Code) (off : BitVec 5)
  | atFaddF32 (ord : BitVec 2) (scope : BitVec 3) (d a : Code) (off : BitVec 5)
  | atFminF32 (ord : BitVec 2) (scope : BitVec 3) (d a : Code) (off : BitVec 5)
  | atFmaxF32 (ord : BitVec 2) (scope : BitVec 3) (d a : Code) (off : BitVec 5)
  -- major 19 (R97)
  | sldW (d a : Code) (off : BitVec 5)
  | sldD (d a : Code) (off : BitVec 5)
  | sldQ (d a : Code) (off : BitVec 5)
  | sstW (d a : Code) (off : BitVec 5)
  | sstD (d a : Code) (off : BitVec 5)
  | sstQ (d a : Code) (off : BitVec 5)
  -- major 20 (R98)
  | fence (ord : BitVec 2) (scope : BitVec 3)
  | waitp (a : Code) (path : BitVec 5)
  | waitv (ord : BitVec 2) (scope : BitVec 3) (d a : Code) (off : BitVec 5)
  -- major 21 (R99)
  | rcfg (a : Code)
  | rstat (d a : Code)
  | rdrain (a : Code)
  | rpeek (d a : Code)
  -- major 22 (R100)
  | mma (d a b : Code)
  | mmaAcc (d a b : Code)
  | mmaSacc (d a b : Code)
  | mzero (d : Code)
  | mscl (d a : Code)
  | mrd (d a b : Code)
  | mwr (d a b : Code)
  | msto (d a : Code)
  | mlda (d a : Code)
  | mmov (d a : Code)
  -- major 23 (R101)
  | enqRunnel (scope : BitVec 3) (d a b : Code)
  | enqCascade (scope : BitVec 3) (d a b : Code)
  | publish (a : Code)
  | land (a b : Code)
  | unland (a : Code)
  -- operations of the device (opcode_table.json, rows without an encoding).
  -- `g` is a group, `tag` an operation in flight of that group, `lanes` those whose accesses are performed.
  | groupIssueChoice (g : Nat)
  | runLimitExpiry (g : Nat)
  | rillBlockTimeout (g : Nat)
  | cacheMissFill (core level line scope : Nat)
  | narrowCopyEviction (level unit line : Nat)
  | directoryEvictionRecall (level unit line : Nat)
  | replyReplay (ctx : Nat)
  | replyDeliver (ctx : Nat)
  | replyEndLaunch (ctx : Nat)
  | replyNoEffect (ctx : Nat)
  | uetDataPacket (p : UetPacket)
  | uetCounterMessage (m : UetFlag)
  | uetPacketAck (cmd cluster off path : Nat) (refused : Bool)
  | uetRetransmitTimeout (peer path cmd cluster off : Nat)
  | pathProbe (hub peer path : Nat) (answered : Bool)
  | deliveryPathTimeout (cmd cluster : Nat)
  | uePortDown (port : Nat)
  | launchQueueDoorbell (q : Nat) (wr : Word)
  | launchPlacement (launch : Nat) (cores : List Nat)
  | preemption (launch tix : Nat)
  | resume (unit : Nat) (cores : List Nat)
  | dieFailure (die : Nat)
  | rebuildComplete (die : Nat)
  | dieRejoin (die : Nat)
  | incarnationRefusal (die : Nat) (inc : BitVec 16)
  | pomasLinkDown (link : Nat)
  | lifecycleAdvance (next : BitVec 3)
  | attestationRequest (hub : Nat)
  | biasFlipToHost (page : Nat)
  | biasFlipToDevice (page : Nat)
  | hostCxlRead (line : Nat)
  | hostCxlWrite (pa : Nat) (data : List Byte)
  | hostSnoop (line : Nat)
  | atsInvalidation (hub page : Nat)
  | atsTranslationResponse (hub page : Nat) (read write : Bool)
  | mgmtRegisterWrite (off : Nat) (value : DWord)
  -- those that the device makes of itself stand last (Defaults.lean)
  | loadResultReturn (g tag : Nat) (lanes : LaneMask)
  | storeAcknowledge (g tag : Nat)
  | scratchpadAccessPerformed (g tag : Nat) (lanes : LaneMask)
  | longLatencyResult (g tag : Nat)
  | rillEntryFill (g lane port : Nat)
  | writeBufferDrain (core bank : Nat)
  | translationComplete (g tag : Nat)
  | migrationPull (desc line : Nat)
  | faultRecordAppend (ctx : Nat)
  | waitvMonitorPoll (g : Nat)
  | mtxAccept (g : Nat)
  | mtxRetire (g tag : Nat)
  | engineRecordRead (cmd : Nat)
  | runnelLoad (cmd : Nat)
  | runnelStore (cmd : Nat)
  | runnelGather (cmd : Nat)
  | runnelScatter (cmd : Nat)
  | runnelRedstore (cmd : Nat)
  | cascadeMcast (cmd : Nat)
  | cascadeMcred (cmd : Nat)
  | engineCommandEnd (cmd : Nat)
  | cascadeDelivery (cmd cluster : Nat)
  | dependenceCheck (launch : Nat)
  | launchCompletion (launch : Nat)
  | saveBlockWrite (unit : Nat)
  | queueEntryConsume (q : Nat)
  | leaderElection (q : Nat)
  | watchdogTrap (g : Nat)
  | waitvMonitorFire (g : Nat)
  | clockStepDown (die : Nat)
  | clockStepUp (die : Nat)
  | uePortTrain (port : Nat) (fast : Bool)
  | dieDrainedByTheHost (die : Nat)
  | hostLinkTrain (hub width gen : Nat) (cxl3 : Bool)
  | deviceReset
  | wipeComplete
  | moduleUnpowered
  deriving DecidableEq, Repr

end Sys2Proof
end

