-- ==== Sys2Proof/Machine/State.lean ====
section
/-! DEFINITION. The state of the machine as plain data: every piece of state the spec gives threads, groups, teams,
launches, the memory system, the engines and the device, and the state after reset. -/

namespace Sys2Proof.Machine

/-- Why the machine stops. -/
inductive Fault where
  /-- Raised by an operation of the device whose conditions do not hold in this state, for instance the return of a
  load that is not in flight: `State.script` named a move that the device cannot make. Safe: the hardware makes no
  such move. -/
  | notEnabled (operation : String)
  /-- Raised when `State.script` names an instruction word as a move of the device. Safe: only a group issues it. -/
  | notADeviceOp
  deriving DecidableEq, Repr

/-- Why an instruction has no meaning. -/
inductive Refusal where
  /-- Raised by `exec` for an instruction that has no meaning yet. Safe: the run stops. -/
  | notModelled (mnemonic : String)
  deriving DecidableEq, Repr

/-- The schedule half-word, the word a trap records and the length of the instruction in issue (R56, R66, R364). -/
structure IssueSlot where
  /-- the half-word in force: that of the first word of the instruction -/
  half : Half
  /-- the half-word of the second word of a prefix pair -/
  half2 : Half
  /-- the instruction word; for a prefix pair, the second word -/
  word : Word
  /-- 1, or 2 for a prefix pair -/
  len : Nat
  /-- cycles for which it holds the pipe (R57, R139) -/
  beats : Nat
  deriving DecidableEq, Repr

/-- One entry of a rill queue (R211, R217). A queue is a list, head first; what is not listed is empty. -/
inductive RillEntry where
  /-- reserved by the operation in flight with this tag of the group with this number, whose result is not known -/
  | reserved (group tag : Nat)
  /-- reserved, with the result that will fill it -/
  | ready (value : Word)
  | filled (value : Word)
  /-- filled, with an error that its code cannot correct (R424) -/
  | flawed (value : Word)
  deriving DecidableEq, Repr

/-- One thread (R48). Its lane is its place in `Group.threads`. -/
structure Thread where
  tid : Nat
  /-- position in the team order, fixed at creation and at `REGROUP` (R212) -/
  pos : Nat
  /-- the register stack; an index not listed holds 0 -/
  stack : List (Nat × Word)
  pred : Word
  b0 : DWord
  b1 : DWord
  b2 : DWord
  b3 : DWord
  /-- inbound queues xp xm yp ym zp zm (R211) -/
  xp : List RillEntry
  xm : List RillEntry
  yp : List RillEntry
  ym : List RillEntry
  zp : List RillEntry
  zm : List RillEntry
  /-- entries of the stack that hold an error that their code cannot correct (R424) -/
  badStack : List Nat
  /-- predicates that do -/
  badPreds : List Nat
  deriving DecidableEq, Repr

/-- What a producer wrote, for the latency rule of R60. -/
inductive Target where
  /-- an entry of the register stack of each thread -/
  | v (index : Nat)
  | s (index : Nat)
  | h (index : Nat)
  | p (index : Nat)
  | em
  | nf
  | uc
  | rm
  /-- a special register by its index -/
  | special (index : Nat)
  deriving DecidableEq, Repr

/-- A result whose latency has not elapsed: the values before the write, per lane for a per-thread target (R60). -/
structure Hazard where
  target : Target
  old : List DWord
  left : Nat
  /-- the instruction that wrote it, by the count that stood when the group had last issued before -/
  producer : Nat
  /-- the lanes where the value before the write may still be read -/
  lanes : LaneMask
  deriving DecidableEq, Repr

/-- Flags of fpc raised by a producer whose latency has not elapsed (R129). -/
structure PendingFlags where
  flags : BitVec 7
  left : Nat
  deriving DecidableEq, Repr

/-- The home of a page (R245). -/
inductive Home where
  | cached | uncached | frame | pinned
  deriving DecidableEq, Repr

/-- One access of one lane (lane 0 for a uniform access): address, place, operands, and the bytes of the group's own
earlier stores that a load takes first (R67, R280). -/
structure LaneAcc where
  lane : Nat
  va : DWord
  pa : Nat
  home : Home
  opnd : DWord
  opnd2 : DWord
  fwd : List (Option Byte)
  /-- the table lines that its translation came from (R253) -/
  tbl : List Nat
  deriving DecidableEq, Repr

/-- Where a result is written. Stack entries are absolute, so a later window move does not change them. -/
inductive Dst where
  | none
  | v (first words : Nat)
  /-- 64-bit uniform registers; `handler` for the handler registers -/
  | s (handler : Bool) (first count : Nat)
  /-- bits [31:0] of an s-register, the rest kept (R261, AT.CAS.W) -/
  | sLow (handler : Bool) (index : Nat)
  | port (port : Nat)
  deriving DecidableEq, Repr

inductive AtomOp where
  | add | min | max | minu | maxu | swap | cas | and | or | xor | fadd | fmin | fmax
  deriving DecidableEq, Repr

/-- Bytes of one line that a matrix cell reads or writes. -/
structure Seg where
  va : DWord
  pa : Nat
  home : Home
  len : Nat
  /-- the table lines that its translation came from (R253) -/
  tbl : List Nat
  deriving DecidableEq, Repr

/-- A row or column of a matrix operand: its pieces in order, its bytes at acceptance and when that was, and the addresses of
the poisoned lines among them then (R327, R331, R332, R339). -/
structure MtxRow where
  segs : List Seg
  old : List Byte
  /-- `State.draws` at acceptance (R332) -/
  since : Nat
  poison : List DWord
  deriving DecidableEq, Repr

/-- An accepted matrix cell (R324). -/
inductive MtxOp where
  /-- accumulator, accumulate control, factor, the format codes of A and B, the operands (R326), and the pinned lines -/
  | mma (acc ctl : Nat) (factor : A80) (afmt bfmt : Nat) (rows cols : List MtxRow) (pins : List Nat)
  | zero (acc : Nat)
  | scale (acc : Nat) (factor : A80)
  | move (acc src : Nat)
  | load (acc : Nat) (rows : List MtxRow)
  | read (dst : Dst) (values : List (Nat × Nat))
  /-- (64 i + j, value) -/
  | write (acc : Nat) (values : List (Nat × A80))
  /-- pieces of lines with their data -/
  | store (pieces : List (Seg × Nat))
  deriving DecidableEq, Repr

inductive FlightKind where
  | load (size : Nat) (dst : Dst) (scope : Nat) (acq inv : Bool) (lanes : List LaneAcc)
  | atomic (op : AtomOp) (size : Nat) (dst : Dst) (scope : Nat) (acq : Bool) (lanes : List LaneAcc)
  /-- lanes of an atomic that have been performed on table lines, whose translations must be out of use before their values
  return (R253), and the lanes that are left -/
  | returned (op : AtomOp) (size : Nat) (dst : Dst) (scope : Nat) (acq : Bool) (values : List (Nat × Nat))
    (lines : List Nat) (lanes : List LaneAcc)
  /-- an acknowledgement to come; the table lines written, whose translations must be out of use first (R253), and
  whether it is a synchronisation transaction (R416) -/
  | store (lines : List Nat) (sync : Bool)
  /-- (lane, address) -/
  | sload (size : Nat) (dst : Dst) (lanes : List (Nat × Nat))
  /-- (lane, (address, (low and high 8 bytes))) -/
  | sstore (size : Nat) (lanes : List (Nat × (Nat × (DWord × DWord))))
  | long (dst : Dst) (values : List (Nat × Nat)) (flags : BitVec 7)
  /-- an engine command whose record has not been read -/
  | command (cmd : Nat)
  | mtx (op : MtxOp) (flags : BitVec 7)
  deriving DecidableEq, Repr

/-- An operation in flight (R64). A counter is the number of operations of its path in the list. -/
structure Flight where
  tag : Nat
  path : Nat
  pc : DWord
  /-- the translation is outstanding; it will find a page fault (R371) -/
  walking : Bool
  /-- the address and the info field of that fault -/
  fva : DWord
  finfo : Nat
  /-- complete, and waiting for an older operation of its path (R65) -/
  done : Bool
  /-- when it began: the order in which requests reach a cache (R240) -/
  born : Nat
  /-- operations that stood before it in the list of a line that has been filled since, as (line, (group, tag)): they are
  answered first (R240) -/
  after : List (Nat × (Nat × Nat))
  kind : FlightKind
  deriving DecidableEq, Repr

/-- A line of the region store buffer (R368). -/
structure StoreLine where
  /-- PA divided by 64 -/
  line : Nat
  home : Home
  mask : BitVec 64
  data : BitVec 512
  scope : Nat
  tbl : List Nat
  /-- loads of the group that must return first (R278) -/
  after : List Nat
  committed : Bool
  deriving DecidableEq, Repr

/-- What ends the stall of a group, where its stall counter does not say it alone (R182). -/
inductive Hold where
  /-- what the counter names -/
  | cause
  /-- the counter of a path stands at `n` or below -/
  | path (k n : Nat)
  /-- the ports that an instruction pops and pushes can proceed in the lanes of a mask -/
  | rill (mask : BitVec 64) (pops : List Nat) (push : Option Nat)
  /-- every entry of a queue is filled in the lanes of a mask -/
  | drain (mask : BitVec 64) (port : Nat)
  /-- every operation that a release of the scope waits for is over -/
  | release (scope : Nat)
  /-- every load that an acquire of the scope waits for has returned -/
  | acquire (scope : Nat)
  /-- the region store buffer has room for `n` more lines -/
  | room (n : Nat)
  /-- the loads have returned, and the banks of these addresses hold no line -/
  | banks (pas : List Nat)
  /-- no earlier access to these lines is under way -/
  | lines (lines : List Nat)
  /-- no access in flight touches the 8 bytes at an address -/
  | bytes (pa : Nat)
  /-- no access under way was translated through these lines -/
  | tables (lines : List Nat)
  /-- the queue of an engine has room -/
  | engine (cascade : Bool) (unit : Nat)
  /-- a launch queue has room -/
  | queue (q : Nat)
  /-- the phase of a team barrier that the group has arrived at is over; `sync` at a second `BAR.SYNC` -/
  | arrived (k : Nat) (sync : Bool)
  /-- no delivery into a window of the group's cluster is under way -/
  | landing (tag : Nat)
  /-- no command of the team has its dense side in the scratchpad -/
  | scratch
  /-- a translation that the group waits for has come -/
  | pages
  /-- no directory half is being rebuilt, and no page is being flipped -/
  | rebuild
  deriving DecidableEq, Repr

/-- What a group stalls at. -/
inductive Wait where
  | none
  /-- stalled at issue for a reason that is looked at again at the next issue -/
  | retry
  /-- SETW 0, REGROUP 1, RCFG 2, with the operand and the instruction word (R197) -/
  | rendezvous (which : Nat) (operand : DWord) (word : Word)
  | bar (k : Nat) (phase : BitVec 16)
  | cbar (phase : Word)
  /-- parked in WAITV on a line at a scope's point; whether the point held a free monitor entry for it, and whether that
  entry has fired since (R273, R274) -/
  | waitv (line scope : Nat) (entry fired : Bool)
  /-- blocked at a rill instruction, with the port that blocks (R226) -/
  | rill (port : Nat)
  /-- stalled at an MTX cell, with its place in the order of stalling, the instruction word, and the lines that it has pinned,
  where it has pinned them (R324, R330) -/
  | mtx (order : Nat) (word : Word) (pins : Option (List Nat))
  deriving DecidableEq, Repr

/-- A page fault that a parked group waits on (R371, R377). -/
structure PendingFault where
  va : DWord
  seq : BitVec 16
  fetch : Bool
  deriving DecidableEq, Repr

/-- One group (R48, R165). -/
structure Group where
  id : Nat
  live : Bool
  team : Nat
  gix : Nat
  core : Nat
  pipe : Nat
  pc : DWord
  threads : List Thread
  sregs : List (Nat × DWord)
  hregs : List (Nat × DWord)
  em : LaneMask
  nf : BitVec 16
  fpc : Word
  wb : Nat
  rstart : DWord
  /-- the region's recorded window base (R155) -/
  rwb : Nat
  gstat : Word
  tcause : Byte
  tpc : DWord
  tval : DWord
  tem : LaneMask
  hva : DWord
  wsa : DWord
  wss : Word
  wsd : Word
  gcyc : DWord
  /-- valid latches, 0 to 4 (R63) -/
  latches : Nat
  /-- the next instruction is a switch point whatever its half-word (R63) -/
  switch : Bool
  /-- the distance of the next instruction has elapsed and its barrier waits have begun (R57, R59) -/
  came : Bool
  /-- the index of the stall counter of what the group stalls at; 0 for nothing (R411) -/
  stalled : Nat
  /-- what ends that stall -/
  hold : Hold
  /-- the first word of the instruction that the group has come to, and its slot, once fetched: they stand in the prefetch
  buffer while it stalls (R164) -/
  fetched : Option (Word × IssueSlot)
  hazards : List Hazard
  flags : List PendingFlags
  flights : List Flight
  nextTag : Nat
  storeBuf : List StoreLine
  wait : Wait
  /-- the team barrier phases that a half-word's wait began in (R59) -/
  barWait : List (Nat × BitVec 16)
  /-- the phase last arrived at, per barrier (R201) -/
  arrived : List (Nat × BitVec 16)
  fault : Option PendingFault
  /-- taken backward transfers since the last progress point (R378) -/
  watchdog : Nat
  /-- paths on whose wait a deferred poison trap is taken, and its tval (R381) -/
  ppath : BitVec 6
  pva : DWord
  /-- a poisoned WAITV is trapped before the next instruction (R273) -/
  ppend : Bool
  /-- the reslice vector is to be entered before anything else (R176) -/
  resliced : Bool
  /-- stall counters 0x100 to 0x118 (R411) -/
  stalls : List (Nat × DWord)
  /-- when it last issued, for R410 -/
  lastIssue : Nat
  /-- the value of `State.draws` from which on the group may have prefetched code: its start or its last `ISYNC` (R163,
  R164) -/
  codeTime : Nat
  /-- uniform registers that hold an error that their code cannot correct (R424): whether it is a handler register, and its
  number -/
  bad : List (Bool × Nat)
  deriving DecidableEq, Repr

/-- A team barrier (R200). -/
structure Barrier where
  phase : BitVec 16
  count : Nat
  deriving DecidableEq, Repr

/-- One team (R165 to R168). -/
structure Team where
  id : Nat
  live : Bool
  launch : Nat
  tix : Nat
  /-- the core, or the leader core of the pair -/
  core : Nat
  pspan : Bool
  slot : Nat
  gw : Nat
  ngrp : Nat
  /-- present threads, the length of the team order -/
  nthr : Nat
  wal : Nat
  bars : List Barrier
  rcfg : BitVec 16
  spb : Nat
  /-- where its allocation begins in the core's, or the leader's, scratchpad (R243, R271) -/
  spBase : Nat
  scratch : List (Nat × Byte)
  /-- poisoned 64-byte blocks of the scratchpad (R424) -/
  spoison : List Nat
  /-- the matrix context of the pair, 0 or 1 (R323) -/
  ctx : Option Nat
  /-- element (i, j) of accumulator k at 2048 k + 64 i + j; not listed is +0 (R322) -/
  acc : List (Nat × A80)
  /-- the accepted cell in progress: group and tag (R324) -/
  mtxBusy : Option (Nat × Nat)
  succ : Option DWord
  crank : Nat
  /-- when placed, for R406 -/
  placed : Nat
  /-- the unit is being pre-empted (R382) -/
  stopping : Bool
  /-- a successor team: it belongs to no cohort (R206) -/
  isSuccessor : Bool
  deriving DecidableEq, Repr

/-- A context descriptor (R395). -/
structure CtxDesc where
  ivec : Nat
  sig : Nat
  pfr : Nat
  nslot : Nat
  slsz : Nat
  pool : Nat
  rpa : Nat
  fqa : Nat
  hva : DWord
  root : Nat
  deriving DecidableEq, Repr

/-- A launch record (R399). -/
structure LaunchRec where
  entry : DWord
  ctx : Nat
  dstrict : Bool
  poison : Bool
  pclass : Bool
  prio : Nat
  maxsc : Nat
  ring : Bool
  coh : Nat
  spb : Nat
  dprec : Bool
  mctx : Bool
  pspan : Bool
  wal : Nat
  reqw : Nat
  nthr : Nat
  gz : Nat
  gy : Nat
  gx : Nat
  rvec : DWord
  hoffset : Nat
  hlimit : Nat
  hbase : Nat
  thr1 : Nat
  thr0 : Nat
  dep1 : DWord
  dep0 : DWord
  ctr : DWord
  live : DWord
  sched : DWord
  code : DWord
  deriving DecidableEq, Repr

inductive LaunchStage where
  | waiting | eligible | running | complete
  deriving DecidableEq, Repr

/-- An admitted launch (R401 to R406). -/
structure Launch where
  id : Nat
  record : LaunchRec
  desc : CtxDesc
  /-- degraded precision in force (R426) -/
  degraded : Bool
  stage : LaunchStage
  /-- when it became eligible (R403) -/
  order : Nat
  /-- teams placed so far, in ascending tix (R405) -/
  placed : Nat
  ended : Nat
  /-- teams of this record refused as successors (R206) -/
  refused : Nat
  /-- successor records that could not be read (R404) -/
  errors : Nat
  /-- the queue it came from, and the address of its record -/
  queue : Option Nat
  recva : DWord
  /-- cause and end record of a launch ended by a fault (R366) -/
  fault : Option Nat
  /-- CBAR phase and arrivals (R203) -/
  cphase : Word
  ccount : Nat
  /-- started only through EXIT successors (R206), and the tix of the teams started or refused so far -/
  viaExit : Bool
  started : List Nat
  /-- cores that its teams have run on (R404) -/
  cores : List Nat
  /-- `State.draws` when its first team was placed, 0 before (R287) -/
  began : Nat
  deriving DecidableEq, Repr

/-- What the scheduler remembers of a saved group beside its record: the barrier phases arrived at, a barrier at which
it waits, and a reslice vector still to be entered (R176, R201, R203). -/
structure SavedGroup where
  tix : Nat
  gix : Nat
  arrived : List (Nat × BitVec 16)
  wait : Wait
  resliced : Bool
  /-- the page fault that the group waits on, with its pc and lowest tid, for a reply that ends the launch (R374) -/
  fault : Option PendingFault
  pc : DWord
  tid0 : Word
  deriving DecidableEq, Repr

/-- A unit whose save block lies in a slot, or is about to (R382, R384). -/
structure SavedUnit where
  id : Nat
  launch : Nat
  tixs : List Nat
  slot : Nat
  /-- the block has been written -/
  saved : Bool
  /-- the tix pairs that were z peers (R231) -/
  mirrors : List (Nat × Nat)
  /-- (tix, tid, position in the team order) of each thread (R212, R228) -/
  positions : List (Nat × (Nat × Nat))
  /-- the positions of each team's order, by tix (R212) -/
  spans : List (Nat × Nat)
  groups : List SavedGroup
  /-- replies to faults of its groups that arrived while it was saved: sequence number and act (R374, R375) -/
  answers : List (BitVec 16 × Nat)
  deriving DecidableEq, Repr

/-- A line of a core's write buffer (R277). -/
structure WriteEntry where
  core : Nat
  group : Nat
  line : Nat
  home : Home
  mask : BitVec 64
  data : BitVec 512
  scope : Nat
  tbl : List Nat
  /-- loads of the group that must return first (R278) -/
  after : List Nat
  deriving DecidableEq, Repr

/-- A copy of a line in an L1 (level 0), L2 (level 1) or L3 (level 2) (R279). -/
structure Copy where
  level : Nat
  unit : Nat
  line : Nat
  /-- registered up to this scope -/
  reg : Nat
  dirty : BitVec 64
  data : BitVec 512
  poison : Bool
  /-- its dirty bytes come from a write of the whole line, which clears poison wherever they arrive (R425) -/
  whole : Bool
  /-- pinned by a home 11 page (R246) -/
  pinned : Bool
  deriving DecidableEq, Repr

/-- A value that a copy of a line (level 0, 1 or 2) or its home (level 3) held, or that CORE-scope loads of a core (level
4) or the tile fetch units of a cluster (level 5) saw, and `State.draws` when it was last replaced (R164, R287). -/
structure HeldValue where
  line : Nat
  level : Nat
  unit : Nat
  data : BitVec 512
  poison : Bool
  last : Nat
  deriving DecidableEq, Repr

/-- A tensor shape record (R347, R348). -/
structure ShapeRec where
  pmask : BitVec 16
  extent : List Nat
  stride : List Int
  size : List Nat
  padval : Word
  padsel : Bool
  spd : Bool
  shadow : Bool
  rop : Nat
  ndim : Nat
  esz : Nat
  op : Nat
  aux : DWord
  base : DWord
  /-- every reserved field is 0, and so are the fields of the dimensions at or above ndim -/
  clean : Bool
  deriving DecidableEq, Repr

/-- `lost`: the die of its engine has failed, and its refusal is to be counted (R418). -/
inductive CmdStage where
  | queued | read | moved | lost
  deriving DecidableEq, Repr

inductive DeliveryStage where
  | sending | flagSent | landed | refused
  deriving DecidableEq, Repr

/-- One delivery of a Cascade command (R359, R443). -/
structure Delivery where
  cluster : Nat
  stage : DeliveryStage
  /-- message number and, once the data is acknowledged, sequence number of the counter message, to a peer (R443) -/
  msg : BitVec 32
  seq : BitVec 32
  /-- offsets in the box of packets that are not acknowledged -/
  unacked : List Nat
  /-- the elements of the box that are still to be written on this device, as (first, count) (R289) -/
  todo : List (Nat × Nat)
  /-- the place and the line of the window's publish descriptor, read once, before the first element (R354, R360) -/
  pub : Option (Nat × BitVec 512)
  deriving DecidableEq, Repr

/-- An engine command (R345). -/
structure Command where
  id : Nat
  cascade : Bool
  /-- cluster of a Runnel engine, hub of a Cascade engine -/
  unit : Nat
  core : Nat
  scope : Nat
  launch : Nat
  team : Nat
  tix : Nat
  group : Nat
  ctr : DWord
  recva : DWord
  dense : DWord
  coord : List Int
  tag : Nat
  peer : Nat
  stage : CmdStage
  shape : Option ShapeRec
  /-- refusals counted so far, of the command or of deliveries (R354) -/
  errors : Nat
  /-- what counts once for the command: a skipped element, an element outside its region, a poisoned source line -/
  skipped : Bool
  beyond : Bool
  poisoned : Bool
  /-- the box of a Cascade command: its elements' bytes and poison; none for a skipped one -/
  box : List (Option (List Byte × Bool))
  /-- addresses to skip after a reply with act 1 (R376) -/
  skip : List DWord
  fault : Option (DWord × BitVec 16)
  deliveries : List Delivery
  /-- the elements of the box that a Runnel operation has not moved yet, as (first, count) (R289) -/
  todo : List (Nat × Nat)
  /-- the place and the line of the publish descriptor, and the index list, read once, before the first element (R354) -/
  prep : Option (Option (Nat × BitVec 512) × List Nat)
  deriving DecidableEq, Repr

/-- An entry of a cluster's landing table (R358). -/
structure Landing where
  cluster : Nat
  tag : Nat
  launch : Nat
  shadow : Bool
  /-- window base, or the publish descriptor's address -/
  va : DWord
  length : Nat
  deriving DecidableEq, Repr

/-- A fault record waiting for room in the fault queue (R372, R373). -/
structure FaultRec where
  ctx : Nat
  fqa : Nat
  sig : Nat
  ivec : Nat
  va : DWord
  pc : DWord
  tid0 : Word
  tix : Word
  seq : BitVec 16
  kind : Nat
  info : Nat
  deriving DecidableEq, Repr

/-- A launch queue's register block (R396) and its leader (R407). -/
structure Queue where
  err : Bool
  dev : Bool
  en : Bool
  ctx : Nat
  cap : Word
  rd : Word
  wr : Word
  base : Nat
  /-- wr was written beyond the capacity, and no valid wr since (R397) -/
  blocked : Bool
  leader : Option Nat
  deriving DecidableEq, Repr

/-- A compute die (R427). -/
structure Die where
  inc : BitVec 16
  pdeg : BitVec 16
  pfuse : Word
  csteps : Nat
  pinov : BitVec 16
  ce : BitVec 16
  cmask : BitVec 4
  dstate : Nat
  /-- the partner keeps its directory half and the rebuild has not ended (R419) -/
  rebuilding : Bool
  /-- the die has stopped, and is not declared failed yet (R416, R448) -/
  silent : Bool
  deriving DecidableEq, Repr

/-- What only the fuses hold (R427 to R430). -/
structure Fuses where
  smask : BitVec 8
  dmask : BitVec 16
  dprec : Bool
  lifecycle : BitVec 3
  pdeg : List (Nat × BitVec 16)
  pfuse : List (Nat × Word)
  cmask : List (Nat × BitVec 4)
  deriving DecidableEq, Repr

/-- An entry of a hub's address translation cache (R433). -/
structure AtsEntry where
  hub : Nat
  page : Nat
  read : Bool
  write : Bool
  deriving DecidableEq, Repr

/-- A line that the host's own caches hold dirty (R435, R436). -/
structure HostLine where
  line : Nat
  data : BitVec 512
  /-- poison travels over CXL (R425) -/
  poison : Bool
  deriving DecidableEq, Repr

/-- Numbers recorded for one sender (R443): the newest and those seen below it. -/
structure Window where
  sender : Nat
  newest : Option (BitVec 32)
  seen : List (BitVec 32 × Nat)
  deriving DecidableEq, Repr

/-- Packet numbers recorded for one association (R441). -/
structure PnWindow where
  said : Word
  newest : Option DWord
  seen : List DWord
  deriving DecidableEq, Repr

/-- Whether the module is powered, a wipe runs (R430), and the command processors run: they are held where the boot ROM
refuses their image (R428, R429). -/
inductive Power where
  | off | wiping | on | held
  deriving DecidableEq, Repr

/-- What befalls stored bits (R424). -/
inductive Upset where
  /-- an error that a die corrects -/
  | corrected (die : Nat)
  /-- more than the code of a line of DRAM corrects -/
  | dram (line : Nat)
  /-- two bits of the data of a copy in an L1, L2 or L3 (level 0, 1 or 2) -/
  | cache (level unit line : Nat)
  /-- two bits of a 64-byte block of a team's scratchpad -/
  | scratch (team block : Nat)
  /-- a die's tags, directories or translation caches -/
  | control (die : Nat)
  /-- a die stops answering (R416) -/
  | silent (die : Nat)
  /-- entry `index` of the register stack of a lane -/
  | stack (group lane index : Nat)
  | pred (group lane index : Nat)
  /-- the `k`-th entry of an inbound queue -/
  | queue (group lane port k : Nat)
  /-- an s-register or a handler register -/
  | uniform (group : Nat) (handler : Bool) (index : Nat)
  /-- an element of a team's accumulators, by its place in `Team.acc` -/
  | element (team index : Nat)
  deriving DecidableEq, Repr

/-- What a move of the device carries beside its operands: the range of elements that an engine moves (all that are left, where it
names none of them), which dirty bytes of a copy stay when it pushes some, whether the receiver of a packet skipped an element,
whether the host's data are poisoned, and the host page that a translation names. The outside sets it (log entry 70). -/
structure MoveInput where
  first : Nat
  count : Nat
  stays : BitVec 64
  skipped : Bool
  poison : Bool
  /-- none for the page of the address itself -/
  page : Option Nat
  deriving DecidableEq, Repr

/-- A packet or a counter message that has left a hub (R440 to R443). -/
structure SentPacket where
  hub : Nat
  /-- IPv6 address of the peer's endpoint -/
  addr : BitVec 128
  /-- the local port and the entropy field of its path -/
  port : Nat
  entropy : Nat
  /-- the association's identifier, the packet number and the tag of a protected packet -/
  prot : Option (Word × (DWord × BitVec 128))
  /-- message number, or sequence number of a counter message -/
  num : BitVec 32
  flag : Bool
  cluster : Nat
  tag : Nat
  /-- byte offset of the box in the window, the box's length, and the offset of the data in the box -/
  base : Nat
  size : Nat
  off : Nat
  rop : Nat
  esz : Nat
  poison : Bool
  /-- encrypted under an association -/
  payload : List Byte
  deriving DecidableEq, Repr

/-- The whole machine. -/
structure State where
  /-- the moves of the device that come next, oldest first; a group issues when there is none -/
  script : List Instr
  /-- errors of storage that are to happen, oldest first (R424) -/
  upsets : List Upset
  /-- what the next moves of the device carry, oldest first -/
  inputs : List MoveInput
  /-- the group in focus: it issues next -/
  cur : Group
  others : List Group
  issue : IssueSlot
  teams : List Team
  launches : List Launch
  units : List SavedUnit
  /-- physical memory by byte address; scratchpad page frames lie above 2^52 (R239, R247) -/
  mem : List Host.Cell
  /-- poisoned lines, strictly rising (R425) -/
  poison : List Nat
  writeBuf : List WriteEntry
  copies : List Copy
  /-- values that lines have held before (R164, R287) -/
  past : List HeldValue
  /-- table lines from which translations are cached (R253) -/
  tableLines : List Nat
  /-- values of table lines from which translations may still be cached (R253) -/
  oldTables : List (Nat × BitVec 512)
  /-- first touches that wait: (descriptor, (line of the page, home of the page)) (R255) -/
  pulls : List (Nat × (Nat × Home))
  /-- writer masks by line (R417) -/
  writers : List (Nat × BitVec 16)
  fallen : BitVec 16
  /-- 4 KiB pages in host bias, by PA / 4096 (R435) -/
  hostBias : List Nat
  hostLines : List HostLine
  /-- lines in device bias of which a DEV half has recorded a host copy, under CXL 3.x (R435) -/
  hostCopies : List Nat
  /-- the host page that the host's IOMMU gives for a page of I/O virtual addresses, by their numbers; the same where none is
  listed (R433) -/
  hostMap : List (Nat × Nat)
  /-- page frames set aside per core (R395) -/
  frames : List (Nat × Nat)
  /-- arithmetic clock cycles per core (R156, ccyc) -/
  cycles : List (Nat × DWord)
  /-- the matrix context whose MMA last ran on a pair's array (R324) -/
  arrayLast : List (Nat × Nat)
  arrayBusy : List (Nat × Nat)
  commands : List Command
  landings : List Landing
  faultRecs : List FaultRec
  /-- next fault sequence number per context (R373) -/
  faultSeq : List (Nat × BitVec 16)
  interrupts : List Nat
  queues : List (Nat × Queue)
  dies : List (Nat × Die)
  fuses : Fuses
  ctxBase : DWord
  biasCmd : DWord
  peerBase : DWord
  peerCnt : DWord
  saBase : DWord
  saCnt : DWord
  saDrop : DWord
  nonce : BitVec 256
  attDest : DWord
  attCmd : DWord
  meas : BitVec 512
  /-- shared stall counters, by index + 0x200 × the number of the unit that the index names (R411) -/
  shared : List (Nat × DWord)
  power : Power
  /-- the line last answered to the host, and whether it was poisoned (R435) -/
  hostAnswer : Option (BitVec 512 × Bool)
  ats : List AtsEntry
  atsMiss : List (Nat × Nat)
  /-- width and generation of each host link (R431) -/
  links : List (Nat × (Nat × Nat))
  /-- CXL 3.x rather than CXL 2.0 on each hub's host link (R3, R431) -/
  cxl3 : List (Nat × Bool)
  /-- Ethernet ports that are up, with 1.6 Tb/s rather than 800 Gb/s (R439) -/
  ports : List (Nat × Bool)
  /-- paths that are down, as (hub, (peer, path)), and retransmission timeouts in a row (R442) -/
  pathsDown : List (Nat × (Nat × Nat))
  timeouts : List ((Nat × (Nat × Nat)) × Nat)
  uetMsgs : List Window
  uetFlags : List Window
  pnWindows : List PnWindow
  /-- next packet number of each association by table index (R441), and the index of a spent one -/
  pnNext : List (Nat × DWord)
  nextMsg : List (Nat × BitVec 32)
  nextSeq : List (Nat × BitVec 32)
  /-- packets that have left, newest first (R442) -/
  sent : List SentPacket
  /-- packets that each hub has sprayed to each peer, as ((hub, peer), count) (R442) -/
  sprayed : List ((Nat × Nat) × Nat)
  pomasDown : List Nat
  /-- next number for groups, teams, launches, units, commands, and for orders of events -/
  fresh : Nat
  /-- free values drawn so far; the model's own field -/
  draws : Nat
  /-- the group that holds each pipe (4 × core + pipe) and the cycles of its run (R410) -/
  pipes : List (Nat × (Nat × Nat))
  /-- steps since the focus last made room for others, and how often it has; the model's own fields -/
  burst : Nat
  cursor : Nat
  deriving DecidableEq, Repr

/-- A thread of a new team (R389, R400). -/
def Thread.new (tid : Nat) : Thread :=
  { tid := tid, pos := tid, stack := [], pred := 0, b0 := 0, b1 := 0, b2 := 0, b3 := 0,
    xp := [], xm := [], yp := [], ym := [], zp := [], zm := [], badStack := [], badPreds := [] }

/-- A group with every register zero (R389, R400). -/
def Group.zero : Group :=
  { id := 0, live := false, team := 0, gix := 0, core := 0, pipe := 0, pc := 0, threads := [], sregs := [], hregs := [],
    em := 0, nf := 0, fpc := 0, wb := 0, rstart := 0, rwb := 0, gstat := 0, tcause := 0, tpc := 0, tval := 0, tem := 0,
    hva := 0, wsa := 0, wss := 0, wsd := 0, gcyc := 0, latches := 0, switch := true, came := false, stalled := 0, hold := .cause, fetched := none, hazards := [], flags := [],
    flights := [], nextTag := 0, storeBuf := [], wait := .none, barWait := [], arrived := [], fault := none,
    watchdog := 0, ppath := 0, pva := 0, ppend := false, resliced := false, stalls := [], lastIssue := 0, codeTime := 0, bad := [] }

/-- A sound part in the production state (R427, R429). -/
def Fuses.sound : Fuses :=
  { smask := 0xFF, dmask := 0xFFFF, dprec := false, lifecycle := 2, pdeg := [], pfuse := [], cmask := [] }

/-- A launch queue after reset (R396). -/
def Queue.reset : Queue :=
  { err := false, dev := false, en := false, ctx := 0, cap := 0, rd := 0, wr := 0, base := 0, blocked := false, leader := none }

/-- A die after reset, as its fuses state it (R427). -/
def Die.reset (f : Fuses) (n : Nat) : Die :=
  { inc := 0, pdeg := ((f.pdeg.find? (·.1 == n)).map (·.2)).getD 0, pfuse := ((f.pfuse.find? (·.1 == n)).map (·.2)).getD 0,
    csteps := 0, pinov := 0, ce := 0, cmask := ((f.cmask.find? (·.1 == n)).map (·.2)).getD 0,
    dstate := if f.dmask.getLsbD n then 1 else 0, rebuilding := false, silent := false }

/-- The machine right after reset with the fuses given, its wipe under way: no launch, no team, DRAM all zero (R430). -/
def State.resetWith (f : Fuses) : State :=
  { script := [], upsets := [], inputs := [], cur := Group.zero, others := [], issue := { half := 0, half2 := 0, word := 0, len := 1, beats := 1 },
    teams := [], launches := [], units := [], mem := [], poison := [], writeBuf := [], copies := [], past := [], tableLines := [], oldTables := [], pulls := [], writers := [],
    fallen := 0, hostBias := [], hostLines := [], hostCopies := [], hostMap := [], frames := [], cycles := [], arrayLast := [], arrayBusy := [],
    commands := [], landings := [], faultRecs := [], faultSeq := [], interrupts := [], queues := [], dies := (List.range 16).map fun n => (n, Die.reset f n),
    fuses := f, ctxBase := 0, biasCmd := 0, peerBase := 0, peerCnt := 0, saBase := 0, saCnt := 0, saDrop := 0,
    nonce := 0, attDest := 0, attCmd := 0, meas := 0, shared := [], power := .wiping, hostAnswer := none, ats := [],
    atsMiss := [], links := [(0, (16, 7)), (1, (16, 7))], cxl3 := [(0, true), (1, true)], ports := (List.range 8).map fun p => (p, true),
    pathsDown := [], timeouts := [], uetMsgs := [], uetFlags := [], pnWindows := [], pnNext := [], nextMsg := [],
    nextSeq := [], sent := [], sprayed := [], pomasDown := [], fresh := 1, draws := 0, pipes := [], burst := 0, cursor := 0 }

/-- The machine right after reset. -/
def State.reset : State := State.resetWith Fuses.sound

end Sys2Proof.Machine
end

