-- ==== Sys2Proof/Machine/Memory.lean ====
section
/-! DEFINITION. Physical memory, poison, cached copies and write buffers: what a load of a scope sees, what a store of a
scope does, push_out and pull_in (R236 to R247, R266, R267, R277 to R286, R425). -/

namespace Sys2Proof.Machine

/-- Every group on the device. Number 0 stands for no group. -/
def State.groups (s : State) : List Group := (if s.cur.id = 0 then [] else [s.cur]) ++ s.others

def State.group? (s : State) (g : Nat) : Option Group := s.groups.find? (·.id == g)

/-- What a byte of memory that nothing has written reads as: the wipe of R430 for DRAM, log entry 2 for host memory. -/
def unwritten : Byte := 0

/-- The canonical form of memory. -/
def Memory.wf (m : List Host.Cell) : Bool := swf unwritten m

def State.byte (s : State) (pa : Nat) : Byte := sget unwritten s.mem pa

def State.setByte (s : State) (pa : Nat) (b : Byte) : State := { s with mem := sset unwritten s.mem pa b }

def State.bytes (s : State) (pa n : Nat) : List Byte := (List.range n).map fun i => s.byte (pa + i)

def State.setBytes (s : State) (pa : Nat) : List Byte → State
  | [] => s
  | b :: rest => (s.setByte pa b).setBytes (pa + 1) rest

/-- The little-endian value of `n` bytes at `pa`. -/
def State.num (s : State) (pa n : Nat) : Nat := leNat (s.bytes pa n)

def State.setNum (s : State) (pa n x : Nat) : State := s.setBytes pa (leBytes n x)

/-- The key of a home 10 frame in `mem`, above every physical address (R247). -/
def frameKey (pa : Nat) : Nat := 2 ^ 52 + pa

def hostBase : Nat := 0x100_0000_0000

def dramEnd : Nat := 0xC0_0000_0000

def isDram (pa : Nat) : Bool := pa < dramEnd

def isHostMem (pa : Nat) : Bool := hostBase ≤ pa && pa < 2 ^ 52

def stackOfPa (pa : Nat) : Nat := pa / 0x18_0000_0000

/-- A stack is masked out where its DRAM is, or both of its dies are (R426). -/
def State.stackPresent (s : State) (k : Nat) : Bool :=
  s.fuses.smask.getLsbD k && (s.fuses.dmask.getLsbD (2 * k) || s.fuses.dmask.getLsbD (2 * k + 1))

/-- The address exists and its stack is present (R239, R426). -/
def State.paExists (s : State) (pa : Nat) : Bool := isHostMem pa || (isDram pa && s.stackPresent (stackOfPa pa))

/-- Where a line lies at its home: that of host memory in the host page that the host's IOMMU gives for its address (R433). -/
def State.homeKey (s : State) (line : Nat) : Nat :=
  if isHostMem (64 * line) then hostBase / 64 + 64 * sget ((line - hostBase / 64) / 64) s.hostMap ((line - hostBase / 64) / 64) + line % 64
  else line

/-- A line is poisoned when it is marked so, in memory or in the host's caches, or when its writer mask names a fallen die
(R422, R425). -/
def State.poisoned (s : State) (line : Nat) : Bool :=
  s.poison.contains (s.homeKey line) || (sget 0 s.writers line &&& s.fallen) != 0 || s.hostLines.any fun h => h.line == line && h.poison

def State.setPoison (s : State) (line : Nat) (p : Bool) : State :=
  { s with poison := if p then ninsert (s.homeKey line) s.poison else s.poison.filter (· ≠ s.homeKey line),
           hostLines := s.hostLines.map fun h => if h.line = line then { h with poison := p } else h }

/-- A page of device DRAM in host bias (R435). -/
def State.inHostBias (s : State) (line : Nat) : Bool := s.hostBias.contains (line / 64)

/-- The 64 bytes of a line at its home. -/
def State.homeLine (s : State) (line : Nat) : BitVec 512 :=
  match s.hostLines.find? (·.line == line) with
  | some h => h.data
  | none => BitVec.ofNat 512 (s.num (64 * s.homeKey line) 64)

def State.writeHome (s : State) (line : Nat) (mask : BitVec 64) (data : BitVec 512) : State :=
  (List.range 64).foldl
    (fun t i => if mask.getLsbD i then t.setByte (64 * s.homeKey line + i) (lineByte data i) else t)
    { s with hostLines := s.hostLines.map fun h =>
        if h.line = line then { h with data := mergeLine mask h.data data } else h }

/-! ### Places (R1, R2) -/

/-- A party of the memory system: the units on its path (R236, R276). -/
structure Agent where
  core : Option Nat
  cluster : Option Nat
  die : Option Nat
  ipo : Nat

def clusterOf (core : Nat) : Nat := core / 8

def dieOf (core : Nat) : Nat := core / 32

def ipoOf (die : Nat) : Nat := die / 8

def Agent.ofCore (c : Nat) : Agent := ⟨some c, some (c / 8), some (c / 32), c / 256⟩

def Agent.ofCluster (c : Nat) : Agent := ⟨none, some c, some (c / 4), c / 32⟩

def Agent.ofHub (h : Nat) : Agent := ⟨none, none, none, h⟩

/-- The die of a copy's unit. -/
def unitDie (level unit : Nat) : Nat := if level = 0 then unit / 32 else if level = 1 then unit / 4 else unit

/-- The unit of a level on the agent's path. -/
def Agent.unit (a : Agent) (level : Nat) : Option Nat :=
  if level = 0 then a.core else if level = 1 then a.cluster else if level = 2 then a.die else none

def Agent.onPath (a : Agent) (c : Copy) : Bool := a.unit c.level == some c.unit

/-- The level of a scope's coherence point: 0 L1, 1 L2, 2 L3, 3 a directory or the host (R238). -/
def pointLevel (scope : Nat) : Nat := if scope ≤ 1 then 0 else if scope = 2 then 1 else if scope = 3 then 2 else 3

/-- The copy lies in the instance of the scope's level that contains the agent (R276). -/
def Agent.covers (a : Agent) (scope : Nat) (c : Copy) : Bool :=
  let d := unitDie c.level c.unit
  if scope ≤ 1 then a.core == some c.unit && c.level == 0
  else if scope = 2 then a.cluster == some (if c.level = 0 then c.unit / 8 else c.unit) && c.level ≤ 1
  else if scope = 3 then a.die == some d
  else if scope = 4 then a.die.map (· / 2) == some (d / 2)
  else if scope = 5 then a.ipo == d / 8
  else true

/-- The party of a cache: the units outward from it. -/
def cacheAgent (level unit : Nat) : Agent :=
  if level = 0 then Agent.ofCore unit else if level = 1 then Agent.ofCluster unit
  else ⟨none, none, some unit, ipoOf unit⟩

/-- A core lies in the instance of the scope's level that contains the agent (R276). -/
def Agent.near (a : Agent) (scope core : Nat) : Bool :=
  let d := dieOf core
  if scope ≤ 1 then a.core == some core
  else if scope = 2 then a.cluster == some (clusterOf core)
  else if scope = 3 then a.die == some d
  else if scope = 4 then a.die.map (· / 2) == some (d / 2)
  else if scope = 5 then a.ipo == ipoOf d
  else true

/-- A store of the scope by the agent and the accesses that a copy serves cover each other (R276, R279). -/
def Agent.mutual (a : Agent) (scope : Nat) (c : Copy) : Bool := a.covers (Nat.min scope c.reg) c

/-- Homes and biases whose lines no cache holds (R245, R435). -/
def State.uncachedLine (s : State) (home : Home) (line : Nat) : Bool :=
  home == .uncached || home == .frame || s.inHostBias line

def State.die (s : State) (d : Nat) : Die :=
  ((s.dies.find? (·.1 == d)).map (·.2)).getD (Die.reset s.fuses d)

/-- The die's directory half answers nothing: it is being rebuilt, or the die has stopped and is not declared failed yet. -/
def Die.halfLost (d : Die) : Bool := d.rebuilding || d.silent

/-- An access or a push at STK or wider that needs an entry of a lost directory half waits: from the partner die, or from any
die where a copy recorded with the stack has to be recalled, which a read needs for dirty bytes alone (R416, R419, R423). -/
def State.lostHalf (s : State) (write : Bool) (die scope line : Nat) : Bool :=
  decide (4 ≤ scope) && (List.range 16).any fun f =>
    let p := f ^^^ 1
    (s.die f).halfLost && nfield (64 * line) 12 1 == f % 2
      && (die == p || s.copies.any fun c => c.line == line && c.level < 3 && decide (4 ≤ c.reg) && unitDie c.level c.unit == p
        && (write || c.dirty != 0))

/-- A bias flip of the line's page is in progress: BIASCMD.busy (R436). -/
def State.flipping (s : State) (line : Nat) : Bool := s.biasCmd.getLsbD 2 && nfield s.biasCmd.toNat 12 40 == line / 64

/-- An access by a die, or a push, waits: its page is being flipped, the die has stopped, or it needs a lost directory half
(R419, R436). -/
def State.heldUp (s : State) (write : Bool) (die scope line : Nat) : Bool :=
  s.flipping line || (s.die die).silent || s.lostHalf write die scope line

/-! ### What an access sees (R280) -/

/-- The copies of a line on the agent's path, innermost first. -/
def State.pathCopies (s : State) (a : Agent) (line : Nat) : List Copy :=
  let on := s.copies.filter fun c => c.line = line && a.onPath c
  on.filter (·.level = 0) ++ on.filter (·.level = 1) ++ on.filter (·.level = 2)

/-- The copy that serves an access of a scope: one registered at the scope or wider up to the coherence point, else the
nearest one beyond it; `none` for the home. -/
def servingCopy (scope : Nat) (path : List Copy) : Option Copy :=
  let p := pointLevel scope
  match path.find? fun c => c.level ≤ p && scope ≤ c.reg with
  | some c => some c
  | none => path.find? fun c => p < c.level

/-- Poison where a copy's dirty bytes arrive: those of a write of the whole line replace it, any others leave it (R425). -/
def Copy.poisonOver (c : Copy) (old : Bool) : Bool := if c.whole then c.poison else old || c.poison

/-- A line with the dirty bytes of a copy in place of its own. -/
def withDirty (x : BitVec 512 × Bool) (c : Copy) : BitVec 512 × Bool :=
  if c.dirty = 0 then x else (mergeLine c.dirty x.1 c.data, c.poisonOver x.2)

/-- An L3 copy that keeps bytes performed at STK, IPO or, for host memory, DEV (R266). -/
def Copy.owns (c : Copy) : Bool := c.level == 2 && 4 ≤ c.reg && c.dirty != 0

/-- The copies of a line off an agent's path that keep bytes performed at a scope that covers the agent, those of the widest
scope first. -/
def State.owners (s : State) (a : Agent) (line : Nat) : List Copy :=
  let mine := s.copies.filter fun c => c.line == line && c.owns && !a.onPath c && a.covers c.reg c
  mine.filter (6 ≤ ·.reg) ++ mine.filter (·.reg = 5) ++ mine.filter (·.reg = 4)

/-- A line beyond an agent's caches: the home, with the bytes that other dies keep at a scope that covers the agent. Those of
the narrowest scope come last: they arrive at the wider points later. -/
def State.outer (s : State) (a : Agent) (line : Nat) : BitVec 512 × Bool :=
  (s.owners a line).foldl withDirty (s.homeLine line, s.poisoned line)

/-- The line at an access's point as a cache of level `lvl` of its path takes it, before the dirty bytes of the agent's own
copies there and beyond. -/
def State.servedFrom (s : State) (a : Agent) (lvl scope line : Nat) : BitVec 512 × Bool :=
  match servingCopy scope ((s.pathCopies a line).filter (lvl ≤ ·.level)) with
  | some c => (c.data, c.poison)
  | none => s.outer a line

/-- The line at an access's point, before the agent's own dirty bytes. -/
def State.served (s : State) (a : Agent) (scope line : Nat) : BitVec 512 × Bool := s.servedFrom a 0 scope line

/-- Dirty bytes of the agent's own copies at and beyond a level, the innermost last so that it wins. -/
def State.overlaid (s : State) (a : Agent) (lvl line : Nat) (x : BitVec 512 × Bool) : BitVec 512 × Bool :=
  ((s.pathCopies a line).filter (lvl ≤ ·.level)).reverse.foldl withDirty x

/-- The line as an access of this scope sees it, and whether it is poisoned. Dirty bytes of the agent's own copies come
first, whatever the home (R67). -/
def State.view (s : State) (a : Agent) (scope : Nat) (home : Home) (line : Nat) : BitVec 512 × Bool :=
  s.overlaid a 0 line (if s.uncachedLine home line then s.outer a line else s.served a scope line)

/-- The line at the coherence point of a table: its home, DEV for device DRAM and SYS for host memory. Walks read here
(R252). -/
def State.devLine (s : State) (line : Nat) : BitVec 512 × Bool := (s.homeLine line, s.poisoned line)

/-! ### What copies have held (R164, R287) -/

/-- The values that the home and the copies of a line hold. -/
def State.held (s : State) (line : Nat) : List HeldValue :=
  ⟨line, 3, 0, s.homeLine line, s.poisoned line, s.draws⟩
    :: (s.copies.filter fun c => c.line == line && c.level < 3).map fun c =>
      ⟨line, c.level, c.unit, c.data, c.poison, s.draws⟩

/-- The group has a matrix cell in flight. -/
def Group.inArray (g : Group) : Bool := g.flights.any fun f => !f.done && (match f.kind with
  | .mtx _ _ => true
  | _ => false)

/-- What the cores that run groups see in a line at CORE scope, and the tile fetch units at work at CLU scope. -/
def State.seenBy (s : State) (line : Nat) : List HeldValue :=
  ((s.groups.map (·.core)).eraseDups.map fun c =>
    let v := s.view (Agent.ofCore c) 1 .cached line
    ⟨line, 4, c, v.1, v.2, s.draws⟩)
    ++ ((s.groups.filter Group.inArray).map fun g => clusterOf g.core).eraseDups.map fun k =>
      let v := s.view (Agent.ofCluster k) 2 .cached line
      ⟨line, 5, k, v.1, v.2, s.draws⟩

/-- The values of a line are about to change. -/
def State.remember (s : State) (line : Nat) : State :=
  let vs := s.held line ++ s.seenBy line
  { s with past := vs ++ s.past.filter fun e => !vs.contains { e with last := s.draws } }

/-- The values that a line has held before, since a moment. -/
def State.pastSince (s : State) (line since : Nat) : List HeldValue :=
  s.past.filter fun e => e.line == line && decide (since ≤ e.last)

/-! ### Monitors (R274) -/

/-- Something happens to a line at a point; `hit` says at which points, by the core of the group and the scope. -/
def Group.monitor (g : Group) (line : Nat) (hit : Nat → Nat → Bool) : Group :=
  match g.wait with
  | .waitv l scope entry _ => if l = line ∧ hit g.core scope = true then { g with wait := .waitv l scope entry true } else g
  | _ => g

def State.notify (s : State) (line : Nat) (hit : Nat → Nat → Bool) : State :=
  { s with cur := s.cur.monitor line hit, others := s.others.map fun g => g.monitor line hit }

/-- The copy is the one at the point of a scope as a core sees it. -/
def Copy.atPoint (c : Copy) (core scope : Nat) : Bool :=
  pointLevel scope == c.level && (Agent.ofCore core).unit c.level == some c.unit

/-- Remove copies: a monitor at one of them fires, and what they held is remembered. -/
def State.dropCopies (s : State) (p : Copy → Bool) : State :=
  let t := (s.copies.filter p).foldl (fun t c => (t.remember c.line).notify c.line c.atPoint) s
  { t with copies := t.copies.filter fun c => !p c }

/-! ### Pins of the tile fetch units (R330, R332) -/

/-- The lines that an `MMA` of a group holds pinned, stalled or in the array. -/
def Group.tilePins (g : Group) : List Nat :=
  (match g.wait with
    | .mtx _ _ (some pins) => pins
    | _ => []) ++ g.flights.flatMap fun f => match f.kind with
      | .mtx (.mma _ _ _ _ _ _ _ pins) _ => if f.done then [] else pins
      | _ => []

/-- The lines that the tile fetch units of a cluster hold pinned in its L2. -/
def State.tilePins (s : State) (cluster : Nat) : List Nat :=
  (s.groups.filter fun g => clusterOf g.core == cluster).flatMap Group.tilePins

/-! ### Performing a store (R277, R279, R286) -/

/-- Poison after a write: a write of all 64 bytes replaces it, any other leaves it (R425). -/
def poisonAfter (mask : BitVec 64) (old new : Bool) : Bool := if mask = BitVec.allOnes 64 then new else old || new

/-- The first access to a line whose mask names a fallen die: it becomes poisoned and the bits are cleared (R422). -/
def State.touch (s : State) (line : Nat) : State :=
  let m := sget 0 s.writers line
  if m &&& s.fallen = 0 then s
  else { s.setPoison line true with writers := sset 0 s.writers line (m &&& ~~~s.fallen) }

/-- Bytes written to a line that an L3 pins lie in that L3 (R246, R417). -/
def Copy.pinWritten (c : Copy) (line : Nat) (mask : BitVec 64) : Copy :=
  if c.level = 3 ∧ c.line = line then { c with dirty := c.dirty ||| mask } else c

/-- Write bytes at the home of a line, whose poison becomes `q`. A host copy of it is recalled by a back-invalidate snoop
(R435). -/
def State.putHome (s : State) (line : Nat) (mask : BitVec 64) (data : BitVec 512) (q : Bool) : State :=
  let t := ((s.touch line).writeHome line mask data).setPoison line q
  { t with copies := t.copies.map fun c => c.pinWritten line mask, hostCopies := t.hostCopies.filter (· ≠ line) }

/-- The dirty bytes of a copy arrive at the home of its line. -/
def State.sendHome (s : State) (c : Copy) : State := s.putHome c.line c.dirty c.data (c.poisonOver (s.poisoned c.line))

/-- The host gives up a line of a page in host bias: what its caches hold dirty is written to DRAM (R435). -/
def State.takeFromHost (s : State) (line : Nat) : State :=
  match s.hostLines.find? (·.line == line) with
  | none => s
  | some h =>
    let t : State := { s.remember line with hostLines := s.hostLines.filter (·.line != line) }
    t.putHome line (BitVec.allOnes 64) h.data (s.poisoned line || h.poison)

/-- Put a copy in the place of the one of its level, unit and line. -/
def State.putCopy (s : State) (c : Copy) : State :=
  { s with copies := c :: s.copies.filter fun x => !(x.level == c.level && x.unit == c.unit && x.line == c.line) }

/-- The bytes that other dies keep at a scope that covers the agent go home, as R267, R279 and R286 have it and not the last row of R449
(log entry 99), where an access of scope `x` is performed and
covers some of them: the widest scope's first. No clean copy that they could have made old stays. -/
def State.gather (s : State) (a : Agent) (x line : Nat) : State :=
  let mine := s.owners a line
  if pointLevel x = 3 ∧ mine.any (a.mutual x) = true then
    ((mine.foldl State.sendHome (s.remember line)).dropCopies fun c =>
      c.line == line && c.level < 3 && !a.onPath c && (c.dirty == 0 || (c.owns && a.covers c.reg c))).notify line
      fun _ sc => decide (4 ≤ sc)
  else s

/-- An L2 copy that a tile fetch unit pins is updated in place where a store or an invalidation reaches it (R332): copies of
a line that `old` held come back with the line as it is now. -/
def State.keepPins (s old : State) (line : Nat) : State :=
  (old.copies.filter fun c => c.level == 1 && c.line == line && (old.tilePins c.unit).contains line).foldl
    (fun t c =>
      if t.copies.any fun x => x.level == 1 && x.unit == c.unit && x.line == line then t
      else
        let v := t.servedFrom (Agent.ofCluster c.unit) 1 c.reg line
        t.putCopy { c with data := v.1, poison := v.2, dirty := 0, whole := false }) s

/-- A store that no cache holds: it is performed at the home, which serves every scope. The agent's own copies take its
bytes, and clean copies elsewhere go (R245). -/
def State.performHome (s : State) (a : Agent) (line : Nat) (mask : BitVec 64) (data : BitVec 512) (p : Bool) : State :=
  let t := s.gather a 7 line
  let t := (t.remember line).putHome line mask data (poisonAfter mask (t.poisoned line) p)
  let t := t.dropCopies fun c => c.line == line && c.level < 3 && !a.onPath c && c.dirty == 0
  let t : State := { t with copies := t.copies.map fun c =>
    if c.line = line ∧ a.onPath c = true then
      { c with data := mergeLine mask c.data data, dirty := c.dirty &&& ~~~mask, poison := poisonAfter mask c.poison p }
    else c }
  (t.notify line fun _ _ => true).keepPins s line

/-- The scope that bytes of a scope are performed at: that of an L3 copy of the agent that keeps bytes of a wider one, and
the home where no L3 copy keeps them, or where the agent is a hub, which has no cache. A copy that keeps bytes performed at DEV equals its home in device DRAM (R266, R447). -/
def State.reach (s : State) (a : Agent) (scope line : Nat) : Nat :=
  match (s.pathCopies a line).find? (·.level = 2) with
  | some c =>
    let x := if 3 ≤ scope ∧ c.dirty ≠ 0 then Nat.max scope c.reg else scope
    if 6 < x ∨ (x = 6 ∧ isDram (64 * line) = true) then 7 else x
  | none => if 3 < scope ∨ a.die.isNone = true then 7 else scope

/-- Bytes at a coherence point: which are written, the line, its poison, and whether the writes include one of the whole
line (R425). -/
structure Arrival where
  mask : BitVec 64
  data : BitVec 512
  poison : Bool
  whole : Bool

/-- The dirty bytes of a copy below the point are written there. -/
def Arrival.carry (x : Arrival) (c : Copy) : Arrival :=
  if c.dirty = 0 then x
  else
    { mask := x.mask ||| c.dirty, data := mergeLine c.dirty x.data c.data, poison := c.poisonOver x.poison,
      whole := x.whole || c.whole }

/-- A store's bytes are written there. -/
def Arrival.add (x : Arrival) (mask : BitVec 64) (data : BitVec 512) (p : Bool) : Arrival :=
  { mask := x.mask ||| mask, data := mergeLine mask x.data data, poison := poisonAfter mask x.poison p,
    whole := x.whole || mask == BitVec.allOnes 64 }

/-- The line at a point of level `lvl`, before the bytes below it arrive. -/
def State.atLevel (s : State) (a : Agent) (lvl line : Nat) : BitVec 512 × Bool :=
  match (s.pathCopies a line).find? fun c => lvl ≤ c.level with
  | some c => (c.data, c.poison)
  | none => s.outer a line

/-- An agent's copy below a point after bytes have been performed there. The L3 copy that keeps the bytes has them dirty. A copy
that is registered up to the scope takes the bytes; a narrower one takes the line and is registered up to the scope. -/
def Copy.refreshed (c : Copy) (scope x : Nat) (v : Arrival) : Copy :=
  if c.level = 2 ∧ pointLevel x = 3 ∧ x ≤ 6 then
    { c with data := v.data, poison := v.poison, reg := x, dirty := c.dirty ||| v.mask, whole := c.whole || v.whole }
  else if scope ≤ c.reg then
    { c with data := mergeLine v.mask c.data v.data, poison := if v.whole then v.poison else c.poison || v.poison,
             dirty := c.dirty &&& ~~~v.mask }
  else { c with data := v.data, poison := v.poison, reg := scope, dirty := 0, whole := false }

/-- Bytes are at the point of scope `x`: other copies that the store covers are invalidated. -/
def State.reachPoint (s : State) (a : Agent) (scope x line : Nat) (v : Arrival) : State :=
  let lvl := pointLevel x
  let own := (s.pathCopies a line).find? (·.level = lvl)
  let atHome := decide (6 < x) || ((a.unit lvl).isNone && lvl != 3)
  let t := (s.remember line).dropCopies fun c =>
    c.line == line && c.level < 3 && !a.onPath c && (a.mutual x c || (atHome && c.dirty == 0))
  let t : State := { t with copies := t.copies.map fun c =>
    if c.line = line ∧ a.onPath c = true ∧ c.level < lvl then c.refreshed scope x v else c }
  let t := if atHome then t.putHome line v.mask v.data v.poison
    else if lvl = 3 then t
    else
      t.putCopy {
        level := lvl, unit := (a.unit lvl).getD 0, line := line, reg := Nat.max x 1,
        dirty := (match own with | some c => c.dirty | none => 0) ||| v.mask, data := v.data, poison := v.poison,
        whole := v.whole || (match own with | some c => c.whole | none => false), pinned := false }
  t.notify line fun core sc => Nat.max sc 1 ≤ Nat.max x 1 && a.near (Nat.max sc 1) core

/-- Perform bytes at a scope's coherence point. The agent's narrower dirty bytes below the point are carried along. With an
empty mask this is the push of R267 for one line. -/
def State.performAt (s : State) (a : Agent) (scope line : Nat) (mask : BitVec 64) (data : BitVec 512) (p : Bool) : State :=
  let x := s.reach a scope line
  let t := (s.touch line).gather a x line
  let below := (t.pathCopies a line).filter fun c => c.level < pointLevel x && c.reg < x
  let base := t.atLevel a (if below.any (·.level = 2) then 3 else Nat.min 2 (pointLevel x)) line
  let v := (below.reverse.foldl Arrival.carry ⟨0, base.1, base.2, false⟩).add mask data p
  if v.mask = 0 then s else (t.reachPoint a scope x line v).keepPins s line

/-! ### Table entries, and what keeps a way pinned (R245, R246, R249, R330) -/

def pteFrame (e : DWord) : Nat := nfield e.toNat 12 40 * 4096

def pteHome (e : DWord) : Home :=
  match nfield e.toNat 53 2 with
  | 0 => .cached
  | 1 => .uncached
  | 2 => .frame
  | _ => .pinned

/-- An 8-byte word as the device reads it at the DEV point, and whether its line is poisoned: no narrower copy is used
(R252). -/
def State.word64 (s : State) (pa : Nat) : DWord × Bool :=
  let v := s.devLine (pa / 64)
  (BitVec.ofNat 64 (leNat ((List.range 8).map fun i => lineByte v.1 (pa % 64 + i))), v.2)

/-- The die whose L3 pins a line: PA[12] of its home stack. A line of host memory has no home stack: its mark bears the number of
no die of the device, so that the line lies in the host's memory (DESIGN CHOICE, log entry 88). -/
def pinDie (line : Nat) : Nat := 2 * stackOfPa (64 * line) + nfield (64 * line) 12 1

/-- The mark of a home 11 line that has been accessed: pinned, or past the 8 pinned lines of its set. Its data holds the
address of the entry that gives the page its home, its dirty mask the bytes written since. -/
def pinMark (line entryPa : Nat) (pinned : Bool) : Copy :=
  { level := 3, unit := pinDie line, line := line, reg := 7, dirty := 0, data := BitVec.ofNat 512 entryPa, poison := false,
    whole := false, pinned := pinned }

/-- The page's entry still gives the line home 11, as far as it can be read. Once it does not, the line has been written back
(R246, R253, R451). -/
def State.markHolds (s : State) (c : Copy) : Bool :=
  let e := s.word64 c.data.toNat
  c.level == 3 && (e.2 || pteHome e.1 == .pinned)

/-- The copy is never chosen as a victim (R237). -/
def State.pinnedCopy (s : State) (c : Copy) : Bool :=
  (c.level == 3 && c.pinned && s.markHolds c) || (c.level == 1 && (s.tilePins c.unit).contains c.line)

/-- The copy cannot leave its cache now: it is pinned, or the push of its dirty bytes has to wait (R237, R448). -/
def State.stuckCopy (s : State) (c : Copy) : Bool :=
  s.pinnedCopy c || (c.level == 2 && c.dirty != 0 && s.heldUp true c.unit 7 c.line)

/-! ### Sets and ways (R236, R237) -/

/-- The slice and the set of a line in a cache of a level. -/
def cachePlace (level line : Nat) : Nat × Nat :=
  let pa := 64 * line
  if level = 0 then (0, nfield pa 6 9)
  else if level = 1 then (nfield pa 6 4 ^^^ nfield pa 10 4 ^^^ nfield pa 14 4, nfield pa 6 9)
  else (nfield pa 6 5 ^^^ nfield pa 11 5 ^^^ nfield pa 16 5, nfield pa 6 11)

/-- The ways of a set. -/
def cacheWays (level : Nat) : Nat := if level = 0 then 8 else 16

/-- The copies that take a way of the set of a line; a pinned line takes one of its L3. -/
def State.inSet (s : State) (level unit line : Nat) : List Copy :=
  s.copies.filter fun c =>
    (c.level == level || (level == 2 && c.level == 3 && c.pinned)) && c.unit == unit && c.line != line
      && cachePlace level c.line == cachePlace level line

/-- The line has a way: it is held already, or its set has one free. -/
def State.hasWay (s : State) (level unit line : Nat) : Bool :=
  (s.copies.any fun c => c.level == level && c.unit == unit && c.line == line)
    || decide ((s.inSet level unit line).length < cacheWays level)

/-- The copy leaves its cache, its dirty bytes one level outward (R280). -/
def State.pushOutward (s : State) (c : Copy) : State :=
  let t := if c.dirty = 0 then s else s.performAt (cacheAgent c.level c.unit) (if c.level = 2 then 7 else c.level + 2) c.line 0 0 false
  t.dropCopies fun x => x.level == c.level && x.unit == c.unit && x.line == c.line

/-- The copy that gives up its way: which one is not visible to programs; one that cannot leave never. -/
def State.victim (s : State) (level unit line : Nat) : Option Copy :=
  if s.hasWay level unit line then none else (s.inSet level unit line).reverse.find? fun c => !s.stuckCopy c

def State.makeRoom3 (s : State) (unit line : Nat) : State :=
  match s.victim 2 unit line with
  | some c => s.pushOutward c
  | none => s

/-- A way beyond for the dirty bytes of a copy that leaves an L2. -/
def State.roomBeyond2 (s : State) (c : Copy) : State := if c.dirty = 0 then s else s.makeRoom3 (c.unit / 4) c.line

def State.makeRoom2 (s : State) (unit line : Nat) : State :=
  match s.victim 1 unit line with
  | some c => (s.roomBeyond2 c).pushOutward c
  | none => s

/-- A way beyond for the dirty bytes of a copy that leaves an L1. -/
def State.roomBeyond1 (s : State) (c : Copy) : State := if c.dirty = 0 then s else s.makeRoom2 (c.unit / 8) c.line

def State.makeRoom1 (s : State) (unit line : Nat) : State :=
  match s.victim 0 unit line with
  | some c => (s.roomBeyond1 c).pushOutward c
  | none => s

/-- A way one level outward for the dirty bytes of a copy. -/
def State.roomBeyond (s : State) (c : Copy) : State :=
  if c.level = 0 then s.roomBeyond1 c else if c.level = 1 then s.roomBeyond2 c else s

/-- A way for a line at a level of the agent's path. -/
def State.makeRoom (s : State) (a : Agent) (level line : Nat) : State :=
  match a.unit level with
  | none => s
  | some u => if level = 0 then s.makeRoom1 u line else if level = 1 then s.makeRoom2 u line else s.makeRoom3 u line

/-- Perform bytes at a scope's coherence point. -/
def State.perform (s : State) (a : Agent) (scope : Nat) (home : Home) (line : Nat) (mask : BitVec 64)
    (data : BitVec 512) (p : Bool) : State :=
  if s.uncachedLine home line then s.performHome a line mask data p
  else (if scope ≤ 3 then s.makeRoom a (pointLevel scope) line else s).performAt a scope line mask data p

/-- The line takes the place of the agent's copies that an access of the scope passes over, once their dirty bytes are
merged in (R280). -/
def State.fetched (s : State) (a : Agent) (scope line : Nat) : State :=
  let v := s.served a scope line
  { s.remember line with copies := s.copies.map fun c =>
      if c.line = line ∧ a.onPath c = true ∧ c.level < pointLevel scope ∧ c.reg < scope then
        { c with data := mergeLine c.dirty v.1 c.data, poison := if c.dirty = 0 then v.2 else c.poisonOver v.2,
                 reg := if c.dirty = 0 then scope else c.reg }
      else c }

/-- A line arrives at a level of an agent's path for an access of a scope, and registers up to that scope, with the dirty bytes
of the agent's copies that it passes and none of those further in. A copy there that holds dirty bytes keeps them and its
registration. -/
def State.fill (s : State) (a : Agent) (level unit line scope : Nat) : State :=
  let t := (s.touch line).makeRoom a level line
  let v := t.overlaid a level line (t.servedFrom a level scope line)
  let kept := t.copies.find? fun c => c.level == level && c.unit == unit && c.line == line && c.dirty != 0
  (t.remember line).putCopy (match kept with
    | some c => { c with data := v.1, poison := v.2 }
    | none => { level := level, unit := unit, line := line, reg := scope, dirty := 0, data := v.1, poison := v.2, whole := false,
                pinned := false })

/-- Lines with dirty bytes in the agent's copies below a scope's point that are narrow for it. -/
def State.narrowLines (s : State) (a : Agent) (scope : Nat) : List Nat :=
  (s.copies.filter fun c => a.onPath c && c.level < pointLevel scope && c.dirty != 0 && decide (c.reg < scope)).map (·.line)

/-- A draining store of scope CLU or wider leaves its line in the L1, registered up to the scope (R277). -/
def State.keepLine (s : State) (core scope line : Nat) : State :=
  if scope < 2 ∨ (s.copies.any fun c => c.level == 0 && c.unit == core && c.line == line) = true then s
  else
    let t := s.makeRoom1 core line
    let v := t.served (Agent.ofCore core) scope line
    t.putCopy { level := 0, unit := core, line := line, reg := scope, dirty := 0, data := v.1, poison := v.2, whole := false,
                pinned := false }

/-- Drain one write-buffer entry at a scope no narrower than its own (R277). -/
def State.performEntry (s : State) (e : WriteEntry) (scope : Nat) : State :=
  let x := Nat.max e.scope scope
  let t := s.perform (Agent.ofCore e.core) x e.home e.line e.mask e.data false
  if s.uncachedLine e.home e.line then t else t.keepLine e.core x e.line

/-- The bank of a line in a write buffer (R277). -/
def bankOf (line : Nat) : Nat := line % 8

/-- A line can leave a write buffer: the loads that it waits for have returned (R278), and no rebuild holds it (R419). -/
def State.freeToDrain (s : State) (e : WriteEntry) : Bool :=
  !s.heldUp true (dieOf e.core) e.scope e.line && (match s.group? e.group with
    | none => true
    | some g => g.flights.all fun f => f.done || !e.after.contains f.tag)

/-- The lines of a core that can leave its write buffer now: in each bank those before the first that waits for a load. -/
def State.drainable (s : State) (core : Nat) : List WriteEntry → List Nat → List WriteEntry × List WriteEntry
  | [], _ => ([], [])
  | e :: rest, held =>
    if e.core = core ∧ held.contains (bankOf e.line) = false ∧ s.freeToDrain e = true then
      let r := s.drainable core rest held
      (e :: r.1, r.2)
    else
      let r := s.drainable core rest (if e.core = core then bankOf e.line :: held else held)
      (r.1, e :: r.2)

/-- push_out(X) from a core: write buffer first, then the levels of R266. A line that waits for a load stays. Bytes of other cores that
rest in the agent's outer caches go along, which R285's example leaves open (DESIGN CHOICE, log entry 94). -/
def State.pushOut (s : State) (core scope : Nat) : State :=
  let r := s.drainable core s.writeBuf []
  let t := r.1.foldl (fun t e => t.performEntry e (if scope ≤ 1 then 0 else scope)) { s with writeBuf := r.2 }
  let a := Agent.ofCore core
  (t.narrowLines a scope).foldl (fun t l => t.perform a scope .cached l 0 0 false) t

/-- pull_in(X): push, then invalidate the copies below the point that were narrow for X (R267). An L3 that keeps the bytes
it pushed is registered up to X. -/
def State.pullIn (s : State) (core scope : Nat) : State :=
  let a := Agent.ofCore core
  let narrow := s.copies.filter fun c => a.onPath c && c.level < pointLevel scope && decide (c.reg < scope)
  let t := (s.pushOut core scope).dropCopies fun c =>
    a.onPath c && c.level < pointLevel scope && c.dirty == 0
      && (decide (c.reg < scope) || narrow.any fun x => x.level == c.level && x.line == c.line)
  (narrow.map (·.line)).eraseDups.foldl (fun t l => t.keepPins s l) t

/-- The copies of a line with dirty bytes, those of the outer caches first; among copies of one level the order is
free (R286). -/
def State.dirtyCopies (s : State) (line : Nat) (rev : Bool) : List Copy :=
  let mine := s.copies.filter fun c => c.line = line && c.level < 3 && c.dirty != 0
  let mine := if rev then mine.reverse else mine
  mine.filter (·.level = 2) ++ mine.filter (·.level = 1) ++ mine.filter (·.level = 0)

/-- Push the dirty bytes of every copy of a line to its home; no copy that they could have made old stays. -/
def State.flushLineBy (s : State) (line : Nat) (rev : Bool) : State :=
  let ds := s.dirtyCopies line rev
  if ds.isEmpty then s
  else
    ((ds.foldl State.sendHome (s.remember line)).dropCopies fun c => c.line == line && c.level < 3).notify line
      fun _ sc => decide (4 ≤ sc)

/-- Recall every copy of a line in the package; dirty bytes merge at the home, narrow ones last (R255, R286). -/
def State.recall (s : State) (line : Nat) : State :=
  ((s.flushLineBy line false).dropCopies fun c => c.line == line && c.level < 3).keepPins s line

/-! ### Bytes as an agent reads and writes them -/

/-- `n` bytes at a place, none crossing a line. -/
def State.loadBytes (s : State) (a : Agent) (scope : Nat) (home : Home) (pa n : Nat) : List Byte × Bool :=
  let v := s.view a scope home (pa / 64)
  ((List.range n).map fun i => lineByte v.1 (pa % 64 + i), v.2)

def State.storeBytes (s : State) (a : Agent) (scope : Nat) (home : Home) (pa n x : Nat) : State :=
  let p := placeBytes (pa % 64) n x
  s.perform a scope home (pa / 64) p.1 p.2 false

/-! ### Pins of home 11 (R246) -/

/-- The line is pinned in an L3. -/
def State.pinnedLine (s : State) (line : Nat) : Bool := s.copies.any fun c => c.line == line && c.pinned && s.markHolds c

/-- Marks whose page has another home now go. -/
def State.unpin (s : State) : State := { s with copies := s.copies.filter fun c => c.level != 3 || s.markHolds c }

/-- The first access to a home 11 line pins it, or counts a pin overflow. -/
def State.pinLine (s : State) (line entryPa : Nat) : State :=
  let s := s.unpin
  if s.copies.any fun c => c.level == 3 && c.line == line then s
  else
    let same := s.copies.filter fun c => c.pinned && c.unit == pinDie line && cachePlace 2 c.line == cachePlace 2 line
    if same.length < 8 then { s.makeRoom3 (pinDie line) line with copies := pinMark line entryPa true :: (s.makeRoom3 (pinDie line) line).copies }
    else
      { s with
        copies := pinMark line entryPa false :: s.copies,
        dies := s.dies.map fun e =>
          if e.1 = pinDie line then (e.1, { e.2 with pinov := if e.2.pinov = 0xFFFF then 0xFFFF else e.2.pinov + 1 })
          else e }

/-! ### Writer masks (R417) -/

/-- The dies whose caches hold dirty bytes of a line, and the fallen ones that did. -/
def State.writerMask (s : State) (line : Nat) : BitVec 16 :=
  let live := s.copies.filter fun c => c.line = line && c.dirty != 0 && (c.level < 3 || (c.pinned && s.markHolds c))
  let m : BitVec 16 := live.foldl (fun (acc : BitVec 16) c =>
    acc ||| (1#16 <<< (if c.level = 3 then c.unit else unitDie c.level c.unit))) 0
  m ||| sget 0 s.writers line

end Sys2Proof.Machine
end

