-- ==== Sys2Proof/Machine/Focus.lean ====
section
/-! DEFINITION. Finding and replacing groups, teams, launches and dies, and moving the focus from one group to another. -/

namespace Sys2Proof.Machine

/-- The result of one operation of the machine. -/
abbrev Out := Host.Outcome State Fault Refusal

/-- A move of the device whose conditions do not hold. -/
def notEnabled (name : String) : Out := .fault (.notEnabled name)

/-- Keep a move of the device where its conditions hold. -/
def Out.ofOption (name : String) : Option State → Out
  | some s => .next s
  | none => notEnabled name

/-! ### What the outside gives a move -/

/-- What the next move of the device carries. -/
def State.moveInput (s : State) : MoveInput := s.inputs.headD ⟨0, 0, 0, false, false, none⟩

/-- A move has taken it. -/
def State.tookInput (s : State) : State := { s with inputs := s.inputs.drop 1 }

/-! ### Values for a group without a team -/

def CtxDesc.zero : CtxDesc :=
  { ivec := 0, sig := 0, pfr := 0, nslot := 0, slsz := 0, pool := 0, rpa := 0, fqa := 0, hva := 0, root := 0 }

def LaunchRec.zero : LaunchRec :=
  { entry := 0, ctx := 0, dstrict := false, poison := false, pclass := false, prio := 0, maxsc := 7, ring := false,
    coh := 0, spb := 0, dprec := false, mctx := false, pspan := false, wal := 64, reqw := 16, nthr := 1, gz := 1,
    gy := 1, gx := 1, rvec := 0, hoffset := 0, hlimit := 0, hbase := 0, thr1 := 0, thr0 := 0, dep1 := 0, dep0 := 0,
    ctr := 0, live := 0, sched := 0, code := 0 }

def Launch.zero : Launch :=
  { id := 0, record := LaunchRec.zero, desc := CtxDesc.zero, degraded := false, stage := .waiting, order := 0,
    placed := 0, ended := 0, refused := 0, errors := 0, queue := none, recva := 0, fault := none, cphase := 0, ccount := 0, viaExit := false, started := [],
    cores := [], began := 0 }

def Barrier.zero : Barrier := { phase := 0, count := 0 }

def Team.zero : Team :=
  { id := 0, live := false, launch := 0, tix := 0, core := 0, pspan := false, slot := 0, gw := 16, ngrp := 1, nthr := 0,
    wal := 64, bars := List.replicate 6 Barrier.zero, rcfg := 0, spb := 0, scratch := [], spoison := [], ctx := none,
    spBase := 0, acc := [], mtxBusy := none, succ := none, crank := 0, placed := 0, stopping := false, isSuccessor := false }

/-! ### Groups -/

/-- Replace the list of groups, keeping the focus where its group still exists. -/
def State.withGroups (s : State) (gs : List Group) : State :=
  match gs.find? (·.id == s.cur.id) with
  | some g => { s with cur := g, others := gs.filter (·.id != s.cur.id) }
  | none => { s with cur := Group.zero, others := gs }

/-- Apply `f` to every group that satisfies `p`. -/
def State.mapGroups (s : State) (p : Group → Bool) (f : Group → Group) : State :=
  { s with cur := if s.cur.id ≠ 0 ∧ p s.cur = true then f s.cur else s.cur,
           others := s.others.map fun g => if p g then f g else g }

def State.setGroup (s : State) (g : Group) : State := s.mapGroups (·.id == g.id) fun _ => g

/-- Put a group in focus. -/
def State.focus (s : State) (g : Nat) : State :=
  if s.cur.id = g then s
  else
    match s.group? g with
    | some x =>
      { s with cur := x, others := (s.others.filter (·.id != g)) ++ (if s.cur.id = 0 then [] else [s.cur]) }
    | none => { s with cur := Group.zero, others := s.groups }

/-- Run an operation with group `g` in focus and restore the focus. -/
def State.inGroup (s : State) (g : Nat) (f : State → State) : State := (f (s.focus g)).focus s.cur.id

/-- The same where the operation may be impossible, as it is for a group that does not exist. -/
def State.inGroup? (s : State) (g : Nat) (f : State → Option State) : Option State :=
  if (s.group? g).isNone then none
  else
    match f (s.focus g) with
    | some t => some (t.focus s.cur.id)
    | none => none

def State.modCur (s : State) (f : Group → Group) : State := { s with cur := f s.cur }

/-! ### Teams, launches and dies -/

def State.team? (s : State) (t : Nat) : Option Team := s.teams.find? (·.id == t)

/-- The team of the group in focus. -/
def State.team (s : State) : Team := (s.team? s.cur.team).getD Team.zero

def State.setTeam (s : State) (t : Team) : State :=
  { s with teams := s.teams.map fun x => if x.id = t.id then t else x }

def State.launch? (s : State) (l : Nat) : Option Launch := s.launches.find? (·.id == l)

def State.launch (s : State) : Launch := (s.launch? s.team.launch).getD Launch.zero

def State.setLaunch (s : State) (l : Launch) : State :=
  { s with launches := s.launches.map fun x => if x.id = l.id then l else x }

/-- Change a launch. -/
def State.modLaunch (s : State) (l : Nat) (f : Launch → Launch) : State :=
  { s with launches := s.launches.map fun x => if x.id = l then f x else x }

/-- Insert a group among groups of rising gix. -/
def insertByGix (g : Group) : List Group → List Group
  | [] => [g]
  | x :: rest => if g.gix < x.gix then g :: x :: rest else x :: insertByGix g rest

/-- The live groups of a team in rising gix. -/
def State.teamGroups (s : State) (t : Nat) : List Group :=
  (s.groups.filter fun g => g.team == t && g.live).foldr insertByGix []

/-- The threads of the live groups of a team. -/
def State.teamThreads (s : State) (t : Nat) : Nat := ((s.teamGroups t).map fun g => g.threads.length).sum

/-- The cores of a team whose leader is `c`. -/
def coresOf (pspan : Bool) (c : Nat) : List Nat := if pspan then [c, c + 1] else [c]

/-- Team scope: CLU for a pair-span team, else CORE (R202). -/
def Team.scope (t : Team) : Nat := if t.pspan then 2 else 1

def State.setDie (s : State) (d : Nat) (x : Die) : State :=
  { s with dies := s.dies.map fun e => if e.1 = d then (d, x) else e }

/-- The non-vacant lanes of a group (R166). -/
def Group.present (g : Group) : LaneMask := lowMask g.threads.length

/-- The in-flight counter of a path (R64). -/
def Group.count (g : Group) (path : Nat) : Nat := (g.flights.filter (·.path == path)).length

/-- A translation of the current region is outstanding (R371). -/
def Group.walking (g : Group) : Bool := g.flights.any (·.walking)

def Group.intrap (g : Group) : Bool := g.gstat.getLsbD 3

def Group.uc (g : Group) : Bool := g.gstat.getLsbD 2

/-- `w` with bit `i` set to `b`. -/
def setBit {n : Nat} (w : BitVec n) (i : Nat) (b : Bool) : BitVec n :=
  if b then w ||| BitVec.ofNat n (2 ^ i) else w &&& ~~~BitVec.ofNat n (2 ^ i)

/-- Lane `l` of a list of threads, changed. -/
def modLane (f : Thread → Thread) : Nat → List Thread → List Thread
  | _, [] => []
  | 0, t :: rest => f t :: rest
  | n + 1, t :: rest => t :: modLane f n rest

/-- The thread in a lane; a thread of zeros where the lane is vacant. -/
def Group.lane (g : Group) (l : Nat) : Thread := g.threads.getD l (Thread.new 0)

/-- Draw one free value. -/
def State.draw (s : State) : DWord × State := (Config.freeValue s.draws, { s with draws := s.draws + 1 })

/-- Take the next number for a group, team, launch, unit or command. -/
def State.number (s : State) : Nat × State := (s.fresh, { s with fresh := s.fresh + 1 })

end Sys2Proof.Machine
end

