-- ==== Sys2Proof/Machine/Translate.lean ====
section
/-! DEFINITION. Translation of virtual addresses: the heap window, the four-level walk, the accessed and dirty bits,
page homes, migration and the I/O addresses of host memory (R247 to R256, R433). -/

namespace Sys2Proof.Machine

/-- A free one of a list; one alone is that one. -/
def freeOneOf {α : Type} (key : Nat) : List α → Option α
  | [x] => some x
  | xs => xs[(Config.freeValue key).toNat % xs.length]?

/-- What an access does; `entry` for `PUBLISH`, which looks for a leaf entry whatever it permits (R356). -/
inductive Access where
  | load | store | atomic | fetch | entry
  deriving DecidableEq, Repr

/-- Where an access goes, and the table lines that its translation came from. -/
structure Placed where
  pa : Nat
  home : Home
  tbl : List Nat
  deriving DecidableEq, Repr

/-- What a translation answers. -/
inductive Xlate where
  | ok (p : Placed)
  /-- a page fault, with the level at which V = 0, or 0xFF for a poisoned table line or descriptor (R373, R451) -/
  | fault (info : Nat)
  | protect
  /-- the access waits for the host's translation of a page (R433) -/
  | ats (hub page : Nat)
  /-- the access waits for a line to be pulled from the old frame (R255) -/
  | pull (desc line : Nat) (home : Home)
  deriving DecidableEq, Repr

/-- A leaf entry that permits the access. -/
structure Leaf where
  entryPa : Nat
  entry : DWord
  level : Nat
  tbl : List Nat

inductive Walk where
  | leaf (l : Leaf)
  | stop (x : Xlate)

/-! ### Reading the tables -/

/-- The scope of a table's coherence point: DEV for device DRAM, SYS for host memory (R252). -/
def tableScope (pa : Nat) : Nat := if isHostMem pa then 7 else 6

/-- A host page that the hub has no translation for (R433). -/
def State.atsEntry (s : State) (hub pa : Nat) : Option AtsEntry :=
  s.ats.find? fun e => e.hub == hub && e.page == (pa - hostBase) / 4096

/-- What the host's translation says of an access to a physical address. -/
def State.atsCheck (s : State) (a : Agent) (acc : Access) (pa : Nat) : Option Xlate :=
  if isHostMem pa then
    match s.atsEntry a.ipo pa with
    | none => some (.ats a.ipo ((pa - hostBase) / 4096))
    | some e =>
      let needR := acc != .store
      let needW := acc == .store || acc == .atomic
      if (needR && !e.read) || (needW && !e.write) then some .protect else none
  else none

/-- The index of a virtual address at a table level (R248). -/
def tableIndex (va : DWord) (level : Nat) : Nat :=
  match level with
  | 3 => nfield va.toNat 39 18
  | 2 => nfield va.toNat 30 9
  | 1 => nfield va.toNat 21 9
  | _ => nfield va.toNat 12 9

/-- log2 of the page size of a leaf (R248). -/
def pageBits (level : Nat) (s64 : Bool) : Nat :=
  match level with
  | 2 => 30
  | 1 => 21
  | _ => if s64 then 16 else 12

/-- The second row of R250: an entry whose fields are not in order. -/
def State.pteBad (s : State) (e : DWord) (level : Nat) : Bool :=
  let leaf := e.getLsbD 1
  let m := e.getLsbD 55
  let s64 := e.getLsbD 9
  let frame := pteFrame e
  nfield e.toNat 56 8 != 0 || e.getLsbD 52 || nfield e.toNat 10 2 != 0 || e.getLsbD 6 || e.getLsbD 2
    || (level == 3 && leaf) || (level == 0 && !leaf)
    || (!leaf && (nfield e.toNat 52 12 != 0 || nfield e.toNat 2 10 != 0))
    || (level != 0 && (m || s64))
    || (e.getLsbD 4 && !e.getLsbD 3)
    || (leaf && !m && frame % 2 ^ pageBits level s64 != 0)
    || (!(leaf && !m && pteHome e == .frame) && !s.paExists frame)

/-- The third row of R250: the permission of the access. -/
def ptePermits (e : DWord) (acc : Access) : Bool :=
  match acc with
  | .load => e.getLsbD 3
  | .store => e.getLsbD 4
  | .atomic => e.getLsbD 3 && e.getLsbD 4
  | .fetch => e.getLsbD 3 && e.getLsbD 5
  | .entry => true

/-- A value of a table word from which a translation of an access may still be cached: it translates, and its A and D bits need
no change (R252, R253). -/
def State.cachedWord (s : State) (acc : Access) (level : Nat) (e : DWord) : Bool :=
  e.getLsbD 0 && !s.pteBad e level
    && (!e.getLsbD 1 || (ptePermits e acc && e.getLsbD 7 && (e.getLsbD 8 || !(acc == .store || acc == .atomic))))

/-- The values of that kind of the word at a place, of a line that has been written since (R253). -/
def State.oldWords (s : State) (acc : Access) (level pa : Nat) : List DWord :=
  ((s.oldTables.filter (·.1 == pa / 64)).map fun v =>
    (BitVec.ofNat 64 (leNat ((List.range 8).map fun i => lineByte v.2 (pa % 64 + i))) : DWord)).filter (s.cachedWord acc level)

/-- The entries with S64 = 1 of the aligned group of 16 that an entry lies in, with their addresses. No value of a
poisoned line is used (R251, R451). -/
def State.s64Group (s : State) (entryPa : Nat) : List (Nat × DWord) :=
  ((List.range 16).map fun i =>
      let pa := entryPa / 128 * 128 + 8 * i
      (pa, s.word64 pa)).filterMap fun e =>
    if e.2.2 = false ∧ e.2.1.getLsbD 0 = true ∧ e.2.1.getLsbD 9 = true then some (e.1, e.2.1) else none

/-- The level-0 entry that translates, with its address and whether its line is poisoned: the access's own one, or where
the group holds entries with S64 = 1, a free one of them; they are equal where software keeps R251. -/
def State.leafEntry (s : State) (va : DWord) (entryPa : Nat) : Nat × (DWord × Bool) :=
  let own := (entryPa, s.word64 entryPa)
  if own.2.2 then own
  else
    let g := s.s64Group entryPa
    match freeOneOf (s.draws * 512 + tableIndex va 0) g with
    | some e => (e.1, (e.2, false))
    | none => own

/-- The word of a table that a walk uses, with its place and whether its line is poisoned: what stands there, or while a store to
the line is not acknowledged, a free one of that and the values before (R253). -/
def State.tableWord (s : State) (acc : Access) (va : DWord) (level pa : Nat) : Nat × (DWord × Bool) :=
  let r := if level = 0 then s.leafEntry va pa else (pa, s.word64 pa)
  match s.oldWords acc level pa with
  | [] => r
  | olds =>
    if r.2.2 then r
    else (freeOneOf (s.draws * 2 ^ 24 + (level + 1) * 2 ^ 20 + tableIndex va level) (r :: olds.map fun e => (pa, (e, false)))).getD r

/-- The walk from a table of level `n - 1` down (R248, R250). A table in a range without memory reads as zeros, so that the access
finds a page fault: R250 names no test of the root (DESIGN CHOICE, log entry 87). -/
def State.walkFrom (s : State) (a : Agent) (acc : Access) (va : DWord) : Nat → Nat → List Nat → Walk
  | 0, _, _ => .stop .protect
  | n + 1, table, tbl =>
    let pa := table + 8 * tableIndex va n
    match s.atsCheck a .load pa with
    | some x => .stop x
    | none =>
      let r := s.tableWord acc va n pa
      let lines := tbl ++ (if r.1 / 64 = pa / 64 then [pa / 64] else [pa / 64, r.1 / 64])
      if r.2.2 then .stop (.fault 0xFF)
      else if !r.2.1.getLsbD 0 then .stop (.fault n)
      else if s.pteBad r.2.1 n then .stop .protect
      else if r.2.1.getLsbD 1 then
        if ptePermits r.2.1 acc then .leaf ⟨r.1, r.2.1, n, lines⟩ else .stop .protect
      else s.walkFrom a acc va n (pteFrame r.2.1) lines

/-- A migration descriptor (R254): new frame, old frame, lines pulled, and whether it is in order. -/
structure MigDesc where
  new : Nat
  old : Nat
  pulled : Nat
  ok : Bool
  poisoned : Bool

def State.migDesc (s : State) (desc bits : Nat) : MigDesc :=
  let v := s.devLine (desc / 64)
  let x := v.1.toNat
  let new := nfield x 0 64
  let old := nfield x 64 64
  { new := new, old := old, pulled := nfield x 128 64, poisoned := v.2,
    ok := nfield x 192 320 == 0 && new % 2 ^ bits == 0 && old % 2 ^ bits == 0
      && isDram new && s.paExists new && isDram old && s.paExists old }

/-- The bitmap byte of line `i` of a descriptor. -/
def validPa (desc i : Nat) : Nat := desc + 64 + i / 8

/-- That byte at the DEV point, and whether its line is poisoned. -/
def State.validByte (s : State) (desc i : Nat) : Byte × Bool :=
  let v := s.devLine (validPa desc i / 64)
  (lineByte v.1 (validPa desc i % 64), v.2)

/-- The accessed and dirty bits that an access needs (R252). -/
def bitsAD (acc : Access) : DWord := if acc = .store ∨ acc = .atomic then 0x180 else 0x080

/-- A leaf entry in host memory whose bits have to be set where the host's translation permits no write (R433). -/
def State.adRefused (s : State) (a : Agent) (acc : Access) (l : Leaf) : Option Xlate :=
  if l.entry &&& bitsAD acc = bitsAD acc then none else s.atsCheck a .store l.entryPa

/-- R247: the layout of a home 10 frame and its index. -/
def State.frameOk (s : State) (pa : Nat) : Bool :=
  pa < 2 ^ 30 && 192 - sget 0 s.frames (nfield pa 21 9) ≤ nfield pa 12 9 && nfield pa 12 9 < 192

/-- Step 3 of R116 for one address that passed steps 1 and 2. -/
def State.translate (s : State) (a : Agent) (desc : CtxDesc) (r : LaunchRec) (acc : Access) (va : DWord) : Xlate :=
  let v := va.toNat
  if r.hbase ≤ v ∧ v < r.hbase + r.hlimit then
    let pa := (v + r.hoffset) % 2 ^ 52
    if acc = .fetch then .protect
    else if !s.paExists pa then .protect
    else .ok ⟨pa, .cached, []⟩
  else
    match s.walkFrom a acc va 4 desc.root [] with
    | .stop x => x
    | .leaf l =>
     match s.adRefused a acc l with
     | some x => x
     | none =>
      let e := l.entry
      let bits := pageBits l.level (e.getLsbD 9)
      let off := v % 2 ^ bits
      let home := pteHome e
      if e.getLsbD 55 then
        if !isDram (pteFrame e) then .protect
        else
          let d := s.migDesc (pteFrame e) bits
          let i := off / 64
          let valid := s.validByte (pteFrame e) i
          if d.poisoned || valid.2 then .fault 0xFF
          else if !d.ok then .protect
          else if home == .frame && (e.getLsbD 9 || !s.frameOk (d.new + off)) then .protect
          else if valid.1.getLsbD (i % 8) then
            .ok ⟨if home == .frame then frameKey (d.new + off) else d.new + off, home, l.tbl⟩
          else .pull (pteFrame e) i home
      else if home == .frame then
        if l.level = 0 ∧ e.getLsbD 9 = false ∧ s.frameOk (pteFrame e) = true then
          .ok ⟨frameKey (pteFrame e + off), .frame, l.tbl⟩
        else .protect
      else
        let pa := pteFrame e + off
        match s.atsCheck a acc pa with
        | some x => x
        | none => .ok ⟨pa, home, l.tbl⟩

/-! ### What a translation leaves behind -/

/-- Set A, and D for a store or an atomic, by an atomic OR at the entry's coherence point (R252). -/
def State.setAD (s : State) (a : Agent) (acc : Access) (entryPa : Nat) (e : DWord) : State :=
  if e &&& bitsAD acc = bitsAD acc then s
  else s.storeBytes (Agent.ofHub a.ipo) (tableScope entryPa) .cached entryPa 8 (e ||| bitsAD acc).toNat

/-- A hub asks the host for a translation (R433). -/
def State.noteAts (s : State) (hub page : Nat) : State :=
  if s.atsMiss.contains (hub, page) then s else { s with atsMiss := (hub, page) :: s.atsMiss }

/-- The state after a translation: accessed and dirty bits, cached translations, and what the access waits for. -/
def State.settle (s : State) (a : Agent) (desc : CtxDesc) (r : LaunchRec) (acc : Access) (va : DWord) : State :=
  match s.translate a desc r acc va with
  | .ok p =>
    let t := { s with tableLines := p.tbl.foldl (fun acc l => ninsert l acc) s.tableLines }
    match p.tbl, s.walkFrom a acc va 4 desc.root [] with
    | _ :: _, .leaf l =>
      (if p.home = .pinned then t.pinLine (p.pa / 64) l.entryPa else t).setAD a acc l.entryPa l.entry
    | _, _ => t
  | .ats hub page => s.noteAts hub page
  | .pull d i home => if s.pulls.contains (d, (i, home)) then s else { s with pulls := (d, (i, home)) :: s.pulls }
  | .fault _ => s
  | .protect => s

/-- Copy a line that no access has touched yet from the old frame to the new one (R255). No value of a descriptor poisoned
since is used: the access that waited finds its page fault (R451). -/
def State.pullLine (s : State) (desc line : Nat) (home : Home) : State :=
  let a := Agent.ofHub 0
  let d := s.migDesc desc 12
  let old := (d.old + 64 * line) / 64
  let new := (if home = .frame then frameKey d.new + 64 * line else d.new + 64 * line) / 64
  let t : State := { s with pulls := s.pulls.filter fun p => !(p.1 == desc && p.2.1 == line) }
  if d.poisoned || (t.validByte desc line).2 then t
  else
    let t := t.recall old
    -- this write is none of those that clear poison (R425)
    let t := t.perform a 6 home new (BitVec.allOnes 64) (t.homeLine old) (t.poisoned old || (t.view a 6 home new).2)
    let b := (t.validByte desc line).1 ||| (1#8 <<< (line % 8))
    let t := t.storeBytes a 6 .cached (validPa desc line) 1 b.toNat
    t.storeBytes a 6 .cached (desc + 16) 8 ((d.pulled + 1) % 2 ^ 64)

/-- Steps 1 and 2 of R116: alignment, and a 57-bit address. -/
def aligned (va : DWord) (size : Nat) : Bool := va.toNat % size == 0

def canonical (va : DWord) : Bool := nfield va.toNat 56 8 == 0 || nfield va.toNat 56 8 == 0xFF

end Sys2Proof.Machine
end

