-- ==== Sys2Proof/Machine/Ops.lean ====
section
/-! DEFINITION. The named operations that meanings share: uniform registers, the end of an instruction, latches, region
commit and region end, stalls, taking a trap and returning from one, parking on a page fault, ending a launch by a
fault (R62 to R64, R159 to R160, R364 to R372, R380, R381). -/

namespace Sys2Proof.Machine

/-! ### Trap causes (R158) -/

def causeTrap : Nat := 0
def causeIllegal : Nat := 1
def causeOperand : Nat := 2
def causeAlign : Nat := 3
def causePage : Nat := 4
def causeProtect : Nat := 5
def causeOverflow : Nat := 6
def causeSpill : Nat := 7
def causeFill : Nat := 8
def causeWatchdog : Nat := 9
def causePoison : Nat := 10
def causeRill : Nat := 11
def causeScope : Nat := 12

/-! ### Uniform registers -/

/-- `true` where code 64 + `i` names a handler register (R159). -/
def Group.isHandlerReg (g : Group) (i : Nat) : Bool := g.intrap && 24 ≤ i && i < 32

/-- s-register `i` as an instruction reads it. -/
def Group.sreg (g : Group) (i : Nat) : DWord :=
  if g.isHandlerReg i then sget 0 g.hregs (i - 24) else sget 0 g.sregs i

/-- Write s-register `i`. In the handler the s31 of `CALL`, `CALLR` and `RET` is the handler register of that code too: R152 does not say
(DESIGN CHOICE, log entry 91). -/
def Group.setSreg (g : Group) (i : Nat) (x : DWord) : Group :=
  if g.isHandlerReg i then { g with hregs := sset 0 g.hregs (i - 24) x, bad := g.bad.filter (· != (true, i - 24)) }
  else { g with sregs := sset 0 g.sregs i x, bad := g.bad.filter (· != (false, i)) }

/-- What a hazard on s-register `i` names. -/
def Group.sTarget (g : Group) (i : Nat) : Target := if g.isHandlerReg i then .h (i - 24) else .s i

/-! ### The end of an instruction -/

/-- The address after the instruction in issue. -/
def State.nextPc (s : State) : DWord := s.cur.pc + BitVec.ofNat 64 (4 * s.issue.len)

/-- Shift the latches and place a value for each lane in b0 (R62, R63). -/
def Group.shift (g : Group) (v : Nat → DWord) : Group :=
  { g with
    threads := g.threads.mapIdx fun l t => { t with b3 := t.b2, b2 := t.b1, b1 := t.b0, b0 := v l },
    latches := if g.latches < 4 then g.latches + 1 else 4 }

/-- Go to an address: nothing holds the group any more. -/
def Group.goto (g : Group) (pc : DWord) : Group :=
  { g with pc := pc, wait := .none, switch := false, came := false, stalled := 0, barWait := [] }

/-- The issue distance of an instruction (R56). -/
def IssueSlot.dist (i : IssueSlot) : Nat := (i.half.extractLsb' 13 3).toNat

/-- The pipe of a group. -/
def Group.pipeKey (g : Group) : Nat := 4 * g.core + g.pipe

/-- The group that holds a pipe, 0 for none, and the cycles of its run (R410). -/
def State.holder (s : State) (pipe : Nat) : Nat × Nat := sget (0, 0) s.pipes pipe

/-- The pipes once the group in focus has issued its instruction: a group that takes a pipe begins a run. -/
def State.pipesAfter (s : State) : List (Nat × (Nat × Nat)) :=
  let h := s.holder s.cur.pipeKey
  sset (0, 0) s.pipes s.cur.pipeKey
    (s.cur.id, if h.1 = s.cur.id ∧ h.2 ≠ 0 then h.2 + s.issue.dist + s.issue.beats else s.issue.beats)

/-- The cycles of an instruction that has issued (R156 gcyc), and the moment for R410. -/
def Group.issued (g : Group) (beats now : Nat) : Group :=
  { g with gcyc := g.gcyc + BitVec.ofNat 64 beats, lastIssue := now }

/-- The phases of the team barriers in a mask. -/
def State.barsNow (s : State) (m : BitVec 6) : List (Nat × BitVec 16) :=
  ((List.range 6).filter fun k => m.getLsbD k).map fun k => (k, (s.team.bars.getD k Barrier.zero).phase)

/-- End an instruction at an address with a b0 value for each lane. The next one comes now at the earliest: the barrier phases
are those that a wait of it begins in (R59). -/
def State.finishAt (s : State) (pc : DWord) (b0 : Nat → DWord) : State :=
  { s with pipes := s.pipesAfter }.modCur fun g =>
    { (((g.shift b0).goto pc).issued s.issue.beats s.draws) with barWait := s.barsNow (BitVec.allOnes 6) }

/-- End an instruction whose b0 value is the same in every thread. -/
def State.finish (s : State) (b0 : DWord) : State := s.finishAt s.nextPc fun _ => b0

/-- End an instruction with a b0 value for each lane. -/
def State.finishLanes (s : State) (b0 : Nat → DWord) : State := s.finishAt s.nextPc b0

/-- A progress point of the watchdog (R378). -/
def State.progress (s : State) : State := s.modCur fun g => { g with watchdog := 0 }

/-! ### Stalls and their counters (R63, R411) -/

def stallDist : Nat := 0x100
def stallFull : Nat := 0x10D
def stallRillFull : Nat := 0x10E
def stallRillEmpty : Nat := 0x10F
def stallBarrier : Nat := 0x110
def stallBuffer : Nat := 0x111
def stallWaitv : Nat := 0x112
def stallFault : Nat := 0x113
def stallFetch : Nat := 0x114
def stallQueue : Nat := 0x115
def stallMtx : Nat := 0x116
def stallRegion : Nat := 0x117
def stallChosen : Nat := 0x118

/-- `n` cycles of a group at a cause. -/
def Group.countCycles (g : Group) (cause : Nat) (n : DWord) : Group :=
  { g with stalls := sset 0 g.stalls cause (sget 0 g.stalls cause + n) }

/-- Count a stall of the group; how many cycles pass is free. -/
def State.countStall (s : State) (cause : Nat) : State :=
  s.modCur fun g => g.countCycles cause (BitVec.ofNat 64 (Config.elapsed s.draws))

/-- Stall at issue; the next issue is a switch point. `hold` says what ends the stall. -/
def State.stallFor (s : State) (hold : Hold) (w : Wait) (cause : Nat) : State :=
  (s.countStall cause).modCur fun g => { g with wait := w, switch := true, latches := 0, stalled := cause, hold := hold }

def State.stallAt (s : State) (w : Wait) (cause : Nat) : State := s.stallFor .cause w cause

def State.stall (s : State) (cause : Nat) : State := s.stallAt .retry cause

/-- Stall until a condition holds. -/
def State.stallOn (s : State) (hold : Hold) (cause : Nat) : State := s.stallFor hold .retry cause

/-- A shared counter of a unit (R411). -/
def State.sharedCount (s : State) (i unit : Nat) : DWord := sget 0 s.shared (i + 0x200 * unit)

/-- `n` cycles of a unit at a shared cause. -/
def State.addShared (s : State) (i unit : Nat) (n : DWord) : State :=
  { s with shared := sset 0 s.shared (i + 0x200 * unit) (s.sharedCount i unit + n) }

/-! ### Synchronisation transactions (R415, R416) -/

/-- An access at a place crosses a Pomas link: the points of IPO and wider lie a hop away (R414). -/
def crossesLink (core scope : Nat) (home : Home) (pa : Nat) : Bool :=
  match home with
  | .uncached => isHostMem pa || stackOfPa pa != dieOf core / 2
  | .frame => dieOf (nfield (pa - 2 ^ 52) 21 9) != dieOf core
  | _ => decide (5 ≤ scope)

/-- The operation is a synchronisation transaction that is outstanding. -/
def Flight.syncs (f : Flight) (core : Nat) : Bool :=
  let cross (scope : Nat) (lanes : List LaneAcc) : Bool := lanes.any fun x => crossesLink core scope x.home x.pa
  !f.done && (match f.kind with
    | .load size _ scope acq _ lanes => acq && size ≤ 8 && cross scope lanes
    | .atomic _ size _ scope _ lanes => size ≤ 8 && cross scope lanes
    | .returned _ size _ _ _ _ _ _ => size ≤ 8
    | .store _ sync => sync
    | _ => false)

/-- The synchronisation transactions that a core holds outstanding. -/
def State.syncOpen (s : State) (core : Nat) : Nat :=
  (s.groups.flatMap fun g => if g.core = core then g.flights.filter fun f => f.syncs core else []).length

/-- The stall of a core that holds 32 of them is a die's (R416). -/
def stallSync : Nat := 0x13A

/-- Run `f`, which issues a synchronisation transaction where `sync` holds, unless the core holds 32 outstanding. The cycles
count for the die and, as those of a full counter, for the group: R411 names no cause of their own (DESIGN CHOICE, log
entry 5). -/
def State.syncing (s : State) (sync : Bool) (f : State → State) : State :=
  if sync && 32 ≤ s.syncOpen s.cur.core then
    ((s.addShared stallSync (dieOf s.cur.core) (BitVec.ofNat 64 (Config.elapsed s.draws))).countStall stallFull).modCur fun g =>
      { g with wait := .retry, switch := true, latches := 0, stalled := stallSync, hold := .cause }
  else f s

/-! ### The region store buffer and the write buffer (R277, R367, R368) -/

/-- A bank of a core's write buffer holds 8 lines. -/
def State.bankFull (s : State) (core bank : Nat) : Bool :=
  8 ≤ (s.writeBuf.filter fun e => e.core == core && bankOf e.line == bank).length

def StoreLine.toEntry (l : StoreLine) (g : Group) : WriteEntry :=
  { core := g.core, group := g.id, line := l.line, home := l.home, mask := l.mask, data := l.data, scope := l.scope,
    tbl := l.tbl, after := l.after }

/-- Move committed lines to the write buffer in program order, up to the first whose bank is full. -/
def State.drainLines (s : State) (g : Group) : List StoreLine → State × List StoreLine
  | [] => (s, [])
  | l :: rest =>
    if l.committed && !s.bankFull g.core (bankOf l.line) then
      { s with writeBuf := s.writeBuf ++ [l.toEntry g] }.drainLines g rest
    else (s, l :: rest)

/-- Let the committed lines of the group in focus enter the write buffer. -/
def State.drainCommitted (s : State) : State :=
  let r := s.drainLines s.cur s.cur.storeBuf
  r.1.modCur fun g => { g with storeBuf := r.2 }

/-- Let the committed lines of every group enter the write buffer. -/
def State.drainAll (s : State) : State :=
  s.groups.foldl (fun t g => if g.storeBuf.any (·.committed) then t.inGroup g.id State.drainCommitted else t) s

/-- Commit the region store buffer of the group in focus. -/
def State.commit (s : State) : State :=
  (s.modCur fun g => { g with storeBuf := g.storeBuf.map fun l => { l with committed := true } }).drainCommitted

/-- The current region ends at the instruction in issue, which becomes a region of its own (R367). -/
def State.endRegion (s : State) : State := s.commit.modCur fun g => { g with rwb := g.wb, rstart := g.pc }

/-- The next region begins at the group's next instruction. -/
def State.startRegion (s : State) : State := s.modCur fun g => { g with rstart := g.pc, rwb := g.wb }

/-- Run an instruction that ends the region: it waits for the region's translations, and the state that the rest
answers decides whether it completed (R367). -/
def State.regionEnder (s : State) (f : State → State) : State := if s.cur.walking then s.stall stallRegion else f s.endRegion

/-- Every operation of the group that a release waits for is over (R267). -/
def Group.quiet (g : Group) : Bool := g.flights.all fun f => !(f.path < 3)

/-- A push from the core to a scope waits: its write buffer holds a line that cannot leave yet (R278), or a rebuild holds one
that would be pushed (R419). -/
def State.heldLine (s : State) (core scope : Nat) : Bool :=
  (s.writeBuf.any fun e => e.core == core && (!s.freeToDrain e || s.heldUp true (dieOf core) scope e.line))
    || (s.narrowLines (Agent.ofCore core) scope).any (s.heldUp true (dieOf core) scope)

/-- The release actions of a scope once the group is quiet (R267): the committed lines of the group and the narrow
dirty copies on its path go to the scope's point. -/
def State.release (s : State) (scope : Nat) : State :=
  let lines := (s.cur.storeBuf.filter (·.committed)).map fun l => l.toEntry s.cur
  let t := { (s.modCur fun g => { g with storeBuf := g.storeBuf.filter fun l => !l.committed }) with
    writeBuf := s.writeBuf ++ lines }
  if scope = 0 then s else t.pushOut s.cur.core scope

/-- The acquire actions of a scope (R267). -/
def State.acquire (s : State) (scope : Nat) : State := if scope = 0 then s else s.pullIn s.cur.core scope

/-! ### The group's own stores (R67) -/

/-- The byte at a place that the group's newest store in the lists holds, and the operations of path 0 that were in flight when
it was made. -/
def newestStore (buf : List StoreLine) (wb : List WriteEntry) (pa : Nat) : Option (Byte × List Nat) :=
  let line := pa / 64
  let off := pa % 64
  match buf.reverse.find? fun l => l.line == line && l.mask.getLsbD off with
  | some l => some (lineByte l.data off, l.after)
  | none => (wb.reverse.find? fun l => l.line == line && l.mask.getLsbD off).map fun l => (lineByte l.data off, l.after)

/-- That byte. -/
def bufferedByte (buf : List StoreLine) (wb : List WriteEntry) (pa : Nat) : Option Byte := (newestStore buf wb pa).map (·.1)

/-- The bytes of the group's own stores at a place, whatever the homes of the pages they went through. -/
def State.ownBytes (s : State) (pa size : Nat) : List (Option Byte) :=
  let mine := s.writeBuf.filter (·.group == s.cur.id)
  (List.range size).map fun i => bufferedByte s.cur.storeBuf mine (pa + i)

/-- Bytes with the group's own ones in the place of those read (R67). -/
def overlay : List (Option Byte) → List Byte → List Byte
  | some x :: own, _ :: rest => x :: overlay own rest
  | none :: own, b :: rest => b :: overlay own rest
  | _, bs => bs

/-! ### Faults of a context (R366, R372, R373) -/

/-- Queue a fault record, giving it the context's next sequence number. -/
def State.record (s : State) (l : Launch) (va pc : DWord) (tid0 tix : Word) (kind info : Nat) : BitVec 16 × State :=
  let seq := sget 0 s.faultSeq l.record.ctx
  (seq, { s with
    faultSeq := sset 0 s.faultSeq l.record.ctx (seq + 1),
    faultRecs := s.faultRecs ++
      [{ ctx := l.record.ctx, fqa := l.desc.fqa, sig := l.desc.sig, ivec := l.desc.ivec, va := va, pc := pc,
         tid0 := tid0, tix := tix, seq := seq, kind := kind, info := info }] })

/-- A group of an ended launch: it issues nothing more, its operations in flight drain, its uncommitted stores are
discarded. -/
def Group.stopped (g : Group) : Group :=
  { g with live := false, storeBuf := g.storeBuf.filter (·.committed), wait := .none, fault := none,
           flights := g.flights.filter fun f => !f.walking }

/-- End a launch by a fault (R366). -/
def State.endLaunch (s : State) (launch : Nat) (va pc : DWord) (tid0 tix : Word) (info : Nat) : State :=
  match s.launch? launch with
  | none => s
  | some l =>
    if l.fault.isSome || l.stage == .complete then s
    else
      let teams := (s.teams.filter fun t => t.launch == launch).map (·.id)
      let t := (s.record l va pc tid0 tix 8 info).2
      let t := t.setLaunch { l with fault := some info }
      let t := t.mapGroups (fun g => teams.contains g.team) Group.stopped
      let t := { t with units := t.units.filter fun u => u.launch != launch,
                        teams := t.teams.map fun (x : Team) => if x.launch = launch then { x with live := false } else x }
      t.drainAll

/-- The tid of the lowest-numbered present thread. -/
def Group.tid0 (g : Group) : Word := BitVec.ofNat 32 (g.lane 0).tid

/-- End the launch of the group in focus, at its instruction. -/
def State.endOwnLaunch (s : State) (cause : Nat) (tval : DWord) : State :=
  s.endLaunch s.team.launch tval s.cur.pc s.cur.tid0 (BitVec.ofNat 32 s.team.tix) cause

/-! ### Traps (R159, R365) -/

/-- Entry to a handler at `hva`: every trap and the reslice vector (R159, R176). No earlier write of em, tpc or tem is still
below its latency afterwards. -/
def Group.enter (g : Group) (cause : Nat) (tpc tval hva : DWord) : Group :=
  { g with tcause := BitVec.ofNat 8 cause, tpc := tpc, tval := tval, tem := g.em, em := g.present,
           hazards := g.hazards.filter fun h => h.target != .em && h.target != .special 0x009 && h.target != .special 0x00B,
           gstat := setBit g.gstat 3 true, pc := hva, wait := .none, barWait := [], latches := 0, switch := true,
           came := false, stalled := 0, watchdog := 0 }

/-- Take a trap: a double trap inside the handler, else, once the region's translations are known, commit and enter
the handler, which begins a region. `pre` makes the changes that the trapping instruction has made. -/
def State.trapAfter (s : State) (pre : Group → Group) (cause : Nat) (tpc tval : DWord) : State :=
  if s.cur.intrap then (s.modCur pre).endOwnLaunch cause tval
  else if s.cur.walking then s.stall stallRegion
  else (((s.modCur pre).commit).modCur fun g => g.enter cause tpc tval g.hva).startRegion

/-- Take a trap at the instruction in issue. -/
def State.trap (s : State) (cause : Nat) (tval : DWord) : State := s.trapAfter id cause s.cur.pc tval

def State.illegal (s : State) : State := s.trap causeIllegal (zext64 s.issue.word)

def State.badOperand (s : State) : State := s.trap causeOperand (zext64 s.issue.word)

/-- The poison trap under the launch's policy (R380). `pre` clears what was pending. -/
def State.poisonTrap (s : State) (pre : Group → Group) (tpc tval : DWord) : State :=
  if s.cur.intrap then (s.modCur pre).endOwnLaunch causePoison tval
  else if s.cur.walking then s.stall stallRegion
  else if s.launch.record.poison then
    (((s.modCur pre).commit).modCur fun g => g.enter causePoison tpc tval g.hva).startRegion
  else (s.modCur pre).endOwnLaunch causePoison tval

/-- Remember a poisoned line for the next wait on a path; the first one is reported (R380, R381). -/
def Group.notePoison (g : Group) (path : Nat) (va : DWord) : Group :=
  if g.ppath = 0 then { g with ppath := BitVec.ofNat 6 (2 ^ path), pva := va }
  else { g with ppath := g.ppath ||| BitVec.ofNat 6 (2 ^ path) }

def Group.clearPoison (g : Group) : Group := { g with ppath := 0, pva := 0, ppend := false }

/-- Run `f`, unless a poison trap is pending on one of the paths that the instruction waits on (R380). -/
def State.afterWait (s : State) (paths : BitVec 6) (f : State → State) : State :=
  if s.cur.ppath &&& paths ≠ 0 then s.poisonTrap Group.clearPoison s.cur.pc s.cur.pva else f s

/-! ### Page faults (R371) -/

/-- Park the group in focus on a page fault of its region: its uncommitted stores are discarded and it will begin
again at rstart, a `WAITV` that was to be trapped among what it replays. -/
def State.park (s : State) (va : DWord) (kind info : Nat) : State :=
  let g := s.cur
  let r := s.record s.launch va g.rstart g.tid0 (BitVec.ofNat 32 s.team.tix) kind info
  (r.2.countStall stallFault).modCur fun g =>
    { g with storeBuf := g.storeBuf.filter (·.committed), flights := g.flights.filter (fun f => !f.walking),
             pc := g.rstart, wb := g.rwb, latches := 0, switch := true, came := false, stalled := 0, wait := .none, barWait := [],
             ppend := false, fault := some { va := va, seq := r.1, fetch := false } }

/-- Park on a fetch fault: precise, once the region's translations are known. -/
def State.parkFetch (s : State) (va : DWord) (info : Nat) : State :=
  if s.cur.walking then s.stall stallRegion
  else
    let g := s.cur
    let r := s.record s.launch va g.pc g.tid0 (BitVec.ofNat 32 s.team.tix) 3 info
    (r.2.countStall stallFault).modCur fun g =>
      { g with latches := 0, switch := true, stalled := 0, wait := .none,
               fault := some { va := va, seq := r.1, fetch := true } }

/-- The same for an instruction that has issued and completed: its cycles count (R156). -/
def State.trapDone (s : State) (pre : Group → Group) (cause : Nat) (tpc tval : DWord) : State :=
  s.trapAfter (fun g => (pre g).issued s.issue.beats s.draws) cause tpc tval

/-! ### In flight (R64, R65) -/

/-- Add an operation on a path. -/
def State.launchFlight (s : State) (path : Nat) (kind : FlightKind) : State :=
  s.modCur fun g =>
    { g with flights := g.flights ++ [{ tag := g.nextTag, path := path, pc := g.pc, walking := false, fva := 0, finfo := 0,
                                        done := false, born := s.draws, after := [], kind := kind }],
             nextTag := g.nextTag + 1 }

/-- Add a load whose translation will find a page fault at `va`. -/
def State.launchWalk (s : State) (va : DWord) (info : Nat) (kind : FlightKind) : State :=
  s.modCur fun g =>
    { g with flights := g.flights ++ [{ tag := g.nextTag, path := 0, pc := g.pc, walking := true, fva := va, finfo := info,
                                        done := false, born := s.draws, after := [], kind := kind }],
             nextTag := g.nextTag + 1 }

/-- Drop the completed operations of a path that no older operation of the path precedes. -/
def retireDone (path : Nat) : List Flight → List Flight
  | [] => []
  | f :: rest => if f.path = path then (if f.done then retireDone path rest else f :: rest) else f :: retireDone path rest

/-- An operation has completed: its counter falls once every older one of its path has completed too. -/
def Group.complete (g : Group) (tag : Nat) : Group :=
  match g.flights.find? (·.tag == tag) with
  | none => g
  | some f =>
    { g with flights := retireDone f.path (g.flights.map fun x => if x.tag = tag then { x with done := true } else x) }

/-- The operation with a tag, if it has not completed. -/
def Group.flight? (g : Group) (tag : Nat) : Option Flight := g.flights.find? fun f => f.tag == tag && !f.done

/-- Run `f` unless the counter of the path stands at 63 (R65). -/
def State.raising (s : State) (path : Nat) (f : State → State) : State :=
  if 63 ≤ s.cur.count path then s.stallOn (.path path 62) stallFull else f s

end Sys2Proof.Machine
end

