-- ==== Sys2Proof/Machine/Hazard.lean ====
section
/-! DEFINITION. Results below their latency: which of the old and the new value a source reads is free (R60, R149, R156,
R196; log entry 4). -/

namespace Sys2Proof.Machine

/-- The key of one read: the count of instructions issued, the source's place in the instruction and the lane. -/
def readKey (draws src lane : Nat) : Nat := ((draws * 64 + src) * 64 + lane) * 64

/-- The value that a source reads in a lane, the newest producer first: each may still show the value before its write. One
choice of a source and a producer holds for every register that the source names. -/
def pickOld (draws src lane : Nat) : List Hazard → DWord → DWord
  | [], v => v
  | h :: rest, v => if Config.seesOld draws src lane h.producer then pickOld draws src lane rest (h.old.getD lane 0) else v

/-- A source of target `t` in a lane, whose value after every write is `v`. -/
def State.seen (s : State) (t : Target) (src lane : Nat) (v : DWord) : DWord :=
  match s.cur.hazards.filter fun h => h.target == t && h.lanes.getLsbD lane with
  | [] => v
  | hs => pickOld s.draws src lane hs v

/-- The source number of implicit reads: em 32, nf 33, UC 34, rm 35. -/
def srcEm : Nat := 32
def srcNf : Nat := 33
def srcUc : Nat := 34
def srcRm : Nat := 35

/-- Of `SREAD`: fpc 44, gstat 45. -/
def srcFpc : Nat := 44
def srcGstat : Nat := 45

/-- em as the instruction in issue reads it, the same in every lane (R156, R196). -/
def State.em (s : State) : LaneMask := s.seen .em srcEm 0 s.cur.em &&& s.cur.present

/-- The active lanes, ascending (R104). -/
def State.lanes (s : State) : List Nat := (List.range s.cur.threads.length).filter fun l => s.em.getLsbD l

/-- nf as the instruction in issue reads it. -/
def State.nfSeen (s : State) : BitVec 16 := (s.seen .nf srcNf 0 (zext64 s.cur.nf)).setWidth 16

/-- UC as the instruction in issue reads it (R149). -/
def State.ucSeen (s : State) : Bool := (s.seen .uc srcUc 0 (if s.cur.uc then 1 else 0)) != 0

/-- fpc.rm as the instruction in issue reads it (R129). -/
def State.rmSeen (s : State) : BitVec 2 := (s.seen .rm srcRm 0 (zext64 (s.cur.fpc.extractLsb' 0 2))).setWidth 2

/-- Remember the values before a write, in the lanes given, whose latency is `left`. -/
def Group.hazardIn (g : Group) (t : Target) (old : List DWord) (left : Nat) (lanes : LaneMask) : Group :=
  if left = 0 then g
  else { g with hazards := { target := t, old := old, left := left, producer := g.lastIssue, lanes := lanes } :: g.hazards }

/-- The same for a target that is one for the whole group. -/
def Group.hazard (g : Group) (t : Target) (old : List DWord) (left : Nat) : Group :=
  g.hazardIn t old left (BitVec.allOnes 64)

/-- Values before a write are not read any more where a later write has taken effect: `done` holds the targets and lanes of
the writes that have. -/
def Hazard.without (h : Hazard) (done : List (Target × LaneMask)) : Hazard :=
  { h with lanes := done.foldl (fun m e => if e.1 = h.target then m &&& ~~~e.2 else m) h.lanes }

/-- `d` cycles pass for hazards, the newest first. One whose latency ends takes with it what older writes of its target
left in its lanes. -/
def elapseAll (d : Nat) : List (Target × LaneMask) → List Hazard → List Hazard
  | _, [] => []
  | done, h :: rest =>
    if h.left ≤ d then elapseAll d ((h.target, h.lanes) :: done) rest
    else
      let x := { h.without done with left := h.left - d }
      if x.lanes = 0 then elapseAll d done rest else x :: elapseAll d done rest

/-- Write em, seen by instructions at a d-sum of 2 (R149, R177). -/
def Group.setEm (g : Group) (m : LaneMask) : Group := { g.hazard .em [g.em] 2 with em := m &&& g.present }

end Sys2Proof.Machine
end

