-- ==== Sys2Proof/Machine/Flags.lean ====
section
/-! DEFINITION. The flags of fpc and when they become visible (R127 to R129), and the fields of gstat (R157). -/

namespace Sys2Proof.Machine

/-- A set of flags: bit 0 NV, 1 DZ, 2 OF, 3 UF, 4 NX, 5 SAT, 6 SCALECLAMP; bit `i` stands at fpc bit `i + 2`. -/
abbrev FpFlags := BitVec 7

def flagNV : FpFlags := 0x01
def flagDZ : FpFlags := 0x02
def flagOF : FpFlags := 0x04
def flagUF : FpFlags := 0x08
def flagNX : FpFlags := 0x10
def flagSAT : FpFlags := 0x20
def flagClamp : FpFlags := 0x40

/-- The flags as bits of fpc. -/
def fpcBits (f : FpFlags) : Word := f.setWidth 32 <<< 2

/-- A bit is set by other means than the write that a hazard stands for: the value before that write has it too. -/
def Hazard.alsoOld (t : Target) (w : Word) (h : Hazard) : Hazard :=
  if h.target = t then { h with old := h.old.map (· ||| zext64 w) } else h

/-- OR flags into fpc at once. An `SREAD` that still reads fpc as it was before an `SWRITE` sees them too (R129). -/
def Group.raise (g : Group) (f : FpFlags) : Group :=
  { g with fpc := g.fpc ||| fpcBits f, hazards := g.hazards.map (Hazard.alsoOld (.special 2) (fpcBits f)) }

/-- OR flags into fpc when a latency of `left` cycles has passed (R129). -/
def Group.raiseAfter (g : Group) (f : FpFlags) (left : Nat) : Group :=
  if f = 0 then g
  else if left = 0 then g.raise f
  else { g with flags := g.flags ++ [{ flags := f, left := left }] }

/-- An instruction with distance `d` issues: `d` cycles of every latency have passed (R60, R129). -/
def Group.elapse (g : Group) (d : Nat) : Group :=
  let fs := g.flags.map fun f => { f with left := f.left - d }
  let now := (fs.filter fun f => f.left = 0).foldl (fun (b : FpFlags) f => b ||| f.flags) 0
  { g with hazards := elapseAll d [] g.hazards, flags := fs.filter fun f => f.left != 0 }.raise now

/-- fpc after an `SWRITE`: rm is written, and a written 0 clears a flag (R129). -/
def fpcWritten (old new : Word) : Word := (old &&& new &&& 0x1FC) ||| (new &&& 3)

/-- fpc as `SREAD` reads it: as it is or as it was before an `SWRITE` too close, and flags below their latency may or may not
be seen (R129). -/
def State.fpcSeen (s : State) : Word :=
  let base := low32 (s.seen (.special 2) srcFpc 0 (zext64 s.cur.fpc)) &&& 0x1FF
  (s.cur.flags.zipIdx).foldl
    (fun w e => if Config.readsOld (readKey s.draws 36 (e.2 % 64) + e.2 / 64) then w else w ||| fpcBits e.1.flags) base

/-- gstat after an `SWRITE`: UC is written, RESLICED and LATCHLOST are cleared by a written 0 (R157). -/
def gstatWritten (old new : Word) : Word := (old &&& 0x8) ||| (new &&& 0x4) ||| (old &&& new &&& 0x3)

def Group.setUc (g : Group) (b : Bool) : Group :=
  { g.hazard .uc [if g.uc then 1 else 0] 2 with gstat := setBit g.gstat 2 b }

/-- A latch was read that is not valid (R63). -/
def Group.latchLost (g : Group) : Group :=
  { g with gstat := setBit g.gstat 0 true, hazards := g.hazards.map (Hazard.alsoOld (.special 5) 1) }

end Sys2Proof.Machine
end

