-- ==== Sys2Proof/Machine/Float.lean ====
section
/-! DEFINITION. Floating-point arithmetic: the four register formats, exact values, one rounding, NaN rules, conversions,
compares and the six approximations (R124 to R147). -/

namespace Sys2Proof.Machine

/-- A binary format: exponent width and fraction width (R124). -/
structure FFmt where
  ebits : Nat
  frac : Nat
  deriving DecidableEq, Repr

def f64 : FFmt := ⟨11, 52⟩
def f32 : FFmt := ⟨8, 23⟩
def f16 : FFmt := ⟨5, 10⟩
def bf16 : FFmt := ⟨8, 7⟩

/-- The format of a 2-bit fmt field (R87). -/
def fmtOf (fmt : BitVec 2) : FFmt :=
  match fmt.toNat with
  | 0 => f64
  | 1 => f32
  | 2 => f16
  | _ => bf16

namespace FFmt

variable (f : FFmt)

def bias : Nat := 2 ^ (f.ebits - 1) - 1
def width : Nat := 1 + f.ebits + f.frac
def signBit : Nat := 2 ^ (f.ebits + f.frac)
/-- The encoding of +infinity. -/
def infBits : Nat := (2 ^ f.ebits - 1) * 2 ^ f.frac
def maxFinite : Nat := f.infBits - 1
def quietBit : Nat := 2 ^ (f.frac - 1)
def defaultNaN : Nat := f.infBits + f.quietBit
/-- The exponent of the last place of a subnormal. -/
def qmin : Int := 1 - (f.bias : Int) - f.frac
/-- The exponent of the smallest normal. -/
def emin : Int := 1 - (f.bias : Int)

end FFmt

/-- A number with its sign: (−1)^neg × m × 2^e, or a zero of either sign. -/
structure Dyadic where
  neg : Bool
  m : Nat
  e : Int
  deriving DecidableEq, Repr

/-- A floating value (R125). -/
inductive FVal where
  | nan (signalling : Bool)
  | inf (neg : Bool)
  | fin (d : Dyadic)
  deriving DecidableEq, Repr

/-- Read an encoding (R125). -/
def FFmt.read (f : FFmt) (x : Nat) : FVal :=
  let neg := x / f.signBit % 2 == 1
  let e := nfield x f.frac f.ebits
  let m := nfield x 0 f.frac
  if e = 2 ^ f.ebits - 1 then (if m = 0 then .inf neg else .nan (m / f.quietBit == 0))
  else if e = 0 then .fin ⟨neg, m, f.qmin⟩
  else .fin ⟨neg, m + 2 ^ f.frac, f.qmin + (e - 1)⟩

def FVal.isNaN : FVal → Bool
  | .nan _ => true
  | _ => false

def FVal.isSignalling : FVal → Bool
  | .nan s => s
  | _ => false

def FVal.isZero : FVal → Bool
  | .fin d => d.m == 0
  | _ => false

def withSign (f : FFmt) (neg : Bool) (x : Nat) : Nat := if neg then f.signBit + x else x

/-! ### Rounding (R131) -/

/-- `true` when the magnitude rounds up. `odd` is the last bit kept, `half` compares the rest with one half. -/
def roundsUp (rm : BitVec 2) (neg odd : Bool) (rest half : Nat) (sticky : Bool) : Bool :=
  match rm.toNat with
  | 0 => half < rest || (rest == half && (sticky || odd))
  | 1 => false
  | 2 => !neg && (rest != 0 || sticky)
  | _ => neg && (rest != 0 || sticky)

/-- A magnitude cut at 2^q: the integer kept and whether anything was lost. -/
def cutAt (rm : BitVec 2) (neg : Bool) (m : Nat) (e q : Int) (sticky : Bool) : Nat × Bool :=
  if q ≤ e then (m * 2 ^ (e - q).toNat, sticky)
  else
    let n := (q - e).toNat
    let k := m / 2 ^ n
    let r := m % 2 ^ n
    let up := roundsUp rm neg (k % 2 == 1) (2 * r) (2 ^ n) sticky
    (if up then k + 1 else k, r != 0 || sticky)

/-- Round a non-zero magnitude to a format. `sticky` says that the exact magnitude lies a little above m × 2^e. -/
def FFmt.round (f : FFmt) (rm : BitVec 2) (neg : Bool) (m : Nat) (e : Int) (sticky : Bool) : Nat × FpFlags :=
  let top := e + Nat.log2 m
  let q0 := top - f.frac
  let q := if q0 < f.qmin then f.qmin else q0
  let c := cutAt rm neg m e q sticky
  let code := c.1 + (q - f.qmin).toNat * 2 ^ f.frac
  if f.infBits ≤ code then
    let toInf := rm = 0 ∨ (rm = 2 ∧ neg = false) ∨ (rm = 3 ∧ neg = true)
    (withSign f neg (if toInf then f.infBits else f.maxFinite), flagOF ||| flagNX)
  else
    let unbounded := cutAt rm neg m e q0 sticky
    let tiny := top < f.emin && !(top + 1 == f.emin && unbounded.1 == 2 ^ (f.frac + 1))
    (withSign f neg code, if c.2 then (if tiny then flagUF ||| flagNX else flagNX) else 0)

/-- Round a number; a zero keeps its sign. -/
def FFmt.roundD (f : FFmt) (rm : BitVec 2) (d : Dyadic) : Nat × FpFlags :=
  if d.m = 0 then (withSign f d.neg 0, 0) else f.round rm d.neg d.m d.e false

/-! ### Exact sums and products (R132) -/

/-- The exact sum; the sign of an exact zero follows R132. -/
def Dyadic.add (rm : BitVec 2) (a b : Dyadic) : Dyadic :=
  let e := if a.e ≤ b.e then a.e else b.e
  let x := a.m * 2 ^ (a.e - e).toNat
  let y := b.m * 2 ^ (b.e - e).toNat
  if a.neg = b.neg then ⟨a.neg, x + y, e⟩
  else if x = y then ⟨rm == 3, 0, e⟩
  else if x < y then ⟨b.neg, y - x, e⟩
  else ⟨a.neg, x - y, e⟩

def Dyadic.mul (a b : Dyadic) : Dyadic := ⟨a.neg != b.neg, a.m * b.m, a.e + b.e⟩

def Dyadic.flip (a : Dyadic) : Dyadic := ⟨!a.neg, a.m, a.e⟩

/-- `a < b` for numbers. -/
def Dyadic.lt (a b : Dyadic) : Bool :=
  let e := if a.e ≤ b.e then a.e else b.e
  let x : Int := a.m * 2 ^ (a.e - e).toNat
  let y : Int := b.m * 2 ^ (b.e - e).toNat
  (if a.neg then -x else x) < (if b.neg then -y else y)

def Dyadic.eq (a b : Dyadic) : Bool := !a.lt b && !b.lt a

/-! ### NaNs (R133) -/

/-- NV for every signalling NaN among the operands. -/
def FFmt.snan (f : FFmt) (xs : List Nat) : FpFlags := if xs.any fun x => (f.read x).isSignalling then flagNV else 0

/-- A NaN with its quiet bit set. -/
def FFmt.quiet (f : FFmt) (x : Nat) : Nat := if x / f.quietBit % 2 = 1 then x else x + f.quietBit

/-- The first NaN among the operands, quieted. -/
def FFmt.firstNaN (f : FFmt) (xs : List Nat) : Option Nat := (xs.find? fun x => (f.read x).isNaN).map f.quiet

/-- An operation with the NaN rules around it. -/
def FFmt.withNaNs (f : FFmt) (xs : List Nat) (r : Nat × FpFlags) : Nat × FpFlags :=
  match f.firstNaN xs with
  | some n => (n, f.snan xs)
  | none => r

def FFmt.invalid (f : FFmt) : Nat × FpFlags := (f.defaultNaN, flagNV)

/-! ### Arithmetic (R135, R140) -/

/-- The sum of two values that are no NaN. -/
def FFmt.sum (f : FFmt) (rm : BitVec 2) : FVal → FVal → Nat × FpFlags
  | .inf s, .inf t => if s = t then (withSign f s f.infBits, 0) else f.invalid
  | .inf s, _ => (withSign f s f.infBits, 0)
  | _, .inf t => (withSign f t f.infBits, 0)
  | .fin x, .fin y => f.roundD rm (x.add rm y)
  | _, _ => f.invalid

def FVal.flip : FVal → FVal
  | .nan s => .nan s
  | .inf n => .inf !n
  | .fin d => .fin d.flip

/-- The exact product of two values that are no NaN; `none` for 0 × ∞. -/
def FVal.mul : FVal → FVal → Option FVal
  | .fin x, .fin y => some (.fin (x.mul y))
  | .inf s, .inf t => some (.inf (s != t))
  | .inf s, .fin y => if y.m = 0 then none else some (.inf (s != y.neg))
  | .fin x, .inf t => if x.m = 0 then none else some (.inf (x.neg != t))
  | _, _ => none

def FFmt.add (f : FFmt) (rm : BitVec 2) (a b : Nat) : Nat × FpFlags :=
  f.withNaNs [a, b] (f.sum rm (f.read a) (f.read b))

def FFmt.sub (f : FFmt) (rm : BitVec 2) (a b : Nat) : Nat × FpFlags :=
  f.withNaNs [a, b] (f.sum rm (f.read a) (f.read b).flip)

def FFmt.mul (f : FFmt) (rm : BitVec 2) (a b : Nat) : Nat × FpFlags :=
  f.withNaNs [a, b]
    (match (f.read a).mul (f.read b) with
     | none => f.invalid
     | some (.inf s) => (withSign f s f.infBits, 0)
     | some (.fin d) => f.roundD rm d
     | some (.nan _) => f.invalid)

/-- a × b + d with the signs of the product and of the addend changed first where asked (R140). -/
def FFmt.fma (f : FFmt) (rm : BitVec 2) (negProduct negAddend : Bool) (a b d : Nat) : Nat × FpFlags :=
  let x := f.read a
  let y := f.read b
  let z := f.read d
  if x.isNaN || y.isNaN then ((f.firstNaN [a, b, d]).getD f.defaultNaN, f.snan [a, b, d])
  else
    match x.mul y with
    | none => (if z.isNaN then f.quiet d else f.defaultNaN, flagNV)
    | some p =>
      if z.isNaN then (f.quiet d, f.snan [d])
      else f.sum rm (if negProduct then p.flip else p) (if negAddend then z.flip else z)

def FFmt.div (f : FFmt) (rm : BitVec 2) (a b : Nat) : Nat × FpFlags :=
  f.withNaNs [a, b]
    (match f.read a, f.read b with
     | .inf _, .inf _ => f.invalid
     | .inf s, .fin y => (withSign f (s != y.neg) f.infBits, 0)
     | .fin x, .inf t => (withSign f (x.neg != t) 0, 0)
     | .fin x, .fin y =>
       if y.m = 0 then (if x.m = 0 then f.invalid else (withSign f (x.neg != y.neg) f.infBits, flagDZ))
       else if x.m = 0 then (withSign f (x.neg != y.neg) 0, 0)
       else
         let k := f.frac + 3 + Nat.log2 y.m
         let n := x.m * 2 ^ k
         f.round rm (x.neg != y.neg) (n / y.m) (x.e - y.e - k) (n % y.m != 0)
     | _, _ => f.invalid)

/-- The integer square root by its bits from `2^(k-1)` down. -/
def isqrt (n : Nat) : Nat → Nat → Nat
  | 0, r => r
  | k + 1, r => let t := r + 2 ^ k; isqrt n k (if t * t ≤ n then t else r)

/-- A root of m × 2^e with at least `p` bits: the integer, its exponent, and whether it is inexact. -/
def rootOf (m : Nat) (e : Int) (p : Nat) : Nat × Int × Bool :=
  let k := 2 * p + (if (e - 2 * p) % 2 = 0 then 0 else 1)
  let n := m * 2 ^ k
  let r := isqrt n (Nat.log2 n / 2 + 1) 0
  (r, (e - k) / 2, r * r != n)

def FFmt.sqrt (f : FFmt) (rm : BitVec 2) (a : Nat) : Nat × FpFlags :=
  f.withNaNs [a]
    (match f.read a with
     | .inf s => if s then f.invalid else (f.infBits, 0)
     | .fin x =>
       if x.m = 0 then (a, 0)
       else if x.neg then f.invalid
       else let r := rootOf x.m x.e (f.frac + 3); f.round rm false r.1 r.2.1 r.2.2
     | _ => f.invalid)

/-- minimumNumber and maximumNumber (R136). -/
def FFmt.minmax (f : FFmt) (max : Bool) (a b : Nat) : Nat × FpFlags :=
  let x := f.read a
  let y := f.read b
  if x.isNaN && y.isNaN then ((f.firstNaN [a, b]).getD f.defaultNaN, f.snan [a, b])
  else if x.isNaN then (b, f.snan [a])
  else if y.isNaN then (a, f.snan [b])
  else
    -- order of sign and magnitude, −0 below +0
    let key : Nat → Int := fun v => if v / f.signBit = 1 then -((v % f.signBit : Nat) : Int) - 1 else (v : Int)
    let less := key a < key b
    (if less != max then a else b, 0)

/-! ### Conversions (R142 to R145) -/

/-- The rounding mode of a rounding selection (R141). -/
def rndMode (rm : BitVec 2) (sel : Nat) : BitVec 2 := if sel = 0 then rm else BitVec.ofNat 2 (sel - 1)

/-- A NaN moved to another format: the fraction is aligned at the top, and the quiet bit is set (R142). -/
def convertNaN (src dst : FFmt) (x : Nat) : Nat :=
  let frac := nfield x 0 src.frac
  let moved := if src.frac ≤ dst.frac then frac * 2 ^ (dst.frac - src.frac) else frac / 2 ^ (src.frac - dst.frac)
  dst.quiet (withSign dst (x / src.signBit % 2 == 1) (dst.infBits + moved))

def convertFloat (src dst : FFmt) (rm : BitVec 2) (x : Nat) : Nat × FpFlags :=
  match src.read x with
  | .nan s => (convertNaN src dst x, if s then flagNV else 0)
  | .inf n => (withSign dst n dst.infBits, 0)
  | .fin d => dst.roundD rm d

/-- A number rounded to an integer, and whether it changed. -/
def Dyadic.toInt (rm : BitVec 2) (d : Dyadic) : Int × Bool :=
  let c := cutAt rm d.neg d.m d.e 0 false
  (if d.neg then -(c.1 : Int) else c.1, c.2)

/-- A float to S32 or U32 (R143). The result is 32 bits. -/
def floatToInt (src : FFmt) (signed : Bool) (rm : BitVec 2) (x : Nat) : Nat × FpFlags :=
  let lo : Int := if signed then -(2 ^ 31) else 0
  let hi : Int := if signed then 2 ^ 31 - 1 else 2 ^ 32 - 1
  let wrap : Int → Nat := fun i => (i % 2 ^ 32).toNat
  match src.read x with
  | .nan _ => (0, flagNV)
  | .inf n => (wrap (if n then lo else hi), flagNV)
  | .fin d =>
    let r := d.toInt rm
    if r.1 < lo then (wrap lo, flagNV)
    else if hi < r.1 then (wrap hi, flagNV)
    else (wrap r.1, if r.2 then flagNX else 0)

/-- S32 or U32 to a float (R144). -/
def intToFloat (dst : FFmt) (signed : Bool) (rm : BitVec 2) (x : Nat) : Nat × FpFlags :=
  let v := x % 2 ^ 32
  if signed && 2 ^ 31 ≤ v then dst.roundD rm ⟨true, 2 ^ 32 - v, 0⟩ else dst.roundD rm ⟨false, v, 0⟩

/-- Round to an integral value in the same format (R145). -/
def FFmt.rint (f : FFmt) (rm : BitVec 2) (x : Nat) : Nat × FpFlags :=
  f.withNaNs [x]
    (match f.read x with
     | .fin d =>
       if 0 ≤ d.e ∨ d.m = 0 then (x, 0)
       else
         let c := cutAt rm d.neg d.m d.e 0 false
         ((f.roundD rm ⟨d.neg, c.1, 0⟩).1, if c.2 then flagNX else 0)
     | _ => (x, 0))

/-! ### Compares (R147) -/

/-- The floating relation `cond` (0 EQ to 5 GE, 6 UN). -/
def FFmt.compare (f : FFmt) (cond : Nat) (a b : Nat) : Bool × FpFlags :=
  let x := f.read a
  let y := f.read b
  if x.isNaN || y.isNaN then
    (cond == 1 || cond == 6,
     if 2 ≤ cond ∧ cond ≤ 5 then flagNV else f.snan [a, b])
  else
    let lt : FVal → FVal → Bool := fun p q =>
      match p, q with
      | .inf s, .inf t => s && !t
      | .inf s, _ => s
      | _, .inf t => !t
      | .fin u, .fin v => u.lt v
      | _, _ => false
    let l := lt x y
    let g := lt y x
    (match cond with
     | 0 => !l && !g
     | 1 => l || g
     | 2 => l
     | 3 => !g
     | 4 => g
     | 5 => !l
     | _ => false, 0)

/-! ### The six approximations (R137) -/

/-- A free result kept inside an interval of FP32 values: `lo` where it lies outside. -/
def within (lo hi : Nat) (free : Word) : Nat :=
  let x := free.toNat
  if (f32.compare 5 x lo).1 && (f32.compare 3 x hi).1 then x else lo

/-- A free result within `w` of the exact one, which lies from `lo` to `hi`: no result is farther from it than `w`. -/
def near (lo hi w : Dyadic) (free : Word) : Nat :=
  within (f32.roundD 2 (Dyadic.add 0 hi w.flip)).1 (f32.roundD 3 (Dyadic.add 0 lo w)).1 free

/-- Two FP32 units at `y`. -/
def twoUnits (y : Dyadic) : Dyadic :=
  let q := y.e + Nat.log2 y.m - 23
  ⟨false, 2, if q < -149 then -149 else q⟩

/-- The absolute bound 2^−22. -/
def absBound : Dyadic := ⟨false, 1, -22⟩

/-- The largest integer not above d × 2^p. -/
def Dyadic.fixed (d : Dyadic) (p : Nat) : Int :=
  let n := d.e + p
  let m : Int := if d.neg then -(d.m : Int) else d.m
  if 0 ≤ n then m * 2 ^ n.toNat else m / 2 ^ (-n).toNat

/-- A signed fixed-point number with `p` bits after the point. -/
def ofFixed (i : Int) (p : Nat) : Dyadic := ⟨decide (i < 0), i.natAbs, -p⟩

/-- Square root of a number with 128 bits after the point. -/
def root128 (x : Nat) : Nat := isqrt (x * 2 ^ 128) 130 0

/-- 1 / √d lies between this number and the next one of its last place, 2^−90 of it or less. -/
def invRoot (d : Dyadic) : Dyadic :=
  let o := d.e % 2
  let m := d.m * 2 ^ o.toNat
  let k := 90 + Nat.log2 m
  let n := 2 ^ (2 * k) / m
  ⟨false, isqrt n (Nat.log2 n / 2 + 1) 0, -k - (d.e - o) / 2⟩

/-- 2^(t / 2^80) by the bits of `t`, with 128 bits after the point, not above it; `r` is the power that belongs to the next
bit. -/
def powBits (t : Nat) : Nat → Nat → Nat → Nat
  | 0, _, acc => acc
  | k + 1, r, acc => powBits t k (root128 r) (if t.testBit k then acc * r / 2 ^ 128 else acc)

/-- The first bits of log2 x after the point, for x from 1 to 2 with 128 bits after the point. -/
def logBits : Nat → Nat → Nat → Nat
  | 0, _, acc => acc
  | k + 1, x, acc =>
    let y := x * x / 2 ^ 128
    if 2 ^ 129 ≤ y then logBits k (y / 2) (2 * acc + 1) else logBits k y (2 * acc)

/-- Turn the point (c, s) on by the bits of `t`, in turns; (u, v) is the point of the next bit's angle. -/
def turnBits (t : Nat) : Nat → Nat → Nat → Int × Int → Int × Int
  | 0, _, _, p => p
  | k + 1, u, v, p =>
    let w := root128 ((2 ^ 128 + u) / 2)
    turnBits t k w (v * 2 ^ 128 / (2 * w))
      (if t.testBit k then ((p.1 * u - p.2 * v) / 2 ^ 128, (p.1 * v + p.2 * u) / 2 ^ 128) else p)

/-- Cosine and sine of 2π d, with 128 bits after the point, to 2^−76. -/
def pointAt (d : Dyadic) : Int × Int :=
  let t := (d.fixed 80 % 2 ^ 80).toNat
  let one : Int := 2 ^ 128
  let p : Int × Int := match t / 2 ^ 78 with
    | 0 => (one, 0)
    | 1 => (0, one)
    | 2 => (-one, 0)
    | _ => (0, -one)
  turnBits t 78 (root128 (2 ^ 127)) (root128 (2 ^ 127)) p

/-- A free result within 2^−22 of a coordinate of that point. -/
def nearPoint (i : Int) (free : Word) : Nat := near (ofFixed (i - 2 ^ 52) 128) (ofFixed (i + 2 ^ 52) 128) absBound free

/-- A power of two, if the number is one: its exponent. -/
def Dyadic.log2? (d : Dyadic) : Option Int :=
  if d.m ≠ 0 ∧ d.m = 2 ^ Nat.log2 d.m then some (d.e + Nat.log2 d.m) else none

/-- 2^n as an FP32 value, for n from −149 to 127. -/
def pow2F32 (neg : Bool) (n : Int) : Nat := (f32.round 1 neg 1 n false).1

def rcpF32 (x : Nat) : Nat × FpFlags :=
  f32.withNaNs [x]
    (match f32.read x with
     | .inf s => (withSign f32 s 0, 0)
     | .fin d =>
       if d.m = 0 then (withSign f32 d.neg f32.infBits, flagDZ)
       else if d.m * 2 ^ (d.e + 149).toNat ≤ 2 ^ 21 then (withSign f32 d.neg f32.infBits, flagOF ||| flagNX)
       else
         match d.log2? with
         | some n => (pow2F32 d.neg (-n), 0)
         | none =>
           -- the two neighbours of the exact value lie within one unit
           let k := 26 + Nat.log2 d.m
           let down := (f32.round 1 false (2 ^ k / d.m) (-d.e - k) true).1
           let mag := if (Config.rcp32 (BitVec.ofNat 32 x)).getLsbD 0 then Nat.min (down + 1) f32.maxFinite else down
           (withSign f32 d.neg mag, flagNX)
     | _ => f32.invalid)

def rsqF32 (x : Nat) : Nat × FpFlags :=
  f32.withNaNs [x]
    (match f32.read x with
     | .inf s => if s then f32.invalid else (0, 0)
     | .fin d =>
       if d.m = 0 then (withSign f32 d.neg f32.infBits, flagDZ)
       else if d.neg then f32.invalid
       else
         match (d.log2?).filter fun n => n % 2 == 0 with
         | some n => (pow2F32 false (-n / 2), 0)
         | none => let y := invRoot d; (near y { y with m := y.m + 1 } (twoUnits y) (Config.rsq32 (BitVec.ofNat 32 x)), flagNX)
     | _ => f32.invalid)

def exp2Of (x : Nat) : Nat × FpFlags :=
  f32.withNaNs [x]
    (match f32.read x with
     | .inf s => (if s then 0 else f32.infBits, 0)
     | .fin d =>
       let r := d.toInt 3
       if !r.2 && -149 ≤ r.1 && r.1 ≤ 127 then (pow2F32 false r.1, 0)
       else if 128 ≤ r.1 then (f32.infBits, flagOF ||| flagNX)
       else if r.1 < -149 then (0, flagUF ||| flagNX)
       else
         let i := d.fixed 80
         let y : Dyadic := ⟨false, powBits (i % 2 ^ 80).toNat 80 (root128 (2 ^ 129)) (2 ^ 128), i / 2 ^ 80 - 128⟩
         (near y { y with m := y.m + 2 ^ 50 } (twoUnits y) (Config.exp2F32 (BitVec.ofNat 32 x)), flagNX)
     | _ => f32.invalid)

def log2Of (x : Nat) : Nat × FpFlags :=
  f32.withNaNs [x]
    (match f32.read x with
     | .inf s => if s then f32.invalid else (f32.infBits, 0)
     | .fin d =>
       if d.m = 0 then (withSign f32 true f32.infBits, flagDZ)
       else if d.neg then f32.invalid
       else
         let n := d.e + Nat.log2 d.m
         match d.log2? with
         | some n => ((f32.roundD 0 ⟨n < 0, n.natAbs, 0⟩).1, 0)
         | none =>
           let i := n * 2 ^ 80 + logBits 80 (d.m * 2 ^ 128 / 2 ^ Nat.log2 d.m) 0
           let y := ofFixed i 80
           let w := if n = 0 ∨ n = -1 then absBound else twoUnits y
           (near y (ofFixed (i + 2) 80) w (Config.log2F32 (BitVec.ofNat 32 x)), flagNX)
     | _ => f32.invalid)

/-- Quarter turns, mod 4, where the argument is a whole number of them. -/
def quarterTurns (d : Dyadic) : Option Nat :=
  let n := d.e + 2
  let q : Option Nat :=
    if 0 ≤ n then some (d.m * 2 ^ n.toNat)
    else if d.m % 2 ^ (-n).toNat = 0 then some (d.m / 2 ^ (-n).toNat) else none
  q.map fun k => if d.neg then (4 - k % 4) % 4 else k % 4

def oneF32 : Nat := 0x3F800000

def sinOf (x : Nat) : Nat × FpFlags :=
  f32.withNaNs [x]
    (match f32.read x with
     | .fin d =>
       if d.m = 0 then (x, 0)
       else
         match quarterTurns d with
         | some 1 => (oneF32, 0)
         | some 3 => (withSign f32 true oneF32, 0)
         | some _ => (0, 0)
         | none => (nearPoint (pointAt d).2 (Config.sin32 (BitVec.ofNat 32 x)), flagNX)
     | _ => f32.invalid)

def cosOf (x : Nat) : Nat × FpFlags :=
  f32.withNaNs [x]
    (match f32.read x with
     | .fin d =>
       match quarterTurns d with
       | some 0 => (oneF32, 0)
       | some 2 => (withSign f32 true oneF32, 0)
       | some _ => (0, 0)
       | none => (nearPoint (pointAt d).1 (Config.cos32 (BitVec.ofNat 32 x)), flagNX)
     | _ => f32.invalid)

end Sys2Proof.Machine
end

