-- ==== Sys2Proof/Machine/Rill.lean ====
section
/-! DEFINITION. Rill queues and links: neighbours on the three axes, what an instruction that names ports waits for, and
how it pops and reserves (R211 to R219, R226). Ports are numbered 0 xp, 1 xm, 2 yp, 3 ym, 4 zp, 5 zm. -/

namespace Sys2Proof.Machine

/-- The port opposite on the same axis. -/
def opposite (p : Nat) : Nat := if p % 2 = 0 then p + 1 else p - 1

def Thread.queue (t : Thread) (p : Nat) : List RillEntry :=
  match p with
  | 0 => t.xp
  | 1 => t.xm
  | 2 => t.yp
  | 3 => t.ym
  | 4 => t.zp
  | _ => t.zm

def Thread.setQueue (t : Thread) (p : Nat) (q : List RillEntry) : Thread :=
  match p with
  | 0 => { t with xp := q }
  | 1 => { t with xm := q }
  | 2 => { t with yp := q }
  | 3 => { t with ym := q }
  | 4 => { t with zp := q }
  | _ => { t with zm := q }

def RillEntry.isFilled : RillEntry → Bool
  | .filled _ => true
  | .flawed _ => true
  | _ => false

/-- The value of an entry once it is filled. -/
def RillEntry.value : RillEntry → Word
  | .filled v => v
  | .flawed v => v
  | .ready v => v
  | .reserved _ _ => 0

/-! ### Neighbours (R212 to R215) -/

/-- A thread by the group that holds it and its lane. -/
abbrev Seat := Nat × Nat

/-- The seat of the live thread of a team that satisfies `p`. -/
def State.seat (s : State) (team : Nat) (p : Thread → Bool) : Option Seat :=
  (s.teamGroups team).findSome? fun g =>
    (g.threads.zipIdx.find? fun e => p e.1).map fun e => (g.id, e.2)

/-- R212: the position that an x port leads to. -/
def xNeighbour (rcfg : BitVec 16) (n i port : Nat) : Option Nat :=
  let seg := nfield rcfg.toNat 0 11
  let len := if seg = 0 then n else seg
  let first := i / len * len
  let last := Nat.min (first + len) n - 1
  let wrap := rcfg.getLsbD 11
  if port = 0 then (if i < last then some (i + 1) else if wrap then some first else none)
  else (if first < i then some (i - 1) else if wrap then some last else none)

/-- Teams of the same cohort; a successor team belongs to none (R206). -/
def State.cohort (s : State) (t : Team) : List Team :=
  s.teams.filter fun x => x.launch == t.launch && x.live && !x.isSuccessor && !t.isSuccessor

/-- R213: the team that a y port leads to. -/
def State.yNeighbour (s : State) (t : Team) (port : Nat) : Option Team :=
  match s.launch? t.launch with
  | none => none
  | some l =>
    if l.record.coh = 2 ∧ l.record.ring = true ∧ t.isSuccessor = false then
      let n := l.record.gx * l.record.gy * l.record.gz
      let up := port = 2
      let edge := if up then t.crank + 1 = n else t.crank = 0
      let rank := if up then (if edge then 0 else t.crank + 1) else (if edge then n - 1 else t.crank - 1)
      match (s.cohort t).find? (·.crank == rank) with
      | none => none
      | some x =>
        if t.rcfg.getLsbD 12 && x.rcfg.getLsbD 12 && (!edge || (t.rcfg.getLsbD 13 && x.rcfg.getLsbD 13)) then some x
        else none
    else none

/-- The core with the same place on the other die of the stack (R55, R214). -/
def mirrorCore (c : Nat) : Nat := if c / 32 % 2 = 0 then c + 32 else c - 32

/-- The rank of a team among the cohort's teams on one core, by tix. -/
def coreRank (ts : List Team) (t : Team) : Nat := (ts.filter fun x => x.core == t.core && x.tix < t.tix).length

/-- The team of the cohort placed on the mirror core; where both cores hold several, by equal rank (R214). -/
def State.zPeer (s : State) (t : Team) : Option Team :=
  match s.launch? t.launch with
  | none => none
  | some l =>
    if 4 ≤ l.record.coh ∧ l.record.coh ≤ 6 then
      let ts := s.cohort t
      ts.find? fun x => x.core == mirrorCore t.core && coreRank ts x == coreRank ts t
    else none

/-- R214: the team that a z port leads to. -/
def State.zNeighbour (s : State) (t : Team) (port : Nat) : Option Team :=
  match s.zPeer t with
  | none => none
  | some x =>
    let edge := decide (port = 4) != decide (t.core / 32 % 2 = 0)
    if t.rcfg.getLsbD 14 && x.rcfg.getLsbD 14 && (!edge || (t.rcfg.getLsbD 15 && x.rcfg.getLsbD 15)) then some x
    else none

/-- The thread that a port of a lane of the group in focus leads to; `none` where the port is open (R215). -/
def State.link (s : State) (lane port : Nat) : Option Seat :=
  let t := s.team
  let th := s.cur.lane lane
  if port < 2 then
    match xNeighbour t.rcfg t.nthr th.pos port with
    | none => none
    | some j => s.seat t.id fun x => x.pos == j
  else
    match (if port < 4 then s.yNeighbour t port else s.zNeighbour t port) with
    | none => none
    | some x => s.seat x.id fun y => y.tid == th.tid

/-- The inbound queue at a seat. -/
def State.queueAt (s : State) (seat : Seat) (p : Nat) : List RillEntry :=
  match s.group? seat.1 with
  | some g => (g.lane seat.2).queue p
  | none => []

def State.modQueue (s : State) (seat : Seat) (p : Nat) (f : List RillEntry → List RillEntry) : State :=
  s.mapGroups (·.id == seat.1) fun g => { g with threads := modLane (fun t => t.setQueue p (f (t.queue p))) seat.2 g.threads }

/-! ### Waiting, popping and reserving (R217) -/

/-- How many of an instruction's fields pop a port. -/
def popCountOf (pops : List Nat) (p : Nat) : Nat := (pops.filter (· == p)).length

/-- The port whose queue is full for a lane's push. -/
def State.laneFull (s : State) (em : LaneMask) (pops : List Nat) (push : Option Nat) (lane : Nat) : Option Nat :=
  match push with
  | none => none
  | some q =>
    match s.link lane q with
    | none => none
    | some seat =>
      let len := (s.queueAt seat (opposite q)).length
      -- this instruction's own pops come first
      let mine := if seat.1 = s.cur.id ∧ em.getLsbD seat.2 = true then popCountOf pops (opposite q) else 0
      if len - Nat.min mine len < 4 then none else some q

/-- The port that a lane would block at, if any. -/
def State.laneBlocked (s : State) (em : LaneMask) (pops : List Nat) (push : Option Nat) (lane : Nat) : Option Nat :=
  let th := s.cur.lane lane
  match pops.find? fun p =>
      let q := th.queue p
      let n := popCountOf pops p
      !((q.take (Nat.min n q.length)).all (·.isFilled)) || ((s.link lane p).isSome && q.length < n) with
  | some p => some p
  | none => s.laneFull em pops push lane

/-- The lanes of a mask. -/
def State.lanesOf (s : State) (m : LaneMask) : List Nat :=
  (List.range s.cur.threads.length).filter fun l => m.getLsbD l

/-- The port at which the whole instruction blocks; `none` when it can proceed in every lane of `m`. -/
def State.rillBlocked (s : State) (m : LaneMask) (pops : List Nat) (push : Option Nat) : Option Nat :=
  (s.lanesOf m).findSome? (s.laneBlocked m pops push)

/-- Some lane of `m` finds the queue that it pushes full. -/
def State.pushBlocked (s : State) (m : LaneMask) (pops : List Nat) (push : Option Nat) : Bool :=
  (s.lanesOf m).any fun l => (s.laneFull m pops push l).isSome

/-- The stall counter of a block: full goes before empty (R411). -/
def State.rillCause (s : State) (m : LaneMask) (pops : List Nat) (push : Option Nat) : Nat :=
  if s.pushBlocked m pops push then stallRillFull else stallRillEmpty

/-- Drop the head of each port named. -/
def Thread.drops (t : Thread) (pops : List Nat) : Thread := pops.foldl (fun t p => t.setQueue p ((t.queue p).drop 1)) t

/-- Take the pops of every lane of `m`. -/
def State.takePops (s : State) (m : LaneMask) (pops : List Nat) : State :=
  s.modCur fun g => { g with threads := g.threads.mapIdx fun i t => cond (m.getLsbD i) (t.drops pops) t }

/-- Reserve the tail entry that a lane's push goes to. The links are those of `s0`, the state at the first beat. -/
def State.reserve (s s0 : State) (port lane : Nat) (e : RillEntry) : State :=
  match s0.link lane port with
  | none => s
  | some seat => s.modQueue seat (opposite port) (· ++ [e])

/-- The key of a reservation by one lane of an operation in flight. -/
def reserveKey (tag lane : Nat) : Nat := 64 * tag + lane

/-- Give the reservation of an operation in flight its value. -/
def readyEntry (group tag : Nat) (v : Word) (e : RillEntry) : RillEntry :=
  if e = .reserved group tag then .ready v else e

def Thread.readyAll (group tag : Nat) (v : Word) (t : Thread) : Thread :=
  let f := List.map (readyEntry group tag v)
  { t with xp := f t.xp, xm := f t.xm, yp := f t.yp, ym := f t.ym, zp := f t.zp, zm := f t.zm }

def State.readyReserved (s : State) (group tag lane : Nat) (v : Word) : State :=
  s.mapGroups (fun _ => true) fun g => { g with threads := g.threads.map (Thread.readyAll group (reserveKey tag lane) v) }

/-- Fill the oldest entry that is not filled, if its value is known. -/
def fillFirst : List RillEntry → Option (List RillEntry)
  | [] => none
  | .filled v :: rest => (fillFirst rest).map (.filled v :: ·)
  | .flawed v :: rest => (fillFirst rest).map (.flawed v :: ·)
  | .ready v :: rest => some (.filled v :: rest)
  | .reserved _ _ :: _ => none

/-- Every x inbound queue of the team is empty (R199, R216). -/
def State.xEmpty (s : State) (team : Nat) : Bool :=
  (s.teamGroups team).all fun g => g.threads.all fun t => t.xp.isEmpty && t.xm.isEmpty

end Sys2Proof.Machine
end

