-- ==== Sys2Proof/Machine/Hold.lean ====
section
/-! DEFINITION. What instructions wait for that lies beyond their half-word: accesses in flight, banks, lines, queues, and when
the stall of a group is over (R64, R182, R253, R267, R278, R343, R396). -/

namespace Sys2Proof.Machine

/-! ### Ports -/

/-- Stall at the ports of an instruction, which block it (R226). -/
def State.stallPorts (s : State) (w : Wait) (m : LaneMask) (pops : List Nat) (push : Option Nat) : State :=
  s.stallFor (.rill m pops push) w (s.rillCause m pops push)

/-- Run `f`, which ends the region, once no port blocks it. Where the region's translations are awaited too, the cause with the
lower index is counted: the port's (R217, R220, R367, R411). -/
def State.throughPorts (s : State) (m : LaneMask) (pops : List Nat) (push : Option Nat) (f : State → State) : State :=
  match s.rillBlocked m pops push with
  | some q => if s.cur.walking then s.stallPorts .retry m pops push else s.endRegion.stallPorts (.rill q) m pops push
  | none => s.regionEnder f

/-! ### Accesses under way -/

/-- Loads and scratchpad loads that an acquire waits for. -/
def Group.loadsQuiet (g : Group) : Bool :=
  g.flights.all fun f => f.path != 0 && (match f.kind with
    | .sload _ _ _ => false
    | _ => true)

/-- A bank of the core's write buffer, or of the group's committed lines, holds a line of the bank that `pa` maps to. -/
def State.bankBusy (s : State) (pa : Nat) : Bool :=
  let k := bankOf (pa / 64)
  (s.writeBuf.any fun e => e.core == s.cur.core && bankOf e.line == k) || s.cur.storeBuf.any fun l => l.committed && bankOf l.line == k

/-- The operation has an access to a line. -/
def FlightKind.onLine (k : FlightKind) (line : Nat) : Bool :=
  match k with
  | .load _ _ _ _ _ lanes => lanes.any fun a => a.pa / 64 == line
  | .atomic _ _ _ _ _ lanes => lanes.any fun a => a.pa / 64 == line
  | .returned _ _ _ _ _ _ _ lanes => lanes.any fun a => a.pa / 64 == line
  | _ => false

/-- Earlier accesses of the group or its core to a line that are not yet performed. A line of the handler's own region store
buffer is not among them: its region goes on (R67). -/
def State.lineBusy (s : State) (line : Nat) : Bool :=
  (s.writeBuf.any fun e => e.core == s.cur.core && e.line == line)
    || (s.cur.storeBuf.any fun l => l.line == line && l.committed)
    || s.cur.flights.any fun f => !f.done && f.kind.onLine line

/-- An access in flight of the group to some of the bytes at a place (R278). Nothing is ordered with an
invariant load (R287). -/
def Flight.touches (f : Flight) (pa size : Nat) : Bool :=
  let hit (n : Nat) (l : LaneAcc) : Bool := decide (l.pa < pa + size) && decide (pa < l.pa + n)
  !f.done && (match f.kind with
    | .load n _ _ _ inv lanes => !inv && lanes.any (hit n)
    | .atomic _ n _ _ _ lanes => lanes.any (hit n)
    | .returned _ n _ _ _ _ _ lanes => lanes.any (hit n)
    | _ => false)

/-! ### Accesses under cached translations (R253) -/

/-- Two lists of lines meet. -/
def meets (xs ys : List Nat) : Bool := xs.any ys.contains

/-- The places that an accepted matrix cell reads or writes. -/
def MtxOp.segs (op : MtxOp) : List Seg :=
  match op with
  | .mma _ _ _ _ _ rows cols _ => (rows ++ cols).flatMap (·.segs)
  | .load _ rows => rows.flatMap (·.segs)
  | .store pieces => pieces.map (·.1)
  | _ => []

/-- An operation in flight whose accesses were translated through one of the lines and are not yet performed. -/
def Flight.usesLines (f : Flight) (lines : List Nat) : Bool :=
  !f.done && (match f.kind with
    | .load _ _ _ _ _ lanes => lanes.any fun a => meets a.tbl lines
    | .atomic _ _ _ _ _ lanes => lanes.any fun a => meets a.tbl lines
    | .returned _ _ _ _ _ _ _ lanes => lanes.any fun a => meets a.tbl lines
    | .mtx op _ => op.segs.any fun x => meets x.tbl lines
    | _ => false)

/-- Some access of the device was translated through one of the lines and has not reached its coherence point. -/
def State.linesInUse (s : State) (lines : List Nat) : Bool :=
  (s.writeBuf.any fun e => meets e.tbl lines)
    || s.groups.any fun g => (g.storeBuf.any fun l => meets l.tbl lines) || g.flights.any fun f => f.usesLines lines

/-! ### Queues -/

/-- Commands that wait in an engine's queue. -/
def State.queued (s : State) (cascade : Bool) (unit : Nat) : Nat :=
  (s.commands.filter fun c => c.cascade == cascade && c.unit == unit && c.stage == .queued).length

def engineSlots (cascade : Bool) : Nat := if cascade then 256 else 64

/-- The register block of a queue. -/
def State.queue (s : State) (q : Nat) : Queue := ((s.queues.find? (·.1 == q)).map (·.2)).getD Queue.reset

/-- A delivery on this device has been accepted into the window of a tag of a cluster, and is not wholly written. -/
def Command.landing (c : Command) (cluster tag : Nat) : Bool :=
  c.peer == 0 && c.tag == tag && c.deliveries.any fun d =>
    d.cluster == cluster && d.stage == .sending && d.todo != [(0, c.box.length)]

/-- A command of a team whose dense side is the scratchpad has not ended (R361). -/
def State.scratchBusy (s : State) (team : Nat) : Bool :=
  s.commands.any fun c => c.team == team && (match c.shape with
    | some h => h.spd
    | none => false)

/-! ### The end of a stall (R182) -/

def Wait.isRendezvous : Wait → Bool
  | .rendezvous _ _ _ => true
  | _ => false

/-- A group of the team is in its handler for cause 9 (R379). -/
def State.watchdogIn (s : State) (g : Group) : Bool :=
  s.groups.any fun x => x.team == g.team && x.id != g.id && x.live && x.intrap && x.tcause.toNat == causeWatchdog

/-- The rendezvous at which the group in focus stalls has its outcome: every live group of the team stands at one, and where it
is the same for all, the team's counters are zero and its stores have gone (R197). -/
def State.rendezvousOver (s : State) : Bool :=
  let gs := s.teamGroups s.team.id
  s.watchdogIn s.cur || ((gs.all fun g => g.wait.isRendezvous)
    && ((gs.any fun g => g.pc != s.cur.pc)
      || ((gs.all fun g => g.flights.isEmpty) && !(coresOf s.team.pspan s.team.core).any fun c => s.heldLine c s.team.scope)))

/-- The group in focus waits at a barrier or a rendezvous that is over: only the end of that instruction is left. -/
def State.barrierOver (s : State) : Bool :=
  match s.cur.wait with
  | .bar k phase => (s.team.bars.getD k Barrier.zero).phase != phase
  | .cbar phase => s.launch.cphase != phase
  | .rendezvous _ _ _ => s.rendezvousOver
  | _ => false

/-- The counter that a stall counts at says that it may be over. -/
def State.counterOver (s : State) : Bool :=
  let c := s.cur.stalled
  if c = stallBarrier then s.barrierOver
  else if c = stallRegion then !s.cur.walking
  else if c = stallSync then decide (s.syncOpen s.cur.core < 32)
  else true

/-- What the group in focus stalled at is over (R182). -/
def State.causeOver (s : State) : Bool :=
  if s.cur.stalled = 0 then true
  else
    match s.cur.hold with
    | .cause => s.counterOver
    | .path k n => decide (s.cur.count k ≤ n)
    | .rill m pops push => !s.cur.walking && (s.rillBlocked m pops push).isNone
    | .drain m port => !s.cur.walking && (s.lanesOf m).all fun l => ((s.cur.lane l).queue port).all (·.isFilled)
    | .release scope => s.cur.quiet && !s.heldLine s.cur.core scope
    | .acquire scope => s.cur.loadsQuiet && !s.heldLine s.cur.core scope
    | .room n => decide (s.cur.storeBuf.length + n ≤ 32)
    | .banks pas => s.cur.count 0 == 0 && !(pas.any fun pa => s.bankBusy pa)
    | .lines ls => !(ls.any s.lineBusy)
    | .bytes pa => !(s.cur.flights.any fun f => f.touches pa 8)
    | .tables ls => !s.linesInUse ls
    | .engine cascade unit => decide (s.queued cascade unit < engineSlots cascade)
    | .queue q => let b := s.queue q; decide ((b.wr - b.rd).toNat < b.cap.toNat)
    | .arrived k _ => !s.cur.arrived.contains (k, (s.team.bars.getD k Barrier.zero).phase)
    | .landing tag => !s.commands.any fun c => c.landing (clusterOf s.cur.core) tag && c.launch == s.team.launch
    | .scratch => !s.scratchBusy s.team.id
    | .rebuild => !(s.dies.any fun e => e.2.halfLost) && !s.biasCmd.getLsbD 2
    | .pages => !s.cur.walking && s.atsMiss.isEmpty && s.pulls.isEmpty

end Sys2Proof.Machine
end

