-- ==== Sys2Proof/Machine/Operands.lean ====
section
/-! DEFINITION. Operand codes: which codes each field class accepts, how a source is read in a lane, how a result is
written, and the shared execution of the cells that compute a value (R50 to R54, R58, R60, R62, R78, R79, R104, R106). -/

namespace Sys2Proof.Machine

/-! ### Kinds (R58) -/

inductive Kind where
  | uniform | thread | byDest
  deriving DecidableEq, Repr

/-- Bit 12 of the half-word in force. -/
def State.u (s : State) : Bool := s.issue.half.getLsbD 12

def isS (c : Nat) : Bool := 64 ≤ c && c < 96
def isV (c : Nat) : Bool := c < 64
def isPort (c : Nat) : Bool := 100 ≤ c && c < 106
def isLatch (c : Nat) : Bool := 96 ≤ c && c < 100
def codeZero : Nat := 106
def codeNul : Nat := 127

/-- The u bit agrees with the kind of the instruction (R58). -/
def Kind.uOk (k : Kind) (u : Bool) (d : Nat) : Bool :=
  match k with
  | .uniform => u
  | .thread => !u
  | .byDest => if isS d then u else if isV d || isPort d then !u else true

/-- `true` for the uniform form. -/
def Kind.isUniform (k : Kind) (u : Bool) (d : Nat) : Bool :=
  match k with
  | .uniform => true
  | .thread => false
  | .byDest => isS d || u

/-! ### Field classes (R52, R53, R78) -/

/-- Codes that a uniform instruction may read. -/
def uniformSrc (c : Nat) : Bool := isS c || c == 106 || (108 ≤ c && c ≤ 111) || c == 113

inductive SrcCls where
  /-- 32 bits of a general operand -/
  | w
  /-- all 64 bits of a general operand -/
  | wide
  | pair
  | v
  | s
  /-- 32 bits of a v-register, or of an s-register in a uniform instruction -/
  | reg
  /-- a predicate number, read in the lane -/
  | pred
  /-- a number up to a bound, its own value -/
  | num (max : Nat)
  /-- no field: the number of the lane itself -/
  | lane
  deriving DecidableEq, Repr

inductive Ext where
  | sign | zero | full
  deriving DecidableEq, Repr

inductive DstCls where
  | w (ext : Ext)
  /-- a v-register and nothing else -/
  | v
  | pair
  | pred
  deriving DecidableEq, Repr

structure Src where
  code : Nat
  cls : SrcCls
  deriving DecidableEq, Repr

/-- A source field is valid. -/
def Src.ok (uniform : Bool) (x : Src) : Bool :=
  match x.cls with
  | .w | .wide => if uniform then uniformSrc x.code else x.code < 114
  | .pair => if uniform then uniformSrc x.code else
      (isV x.code && x.code % 2 == 0) || isS x.code || isLatch x.code || x.code == 106
        || (108 ≤ x.code && x.code ≤ 111) || x.code == 113
  | .v => !uniform && isV x.code
  | .s => isS x.code
  | .reg => if uniform then isS x.code else isV x.code
  | .pred => x.code < 32
  | .num max => x.code ≤ max
  | .lane => true

/-- A destination field is valid. -/
def DstCls.ok (uniform : Bool) (d : Nat) : DstCls → Bool
  | .w _ => if uniform then isS d || d == codeNul else isV d || isPort d || d == codeNul
  | .v => !uniform && isV d
  | .pair => if uniform then isS d else isV d && d % 2 == 0
  | .pred => d < 32

/-- The ports that the source fields pop, in field order. -/
def popsOf (srcs : List Src) : List Nat :=
  (srcs.filter fun x => (x.cls == .w || x.cls == .wide) && isPort x.code).map (·.code - 100)

/-! ### Reading a source in a lane -/

/-- A read-only special (R54). -/
def State.roSpecial (s : State) (code lane : Nat) : DWord :=
  let t := s.team
  match code with
  | 107 => BitVec.ofNat 64 lane
  | 108 => BitVec.ofNat 64 t.gw
  | 109 => BitVec.ofNat 64 s.cur.gix
  | 110 => BitVec.ofNat 64 t.ngrp
  | 111 => BitVec.ofNat 64 t.tix
  | 112 => BitVec.ofNat 64 (s.cur.lane lane).tid
  | 113 => BitVec.ofNat 64 s.cur.core
  | _ => 0

/-- v-register `i` of a lane, source `src` of the instruction. -/
def State.vreg (s : State) (src lane i : Nat) : Word :=
  (s.seen (.v (s.cur.wb + i)) src lane (zext64 (sget 0 (s.cur.lane lane).stack (s.cur.wb + i)))).setWidth 32

/-- s-register `i`. -/
def State.sreg (s : State) (src i : Nat) : DWord := s.seen (s.cur.sTarget i) src 0 (s.cur.sreg i)

/-- Predicate `i` of a lane. -/
def State.pred (s : State) (src lane i : Nat) : Bool :=
  (s.seen (.p i) src lane (if (s.cur.lane lane).pred.getLsbD i then 1 else 0)) != 0

/-- A latch; 0 where it is not valid (R63). -/
def State.latch (s : State) (lane k : Nat) : DWord :=
  if k < s.cur.latches then
    let t := s.cur.lane lane
    match k with
    | 0 => t.b0
    | 1 => t.b1
    | 2 => t.b2
    | _ => t.b3
  else 0

/-- The entry that the `k`-th pop of a port takes; 0 beyond the queue's contents (R217). -/
def State.popValue (s : State) (lane port k : Nat) : DWord :=
  match ((s.cur.lane lane).queue port)[k]? with
  | some e => zext64 e.value
  | none => 0

/-- All 64 bits of a general operand: `pairs` where a v-register names a pair, `k` the pops of the port before it. -/
def State.operand (s : State) (pairs : Bool) (src lane k code : Nat) : DWord :=
  if isV code then
    (if pairs then pair64 (s.vreg src lane code) (s.vreg src lane (code + 1)) else zext64 (s.vreg src lane code))
  else if isS code then s.sreg src (code - 64)
  else if isLatch code then s.latch lane (code - 96)
  else if isPort code then s.popValue lane (code - 100) k
  else s.roSpecial code lane

/-- The value of one source field. -/
def State.source (s : State) (lane : Nat) (before : List Nat) (src : Nat) (x : Src) : DWord :=
  match x.cls with
  | .w => zext64 (low32 (s.operand false src lane (popCountOf before (x.code - 100)) x.code))
  | .wide => s.operand false src lane (popCountOf before (x.code - 100)) x.code
  | .pair => s.operand true src lane 0 x.code
  | .v => zext64 (s.vreg src lane x.code)
  | .s => s.sreg src (x.code - 64)
  | .reg => zext64 (low32 (s.operand false src lane 0 x.code))
  | .pred => if s.pred src lane x.code then 1 else 0
  | .num _ => BitVec.ofNat 64 x.code
  | .lane => BitVec.ofNat 64 lane

/-- The values of the source fields of a lane; `i` numbers the first and `before` holds the ports popped so far. -/
def State.sources (s : State) (lane : Nat) : Nat → List Nat → List Src → List DWord
  | _, _, [] => []
  | i, before, x :: rest =>
    s.source lane before i x :: s.sources lane (i + 1) (before ++ popsOf [x]) rest

/-- An instruction of the group reads a latch that is not valid (R63). -/
def Group.losesLatch (g : Group) (codes : List Nat) : Bool := codes.any fun c => isLatch c && g.latches ≤ c - 96

/-! ### Errors that a code cannot correct (R424) -/

/-- No register of the thread holds one. -/
def Thread.intact (t : Thread) : Bool :=
  t.badStack.isEmpty && t.badPreds.isEmpty
    && [t.xp, t.xm, t.yp, t.ym, t.zp, t.zm].all fun q => q.all fun e => match e with
      | .flawed _ => false
      | _ => true

/-- No register of the group holds one. -/
def Group.intact (g : Group) : Bool := g.bad.isEmpty && g.threads.all Thread.intact

/-- v-register `i` of a lane holds one. -/
def Group.badV (g : Group) (lane i : Nat) : Bool := (g.lane lane).badStack.contains (g.wb + i)

/-- s-register `i` holds one. -/
def Group.badS (g : Group) (i : Nat) : Bool := g.bad.contains (if g.isHandlerReg i then (true, i - 24) else (false, i))

/-- The entry that the `k`-th pop of a port takes holds one. -/
def Group.badEntry (g : Group) (lane port k : Nat) : Bool :=
  match ((g.lane lane).queue port)[k]? with
  | some (.flawed _) => true
  | _ => false

/-- What a general operand names holds one; `pairs` and `k` as for `State.operand`. -/
def Group.badCode (g : Group) (pairs : Bool) (lane k code : Nat) : Bool :=
  if isV code then g.badV lane code || (pairs && g.badV lane (code + 1))
  else if isS code then g.badS (code - 64)
  else isPort code && g.badEntry lane (code - 100) k

/-- What a source field names holds one. -/
def Group.badSource (g : Group) (lane : Nat) (before : List Nat) (x : Src) : Bool :=
  match x.cls with
  | .w | .wide | .v | .s | .reg => g.badCode false lane (popCountOf before (x.code - 100)) x.code
  | .pair => g.badCode true lane 0 x.code
  | .pred => (g.lane lane).badPreds.contains x.code
  | .num _ => false
  | .lane => false

/-- What some source field of a lane names holds one. -/
def Group.badSources (g : Group) (lane : Nat) : List Nat → List Src → Bool
  | _, [] => false
  | before, x :: rest => g.badSource lane before x || g.badSources lane (before ++ popsOf [x]) rest

/-- Read sources in lanes: the group takes the poison trap where one of them holds an error that its code cannot correct
(R364, R424). -/
def State.sound (s : State) (lanes : List Nat) (srcs : List Src) (f : State → State) : State :=
  if !s.cur.intact && lanes.any fun l => s.cur.badSources l [] srcs then s.poisonTrap id s.cur.pc 1 else f s

/-! ### Writing results -/

/-- The value that an s-register receives from a 32-bit or 64-bit result (R106). -/
def Ext.apply (e : Ext) (x : DWord) : DWord :=
  match e with
  | .sign => sext64 (low32 x)
  | .zero => zext64 (low32 x)
  | .full => x

/-- The lanes of a list of results. -/
def lanesIn {α : Type} (vals : List (Nat × α)) : LaneMask :=
  vals.foldl (fun m e => if e.1 < 64 then m ||| 1#64 <<< e.1 else m) 0

/-- Write entry `i` of the register stack of one lane. -/
def Group.setStack (g : Group) (lane i : Nat) (x : Word) : Group :=
  { g with threads := modLane (fun t =>
      { t with stack := sset 0 t.stack i x, badStack := t.badStack.filter (· ≠ i) }) lane g.threads }

/-- The value of a stack entry in every lane. -/
def Group.stackOld (g : Group) (i : Nat) : List DWord := g.threads.map fun t => zext64 (sget 0 t.stack i)

/-- Write stack entry `i` in the lanes given, remembering the old values for `left` cycles. -/
def Group.writeStack (g : Group) (i : Nat) (vals : List (Nat × DWord)) (left : Nat) : Group :=
  let h := g.hazardIn (.v i) (g.stackOld i) left (lanesIn vals)
  vals.foldl (fun g e => g.setStack e.1 i (low32 e.2)) h

/-- Write an s-register, remembering the old value for `left` cycles. -/
def Group.writeS (g : Group) (i : Nat) (x : DWord) (left : Nat) : Group :=
  (g.hazard (g.sTarget i) [g.sreg i] left).setSreg i x

/-- Write a predicate in the lanes given. -/
def Group.writePred (g : Group) (i : Nat) (vals : List (Nat × Bool)) (left : Nat) : Group :=
  let h := g.hazardIn (.p i) (g.threads.map fun t => if t.pred.getLsbD i then 1 else 0) left (lanesIn vals)
  { h with threads := vals.foldl (fun ts e => modLane (fun t =>
      { t with pred := setBit t.pred i e.2, badPreds := t.badPreds.filter (· ≠ i) }) e.1 ts) h.threads }

/-- The value of a lane in a list of results; 0 for a lane that has none. -/
def laneVal (vals : List (Nat × DWord)) (l : Nat) : DWord :=
  match vals.find? (·.1 == l) with
  | some e => e.2
  | none => 0

/-! ### Cells that compute a value -/

/-- A cell that reads its sources, computes, and writes one result. -/
structure Cell where
  kind : Kind
  d : Nat
  dcls : DstCls
  srcs : List Src
  /-- the per-thread latency (R60); the uniform one is 2 -/
  lat : Nat
  /-- the cell is on the lng path -/
  long : Bool
  /-- the result and the flags, from the rounding mode and the source values -/
  f : BitVec 2 → List DWord → DWord × FpFlags
  /-- destination codes accepted besides those of the class (R93) -/
  extra : Nat → Bool := fun _ => false
  /-- the only lane that takes part (R190) -/
  only : Option Nat := none

def Cell.isUniform (c : Cell) (s : State) : Bool := c.kind.isUniform s.u c.d

/-- Steps 2 and 3 of R103: the cause of the trap that the word and its half-word raise. -/
def Cell.cause (c : Cell) (s : State) : Option Nat :=
  if !c.kind.uOk s.u c.d then some causeIllegal
  else if !((c.dcls.ok (c.isUniform s) c.d || c.extra c.d) && c.srcs.all (Src.ok (c.isUniform s))) then some causeOperand
  else none

/-- The port that the destination pushes. -/
def Cell.push (c : Cell) : Option Nat :=
  match c.dcls with
  | .w _ => if isPort c.d then some (c.d - 100) else none
  | _ => none

/-- The result of one lane and its flags. -/
def Cell.result (c : Cell) (s : State) (lane : Nat) : DWord × FpFlags :=
  let r := c.f s.rmSeen (s.sources lane 0 [] c.srcs)
  match c.dcls with
  | .w e => (if isS c.d then e.apply r.1 else zext64 (low32 r.1), r.2)
  | .v => (zext64 (low32 r.1), r.2)
  | .pair => r
  | .pred => (if r.1 = 0 then 0 else 1, r.2)

/-- The result in the uniform form: a write to nul of the full width keeps 64 bits. -/
def Cell.uniformResult (c : Cell) (s : State) : DWord × FpFlags :=
  let r := c.f s.rmSeen (s.sources 0 0 [] c.srcs)
  match c.dcls with
  | .w e => (if isS c.d || e == .full then e.apply r.1 else zext64 (low32 r.1), r.2)
  | _ => r

/-- The lanes that take part. -/
def Cell.mask (c : Cell) (s : State) : LaneMask :=
  match c.only with
  | none => s.em
  | some j => if j < 64 then s.em &&& (1#64 <<< j) else 0

/-- The results of the lanes that take part. -/
def Cell.results (c : Cell) (s : State) : List (Nat × (DWord × FpFlags)) :=
  (s.lanesOf (c.mask s)).map fun l => (l, c.result s l)

/-- `count` uniform registers from code `c` on, as the group names them now. -/
def State.sDst (s : State) (c count : Nat) : Dst :=
  if s.cur.isHandlerReg (c - 64) then .s true (c - 88) count else .s false (c - 64) count

/-- Where the result of a cell goes, with stack entries absolute. -/
def Cell.dst (c : Cell) (s : State) : Dst :=
  match c.dcls with
  | .w _ =>
    if isV c.d then .v (s.cur.wb + c.d) 1
    else if isS c.d then s.sDst c.d 1
    else if isPort c.d then .port (c.d - 100)
    else .none
  | .v => .v (s.cur.wb + c.d) 1
  | .pair => if isV c.d then .v (s.cur.wb + c.d) 2 else s.sDst c.d 1
  | .pred => .none

/-- Write the results of the active lanes into a v-register or, once, into an s-register (R187). -/
def Cell.writeReg (c : Cell) (s : State) (vals : List (Nat × DWord)) (g : Group) : Group :=
  if isV c.d then g.writeStack (s.cur.wb + c.d) vals c.lat
  else if isS c.d then
    match vals with
    | [] => g
    | e :: _ => g.writeS (c.d - 64) e.2 c.lat
  else g

/-- Write the results of the active lanes. -/
def Cell.write (c : Cell) (s : State) (vals : List (Nat × DWord)) (g : Group) : Group :=
  match c.dcls with
  | .w _ => c.writeReg s vals g
  | .v => c.writeReg s vals g
  | .pair =>
    if isV c.d then
      (c.writeReg s vals g).writeStack (s.cur.wb + c.d + 1) (vals.map fun e => (e.1, zext64 (high32 e.2))) c.lat
    else c.writeReg s vals g
  | .pred => g.writePred c.d (vals.map fun e => (e.1, e.2 != 0)) c.lat

/-- Note a latch that was lost, where a lane reads one. -/
def State.noteLatches (s : State) (m : LaneMask) (codes : List Nat) (g : Group) : Group :=
  if m != 0 && s.cur.losesLatch codes then g.latchLost else g

def Cell.codes (c : Cell) : List Nat :=
  (c.srcs.filter fun x => x.cls == .w || x.cls == .wide || x.cls == .pair).map (·.code)

/-- The pops of the cell, in field order. -/
def Cell.pops (c : Cell) : List Nat := popsOf c.srcs

/-- The reservation of every lane of `m`. `entry` gives the entry of a lane. -/
def State.reserveAll (s s0 : State) (m : LaneMask) (port : Nat) (entry : Nat → RillEntry) : State :=
  (s0.lanesOf m).foldl (fun t l => t.reserve s0 port l (entry l)) s

/-- Execute a cell of fixed latency whose checks have passed and which no port blocks. -/
def Cell.runFixed (c : Cell) (s : State) : State :=
  if c.isUniform s then
    let r := c.uniformResult s
    (s.modCur fun g => (if isS c.d then g.writeS (c.d - 64) r.1 2 else g).raiseAfter r.2 2).finish r.1
  else
    let rs := c.results s
    let vals := rs.map fun e => (e.1, e.2.1)
    let flags : FpFlags := rs.foldl (fun (f : FpFlags) e => f ||| e.2.2) 0
    let t := s.takePops (c.mask s) c.pops
    let t := match c.push with
      | some p => t.reserveAll s (c.mask s) p fun l => .ready (low32 (laneVal vals l))
      | none => t
    (t.modCur fun g => s.noteLatches (c.mask s) c.codes ((c.write s vals g).raiseAfter flags c.lat)).finishLanes (laneVal vals)

/-- Execute a cell of the lng path: the result comes later (R108, R138). -/
def Cell.runLong (c : Cell) (s : State) : State :=
  if c.isUniform s then
    let r := c.uniformResult s
    (s.launchFlight 5 (.long (c.dst s) [(0, r.1.toNat)] r.2)).finish 0
  else
    let rs := c.results s
    let vals := rs.map fun e => (e.1, e.2.1)
    let flags : FpFlags := rs.foldl (fun (f : FpFlags) e => f ||| e.2.2) 0
    let t := s.takePops (c.mask s) c.pops
    let nums := vals.map fun e => (e.1, e.2.toNat)
    let t := match c.push with
      | some p => t.reserveAll s (c.mask s) p fun l => .reserved s.cur.id (reserveKey s.cur.nextTag l)
      | none => t
    ((t.launchFlight 5 (.long (c.dst s) nums flags)).modCur (s.noteLatches (c.mask s) c.codes)).finish 0

/-- The cell past its checks: the counter of lng, the ports, then the computation. An instruction that pops or pushes
ends the region (R220). -/
def Cell.proceed (c : Cell) (s : State) : State :=
  let go := fun s => if c.long then c.runLong s else c.runFixed s
  if c.long && 63 ≤ s.cur.count 5 then s.stallOn (.path 5 62) stallFull
  else if c.pops.isEmpty && c.push.isNone then go s
  else s.throughPorts (c.mask s) c.pops c.push fun s => (go s).startRegion.progress

/-- The lanes that read the sources of a cell. -/
def Cell.readers (c : Cell) (s : State) : List Nat := if c.isUniform s then [0] else s.lanesOf (c.mask s)

/-- Execute a cell. -/
def Cell.exec (c : Cell) (s : State) : State :=
  match c.cause s with
  | some cause => s.trap cause (zext64 s.issue.word)
  | none => s.sound (c.readers s) c.srcs c.proceed

/-- Word `i` of a number. -/
def numWord (x i : Nat) : Word := BitVec.ofNat 32 (x / 2 ^ (32 * i))

/-- Write `words` words of a number into the stack of a lane. -/
def Group.setWords (g : Group) (lane first : Nat) (x : Nat) : Nat → Group
  | 0 => g
  | n + 1 => (g.setWords lane first x n).setStack lane (first + n) (numWord x n)

/-- Write a number into `count` uniform registers. -/
def Group.setUniforms (g : Group) (handler : Bool) (first : Nat) (x : Nat) : Nat → Group
  | 0 => g
  | n + 1 =>
    let h := g.setUniforms handler first x n
    let w : DWord := BitVec.ofNat 64 (x / 2 ^ (64 * n))
    let b := h.bad.filter (· != (handler, first + n))
    if handler then { h with hregs := sset 0 h.hregs (first + n) w, bad := b }
    else { h with sregs := sset 0 h.sregs (first + n) w, bad := b }

/-- A returning result overwrites registers in some lanes: what earlier writes left there is not read any more. -/
def Group.settleDst (g : Group) (dst : Dst) (lanes : LaneMask) : Group :=
  let hit : Target → Bool := fun t =>
    match dst, t with
    | .v first n, .v i => first ≤ i && i < first + n
    | .s false first n, .s i => first ≤ i && i < first + n
    | .s true first n, .h i => first ≤ i && i < first + n
    | .sLow false j, .s i => i == j
    | .sLow true j, .h i => i == j
    | _, _ => false
  let left (h : Hazard) : Hazard := if hit h.target then { h with lanes := h.lanes &&& ~~~lanes } else h
  { g with hazards := (g.hazards.map left).filter (·.lanes != 0) }

/-- Write the result of a variable-latency operation where it goes (R61, R117). -/
def Group.deliver (g : Group) (dst : Dst) (vals : List (Nat × Nat)) : Group :=
  let g := g.settleDst dst (match dst with
    | .v _ _ => lanesIn vals
    | _ => BitVec.allOnes 64)
  match dst with
  | .none => g
  | .v first words => vals.foldl (fun g e => g.setWords e.1 first e.2 words) g
  | .s handler first count =>
    match vals with
    | [] => g
    | e :: _ => g.setUniforms handler first e.2 count
  | .sLow handler i =>
    match vals with
    | [] => g
    | e :: _ =>
      let old := if handler then sget 0 g.hregs i else sget 0 g.sregs i
      g.setUniforms handler i (old.toNat / 2 ^ 32 * 2 ^ 32 + e.2 % 2 ^ 32) 1
  | .port _ => g

/-- The same in the state: a port destination fills the reservations that the operation made. -/
def State.deliver (s : State) (tag : Nat) (dst : Dst) (vals : List (Nat × Nat)) : State :=
  match dst with
  | .port _ => vals.foldl (fun t e => t.readyReserved s.cur.id tag e.1 (numWord e.2 0)) s
  | _ => s.modCur fun g => g.deliver dst vals

end Sys2Proof.Machine
end

