-- ==== Sys2Proof/Machine/Integer.lean ====
section
/-! DEFINITION. The integer, 64-bit, address and immediate instructions of majors 4, 5 and 6 (R107 to R111). -/

namespace Sys2Proof.Machine

/-! ### Shapes of cells -/

def gen (c : Code) : Src := ⟨c.toNat, .w⟩
def pairOf (c : Code) : Src := ⟨c.toNat, .pair⟩

/-- A result without flags. -/
def noFlags (x : DWord) : DWord × FpFlags := (x, 0)

def arg (xs : List DWord) (i : Nat) : DWord := xs.getD i 0

/-- A 32-bit cell with two operands. -/
def intCell2 (d a b : Code) (ext : Ext) (lat : Nat) (f : Word → Word → Word) : Cell :=
  { kind := .byDest, d := d.toNat, dcls := .w ext, srcs := [gen a, gen b], lat := lat, long := false,
    f := fun _ xs => noFlags (zext64 (f (low32 (arg xs 0)) (low32 (arg xs 1)))) }

/-- A 32-bit cell on the lng path. -/
def intCellLong (d a b : Code) (ext : Ext) (f : Word → Word → Word) : Cell :=
  { intCell2 d a b ext 0 f with long := true }

/-- A 32-bit cell with a shift count in field b. -/
def intCellCnt (d a cnt : Code) (ext : Ext) (f : Word → Nat → Word) : Cell :=
  { kind := .byDest, d := d.toNat, dcls := .w ext, srcs := [gen a, ⟨cnt.toNat, .num 31⟩], lat := 2, long := false,
    f := fun _ xs => noFlags (zext64 (f (low32 (arg xs 0)) (arg xs 1).toNat)) }

/-- A 32-bit cell with one operand. -/
def intCell1 (d a : Code) (ext : Ext) (f : Word → Word) : Cell :=
  { kind := .byDest, d := d.toNat, dcls := .w ext, srcs := [gen a], lat := 2, long := false,
    f := fun _ xs => noFlags (zext64 (f (low32 (arg xs 0)))) }

/-- A 64-bit cell whose operands are both `:v2`. -/
def longCell2 (d a b : Code) (lat : Nat) (f : DWord → DWord → DWord) : Cell :=
  { kind := .byDest, d := d.toNat, dcls := .pair, srcs := [pairOf a, pairOf b], lat := lat, long := false,
    f := fun _ xs => noFlags (f (arg xs 0) (arg xs 1)) }

/-- A 64-bit cell whose field b is a 32-bit operand. -/
def longCellW (d a b : Code) (f : DWord → Word → DWord) : Cell :=
  { kind := .byDest, d := d.toNat, dcls := .pair, srcs := [pairOf a, gen b], lat := 2, long := false,
    f := fun _ xs => noFlags (f (arg xs 0) (low32 (arg xs 1))) }

/-! ### The values (R107, R108) -/

def mulHiS (a b : Word) : Word := high32 (sext64 a * sext64 b)

def mulHiU (a b : Word) : Word := high32 (zext64 a * zext64 b)

/-- Signed quotient, rounded toward zero. -/
def divS (a b : Word) : Word := if b = 0 then 0xFFFFFFFF else BitVec.ofInt 32 (a.toInt.tdiv b.toInt)

def divU (a b : Word) : Word := if b = 0 then 0xFFFFFFFF else BitVec.ofNat 32 (a.toNat / b.toNat)

/-- Signed remainder, with the sign of the dividend. -/
def remS (a b : Word) : Word := if b = 0 then a else BitVec.ofInt 32 (a.toInt.tmod b.toInt)

def remU (a b : Word) : Word := if b = 0 then a else BitVec.ofNat 32 (a.toNat % b.toNat)

def shl32 (a : Word) (n : Nat) : Word := a <<< n

def shr32 (a : Word) (n : Nat) : Word := a >>> n

def sra32 (a : Word) (n : Nat) : Word := a.sshiftRight n

def minS (a b : Word) : Word := if a.slt b then a else b

def maxS (a b : Word) : Word := if b.slt a then a else b

def minU (a b : Word) : Word := if a.ult b then a else b

def maxU (a b : Word) : Word := if b.ult a then a else b

/-- Leading zero bits, by the length of the number. -/
def clz32 (a : Word) : Word := if a = 0 then 32 else BitVec.ofNat 32 (31 - Nat.log2 a.toNat)

def popc32 (a : Word) : Word := BitVec.ofNat 32 (popCount a)

/-- Bit i of the result is bit 31 − i of a. -/
def brev32 (a : Word) : Word := a.reverse

def leaOf (size : Nat) (a : DWord) (b : Word) : DWord := a + sext64 b <<< size

/-! ### Meanings -/

def addCell (d a b : Code) : Cell := intCell2 d a b .sign 2 (fun x y => x + y)

def execAdd (d a b : Code) (s : State) : Out := .next ((addCell d a b).exec s)

def subCell (d a b : Code) : Cell := intCell2 d a b .sign 2 (fun x y => x - y)

def execSub (d a b : Code) (s : State) : Out := .next ((subCell d a b).exec s)

def mulCell (d a b : Code) : Cell := intCell2 d a b .sign 4 (fun x y => x * y)

def execMul (d a b : Code) (s : State) : Out := .next ((mulCell d a b).exec s)

def mulhiCell (d a b : Code) : Cell := intCell2 d a b .sign 4 mulHiS

def execMulhi (d a b : Code) (s : State) : Out := .next ((mulhiCell d a b).exec s)

def mulhuCell (d a b : Code) : Cell := intCell2 d a b .zero 4 mulHiU

def execMulhu (d a b : Code) (s : State) : Out := .next ((mulhuCell d a b).exec s)

def divCell (d a b : Code) : Cell := intCellLong d a b .sign divS

def execDiv (d a b : Code) (s : State) : Out := .next ((divCell d a b).exec s)

def divuCell (d a b : Code) : Cell := intCellLong d a b .zero divU

def execDivu (d a b : Code) (s : State) : Out := .next ((divuCell d a b).exec s)

def remCell (d a b : Code) : Cell := intCellLong d a b .sign remS

def execRem (d a b : Code) (s : State) : Out := .next ((remCell d a b).exec s)

def remuCell (d a b : Code) : Cell := intCellLong d a b .zero remU

def execRemu (d a b : Code) (s : State) : Out := .next ((remuCell d a b).exec s)

def andCell (d a b : Code) : Cell := intCell2 d a b .sign 2 (fun x y => x &&& y)

def execAnd (d a b : Code) (s : State) : Out := .next ((andCell d a b).exec s)

def orCell (d a b : Code) : Cell := intCell2 d a b .sign 2 (fun x y => x ||| y)

def execOr (d a b : Code) (s : State) : Out := .next ((orCell d a b).exec s)

def xorCell (d a b : Code) : Cell := intCell2 d a b .sign 2 (fun x y => x ^^^ y)

def execXor (d a b : Code) (s : State) : Out := .next ((xorCell d a b).exec s)

def andnCell (d a b : Code) : Cell := intCell2 d a b .sign 2 (fun x y => x &&& ~~~y)

def execAndn (d a b : Code) (s : State) : Out := .next ((andnCell d a b).exec s)

def shlCell (d a b : Code) : Cell := intCell2 d a b .sign 2 (fun x y => shl32 x (y.toNat % 32))

def execShl (d a b : Code) (s : State) : Out := .next ((shlCell d a b).exec s)

def shrCell (d a b : Code) : Cell := intCell2 d a b .zero 2 (fun x y => shr32 x (y.toNat % 32))

def execShr (d a b : Code) (s : State) : Out := .next ((shrCell d a b).exec s)

def sraCell (d a b : Code) : Cell := intCell2 d a b .sign 2 (fun x y => sra32 x (y.toNat % 32))

def execSra (d a b : Code) (s : State) : Out := .next ((sraCell d a b).exec s)

def minCell (d a b : Code) : Cell := intCell2 d a b .sign 2 minS

def execMin (d a b : Code) (s : State) : Out := .next ((minCell d a b).exec s)

def maxCell (d a b : Code) : Cell := intCell2 d a b .sign 2 maxS

def execMax (d a b : Code) (s : State) : Out := .next ((maxCell d a b).exec s)

def minuCell (d a b : Code) : Cell := intCell2 d a b .zero 2 minU

def execMinu (d a b : Code) (s : State) : Out := .next ((minuCell d a b).exec s)

def maxuCell (d a b : Code) : Cell := intCell2 d a b .zero 2 maxU

def execMaxu (d a b : Code) (s : State) : Out := .next ((maxuCell d a b).exec s)

def shliCell (d a cnt : Code) : Cell := intCellCnt d a cnt .sign shl32

def execShli (d a cnt : Code) (s : State) : Out := .next ((shliCell d a cnt).exec s)

def shriCell (d a cnt : Code) : Cell := intCellCnt d a cnt .zero shr32

def execShri (d a cnt : Code) (s : State) : Out := .next ((shriCell d a cnt).exec s)

def sraiCell (d a cnt : Code) : Cell := intCellCnt d a cnt .sign sra32

def execSrai (d a cnt : Code) (s : State) : Out := .next ((sraiCell d a cnt).exec s)

def absCell (d a : Code) : Cell := intCell1 d a .sign (fun x => if x.slt 0 then -x else x)

def execAbs (d a : Code) (s : State) : Out := .next ((absCell d a).exec s)

def clzCell (d a : Code) : Cell := intCell1 d a .zero clz32

def execClz (d a : Code) (s : State) : Out := .next ((clzCell d a).exec s)

def popcCell (d a : Code) : Cell := intCell1 d a .zero popc32

def execPopc (d a : Code) (s : State) : Out := .next ((popcCell d a).exec s)

def brevCell (d a : Code) : Cell := intCell1 d a .zero brev32

def execBrev (d a : Code) (s : State) : Out := .next ((brevCell d a).exec s)

def sextbCell (d a : Code) : Cell := intCell1 d a .sign (fun x => (x.setWidth 8).signExtend 32)

def execSextb (d a : Code) (s : State) : Out := .next ((sextbCell d a).exec s)

def sexthCell (d a : Code) : Cell := intCell1 d a .sign (fun x => (x.setWidth 16).signExtend 32)

def execSexth (d a : Code) (s : State) : Out := .next ((sexthCell d a).exec s)

def movCell (d a : Code) : Cell := intCell1 d a .sign (fun x => x)

def execMov (d a : Code) (s : State) : Out := .next ((movCell d a).exec s)

/-- d is read first, and popped after a and b where it names a port. -/
def madCell (d a b : Code) : Cell :=
  { kind := .byDest, d := d.toNat, dcls := .w .sign, srcs := [gen a, gen b, gen d], lat := 4, long := false,
    f := fun _ xs => noFlags (zext64 (low32 (arg xs 2) + low32 (arg xs 0) * low32 (arg xs 1))) }

def execMad (d a b : Code) (s : State) : Out := .next ((madCell d a b).exec s)

def addDCell (d a b : Code) : Cell := longCell2 d a b 2 (fun x y => x + y)

def execAddD (d a b : Code) (s : State) : Out := .next ((addDCell d a b).exec s)

def subDCell (d a b : Code) : Cell := longCell2 d a b 2 (fun x y => x - y)

def execSubD (d a b : Code) (s : State) : Out := .next ((subDCell d a b).exec s)

def mulDCell (d a b : Code) : Cell := longCell2 d a b 4 (fun x y => x * y)

def execMulD (d a b : Code) (s : State) : Out := .next ((mulDCell d a b).exec s)

def shlDCell (d a b : Code) : Cell := longCellW d a b (fun x y => x <<< (y.toNat % 64))

def execShlD (d a b : Code) (s : State) : Out := .next ((shlDCell d a b).exec s)

def shrDCell (d a b : Code) : Cell := longCellW d a b (fun x y => x >>> (y.toNat % 64))

def execShrD (d a b : Code) (s : State) : Out := .next ((shrDCell d a b).exec s)

def sraDCell (d a b : Code) : Cell := longCellW d a b (fun x y => x.sshiftRight (y.toNat % 64))

def execSraD (d a b : Code) (s : State) : Out := .next ((sraDCell d a b).exec s)

def movDCell (d a : Code) : Cell :=
  { kind := .byDest, d := d.toNat, dcls := .pair, srcs := [pairOf a], lat := 2, long := false,
    f := fun _ xs => noFlags (arg xs 0) }

def execMovD (d a : Code) (s : State) : Out := .next ((movDCell d a).exec s)

def leaCell (size : BitVec 2) (d a b : Code) : Cell := longCellW d a b (leaOf size.toNat)

def execLea (size : BitVec 2) (d a b : Code) (s : State) : Out := .next ((leaCell size d a b).exec s)

/-- The addition of an immediate (R110): 64 bits in the uniform form, the low 32 in the per-thread form. -/
def addiCell (d a : Code) (imm : DWord) : Cell :=
  { kind := .byDest, d := d.toNat, dcls := .w .full, srcs := [⟨a.toNat, .wide⟩], lat := 2, long := false,
    f := fun _ xs => noFlags (arg xs 0 + imm) }

def execAddi (d a : Code) (imm : BitVec 13) (s : State) : Out := .next ((addiCell d a (sext64 imm)).exec s)

/-- The load of an immediate (R111). -/
def limCell (d : Code) (imm : DWord) : Cell :=
  { kind := .byDest, d := d.toNat, dcls := .w .full, srcs := [], lat := 2, long := false, f := fun _ _ => noFlags imm }

def execLim (d : Code) (imm : BitVec 20) (s : State) : Out := .next ((limCell d (sext64 imm)).exec s)

end Sys2Proof.Machine
end

