-- ==== Sys2Proof/Machine/Predicate.lean ====
section
/-! DEFINITION. Compares, predicate operations and selection: majors 10 and 11 (R112, R113, R147). -/

namespace Sys2Proof.Machine

def boolD (b : Bool) : DWord := if b then 1 else 0

/-! ### Compares -/

/-- The order of two integers under condition 0 EQ to 5 GE. -/
def relation (cond : Nat) (lt eq : Bool) : Bool :=
  match cond with
  | 0 => eq
  | 1 => !eq
  | 2 => lt
  | 3 => lt || eq
  | 4 => !lt && !eq
  | _ => !lt

/-- The compare of two operand values of a type of R112 or R147. -/
def compareAs (cond type : Nat) (a b : DWord) : Bool × FpFlags :=
  match type with
  | 0 => (relation cond ((low32 a).slt (low32 b)) (low32 a == low32 b), 0)
  | 1 => (relation cond ((low32 a).ult (low32 b)) (low32 a == low32 b), 0)
  | 2 => (relation cond (a.slt b) (a == b), 0)
  | 3 => (relation cond (a.ult b) (a == b), 0)
  | 4 => f64.compare cond a.toNat b.toNat
  | 5 => f32.compare cond (low32 a).toNat (low32 b).toNat
  | 6 => f16.compare cond (a.toNat % 2 ^ 16) (b.toNat % 2 ^ 16)
  | _ => bf16.compare cond (a.toNat % 2 ^ 16) (b.toNat % 2 ^ 16)

/-- The types whose operands are pairs. -/
def pairType (type : Nat) : Bool := 2 ≤ type && type ≤ 4

/-- The class of a compare's operand: the 64-bit integer types take v-register pairs. -/
def cmpSrc (type : Nat) (c : Code) : Src := ⟨c.toNat, if pairType type then .pair else .w⟩

def cmpCell (cond type : Nat) (d a b : Code) : Cell :=
  { kind := .thread, d := d.toNat, dcls := .pred, srcs := [cmpSrc type a, cmpSrc type b], lat := 2, long := false,
    f := fun _ xs => let r := compareAs cond type (arg xs 0) (arg xs 1); (boolD r.1, r.2) }

def execCmpEq (type : BitVec 3) (d a b : Code) (s : State) : Out := .next ((cmpCell 0 type.toNat d a b).exec s)

def execCmpNe (type : BitVec 3) (d a b : Code) (s : State) : Out := .next ((cmpCell 1 type.toNat d a b).exec s)

def execCmpLt (type : BitVec 3) (d a b : Code) (s : State) : Out := .next ((cmpCell 2 type.toNat d a b).exec s)

def execCmpLe (type : BitVec 3) (d a b : Code) (s : State) : Out := .next ((cmpCell 3 type.toNat d a b).exec s)

def execCmpGt (type : BitVec 3) (d a b : Code) (s : State) : Out := .next ((cmpCell 4 type.toNat d a b).exec s)

def execCmpGe (type : BitVec 3) (d a b : Code) (s : State) : Out := .next ((cmpCell 5 type.toNat d a b).exec s)

/-- Unordered; the type field is 4 + fmt. -/
def execCmpUn (fmt : BitVec 2) (d a b : Code) (s : State) : Out := .next ((cmpCell 6 (4 + fmt.toNat) d a b).exec s)

/-! ### Predicates -/

def predSrc (c : Code) : Src := ⟨c.toNat, .pred⟩

def predCell2 (d a b : Code) (f : Bool → Bool → Bool) : Cell :=
  { kind := .thread, d := d.toNat, dcls := .pred, srcs := [predSrc a, predSrc b], lat := 2, long := false,
    f := fun _ xs => noFlags (boolD (f (arg xs 0 != 0) (arg xs 1 != 0))) }

def predCell1 (d a : Code) (f : Bool → Bool) : Cell :=
  { kind := .thread, d := d.toNat, dcls := .pred, srcs := [predSrc a], lat := 2, long := false,
    f := fun _ xs => noFlags (boolD (f (arg xs 0 != 0))) }

def execPand (d a b : Code) (s : State) : Out := .next ((predCell2 d a b (fun x y => x && y)).exec s)

def execPor (d a b : Code) (s : State) : Out := .next ((predCell2 d a b (fun x y => x || y)).exec s)

def execPxor (d a b : Code) (s : State) : Out := .next ((predCell2 d a b (fun x y => x != y)).exec s)

def execPandn (d a b : Code) (s : State) : Out := .next ((predCell2 d a b (fun x y => x && !y)).exec s)

def execPnot (d a : Code) (s : State) : Out := .next ((predCell1 d a (fun x => !x)).exec s)

def execPmov (d a : Code) (s : State) : Out := .next ((predCell1 d a (fun x => x)).exec s)

def psetCell (d a : Code) : Cell :=
  { kind := .thread, d := d.toNat, dcls := .pred, srcs := [gen a], lat := 2, long := false,
    f := fun _ xs => noFlags (boolD (low32 (arg xs 0) != 0)) }

def execPset (d a : Code) (s : State) : Out := .next ((psetCell d a).exec s)

def pgetCell (d a : Code) : Cell :=
  { kind := .thread, d := d.toNat, dcls := .w .zero, srcs := [predSrc a], lat := 2, long := false,
    f := fun _ xs => noFlags (arg xs 0) }

def execPget (d a : Code) (s : State) : Out := .next ((pgetCell d a).exec s)

/-- Both operands are read, and popped where they name ports, whatever pk holds. -/
def selCell (k : BitVec 5) (d a b : Code) : Cell :=
  { kind := .thread, d := d.toNat, dcls := .w .zero, srcs := [gen a, gen b, ⟨k.toNat, .pred⟩], lat := 2, long := false,
    f := fun _ xs => noFlags (if arg xs 2 != 0 then arg xs 0 else arg xs 1) }

def execSel (k : BitVec 5) (d a b : Code) (s : State) : Out := .next ((selCell k d a b).exec s)

end Sys2Proof.Machine
end

