-- ==== Sys2Proof/Machine/FloatCells.lean ====
section
/-! DEFINITION. The floating-point instructions of majors 7, 8 and 9 (R134 to R145). -/

namespace Sys2Proof.Machine

/-- The bits of an operand of a format (R126). -/
def FFmt.operand (f : FFmt) (x : DWord) : Nat := x.toNat % 2 ^ f.width

/-- The class of an operand and of a result of a format: pairs for FP64 (R134). -/
def FFmt.srcCls (f : FFmt) : SrcCls := if f.width = 64 then .pair else .w

def FFmt.dstCls (f : FFmt) : DstCls := if f.width = 64 then .pair else .w .zero

def FFmt.src (f : FFmt) (c : Code) : Src := ⟨c.toNat, f.srcCls⟩

/-- The per-thread latency of a format (R60, R134). -/
def FFmt.lat (f : FFmt) : Nat := if f.width = 64 then 6 else 4

/-- A result of a format as 64 bits. -/
def fpOut (r : Nat × FpFlags) : DWord × FpFlags := (BitVec.ofNat 64 r.1, r.2)

def fpCell2 (f : FFmt) (d a b : Code) (g : BitVec 2 → Nat → Nat → Nat × FpFlags) : Cell :=
  { kind := .byDest, d := d.toNat, dcls := f.dstCls, srcs := [f.src a, f.src b], lat := f.lat, long := false,
    f := fun rm xs => fpOut (g rm (f.operand (arg xs 0)) (f.operand (arg xs 1))) }

def fpCell1 (f : FFmt) (d a : Code) (g : BitVec 2 → Nat → Nat × FpFlags) : Cell :=
  { kind := .byDest, d := d.toNat, dcls := f.dstCls, srcs := [f.src a], lat := f.lat, long := false,
    f := fun rm xs => fpOut (g rm (f.operand (arg xs 0))) }

/-! ### Major 7 (R135 to R138) -/

def execAddFmt (fmt : BitVec 2) (d a b : Code) (s : State) : Out :=
  .next ((fpCell2 (fmtOf fmt) d a b (fmtOf fmt).add).exec s)

def execSubFmt (fmt : BitVec 2) (d a b : Code) (s : State) : Out :=
  .next ((fpCell2 (fmtOf fmt) d a b (fmtOf fmt).sub).exec s)

def execMulFmt (fmt : BitVec 2) (d a b : Code) (s : State) : Out :=
  .next ((fpCell2 (fmtOf fmt) d a b (fmtOf fmt).mul).exec s)

def divFmtCell (fmt : BitVec 2) (d a b : Code) : Cell :=
  { fpCell2 (fmtOf fmt) d a b (fmtOf fmt).div with long := true }

def execDivFmt (fmt : BitVec 2) (d a b : Code) (s : State) : Out := .next ((divFmtCell fmt d a b).exec s)

def sqrtFmtCell (fmt : BitVec 2) (d a : Code) : Cell :=
  { fpCell1 (fmtOf fmt) d a (fmtOf fmt).sqrt with long := true }

def execSqrtFmt (fmt : BitVec 2) (d a : Code) (s : State) : Out := .next ((sqrtFmtCell fmt d a).exec s)

def execMinFmt (fmt : BitVec 2) (d a b : Code) (s : State) : Out :=
  .next ((fpCell2 (fmtOf fmt) d a b fun _ => (fmtOf fmt).minmax false).exec s)

def execMaxFmt (fmt : BitVec 2) (d a b : Code) (s : State) : Out :=
  .next ((fpCell2 (fmtOf fmt) d a b fun _ => (fmtOf fmt).minmax true).exec s)

/-- a with sign 0. -/
def FFmt.abs (f : FFmt) (x : Nat) : Nat := x % f.signBit

/-- a with its sign inverted. -/
def FFmt.neg (f : FFmt) (x : Nat) : Nat := if x / f.signBit % 2 = 1 then x - f.signBit else x + f.signBit

/-- The magnitude of a with the sign of b. -/
def FFmt.csgn (f : FFmt) (x y : Nat) : Nat := x % f.signBit + y / f.signBit % 2 * f.signBit

def execAbsFmt (fmt : BitVec 2) (d a : Code) (s : State) : Out :=
  .next ((fpCell1 (fmtOf fmt) d a fun _ x => ((fmtOf fmt).abs x, 0)).exec s)

def execNegFmt (fmt : BitVec 2) (d a : Code) (s : State) : Out :=
  .next ((fpCell1 (fmtOf fmt) d a fun _ x => ((fmtOf fmt).neg x, 0)).exec s)

def execCsgnFmt (fmt : BitVec 2) (d a b : Code) (s : State) : Out :=
  .next ((fpCell2 (fmtOf fmt) d a b fun _ x y => ((fmtOf fmt).csgn x y, 0)).exec s)

/-- An approximation: FP32, on the lng path, rm ignored. -/
def approxCell (d a : Code) (g : Nat → Nat × FpFlags) : Cell :=
  { fpCell1 f32 d a (fun _ => g) with long := true }

def execRcpF32 (d a : Code) (s : State) : Out := .next ((approxCell d a Sys2Proof.Machine.rcpF32).exec s)

def execRsqF32 (d a : Code) (s : State) : Out := .next ((approxCell d a Sys2Proof.Machine.rsqF32).exec s)

def execExp2F32 (d a : Code) (s : State) : Out := .next ((approxCell d a Sys2Proof.Machine.exp2Of).exec s)

def execLog2F32 (d a : Code) (s : State) : Out := .next ((approxCell d a Sys2Proof.Machine.log2Of).exec s)

def execSinF32 (d a : Code) (s : State) : Out := .next ((approxCell d a Sys2Proof.Machine.sinOf).exec s)

def execCosF32 (d a : Code) (s : State) : Out := .next ((approxCell d a Sys2Proof.Machine.cosOf).exec s)

/-! ### Major 8 (R140) -/

/-- The addend of a format: only FP32 takes one from a port. -/
def FFmt.addend (f : FFmt) (c : Code) : Src := ⟨c.toNat, if f.width = 16 then .reg else f.srcCls⟩

/-- d is read as the addend, and popped after a and b where it names a port. -/
def fmaCell (f : FFmt) (d a b : Code) (negProduct negAddend : Bool) : Cell :=
  { kind := .byDest, d := d.toNat, dcls := f.dstCls, srcs := [f.src a, f.src b, f.addend d], lat := f.lat, long := false,
    f := fun rm xs =>
      fpOut (f.fma rm negProduct negAddend (f.operand (arg xs 0)) (f.operand (arg xs 1)) (f.operand (arg xs 2))) }

def execFma (fmt : BitVec 2) (d a b : Code) (s : State) : Out := .next ((fmaCell (fmtOf fmt) d a b false false).exec s)

def execFms (fmt : BitVec 2) (d a b : Code) (s : State) : Out := .next ((fmaCell (fmtOf fmt) d a b false true).exec s)

def execFnma (fmt : BitVec 2) (d a b : Code) (s : State) : Out := .next ((fmaCell (fmtOf fmt) d a b true false).exec s)

def execFnms (fmt : BitVec 2) (d a b : Code) (s : State) : Out := .next ((fmaCell (fmtOf fmt) d a b true true).exec s)

/-! ### Major 9 (R141 to R145) -/

/-- A conversion between formats 0 to 3 floating, 4 S32, 5 U32. -/
def convert (dst src : Nat) (rm : BitVec 2) (x : DWord) : DWord × FpFlags :=
  let fd := fmtOf (BitVec.ofNat 2 dst)
  let fs := fmtOf (BitVec.ofNat 2 src)
  if src < 4 then
    (if dst < 4 then fpOut (convertFloat fs fd rm (fs.operand x)) else fpOut (floatToInt fs (dst == 4) rm (fs.operand x)))
  else fpOut (intToFloat fd (src == 4) rm (low32 x).toNat)

def cvtCell (dst src : Nat) (d a rnd : Code) : Cell :=
  { kind := .byDest, d := d.toNat, dcls := if dst = 0 then .pair else .w (if dst = 4 then .sign else .zero),
    srcs := [⟨a.toNat, if src = 0 then .pair else .w⟩, ⟨rnd.toNat, .num 4⟩], lat := 4, long := false,
    f := fun rm xs => convert dst src (rndMode rm (arg xs 1).toNat) (arg xs 0) }

def execCvt (dst src : BitVec 3) (d a rnd : Code) (s : State) : Out :=
  .next ((cvtCell dst.toNat src.toNat d a rnd).exec s)

def rintCell (f : FFmt) (d a rnd : Code) : Cell :=
  { kind := .byDest, d := d.toNat, dcls := f.dstCls, srcs := [f.src a, ⟨rnd.toNat, .num 4⟩], lat := 4, long := false,
    f := fun rm xs => fpOut (f.rint (rndMode rm (arg xs 1).toNat) (f.operand (arg xs 0))) }

def execRintF64 (d a rnd : Code) (s : State) : Out := .next ((rintCell f64 d a rnd).exec s)

def execRintF32 (d a rnd : Code) (s : State) : Out := .next ((rintCell f32 d a rnd).exec s)

def execRintF16 (d a rnd : Code) (s : State) : Out := .next ((rintCell f16 d a rnd).exec s)

def execRintBf16 (d a rnd : Code) (s : State) : Out := .next ((rintCell bf16 d a rnd).exec s)

end Sys2Proof.Machine
end

