-- ==== Sys2Proof/WellFormed.lean ====
section
/-! DEFINITION. Which terms of `Instr` stand for an instruction word or an operation of the device (R78 to R102). -/

namespace Sys2Proof

/-- The cells of majors 15 to 20 that a prefix may extend, with the ord2 and scope3 values of R81. -/
def memCellOk (major kind ord scope : Nat) : Bool :=
  match major with
  | 15 => if kind ≤ 4 then ord ≤ 1 else ord == 0
  | 16 => kind ≤ 4 && (ord == 0 || ord == 2)
  | 17 => true
  | 18 => true
  | 19 => kind != 3 && kind != 7 && ord == 0 && scope == 0
  | 20 => kind == 2 && ord ≤ 1
  | _ => false

def Prefixed.wellFormed : Prefixed → Bool
  | .addi _ _ _ => true
  | .lim _ _ => true
  | .br cond _ => cond.toNat < 6 || 8 ≤ cond.toNat
  | .mem major kind ord scope _ _ _ => memCellOk major.toNat kind.toNat ord.toNat scope.toNat

/-- A conversion cell of R89 that is not an integral rounding: formats 0 to 5, not two integers, not equal. -/
def cvtCellOk (dst src : BitVec 3) : Bool :=
  dst.toNat < 6 && src.toNat < 6 && (dst.toNat < 4 || src.toNat < 4) && dst != src

/-- The special-register indices that have a constructor of their own. -/
def swriteOwn (index : BitVec 14) : Bool :=
  index == 0x000 || index == 0x002 || index == 0x013 || index == 0x014

/-- `true` for the terms that an instruction word of the spec stands for, and for the device operations whose
numbers lie in the ranges of R1, R2, R396 and R429. -/
def Instr.wellFormed : Instr → Bool
  | .pfx _ second => second.any Prefixed.wellFormed
  | .swrite _ index => !swriteOwn index
  | .cvt dst src _ _ _ => cvtCellOk dst src
  | .ldB ord _ _ _ _ | .ldH ord _ _ _ _ | .ldW ord _ _ _ _ | .ldD ord _ _ _ _ | .ldQ ord _ _ _ _ => ord.toNat ≤ 1
  | .stB ord _ _ _ _ | .stH ord _ _ _ _ | .stW ord _ _ _ _ | .stD ord _ _ _ _ | .stQ ord _ _ _ _ =>
    ord == 0 || ord == 2
  | .fence ord _ => ord != 0
  | .waitv ord _ _ _ _ => ord.toNat ≤ 1
  | .enqRunnel scope _ _ _ => 2 ≤ scope.toNat
  | .enqCascade scope _ _ _ => 5 ≤ scope.toNat
  | .rillEntryFill _ lane port => lane < 64 && port < 6
  | .writeBufferDrain core bank => core < 512 && bank < 8
  | .cacheMissFill core level _ scope => core < 512 && level < 3 && 1 ≤ scope && scope ≤ 7
  | .launchQueueDoorbell q _ => q < 128
  | .queueEntryConsume q => q < 128
  | .leaderElection q => q < 128
  | .dieFailure die | .rebuildComplete die | .dieRejoin die | .clockStepDown die | .clockStepUp die
  | .dieDrainedByTheHost die => die < 16
  | .incarnationRefusal die _ => die < 16
  | .lifecycleAdvance next => next.toNat ≤ 4
  | .attestationRequest hub => hub < 2
  | .uePortDown port => port < 8
  | .uePortTrain port _ => port < 8
  | _ => true

/-- `true` for the rows of the opcode table that no instruction word names. -/
def Instr.isDeviceOp : Instr → Bool
  | .groupIssueChoice _ | .runLimitExpiry _ | .loadResultReturn _ _ _ | .storeAcknowledge _ _
  | .scratchpadAccessPerformed _ _ _ | .longLatencyResult _ _ | .rillEntryFill _ _ _ | .rillBlockTimeout _
  | .writeBufferDrain _ _ | .cacheMissFill _ _ _ _ | .narrowCopyEviction _ _ _ | .directoryEvictionRecall _ _ _
  | .translationComplete _ _ | .migrationPull _ _ | .faultRecordAppend _ | .replyReplay _ | .replyDeliver _
  | .replyEndLaunch _ | .replyNoEffect _ | .watchdogTrap _ | .waitvMonitorFire _ | .waitvMonitorPoll _
  | .mtxAccept _ | .mtxRetire _ _ | .engineRecordRead _ | .runnelLoad _ | .runnelStore _ | .runnelGather _
  | .runnelScatter _ | .runnelRedstore _ | .cascadeMcast _ | .cascadeMcred _ | .engineCommandEnd _
  | .cascadeDelivery _ _ | .uetDataPacket _ | .uetCounterMessage _ | .uetPacketAck _ _ _ _ _
  | .uetRetransmitTimeout _ _ _ _ _ | .pathProbe _ _ _ _ | .deliveryPathTimeout _ _ | .uePortDown _
  | .launchQueueDoorbell _ _ | .queueEntryConsume _ | .dependenceCheck _ | .launchPlacement _ _ | .preemption _ _
  | .saveBlockWrite _ | .resume _ _ | .launchCompletion _ | .leaderElection _ | .clockStepDown _ | .clockStepUp _
  | .dieFailure _ | .rebuildComplete _ | .dieRejoin _ | .incarnationRefusal _ _ | .pomasLinkDown _ | .deviceReset
  | .wipeComplete | .lifecycleAdvance _ | .attestationRequest _ | .biasFlipToHost _ | .biasFlipToDevice _
  | .hostCxlRead _ | .hostCxlWrite _ _ | .hostSnoop _ | .atsInvalidation _ _ | .atsTranslationResponse _ _ _ _
  | .hostLinkTrain _ _ _ _ | .mgmtRegisterWrite _ _ | .uePortTrain _ _ | .dieDrainedByTheHost _ | .moduleUnpowered =>
    true
  | _ => false

end Sys2Proof
end

