-- ==== Sys2Proof/Decode.lean ====
section
/-! DEFINITION. The decoder and the encoder of instruction words (R69 to R102). The decoder is total on any bytes and
rejects by name; it makes the checks of steps 1 and 2 of R103 that need only the word. The encoder is written from the
same tables. -/

namespace Sys2Proof

/-- Why a word is no instruction (R103, steps 1 and 2). Each leads to the illegal-instruction trap. -/
inductive Reject where
  | reservedMajor
  | reservedCell
  | reservedField
  | order
  | scopeTooNarrow
  | truncated
  deriving DecidableEq, Repr

/-- Bits `[lo + n - 1 : lo]` of a word. -/
def bits (w : Word) (lo n : Nat) : BitVec n := w.extractLsb' lo n

/-- A cell whose fields `fs` are reserved and must be 0 (R79). -/
def zeros (fs : List Code) (i : Instr) : Except Reject Instr :=
  if fs.all (· == 0) then .ok i else .error .reservedField

/-- Major 0 (R83). -/
def decodeSys (fn : Nat) (d : Code) (imm : BitVec 21) : Except Reject Instr :=
  let index : BitVec 14 := imm.extractLsb' 0 14
  match fn with
  | 1 => if imm = 0 then .ok .nop else .error .reservedField
  | 2 => .ok (.trap imm)
  | 3 => if imm = 0 then .ok .rtt else .error .reservedField
  | 4 => if imm = 0 then .ok .isync else .error .reservedField
  | 5 => .ok (.sread d index)
  | 6 =>
    if index = 0x000 then .ok (.swriteEm d)
    else if index = 0x002 then .ok (.swriteFpc d)
    else if index = 0x013 then .ok (.wspill d)
    else if index = 0x014 then .ok (.wfill d)
    else .ok (.swrite d index)
  | _ => .error .reservedCell

/-- Major 2 (R82). -/
def decodeBr (cond : BitVec 4) (off : BitVec 23) : Except Reject Instr :=
  match cond.toNat with
  | 0 => .ok (.br off)
  | 1 => .ok (.brNone off)
  | 2 => .ok (.brAny off)
  | 3 => .ok (.brAll off)
  | 4 => .ok (.brUc off)
  | 5 => .ok (.brNuc off)
  | 6 => .error .reservedCell
  | 7 => .error .reservedCell
  | k => if k < 12 then .ok (.call (BitVec.ofNat 2 (k - 8)) off) else .ok (.callAny (BitVec.ofNat 2 (k - 12)) off)

/-- Major 3 (R69). -/
def decodeCtl (fn : Nat) (d a b : Code) : Except Reject Instr :=
  match fn with
  | 0 => zeros [d, a, b] .ret
  | 1 => zeros [d, b] (.jmpr a)
  | 2 => zeros [d] (.callr a b)
  | 3 => zeros [d] (.callrAny a b)
  | 4 => zeros [d, b] (.wbase a)
  | 5 => zeros [d, a, b] .rgn
  | 16 => zeros [d] (.ucmpEq a b)
  | 17 => zeros [d] (.ucmpNe a b)
  | 18 => zeros [d] (.ucmpLt a b)
  | 19 => zeros [d] (.ucmpLe a b)
  | 20 => zeros [d] (.ucmpLtu a b)
  | 21 => zeros [d] (.ucmpLeu a b)
  | _ => .error .reservedCell

/-- Major 4 (R69). -/
def decodeInt (fn : Nat) (d a b : Code) : Except Reject Instr :=
  match fn with
  | 0 => .ok (.add d a b)
  | 1 => .ok (.sub d a b)
  | 2 => .ok (.mul d a b)
  | 3 => .ok (.mulhi d a b)
  | 4 => .ok (.mulhu d a b)
  | 5 => .ok (.div d a b)
  | 6 => .ok (.divu d a b)
  | 7 => .ok (.rem d a b)
  | 8 => .ok (.remu d a b)
  | 9 => .ok (.and d a b)
  | 10 => .ok (.or d a b)
  | 11 => .ok (.xor d a b)
  | 12 => .ok (.andn d a b)
  | 13 => .ok (.shl d a b)
  | 14 => .ok (.shr d a b)
  | 15 => .ok (.sra d a b)
  | 16 => .ok (.shli d a b)
  | 17 => .ok (.shri d a b)
  | 18 => .ok (.srai d a b)
  | 19 => .ok (.min d a b)
  | 20 => .ok (.max d a b)
  | 21 => .ok (.minu d a b)
  | 22 => .ok (.maxu d a b)
  | 23 => zeros [b] (.abs d a)
  | 24 => zeros [b] (.clz d a)
  | 25 => zeros [b] (.popc d a)
  | 26 => zeros [b] (.brev d a)
  | 27 => zeros [b] (.sextb d a)
  | 28 => zeros [b] (.sexth d a)
  | 29 => zeros [b] (.mov d a)
  | 30 => .ok (.mad d a b)
  | 32 => .ok (.addD d a b)
  | 33 => .ok (.subD d a b)
  | 34 => .ok (.mulD d a b)
  | 35 => .ok (.shlD d a b)
  | 36 => .ok (.shrD d a b)
  | 37 => .ok (.sraD d a b)
  | 38 => zeros [b] (.movD d a)
  | 40 => .ok (.lea 0 d a b)
  | 41 => .ok (.lea 1 d a b)
  | 42 => .ok (.lea 2 d a b)
  | 43 => .ok (.lea 3 d a b)
  | _ => .error .reservedCell

/-- Major 11 (R69). -/
def decodePrd (fn : Nat) (d a b : Code) : Except Reject Instr :=
  match fn with
  | 0 => .ok (.pand d a b)
  | 1 => .ok (.por d a b)
  | 2 => .ok (.pxor d a b)
  | 3 => .ok (.pandn d a b)
  | 4 => zeros [b] (.pnot d a)
  | 5 => zeros [b] (.pmov d a)
  | 6 => zeros [b] (.pset d a)
  | 7 => zeros [b] (.pget d a)
  | k + 32 => if k < 32 then .ok (.sel (BitVec.ofNat 5 k) d a b) else .error .reservedCell
  | _ => .error .reservedCell

/-- Major 12 (R69). -/
def decodeMsk (fn : Nat) (d a b : Code) : Except Reject Instr :=
  match fn with
  | 0 => zeros [d, b] (.mset a)
  | 1 => zeros [d, b] (.mand a)
  | 2 => zeros [d, b] (.mandn a)
  | 3 => zeros [d, b] (.mor a)
  | 4 => zeros [d, a, b] .mall
  | 5 => zeros [a, b] (.mcnt d)
  | 6 => zeros [a, b] (.psave d)
  | 7 => zeros [d, b] (.prest a)
  | _ => .error .reservedCell

/-- Major 13 (R69). -/
def decodeLane (fn : Nat) (d a b : Code) : Except Reject Instr :=
  match fn with
  | 0 => .ok (.lpullAt d a b)
  | 1 => .ok (.lpullBelow d a b)
  | 2 => .ok (.lpullAbove d a b)
  | 3 => .ok (.lpullXor d a b)
  | 4 => .ok (.rdlane d a b)
  | 5 => .ok (.wrlane d a b)
  | 6 => zeros [b] (.lmask d a)
  | 7 => zeros [b] (.lany d a)
  | 8 => zeros [b] (.lall d a)
  | 9 => zeros [b] (.lsame d a)
  | 10 => zeros [b] (.redAdd d a)
  | 11 => zeros [b] (.redMin d a)
  | 12 => zeros [b] (.redMax d a)
  | 13 => zeros [b] (.redMinu d a)
  | 14 => zeros [b] (.redMaxu d a)
  | 15 => zeros [b] (.redFaddF32 d a)
  | 16 => zeros [b] (.redFminF32 d a)
  | 17 => zeros [b] (.redFmaxF32 d a)
  | 18 => zeros [b] (.scanAdd d a)
  | 19 => zeros [b] (.scanFaddF32 d a)
  | _ => .error .reservedCell

/-- Major 14 (R69). -/
def decodeGrp (fn : Nat) (d a b : Code) : Except Reject Instr :=
  match fn with
  | 0 => zeros [d, b] (.setw a)
  | 1 => zeros [a, b] (.regroup d)
  | 2 => zeros [d, b] (.barSync a)
  | 3 => zeros [d, b] (.barArv a)
  | 4 => zeros [d, a, b] .cbar
  | 5 => zeros [d, a, b] .yield
  | 6 => zeros [d, b] (.exit a)
  | 7 => zeros [d, b] (.launch a)
  | _ => .error .reservedCell

/-- Major 21 (R69). -/
def decodeRill (fn : Nat) (d a b : Code) : Except Reject Instr :=
  match fn with
  | 0 => zeros [d, b] (.rcfg a)
  | 1 => zeros [b] (.rstat d a)
  | 2 => zeros [d, b] (.rdrain a)
  | 3 => zeros [b] (.rpeek d a)
  | _ => .error .reservedCell

/-- Major 22 (R69). -/
def decodeMtx (fn : Nat) (d a b : Code) : Except Reject Instr :=
  match fn with
  | 0 => .ok (.mma d a b)
  | 1 => .ok (.mmaAcc d a b)
  | 2 => .ok (.mmaSacc d a b)
  | 4 => zeros [a, b] (.mzero d)
  | 5 => zeros [b] (.mscl d a)
  | 6 => .ok (.mrd d a b)
  | 7 => .ok (.mwr d a b)
  | 8 => zeros [b] (.msto d a)
  | 9 => zeros [b] (.mlda d a)
  | 10 => zeros [b] (.mmov d a)
  | _ => .error .reservedCell

/-- Major 23 (R69). -/
def decodeEng (fn : Nat) (d a b : Code) : Except Reject Instr :=
  match fn with
  | 0 => .error .scopeTooNarrow
  | 1 => .error .scopeTooNarrow
  | 2 => .ok (.enqRunnel 2 d a b)
  | 3 => .ok (.enqRunnel 3 d a b)
  | 4 => .ok (.enqRunnel 4 d a b)
  | 5 => .ok (.enqRunnel 5 d a b)
  | 6 => .ok (.enqRunnel 6 d a b)
  | 7 => .ok (.enqRunnel 7 d a b)
  | 8 => .error .scopeTooNarrow
  | 9 => .error .scopeTooNarrow
  | 10 => .error .scopeTooNarrow
  | 11 => .error .scopeTooNarrow
  | 12 => .error .scopeTooNarrow
  | 13 => .ok (.enqCascade 5 d a b)
  | 14 => .ok (.enqCascade 6 d a b)
  | 15 => .ok (.enqCascade 7 d a b)
  | 16 => zeros [d, b] (.publish a)
  | 17 => zeros [d] (.land a b)
  | 18 => zeros [d, b] (.unland a)
  | _ => .error .reservedCell

/-- Major 7 (R87): fn6[5:2] is the operation, fn6[1:0] the format. -/
def decodeFp (op : Nat) (fmt : BitVec 2) (d a b : Code) : Except Reject Instr :=
  match op with
  | 0 => .ok (.addFmt fmt d a b)
  | 1 => .ok (.subFmt fmt d a b)
  | 2 => .ok (.mulFmt fmt d a b)
  | 3 => .ok (.divFmt fmt d a b)
  | 4 => zeros [b] (.sqrtFmt fmt d a)
  | 5 => .ok (.minFmt fmt d a b)
  | 6 => .ok (.maxFmt fmt d a b)
  | 7 => zeros [b] (.absFmt fmt d a)
  | 8 => zeros [b] (.negFmt fmt d a)
  | 9 => .ok (.csgnFmt fmt d a b)
  | 10 => if fmt = 1 then zeros [b] (.rcpF32 d a) else .error .reservedCell
  | 11 => if fmt = 1 then zeros [b] (.rsqF32 d a) else .error .reservedCell
  | 12 => if fmt = 1 then zeros [b] (.exp2F32 d a) else .error .reservedCell
  | 13 => if fmt = 1 then zeros [b] (.log2F32 d a) else .error .reservedCell
  | 14 => if fmt = 1 then zeros [b] (.sinF32 d a) else .error .reservedCell
  | 15 => if fmt = 1 then zeros [b] (.cosF32 d a) else .error .reservedCell
  | _ => .error .reservedCell

/-- Major 8 (R88). -/
def decodeFma (op : Nat) (fmt : BitVec 2) (d a b : Code) : Except Reject Instr :=
  match op with
  | 0 => .ok (.fma fmt d a b)
  | 1 => .ok (.fms fmt d a b)
  | 2 => .ok (.fnma fmt d a b)
  | 3 => .ok (.fnms fmt d a b)
  | _ => .error .reservedCell

/-- Major 9 (R89). -/
def decodeCvt (dst src : BitVec 3) (d a b : Code) : Except Reject Instr :=
  if cvtCellOk dst src then .ok (.cvt dst src d a b)
  else
    match dst.toNat, src.toNat with
    | 0, 0 => .ok (.rintF64 d a b)
    | 1, 1 => .ok (.rintF32 d a b)
    | 2, 2 => .ok (.rintF16 d a b)
    | 3, 3 => .ok (.rintBf16 d a b)
    | 6, 0 => zeros [b] (.bscale d a)
    | 6, 1 => .ok (.bquant d a b)
    | 6, 2 => .ok (.bdeq d a b)
    | _, _ => .error .reservedCell

/-- Major 10 (R90). -/
def decodeCmp (cond type : BitVec 3) (d a b : Code) : Except Reject Instr :=
  match cond.toNat with
  | 0 => .ok (.cmpEq type d a b)
  | 1 => .ok (.cmpNe type d a b)
  | 2 => .ok (.cmpLt type d a b)
  | 3 => .ok (.cmpLe type d a b)
  | 4 => .ok (.cmpGt type d a b)
  | 5 => .ok (.cmpGe type d a b)
  | 6 => if 4 ≤ type.toNat then .ok (.cmpUn (type.extractLsb' 0 2) d a b) else .error .reservedCell
  | _ => .error .reservedCell

/-- Majors 15 to 20 (R95 to R98), with the ord2 and scope3 values of R81. -/
def decodeMem (major kind : Nat) (ord : BitVec 2) (scope : BitVec 3) (d a : Code) (off : BitVec 5) : Except Reject Instr :=
  match major, kind with
  | 15, 0 => if ord.toNat ≤ 1 then .ok (.ldB ord scope d a off) else .error .order
  | 15, 1 => if ord.toNat ≤ 1 then .ok (.ldH ord scope d a off) else .error .order
  | 15, 2 => if ord.toNat ≤ 1 then .ok (.ldW ord scope d a off) else .error .order
  | 15, 3 => if ord.toNat ≤ 1 then .ok (.ldD ord scope d a off) else .error .order
  | 15, 4 => if ord.toNat ≤ 1 then .ok (.ldQ ord scope d a off) else .error .order
  | 15, 5 => if ord = 0 then .ok (.ldInvW scope d a off) else .error .order
  | 15, 6 => if ord = 0 then .ok (.ldInvD scope d a off) else .error .order
  | 15, 7 => if ord = 0 then .ok (.ldInvQ scope d a off) else .error .order
  | 16, 0 => if ord = 0 ∨ ord = 2 then .ok (.stB ord scope d a off) else .error .order
  | 16, 1 => if ord = 0 ∨ ord = 2 then .ok (.stH ord scope d a off) else .error .order
  | 16, 2 => if ord = 0 ∨ ord = 2 then .ok (.stW ord scope d a off) else .error .order
  | 16, 3 => if ord = 0 ∨ ord = 2 then .ok (.stD ord scope d a off) else .error .order
  | 16, 4 => if ord = 0 ∨ ord = 2 then .ok (.stQ ord scope d a off) else .error .order
  | 17, 0 => .ok (.atAddW ord scope d a off)
  | 17, 1 => .ok (.atAddD ord scope d a off)
  | 17, 2 => .ok (.atMinW ord scope d a off)
  | 17, 3 => .ok (.atMaxW ord scope d a off)
  | 17, 4 => .ok (.atMinuW ord scope d a off)
  | 17, 5 => .ok (.atMaxuW ord scope d a off)
  | 17, 6 => .ok (.atSwapW ord scope d a off)
  | 17, 7 => .ok (.atCasW ord scope d a off)
  | 18, 0 => .ok (.atAndW ord scope d a off)
  | 18, 1 => .ok (.atOrW ord scope d a off)
  | 18, 2 => .ok (.atXorW ord scope d a off)
  | 18, 3 => .ok (.atSwapD ord scope d a off)
  | 18, 4 => .ok (.atCasD ord scope d a off)
  | 18, 5 => .ok (.atFaddF32 ord scope d a off)
  | 18, 6 => .ok (.atFminF32 ord scope d a off)
  | 18, 7 => .ok (.atFmaxF32 ord scope d a off)
  | 19, 0 => if ord = 0 ∧ scope = 0 then .ok (.sldW d a off) else .error .order
  | 19, 1 => if ord = 0 ∧ scope = 0 then .ok (.sldD d a off) else .error .order
  | 19, 2 => if ord = 0 ∧ scope = 0 then .ok (.sldQ d a off) else .error .order
  | 19, 4 => if ord = 0 ∧ scope = 0 then .ok (.sstW d a off) else .error .order
  | 19, 5 => if ord = 0 ∧ scope = 0 then .ok (.sstD d a off) else .error .order
  | 19, 6 => if ord = 0 ∧ scope = 0 then .ok (.sstQ d a off) else .error .order
  | 20, 0 =>
    if ord = 0 then .error .order
    else if d = 0 ∧ a = 0 ∧ off = 0 then .ok (.fence ord scope) else .error .reservedField
  | 20, 1 =>
    if ord = 0 ∧ scope = 0 then (if d = 0 then .ok (.waitp a off) else .error .reservedField) else .error .order
  | 20, 2 => if ord.toNat ≤ 1 then .ok (.waitv ord scope d a off) else .error .order
  | _, _ => .error .reservedCell

/-- One instruction word that is no `PFX` word (R69). -/
def decodeWord (w : Word) : Except Reject Instr :=
  let fn := bits w 21 6
  let d := bits w 14 7
  let a := bits w 7 7
  let b := bits w 0 7
  match (bits w 27 5).toNat with
  | 0 => decodeSys fn.toNat d (bits w 0 21)
  | 2 => decodeBr (bits w 23 4) (bits w 0 23)
  | 3 => decodeCtl fn.toNat d a b
  | 4 => decodeInt fn.toNat d a b
  | 5 => .ok (.addi (bits w 20 7) (bits w 13 7) (bits w 0 13))
  | 6 => .ok (.lim (bits w 20 7) (bits w 0 20))
  | 7 => decodeFp (bits w 23 4).toNat (bits w 21 2) d a b
  | 8 => decodeFma (bits w 23 4).toNat (bits w 21 2) d a b
  | 9 => decodeCvt (bits w 24 3) (bits w 21 3) d a b
  | 10 => decodeCmp (bits w 24 3) (bits w 21 3) d a b
  | 11 => decodePrd fn.toNat d a b
  | 12 => decodeMsk fn.toNat d a b
  | 13 => decodeLane fn.toNat d a b
  | 14 => decodeGrp fn.toNat d a b
  | 15 => decodeMem 15 (bits w 24 3).toNat (bits w 22 2) (bits w 19 3) (bits w 12 7) (bits w 5 7) (bits w 0 5)
  | 16 => decodeMem 16 (bits w 24 3).toNat (bits w 22 2) (bits w 19 3) (bits w 12 7) (bits w 5 7) (bits w 0 5)
  | 17 => decodeMem 17 (bits w 24 3).toNat (bits w 22 2) (bits w 19 3) (bits w 12 7) (bits w 5 7) (bits w 0 5)
  | 18 => decodeMem 18 (bits w 24 3).toNat (bits w 22 2) (bits w 19 3) (bits w 12 7) (bits w 5 7) (bits w 0 5)
  | 19 => decodeMem 19 (bits w 24 3).toNat (bits w 22 2) (bits w 19 3) (bits w 12 7) (bits w 5 7) (bits w 0 5)
  | 20 => decodeMem 20 (bits w 24 3).toNat (bits w 22 2) (bits w 19 3) (bits w 12 7) (bits w 5 7) (bits w 0 5)
  | 21 => decodeRill fn.toNat d a b
  | 22 => decodeMtx fn.toNat d a b
  | 23 => decodeEng fn.toNat d a b
  | _ => .error .reservedMajor

/-- `true` for a word of major 1 (R75). -/
def isPfx (w : Word) : Bool := bits w 27 5 == 1

/-- The extended form of an instruction that has an imm13, imm20, off23 or off5 offset field (R77). -/
def Instr.toPrefixed : Instr → Option Prefixed
  | .addi d a imm => some (.addi d a imm)
  | .lim d imm => some (.lim d imm)
  | .br off => some (.br 0 off)
  | .brNone off => some (.br 1 off)
  | .brAny off => some (.br 2 off)
  | .brAll off => some (.br 3 off)
  | .brUc off => some (.br 4 off)
  | .brNuc off => some (.br 5 off)
  | .call f off => some (.br (8 + f.setWidth 4) off)
  | .callAny f off => some (.br (12 + f.setWidth 4) off)
  | .ldB ord scope d a off => some (.mem 15 0 ord scope d a off)
  | .ldH ord scope d a off => some (.mem 15 1 ord scope d a off)
  | .ldW ord scope d a off => some (.mem 15 2 ord scope d a off)
  | .ldD ord scope d a off => some (.mem 15 3 ord scope d a off)
  | .ldQ ord scope d a off => some (.mem 15 4 ord scope d a off)
  | .stB ord scope d a off => some (.mem 16 0 ord scope d a off)
  | .stH ord scope d a off => some (.mem 16 1 ord scope d a off)
  | .stW ord scope d a off => some (.mem 16 2 ord scope d a off)
  | .stD ord scope d a off => some (.mem 16 3 ord scope d a off)
  | .stQ ord scope d a off => some (.mem 16 4 ord scope d a off)
  | .atAddW ord scope d a off => some (.mem 17 0 ord scope d a off)
  | .atAddD ord scope d a off => some (.mem 17 1 ord scope d a off)
  | .atMinW ord scope d a off => some (.mem 17 2 ord scope d a off)
  | .atMaxW ord scope d a off => some (.mem 17 3 ord scope d a off)
  | .atMinuW ord scope d a off => some (.mem 17 4 ord scope d a off)
  | .atMaxuW ord scope d a off => some (.mem 17 5 ord scope d a off)
  | .atSwapW ord scope d a off => some (.mem 17 6 ord scope d a off)
  | .atCasW ord scope d a off => some (.mem 17 7 ord scope d a off)
  | .atAndW ord scope d a off => some (.mem 18 0 ord scope d a off)
  | .atOrW ord scope d a off => some (.mem 18 1 ord scope d a off)
  | .atXorW ord scope d a off => some (.mem 18 2 ord scope d a off)
  | .atSwapD ord scope d a off => some (.mem 18 3 ord scope d a off)
  | .atCasD ord scope d a off => some (.mem 18 4 ord scope d a off)
  | .atFaddF32 ord scope d a off => some (.mem 18 5 ord scope d a off)
  | .atFminF32 ord scope d a off => some (.mem 18 6 ord scope d a off)
  | .atFmaxF32 ord scope d a off => some (.mem 18 7 ord scope d a off)
  | .ldInvW scope d a off => some (.mem 15 5 0 scope d a off)
  | .ldInvD scope d a off => some (.mem 15 6 0 scope d a off)
  | .ldInvQ scope d a off => some (.mem 15 7 0 scope d a off)
  | .sldW d a off => some (.mem 19 0 0 0 d a off)
  | .sldD d a off => some (.mem 19 1 0 0 d a off)
  | .sldQ d a off => some (.mem 19 2 0 0 d a off)
  | .sstW d a off => some (.mem 19 4 0 0 d a off)
  | .sstD d a off => some (.mem 19 5 0 0 d a off)
  | .sstQ d a off => some (.mem 19 6 0 0 d a off)
  | .waitv ord scope d a off => some (.mem 20 2 ord scope d a off)
  | _ => none

/-- The second word of a prefix pair; `none` where the pairing fails (R66). -/
def decodeSecond (w : Word) : Option Prefixed :=
  match decodeWord w with
  | .ok i => i.toPrefixed
  | .error _ => none

/-- The instruction that begins with word `w1`, `w2` being the word after it, and its length in words. -/
def decodePair (w1 w2 : Word) : Except Reject Instr × Nat :=
  if isPfx w1 then (.ok (.pfx (bits w1 0 27) (decodeSecond w2)), 2) else (decodeWord w1, 1)

/-- A little-endian word (R9). -/
def wordOf (b0 b1 b2 b3 : Byte) : Word := b3 ++ b2 ++ b1 ++ b0

/-- The decoder on bytes: the instruction and the bytes after it. -/
def decode : List Byte → Except Reject (Instr × List Byte)
  | b0 :: b1 :: b2 :: b3 :: rest =>
    let w1 := wordOf b0 b1 b2 b3
    if isPfx w1 then
      match rest with
      | c0 :: c1 :: c2 :: c3 :: rest' => .ok (.pfx (bits w1 0 27) (decodeSecond (wordOf c0 c1 c2 c3)), rest')
      | _ => .error .truncated
    else
      match decodeWord w1 with
      | .ok i => .ok (i, rest)
      | .error e => .error e
  | _ => .error .truncated

/-- Format A (R70). -/
def packA (major fn : Nat) (d a b : Code) : Word :=
  (BitVec.ofNat 5 major ++ BitVec.ofNat 6 fn ++ d ++ a ++ b : BitVec (5 + 6 + 7 + 7 + 7))

/-- Format M (R74). -/
def packM (major kind : Nat) (ord : BitVec 2) (scope : BitVec 3) (d a : Code) (off : BitVec 5) : Word :=
  (BitVec.ofNat 5 major ++ BitVec.ofNat 3 kind ++ ord ++ scope ++ d ++ a ++ off : BitVec (5 + 3 + 2 + 3 + 7 + 7 + 5))

/-- Format B (R73). -/
def packB (cond : Nat) (off : BitVec 23) : Word :=
  (2#5 ++ BitVec.ofNat 4 cond ++ off : BitVec (5 + 4 + 23))

/-- Format S (R76). -/
def packS (fn : Nat) (imm : BitVec 21) : Word :=
  (0#5 ++ BitVec.ofNat 6 fn ++ imm : BitVec (5 + 6 + 21))

/-- Format X (R75). -/
def packX (imm : BitVec 27) : Word := (1#5 ++ imm : BitVec (5 + 27))

/-- The word of an instruction of one word; `none` for a prefix pair and for an operation of the device. -/
def encodeWord : Instr → Option Word
  | .nop => some (packS 1 0)
  | .trap code => some (packS 2 code)
  | .rtt => some (packS 3 0)
  | .isync => some (packS 4 0)
  | .sread d index => some (packS 5 (d ++ index : BitVec (7 + 14)))
  | .swrite a index => some (packS 6 (a ++ index : BitVec (7 + 14)))
  | .swriteEm a => some (packS 6 (a ++ 0x000#14 : BitVec (7 + 14)))
  | .swriteFpc a => some (packS 6 (a ++ 0x002#14 : BitVec (7 + 14)))
  | .wspill a => some (packS 6 (a ++ 0x013#14 : BitVec (7 + 14)))
  | .wfill a => some (packS 6 (a ++ 0x014#14 : BitVec (7 + 14)))
  | .br off => some (packB 0 off)
  | .brNone off => some (packB 1 off)
  | .brAny off => some (packB 2 off)
  | .brAll off => some (packB 3 off)
  | .brUc off => some (packB 4 off)
  | .brNuc off => some (packB 5 off)
  | .call f off => some (packB (8 + f.toNat) off)
  | .callAny f off => some (packB (12 + f.toNat) off)
  | .lea size d a b => some (packA 4 (40 + size.toNat) d a b)
  | .addi d a imm => some (5#5 ++ d ++ a ++ imm : BitVec (5 + 7 + 7 + 13))
  | .lim d imm => some (6#5 ++ d ++ imm : BitVec (5 + 7 + 20))
  | .addFmt fmt d a b => some (packA 7 (0 + fmt.toNat) d a b)
  | .subFmt fmt d a b => some (packA 7 (4 + fmt.toNat) d a b)
  | .mulFmt fmt d a b => some (packA 7 (8 + fmt.toNat) d a b)
  | .divFmt fmt d a b => some (packA 7 (12 + fmt.toNat) d a b)
  | .minFmt fmt d a b => some (packA 7 (20 + fmt.toNat) d a b)
  | .maxFmt fmt d a b => some (packA 7 (24 + fmt.toNat) d a b)
  | .csgnFmt fmt d a b => some (packA 7 (36 + fmt.toNat) d a b)
  | .sqrtFmt fmt d a => some (packA 7 (16 + fmt.toNat) d a 0)
  | .absFmt fmt d a => some (packA 7 (28 + fmt.toNat) d a 0)
  | .negFmt fmt d a => some (packA 7 (32 + fmt.toNat) d a 0)
  | .fma fmt d a b => some (packA 8 (0 + fmt.toNat) d a b)
  | .fms fmt d a b => some (packA 8 (4 + fmt.toNat) d a b)
  | .fnma fmt d a b => some (packA 8 (8 + fmt.toNat) d a b)
  | .fnms fmt d a b => some (packA 8 (12 + fmt.toNat) d a b)
  | .cmpEq type d a b => some (packA 10 (0 + type.toNat) d a b)
  | .cmpNe type d a b => some (packA 10 (8 + type.toNat) d a b)
  | .cmpLt type d a b => some (packA 10 (16 + type.toNat) d a b)
  | .cmpLe type d a b => some (packA 10 (24 + type.toNat) d a b)
  | .cmpGt type d a b => some (packA 10 (32 + type.toNat) d a b)
  | .cmpGe type d a b => some (packA 10 (40 + type.toNat) d a b)
  | .cmpUn fmt d a b => some (packA 10 (52 + fmt.toNat) d a b)
  | .cvt dst src d a b => some (packA 9 (8 * dst.toNat + src.toNat) d a b)
  | .sel k d a b => some (packA 11 (32 + k.toNat) d a b)
  | .ret => some (packA 3 0 0 0 0)
  | .jmpr a => some (packA 3 1 0 a 0)
  | .callr a b => some (packA 3 2 0 a b)
  | .callrAny a b => some (packA 3 3 0 a b)
  | .wbase a => some (packA 3 4 0 a 0)
  | .rgn => some (packA 3 5 0 0 0)
  | .ucmpEq a b => some (packA 3 16 0 a b)
  | .ucmpNe a b => some (packA 3 17 0 a b)
  | .ucmpLt a b => some (packA 3 18 0 a b)
  | .ucmpLe a b => some (packA 3 19 0 a b)
  | .ucmpLtu a b => some (packA 3 20 0 a b)
  | .ucmpLeu a b => some (packA 3 21 0 a b)
  | .add d a b => some (packA 4 0 d a b)
  | .sub d a b => some (packA 4 1 d a b)
  | .mul d a b => some (packA 4 2 d a b)
  | .mulhi d a b => some (packA 4 3 d a b)
  | .mulhu d a b => some (packA 4 4 d a b)
  | .div d a b => some (packA 4 5 d a b)
  | .divu d a b => some (packA 4 6 d a b)
  | .rem d a b => some (packA 4 7 d a b)
  | .remu d a b => some (packA 4 8 d a b)
  | .and d a b => some (packA 4 9 d a b)
  | .or d a b => some (packA 4 10 d a b)
  | .xor d a b => some (packA 4 11 d a b)
  | .andn d a b => some (packA 4 12 d a b)
  | .shl d a b => some (packA 4 13 d a b)
  | .shr d a b => some (packA 4 14 d a b)
  | .sra d a b => some (packA 4 15 d a b)
  | .shli d a b => some (packA 4 16 d a b)
  | .shri d a b => some (packA 4 17 d a b)
  | .srai d a b => some (packA 4 18 d a b)
  | .min d a b => some (packA 4 19 d a b)
  | .max d a b => some (packA 4 20 d a b)
  | .minu d a b => some (packA 4 21 d a b)
  | .maxu d a b => some (packA 4 22 d a b)
  | .abs d a => some (packA 4 23 d a 0)
  | .clz d a => some (packA 4 24 d a 0)
  | .popc d a => some (packA 4 25 d a 0)
  | .brev d a => some (packA 4 26 d a 0)
  | .sextb d a => some (packA 4 27 d a 0)
  | .sexth d a => some (packA 4 28 d a 0)
  | .mov d a => some (packA 4 29 d a 0)
  | .mad d a b => some (packA 4 30 d a b)
  | .addD d a b => some (packA 4 32 d a b)
  | .subD d a b => some (packA 4 33 d a b)
  | .mulD d a b => some (packA 4 34 d a b)
  | .shlD d a b => some (packA 4 35 d a b)
  | .shrD d a b => some (packA 4 36 d a b)
  | .sraD d a b => some (packA 4 37 d a b)
  | .movD d a => some (packA 4 38 d a 0)
  | .rcpF32 d a => some (packA 7 41 d a 0)
  | .rsqF32 d a => some (packA 7 45 d a 0)
  | .exp2F32 d a => some (packA 7 49 d a 0)
  | .log2F32 d a => some (packA 7 53 d a 0)
  | .sinF32 d a => some (packA 7 57 d a 0)
  | .cosF32 d a => some (packA 7 61 d a 0)
  | .rintF64 d a b => some (packA 9 0 d a b)
  | .rintF32 d a b => some (packA 9 9 d a b)
  | .rintF16 d a b => some (packA 9 18 d a b)
  | .rintBf16 d a b => some (packA 9 27 d a b)
  | .bscale d a => some (packA 9 48 d a 0)
  | .bquant d a b => some (packA 9 49 d a b)
  | .bdeq d a b => some (packA 9 50 d a b)
  | .pand d a b => some (packA 11 0 d a b)
  | .por d a b => some (packA 11 1 d a b)
  | .pxor d a b => some (packA 11 2 d a b)
  | .pandn d a b => some (packA 11 3 d a b)
  | .pnot d a => some (packA 11 4 d a 0)
  | .pmov d a => some (packA 11 5 d a 0)
  | .pset d a => some (packA 11 6 d a 0)
  | .pget d a => some (packA 11 7 d a 0)
  | .mset a => some (packA 12 0 0 a 0)
  | .mand a => some (packA 12 1 0 a 0)
  | .mandn a => some (packA 12 2 0 a 0)
  | .mor a => some (packA 12 3 0 a 0)
  | .mall => some (packA 12 4 0 0 0)
  | .mcnt d => some (packA 12 5 d 0 0)
  | .psave d => some (packA 12 6 d 0 0)
  | .prest a => some (packA 12 7 0 a 0)
  | .lpullAt d a b => some (packA 13 0 d a b)
  | .lpullBelow d a b => some (packA 13 1 d a b)
  | .lpullAbove d a b => some (packA 13 2 d a b)
  | .lpullXor d a b => some (packA 13 3 d a b)
  | .rdlane d a b => some (packA 13 4 d a b)
  | .wrlane d a b => some (packA 13 5 d a b)
  | .lmask d a => some (packA 13 6 d a 0)
  | .lany d a => some (packA 13 7 d a 0)
  | .lall d a => some (packA 13 8 d a 0)
  | .lsame d a => some (packA 13 9 d a 0)
  | .redAdd d a => some (packA 13 10 d a 0)
  | .redMin d a => some (packA 13 11 d a 0)
  | .redMax d a => some (packA 13 12 d a 0)
  | .redMinu d a => some (packA 13 13 d a 0)
  | .redMaxu d a => some (packA 13 14 d a 0)
  | .redFaddF32 d a => some (packA 13 15 d a 0)
  | .redFminF32 d a => some (packA 13 16 d a 0)
  | .redFmaxF32 d a => some (packA 13 17 d a 0)
  | .scanAdd d a => some (packA 13 18 d a 0)
  | .scanFaddF32 d a => some (packA 13 19 d a 0)
  | .setw a => some (packA 14 0 0 a 0)
  | .regroup d => some (packA 14 1 d 0 0)
  | .barSync a => some (packA 14 2 0 a 0)
  | .barArv a => some (packA 14 3 0 a 0)
  | .cbar => some (packA 14 4 0 0 0)
  | .yield => some (packA 14 5 0 0 0)
  | .exit a => some (packA 14 6 0 a 0)
  | .launch a => some (packA 14 7 0 a 0)
  | .rcfg a => some (packA 21 0 0 a 0)
  | .rstat d a => some (packA 21 1 d a 0)
  | .rdrain a => some (packA 21 2 0 a 0)
  | .rpeek d a => some (packA 21 3 d a 0)
  | .mma d a b => some (packA 22 0 d a b)
  | .mmaAcc d a b => some (packA 22 1 d a b)
  | .mmaSacc d a b => some (packA 22 2 d a b)
  | .mzero d => some (packA 22 4 d 0 0)
  | .mscl d a => some (packA 22 5 d a 0)
  | .mrd d a b => some (packA 22 6 d a b)
  | .mwr d a b => some (packA 22 7 d a b)
  | .msto d a => some (packA 22 8 d a 0)
  | .mlda d a => some (packA 22 9 d a 0)
  | .mmov d a => some (packA 22 10 d a 0)
  | .publish a => some (packA 23 16 0 a 0)
  | .land a b => some (packA 23 17 0 a b)
  | .unland a => some (packA 23 18 0 a 0)
  | .ldB ord scope d a off => some (packM 15 0 ord scope d a off)
  | .ldH ord scope d a off => some (packM 15 1 ord scope d a off)
  | .ldW ord scope d a off => some (packM 15 2 ord scope d a off)
  | .ldD ord scope d a off => some (packM 15 3 ord scope d a off)
  | .ldQ ord scope d a off => some (packM 15 4 ord scope d a off)
  | .stB ord scope d a off => some (packM 16 0 ord scope d a off)
  | .stH ord scope d a off => some (packM 16 1 ord scope d a off)
  | .stW ord scope d a off => some (packM 16 2 ord scope d a off)
  | .stD ord scope d a off => some (packM 16 3 ord scope d a off)
  | .stQ ord scope d a off => some (packM 16 4 ord scope d a off)
  | .atAddW ord scope d a off => some (packM 17 0 ord scope d a off)
  | .atAddD ord scope d a off => some (packM 17 1 ord scope d a off)
  | .atMinW ord scope d a off => some (packM 17 2 ord scope d a off)
  | .atMaxW ord scope d a off => some (packM 17 3 ord scope d a off)
  | .atMinuW ord scope d a off => some (packM 17 4 ord scope d a off)
  | .atMaxuW ord scope d a off => some (packM 17 5 ord scope d a off)
  | .atSwapW ord scope d a off => some (packM 17 6 ord scope d a off)
  | .atCasW ord scope d a off => some (packM 17 7 ord scope d a off)
  | .atAndW ord scope d a off => some (packM 18 0 ord scope d a off)
  | .atOrW ord scope d a off => some (packM 18 1 ord scope d a off)
  | .atXorW ord scope d a off => some (packM 18 2 ord scope d a off)
  | .atSwapD ord scope d a off => some (packM 18 3 ord scope d a off)
  | .atCasD ord scope d a off => some (packM 18 4 ord scope d a off)
  | .atFaddF32 ord scope d a off => some (packM 18 5 ord scope d a off)
  | .atFminF32 ord scope d a off => some (packM 18 6 ord scope d a off)
  | .atFmaxF32 ord scope d a off => some (packM 18 7 ord scope d a off)
  | .ldInvW scope d a off => some (packM 15 5 0 scope d a off)
  | .ldInvD scope d a off => some (packM 15 6 0 scope d a off)
  | .ldInvQ scope d a off => some (packM 15 7 0 scope d a off)
  | .sldW d a off => some (packM 19 0 0 0 d a off)
  | .sldD d a off => some (packM 19 1 0 0 d a off)
  | .sldQ d a off => some (packM 19 2 0 0 d a off)
  | .sstW d a off => some (packM 19 4 0 0 d a off)
  | .sstD d a off => some (packM 19 5 0 0 d a off)
  | .sstQ d a off => some (packM 19 6 0 0 d a off)
  | .fence ord scope => some (packM 20 0 ord scope 0 0 0)
  | .waitp a path => some (packM 20 1 0 0 0 a path)
  | .waitv ord scope d a off => some (packM 20 2 ord scope d a off)
  | .enqRunnel scope d a b => some (packA 23 scope.toNat d a b)
  | .enqCascade scope d a b => some (packA 23 (8 + scope.toNat) d a b)
  | _ => none

/-- The second word of a prefix pair. -/
def Prefixed.encode : Prefixed → Word
  | .addi d a imm => (5#5 ++ d ++ a ++ imm : BitVec (5 + 7 + 7 + 13))
  | .lim d imm => (6#5 ++ d ++ imm : BitVec (5 + 7 + 20))
  | .br cond off => packB cond.toNat off
  | .mem major kind ord scope d a off => packM major.toNat kind.toNat ord scope d a off

/-- The words of an instruction in the order in which they lie in memory; none for an operation of the device. -/
def encode : Instr → List Word
  | .pfx imm (some p) => [packX imm, p.encode]
  | .pfx imm none => [packX imm]
  | i => (encodeWord i).toList

/-- The four bytes of a word, lowest address first (R9). -/
def bytesOfWord (w : Word) : List Byte :=
  [w.extractLsb' 0 8, w.extractLsb' 8 8, w.extractLsb' 16 8, w.extractLsb' 24 8]

/-- The bytes of an instruction. -/
def encodeBytes (i : Instr) : List Byte := (encode i).flatMap bytesOfWord

/-- The instruction read from the words of `w`, the first word in bits [31:0] and the second above it; every bit
above `nbits` is 0, up to the eight bytes of the longest instruction. -/
def decodeTableWord (nbits w : Nat) : Option Instr :=
  let v := w % 2 ^ nbits
  let bs := bytesOfWord (BitVec.ofNat 32 v) ++ bytesOfWord (BitVec.ofNat 32 (v / 2 ^ 32))
  match decode bs with
  | .ok (i, _) => some i
  | .error _ => none

end Sys2Proof
end

