-- ==== Sys2Proof/Machine/Issue.lean ====
section
/-! DEFINITION. From the program counter to an instruction in issue: fetching a word and its schedule half-word, the
traps of a fetch, what comes before the next instruction of a group, issue distance and waits (R39, R56 to R60, R63,
R66, R150, R163, R164, R176, R371, R378, R399, R451), and the kind of each instruction (R58). -/

namespace Sys2Proof.Machine

/-! ### Kinds -/

def kindOfD (d : Code) : Bool := isS d.toNat

/-- The bit 12 that an instruction word needs; where code 127 leaves it open, 0 (R58, R83 to R101, R115). -/
def needsU : Instr → Bool
  | .pfx _ (some (.addi d _ _)) => kindOfD d
  | .pfx _ (some (.lim d _)) => kindOfD d
  | .pfx _ (some (.br _ _)) => true
  | .pfx _ (some (.mem major _ _ _ d _ _)) => major.toNat == 20 || kindOfD d
  | .pfx _ none => false
  | .nop | .trap _ | .rtt | .isync | .swrite _ _ | .swriteEm _ | .swriteFpc _ | .wspill _ | .wfill _ => true
  | .sread d _ => kindOfD d
  | .br _ | .brNone _ | .brAny _ | .brAll _ | .brUc _ | .brNuc _ | .call _ _ | .callAny _ _ => true
  | .ret | .jmpr _ | .callr _ _ | .callrAny _ _ | .wbase _ | .rgn => true
  | .ucmpEq _ _ | .ucmpNe _ _ | .ucmpLt _ _ | .ucmpLe _ _ | .ucmpLtu _ _ | .ucmpLeu _ _ => true
  | .add d _ _ | .sub d _ _ | .mul d _ _ | .mulhi d _ _ | .mulhu d _ _ | .div d _ _ | .divu d _ _ | .rem d _ _
  | .remu d _ _ | .and d _ _ | .or d _ _ | .xor d _ _ | .andn d _ _ | .shl d _ _ | .shr d _ _ | .sra d _ _
  | .shli d _ _ | .shri d _ _ | .srai d _ _ | .min d _ _ | .max d _ _ | .minu d _ _ | .maxu d _ _ => kindOfD d
  | .abs d _ | .clz d _ | .popc d _ | .brev d _ | .sextb d _ | .sexth d _ | .mov d _ => kindOfD d
  | .mad d _ _ | .addD d _ _ | .subD d _ _ | .mulD d _ _ | .shlD d _ _ | .shrD d _ _ | .sraD d _ _ => kindOfD d
  | .movD d _ | .lea _ d _ _ | .addi d _ _ | .lim d _ => kindOfD d
  | .addFmt _ d _ _ | .subFmt _ d _ _ | .mulFmt _ d _ _ | .divFmt _ d _ _ | .sqrtFmt _ d _ | .minFmt _ d _ _
  | .maxFmt _ d _ _ | .absFmt _ d _ | .negFmt _ d _ | .csgnFmt _ d _ _ => kindOfD d
  | .bscale d _ | .bquant d _ _ | .bdeq d _ _ => kindOfD d
  | .rcpF32 d _ | .rsqF32 d _ | .exp2F32 d _ | .log2F32 d _ | .sinF32 d _ | .cosF32 d _ => kindOfD d
  | .fma _ d _ _ | .fms _ d _ _ | .fnma _ d _ _ | .fnms _ d _ _ => kindOfD d
  | .cvt _ _ d _ _ | .rintF64 d _ _ | .rintF32 d _ _ | .rintF16 d _ _ | .rintBf16 d _ _ => kindOfD d
  | .mset _ | .mand _ | .mandn _ | .mor _ | .mall | .mcnt _ | .psave _ | .prest _ => true
  | .setw _ | .regroup _ | .barSync _ | .barArv _ | .cbar | .yield | .exit _ | .launch _ => true
  | .ldB _ _ d _ _ | .ldH _ _ d _ _ | .ldW _ _ d _ _ | .ldD _ _ d _ _ | .ldQ _ _ d _ _ => kindOfD d
  | .ldInvW _ d _ _ | .ldInvD _ d _ _ | .ldInvQ _ d _ _ => kindOfD d
  | .stB _ _ d _ _ | .stH _ _ d _ _ | .stW _ _ d _ _ | .stD _ _ d _ _ | .stQ _ _ d _ _ => kindOfD d
  | .atAddW _ _ d _ _ | .atAddD _ _ d _ _ | .atMinW _ _ d _ _ | .atMaxW _ _ d _ _ | .atMinuW _ _ d _ _
  | .atMaxuW _ _ d _ _ | .atSwapW _ _ d _ _ | .atCasW _ _ d _ _ | .atAndW _ _ d _ _ | .atOrW _ _ d _ _
  | .atXorW _ _ d _ _ | .atSwapD _ _ d _ _ | .atCasD _ _ d _ _ | .atFaddF32 _ _ d _ _ | .atFminF32 _ _ d _ _
  | .atFmaxF32 _ _ d _ _ => kindOfD d
  | .sldW d _ _ | .sldD d _ _ | .sldQ d _ _ | .sstW d _ _ | .sstD d _ _ | .sstQ d _ _ => kindOfD d
  | .fence _ _ | .waitp _ _ | .waitv _ _ _ _ _ | .rcfg _ => true
  | .mma _ _ _ | .mmaAcc _ _ _ | .mmaSacc _ _ _ | .mzero _ | .mscl _ _ | .msto _ _
  | .mlda _ _ | .mmov _ _ => true
  | .enqRunnel _ _ _ _ | .enqCascade _ _ _ _ | .publish _ | .land _ _ | .unland _ => true
  | _ => false

/-- A per-thread F64 cell of majors 7 and 8 spends two cycles on each beat (R139). -/
def doubleBeat (i : Instr) (u : Bool) : Bool :=
  let per := !u
  match i with
  | .addFmt f _ _ _ | .subFmt f _ _ _ | .mulFmt f _ _ _ | .divFmt f _ _ _ | .minFmt f _ _ _ | .maxFmt f _ _ _
  | .csgnFmt f _ _ _ | .fma f _ _ _ | .fms f _ _ _ | .fnma f _ _ _ | .fnms f _ _ _ => per && f == 0
  | .sqrtFmt f _ _ | .absFmt f _ _ | .negFmt f _ _ => per && f == 0
  | _ => false

/-! ### Fetching -/

/-- Where a group's code and schedule array begin, by the record that its team runs. -/
def State.codeBase (s : State) : DWord := s.launch.record.code

/-- The address of the schedule half-word of the word at `pc`; a word below the code base has it below the array (R39). -/
def State.schedAddr (s : State) (pc : DWord) : DWord :=
  s.launch.record.sched + ((pc - s.codeBase).sshiftRight 2 <<< 1)

/-- One fetch of 4 or 2 bytes. -/
inductive Fetched where
  | ok (bytes : List Byte) (s : State)
  | fault (va : DWord) (info : Nat) (s : State)
  | protect (va : DWord)
  | poison (va : DWord)
  | wait (s : State)

/-- What a fetch may give for `n` bytes: what a CORE-scope load of the core sees now, or has seen since the group may have
begun to prefetch (R163, R164). -/
def State.fetchValues (s : State) (home : Home) (pa n : Nat) : List (List Byte) :=
  ((s.loadBytes (Agent.ofCore s.cur.core) 1 home pa n).1
    :: ((s.pastSince (pa / 64) s.cur.codeTime).filter fun e => e.level == 4 && e.unit == s.cur.core).map fun e =>
      (List.range n).map fun i => lineByte e.data (pa % 64 + i)).eraseDups

/-- The key of a fetch: the same choice each time that the group looks at its next instruction. -/
def State.fetchKey (s : State) (src : Nat) : Nat := readKey (s.cur.lastIssue + 2 ^ 64 * s.cur.id) src 0

/-- Fetch through the L1 as a CORE-scope load would; where the group may have prefetched an older value, which one is
free (R163, R164). `src` numbers the fetch. -/
def State.fetchAt (s : State) (src : Nat) (va : DWord) (n : Nat) : Fetched :=
  let a := Agent.ofCore s.cur.core
  let l := s.launch
  if !canonical va then .protect va
  else
    match s.translate a l.desc l.record .fetch va with
    | .protect => .protect va
    | .fault info => .fault va info (s.settle a l.desc l.record .fetch va)
    | .ats _ _ => .wait (s.settle a l.desc l.record .fetch va)
    | .pull _ _ _ => .wait (s.settle a l.desc l.record .fetch va)
    | .ok p =>
      let new := s.loadBytes a 1 p.home p.pa n
      if new.2 then .poison (va &&& ~~~63)
      else
        .ok ((freeOneOf (s.fetchKey src) (s.fetchValues p.home p.pa n)).getD new.1)
          (s.settle a l.desc l.record .fetch va)

/-- A word and its half-word. -/
inductive FetchedWord where
  | ok (w : Word) (h : Half) (s : State)
  | stop (f : Fetched)

def wordOfBytes (bs : List Byte) : Word := BitVec.ofNat 32 (leNat bs)

def State.fetchWord (s : State) (src : Nat) (pc : DWord) : FetchedWord :=
  match s.fetchAt src pc 4 with
  | .ok bs t =>
    match t.fetchAt (src + 1) (s.schedAddr pc) 2 with
    | .ok hs u => .ok (wordOfBytes bs) (BitVec.ofNat 16 (leNat hs)) u
    | f => .stop f
  | f => .stop f

/-- The instruction at the program counter. -/
inductive FetchedInstr where
  | ok (w : Word) (slot : IssueSlot) (s : State)
  | stop (f : Fetched)

/-- The instruction of a first word and a slot. -/
def decodeSlot (w : Word) (slot : IssueSlot) : Except Reject Instr :=
  if isPfx w then (decodePair w slot.word).1 else decodeWord w

/-- The slot with the cycles for which its instruction holds the pipe. -/
def IssueSlot.sized (slot : IssueSlot) : Except Reject Instr → IssueSlot
  | .ok i => if doubleBeat i (slot.half.getLsbD 12) then { slot with beats := 2 * slot.beats } else slot
  | .error _ => slot

/-- The slot of a fetched instruction with its cycles. -/
def IssueSlot.sizedBy (slot : IssueSlot) (w : Word) : IssueSlot := slot.sized (decodeSlot w slot)

/-- Fetch the instruction at the program counter: its first word and its slot, with its cycles. -/
def State.fetchNew (s : State) : FetchedInstr :=
  match s.fetchWord 40 s.cur.pc with
  | .stop f => .stop f
  | .ok w h t =>
    if isPfx w then
      match t.fetchWord 42 (s.cur.pc + 4) with
      | .stop f => .stop f
      | .ok w2 h2 u =>
        let slot : IssueSlot := { half := h, half2 := h2, word := w2, len := 2, beats := s.team.gw / 16 }
        .ok w (slot.sizedBy w) u
    else
      let slot : IssueSlot := { half := h, half2 := 0, word := w, len := 1, beats := s.team.gw / 16 }
      .ok w (slot.sizedBy w) t

/-- The instruction at the program counter: the one in the prefetch buffer, where the group has come to it already (R164). -/
def State.fetchInstr (s : State) : FetchedInstr :=
  match (if s.cur.came then s.cur.fetched else none) with
  | some e => .ok e.1 e.2 s
  | none => s.fetchNew

/-- The barrier waits of a half-word that is still to come begin now. -/
def State.noteBars (s : State) : State :=
  s.modCur fun g => if g.came || !g.barWait.isEmpty then g else { g with barWait := s.barsNow (BitVec.allOnes 6) }

/-- What a fetch that gives no instruction leads to (R150, R371, R451). -/
def State.fetchStop (s : State) : Fetched → State
  | .ok _ t => t
  | .fault va info t => (t.parkFetch va info).noteBars
  | .protect va => s.trap causeProtect va
  | .poison va => s.poisonTrap id s.cur.pc va
  | .wait t =>
    (t.stall stallFetch).noteBars

/-! ### Before the next instruction -/

/-- The reslice vector of the group in focus, 0 for none (R176). -/
def State.resliceVector (s : State) : DWord := s.launch.record.rvec

/-- Take back an arrival at a barrier that the group in focus waits at: it will arrive again when it issues the
instruction again. -/
def State.leaveBarrier (s : State) : State :=
  match s.cur.wait with
  | .bar k _ =>
    let t := s.team
    let b := t.bars.getD k Barrier.zero
    (s.setTeam { t with bars := t.bars.set k { b with count := b.count - s.cur.threads.length } }).modCur fun g =>
      { g with arrived := g.arrived.filter fun e => e.1 != k }
  | .cbar _ => s.setLaunch { s.launch with ccount := s.launch.ccount - s.cur.threads.length }
  | _ => s

/-- Enter the reslice vector; tpc is where the group would have gone on. -/
def State.enterReslice (s : State) : State :=
  ((s.leaveBarrier.commit).modCur fun g => { g.enter 0 g.pc (BitVec.allOnes 64) s.resliceVector with resliced := false }).startRegion

/-- What a group does instead of its next instruction, if anything: the poison trap after a `WAITV` (R273), the reslice
vector (R176) or the watchdog trap (R378). -/
def State.before (s : State) : Option State :=
  let g := s.cur
  if g.ppend then some (s.poisonTrap Group.clearPoison g.pc g.pva)
  else if g.resliced && !g.intrap && !s.barrierOver then
    some (if s.resliceVector = 0 then s.modCur fun g => { g with resliced := false } else s.enterReslice)
  else if 2 ^ 24 ≤ g.watchdog then some (s.trap causeWatchdog 0)
  else none

/-! ### Distance and waits (R57, R59, R63) -/

def IssueSlot.paths (i : IssueSlot) : BitVec 6 := i.half.extractLsb' 0 6

def IssueSlot.bars (i : IssueSlot) : BitVec 6 := i.half.extractLsb' 6 6

/-- The half-word makes its instruction a switch point (R63). -/
def IssueSlot.point (slot : IssueSlot) : Bool := slot.dist != 0 || slot.half &&& 0xFFF != 0

/-- A phase between the one at the end of the instruction before and the one now: where the issue distance lies in between, the
wait begins in a free one of them. -/
def State.phaseFrom (s : State) (dist : Nat) (mark now : BitVec 16) : BitVec 16 :=
  if dist = 0 then mark
  else mark + BitVec.ofNat 16 ((Config.freeValue s.draws).toNat % ((now - mark).toNat + 1))

/-- The phases of the team barriers that a half-word waits on, as they stood when the waits began (R59). -/
def State.barsFrom (s : State) (slot : IssueSlot) : List (Nat × BitVec 16) :=
  (s.barsNow slot.bars).map fun e =>
    match s.cur.barWait.find? (·.1 == e.1) with
    | some x => (e.1, if s.cur.came then x.2 else s.phaseFrom slot.dist x.2 e.2)
    | none => e

/-- Put the instruction with a first word in the issue slot. The distance and the start of the barrier waits count once, when the
group first comes to it; a switch point empties the latches. -/
def State.begin (s : State) (w : Word) (slot : IssueSlot) : State :=
  let t := { s with issue := slot, draws := s.draws + 1,
                    cycles := sset 0 s.cycles s.cur.core
                      (sget 0 s.cycles s.cur.core + BitVec.ofNat 64 (slot.beats + Config.elapsed s.draws)) }
  let point := slot.point || s.cur.switch || (s.holder s.cur.pipeKey).1 != s.cur.id
  let u := t.modCur fun g => if point then { g with latches := 0 } else g
  if s.cur.came then u
  else
    u.modCur fun g =>
      { (g.elapse slot.dist).countCycles stallDist (BitVec.ofNat 64 slot.dist) with
        came := true, fetched := some (w, slot), barWait := s.barsFrom slot }

/-- A path that the half-word waits on and that is not empty. -/
def State.waitsOn (s : State) : Option Nat :=
  (List.range 6).find? fun k => s.issue.paths.getLsbD k && s.cur.count k != 0

/-- The barrier's phase is still the one recorded. -/
def State.phaseOpen (s : State) (e : Nat × BitVec 16) : Bool := (s.team.bars.getD e.1 Barrier.zero).phase == e.2

/-- A barrier that the half-word waits on and whose phase has not completed. -/
def State.waitsBar (s : State) : Option Nat := (s.cur.barWait.find? s.phaseOpen).map (·.1)

/-! ### Which group takes the pipe (R182, R410) -/

/-- The slot of the next instruction of the group in focus, where it can be fetched now. -/
def State.slotNext (s : State) : Option IssueSlot :=
  match s.fetchInstr with
  | .ok _ slot _ => some slot
  | .stop _ => none

/-- The next instruction of a group goes on with a run of distance 0: it begins at once, and nothing comes in between. -/
def State.midRun (s : State) (g : Group) : Bool :=
  !g.switch && !g.came && g.wait == .none && (s.holder g.pipeKey).1 == g.id
    && (match (s.focus g.id).slotNext with
      | some slot => !slot.point
      | none => false)

/-- The group takes a trap before its next instruction: the one after a `WAITV` (R273), or the watchdog's (R378). -/
def Group.trapComes (g : Group) : Bool := g.ppend || decide (2 ^ 24 ≤ g.watchdog)

/-- The group may issue: it is live, runs, and is parked on nothing. A group of a unit that is being pre-empted only ends
its run of distance 0, and takes the trap that its end leaves (R57, R381, R382, R390). -/
def State.canIssue (s : State) (g : Group) : Bool :=
  g.live && g.fault.isNone && !(s.die (dieOf g.core)).silent
    && (match g.wait with
      | .waitv _ _ _ _ => false
      | .mtx _ _ _ => false
      | _ => true)
    && !(g.flights.any fun f => match f.kind with
      | .load _ _ _ acq _ _ => acq
      | .atomic _ _ _ _ acq _ => acq
      | .returned _ _ _ _ acq _ _ _ => acq
      | _ => false)
    && (match s.team? g.team with
      | some t => t.live && (!t.stopping || s.midRun g || g.trapComes)
      | none => false)

/-- The group is ready, its distance apart: it can issue, its waits are satisfied and it is not stalled (R182). -/
def State.readyNow (s : State) (g : Group) : Bool :=
  s.canIssue g &&
    let t := s.focus g.id
    t.before.isSome || (match t.fetchInstr with
      | .stop (.wait _) => false
      | .stop _ => true
      | .ok _ slot _ =>
        ((List.range 6).all fun k => !slot.paths.getLsbD k || g.count k == 0)
          && !(t.barsFrom slot).any t.phaseOpen && t.causeOver)

/-- The instruction in a slot would end past the 32nd cycle of the run of a group (R410). -/
def State.pastRun (s : State) (g : Group) (slot : IssueSlot) : Bool :=
  let h := s.holder g.pipeKey
  h.1 == g.id && h.2 != 0 && decide (32 < h.2 + slot.dist + slot.beats)

/-- The holder of a pipe keeps it: it is ready now and its run is not over. -/
def State.keepsPipe (s : State) (g : Group) : Bool :=
  s.readyNow g && (match (s.focus g.id).slotNext with
    | some slot => (g.came || slot.dist == 0) && !s.pastRun g slot
    | none => true)

/-- The slot of a group's team. -/
def State.slotOf (s : State) (g : Group) : Nat := ((s.team? g.team).getD Team.zero).slot

/-- `g` goes before `h`: its last issue is older; then the lower team slot, then the lower gix. -/
def State.goesBefore (s : State) (g h : Group) : Bool :=
  decide (g.lastIssue < h.lastIssue) || (g.lastIssue == h.lastIssue
    && (decide (s.slotOf g < s.slotOf h) || (s.slotOf g == s.slotOf h && decide (g.gix < h.gix))))

/-- The group of a list whose last issue is oldest. -/
def State.oldestOf (s : State) : List Group → Option Group
  | [] => none
  | g :: rest =>
    match s.oldestOf rest with
    | none => some g
    | some h => if s.goesBefore h g then some h else some g

/-- The other groups of a group's pipe that are ready. -/
def State.rivals (s : State) (g : Group) : List Group :=
  s.groups.filter fun x => x.id != g.id && x.pipeKey == g.pipeKey && s.readyNow x

/-- A group may have its pipe: it holds it and keeps it, or the holder does not keep it and no other ready group goes first. -/
def State.eligible (s : State) (g : Group) : Bool :=
  s.canIssue g &&
    let h := (s.holder g.pipeKey).1
    if h = g.id then s.keepsPipe g || (s.rivals g).isEmpty
    else
      (match s.group? h with
        | some x => x.pipeKey != g.pipeKey || !s.keepsPipe x
        | none => true) && (s.rivals g).all fun x => x.id == h || !s.goesBefore x g

/-- The ready group of the pipe of the group in focus whose last issue is oldest. -/
def State.pipeNext (s : State) : Option Group := s.oldestOf (s.rivals s.cur)

/-- The focus moves to a group. The ready groups of its pipe that do not hold it count the cycles until now (R411). -/
def State.takePipe (s : State) (g : Group) : State :=
  let n := BitVec.ofNat 64 (Config.elapsed s.draws)
  let h := (s.holder g.pipeKey).1
  let t := s.mapGroups (fun x => x.id != h && x.pipeKey == g.pipeKey && s.readyNow x) fun x => x.countCycles stallChosen n
  { t.focus g.id with draws := s.draws + 1, burst := 0 }

/-- The pipe passes to a group: the run that it begins has no cycles yet (R204, R410). -/
def State.passPipe (s : State) (g : Group) : State :=
  let t := s.takePipe g
  { t with pipes := sset (0, 0) t.pipes g.pipeKey (g.id, 0) }

/-- The group in focus, whose run is over, gives its pipe to another: its instruction stalls at issue. -/
def State.yieldTo (s : State) (g : Group) : State := (s.stall stallChosen).passPipe g

/-- The group that the pipe passes to before the instruction in issue, where the run of the group in focus is over. -/
def State.overTo (s : State) : Option Group := if s.pastRun s.cur s.issue then s.pipeNext else none

/-- The group that takes the pipe while the issue distance of the instruction that the group in focus has just come to
elapses: its holder is not ready meanwhile. -/
def State.meanwhile (s : State) (first : Bool) : Option Group := if first && s.issue.dist != 0 then s.pipeNext else none

/-! ### Issue -/

/-- The waits of the half-word, then the instruction. A satisfied barrier wait is an acquire at team scope (R202). `first` says that
the group has just come to it. -/
def State.afterWaits (s : State) (first : Bool) (run : State → Out) : Out :=
  match s.meanwhile first with
  | some g => .next (s.passPipe g)
  | none =>
  match s.waitsOn with
  | some k => .next (s.stall (0x101 + k))
  | none =>
    match s.waitsBar with
    | some k => .next (s.stall (0x107 + k))
    | none =>
      if !s.cur.barWait.isEmpty && (!s.cur.loadsQuiet || s.heldLine s.cur.core s.team.scope) then
        .next (s.stallOn (.acquire s.team.scope) (0x107 + (s.cur.barWait.headD (0, 0)).1))
      else if s.cur.ppath &&& s.issue.paths ≠ 0 then .next (s.poisonTrap Group.clearPoison s.cur.pc s.cur.pva)
      else
        match s.overTo with
        | some g => .next (s.yieldTo g)
        | none => run (if s.cur.barWait.isEmpty then s else (s.acquire s.team.scope).progress)

/-- Issue the next instruction of the group in focus. `run` gives an instruction its meaning. -/
def State.issueWith (s : State) (run : Instr → State → Out) : Out :=
  match s.before with
  | some t => .next t
  | none =>
    match s.fetchInstr with
    | .stop f => .next (s.fetchStop f)
    | .ok w slot t =>
      (t.begin w slot).afterWaits (!t.cur.came) fun u =>
        match decodeSlot w slot with
        | .ok i => run i u
        | .error _ => .next u.illegal

/-! ### Placing an instruction where the next step fetches -/

/-- A context whose only page is the first GiB: its root at 0x20_0000, its second table at 0x40_0000. -/
def bootDesc : CtxDesc := { CtxDesc.zero with root := 0x200000 }

/-- A launch of one team of 16 threads at the device's maximum scope. -/
def bootRec : LaunchRec :=
  { LaunchRec.zero with code := 0x10000, sched := 0x20000, entry := 0, wal := 256, reqw := 16, nthr := 16, maxsc := 7, mctx := true }

def bootLaunch (id : Nat) : Launch :=
  { Launch.zero with id := id, record := bootRec, desc := bootDesc, stage := .running, placed := 1 }

def bootTeam (id launch : Nat) : Team :=
  { Team.zero with id := id, live := true, launch := launch, nthr := 16, wal := 256, ctx := some 0, spb := 1536 }

def bootGroup (id team : Nat) : Group :=
  { Group.zero with id := id, live := true, team := team, pc := 0x10000, rstart := 0x10000,
                    threads := (List.range 16).map Thread.new, em := 0xFFFF }

/-- Give the device a launch whose only group fetches next at 0x1_0000, in a page that permits every access. -/
def State.boot (s : State) : State :=
  let n := s.fresh
  let t := (s.setNum 0x200000 8 0x400001).setNum 0x400000 8 0x1BB
  { t with cur := bootGroup n (n + 1), others := s.groups, teams := bootTeam (n + 1) (n + 2) :: s.teams,
           launches := bootLaunch (n + 2) :: s.launches, fresh := n + 3 }

/-- Where a fetch at `va` reads, if it can. -/
def State.fetchPa (s : State) (va : DWord) : Option Nat :=
  let l := s.launch
  match (if canonical va then s.translate (Agent.ofCore s.cur.core) l.desc l.record .fetch va else .protect) with
  | .ok p => some p.pa
  | _ => none

/-- Replace bytes of memory, in every copy. -/
def State.place (s : State) (pa : Nat) (bs : List Byte) : State :=
  let t := ((s.recall (pa / 64)).setPoison (pa / 64) false).setBytes pa bs
  { t with past := t.past.filter fun e => e.line != pa / 64 }

/-- The group in focus can fetch both words of a prefix pair now. -/
def State.canFetch (s : State) : Bool :=
  s.canIssue s.cur && s.cur.wait == .none && s.before.isNone && (s.fetchPa s.cur.pc).isSome
    && (s.fetchPa (s.cur.pc + 4)).isSome && (s.fetchPa (s.schedAddr s.cur.pc)).isSome
    && (s.fetchPa (s.schedAddr (s.cur.pc + 4))).isSome

/-- Store two words and their half-words where the group in focus fetches next. -/
def State.placeInstr (s : State) (w1 w2 : Word) (h1 h2 : Half) : State :=
  let put (t : State) (va : DWord) (bs : List Byte) : State :=
    match s.fetchPa va with
    | some pa => t.place pa bs
    | none => t
  let t := put s s.cur.pc (leBytes 4 w1.toNat)
  let t := put t (s.cur.pc + 4) (leBytes 4 w2.toNat)
  let t := put t (s.schedAddr s.cur.pc) (leBytes 2 h1.toNat)
  let t := put t (s.schedAddr (s.cur.pc + 4)) (leBytes 2 h2.toNat)
  { t with script := [], burst := 0, power := .on,
           pipes := t.pipes.map fun (e : Nat × (Nat × Nat)) => if e.2.1 = t.cur.id then (e.1, (e.2.1, 0)) else e }.modCur fun g => { g with ppath := 0, ppend := false, fetched := none }

end Sys2Proof.Machine
end

