-- ==== Sys2Proof/Machine/Control.lean ====
section
/-! DEFINITION. Branches, calls, returns, uniform compares, special registers, traps, the return from a trap, and the
window spill and fill: majors 0, 2 and 3 (R73, R82 to R84, R149 to R163, R378, R379, R411). -/

namespace Sys2Proof.Machine

/-- The checks of an instruction of kind U (R58, R103): its half-word, then its uniform source codes. -/
def State.uniformOp (s : State) (srcs : List Src) (run : State → State) : State :=
  if !s.u then s.illegal
  else if !srcs.all (Src.ok true) then s.badOperand
  else run s

/-- The same for an instruction that reads the registers that its sources name. Predicates are read in every lane. -/
def State.readOp (s : State) (srcs : List Src) (run : State → State) : State :=
  s.uniformOp srcs fun s => s.sound (0 :: List.range s.cur.threads.length) srcs run

/-- A uniform source read as 64 bits. -/
def State.wide (s : State) (src : Nat) (c : Code) : DWord := s.operand false src 0 0 c.toNat

/-! ### Transfers (R73, R149, R378) -/

/-- Count a transfer to `target`; it is backward when the target is not above the instruction. -/
def Group.transfer (g : Group) (target : DWord) : Group :=
  if target ≤ g.pc then { g with watchdog := g.watchdog + 1 } else g

/-- Go on at `target`, with `b0` in every thread's b0. -/
def State.jump (s : State) (target b0 : DWord) : State := (s.modCur fun g => g.transfer target).finishAt target fun _ => b0

/-- The target of a format B cell, from its offset in words. -/
def State.branchTarget (s : State) (off : DWord) : DWord := s.nextPc + 4 * off

/-- A branch whose condition has the value `c`. -/
def State.branch (s : State) (c : Bool) (off : DWord) : State :=
  s.uniformOp [] fun s => if c then s.jump (s.branchTarget off) 0 else s.finish 0

/-- The condition of a `BR` cell (R149). -/
def State.condition (s : State) (cond : Nat) : Bool :=
  match cond with
  | 0 => true
  | 1 => s.em == 0
  | 2 => s.em != 0
  | 3 => s.em == s.cur.present
  | 4 => s.ucSeen
  | _ => !s.ucSeen

/-- A call to `target` with frame code `f` (R152). -/
def State.call (s : State) (target : DWord) (f : Nat) : State :=
  let link := s.nextPc ||| BitVec.ofNat 64 f
  let w := s.cur.wb + 16 * f
  if s.team.wal < w + 64 then s.trapDone (fun g => g.writeS 31 link 2) causeSpill target (BitVec.ofNat 64 w)
  else (s.modCur fun g => { g.writeS 31 link 2 with wb := w }).jump target link

/-- `CALL` and `CALL.ANY`: with `any`, an empty em changes nothing but b0. -/
def State.callCell (s : State) (any : Bool) (f : Nat) (off : DWord) : State :=
  s.uniformOp [] fun s => if any && s.em == 0 then s.finish 0 else s.call (s.branchTarget off) f

/-- Every cell of major 2, by cond4; 6 and 7 are reserved (R82). -/
def State.brCell (s : State) (cond : Nat) (off : DWord) : State :=
  if cond < 6 then s.branch (s.condition cond) off
  else if cond < 8 then s.illegal
  else s.callCell (12 ≤ cond) (cond % 4) off

def execBr (off : BitVec 23) (s : State) : Out := .next (s.brCell 0 (sext64 off))

def execBrNone (off : BitVec 23) (s : State) : Out := .next (s.brCell 1 (sext64 off))

def execBrAny (off : BitVec 23) (s : State) : Out := .next (s.brCell 2 (sext64 off))

def execBrAll (off : BitVec 23) (s : State) : Out := .next (s.brCell 3 (sext64 off))

def execBrUc (off : BitVec 23) (s : State) : Out := .next (s.brCell 4 (sext64 off))

def execBrNuc (off : BitVec 23) (s : State) : Out := .next (s.brCell 5 (sext64 off))

def execCall (f : BitVec 2) (off : BitVec 23) (s : State) : Out := .next (s.brCell (8 + f.toNat) (sext64 off))

def execCallAny (f : BitVec 2) (off : BitVec 23) (s : State) : Out := .next (s.brCell (12 + f.toNat) (sext64 off))

/-! ### Control cells (R84, R151 to R155) -/

/-- `RET` (R153). -/
def State.ret (s : State) : State :=
  let link := s.sreg 0 31
  let target := link &&& ~~~3
  let back := 16 * (link.toNat % 4)
  if s.cur.wb < back then s.trapDone id causeFill target (BitVec.ofInt 64 ((s.cur.wb : Int) - back))
  else (s.modCur fun g => { g with wb := g.wb - back }).jump target 0

def execRet (s : State) : Out := .next (s.uniformOp [] fun s => s.sound [0] [⟨95, .s⟩] State.ret)

/-- Run `f` with a register target, which must be a word address (R152, R153). -/
def State.aligned4 (s : State) (target : DWord) (f : State → State) : State :=
  if target.toNat % 4 ≠ 0 then s.trap causeAlign target else f s

def execJmpr (a : Code) (s : State) : Out :=
  .next (s.readOp [⟨a.toNat, .s⟩] fun s => s.aligned4 (s.wide 0 a) fun s => s.jump (s.wide 0 a) 0)

/-- `CALLR` and `CALLR.ANY`. -/
def State.callrCell (s : State) (any : Bool) (a b : Code) : State :=
  s.readOp [⟨a.toNat, .s⟩, ⟨b.toNat, .num 3⟩] fun s =>
    s.aligned4 (s.wide 0 a) fun s => if any && s.em == 0 then s.finish 0 else s.call (s.wide 0 a) b.toNat

def execCallr (a b : Code) (s : State) : Out := .next (s.callrCell false a b)

def execCallrAny (a b : Code) (s : State) : Out := .next (s.callrCell true a b)

/-- `WBASE` (R154). -/
def State.wbase (s : State) (w : DWord) : State :=
  if w.getLsbD 0 then s.badOperand
  else if (s.team.wal : Int) - 64 < w.toInt then s.trapDone id causeSpill s.nextPc w
  else if w.toInt < 0 then s.trapDone id causeFill s.nextPc w
  else (s.modCur fun g => { g with wb := w.toNat }).finish 0

def execWbase (a : Code) (s : State) : Out := .next (s.readOp [⟨a.toNat, .wide⟩] fun s => s.wbase (s.wide 0 a))

def execRgn (s : State) : Out :=
  .next (s.uniformOp [] fun s => s.regionEnder fun s => (s.finish 0).startRegion)

/-- The condition of a `UCMP` cell, by fn6 - 16. -/
def ucmpHolds (k : Nat) (a b : DWord) : Bool :=
  match k with
  | 0 => a == b
  | 1 => a != b
  | 2 => a.slt b
  | 3 => a.sle b
  | 4 => a.ult b
  | _ => a.ule b

/-- A `UCMP` cell. -/
def State.ucmp (s : State) (k : Nat) (a b : Code) : State :=
  s.readOp [⟨a.toNat, .wide⟩, ⟨b.toNat, .wide⟩] fun s =>
    let c := ucmpHolds k (s.wide 0 a) (s.wide 1 b)
    (s.modCur fun g => g.setUc c).finish (if c then 1 else 0)

def execUcmpEq (a b : Code) (s : State) : Out := .next (s.ucmp 0 a b)

def execUcmpNe (a b : Code) (s : State) : Out := .next (s.ucmp 1 a b)

def execUcmpLt (a b : Code) (s : State) : Out := .next (s.ucmp 2 a b)

def execUcmpLe (a b : Code) (s : State) : Out := .next (s.ucmp 3 a b)

def execUcmpLtu (a b : Code) (s : State) : Out := .next (s.ucmp 4 a b)

def execUcmpLeu (a b : Code) (s : State) : Out := .next (s.ucmp 5 a b)

/-! ### System cells (R83) -/

def execNop (s : State) : Out := .next (s.uniformOp [] fun s => s.finish 0)

def execTrap (code : BitVec 21) (s : State) : Out :=
  .next (s.uniformOp [] fun s => s.trapDone id causeTrap s.nextPc (zext64 code))

/-- `ISYNC`: everything fetched before is discarded (R163). -/
def execIsync (s : State) : Out :=
  .next (s.uniformOp [] fun s => (s.modCur fun g => { g with codeTime := s.draws }).finish 0)

/-- The source number of a special register that is read. -/
def specialSrc (i : Nat) : Nat :=
  match i with
  | 0x002 => srcFpc
  | 0x005 => srcGstat
  | 0x009 => 46
  | 0x00B => 47
  | 0x010 => 48
  | _ => 49

/-- A special register below the latency of the `SWRITE` that wrote it (R156). -/
def State.specialSeen (s : State) (i : Nat) (v : DWord) : DWord := s.seen (.special i) (specialSrc i) 0 v

/-- The group leaves its handler. The new em is in force at once. -/
def Group.leave (g : Group) (tem tpc : DWord) : Group :=
  { g with em := tem &&& g.present, hazards := g.hazards.filter fun h => h.target != .em,
           gstat := setBit g.gstat 3 false, pc := tpc }

/-- `RTT` (R160). -/
def State.rtt (s : State) : State :=
  let tpc := s.specialSeen 0x009 s.cur.tpc
  let tem := s.specialSeen 0x00B s.cur.tem
  if !s.cur.intrap then s.illegal
  else if tpc.toNat % 4 ≠ 0 then s.trap causeAlign tpc
  else
    s.regionEnder fun s =>
      (((s.finishAt tpc fun _ => 0).modCur fun g => { g.leave tem tpc with switch := true, latches := 0 }).startRegion).progress

def execRtt (s : State) : Out := .next (s.uniformOp [] State.rtt)

/-! ### Reading special registers (R156, R411) -/

/-- gstat as `SREAD` reads it (R157). -/
def State.gstatSeen (s : State) : Word :=
  let v := low32 (s.specialSeen 0x005 (zext64 s.cur.gstat))
  let uc := s.seen .uc srcGstat 0 (if s.cur.uc then 1 else 0)
  (s.cur.gstat &&& 0x8) ||| (if uc = 0 then 0 else 4) ||| (v &&& 0x3)

/-- The index names a special register. -/
def specialIndex (i : Nat) : Bool :=
  i ≤ 6 || (8 ≤ i && i ≤ 0xC) || (0x10 ≤ i && i ≤ 0x14) || i == 0x20 || i == 0x21 || (0x100 ≤ i && i < 0x140)

/-- The shared counters that exist. -/
def sharedIndex (i : Nat) : Bool :=
  (0x120 ≤ i && i ≤ 0x124) || (0x128 ≤ i && i ≤ 0x12B) || (0x130 ≤ i && i ≤ 0x133) || (0x138 ≤ i && i ≤ 0x13A)

/-- The unit that a shared counter counts for, as the group in focus names it (R411). -/
def State.sharedUnit (s : State) (i : Nat) : Option Nat :=
  let core := s.cur.core
  if i ≤ 0x122 then s.team.ctx.map fun x => 2 * (core / 2) + x
  else if i = 0x123 then some (if s.team.pspan then s.team.core else core)
  else if i ≤ 0x12B then some (clusterOf core)
  else if i ≤ 0x133 then some (ipoOf (dieOf core))
  else some (dieOf core)

/-- A special register as `SREAD` reads it. A write-only one reads 0 (R10). -/
def State.specialValue (s : State) (i : Nat) : DWord :=
  let g := s.cur
  match i with
  | 0x000 => s.em
  | 0x001 => zext64 s.nfSeen
  | 0x002 => zext64 s.fpcSeen
  | 0x003 => BitVec.ofNat 64 g.wb
  | 0x004 => g.rstart
  | 0x005 => zext64 s.gstatSeen
  | 0x006 => BitVec.ofNat 64 s.team.wal
  | 0x008 => zext64 g.tcause
  | 0x009 => s.specialSeen 0x009 g.tpc
  | 0x00A => g.tval
  | 0x00B => s.specialSeen 0x00B g.tem
  | 0x00C => g.hva
  | 0x010 => s.specialSeen 0x010 g.wsa
  | 0x011 => s.specialSeen 0x011 (zext64 g.wss)
  | 0x012 => zext64 g.wsd
  | 0x020 => sget 0 s.cycles g.core
  | 0x021 => g.gcyc
  | i =>
    if 0x100 ≤ i ∧ i ≤ 0x118 then sget 0 g.stalls i
    else if sharedIndex i then
      match s.sharedUnit i with
      | some u => s.sharedCount i u
      | none => 0
    else 0

/-- Most shared counters rise with time, which the model leaves free: one that is read rises first. Bank conflicts and
input-queue waits rise where they happen. -/
def State.countShared (s : State) (i : Nat) : State :=
  if sharedIndex i ∧ i ≠ 0x123 ∧ i ≠ 0x124 then
    match s.sharedUnit i with
    | some u => s.addShared i u (BitVec.ofNat 64 (Config.elapsed s.draws))
    | none => s
  else s

/-- `SREAD` as a cell with a known result. -/
def sreadCell (d : Code) (v : DWord) : Cell :=
  { kind := .byDest, d := d.toNat, dcls := .w .full, srcs := [], lat := 2, long := false, f := fun _ _ => (v, 0) }

def State.sreadAt (s : State) (d : Code) (i : Nat) : State :=
  let c := sreadCell d 0
  match c.cause s with
  | some cause => s.trap cause (zext64 s.issue.word)
  | none =>
    if !specialIndex i then s.badOperand
    else
      let t := s.countShared i
      -- a push ends the region, which sets rstart first (R367)
      (sreadCell d (if i = 4 ∧ isPort d.toNat = true then s.cur.pc else t.specialValue i)).proceed t

def execSread (d : Code) (index : BitVec 14) (s : State) : Out := .next (s.sreadAt d index.toNat)

/-! ### Writing special registers -/

/-- Remember what a special register held before an `SWRITE`. -/
def Group.specialHazard (g : Group) (i : Nat) (old : DWord) : Group := g.hazard (.special i) [old] 2

/-- `SWRITE` of fpc: rm under its latency, flags as R129 gives. -/
def Group.setFpc (g : Group) (x : DWord) : Group :=
  let h := (g.specialHazard 2 (zext64 g.fpc)).hazard .rm [zext64 (g.fpc.extractLsb' 0 2)] 2
  { h with fpc := fpcWritten g.fpc (low32 x) }

def Group.setNf (g : Group) (x : DWord) : Group :=
  { g.hazard .nf [zext64 g.nf] 2 with nf := x.setWidth 16 &&& 0x7FFF }

/-- `SWRITE` of gstat. -/
def Group.setGstat (g : Group) (x : DWord) : Group :=
  let h := g.specialHazard 5 (zext64 g.gstat)
  let h := h.hazard .uc [if g.uc then 1 else 0] 2
  { h with gstat := gstatWritten g.gstat (low32 x) }

/-- The effect of an `SWRITE` to a register other than wspill and wfill; a read-only one keeps its value. -/
def Group.writeSpecial (g : Group) (i : Nat) (x : DWord) : Group :=
  match i with
  | 0x000 => g.setEm x
  | 0x001 => g.setNf x
  | 0x002 => g.setFpc x
  | 0x005 => g.setGstat x
  | 0x009 => { g.specialHazard 0x009 g.tpc with tpc := x }
  | 0x00B => { g.specialHazard 0x00B g.tem with tem := x }
  | 0x010 => { g.specialHazard 0x010 g.wsa with wsa := x }
  | 0x011 => { g.specialHazard 0x011 (zext64 g.wss) with wss := low32 x }
  | _ => g

/-! ### Spilling and filling (R161) -/

/-- The spill word `j` of a thread. -/
def spillVa (wsa : DWord) (wss : Word) (tid j : Nat) : DWord :=
  wsa + BitVec.ofNat 64 tid * zext64 wss + BitVec.ofNat 64 (4 * j)

/-- The words that a spill or fill of `n` entries from spill entry `first` on touches: (lane, entry, address). -/
def State.windowVas (s : State) (wsa : DWord) (wss : Word) (first n : Nat) : List (Nat × (Nat × DWord)) :=
  s.cur.threads.zipIdx.flatMap fun e =>
    (List.range n).map fun j => (e.2, (j, spillVa wsa wss e.1.tid (first + j)))

/-- The lowest-numbered thread whose address is not a multiple of 4; the first thread's where every address is. -/
def misalignedVa (vas : List (Nat × (Nat × DWord))) (wsa : DWord) : DWord :=
  match vas.find? fun v => v.2.2.toNat % 4 != 0 with
  | some v => v.2.2
  | none => ((vas.head?).map (·.2.2)).getD wsa

/-- One translation of a spill or fill. -/
def State.windowXlate (s : State) (acc : Access) (va : DWord) : Xlate :=
  if !canonical va then .protect else s.translate (Agent.ofCore s.cur.core) s.launch.desc s.launch.record acc va

/-- The first access whose translation gives no place. -/
def State.windowStop (s : State) (acc : Access) (vas : List (Nat × (Nat × DWord))) : Option (Xlate × DWord) :=
  vas.findSome? fun v =>
    match s.windowXlate acc v.2.2 with
    | .ok _ => none
    | x => some (x, v.2.2)

/-- Bytes of a line that a later store has overwritten leave the region store buffer. -/
def StoreLine.overwritten (line : Nat) (mask : BitVec 64) (l : StoreLine) : StoreLine :=
  if l.line = line then { l with mask := l.mask &&& ~~~mask } else l

/-- One access of a spill. It comes after the stores that the region store buffer still holds (R67). -/
def State.spillOne (s : State) (va : DWord) (x : Word) : State :=
  let t := s.settle (Agent.ofCore s.cur.core) s.launch.desc s.launch.record .store va
  match s.windowXlate .store va with
  | .ok p =>
    (t.storeBytes (Agent.ofCore s.cur.core) 1 p.home p.pa 4 x.toNat).modCur fun g =>
      { g with storeBuf := g.storeBuf.map (StoreLine.overwritten (p.pa / 64) (placeBytes (p.pa % 64) 4 0).1) }
  | _ => t

/-- One access of a fill: the word, and whether its line is poisoned. -/
def State.fillOne (s : State) (va : DWord) : Word × Bool :=
  match s.windowXlate .load va with
  | .ok p =>
    let r := s.loadBytes (Agent.ofCore s.cur.core) 1 p.home p.pa 4
    let own := s.ownBytes p.pa 4
    (BitVec.ofNat 32 (leNat (overlay own r.1)), r.2 && own.any (·.isNone))
  | _ => (0, false)

/-- A spill reads an entry of a lane that holds an error that its code cannot correct (R424). -/
def State.spillFlawed (s : State) (n : Nat) : Bool :=
  s.cur.threads.any fun t => t.badStack.any (· < n)

/-- The stack of a thread moved down by `n` entries. -/
def slideDown (n : Nat) (stack : List (Nat × Word)) : List (Nat × Word) :=
  (stack.filter fun e => n ≤ e.1).map fun e => (e.1 - n, e.2)

/-- The stack of a thread moved up by `n` entries, below `wal`. -/
def slideUp (n wal : Nat) (stack : List (Nat × Word)) : List (Nat × Word) :=
  (stack.map fun e => (e.1 + n, e.2)).filter fun e => e.1 < wal

/-- The latency of no v-register is left after a spill or fill, which waits for its accesses. -/
def Group.settleStack (g : Group) : Group :=
  { g with hazards := g.hazards.filter fun h => match h.target with
      | .v _ => false
      | _ => true }

/-- Perform a spill of `n` entries. -/
def State.windowSpill (s : State) (n : Nat) (vas : List (Nat × (Nat × DWord))) : State :=
  let t := vas.foldl (fun t v => t.spillOne v.2.2 (sget 0 (s.cur.lane v.1).stack v.2.1)) s
  t.modCur fun g =>
    { g.settleStack with threads := g.threads.map fun x => 
                           { x with stack := slideDown n x.stack,
                                    badStack := (x.badStack.filter (n ≤ ·)).map (· - n) },
                         wsd := g.wsd + BitVec.ofNat 32 n, wb := g.tval.toNat - n }

/-- Perform a fill of `n` entries. -/
def State.windowFill (s : State) (n : Nat) (vas : List (Nat × (Nat × DWord))) : State :=
  let t := vas.foldl (fun t v => t.settle (Agent.ofCore s.cur.core) s.launch.desc s.launch.record .load v.2.2) s
  let slid := t.modCur fun g =>
    { g.settleStack with threads := g.threads.map fun x => 
                           { x with stack := slideUp n s.team.wal x.stack,
                                    badStack := (x.badStack.map (· + n)).filter (· < s.team.wal) },
                         wsd := g.wsd - BitVec.ofNat 32 n, wb := (g.tval.toInt + n).toNat }
  vas.foldl
    (fun u v =>
      let r := t.fillOne v.2.2
      u.modCur fun g => let h := g.setStack v.1 v.2.1 r.1; if r.2 then h.notePoison 0 (v.2.2 &&& ~~~63) else h)
    slid

/-- The places of the accesses of a spill or fill. -/
def State.windowPas (s : State) (acc : Access) (vas : List (Nat × (Nat × DWord))) : List Nat :=
  vas.filterMap fun v => match s.windowXlate acc v.2.2 with
    | .ok p => some p.pa
    | _ => none

/-- What a spill's stores come after: the group's earlier loads and, in the banks that they go to, its earlier stores (R278). A fill's
loads come after the accesses to the same lines (R67). The stores of the handler's own region, which goes on, are not waited for
(DESIGN CHOICE, log entry 36). -/
def State.windowWaits (s : State) (spill : Bool) (pas : List Nat) : Bool :=
  if spill then s.cur.count 0 != 0 || pas.any s.bankBusy else (pas.map (· / 64)).any s.lineBusy

/-- The conditions of R161 that raise the illegal-operand trap. -/
def State.windowOk (s : State) (spill : Bool) (n : Nat) : Bool :=
  let g := s.cur
  g.intrap && n % 2 == 0 && 2 ≤ n
    && (if spill then g.tcause.toNat == causeSpill && decide ((n : Int) ≤ g.tval.toInt)
          && decide (g.tval.toInt - n + 64 ≤ s.team.wal)
        else g.tcause.toNat == causeFill && decide (n ≤ g.wsd.toNat) && decide (0 ≤ g.tval.toInt + n)
          && decide (g.tval.toInt + n + 64 ≤ s.team.wal))

/-- `SWRITE` of `n` to wspill or wfill (R161). -/
def State.window (s : State) (spill : Bool) (n : Nat) : State :=
  let wsa := s.specialSeen 0x010 s.cur.wsa
  let wss := low32 (s.specialSeen 0x011 (zext64 s.cur.wss))
  let wsd := s.cur.wsd.toNat
  let vas := s.windowVas wsa wss (if spill then wsd else wsd - n) n
  if !s.windowOk spill n then s.badOperand
  else if spill && wss.toNat < 4 * (wsd + n) then s.trap causeProtect 0
  else if wsa.toNat % 4 ≠ 0 ∨ wss.toNat % 4 ≠ 0 then s.trap causeAlign (misalignedVa vas wsa)
  else
    let acc : Access := if spill then .store else .load
    match s.windowStop acc vas with
    | some (.fault _, va) => s.trap causePage va
    | some (.protect, va) => s.trap causeProtect va
    | some (_, va) => (s.settle (Agent.ofCore s.cur.core) s.launch.desc s.launch.record acc va).stallOn .pages stallRegion
    | none =>
      let pas := s.windowPas acc vas
      if s.windowWaits spill pas then s.stallOn (if spill then .banks pas else .lines (pas.map (· / 64))) stallBuffer
      else if spill && s.spillFlawed n then s.poisonTrap id s.cur.pc 1
      else ((if spill then s.windowSpill n vas else s.windowFill n vas)).finish 0

/-- `SWRITE`: the index is checked before anything is written. -/
def State.swriteAt (s : State) (a : Code) (i : Nat) : State :=
  s.uniformOp [⟨a.toNat, .wide⟩] fun s =>
    if !specialIndex i then s.badOperand
    else s.sound [0] [⟨a.toNat, .wide⟩] fun s =>
    if i = 0x013 ∨ i = 0x014 then s.window (i == 0x013) ((s.wide 0 a).toNat % 2 ^ 16)
    else (s.modCur fun g => g.writeSpecial i (s.wide 0 a)).finish 0

def execSwrite (a : Code) (index : BitVec 14) (s : State) : Out := .next (s.swriteAt a index.toNat)

def execSwriteEm (a : Code) (s : State) : Out := .next (s.swriteAt a 0x000)

def execSwriteFpc (a : Code) (s : State) : Out := .next (s.swriteAt a 0x002)

def execWspill (a : Code) (s : State) : Out := .next (s.swriteAt a 0x013)

def execWfill (a : Code) (s : State) : Out := .next (s.swriteAt a 0x014)

end Sys2Proof.Machine
end

