-- ==== Sys2Proof/Machine/Access.lean ====
section
/-! DEFINITION. What memory instructions share: addresses, the checks of R116, the bytes of the group's own stores, the
region store buffer, and the destinations of loads (R67, R68, R74, R78, R114 to R118, R257, R277, R368). -/

namespace Sys2Proof.Machine

/-! ### Operands -/

/-- The base field of a memory reference is valid (R74, R97). -/
def baseOk (uniform odd : Bool) (a : Nat) : Bool := isS a || (!uniform && isV a && (odd || a % 2 == 0))

/-- The base of an address in a lane. An odd v-register gives a 32-bit base (R268). -/
def State.base (s : State) (lane a : Nat) : DWord :=
  if isS a then s.sreg 1 (a - 64)
  else if a % 2 = 0 then pair64 (s.vreg 1 lane a) (s.vreg 1 lane (a + 1))
  else zext64 (s.vreg 1 lane a)

/-- The lanes that make an access: lane 0 alone for a uniform one. -/
def State.accessLanes (s : State) (uniform : Bool) : List Nat := if uniform then [0] else s.lanes

/-- The address of every lane. -/
def State.addresses (s : State) (uniform : Bool) (size : Nat) (a : Code) (units : DWord) : List (Nat × DWord) :=
  (s.accessLanes uniform).map fun l => (l, s.base l a.toNat + units * BitVec.ofNat 64 size)

/-- The shape of a register field that holds 4, 8 or 16 bytes. -/
inductive Shape where
  | word | pair | quad
  deriving DecidableEq, Repr

def Shape.bytes : Shape → Nat
  | .word => 4
  | .pair => 8
  | .quad => 16

/-- An s-register that has a successor. -/
def evenS (c : Nat) : Bool := 64 ≤ c && c ≤ 94 && c % 2 == 0

/-- A destination field (R78). -/
def Shape.dstOk (sh : Shape) (uniform : Bool) (d : Nat) : Bool :=
  match sh with
  | .word => (DstCls.w .zero).ok uniform d
  | .pair => DstCls.pair.ok uniform d
  | .quad => if uniform then evenS d else isV d && d % 4 == 0

/-- A data source field (R78, R115): a uniform store writes an s-register or `zero`. -/
def Shape.srcOk (sh : Shape) (uniform : Bool) (d : Nat) : Bool :=
  match sh with
  | .word => if uniform then isS d || d == codeZero else Src.ok false ⟨d, .w⟩
  | .pair => if uniform then isS d || d == codeZero else Src.ok false ⟨d, .pair⟩
  | .quad => (if uniform then evenS d else isV d && d % 4 == 0) || d == codeZero

/-- What a base field reads. -/
def baseSrcs (a : Nat) : List Src := [⟨a, if isS a then .s else if a % 2 = 0 then .pair else .v⟩]

/-- What a data source field reads. -/
def Shape.srcs (sh : Shape) (d : Nat) : List Src :=
  match sh with
  | .word => [⟨d, .w⟩]
  | .pair => [⟨d, .pair⟩]
  | .quad =>
    if isV d then (List.range 4).map fun i => ⟨d + i, .v⟩
    else if isS d then [⟨d, .s⟩, ⟨d + 1, .s⟩]
    else []

/-- The data of a store in a lane, as up to 16 bytes (R118). -/
def State.storeData (s : State) (sh : Shape) (lane d : Nat) : Nat :=
  match sh with
  | .word => (s.source lane [] 0 ⟨d, .w⟩).toNat
  | .pair => (s.source lane [] 0 ⟨d, .pair⟩).toNat
  | .quad =>
    if isV d then
      (pair64 (s.vreg 0 lane d) (s.vreg 0 lane (d + 1))).toNat
        + 2 ^ 64 * (pair64 (s.vreg 0 lane (d + 2)) (s.vreg 0 lane (d + 3))).toNat
    else if isS d then (s.sreg 0 (d - 64)).toNat + 2 ^ 64 * (s.sreg 0 (d - 63)).toNat
    else 0

/-- Where a loaded value goes. -/
def State.loadDst (s : State) (sh : Shape) (d : Nat) : Dst :=
  if isV d then .v (s.cur.wb + d) (sh.bytes / 4)
  else if isS d then s.sDst d (if sh = .quad then 2 else 1)
  else if isPort d then .port (d - 100)
  else .none

/-- The ports that a data source pops. -/
def dataPops (sh : Shape) (d : Nat) : List Nat := if sh = .word && isPort d then [d - 100] else []

/-- Step 4 of R103: the scope is within the launch's maximum. -/
def State.scopeOk (s : State) (scope : Nat) : Bool := scope ≤ 1 || scope ≤ s.launch.record.maxsc

/-- Run `f` unless the scope is too wide. -/
def State.withScope (s : State) (scope : Nat) (f : State → State) : State :=
  if s.scopeOk scope then f s else s.trap causeScope (BitVec.ofNat 64 scope)

/-! ### The checks of R116 -/

/-- What the checks of an access answer. -/
inductive Checked where
  | ok (places : List (Nat × (DWord × Placed))) (s : State)
  | trap (cause : Nat) (tval : DWord)
  | fault (va : DWord) (info : Nat)
  | wait (s : State)

/-- Translate for the group in focus. -/
def State.xlate (s : State) (acc : Access) (va : DWord) : Xlate :=
  s.translate (Agent.ofCore s.cur.core) s.launch.desc s.launch.record acc va

def State.settleVa (s : State) (acc : Access) (va : DWord) : State :=
  s.settle (Agent.ofCore s.cur.core) s.launch.desc s.launch.record acc va

/-- The places of lanes whose translations all succeed. -/
def placesOf (xs : List (Nat × (DWord × Xlate))) : List (Nat × (DWord × Placed)) :=
  xs.filterMap fun e =>
    match e.2.2 with
    | .ok p => some (e.1, (e.2.1, p))
    | _ => none

/-- The first lane whose translation gives no place. -/
def firstStop (xs : List (Nat × (DWord × Xlate))) : Option (DWord × Xlate) :=
  xs.findSome? fun e =>
    match e.2.2 with
    | .ok _ => none
    | x => some (e.2.1, x)

/-- The checks of R116, in their order, over every lane. -/
def State.checkAccess (s : State) (acc : Access) (size : Nat) (eas : List (Nat × DWord)) : Checked :=
  match eas.find? fun e => !aligned e.2 size with
  | some e => .trap causeAlign e.2
  | none =>
    match eas.find? fun e => !canonical e.2 with
    | some e => .trap causeProtect e.2
    | none =>
      let xs := eas.map fun e => (e.1, (e.2, s.xlate acc e.2))
      match firstStop xs with
      | some (va, .protect) => .trap causeProtect va
      | some (va, .fault info) => .fault va info
      | some (va, _) => .wait (s.settleVa acc va)
      | none => .ok (placesOf xs) (eas.foldl (fun t e => t.settleVa acc e.2) s)

/-! ### What an access carries -/

/-- An atomic of the group that began after a store is in flight to the byte that the store wrote. -/
def Flight.outdates (f : Flight) (pa : Nat) (before : List Nat) : Bool :=
  !before.contains f.tag && f.touches pa 1 && (match f.kind with
    | .atomic _ _ _ _ _ _ => true
    | .returned _ _ _ _ _ _ _ _ => true
    | _ => false)

/-- The bytes that a load takes from the group's own stores: none that an atomic between the two will change (R67, R264). -/
def State.forwards (s : State) (pa size : Nat) : List (Option Byte) :=
  let mine := s.writeBuf.filter (·.group == s.cur.id)
  (List.range size).map fun i =>
    match newestStore s.cur.storeBuf mine (pa + i) with
    | some e => if s.cur.flights.any fun f => f.outdates (pa + i) e.2 then none else some e.1
    | none => none

/-- The accesses of the lanes at their places, with their operands. -/
def State.laneAccs (s : State) (size : Nat) (places : List (Nat × (DWord × Placed))) (opnd : Nat → DWord × DWord) :
    List LaneAcc :=
  places.map fun e =>
    { lane := e.1, va := e.2.1, pa := e.2.2.pa, home := e.2.2.home, opnd := (opnd e.1).1, opnd2 := (opnd e.1).2,
      fwd := s.forwards e.2.2.pa size, tbl := e.2.2.tbl }

/-! ### The region store buffer (R277, R368) -/

/-- The operations that a later store waits for (R278). -/
def Group.loadTags (g : Group) : List Nat := (g.flights.filter fun f => f.path == 0).map (·.tag)

/-- The lists of two lists of numbers together. -/
def unionNat (xs ys : List Nat) : List Nat := ys.foldl (fun acc y => if acc.contains y then acc else acc ++ [y]) xs

/-- Merge bytes into the newest entry of their line where it is uncommitted and of the same home, or add an entry. -/
def mergeStore (new : StoreLine) : List StoreLine → List StoreLine
  | [] => [new]
  | l :: rest =>
    if l.line = new.line ∧ l.home = new.home ∧ l.committed = false ∧ (rest.any fun x => x.line == new.line) = false then
      { l with mask := l.mask ||| new.mask, data := mergeLine new.mask l.data new.data, scope := Nat.max l.scope new.scope,
               tbl := unionNat l.tbl new.tbl, after := unionNat l.after new.after } :: rest
    else l :: mergeStore new rest

/-- The entry that one lane's store makes. -/
def storeLine (size scope : Nat) (after : List Nat) (x : Nat) (p : Placed) : StoreLine :=
  let b := placeBytes (p.pa % 64) size x
  { line := p.pa / 64, home := p.home, mask := b.1, data := b.2, scope := scope, tbl := p.tbl, after := after, committed := false }

/-- The lanes' stores in the region store buffer, in lane order (R68). -/
def bufferStores (size scope : Nat) (after : List Nat) (buf : List StoreLine) (xs : List (Nat × Placed)) : List StoreLine :=
  xs.foldl (fun b e => mergeStore (storeLine size scope after e.1 e.2) b) buf

/-- A line from which translations are cached (R253). -/
def State.isTable (s : State) (p : Placed) : Bool := s.tableLines.contains (p.pa / 64)

/-- A store or atomic of a scope is performed where walks read the tables (R252, R253). -/
def State.reachesTables (s : State) (scope : Nat) (p : Placed) : Bool :=
  decide (tableScope p.pa ≤ scope) || s.uncachedLine p.home (p.pa / 64)

/-- Lines of tables are about to be written: translations from what they hold now stay cached until the write is acknowledged
(R253). -/
def State.keepOld (s : State) (lines : List Nat) : State :=
  { s with oldTables := s.oldTables ++ lines.eraseDups.map fun l => (l, (s.devLine l).1) }

/-- Perform one lane's store at its scope. -/
def State.storeNow (s : State) (size scope x : Nat) (p : Placed) : State :=
  s.storeBytes (Agent.ofCore s.cur.core) scope p.home p.pa size x

end Sys2Proof.Machine
end

