-- ==== Sys2Proof/Machine/Record.lean ====
section
/-! DEFINITION. Context descriptors, launch records and completion counters: their fields, how the device reads them, and
the atomic that a completion performs (R353, R395, R398, R399, R401, R404). -/

namespace Sys2Proof.Machine

/-! ### Fields -/

/-- A context descriptor from its 64 bytes (R395). -/
def CtxDesc.ofNat (x : Nat) : CtxDesc :=
  { ivec := nfield x 398 12, sig := nfield x 396 2, pfr := nfield x 384 8, nslot := nfield x 352 32,
    slsz := nfield x 320 32, pool := nfield x 256 64, rpa := nfield x 192 64, fqa := nfield x 128 64,
    hva := BitVec.ofNat 64 (nfield x 64 64), root := nfield x 0 64 }

/-- Its reserved fields are 0 and sig is 0 or 1. -/
def CtxDesc.clean (x : Nat) : Bool := nfield x 410 102 == 0 && nfield x 392 4 == 0 && nfield x 396 2 ≤ 1

/-- A launch record from its 128 bytes (R399). -/
def LaunchRec.ofNat (x : Nat) : LaunchRec :=
  { entry := BitVec.ofNat 64 (nfield x 960 64), ctx := nfield x 912 16, dstrict := x.testBit 907,
    poison := x.testBit 906, pclass := x.testBit 905, prio := nfield x 903 2, maxsc := nfield x 900 3,
    ring := x.testBit 899, coh := nfield x 896 3, spb := nfield x 864 32, dprec := x.testBit 863,
    mctx := x.testBit 862, pspan := x.testBit 861, wal := nfield x 852 9, reqw := nfield x 844 8,
    nthr := nfield x 832 12, gz := nfield x 816 16, gy := nfield x 800 16, gx := nfield x 768 32,
    rvec := BitVec.ofNat 64 (nfield x 704 64), hoffset := nfield x 640 64, hlimit := nfield x 576 64,
    hbase := nfield x 512 64, thr1 := nfield x 448 48, thr0 := nfield x 384 48,
    dep1 := BitVec.ofNat 64 (nfield x 320 64), dep0 := BitVec.ofNat 64 (nfield x 256 64),
    ctr := BitVec.ofNat 64 (nfield x 192 64), live := BitVec.ofNat 64 (nfield x 128 64),
    sched := BitVec.ofNat 64 (nfield x 64 64), code := BitVec.ofNat 64 (nfield x 0 64) }

/-- Its reserved fields are 0. -/
def LaunchRec.clean (x : Nat) : Bool :=
  nfield x 928 32 == 0 && nfield x 908 4 == 0 && nfield x 496 16 == 0 && nfield x 432 16 == 0

def LaunchRec.teams (r : LaunchRec) : Nat := r.gx * r.gy * r.gz

/-- The least grant of a launch (R167); 128 where no width holds the team. -/
def LaunchRec.gmin (r : LaunchRec) : Nat :=
  let most := if r.pspan then 64 else 32
  if ceilDiv r.nthr 16 ≤ most then 16 else if ceilDiv r.nthr 32 ≤ most then 32 else if ceilDiv r.nthr 64 ≤ most then 64 else 128

/-- The first instruction of each team (R400). -/
def LaunchRec.start (r : LaunchRec) : DWord := if r.entry = 0 then r.code else r.entry

/-! ### Reading -/

/-- Bytes as a hub reads them at SYS scope, line by line, and whether any line is poisoned. -/
def State.hubNum (s : State) (hub pa n : Nat) : Nat × Bool :=
  let bs := (List.range n).map fun i => (s.loadBytes (Agent.ofHub hub) 7 .cached (pa + i) 1).1.headD 0
  (leNat bs, (List.range n).any fun i => (s.view (Agent.ofHub hub) 7 .cached ((pa + i) / 64)).2)

/-- What stands between a hub and bytes at physical addresses: nothing, a refusal by the host's translation, or a wait for that
translation, a flip or a rebuild, with the state that it leaves (R419, R433, R436). -/
inductive HubReach where
  | ready
  | refused
  | wait (s : State)

/-- An access of a hub to a line at SYS scope waits. -/
def State.hubHeld (s : State) (acc : Access) (line : Nat) : Bool := s.heldUp (acc != .load) 16 7 line

/-- A hub's access to `n` bytes, at most 64. -/
def State.hubReach (s : State) (hub : Nat) (acc : Access) (pa n : Nat) : HubReach :=
  let a := Agent.ofHub hub
  let last := pa + n - 1
  match s.atsCheck a acc pa, s.atsCheck a acc last with
  | some (.ats h p), _ => .wait (s.noteAts h p)
  | none, some (.ats h p) => .wait (s.noteAts h p)
  | none, none => if s.hubHeld acc (pa / 64) || s.hubHeld acc (last / 64) then .wait s else .ready
  | _, _ => .refused

/-- The first of several accesses that cannot be made, if any. -/
def State.hubReachAll (s : State) (hub : Nat) : List (Access × (Nat × Nat)) → HubReach
  | [] => .ready
  | x :: rest =>
    match s.hubReach hub x.1 x.2.1 x.2.2 with
    | .ready => s.hubReachAll hub rest
    | r => r

def HubReach.isReady : HubReach → Bool
  | .ready => true
  | _ => false

def HubReach.waits : HubReach → Option State
  | .wait t => some t
  | _ => none

/-- An access of hub 0 to `n` bytes of a save slot, line by line. -/
def State.slotReach (s : State) (acc : Access) (pa n : Nat) : HubReach :=
  s.hubReachAll 0 ((List.range (ceilDiv n 64)).map fun i => (acc, (pa + 64 * i, 64)))

/-- Where the descriptor of a context lies. -/
def State.descPa (s : State) (ctx : Nat) : Nat := s.ctxBase.toNat + 64 * ctx

/-- The descriptor of a context, whether it is in order, and whether it is poisoned. -/
def State.readDesc (s : State) (ctx : Nat) : CtxDesc × Bool × Bool :=
  let r := s.hubNum 0 (s.descPa ctx) 64
  (CtxDesc.ofNat r.1, CtxDesc.clean r.1, r.2)

/-- Tables alone: a record with no heap window. -/
def tablesOnly : LaunchRec := LaunchRec.zero

/-- A record as it is read: its fields, whether they are clean, and whether its first or second line is poisoned. -/
structure ReadRec where
  desc : CtxDesc
  record : LaunchRec
  /-- reserved fields of the record and the descriptor are 0 -/
  clean : Bool
  poisoned : Bool

inductive RecordRead where
  | ok (r : ReadRec)
  /-- the record or its counter cannot be reached -/
  | unreachable
  /-- the read waits for a translation or a page that moves -/
  | wait (s : State)

/-- Translate for a hub. -/
def State.hubXlate (s : State) (hub : Nat) (d : CtxDesc) (r : LaunchRec) (acc : Access) (va : DWord) : Xlate :=
  if !canonical va then .protect else s.translate (Agent.ofHub hub) d r acc va

/-- A place that a hub's translation gives. -/
inductive HubPlace where
  | ok (p : Placed)
  | unreachable
  | wait (s : State)

/-- The place of an access of a hub. -/
def State.hubPlace (s : State) (hub : Nat) (d : CtxDesc) (r : LaunchRec) (acc : Access) (va : DWord) : HubPlace :=
  match s.hubXlate hub d r acc va with
  | .fault _ => .unreachable
  | .protect => .unreachable
  | .ats _ _ => .wait (s.settle (Agent.ofHub hub) d r acc va)
  | .pull _ _ _ => .wait (s.settle (Agent.ofHub hub) d r acc va)
  | .ok p => if s.hubHeld acc (p.pa / 64) then .wait s else .ok p

/-- The headers of a context's fault queue and reply area cannot be read yet. -/
def State.ringsWait (s : State) (hub : Nat) (d : CtxDesc) : Option State :=
  (s.hubReachAll hub [(.load, (d.fqa, 64)), (.load, (d.rpa, 64))]).waits

/-- A record whose two lines lie at the places given. -/
def State.recordAt (s : State) (hub : Nat) (d : CtxDesc) (descClean : Bool) (p q : Placed) : RecordRead :=
  let a := Agent.ofHub hub
  let x := (s.hubNum hub p.pa 64).1 + 2 ^ 512 * (s.hubNum hub q.pa 64).1
  let second := (s.view a 7 q.home (q.pa / 64)).2
  -- no value of a poisoned line is used (R451)
  let r := if second then { LaunchRec.ofNat x with hlimit := 0, hbase := 0 } else LaunchRec.ofNat x
  if (s.view a 7 p.home (p.pa / 64)).2 || r.ctr.toNat % 8 != 0 then .unreachable
  else
    match s.hubPlace hub d r .atomic r.ctr with
    | .unreachable => .unreachable
    | .wait t => .wait t
    | .ok _ =>
      match s.ringsWait hub d with
      | some t => .wait t
      | none => .ok { desc := d, record := r, clean := descClean && LaunchRec.clean x, poisoned := second }

/-- Read the record at `va` of a context, and check that its counter can be reached (R398). Each of its lines has a translation of
its own (R255). -/
def State.readRecord (s : State) (hub ctx : Nat) (va : DWord) : RecordRead :=
  if 4096 ≤ ctx ∨ va.toNat % 128 ≠ 0 then .unreachable
  else
    match s.hubReach 0 .load (s.descPa ctx) 64 with
    | .refused => .unreachable
    | .wait t => .wait t
    | .ready =>
      let d := s.readDesc ctx
      if d.2.2 then .unreachable
      else
        match s.hubPlace hub d.1 tablesOnly .load va, s.hubPlace hub d.1 tablesOnly .load (va + 64) with
        | .ok p, .ok q => s.recordAt hub d.1 d.2.1 p q
        | .wait t, _ => .wait t
        | .ok _, .wait t => .wait t
        | _, _ => .unreachable

/-- The accesses to a record have left their marks (R252). -/
def State.recordTouched (s : State) (hub ctx : Nat) (va : DWord) : State :=
  let d := (s.readDesc ctx).1
  [va, va + 64].foldl (fun t v => if canonical v then t.settle (Agent.ofHub hub) d tablesOnly .load v else t) s

/-! ### Counters (R353) -/

/-- The counter after one command or launch that counted `r` errors. -/
def counterAfter (r old : Nat) : Nat :=
  (nfield old 0 48 + 1) % 2 ^ 48 + Nat.min (nfield old 48 16 + r) 0xFFFF * 2 ^ 48

/-- One 8-byte atomic of a scope at a place. -/
def State.atomicAt (s : State) (a : Agent) (scope : Nat) (home : Home) (pa : Nat) (f : Nat → Nat) : State :=
  s.storeBytes a scope home pa 8 (f (leNat (s.loadBytes a scope home pa 8).1))

/-- What a read leaves behind, where it has begun to wait for something new. -/
def State.waitFrom (s t : State) : Option State := if t.atsMiss == s.atsMiss && t.pulls == s.pulls then none else some t

/-- Count on a completion counter of a launch at a scope; nothing where it cannot be reached. -/
def State.countAt (s : State) (a : Agent) (scope : Nat) (d : CtxDesc) (rec : LaunchRec) (ctr : DWord) (r : Nat) : State :=
  match (if canonical ctr then s.translate a d rec .atomic ctr else .protect) with
  | .ok p => (s.settle a d rec .atomic ctr).atomicAt a scope p.home p.pa (counterAfter r)
  | _ => s

/-- Count on a launch's completion counter at SYS (R404). -/
def State.countRecord (s : State) (hub : Nat) (d : CtxDesc) (rec : LaunchRec) (r : Nat) : State :=
  s.countAt (Agent.ofHub hub) 7 d rec rec.ctr r

/-- The count waits: for the host's translation, a line that moves, a flip or a rebuild (R255, R419, R433). -/
def State.countWaits (s : State) (hub : Nat) (d : CtxDesc) (rec : LaunchRec) : Option State :=
  match s.hubPlace hub d rec .atomic rec.ctr with
  | .wait t => some t
  | _ => none

/-- Count on a launch's completion counter, and go on; `none` while the count waits for nothing new. -/
def State.counted (s : State) (hub : Nat) (d : CtxDesc) (rec : LaunchRec) (r : Nat) (f : State → State) : Option State :=
  match s.countWaits hub d rec with
  | some t => s.waitFrom t
  | none => some (f (s.countRecord hub d rec r))

end Sys2Proof.Machine
end

