-- ==== Sys2Proof/Machine/Place.lean ====
section
/-! DEFINITION. Where teams fit: usable cores, pipes and register banks, grants, matrix contexts and page frames, the
admission of a record, and the creation of a team (R165 to R173, R323, R384, R389, R395, R400, R401, R405, R426). -/

namespace Sys2Proof.Machine

/-! ### Cores (R426, R427) -/

/-- A core that the fuses, the masks and the declared failures leave (R169, R426). -/
def State.coreCounted (s : State) (c : Nat) : Bool :=
  let d := s.die (dieOf c)
  decide (c < 512) && s.fuses.dmask.getLsbD (dieOf c) && s.stackPresent (dieOf c / 2) && (d.dstate == 1 || d.dstate == 4)
    && !d.cmask.getLsbD (clusterOf c % 4)

/-- A core on which teams are placed: a die that the host has drained stops taking placements. -/
def State.coreUsable (s : State) (c : Nat) : Bool := s.coreCounted c && (s.die (dieOf c)).dstate == 1

/-- One pipe of the core is fused off. -/
def State.fusedPipe (s : State) (c : Nat) : Bool := (s.die (dieOf c)).pfuse.getLsbD (8 * (clusterOf c % 4) + c % 8)

/-- The widest grant of a core (R172). -/
def State.coreCap (s : State) (c : Nat) : Nat := if s.fusedPipe c then 32 else 64

/-- The pair of a core is precision-degraded. -/
def State.pairDegraded (s : State) (c : Nat) : Bool :=
  (s.die (dieOf c)).pdeg.getLsbD (4 * (clusterOf c % 4) + c / 2 % 4)

/-- DEVCAP.dprec: some pair is precision-degraded (R426, R427). -/
def State.dprec (s : State) : Bool := s.fuses.dprec || s.dies.any fun e => e.2.pdeg != 0

/-- The core of group `i` of a team (R168). -/
def Team.coreOf (t : Team) (i : Nat) : Nat := if t.pspan then t.core + i % 2 else t.core

/-! ### Pipes and banks (R167, R405) -/

/-- A pipe: its number, its resident groups and the free bytes of its bank. -/
structure Pipe where
  no : Nat
  groups : Nat
  free : Nat

def bankBytes : Nat := 131072

/-- The pipes of an empty core. -/
def State.emptyPipes (s : State) (c : Nat) : List Pipe :=
  (List.range (if s.fusedPipe c then 3 else 4)).map fun p => ⟨p, 0, bankBytes⟩

/-- The register bytes of a group. -/
def State.regBytes (s : State) (g : Group) : Nat := 4 * ((s.team? g.team).getD Team.zero).wal * g.threads.length

/-- Put a group with `bytes` of registers on pipe `p`. -/
def putOn (p bytes : Nat) (ps : List Pipe) : List Pipe :=
  ps.map fun x => if x.no = p then { x with groups := x.groups + 1, free := x.free - bytes } else x

/-- The pipes of a core as the groups in `gs` fill them. -/
def State.pipesWith (s : State) (c : Nat) (gs : List Group) : List Pipe :=
  (gs.filter fun g => g.core == c).foldl (fun ps g => putOn g.pipe (s.regBytes g) ps) (s.emptyPipes c)

/-- The pipe with the fewest groups, the lowest number first. -/
def fewest (ps : List Pipe) : Option Pipe :=
  ps.foldl
    (fun best p => match best with
      | none => some p
      | some b => if p.groups < b.groups then some p else some b)
    none

/-- Assign groups with the thread counts given to pipes in turn; `none` when a bank is too small or the core would hold
more than 32 groups. -/
def assignPipes (wal : Nat) : List Nat → List Pipe → Option (List Nat)
  | [], _ => some []
  | n :: rest, ps =>
    match fewest ps with
    | none => none
    | some p =>
      if p.free < 4 * wal * n ∨ 32 ≤ (ps.map (·.groups)).sum then none
      else (assignPipes wal rest (putOn p.no (4 * wal * n) ps)).map (p.no :: ·)

/-- The elements of a list at the places that are `j` modulo `n`. -/
def every {α : Type} (n j : Nat) (xs : List α) : List α := ((xs.zipIdx).filter fun e => e.2 % n == j).map (·.1)

/-- Two lists taken in turn, the first one first. -/
def interleave {α : Type} : List α → List α → List α
  | [], ys => ys
  | x :: xs, ys =>
    match ys with
    | [] => x :: xs
    | y :: rest => x :: y :: interleave xs rest

/-- The pipes of the groups of a team over its cores. -/
def assignAll (wal : Nat) (counts : List Nat) : List (List Pipe) → Option (List Nat)
  | [ps] => assignPipes wal counts ps
  | [ps, qs] =>
    match assignPipes wal (every 2 0 counts) ps, assignPipes wal (every 2 1 counts) qs with
    | some xs, some ys => some (interleave xs ys)
    | _, _ => none
  | _ => none

/-! ### Slots, frames, contexts -/

/-- The team holds a place on a core. -/
def Team.onCore (t : Team) (c : Nat) : Bool := (coresOf t.pspan t.core).contains c

/-- The lowest slot free on every core given. -/
def State.freeSlot (s : State) (cores : List Nat) : Option Nat :=
  (List.range 16).find? fun k => cores.all fun c => s.teams.all fun t => !(t.onCore c && t.slot == k)

/-- A level-0 entry maps a page frame of the core (R247, R395). -/
def State.mapsFrame (s : State) (c : Nat) (e : DWord) : Bool :=
  let d := s.migDesc (pteFrame e) 12
  let moves := e.getLsbD 55
  let pa := if moves then d.new else pteFrame e
  pteHome e == .frame && !e.getLsbD 9 && !(moves && d.poisoned) && s.frameOk pa && nfield pa 21 9 == c

/-- The lines that something has written: those of host memory by the addresses that reach them too (R433). -/
def State.writtenLines (s : State) : List Nat :=
  let home := (s.mem.map (·.1 / 64)).eraseDups
  let page (n : Nat) := hostBase / 64 + 64 * n
  let moved := s.hostMap.flatMap fun e => (home.filter fun l => decide (page e.2 ≤ l) && decide (l < page (e.2 + 1))).map fun l =>
    page e.1 + l % 64
  (home ++ moved ++ s.hostLines.map (·.line) ++ s.copies.map (·.line)).eraseDups

/-- Those of a range of addresses. -/
def State.writtenIn (s : State) (pa n : Nat) : List Nat :=
  s.writtenLines.filter fun l => decide (pa ≤ 64 * l) && decide (64 * l < pa + n)

/-- The valid entries of a table of level `n` that no poisoned line holds. -/
def State.validEntries (s : State) (n table : Nat) : List DWord :=
  (s.writtenIn table (if n = 3 then 0x200000 else 0x1000)).flatMap fun l =>
    (List.range 8).filterMap fun i =>
      let w := s.word64 (64 * l + 8 * i)
      if w.1.getLsbD 0 && !w.2 && !s.pteBad w.1 n then some w.1 else none

/-- A leaf below a table of level `n - 1` maps a page frame of the core. -/
def State.tableMaps (s : State) (c : Nat) : Nat → Nat → Bool
  | 0, _ => false
  | n + 1, table => (s.validEntries n table).any fun e =>
      if e.getLsbD 1 then n == 0 && s.mapsFrame c e else s.tableMaps c n (pteFrame e)

/-- The table roots of the contexts that the device knows: those of launches, and those that the context table names. -/
def State.tableRoots (s : State) : List Nat :=
  (s.launches.map (·.desc.root) ++ (s.writtenIn s.ctxBase.toNat 0x40000).filterMap fun l =>
    let d := s.readDesc (l - s.ctxBase.toNat / 64)
    if d.2.2 then none else some d.1.root).eraseDups

/-- A core holds a mapped page frame: some context's tables map one (R395). -/
def State.frameMapped (s : State) (c : Nat) : Bool := s.tableRoots.any fun r => s.tableMaps c 4 r

/-- The page frames that a context needs are, or can be, set aside on a core (R395). -/
def State.framesFit (s : State) (pfr c : Nat) : Bool :=
  pfr == 0 || sget 0 s.frames c == pfr || ((s.teams.all fun t => !t.onCore c) && !s.frameMapped c)

/-- The bytes of a core's scratchpad that team allocations may use (R247). -/
def State.spLimit (s : State) (pfr c : Nat) : Nat := 786432 - 4096 * (if pfr = 0 then sget 0 s.frames c else pfr)

/-- `[base, base + spb)` is free in the scratchpad of a core. -/
def State.spOpen (s : State) (limit c spb base : Nat) : Bool :=
  decide (base + spb ≤ limit) && s.teams.all fun t =>
    !(t.core == c) || decide (t.spBase + t.spb ≤ base) || decide (base + spb ≤ t.spBase)

/-- The lowest place for an allocation in the scratchpad of the core that leads a team (R243, R271). -/
def State.spPlace (s : State) (pfr c spb : Nat) : Option Nat :=
  let ends := 0 :: (s.teams.filter fun t => t.core == c).map fun t => t.spBase + t.spb
  (ends.filter (s.spOpen (s.spLimit pfr c) c spb)).foldl
    (fun best x => match best with
      | none => some x
      | some b => some (Nat.min b x)) none

/-- The lowest matrix context of a core's pair that no team holds (R323). -/
def State.freeContext (s : State) (c : Nat) : Option Nat :=
  [0, 1].find? fun k => s.teams.all fun t => !(t.core / 2 == c / 2 && t.ctx == some k)

/-- The cores suit a launch: they satisfy `ok`, a pair begins at an even core, a matrix context has both cores of its pair,
and a launch without dprec has no precision-degraded pair (R323, R426). Those of a successor's record are held to the same, which R206
does not say (DESIGN CHOICE, log entry 93). -/
def State.suits (s : State) (ok : Nat → Bool) (r : LaunchRec) (c : Nat) : Bool :=
  (coresOf r.pspan c).all ok && !(r.pspan && c % 2 == 1) && (!r.mctx || (c % 2 == 0 && ok c && ok (c + 1)))
    && (r.dprec || !s.pairDegraded c)

/-! ### Grants (R172) -/

/-- The thread counts of the groups of `n` threads at width `w` (R166). -/
def countsAt (n w : Nat) : List Nat :=
  List.replicate (n / w) w ++ (if n % w = 0 then [] else [n % w])

/-- Where a team goes. -/
structure Placement where
  core : Nat
  slot : Nat
  base : Nat
  gw : Nat
  pipes : List Nat
  ctx : Option Nat

/-- The slot and the scratchpad place that a new team takes. -/
def State.freshSpot (s : State) (r : LaunchRec) (pfr c : Nat) : Option (Nat × Nat) :=
  match s.freeSlot (coresOf r.pspan c), s.spPlace pfr c r.spb with
  | some k, some base => some (k, base)
  | _, _ => none

/-- Place a team led by core `c`: `top` is the widest grant, `counts` the groups at each width, `kept` the slot and the
scratchpad place of a predecessor, which it keeps (R206). -/
def State.placeTeam (s : State) (r : LaunchRec) (pfr c top : Nat) (counts : Nat → List Nat) (kept : Option (Nat × Nat))
    (ctx : Option Nat) : Option Placement :=
  let cores := coresOf r.pspan c
  let cap := (cores.map s.coreCap).foldl Nat.min 64
  let ok := if kept.isSome then s.coreCounted else s.coreUsable
  if !s.suits ok r c || (r.mctx && ctx.isNone) || !(cores.all (s.framesFit pfr)) then none
  else
    match (match kept with | some k => some k | none => s.freshSpot r pfr c) with
    | none => none
    | some k =>
      [64, 32, 16].findSome? fun w =>
        if w ≤ top ∧ w ≤ cap ∧ r.gmin ≤ w then
          (assignAll r.wal (counts w) (cores.map fun x => s.pipesWith x s.groups)).map fun ps =>
            { core := c, slot := k.1, base := k.2, gw := w, pipes := ps, ctx := if r.mctx then ctx else none }
        else none

/-- Give each group of a team that moves or splits its pipe: that of the group it came from (R405), or where its core has
no such pipe, the one with the fewest groups. -/
def State.reseat (s : State) (t : Team) (gs : List Group) : List Group :=
  let rest := s.groups.filter fun g => g.team != t.id
  gs.foldl
    (fun done g =>
      let ps := s.pipesWith g.core (rest ++ done)
      done ++ [if ps.any (·.no == g.pipe) then g else { g with pipe := ((fewest ps).map (·.no)).getD 0 }])
    []

/-- The groups of a team at a width that fits: its groups leave their banks and the new ones take their own (R172). -/
def State.widthFits (s : State) (t : Team) (gs : List Group) : Bool :=
  let rest := s.groups.filter fun g => g.team != t.id
  (coresOf t.pspan t.core).all fun c =>
    let ps := s.pipesWith c rest
    ps.all fun p =>
      let mine := gs.filter fun g => g.core == c && g.pipe == p.no
      (mine.map fun g => 4 * t.wal * g.threads.length).sum ≤ p.free

/-! ### Creating a team (R166, R389, R400) -/

/-- Group `i` of a new team. -/
def newGroup (t : Team) (d : CtxDesc) (r : LaunchRec) (id i pipe time : Nat) : Group :=
  let n := Nat.min t.gw (r.nthr - i * t.gw)
  { Group.zero with
    id := id, live := true, team := t.id, gix := i, core := t.coreOf i, pipe := pipe, pc := r.start, rstart := r.start,
    threads := (List.range n).map fun j => Thread.new (i * t.gw + j), em := lowMask n, hva := d.hva, codeTime := time }

/-- Put the groups of a new team on their pipes. -/
def State.addGroups (s : State) (t : Team) (d : CtxDesc) (r : LaunchRec) (pipes : List Nat) : State :=
  let gs := pipes.zipIdx.map fun e => newGroup t d r (s.fresh + e.2) e.2 e.1 (s.draws + 1)
  { s with others := s.others ++ gs, fresh := s.fresh + pipes.length, draws := s.draws + 1 }

/-- A core takes the page frames of a context; frames newly set aside hold zeros (R395). -/
def State.setFrames (s : State) (pfr c : Nat) : State :=
  if pfr = 0 ∨ sget 0 s.frames c = pfr then s
  else
    { s with frames := sset 0 s.frames c pfr,
             mem := s.mem.filter fun e => !(decide (2 ^ 52 ≤ e.1) && nfield (e.1 - 2 ^ 52) 21 9 == c) }

/-- A team of a launch on the place given. -/
def newTeam (id launch tix : Nat) (r : LaunchRec) (p : Placement) (order : Nat) : Team :=
  { Team.zero with
    id := id, live := true, launch := launch, tix := tix, core := p.core, pspan := r.pspan, slot := p.slot, gw := p.gw,
    ngrp := p.pipes.length, nthr := r.nthr, wal := r.wal, spb := r.spb, spBase := p.base, ctx := p.ctx, placed := order,
    crank := if r.coh = 0 then 0 else tix }

/-- A launch has a team on the cores given: where it has run (R404), and since when (R287). -/
def Launch.runsOn (l : Launch) (cores : List Nat) (now : Nat) : Launch :=
  { l with cores := cores.foldl (fun cs c => ninsert c cs) l.cores, began := if l.cores.isEmpty then now else l.began }

/-- Create a team and its groups. -/
def State.addTeam (s : State) (t : Team) (d : CtxDesc) (r : LaunchRec) (pipes : List Nat) : State :=
  let u := (coresOf t.pspan t.core).foldl (fun u c => u.setFrames d.pfr c) s
  ({ u with teams := u.teams ++ [t] }.modLaunch t.launch fun l => l.runsOn (coresOf t.pspan t.core) (u.draws + 1)).addGroups t d r pipes

/-! ### Admission (R169, R170, R384, R401) -/

/-- How many teams of a launch an idle core, or pair, holds. The fuel bounds the count. -/
def idleFrom (wal : Nat) (counts : List (List Nat)) : Nat → List (List Pipe) → Nat
  | 0, _ => 0
  | n + 1, pss =>
    match counts.findSome? fun cs => (assignAll wal cs pss).map fun ps => (cs, ps) with
    | none => 0
    | some (cs, ps) =>
      let k := pss.length
      let next := pss.zipIdx.map fun e =>
        ((every k e.2 ps).zip (every k e.2 cs)).foldl (fun q x => putOn x.1 (4 * wal * x.2) q) e.1
      1 + idleFrom wal counts n next

/-- How many teams the slots, the matrix contexts and the scratchpad of an idle core leave room for. -/
def LaunchRec.room (r : LaunchRec) (pfr : Nat) : Nat :=
  let n := if r.mctx then 2 else 16
  if r.spb = 0 then n else Nat.min n ((786432 - 4096 * pfr) / r.spb)

/-- How many teams of a launch the core or pair led by `c` holds on an idle device. -/
def State.idleTeams (s : State) (r : LaunchRec) (pfr c : Nat) : Nat :=
  let cores := coresOf r.pspan c
  if !s.suits s.coreCounted r c then 0
  else
    let cap := (cores.map s.coreCap).foldl Nat.min 64
    let widths := [64, 32, 16].filter fun w => w ≤ r.reqw && w ≤ cap && r.gmin ≤ w
    idleFrom r.wal (widths.map (countsAt r.nthr)) (r.room pfr) (cores.map s.emptyPipes)

/-- The number of cores in an instance of a cohort level. -/
def levelCores (coh : Nat) : Nat :=
  match coh with
  | 2 => 8
  | 3 => 32
  | 4 => 64
  | 5 => 256
  | _ => 512

/-- The cohort could be resident at once within one instance of its level. -/
def State.cohortFits (s : State) (r : LaunchRec) (pfr : Nat) : Bool :=
  let n := levelCores r.coh
  (List.range (512 / n)).any fun i =>
    if r.ring then
      let m := if r.pspan then 4 else 8
      let k := if r.pspan then 2 else 1
      (List.range m).any fun c0 => (List.range r.teams).all fun j => 1 ≤ s.idleTeams r pfr (8 * i + k * ((c0 + j) % m))
    else r.teams ≤ ((List.range n).map fun j => s.idleTeams r pfr (n * i + j)).sum

/-- The bound of R384 on the save of one team. -/
def LaunchRec.saveBound (r : LaunchRec) : Nat :=
  roundUp (128 + 512 * ceilDiv r.nthr r.gmin + r.nthr * (128 + 4 * r.wal) + (if r.mctx then 32768 * 8 else 0) + r.spb) 64

/-- The number of teams saved together. -/
def LaunchRec.unitTeams (r : LaunchRec) : Nat := if r.coh = 0 then 1 else r.teams

/-- A ring of R372 and R374 has a capacity in range. -/
def capInRange (cap : Nat) : Bool := (List.range 17).any fun k => cap == 2 ^ (k + 4)

/-- The heap window obeys R248. -/
def State.windowLies (s : State) (r : LaunchRec) : Bool :=
  let m := 2 ^ 21
  let pa := (r.hbase + r.hoffset) % 2 ^ 52
  r.hlimit == 0 || (r.hbase % m == 0 && r.hlimit % m == 0 && r.hoffset % m == 0 && pa + r.hlimit ≤ dramEnd
    && (List.range 8).all fun k => s.stackPresent k || k < stackOfPa pa || stackOfPa (pa + r.hlimit - 1) < k)

/-- The fields of a record that stand alone are in range. -/
def LaunchRec.inRange (r : LaunchRec) : Bool :=
  r.ctx < 4096 && 1 ≤ r.maxsc && r.coh != 1 && r.coh != 7 && 64 ≤ r.wal && r.wal ≤ 256 && r.wal % 8 == 0
    && (r.reqw == 16 || r.reqw == 32 || r.reqw == 64) && 1 ≤ r.nthr && r.nthr ≤ (if r.pspan then 2048 else 1024)
    && 1 ≤ r.gx && 1 ≤ r.gy && 1 ≤ r.gz && r.teams < 2 ^ 32 && r.spb % 1536 == 0
    && r.code.toNat % 256 == 0 && r.sched.toNat % 256 == 0 && r.live.toNat % 256 == 0 && r.gmin ≤ r.reqw
    && (r.entry == 0 || (r.entry.toNat % 4 == 0 && r.code ≤ r.entry && decide (r.entry.toNat < r.code.toNat + 2 ^ 28)))
    && (!r.ring || (r.coh == 2 && decide (r.teams ≤ if r.pspan then 4 else 8)))

/-- The header of a ring can be read, and its capacity is in range. No value of a poisoned line is used (R372, R374, R451). -/
def State.ringOk (s : State) (hub pa : Nat) : Bool :=
  let x := s.hubNum hub pa 64
  (s.hubReach hub .load pa 64).isReady && !x.2 && capInRange (nfield x.1 0 32)

/-- A record is admitted (R401). -/
def State.admissible (s : State) (hub ctx : Nat) (x : ReadRec) : Bool :=
  let r := x.record
  let d := x.desc
  x.clean && !x.poisoned && r.ctx == ctx && r.inRange && s.windowLies r && d.pfr ≤ 192
    && r.spb ≤ 786432 - 4096 * d.pfr && d.pool % 64 == 0 && d.root % 2 ^ 21 == 0 && d.slsz % 64 == 0
    && 64 + r.unitTeams * r.saveBound ≤ d.slsz
    && s.ringOk hub d.fqa && s.ringOk hub d.rpa
    && (!r.mctx || (List.range 256).any fun k => 1 ≤ s.idleTeams r d.pfr (2 * k))
    && (r.coh == 0 || s.cohortFits r d.pfr)

/-- Degraded precision is in force for a launch (R426). -/
def State.degradedFor (s : State) (r : LaunchRec) : Bool := r.dprec && s.dprec

/-- A launch that has just been admitted, or that a successor team starts. -/
def newLaunch (id : Nat) (s : State) (x : ReadRec) (va : DWord) (queue : Option Nat) : Launch :=
  { Launch.zero with
    id := id, record := x.record, desc := x.desc, degraded := s.degradedFor x.record,
    stage := if queue.isNone then .running else .waiting, queue := queue, recva := va, viaExit := queue.isNone }

end Sys2Proof.Machine
end

