-- ==== Sys2Proof/Machine/Reslice.lean ====
section
/-! DEFINITION. Re-slicing a team to another width and repacking it (R168, R174, R175, R199, R228, R229). -/

namespace Sys2Proof.Machine

/-- The part of a mask that belongs to piece `i` of width `w`. -/
def sliceMask (m : LaneMask) (i w : Nat) : LaneMask := (m >>> (i * w)) &&& lowMask w

/-- Results below their latency are settled by a re-slice; latches are not carried. -/
def Group.fresh (g : Group) : Group := { g with hazards := [], latches := 0, switch := true }

/-- Piece `i` of a group that is split to width `w`; only the first keeps the number. -/
def Group.piece (g : Group) (w i : Nat) : Group :=
  { g.fresh with
    id := if i = 0 then g.id else 0,
    threads := (g.threads.drop (i * w)).take w,
    em := sliceMask g.em i w,
    tem := if g.intrap then sliceMask g.tem i w else g.tem }

/-- The pieces of a group that hold a thread. -/
def Group.split (g : Group) (old w : Nat) : List Group :=
  ((List.range (old / w)).map (g.piece w)).filter fun x => !x.threads.isEmpty

/-- Masks side by side, the lowest first. -/
def joinMasks (w : Nat) (ms : List LaneMask) : LaneMask :=
  ms.zipIdx.foldl (fun (m : LaneMask) (e : LaneMask × Nat) => m ||| (e.1 <<< (e.2 * w : Nat))) 0

/-- Merge groups of width `w`; the first is the lowest. -/
def mergeGroups (w : Nat) (g : Group) (rest : List Group) : Group :=
  let all := g :: rest
  { g.fresh with
    threads := all.flatMap (·.threads),
    em := joinMasks w (all.map (·.em)),
    tem := if g.intrap then joinMasks w (all.map (·.tem)) else g.tem,
    fpc := all.foldl (fun (c : Word) x => c ||| (x.fpc &&& 0x1FC)) g.fpc,
    gstat := all.foldl (fun (c : Word) x => c ||| (x.gstat &&& 0x3)) g.gstat,
    flags := all.flatMap (·.flags),
    arrived := (all.flatMap (·.arrived)).eraseDups,
    ppath := all.foldl (fun (c : BitVec 6) x => c ||| x.ppath) 0,
    pva := ((all.find? (·.ppath != 0)).getD g).pva }

/-- Merge runs of `k` groups. The fuel is the number of groups. -/
def mergeRuns (w k : Nat) : Nat → List Group → List Group
  | 0, _ => []
  | _ + 1, [] => []
  | n + 1, g :: rest => mergeGroups w g (rest.take (k - 1)) :: mergeRuns w k n (rest.drop (k - 1))

/-- The live groups of a team, re-sliced from one width to another, without their new numbers. -/
def resliceGroups (old new : Nat) (gs : List Group) : List Group :=
  if new < old then gs.flatMap fun g => g.split old new
  else if old < new then mergeRuns old (new / old) gs.length gs
  else gs

/-- Number groups densely and put each on its core (R168). One that comes to another core prefetches there from now on (R163). -/
def Team.renumber (t : Team) (now : Nat) (gs : List Group) : List Group :=
  gs.mapIdx fun i g => { g with gix := i, core := t.coreOf i, codeTime := if g.core = t.coreOf i then g.codeTime else now }

/-- The live groups of a team at another width, numbered, on their cores and pipes. -/
def State.reslicedTo (s : State) (t : Team) (w : Nat) : List Group :=
  s.reseat t (t.renumber (s.draws + 1) (resliceGroups t.gw w (s.teamGroups t.id)))

/-- Give new groups their numbers. -/
def State.nameGroups (s : State) (gs : List Group) : State × List Group :=
  gs.foldl
    (fun acc g => if g.id = 0 then ({ acc.1 with fresh := acc.1.fresh + 1 }, acc.2 ++ [{ g with id := acc.1.fresh }])
      else (acc.1, acc.2 ++ [g]))
    (s, [])

/-- Put other groups in the place of a team's live groups. -/
def State.replaceGroups (s : State) (team : Nat) (gs : List Group) : State :=
  ({ s with draws := s.draws + 1 } : State).withGroups ((s.groups.filter fun g => !(g.team == team && g.live)) ++ gs)

/-- Re-slice a team to width `w`. -/
def State.reslice (s : State) (t : Team) (w : Nat) : State :=
  let gs := s.reslicedTo t w
  let r := s.nameGroups gs
  (r.1.setTeam { t with gw := w, ngrp := gs.length }).replaceGroups t.id r.2

/-- The largest width that `SETW` gives a team (R172). -/
def State.grantOf (s : State) (t : Team) (gmin request : Nat) : Nat :=
  let cap := ((coresOf t.pspan t.core).map s.coreCap).foldl Nat.min 64
  let ok := [64, 32, 16].filter fun w => w ≤ request && w ≤ cap && gmin ≤ w
    && (w ≤ t.gw || s.widthFits t (s.reslicedTo t w))
  ok.headD t.gw

/-- The threads of a list of groups whose em bit is 1, in team order, with their new positions (R199, R229). -/
def survivors (gs : List Group) : List Thread :=
  (gs.flatMap fun g => (g.threads.zipIdx.filter fun e => g.em.getLsbD e.2).map (·.1)).mapIdx fun i t => { t with pos := i }

/-- Group `i` of a repacked team. -/
def Group.repacked (g : Group) (gw i : Nat) (ts : List Thread) : Group :=
  let mine := (ts.drop (i * gw)).take gw
  { g.fresh with threads := mine, em := lowMask mine.length }

/-- Repack a team. -/
def State.repack (s : State) (t : Team) : State :=
  let gs := s.teamGroups t.id
  let ts := survivors gs
  let new := s.reseat t (t.renumber (s.draws + 1) (gs.mapIdx fun i g => g.repacked t.gw i ts))
  (s.setTeam { t with ngrp := ceilDiv ts.length t.gw, nthr := ts.length }).replaceGroups t.id new

end Sys2Proof.Machine
end

