-- ==== Sys2Proof/Machine/Team.lean ====
section
/-! DEFINITION. Group and team instructions: major 14 (R94, R197 to R208, R379). -/

namespace Sys2Proof.Machine

/-! ### Rendezvous (R197) -/

/-- The word of the rendezvous instruction at which a group stalls. -/
def Group.rendezvousWord (g : Group) : Word :=
  match g.wait with
  | .rendezvous _ _ w => w
  | _ => 0

/-- The operand of the rendezvous instruction at which a group stalls. -/
def Group.rendezvousOperand (g : Group) : DWord :=
  match g.wait with
  | .rendezvous _ x _ => x
  | _ => 0

/-- Run `f` in every group of a list, with each in focus in turn. -/
def State.inEach (s : State) (gs : List Nat) (f : State → State) : State :=
  gs.foldl (fun t g => ({ t with draws := t.draws + 1 }.inGroup g f)) s

/-- Every live group of the team takes a trap at its own instruction. -/
def State.trapTeam (s : State) (cause : Nat) (tval : Group → DWord) : State :=
  s.inEach ((s.teamGroups s.team.id).map (·.id)) fun t => t.trap cause (tval t.cur)

/-- The group in focus ends a rendezvous. -/
def State.passRendezvous (s : State) (b0 : DWord) : State :=
  (((s.finish b0).modCur fun g => { g with switch := true, latches := 0 }).startRegion).progress

/-- The buffered stores of the team's cores go to the point of the team's scope, so that every thread still sees its own
stores after it has moved (R67, R168). -/
def State.settleStores (s : State) (t : Team) : State :=
  let u := s.inEach ((s.teamGroups t.id).map (·.id)) fun x => x.release t.scope
  (coresOf t.pspan t.core).foldl (fun u c => if t.pspan then u.pullIn c 2 else u) u

/-- A rendezvous instruction: stall until every live group of the team stands at it and the team's counters are zero,
then run `effect`, which answers the state after the instruction in every group. -/
def State.rendezvous (s : State) (which : Nat) (operand : DWord) (effect : State → State) : State :=
  if s.cur.intrap then s.illegal
  else
    s.regionEnder fun s =>
      let t := s.stallAt (.rendezvous which operand s.issue.word) stallBarrier
      let gs := t.teamGroups t.team.id
      if t.watchdogIn t.cur then t.trap causeWatchdog 1
      else if !(gs.all fun g => g.wait.isRendezvous) then t
      else if gs.any fun g => g.pc != t.cur.pc then t.trapTeam causeIllegal fun g => zext64 g.rendezvousWord
      else if gs.any fun g => !g.flights.isEmpty then t
      else if (coresOf t.team.pspan t.team.core).any (fun c => t.heldLine c t.team.scope) then t
      else effect t

/-- End the rendezvous in every live group of the team. `b0` gives the value of each group. -/
def State.passAll (s : State) (team : Nat) (b0 : Group → DWord) : State :=
  s.inEach ((s.teamGroups team).map (·.id)) fun t => t.passRendezvous (b0 t.cur)

/-- Groups that would merge differ in wb or wsd (R198). -/
def mergeDiffers (k : Nat) : Nat → List Group → Bool
  | 0, _ => false
  | _ + 1, [] => false
  | n + 1, g :: rest =>
    (rest.take (k - 1)).any (fun x => x.wb != g.wb || x.wsd != g.wsd) || mergeDiffers k n (rest.drop (k - 1))

/-- The effect of `SETW`. -/
def State.setwEffect (s : State) : State :=
  let t := s.team
  let gs := s.teamGroups t.id
  let request := (match gs with
    | g :: _ => g.rendezvousOperand
    | [] => 0).toNat
  let bad := s.trapTeam causeOperand fun g => zext64 g.rendezvousWord
  if !(request == 16 || request == 32 || request == 64) || request < s.launch.record.gmin then bad
  else
    let w := s.grantOf t s.launch.record.gmin request
    if t.gw < w && mergeDiffers (w / t.gw) gs.length gs then bad
    else if w = t.gw then s.passAll t.id fun _ => 0
    else ((s.settleStores t).reslice t w).passAll t.id fun _ => 0

def execSetw (a : Code) (s : State) : Out :=
  .next (s.readOp [⟨a.toNat, .wide⟩] fun s => s.rendezvous 0 (s.wide 0 a) State.setwEffect)

/-- The effect of `REGROUP` with destination register `d` (R199). -/
def State.regroupEffect (d : Nat) (s : State) : State :=
  let t := s.team
  let gs := s.teamGroups t.id
  let same := match gs with
    | g :: rest => rest.all fun x => x.wb == g.wb && x.wsd == g.wsd
    | [] => true
  if !s.xEmpty t.id then s.trapTeam causeRill fun _ => 0
  else if !same then s.trapTeam causeOperand fun g => zext64 g.rendezvousWord
  else
    -- em as each group's own instruction reads it
    let seen := s.inEach (gs.map (·.id)) fun x => x.modCur fun g => { g with em := x.em }
    let u := ((seen.settleStores t).repack t).inEach (gs.map (·.id)) fun x =>
      (x.modCur fun g => g.writeS d (BitVec.ofNat 64 g.threads.length) 2)
    u.passAll t.id fun g => BitVec.ofNat 64 g.threads.length

/-! ### Team barriers (R200 to R202) -/

/-- Barrier `k` of a team, changed. -/
def Team.setBar (t : Team) (k : Nat) (b : Barrier) : Team := { t with bars := t.bars.set k b }

/-- Complete barrier `k` where its arrivals reach the thread count. -/
def State.settleBar (s : State) (team k : Nat) : State :=
  match s.team? team with
  | none => s
  | some t =>
    let b := t.bars.getD k Barrier.zero
    if s.teamThreads team ≤ b.count then
      (s.setTeam (t.setBar k { phase := b.phase + 1, count := 0 })).mapGroups (fun g => g.team == team)
        fun g => { g with arrived := g.arrived.filter fun e => e.1 != k }
    else s

def State.settleBars (s : State) (team : Nat) : State := (List.range 6).foldl (fun t k => t.settleBar team k) s

/-- The phase of a barrier of the group's team. -/
def State.barPhase (s : State) (k : Nat) : BitVec 16 := (s.team.bars.getD k Barrier.zero).phase

/-- The group in focus arrives at barrier `k`. -/
def State.arrive (s : State) (k : Nat) : State :=
  let t := s.team
  let b := t.bars.getD k Barrier.zero
  let u := (s.setTeam (t.setBar k { b with count := b.count + s.cur.threads.length })).modCur fun g =>
    { g with arrived := (k, b.phase) :: g.arrived.filter fun e => e.1 != k }
  u.settleBar t.id k

/-- Take back the arrival of a group that stalls at `BAR.SYNC`: it will arrive again when it issues the instruction
again (R379, R382). -/
def State.withdrawBar (s : State) (k : Nat) : State :=
  let t := s.team
  let b := t.bars.getD k Barrier.zero
  (s.setTeam (t.setBar k { b with count := b.count - s.cur.threads.length })).modCur fun g =>
    { g with arrived := g.arrived.filter fun e => e.1 != k }

/-- The phase that the group waits for needs the threads of a group that is in its handler for cause 9 (R379). -/
def State.barNeedsTrapped (s : State) (k : Nat) : Bool :=
  s.groups.any fun x => x.team == s.cur.team && x.id != s.cur.id && x.live && x.intrap
    && x.tcause.toNat == causeWatchdog && !(x.arrived.any fun e => e.1 == k) && !x.threads.isEmpty

/-- Go on after a completed phase: an acquire at the scope, then a progress point. -/
def State.passBar (s : State) (scope : Nat) : State :=
  if !s.cur.loadsQuiet || s.heldLine s.cur.core scope then s.stallFor (.acquire scope) s.cur.wait stallBarrier
  else (((s.acquire scope).finish 0).startRegion).progress

/-- A release of a scope waits for nothing. -/
def State.releaseReady (s : State) (scope : Nat) : Bool := s.cur.quiet && !s.heldLine s.cur.core scope

/-- Release at a scope before an arrival, and then run `f`. -/
def State.afterRelease (s : State) (scope cause : Nat) (f : State → State) : State :=
  if s.releaseReady scope then f (s.release scope) else s.stallOn (.release scope) cause

/-- `BAR.SYNC` of a group that has arrived in `phase`. -/
def State.waitBar (s : State) (k : Nat) (phase : BitVec 16) : State :=
  if s.barPhase k ≠ phase then s.passBar s.team.scope
  else if s.barNeedsTrapped k then (s.withdrawBar k).trap causeWatchdog 1
  else s.stallAt (.bar k phase) stallBarrier

/-- `BAR.SYNC` and `BAR.ARV` (R201, R202). -/
def State.barCell (s : State) (sync : Bool) (a : Code) : State :=
  s.uniformOp [⟨a.toNat, .num 5⟩] fun s =>
    let k := a.toNat
    let arrives : State → State := fun s =>
      let phase := s.barPhase k
      if s.cur.arrived.contains (k, phase) then
        (if sync && s.barNeedsTrapped k then s.trap causeWatchdog 1 else s.stallOn (.arrived k sync) stallBarrier)
      else
        s.regionEnder fun s => s.afterRelease s.team.scope stallBarrier fun s =>
          let t := s.arrive k
          if sync then t.waitBar k phase else (t.finish 0).startRegion
    match s.cur.wait with
    | .bar j phase => if sync && j == k then s.waitBar k phase else arrives s
    | _ => arrives s

def execBarSync (a : Code) (s : State) : Out := .next (s.barCell true a)

def execBarArv (a : Code) (s : State) : Out := .next (s.barCell false a)

/-! ### The cohort barrier (R203) -/

/-- The live threads of a launch's teams. -/
def State.launchThreads (s : State) (l : Nat) : Nat :=
  ((s.teams.filter fun t => t.launch == l && t.live && !t.isSuccessor).map fun t => s.teamThreads t.id).sum

/-- A group of a launch's teams waits at `CBAR` in a phase. -/
def State.cbarWaiters (s : State) (launch : Nat) (phase : Word) : Bool :=
  s.groups.any fun g => g.live && g.wait == .cbar phase && (match s.team? g.team with
    | some t => t.launch == launch
    | none => false)

/-- Complete the `CBAR` phase of a launch where every live thread has arrived. -/
def State.settleCbar (s : State) (launch : Nat) : State :=
  match s.launch? launch with
  | none => s
  | some l =>
    if (l.ccount ≠ 0 ∨ s.cbarWaiters launch l.cphase = true) ∧ s.launchThreads launch ≤ l.ccount then
      s.setLaunch { l with cphase := l.cphase + 1, ccount := 0 }
    else s

/-- A group without threads may complete a phase by its arrival alone. -/
def State.arriveCbar (s : State) : State :=
  let l := { s.launch with ccount := s.launch.ccount + s.cur.threads.length }
  if s.launchThreads l.id ≤ l.ccount then s.setLaunch { l with cphase := l.cphase + 1, ccount := 0 } else s.setLaunch l

/-- The phase of the cohort barrier needs the threads of a group of the team that is in its handler for cause 9 (R379). -/
def State.cbarNeedsTrapped (s : State) : Bool :=
  s.groups.any fun x => x.team == s.cur.team && x.id != s.cur.id && x.live && x.intrap
    && x.tcause.toNat == causeWatchdog && x.wait != .cbar s.launch.cphase && !x.threads.isEmpty

def State.waitCbar (s : State) (phase : Word) : State :=
  if s.launch.cphase ≠ phase then s.passBar s.launch.record.coh
  else if s.cbarNeedsTrapped then
    (s.setLaunch { s.launch with ccount := s.launch.ccount - s.cur.threads.length }).trap causeWatchdog 1
  else s.stallAt (.cbar phase) stallBarrier

def execCbar (s : State) : Out :=
  .next (s.uniformOp [] fun s =>
    if s.launch.record.coh = 0 ∨ s.team.isSuccessor = true then s.illegal
    else
      match s.cur.wait with
      | .cbar phase => s.waitCbar phase
      | _ =>
        s.regionEnder fun s => s.syncing (5 ≤ s.launch.record.coh) fun s =>
          s.afterRelease s.launch.record.coh stallBarrier fun s =>
            let phase := s.launch.cphase
            s.arriveCbar.waitCbar phase)

/-- `REGROUP`. The threads that it retires count as arrived at every open phase (R199, R203). -/
def execRegroup (d : Code) (s : State) : Out :=
  .next (s.uniformOp [⟨d.toNat, .s⟩] fun s =>
    let t := s.rendezvous 1 0 (State.regroupEffect (d.toNat - 64))
    (t.settleBars s.cur.team).settleCbar s.team.launch)

/-! ### YIELD (R204) -/

def execYield (s : State) : Out :=
  .next (s.uniformOp [] fun s =>
    let t := (s.finish 0).modCur fun g => { g with switch := true }
    match t.pipeNext with
    | some g => t.passPipe g
    | none => t)

/-! ### EXIT (R205, R206) -/

/-- A team has ended: its scratchpad, its matrix context and its slot are free. -/
def State.endTeam (s : State) (t : Team) : State :=
  let u := { s with teams := s.teams.filter fun x => x.id != t.id }
  match u.launch? t.launch with
  | some l => u.setLaunch { l with ended := l.ended + 1 }
  | none => u

/-- The launch that a successor team of the record at `va` of a context belongs to: one that no team with its tix has been
part of. -/
def State.successorLaunch (s : State) (ctx : Nat) (va : DWord) (tix : Nat) : Option Launch :=
  s.launches.find? fun l => l.viaExit && l.record.ctx == ctx && l.recva == va && l.fault.isNone && !l.started.contains tix

/-- What a successor's record must share with its predecessor (R206). -/
def successorAgrees (r p : LaunchRec) (t : Team) : Bool :=
  r.pspan == t.pspan && r.mctx == t.ctx.isSome && r.spb ≤ t.spb && r.gx == p.gx && r.gy == p.gy && r.gz == p.gz
    && r.coh == 0 && !r.ring

/-- Refuse one successor team of a launch; the predecessor's allocation is freed. -/
def State.refuseSuccessor (s : State) (t : Team) (l : Launch) : State :=
  (s.setLaunch { l with refused := l.refused + 1, started := t.tix :: l.started }).endTeam t

/-- Start the successor of a team whose groups are gone, from a record that has been read. -/
def State.startSuccessor (s : State) (t : Team) (l : Launch) (valid : Bool) : State :=
  let p := ((s.launch? t.launch).getD Launch.zero).record
  if !valid || !successorAgrees l.record p t then s.refuseSuccessor t l
  else
    let room := { s with teams := s.teams.filter fun x => x.id != t.id }
    match room.placeTeam l.record l.desc.pfr t.core l.record.reqw (countsAt l.record.nthr) (some (t.slot, t.spBase)) t.ctx with
    | none => s.refuseSuccessor t l
    | some pl =>
      let n := s.number
      let new := { newTeam n.1 l.id t.tix l.record pl n.1 with
        scratch := t.scratch.filter fun e => decide (e.1 < l.record.spb),
        spoison := t.spoison.filter fun k => decide (64 * k < l.record.spb),
        acc := t.acc, isSuccessor := true }
      let u := (n.2.setLaunch { l with placed := l.placed + 1, started := t.tix :: l.started }).endTeam t
      let u := u.addTeam new l.desc l.record pl.pipes
      (coresOf new.pspan new.core).foldl (fun u c => u.pullIn c new.scope) u

/-- The last group of a team with successor value `v` has exited. -/
def State.lastExit (s : State) (t : Team) (ctx : Nat) (v : DWord) : State :=
  if v = 0 then s.endTeam t
  else
    match s.successorLaunch ctx v t.tix with
    | some l => s.startSuccessor t l (s.admissible 0 ctx ⟨l.desc, l.record, true, false⟩)
    | none =>
      let s := s.recordTouched 0 ctx v
      match s.readRecord 0 ctx v with
      | .ok x =>
        let n := s.number
        let l := newLaunch n.1 s x v none
        { n.2 with launches := n.2.launches ++ [l] }.startSuccessor t l (s.admissible 0 ctx x)
      | _ =>
        match s.launch? t.launch with
        | some p => (s.setLaunch { p with errors := p.errors + 1 }).endTeam t
        | none => s.endTeam t

/-- Whether the record at `v` can be read now; otherwise the state that its translation leaves. -/
def State.recordReady (s : State) (ctx : Nat) (v : DWord) (tix : Nat) : Option State :=
  if v = 0 then none
  else
    match s.successorLaunch ctx v tix with
    | some l => s.ringsWait 0 l.desc
    | none =>
      match s.readRecord 0 ctx v with
      | .wait t => some t
      | _ => none

/-- Retire the group in focus. -/
def State.retire (s : State) : State := { s with cur := Group.zero }

/-- What a wait of a hub's access stalls at. -/
def State.hubHold (s : State) : Hold := if s.atsMiss.isEmpty && s.pulls.isEmpty then .rebuild else .pages

/-- `EXIT` with successor value `n` (R205). A wait for scratchpad-side commands counts as a wait for eng. -/
def State.exitWith (s : State) (n : DWord) : State :=
  let t := s.team
  let ctx := s.launch.record.ctx
  if (match t.succ with
    | some v => n != v
    | none => false) then s.badOperand
  else
    let last := (s.teamGroups t.id).length = 1
    match (if last then s.recordReady ctx n t.tix else none) with
    | some u => u.stallOn u.hubHold stallQueue
    | none =>
      if last && s.scratchBusy t.id then s.stallOn .scratch 0x104
      else
      let t := { t with succ := some n }
      let u := ((s.release t.scope).setTeam t).retire
      let u := if last then u.lastExit t ctx n else u.settleBars t.id
      u.settleCbar t.launch

/-- The path whose counter an `EXIT` waits for. -/
def Group.busyPath (g : Group) : Option Nat := (List.range 6).find? fun k => g.count k != 0

def execExit (a : Code) (s : State) : Out :=
  .next (s.uniformOp [⟨a.toNat, .s⟩] fun s =>
    if s.cur.intrap then s.illegal
    else s.sound [0] [⟨a.toNat, .s⟩] fun s =>
      match s.cur.busyPath with
      | some k => s.stallOn (.path k 0) (0x101 + k)
      | none =>
        s.afterWait 0x3F fun s =>
          if s.heldLine s.cur.core s.team.scope then s.stallOn (.release s.team.scope) stallBuffer
          else s.regionEnder fun s => s.exitWith (s.wide 0 a))

/-! ### LAUNCH (R207) -/

def State.setQueue (s : State) (q : Nat) (x : Queue) : State :=
  { s with queues := (q, x) :: s.queues.filter (·.1 != q) }

/-- A device queue that a context may write (R397). -/
def Queue.takes (q : Queue) (ctx : Nat) : Bool := q.en && q.dev && q.ctx == ctx && capInRange (q.cap.toNat) && q.cap.toNat ≤ 65536

/-- The counter of eng rises and falls within the instruction; it falls in issue order (R65). -/
def State.touchEng (s : State) : State :=
  let tag := s.cur.nextTag
  (s.launchFlight 3 (.long .none [] 0)).modCur fun g => g.complete tag

/-- `LAUNCH` ends. -/
def State.launchDone (s : State) : State := ((s.touchEng.finish 0).startRegion).progress

/-- The record at `va` is refused: it counts where its counter can be reached. -/
def State.launchRefused (s : State) (ctx : Nat) (va : DWord) : State :=
  match s.readRecord 0 ctx va with
  | .wait t => t.stallOn t.hubHold stallQueue
  | .unreachable => (s.recordTouched 0 ctx va).launchDone
  | .ok r =>
    let t := s.recordTouched 0 ctx va
    match t.countWaits 0 r.desc r.record with
    | some u => u.stallOn u.hubHold stallQueue
    | none => (t.countRecord 0 r.desc r.record 1).launchDone

/-- Place a record in a queue, or count its refusal. A queue whose ring the host's translation refuses takes nothing (DESIGN
CHOICE, log entry 59). -/
def State.launchRecord (s : State) (x : DWord) : State :=
  let q := x.toNat % 128
  let va := x &&& ~~~127
  let ctx := s.launch.record.ctx
  let b := s.queue q
  if b.takes ctx then
    let pa := b.base + 8 * (b.wr.toNat % b.cap.toNat)
    if b.cap.toNat ≤ (b.wr - b.rd).toNat then s.stallOn (.queue q) stallQueue
    else
      match s.hubReach (q % 2) .store pa 8 with
      | .wait t => t.stallOn t.hubHold stallQueue
      | .refused => s.launchRefused ctx va
      | .ready =>
        let t := s.storeBytes (Agent.ofHub (q % 2)) 7 .cached pa 8 va.toNat
        (t.setQueue q { b with wr := b.wr + 1 }).launchDone
  else s.launchRefused ctx va

def execLaunch (a : Code) (s : State) : Out :=
  .next (s.readOp [⟨a.toNat, .s⟩] fun s =>
    s.raising 3 fun s => s.regionEnder fun s => s.afterRelease 6 stallBuffer fun s => s.launchRecord (s.wide 0 a))

end Sys2Proof.Machine
end

