-- ==== Sys2Proof/Machine/LoadStore.lean ====
section
/-! DEFINITION. Loads and stores: majors 15 and 16 (R95, R114 to R122, R253, R277, R367, R368, R371). -/

namespace Sys2Proof.Machine

/-- End a memory instruction: 0 in b0, a progress point, and, where it ended the region, the commit of what it stored
and the next region (R62, R367, R378). -/
def State.endAccess (s : State) (ends : Bool) : State :=
  let t := (s.finish 0).progress
  if ends then t.commit.startRegion else t

/-- After an acquire the group's next instruction stalls at issue until the access has returned, so it is a switch point (R63,
R267). -/
def State.heldAfter (s : State) (acquire : Bool) : State :=
  if acquire then s.modCur fun g => { g with switch := true, latches := 0 } else s

/-- An access of some lane crosses a link (R415). -/
def State.crosses (s : State) (scope : Nat) (places : List (Nat × (DWord × Placed))) : Bool :=
  places.any fun e => crossesLink s.cur.core scope e.2.2.home e.2.2.pa

/-! ### Loads -/

/-- A load cell. -/
structure LoadCell where
  size : Nat
  shape : Shape
  acquire : Bool
  invariant : Bool
  scope : Nat
  d : Code
  a : Code
  /-- the offset in access units -/
  units : DWord

/-- The form is uniform (R115). -/
def LoadCell.uniform (c : LoadCell) (s : State) : Bool := Kind.byDest.isUniform s.u c.d.toNat

/-- Steps 2 and 3 of R103. -/
def LoadCell.cause (c : LoadCell) (s : State) : Option Nat :=
  if !Kind.byDest.uOk s.u c.d.toNat then some causeIllegal
  else if !(c.shape.dstOk (c.uniform s) c.d.toNat && baseOk (c.uniform s) false c.a.toNat) then some causeOperand
  else none

/-- The operation that the load puts in flight. -/
def LoadCell.kind (c : LoadCell) (dst : Dst) (lanes : List LaneAcc) : FlightKind :=
  .load c.size dst c.scope c.acquire c.invariant lanes

/-- The load once its checks have passed. -/
def LoadCell.start (c : LoadCell) (s : State) (places : List (Nat × (DWord × Placed))) (ends : Bool) : State :=
  let dst := s.loadDst c.shape c.d.toNat
  let t := match dst with
    | .port p => s.reserveAll s s.em p fun l => .reserved s.cur.id (reserveKey s.cur.nextTag l)
    | _ => s
  ((t.launchFlight 0 (c.kind dst (s.laneAccs c.size places fun _ => (0, 0)))).endAccess ends).heldAfter c.acquire

/-- The checks of R116, then the load. A page fault inside a region is found later (R371). -/
def LoadCell.access (c : LoadCell) (ends : Bool) (s : State) : State :=
  match s.checkAccess .load c.size (s.addresses (c.uniform s) c.size c.a c.units) with
  | .trap cause tval => s.trap cause tval
  | .wait t => t.stallOn .pages stallRegion
  | .fault va info => if ends then s.park va 0 info else ((s.launchWalk va info (c.kind .none [])).endAccess false).heldAfter c.acquire
  | .ok places t => t.syncing (c.acquire && c.size ≤ 8 && t.crosses c.scope places) fun t => c.start t places ends

/-- A load that pushes its result ends the region and waits for room at its port (R217, R220). -/
def LoadCell.pushing (c : LoadCell) (s : State) : State :=
  s.throughPorts s.em [] (some (c.d.toNat - 100)) (c.access true)

def LoadCell.exec (c : LoadCell) (s : State) : State :=
  match c.cause s with
  | some cause => s.trap cause (zext64 s.issue.word)
  | none => s.withScope c.scope fun s => s.sound (s.accessLanes (c.uniform s)) (baseSrcs c.a.toNat) fun s =>
      s.raising 0 (if isPort c.d.toNat then c.pushing else c.access false)

/-- The load cells of R95. -/
def loadCell (size : Nat) (shape : Shape) (ord : BitVec 2) (inv : Bool) (scope : BitVec 3) (d a : Code) (units : DWord) :
    LoadCell :=
  { size := size, shape := shape, acquire := ord == 1, invariant := inv, scope := scope.toNat, d := d, a := a, units := units }

def execLdB (ord : BitVec 2) (scope : BitVec 3) (d a : Code) (off : BitVec 5) (s : State) : Out :=
  .next ((loadCell 1 .word ord false scope d a (zext64 off)).exec s)

def execLdH (ord : BitVec 2) (scope : BitVec 3) (d a : Code) (off : BitVec 5) (s : State) : Out :=
  .next ((loadCell 2 .word ord false scope d a (zext64 off)).exec s)

def execLdW (ord : BitVec 2) (scope : BitVec 3) (d a : Code) (off : BitVec 5) (s : State) : Out :=
  .next ((loadCell 4 .word ord false scope d a (zext64 off)).exec s)

def execLdD (ord : BitVec 2) (scope : BitVec 3) (d a : Code) (off : BitVec 5) (s : State) : Out :=
  .next ((loadCell 8 .pair ord false scope d a (zext64 off)).exec s)

def execLdQ (ord : BitVec 2) (scope : BitVec 3) (d a : Code) (off : BitVec 5) (s : State) : Out :=
  .next ((loadCell 16 .quad ord false scope d a (zext64 off)).exec s)

def execLdInvW (scope : BitVec 3) (d a : Code) (off : BitVec 5) (s : State) : Out :=
  .next ((loadCell 4 .word 0 true scope d a (zext64 off)).exec s)

def execLdInvD (scope : BitVec 3) (d a : Code) (off : BitVec 5) (s : State) : Out :=
  .next ((loadCell 8 .pair 0 true scope d a (zext64 off)).exec s)

def execLdInvQ (scope : BitVec 3) (d a : Code) (off : BitVec 5) (s : State) : Out :=
  .next ((loadCell 16 .quad 0 true scope d a (zext64 off)).exec s)

/-! ### Stores -/

/-- A store cell. -/
structure StoreCell where
  size : Nat
  shape : Shape
  release : Bool
  scope : Nat
  d : Code
  a : Code
  units : DWord

def StoreCell.uniform (c : StoreCell) (s : State) : Bool := Kind.byDest.isUniform s.u c.d.toNat

/-- Steps 2 and 3 of R103. -/
def StoreCell.cause (c : StoreCell) (s : State) : Option Nat :=
  if !Kind.byDest.uOk s.u c.d.toNat then some causeIllegal
  else if !(c.shape.srcOk (c.uniform s) c.d.toNat && baseOk (c.uniform s) false c.a.toNat) then some causeOperand
  else none

/-- The data and the place of each lane. -/
def StoreCell.data (c : StoreCell) (s : State) (places : List (Nat × (DWord × Placed))) : List (Nat × Placed) :=
  places.map fun e => (s.storeData c.shape e.1 c.d.toNat, e.2.2)

/-- Raise gst, take the pops and end the instruction. -/
def StoreCell.done (c : StoreCell) (s : State) (lines : List Nat) (sync ends : Bool) : State :=
  let t := (s.takePops s.em (dataPops c.shape c.d.toNat)).modCur (s.noteLatches s.em [c.d.toNat])
  (t.launchFlight 1 (.store lines sync)).endAccess ends

/-- A relaxed store enters the region store buffer (R277, R368). -/
def StoreCell.buffer (c : StoreCell) (s : State) (xs : List (Nat × Placed)) (ends : Bool) : State :=
  let buf := bufferStores c.size c.scope s.cur.loadTags s.cur.storeBuf xs
  if 32 < (buf.filter fun l => !l.committed).length then s.trap causeOverflow 32
  else if 32 < buf.length then s.stallOn (.room (buf.length - s.cur.storeBuf.length)) stallBuffer
  else c.done (s.modCur fun g => { g with storeBuf := buf }) [] false ends

/-- A store that bypasses the buffer is performed at once, lane by lane (R277). Below DEV scope its acknowledgement waits for
no translation (R253). -/
def StoreCell.now (c : StoreCell) (s : State) (xs : List (Nat × Placed)) (sync : Bool) : State :=
  let lines := (xs.filter fun e => s.isTable e.2 && s.reachesTables c.scope e.2).map fun e => e.2.pa / 64
  c.done (xs.foldl (fun t e => t.storeNow c.size c.scope e.1 e.2) (s.keepOld lines)) lines sync true

/-- A store to a line from which translations are cached ends the region and waits for the group's loads and for the
older lines of its bank (R253, R277, R278). -/
def StoreCell.table (c : StoreCell) (s : State) (xs : List (Nat × Placed)) : State :=
  s.regionEnder fun s =>
    if s.cur.count 0 ≠ 0 ∨ (xs.any fun e => s.bankBusy e.2.pa) = true 
    then s.stallOn (.banks (xs.map (·.2.pa))) stallBuffer else c.now s xs false

/-- The store past the checks of R116. -/
def StoreCell.start (c : StoreCell) (s : State) (places : List (Nat × (DWord × Placed))) (ends : Bool) : State :=
  let xs := c.data s places
  let sync := c.release && c.size ≤ 8 && s.crosses c.scope places
  if c.release then s.syncing sync fun s => s.afterRelease c.scope stallBuffer fun s => c.now s xs sync
  else if xs.any fun e => s.isTable e.2 then c.table s xs
  else c.buffer s xs ends

/-- The checks of R116, then the store. -/
def StoreCell.access (c : StoreCell) (ends : Bool) (s : State) : State :=
  match s.checkAccess .store c.size (s.addresses (c.uniform s) c.size c.a c.units) with
  | .trap cause tval => s.trap cause tval
  | .wait t => t.stallOn .pages stallRegion
  | .fault va info => if s.cur.walking then s.stall stallRegion else s.park va 1 info
  | .ok places t => c.start t places ends

/-- A release store, and a store that pops its data, end the region. -/
def StoreCell.ends (c : StoreCell) : Bool := c.release || !(dataPops c.shape c.d.toNat).isEmpty

def StoreCell.exec (c : StoreCell) (s : State) : State :=
  match c.cause s with
  | some cause => s.trap cause (zext64 s.issue.word)
  | none =>
    s.withScope c.scope fun s => s.sound (s.accessLanes (c.uniform s)) (c.shape.srcs c.d.toNat ++ baseSrcs c.a.toNat) fun s =>
      s.raising 1 fun s => if c.ends then s.throughPorts s.em (dataPops c.shape c.d.toNat) none (c.access true) else c.access false s

/-- The store cells of R95. -/
def storeCell (size : Nat) (shape : Shape) (ord : BitVec 2) (scope : BitVec 3) (d a : Code) (units : DWord) : StoreCell :=
  { size := size, shape := shape, release := ord == 2, scope := scope.toNat, d := d, a := a, units := units }

def execStB (ord : BitVec 2) (scope : BitVec 3) (d a : Code) (off : BitVec 5) (s : State) : Out :=
  .next ((storeCell 1 .word ord scope d a (zext64 off)).exec s)

def execStH (ord : BitVec 2) (scope : BitVec 3) (d a : Code) (off : BitVec 5) (s : State) : Out :=
  .next ((storeCell 2 .word ord scope d a (zext64 off)).exec s)

def execStW (ord : BitVec 2) (scope : BitVec 3) (d a : Code) (off : BitVec 5) (s : State) : Out :=
  .next ((storeCell 4 .word ord scope d a (zext64 off)).exec s)

def execStD (ord : BitVec 2) (scope : BitVec 3) (d a : Code) (off : BitVec 5) (s : State) : Out :=
  .next ((storeCell 8 .pair ord scope d a (zext64 off)).exec s)

def execStQ (ord : BitVec 2) (scope : BitVec 3) (d a : Code) (off : BitVec 5) (s : State) : Out :=
  .next ((storeCell 16 .quad ord scope d a (zext64 off)).exec s)

end Sys2Proof.Machine
end

