-- ==== Sys2Proof/Machine/Atomic.lean ====
section
/-! DEFINITION. Atomics: majors 17 and 18 (R96, R257 to R264). -/

namespace Sys2Proof.Machine

/-- An atomic cell. -/
structure AtomicCell where
  op : AtomOp
  /-- access size -/
  size : Nat
  /-- the shape of d -/
  shape : Shape
  acquire : Bool
  release : Bool
  scope : Nat
  d : Code
  a : Code
  units : DWord

def AtomicCell.uniform (c : AtomicCell) (s : State) : Bool := Kind.byDest.isUniform s.u c.d.toNat

/-- d is valid as operand and as destination (R259). -/
def AtomicCell.dOk (c : AtomicCell) (uniform : Bool) : Bool :=
  let d := c.d.toNat
  match c.shape with
  | .word => if uniform then isS d else isV d
  | .pair => if uniform then isS d else isV d && d % 2 == 0
  | .quad => if uniform then evenS d else isV d && d % 4 == 0

/-- Steps 2 and 3 of R103. -/
def AtomicCell.cause (c : AtomicCell) (s : State) : Option Nat :=
  if !Kind.byDest.uOk s.u c.d.toNat then some causeIllegal
  else if !(c.dOk (c.uniform s) && baseOk (c.uniform s) false c.a.toNat) then some causeOperand
  else none

/-- The operand, and for a compare-and-swap the compare value and the new value (R261). -/
def AtomicCell.operands (c : AtomicCell) (s : State) (lane : Nat) : DWord × DWord :=
  let x := s.storeData c.shape lane c.d.toNat
  (BitVec.ofNat 64 (x % 2 ^ (8 * c.size)), BitVec.ofNat 64 (x / 2 ^ (8 * c.size)))

/-- Where the old value goes: a compare-and-swap writes the low half of d alone. -/
def AtomicCell.dst (c : AtomicCell) (s : State) : Dst :=
  match s.loadDst c.shape c.d.toNat with
  | .v first words => .v first (if c.op = .cas then words / 2 else words)
  | .s handler first count =>
    if c.op = .cas then (if c.size = 4 then .sLow handler first else .s handler first 1) else .s handler first count
  | x => x

/-- The atomic once its checks have passed, and once its release is done (R263). -/
def AtomicCell.start (c : AtomicCell) (s : State) (places : List (Nat × (DWord × Placed))) : State :=
  ((s.launchFlight 0 (.atomic c.op c.size (c.dst s) c.scope c.acquire (s.laneAccs c.size places (c.operands s)))).endAccess true).heldAfter c.acquire

/-- The checks of R116, then the atomic. -/
def AtomicCell.access (c : AtomicCell) (s : State) : State :=
  match s.checkAccess .atomic c.size (s.addresses (c.uniform s) c.size c.a c.units) with
  | .trap cause tval => s.trap cause tval
  | .wait t => t.stallOn .pages stallRegion
  | .fault va info => s.park va 2 info
  | .ok places t =>
    t.syncing (c.size ≤ 8 && t.crosses c.scope places) fun t =>
      if c.release then t.afterRelease c.scope stallBuffer fun t => c.start t places else c.start t places

def AtomicCell.exec (c : AtomicCell) (s : State) : State :=
  match c.cause s with
  | some cause => s.trap cause (zext64 s.issue.word)
  | none =>
    s.withScope c.scope fun s => s.sound (s.accessLanes (c.uniform s)) (c.shape.srcs c.d.toNat ++ baseSrcs c.a.toNat) fun s =>
      s.raising 0 fun s => s.regionEnder c.access

/-- The atomic cells of R96. ord2 1 is `.ACQ`, 2 `.REL`, 3 `.AR` (R81). -/
def atomicCell (op : AtomOp) (size : Nat) (shape : Shape) (ord : BitVec 2) (scope : BitVec 3) (d a : Code) (units : DWord) :
    AtomicCell :=
  { op := op, size := size, shape := shape, acquire := ord.getLsbD 0, release := ord.getLsbD 1, scope := scope.toNat,
    d := d, a := a, units := units }

def execAtAddW (ord : BitVec 2) (scope : BitVec 3) (d a : Code) (off : BitVec 5) (s : State) : Out :=
  .next ((atomicCell .add 4 .word ord scope d a (zext64 off)).exec s)

def execAtAddD (ord : BitVec 2) (scope : BitVec 3) (d a : Code) (off : BitVec 5) (s : State) : Out :=
  .next ((atomicCell .add 8 .pair ord scope d a (zext64 off)).exec s)

def execAtMinW (ord : BitVec 2) (scope : BitVec 3) (d a : Code) (off : BitVec 5) (s : State) : Out :=
  .next ((atomicCell .min 4 .word ord scope d a (zext64 off)).exec s)

def execAtMaxW (ord : BitVec 2) (scope : BitVec 3) (d a : Code) (off : BitVec 5) (s : State) : Out :=
  .next ((atomicCell .max 4 .word ord scope d a (zext64 off)).exec s)

def execAtMinuW (ord : BitVec 2) (scope : BitVec 3) (d a : Code) (off : BitVec 5) (s : State) : Out :=
  .next ((atomicCell .minu 4 .word ord scope d a (zext64 off)).exec s)

def execAtMaxuW (ord : BitVec 2) (scope : BitVec 3) (d a : Code) (off : BitVec 5) (s : State) : Out :=
  .next ((atomicCell .maxu 4 .word ord scope d a (zext64 off)).exec s)

def execAtSwapW (ord : BitVec 2) (scope : BitVec 3) (d a : Code) (off : BitVec 5) (s : State) : Out :=
  .next ((atomicCell .swap 4 .word ord scope d a (zext64 off)).exec s)

def execAtCasW (ord : BitVec 2) (scope : BitVec 3) (d a : Code) (off : BitVec 5) (s : State) : Out :=
  .next ((atomicCell .cas 4 .pair ord scope d a (zext64 off)).exec s)

def execAtAndW (ord : BitVec 2) (scope : BitVec 3) (d a : Code) (off : BitVec 5) (s : State) : Out :=
  .next ((atomicCell .and 4 .word ord scope d a (zext64 off)).exec s)

def execAtOrW (ord : BitVec 2) (scope : BitVec 3) (d a : Code) (off : BitVec 5) (s : State) : Out :=
  .next ((atomicCell .or 4 .word ord scope d a (zext64 off)).exec s)

def execAtXorW (ord : BitVec 2) (scope : BitVec 3) (d a : Code) (off : BitVec 5) (s : State) : Out :=
  .next ((atomicCell .xor 4 .word ord scope d a (zext64 off)).exec s)

def execAtSwapD (ord : BitVec 2) (scope : BitVec 3) (d a : Code) (off : BitVec 5) (s : State) : Out :=
  .next ((atomicCell .swap 8 .pair ord scope d a (zext64 off)).exec s)

def execAtCasD (ord : BitVec 2) (scope : BitVec 3) (d a : Code) (off : BitVec 5) (s : State) : Out :=
  .next ((atomicCell .cas 8 .quad ord scope d a (zext64 off)).exec s)

def execAtFaddF32 (ord : BitVec 2) (scope : BitVec 3) (d a : Code) (off : BitVec 5) (s : State) : Out :=
  .next ((atomicCell .fadd 4 .word ord scope d a (zext64 off)).exec s)

def execAtFminF32 (ord : BitVec 2) (scope : BitVec 3) (d a : Code) (off : BitVec 5) (s : State) : Out :=
  .next ((atomicCell .fmin 4 .word ord scope d a (zext64 off)).exec s)

def execAtFmaxF32 (ord : BitVec 2) (scope : BitVec 3) (d a : Code) (off : BitVec 5) (s : State) : Out :=
  .next ((atomicCell .fmax 4 .word ord scope d a (zext64 off)).exec s)

/-! ### Performing one access (R260 to R262) -/

/-- The new value from the old value and the operands; `none` where nothing is stored. -/
def AtomOp.apply (op : AtomOp) (old opnd opnd2 : DWord) : Option DWord :=
  let a := low32 old
  let b := low32 opnd
  let fp (r : Nat × FpFlags) : DWord := BitVec.ofNat 64 r.1
  match op with
  | .add => some (old + opnd)
  | .min => some (zext64 (if b.slt a then b else a))
  | .max => some (zext64 (if a.slt b then b else a))
  | .minu => some (zext64 (if b.ult a then b else a))
  | .maxu => some (zext64 (if a.ult b then b else a))
  | .swap => some opnd
  | .cas => if old = opnd then some opnd2 else none
  | .and => some (old &&& opnd)
  | .or => some (old ||| opnd)
  | .xor => some (old ^^^ opnd)
  | .fadd => some (fp (f32.add 0 a.toNat b.toNat))
  | .fmin => some (fp (f32.minmax false a.toNat b.toNat))
  | .fmax => some (fp (f32.minmax true a.toNat b.toNat))

end Sys2Proof.Machine
end

