-- ==== Sys2Proof/Machine/Spm.lean ====
section
/-! DEFINITION. Scratchpad loads and stores: major 19 (R97, R268 to R271). -/

namespace Sys2Proof.Machine

/-- A scratchpad cell. -/
structure SpmCell where
  size : Nat
  shape : Shape
  d : Code
  a : Code
  units : DWord

def SpmCell.uniform (c : SpmCell) (s : State) : Bool := Kind.byDest.isUniform s.u c.d.toNat

/-- Steps 2 and 3 of R103; `load` for `SLD`. -/
def SpmCell.cause (c : SpmCell) (load : Bool) (s : State) : Option Nat :=
  let u := c.uniform s
  let dOk := if load then c.shape.dstOk u c.d.toNat else c.shape.srcOk u c.d.toNat
  if !Kind.byDest.uOk s.u c.d.toNat then some causeIllegal
  else if !(dOk && baseOk u true c.a.toNat) then some causeOperand
  else none

/-- The checks of R268 over every lane: the trap, if any. -/
def State.checkScratch (s : State) (size : Nat) (eas : List (Nat × DWord)) : Option (Nat × DWord) :=
  match eas.find? fun e => !aligned e.2 size with
  | some e => some (causeAlign, e.2)
  | none => (eas.find? fun e => s.team.spb < e.2.toNat + size).map fun e => (causeProtect, e.2)

/-- Run `f` with the scratchpad addresses of the lanes. -/
def SpmCell.checked (c : SpmCell) (s : State) (f : List (Nat × Nat) → State) : State :=
  let eas := s.addresses (c.uniform s) c.size c.a c.units
  match s.checkScratch c.size eas with
  | some t => s.trap t.1 t.2
  | none => f (eas.map fun e => (e.1, e.2.toNat))

/-- The distinct words of a scratchpad that the lanes of a beat address, from the base of its allocation (R244). -/
def beatWords (base size : Nat) (as : List Nat) : List Nat :=
  (as.flatMap fun a => (List.range (ceilDiv size 4)).map fun i => (base + a) / 4 + i).eraseDups

/-- The cycles of a beat: the greatest number of its words that lie in one of the 384 banks (R243, R244). -/
def beatCycles (words : List Nat) : Nat :=
  (words.map fun w => (words.filter fun x => x % 384 == w % 384).length).foldl Nat.max 1

/-- The cycles by which bank conflicts lengthen an access, over its beats of 16 lanes. -/
def conflictCycles (base size : Nat) (eas : List (Nat × Nat)) : Nat :=
  ((List.range 4).map fun b =>
    beatCycles (beatWords base size ((eas.filter fun e => e.1 / 16 == b).map (·.2))) - 1).sum

/-- Count the bank conflicts of a scratchpad access, for the core whose scratchpad it is (R271, R411). -/
def State.countBanks (s : State) (size : Nat) (eas : List (Nat × Nat)) : State :=
  s.addShared 0x123 (if s.team.pspan then s.team.core else s.cur.core)
    (BitVec.ofNat 64 (conflictCycles s.team.spBase size eas))

/-- `SLD` once its addresses are known. -/
def SpmCell.load (c : SpmCell) (s : State) (eas : List (Nat × Nat)) (ends : Bool) : State :=
  let dst := s.loadDst c.shape c.d.toNat
  let t := match dst with
    | .port p => s.reserveAll s s.em p fun l => .reserved s.cur.id (reserveKey s.cur.nextTag l)
    | _ => s
  ((t.countBanks c.size eas).launchFlight 2 (.sload c.size dst eas)).endAccess ends

/-- The low and high 8 bytes of a store's data. -/
def dataHalves (x : Nat) : DWord × DWord := (BitVec.ofNat 64 x, BitVec.ofNat 64 (x / 2 ^ 64))

/-- `SST` once its addresses are known. -/
def SpmCell.store (c : SpmCell) (s : State) (eas : List (Nat × Nat)) (ends : Bool) : State :=
  let xs := eas.map fun e => (e.1, (e.2, dataHalves (s.storeData c.shape e.1 c.d.toNat)))
  let t := (s.takePops s.em (dataPops c.shape c.d.toNat)).modCur (s.noteLatches s.em [c.d.toNat])
  ((t.countBanks c.size eas).launchFlight 2 (.sstore c.size xs)).endAccess ends

def SpmCell.execLoad (c : SpmCell) (s : State) : State :=
  match c.cause true s with
  | some cause => s.trap cause (zext64 s.issue.word)
  | none => s.sound (s.accessLanes (c.uniform s)) (baseSrcs c.a.toNat) fun s =>
    s.raising 2 fun s =>
      if isPort c.d.toNat then
        s.throughPorts s.em [] (some (c.d.toNat - 100)) fun s => c.checked s fun eas => c.load s eas true
      else c.checked s fun eas => c.load s eas false

def SpmCell.execStore (c : SpmCell) (s : State) : State :=
  match c.cause false s with
  | some cause => s.trap cause (zext64 s.issue.word)
  | none => s.sound (s.accessLanes (c.uniform s)) (c.shape.srcs c.d.toNat ++ baseSrcs c.a.toNat) fun s =>
    s.raising 2 fun s =>
      let pops := dataPops c.shape c.d.toNat
      if pops.isEmpty then c.checked s fun eas => c.store s eas false
      else s.throughPorts s.em pops none fun s => c.checked s fun eas => c.store s eas true

/-- The scratchpad cells of R97. -/
def spmCell (size : Nat) (shape : Shape) (d a : Code) (units : DWord) : SpmCell :=
  { size := size, shape := shape, d := d, a := a, units := units }

def execSldW (d a : Code) (off : BitVec 5) (s : State) : Out := .next ((spmCell 4 .word d a (zext64 off)).execLoad s)

def execSldD (d a : Code) (off : BitVec 5) (s : State) : Out := .next ((spmCell 8 .pair d a (zext64 off)).execLoad s)

def execSldQ (d a : Code) (off : BitVec 5) (s : State) : Out := .next ((spmCell 16 .quad d a (zext64 off)).execLoad s)

def execSstW (d a : Code) (off : BitVec 5) (s : State) : Out := .next ((spmCell 4 .word d a (zext64 off)).execStore s)

def execSstD (d a : Code) (off : BitVec 5) (s : State) : Out := .next ((spmCell 8 .pair d a (zext64 off)).execStore s)

def execSstQ (d a : Code) (off : BitVec 5) (s : State) : Out := .next ((spmCell 16 .quad d a (zext64 off)).execStore s)

end Sys2Proof.Machine
end

