-- ==== Sys2Proof/Machine/Sync.lean ====
section
/-! DEFINITION. Fences and waits, major 20 (R98, R123, R265 to R267, R272 to R274, R380), and prefix pairs (R32, R66,
R77). -/

namespace Sys2Proof.Machine

/-! ### FENCE -/

/-- The acquire part of a fence, and its end. -/
def State.fenceAcquire (s : State) (scope : Nat) : State :=
  if !s.cur.loadsQuiet || s.heldLine s.cur.core scope then s.stallOn (.acquire scope) stallBuffer
  else s.afterWait 0b000101 fun s => (s.acquire scope).finish 0

/-- `FENCE` (R265, R267). ord2 is 1 for `.ACQ`, 2 for `.REL` and 3 for `.AR`. -/
def State.fence (s : State) (ord : BitVec 2) (scope : Nat) : State :=
  s.uniformOp [] fun s => s.withScope scope fun s =>
    if ord.getLsbD 1 then
      s.regionEnder fun s =>
        if !s.cur.quiet || s.heldLine s.cur.core scope then s.stallOn (.release scope) stallBuffer
        else
          s.afterWait 0b000101 fun s =>
            let t := s.release scope
            ((if ord.getLsbD 0 then t.acquire scope else t).finish 0).startRegion
    else s.fenceAcquire scope

def execFence (ord : BitVec 2) (scope : BitVec 3) (s : State) : Out := .next (s.fence ord scope.toNat)

/-! ### WAITP -/

def execWaitp (a : Code) (path : BitVec 5) (s : State) : Out :=
  .next (s.readOp [⟨a.toNat, .s⟩, ⟨path.toNat, .num 5⟩] fun s =>
    if (s.wide 0 a).toNat < s.cur.count path.toNat
    then s.stallOn (.path path.toNat (s.wide 0 a).toNat) (0x101 + path.toNat)
    else s.afterWait (BitVec.ofNat 6 (2 ^ path.toNat)) fun s => s.finish 0)

/-! ### WAITV -/

/-- The bytes that a load of the group in focus reads at a place now, and whether the line is poisoned. -/
def State.readOwn (s : State) (scope : Nat) (p : Placed) (size : Nat) : List Byte × Bool :=
  let r := s.loadBytes (Agent.ofCore s.cur.core) scope p.home p.pa size
  (overlay (s.ownBytes p.pa size) r.1, r.2)

/-- `WAITV` ends with the value read; a poisoned one is trapped before the next instruction (R273). -/
def State.endWaitv (s : State) (d : Code) (x va : DWord) (poisoned : Bool) : State :=
  let t := ((s.modCur fun g => g.writeS (d.toNat - 64) x 2).finish x).progress
  if poisoned then t.modCur fun g => { g with ppend := true, pva := if g.ppath = 0 then va &&& ~~~63 else g.pva } else t

/-- Park in `WAITV`. Whether the point of the line has a free monitor entry is free (R274). -/
def State.armMonitor (s : State) (scope line : Nat) : State :=
  s.stallAt (.waitv line scope (Config.readsOld s.draws) false) stallWaitv

/-- The read of a `WAITV`: it completes, or arms the monitor of the line and parks. -/
def State.readWaitv (s : State) (acq : Bool) (scope : Nat) (d : Code) (va : DWord) (p : Placed) : State :=
  if s.cur.flights.any fun f => f.touches p.pa 8 then s.stallOn (.bytes p.pa) stallWaitv
  else
    let r := s.readOwn scope p 8
    let x : DWord := BitVec.ofNat 64 (leNat r.1)
    if x = s.wide 0 d ∧ r.2 = false then s.armMonitor scope (p.pa / 64)
    else if acq then (if s.cur.loadsQuiet && !s.heldLine s.cur.core scope then (s.acquire scope).endWaitv d x va r.2 
      else s.stallOn (.acquire scope) stallWaitv)
    else s.endWaitv d x va r.2

/-- `WAITV` at an offset of `units` 8-byte words. -/
def State.waitv (s : State) (acq : Bool) (scope : Nat) (d a : Code) (units : DWord) : State :=
  s.uniformOp [⟨d.toNat, .s⟩, ⟨a.toNat, .s⟩] fun s => s.withScope scope fun s =>
    s.sound [0] [⟨d.toNat, .s⟩, ⟨a.toNat, .s⟩] fun s =>
    let va := s.wide 1 a + 8 * units
    match s.checkAccess .load 8 [(0, va)] with
    | .trap cause tval => s.trap cause tval
    | .wait t => t.stallOn .pages stallRegion
    | .fault va info => if s.cur.walking then s.stall stallRegion else s.park va 0 info
    | .ok places t =>
      match places with
      | [] => t
      | e :: _ => t.syncing (t.crosses scope places) fun t => t.readWaitv acq scope d va e.2.2

def execWaitv (ord : BitVec 2) (scope : BitVec 3) (d a : Code) (off : BitVec 5) (s : State) : Out :=
  .next (s.waitv (ord == 1) scope.toNat d a (zext64 off))

/-! ### Prefix pairs -/

/-- A memory cell with the offset given in access units. -/
def State.memCell (s : State) (major kind : Nat) (ord : BitVec 2) (scope : BitVec 3) (d a : Code) (units : DWord) : State :=
  match major, kind with
  | 15, 0 => (loadCell 1 .word ord false scope d a units).exec s
  | 15, 1 => (loadCell 2 .word ord false scope d a units).exec s
  | 15, 2 => (loadCell 4 .word ord false scope d a units).exec s
  | 15, 3 => (loadCell 8 .pair ord false scope d a units).exec s
  | 15, 4 => (loadCell 16 .quad ord false scope d a units).exec s
  | 15, 5 => (loadCell 4 .word ord true scope d a units).exec s
  | 15, 6 => (loadCell 8 .pair ord true scope d a units).exec s
  | 15, 7 => (loadCell 16 .quad ord true scope d a units).exec s
  | 16, 0 => (storeCell 1 .word ord scope d a units).exec s
  | 16, 1 => (storeCell 2 .word ord scope d a units).exec s
  | 16, 2 => (storeCell 4 .word ord scope d a units).exec s
  | 16, 3 => (storeCell 8 .pair ord scope d a units).exec s
  | 16, 4 => (storeCell 16 .quad ord scope d a units).exec s
  | 17, 0 => (atomicCell .add 4 .word ord scope d a units).exec s
  | 17, 1 => (atomicCell .add 8 .pair ord scope d a units).exec s
  | 17, 2 => (atomicCell .min 4 .word ord scope d a units).exec s
  | 17, 3 => (atomicCell .max 4 .word ord scope d a units).exec s
  | 17, 4 => (atomicCell .minu 4 .word ord scope d a units).exec s
  | 17, 5 => (atomicCell .maxu 4 .word ord scope d a units).exec s
  | 17, 6 => (atomicCell .swap 4 .word ord scope d a units).exec s
  | 17, 7 => (atomicCell .cas 4 .pair ord scope d a units).exec s
  | 18, 0 => (atomicCell .and 4 .word ord scope d a units).exec s
  | 18, 1 => (atomicCell .or 4 .word ord scope d a units).exec s
  | 18, 2 => (atomicCell .xor 4 .word ord scope d a units).exec s
  | 18, 3 => (atomicCell .swap 8 .pair ord scope d a units).exec s
  | 18, 4 => (atomicCell .cas 8 .quad ord scope d a units).exec s
  | 18, 5 => (atomicCell .fadd 4 .word ord scope d a units).exec s
  | 18, 6 => (atomicCell .fmin 4 .word ord scope d a units).exec s
  | 18, 7 => (atomicCell .fmax 4 .word ord scope d a units).exec s
  | 19, 0 => (spmCell 4 .word d a units).execLoad s
  | 19, 1 => (spmCell 8 .pair d a units).execLoad s
  | 19, 2 => (spmCell 16 .quad d a units).execLoad s
  | 19, 4 => (spmCell 4 .word d a units).execStore s
  | 19, 5 => (spmCell 8 .pair d a units).execStore s
  | 19, 6 => (spmCell 16 .quad d a units).execStore s
  | 20, 2 => s.waitv (ord == 1) scope.toNat d a units
  | _, _ => s.illegal

/-- The second word of a pair carries no schedule of its own, and its kind is that of the pair (R66). -/
def IssueSlot.pairOk (i : IssueSlot) : Bool := i.half2 &&& 0xEFFF == 0 && i.half2.getLsbD 12 == i.half.getLsbD 12

/-- A prefix pair (R32, R66, R77). -/
def State.pair (s : State) (imm : BitVec 27) (second : Option Prefixed) : State :=
  if !s.issue.pairOk then s.illegal
  else
    match second with
    | none => s.illegal
    | some (.addi d a x) => (addiCell d a (sext64 (combine imm x))).exec s
    | some (.lim d x) => (limCell d (sext64 (combine imm x))).exec s
    | some (.br cond x) => s.brCell cond.toNat (sext64 (combine imm x))
    | some (.mem major kind ord scope d a x) => s.memCell major.toNat kind.toNat ord scope d a (sext64 (combine imm x))

def execPfx (imm : BitVec 27) (second : Option Prefixed) (s : State) : Out := .next (s.pair imm second)

end Sys2Proof.Machine
end

