-- ==== Sys2Proof/Machine/Perform.lean ====
section
/-! DEFINITION. Events of operations in flight: loads and atomics return, stores are acknowledged, scratchpad accesses are
performed, long-latency results and rill entries arrive, write buffers drain, walks and pulls end (R64, R65, R117, R122,
R219, R230, R248, R253, R255, R260, R269, R270, R277, R278, R371). -/

namespace Sys2Proof.Machine

/-! ### The lanes of an operation that an event performs -/

/-- The accesses of the lanes in a mask. -/
def pickLanes (m : LaneMask) (xs : List LaneAcc) : List LaneAcc := xs.filter fun a => m.getLsbD a.lane

/-- The others. -/
def restLanes (m : LaneMask) (xs : List LaneAcc) : List LaneAcc := xs.filter fun a => !m.getLsbD a.lane

/-- The operations older than the one with a tag. -/
def Group.older (g : Group) (tag : Nat) : List Flight := g.flights.takeWhile fun f => f.tag != tag

/-- Change one operation in flight. -/
def Group.setFlight (g : Group) (tag : Nat) (f : Flight → Flight) : Group :=
  { g with flights := g.flights.map fun x => if x.tag = tag then f x else x }

/-! ### Table lines (R246, R253) -/

/-- Table lines have changed: cached translations from them are gone, and so are the pins of pages that have another home
now. -/
def State.shootDown (s : State) (lines : List Nat) : State :=
  { s with tableLines := s.tableLines.filter fun l => !lines.contains l,
           oldTables := s.oldTables.filter fun e => !lines.contains e.1 }.unpin

/-! ### Loads (R117, R267, R278, R280, R287) -/

/-- An older operation of the group that is not performed and touches some of the accesses. -/
def Group.olderTouches (g : Group) (tag size : Nat) (xs : List LaneAcc) : Bool :=
  (g.older tag).any fun f => xs.any fun a => f.touches a.pa size

/-- An acquire is the last of what the group waits for, and no line of the core's write buffer waits for a load. -/
def State.acquireReady (s : State) (tag scope : Nat) : Bool :=
  (s.cur.flights.all fun f => f.tag == tag || (f.path != 0 && (match f.kind with
    | .sload _ _ _ => false
    | _ => true))) && !s.heldLine s.cur.core scope

/-- What one access of a load returns, and whether it consumed poison. The two halves of 16 bytes are read in one step, which R119
leaves open (DESIGN CHOICE, log entry 90). -/
def State.loadOne (s : State) (scope size : Nat) (x : LaneAcc) : List Byte × Bool :=
  let r := s.loadBytes (Agent.ofCore s.cur.core) scope x.home x.pa size
  (overlay x.fwd r.1, r.2 && x.fwd.any (·.isNone))

/-- The values that `n` bytes of an invariant load may take: what an ordinary load would see, or a value that some copy
has held since the launch of the group in focus began, with or without the group's own store (R121, R287). -/
def State.invariantValues (s : State) (scope n pa : Nat) (home : Home) (fwd : List (Option Byte)) : List (List Byte × Bool) :=
  let seen := s.loadBytes (Agent.ofCore s.cur.core) scope home pa n
  (overlay fwd seen.1, seen.2)
    :: (s.held (pa / 64) ++ (s.pastSince (pa / 64) s.launch.began).filter fun v => decide (v.level < 4)).map fun v =>
      ((List.range n).map fun i => lineByte v.data (pa % 64 + i), v.poison)

/-- One unit of an access of an invariant load: a free one of them. -/
def State.invariantUnit (s : State) (scope n pa : Nat) (home : Home) (fwd : List (Option Byte)) (key : Nat) :
    List Byte × Bool :=
  (freeOneOf key (s.invariantValues scope n pa home fwd).eraseDups).getD ([], false)

/-- One access of an invariant load. The two halves of 16 bytes are units of their own (R119). -/
def State.invariantOne (s : State) (scope size : Nat) (x : LaneAcc) : List Byte × Bool :=
  let key := (s.draws * 64 + x.lane) * 2
  if size = 16 then
    let lo := s.invariantUnit scope 8 x.pa x.home (x.fwd.take 8) key
    let hi := s.invariantUnit scope 8 (x.pa + 8) x.home (x.fwd.drop 8) (key + 1)
    (lo.1 ++ hi.1, lo.2 || hi.2)
  else s.invariantUnit scope size x.pa x.home x.fwd key

/-- Note the poisoned lines that accesses consumed, the first one first. -/
def Group.noteLines (g : Group) (path : Nat) (vas : List DWord) : Group :=
  vas.foldl (fun g va => g.notePoison path (va &&& ~~~63)) g

/-- The values of the accesses of a load. -/
def State.loadValues (s : State) (inv : Bool) (scope size : Nat) (xs : List LaneAcc) : List (LaneAcc × (List Byte × Bool)) :=
  xs.map fun x => (x, if inv then s.invariantOne scope size x else s.loadOne scope size x)

/-- What a load leaves behind: the line replaces the copies that it passed over (R280). -/
def State.readLine (s : State) (scope : Nat) (home : Home) (line : Nat) : State :=
  let t := s.touch line
  if t.uncachedLine home line then t else t.fetched (Agent.ofCore s.cur.core) scope line

/-- Write the results of a load and end the accesses of the lanes in a mask. -/
def State.returnLoad (s : State) (f : Flight) (size : Nat) (dst : Dst) (scope : Nat) (acq inv : Bool) (lanes : List LaneAcc)
    (m : LaneMask) : State :=
  let vals := s.loadValues inv scope size (pickLanes m lanes)
  let t := lanes.foldl
    (fun t x => if m.getLsbD x.lane then (if inv then t.touch (x.pa / 64) else t.readLine scope x.home (x.pa / 64)) else t) s
  let t := t.deliver f.tag dst (vals.map fun v => (v.1.lane, leNat v.2.1))
  let t := t.modCur fun g => g.noteLines 0 ((vals.filter (·.2.2)).map (·.1.va))
  let rest := restLanes m lanes
  let t := { t with draws := t.draws + 1 }
  if rest.isEmpty then
    let u := t.modCur fun g => g.complete f.tag
    if acq then u.acquire scope else u
  else t.modCur fun g => g.setFlight f.tag fun x => { x with kind := .load size dst scope acq inv rest }

/-! ### Atomics (R260) -/

/-- A line of the bank that a buffered or draining store of the group holds, and that the atomic must follow. -/
def State.bankBefore (s : State) (tag pa : Nat) : Bool :=
  let k := bankOf (pa / 64)
  (s.writeBuf.any fun e => e.group == s.cur.id && bankOf e.line == k && !e.after.contains tag)
    || s.cur.storeBuf.any fun l => bankOf l.line == k && !l.after.contains tag

/-- Perform one access of an atomic; the old value is kept with the lane. The host gives up a line of a page in host bias first
(R435). -/
def State.atomicOne (s : State) (op : AtomOp) (size scope : Nat) (x : LaneAcc) : State × (Nat × (Nat × Bool)) :=
  let a := Agent.ofCore s.cur.core
  let t := (if s.inHostBias (x.pa / 64) then s.takeFromHost (x.pa / 64) else s).touch (x.pa / 64)
  let r := t.loadBytes a scope x.home x.pa size
  let old := leNat r.1
  match op.apply (BitVec.ofNat 64 old) x.opnd x.opnd2 with
  | some v => (t.storeBytes a scope x.home x.pa size v.toNat, (x.lane, (old, r.2)))
  | none => (t, (x.lane, (old, r.2)))

/-- Perform accesses in lane order. -/
def State.atomicAll (s : State) (op : AtomOp) (size scope : Nat) : List LaneAcc → State × List (Nat × (Nat × Bool))
  | [] => (s, [])
  | x :: rest =>
    let r := s.atomicOne op size scope x
    let q := r.1.atomicAll op size scope rest
    (q.1, r.2 :: q.2)

/-- A lane left for later precedes a lane performed now at the same location. -/
def overtakes (m : LaneMask) (lanes : List LaneAcc) : Bool :=
  (pickLanes m lanes).any fun x => (restLanes m lanes).any fun y => decide (y.lane < x.lane) && y.pa == x.pa

/-- Lanes of an atomic have been performed: write their old values, and go on with the lanes that are left. -/
def State.atomicReturned (s : State) (f : Flight) (op : AtomOp) (size : Nat) (dst : Dst) (scope : Nat) (acq : Bool)
    (values : List (Nat × Nat)) (rest : List LaneAcc) : State :=
  let t := s.deliver f.tag dst values
  if rest.isEmpty then
    let u := t.modCur fun g => g.complete f.tag
    if acq then u.acquire scope else u
  else t.modCur fun g => g.setFlight f.tag fun x => { x with kind := .atomic op size dst scope acq rest }

/-- The table lines that accesses of an atomic write where walks read them (R253). -/
def State.tableLinesOf (s : State) (scope : Nat) (xs : List LaneAcc) : List Nat :=
  (xs.filter fun x => s.isTable ⟨x.pa, x.home, []⟩ && s.reachesTables scope ⟨x.pa, x.home, []⟩).map fun x => x.pa / 64

/-- Perform the accesses of the lanes in a mask and write their old values; those on table lines wait until the
translations from the lines are out of use. -/
def State.returnAtomic (s : State) (f : Flight) (op : AtomOp) (size : Nat) (dst : Dst) (scope : Nat) (acq : Bool)
    (lanes : List LaneAcc) (m : LaneMask) : State :=
  let xs := pickLanes m lanes
  let r := (s.keepOld (s.tableLinesOf scope xs)).atomicAll op size scope xs
  let t := r.1.modCur fun g => g.noteLines 0 ((xs.filter fun x => r.2.any fun v => v.1 == x.lane && v.2.2).map (·.va))
  let values := r.2.map fun v => (v.1, v.2.1)
  let rest := restLanes m lanes
  match s.tableLinesOf scope xs with
  | [] => t.atomicReturned f op size dst scope acq values rest
  | l :: ls =>
    t.modCur fun g => g.setFlight f.tag fun x => { x with kind := .returned op size dst scope acq values (l :: ls) rest }

/-- A flip or a rebuild holds some of the accesses (R419, R436). -/
def State.anyHeld (s : State) (write : Bool) (scope : Nat) (xs : List LaneAcc) : Bool :=
  xs.any fun x => s.heldUp write (dieOf s.cur.core) scope (x.pa / 64)

/-- The lanes of a mask of an operation of the group in focus may return, the queues of the caches apart. -/
def State.canReturn (s : State) (f : Flight) (m : LaneMask) : Bool :=
  !f.done && !f.walking && (match f.kind with
    | .load size _ scope acq inv lanes =>
      let xs := pickLanes m lanes
      (lanes.isEmpty || !xs.isEmpty) && (inv || !s.cur.olderTouches f.tag size xs) && (!acq || s.acquireReady f.tag scope)
        && !s.anyHeld false scope xs
    | .atomic _ _ _ scope acq lanes =>
      let xs := pickLanes m lanes
      (lanes.isEmpty || !xs.isEmpty) && !((s.cur.older f.tag).any fun x => x.path == 0 && !x.done) && !overtakes m lanes
        && !(xs.any fun x => s.bankBefore f.tag x.pa) && (!acq || s.acquireReady f.tag scope) && !s.anyHeld true scope xs
    | _ => false)

/-! ### Misses (R240, R241) -/

/-- The lines that accesses of a scope ask of a cache of the agent's path and that it does not serve: those of a load at every
level that it passes, those of an atomic at its point. -/
def State.missedAt (s : State) (a : Agent) (level scope : Nat) (atomic : Bool) (xs : List LaneAcc) : List Nat :=
  ((xs.filter fun x => !s.uncachedLine x.home (x.pa / 64)).map fun x => x.pa / 64).eraseDups.filter fun line =>
    (if atomic then pointLevel scope == level else true) && (match servingCopy scope (s.pathCopies a line) with
      | some c => decide (level < c.level)
      | none => true)

/-- The lines that an operation in flight of a core asks of a cache and that it does not serve. -/
def State.flightMisses (s : State) (core level : Nat) (f : Flight) : List Nat :=
  match f.kind with
  | .load _ _ scope _ _ lanes => s.missedAt (Agent.ofCore core) level scope false lanes
  | .atomic _ _ _ scope _ lanes => s.missedAt (Agent.ofCore core) level scope true lanes
  | _ => []

/-- A request that a cache has not answered: when it began, whose it is, and the lines that it waits for. -/
structure Request where
  born : Nat
  group : Nat
  tag : Nat
  lines : List Nat

/-- The requests at a cache, in the order of its input queue among equals. -/
def State.requests (s : State) (level unit : Nat) : List Request :=
  s.groups.flatMap fun g =>
    if (Agent.ofCore g.core).unit level = some unit then
      let t := s.focus g.id
      (g.flights.filter fun f => t.canReturn f (BitVec.allOnes 64)).filterMap fun f =>
        match s.flightMisses g.core level f with
        | [] => none
        | l :: ls => some ⟨f.born, g.id, f.tag, l :: ls⟩
    else []

/-- The requests that came before. -/
def State.earlier (s : State) (level unit born : Nat) : List Request := (s.requests level unit).filter fun r => r.born < born

/-- The ways of a line's set that a miss can take: not pinned for a page of home 11 or by a tile fetch unit, nor held (R241). -/
def State.freeWays (s : State) (level unit line : Nat) : Nat :=
  cacheWays level - ((s.inSet level unit line).filter fun c => s.stuckCopy c).length

/-- A line's miss has a way: fewer other lines of its set were missed before. -/
def State.hasMissWay (s : State) (level unit born line : Nat) : Bool :=
  let ls := ((s.earlier level unit born).flatMap (·.lines)).eraseDups.filter fun l =>
    l != line && cachePlace level l == cachePlace level line
  decide (ls.length < s.freeWays level unit line)

/-- A request to a line stands in its list: at most 15 do. -/
def State.listed (s : State) (level unit born line : Nat) : Bool :=
  s.hasMissWay level unit born line
    && decide (((s.earlier level unit born).filter fun r => r.lines.contains line).length < 15)

/-- An operation can be answered, and has an access to a line. -/
def State.answerable (s : State) (line : Nat) (e : Nat × Nat) : Bool :=
  match s.group? e.1 with
  | none => false
  | some g => g.flights.any fun f => f.tag == e.2 && f.kind.onLine line && (s.focus g.id).canReturn f (BitVec.allOnes 64)

/-- No operation that stood before this one in the list of a line that has been filled waits for its answer (R240). -/
def State.nextInList (s : State) (f : Flight) (xs : List LaneAcc) : Bool :=
  f.after.all fun e => !(xs.any fun x => x.pa / 64 == e.1) || !s.answerable e.1 e.2

/-- Each cache on the path answers the requester first in the line's list. -/
def State.answered (s : State) (f : Flight) (scope : Nat) (atomic : Bool) (xs : List LaneAcc) : Bool :=
  let a := Agent.ofCore s.cur.core
  s.nextInList f xs && (List.range 3).all fun level =>
    match a.unit level with
    | none => true
    | some u =>
      (s.missedAt a level scope atomic xs).all fun line =>
        s.hasMissWay level u f.born line && !(s.earlier level u f.born).any fun r => r.lines.contains line

/-- Requests in flight of a cluster wait in the input queue of a slice: its counter rises (R241, R411). -/
def State.countQueues (s : State) (cluster : Nat) : State :=
  let waits (level unit : Nat) : Bool :=
    (s.requests level unit).any fun r => r.lines.any fun l => !s.listed level unit r.born l
  if waits 1 cluster || (List.range 8).any fun j => waits 0 (8 * cluster + j) then
    s.addShared 0x124 cluster (BitVec.ofNat 64 (Config.elapsed s.draws))
  else s

/-- LOAD_RESULT_RETURN for the lanes of a mask of the operation with this tag. -/
def State.loadResult (tag : Nat) (m : LaneMask) (s : State) : Option State :=
  match s.cur.flight? tag with
  | none => none
  | some f =>
    match f.kind with
    | .load size dst scope acq inv lanes =>
      if s.canReturn f m && s.answered f scope false (pickLanes m lanes) then
        some ((s.countQueues (clusterOf s.cur.core)).returnLoad f size dst scope acq inv lanes m)
      else none
    | .atomic op size dst scope acq lanes =>
      if s.canReturn f m && s.answered f scope true (pickLanes m lanes) then
        some ((s.countQueues (clusterOf s.cur.core)).returnAtomic f op size dst scope acq lanes m)
      else none
    | .returned op size dst scope acq values lines rest =>
      if s.linesInUse lines then none
      else some ((s.shootDown lines).atomicReturned f op size dst scope acq values rest)
    | _ => none

def execLoadResultReturn (g tag : Nat) (lanes : LaneMask) (s : State) : Out :=
  Out.ofOption "LOAD_RESULT_RETURN" (s.inGroup? g (State.loadResult tag lanes))

/-! ### Stores (R64, R246, R253, R277) -/

def State.acknowledge (tag : Nat) (s : State) : Option State :=
  match s.cur.flight? tag with
  | none => none
  | some f =>
    match f.kind with
    | .store lines _ =>
      if s.linesInUse lines then none else some ((s.shootDown lines).modCur fun g => g.complete tag)
    | _ => none

def execStoreAcknowledge (g tag : Nat) (s : State) : Out := Out.ofOption "STORE_ACKNOWLEDGE" (s.inGroup? g (State.acknowledge tag))

/-- The oldest line of a bank of a core's write buffer. -/
def State.bankHead (s : State) (core bank : Nat) : Option WriteEntry :=
  s.writeBuf.find? fun e => e.core == core && bankOf e.line == bank

/-- Drop the first entry equal to one. -/
def dropEntry (e : WriteEntry) : List WriteEntry → List WriteEntry
  | [] => []
  | x :: rest => if x = e then rest else x :: dropEntry e rest

/-- A draining line has a way at its point, or needs none (R241). -/
def State.drainWay (s : State) (e : WriteEntry) : Bool :=
  let level := pointLevel e.scope
  s.uncachedLine e.home e.line || (match (Agent.ofCore e.core).unit level with
    | none => true
    | some u => (s.copies.any fun c => c.level == level && c.unit == u && c.line == e.line) || s.hasMissWay level u s.draws e.line)

/-- WRITE_BUFFER_DRAIN: the oldest line of a bank is performed, and committed lines that waited enter the bank. -/
def State.drainBank (s : State) (core bank : Nat) : Option State :=
  match s.bankHead core bank with
  | none => none
  | some e =>
    if s.freeToDrain e && s.drainWay e then some ({ s with writeBuf := dropEntry e s.writeBuf }.performEntry e 0).drainAll else none

def execWriteBufferDrain (core bank : Nat) (s : State) : Out := Out.ofOption "WRITE_BUFFER_DRAIN" (s.drainBank core bank)

/-! ### The scratchpad (R268 to R271, R424) -/

/-- The words of an access of `n` bytes at `a`. -/
def sameWord (a n b k : Nat) : Bool := decide (a / 4 ≤ (b + k - 1) / 4) && decide (b / 4 ≤ (a + n - 1) / 4)

/-- The places of the accesses of a scratchpad operation that are not performed. -/
def Flight.scratchPlaces (f : Flight) : List (Nat × (Nat × Nat)) :=
  if f.done then []
  else
    match f.kind with
    | .sload n _ lanes => lanes.map fun x => (x.1, (x.2, n))
    | .sstore n lanes => lanes.map fun x => (x.1, (x.2.1, n))
    | _ => []

/-- An older access of the group, or of a lower lane of the same operation that is left for later, shares a word with an
access of the lanes of a mask. -/
def Group.scratchWaits (g : Group) (f : Flight) (m : LaneMask) : Bool :=
  let mine := f.scratchPlaces
  let first := (g.older f.tag).flatMap Flight.scratchPlaces
  (mine.filter fun x => m.getLsbD x.1).any fun x =>
    (first.any fun y => sameWord x.2.1 x.2.2 y.2.1 y.2.2)
      || mine.any fun y => !m.getLsbD y.1 && decide (y.1 < x.1) && sameWord x.2.1 x.2.2 y.2.1 y.2.2

/-- `n` bytes of a team's scratchpad as a number. -/
def Team.scratchNum (t : Team) (a n : Nat) : Nat := leNat ((List.range n).map fun i => sget 0 t.scratch (a + i))

/-- Write bytes into a team's scratchpad. No lane writes a whole 64-byte block, so its poison stays (R425). -/
def Team.setScratch (t : Team) (a : Nat) (bs : List Byte) : Team :=
  { t with scratch := bs.zipIdx.foldl (fun m e => sset 0 m (a + e.2) e.1) t.scratch }

/-- The scratchpad block of an address is poisoned. -/
def Team.blockPoisoned (t : Team) (a : Nat) : Bool := t.spoison.contains (a / 64)

/-- Read the lanes of a mask. -/
def State.scratchLoad (s : State) (f : Flight) (n : Nat) (dst : Dst) (lanes : List (Nat × Nat)) (m : LaneMask) : State :=
  let t := s.team
  let xs := lanes.filter fun x => m.getLsbD x.1
  let rest := lanes.filter fun x => !m.getLsbD x.1
  let u := s.deliver f.tag dst (xs.map fun x => (x.1, t.scratchNum x.2 n))
  u.modCur fun g =>
    let h := (xs.filter fun x => t.blockPoisoned x.2).foldl (fun g x => g.notePoison 2 (BitVec.ofNat 64 (x.2 / 64 * 64))) g
    if rest.isEmpty then h.complete f.tag else h.setFlight f.tag fun y => { y with kind := .sload n dst rest }

/-- Write the lanes of a mask, in lane order (R68). -/
def State.scratchStore (s : State) (f : Flight) (n : Nat) (lanes : List (Nat × (Nat × (DWord × DWord)))) (m : LaneMask) : State :=
  let xs := lanes.filter fun x => m.getLsbD x.1
  let rest := lanes.filter fun x => !m.getLsbD x.1
  let t := xs.foldl
    (fun t x => t.setScratch x.2.1 (leBytes n (x.2.2.1.toNat + 2 ^ 64 * x.2.2.2.toNat))) s.team
  (s.setTeam t).modCur fun g =>
    if rest.isEmpty then g.complete f.tag else g.setFlight f.tag fun y => { y with kind := .sstore n rest }

def State.scratchPerformed (tag : Nat) (m : LaneMask) (s : State) : Option State :=
  match s.cur.flight? tag with
  | none => none
  | some f =>
    if s.cur.scratchWaits f m then none
    else
      match f.kind with
      | .sload n dst lanes =>
        if !lanes.isEmpty && !(lanes.any fun x => m.getLsbD x.1) then none else some (s.scratchLoad f n dst lanes m)
      | .sstore n lanes =>
        if !lanes.isEmpty && !(lanes.any fun x => m.getLsbD x.1) then none else some (s.scratchStore f n lanes m)
      | _ => none

def execScratchpadAccessPerformed (g tag : Nat) (lanes : LaneMask) (s : State) : Out :=
  Out.ofOption "SCRATCHPAD_ACCESS_PERFORMED" (s.inGroup? g (State.scratchPerformed tag lanes))

/-! ### Long latency (R61, R64, R129, R138) -/

/-- A result on the lng path is written, in issue order, and its flags are ORed into fpc. -/
def State.longResult (tag : Nat) (s : State) : Option State :=
  match s.cur.flight? tag with
  | none => none
  | some f =>
    match f.kind with
    | .long dst values flags =>
      if f.path != 5 || (s.cur.older tag).any fun x => x.path == 5 && !x.done then none
      else some ((s.deliver tag dst values).modCur fun g => (g.raise flags).complete tag)
    | _ => none

def execLongLatencyResult (g tag : Nat) (s : State) : Out := Out.ofOption "LONG_LATENCY_RESULT" (s.inGroup? g (State.longResult tag))

/-! ### Rill entries (R217 to R219) -/

/-- The oldest unfilled entry of a queue becomes filled, if its value is known. -/
def State.fillEntry (s : State) (g lane port : Nat) : Option State :=
  match s.group? g with
  | none => none
  | some x =>
    match x.threads[lane]? with
    | none => none
    | some t =>
      match fillFirst (t.queue port) with
      | none => none
      | some q => some (s.modQueue (g, lane) port fun _ => q)

def execRillEntryFill (g lane port : Nat) (s : State) : Out := Out.ofOption "RILL_ENTRY_FILL" (s.fillEntry g lane port)

/-- A group stays blocked at one rill instruction for 2^26 cycles (R226). -/
def State.rillTimeout (s : State) : Option State :=
  match s.cur.wait with
  | .rill port => if s.cur.live then some (s.trap causeRill (BitVec.ofNat 64 (100 + port))) else none
  | _ => none

def execRillBlockTimeout (g : Nat) (s : State) : Out := Out.ofOption "RILL_BLOCK_TIMEOUT" (s.inGroup? g State.rillTimeout)

/-! ### Walks and pulls (R248, R255, R371) -/

/-- A walk ends and finds its page fault: the group parks. -/
def State.walkEnds (tag : Nat) (s : State) : Option State :=
  match s.cur.flight? tag with
  | none => none
  | some f => if f.walking && s.cur.live then some (s.park f.fva 0 f.finfo) else none

def execTranslationComplete (g tag : Nat) (s : State) : Out := Out.ofOption "TRANSLATION_COMPLETE" (s.inGroup? g (State.walkEnds tag))

/-- The recall of the old line, and the write of the new one, wait for no directory that is being rebuilt (R419). -/
def State.pullFree (s : State) (desc line : Nat) : Bool :=
  let d := s.migDesc desc 12
  !s.heldUp true 16 6 ((d.old + 64 * line) / 64) && !s.heldUp true 16 6 ((d.new + 64 * line) / 64)

def execMigrationPull (desc line : Nat) (s : State) : Out :=
  Out.ofOption "MIGRATION_PULL"
    (((s.pulls.find? fun p => p.1 == desc && p.2.1 == line).filter fun _ => s.pullFree desc line).map fun p =>
      s.pullLine desc line p.2.2)

/-! ### WAITV monitors (R273, R274) -/

/-- The group parked in a `WAITV` whose monitor is in a state reads again. -/
def State.wake (p : Bool → Bool → Bool) (s : State) : Option State :=
  match s.cur.wait with
  | .waitv _ _ entry fired => if s.cur.live && p entry fired then some (s.modCur fun g => { g with wait := .retry }) else none
  | _ => none

/-- Every 1,024 cycles at a point without a free monitor entry. -/
def execWaitvMonitorPoll (g : Nat) (s : State) : Out :=
  Out.ofOption "WAITV_MONITOR_POLL" (s.inGroup? g (State.wake fun entry _ => !entry))

/-- A write, an atomic, an invalidation or an eviction of the monitored line has fired the monitor. -/
def execWaitvMonitorFire (g : Nat) (s : State) : Out :=
  Out.ofOption "WAITV_MONITOR_FIRE" (s.inGroup? g (State.wake fun entry fired => entry && fired))

end Sys2Proof.Machine
end

