-- ==== Sys2Proof/Machine/Engine.lean ====
section
/-! DEFINITION. Engine instructions: major 23, with publish descriptors and the landing table (R101, R343 to R346, R355 to
R358). -/

namespace Sys2Proof.Machine

/-! ### ENQ (R343 to R346) -/

/-- The engine of a kind that serves a core. -/
def engineUnit (cascade : Bool) (core : Nat) : Nat := if cascade then ipoOf (dieOf core) else clusterOf core

/-- The five coordinates from s(b + 1) to s(b + 3) (R345). -/
def coordinates (x y z : DWord) : List Int :=
  [(low32 x).toInt, (high32 x).toInt, (low32 y).toInt, (high32 y).toInt, (low32 z).toInt]

/-- The command that an `ENQ` of the group in focus places. -/
def State.newCommand (s : State) (id : Nat) (cascade : Bool) (scope : Nat) (d a b : Code) : Command :=
  let z := s.wide 5 (b + 3)
  { id := id, cascade := cascade, unit := engineUnit cascade s.cur.core, core := s.cur.core, scope := scope,
    launch := s.team.launch, team := s.team.id, tix := s.team.tix, group := s.cur.id, ctr := s.wide 0 d,
    recva := s.wide 1 a, dense := s.wide 2 b, coord := coordinates (s.wide 3 (b + 1)) (s.wide 4 (b + 2)) z,
    tag := nfield z.toNat 32 16, peer := nfield z.toNat 48 16, stage := .queued, shape := none, errors := 0,
    skipped := false, beyond := false, poisoned := false, box := [], skip := [], fault := none, deliveries := [],
    todo := [], prep := none }

/-- Place a command in its queue. -/
def State.enqueue (s : State) (cascade : Bool) (scope : Nat) (d a b : Code) : State :=
  let n := s.number
  let t := { n.2 with commands := n.2.commands ++ [s.newCommand n.1 cascade scope d a b] }
  (t.launchFlight 3 (.command n.1)).endAccess true

/-- Run `f` once an access that an engine instruction checks has passed R116. -/
def State.checkOne (s : State) (acc : Access) (size : Nat) (va : DWord) (kind : Nat) (f : Placed → State → State) : State :=
  match s.checkAccess acc size [(0, va)] with
  | .trap cause tval => s.trap cause tval
  | .wait t => t.stallOn .pages stallRegion
  | .fault va info => s.park va kind info
  | .ok places t =>
    match places with
    | [] => t
    | e :: _ => f e.2.2 t

/-- The registers that an `ENQ` reads. -/
def enqReads (d a b : Code) : List Src :=
  [⟨d.toNat, .s⟩, ⟨a.toNat, .s⟩] ++ (List.range 4).map fun i => ⟨b.toNat + i, .s⟩

/-- `ENQ`. -/
def State.enq (s : State) (cascade : Bool) (scope : Nat) (d a b : Code) : State :=
  s.uniformOp [⟨d.toNat, .s⟩, ⟨a.toNat, .s⟩, ⟨b.toNat, .s⟩, ⟨b.toNat, .num 92⟩] fun s =>
    s.withScope scope fun s => s.sound [0] (enqReads d a b) fun s => s.raising 3 fun s => s.regionEnder fun s =>
      s.checkOne .atomic 8 (s.wide 0 d) 2 fun _ s =>
        s.checkOne .load 64 (s.wide 1 a) 0 fun _ s =>
          let unit := engineUnit cascade s.cur.core
          -- a wait for the release has the lower index (R411)
          if engineSlots cascade ≤ s.queued cascade unit ∧ s.releaseReady scope = true
          then s.stallOn (.engine cascade unit) stallQueue
          else s.afterRelease scope stallBuffer fun s => s.enqueue cascade scope d a b

def execEnqRunnel (scope : BitVec 3) (d a b : Code) (s : State) : Out := .next (s.enq false scope.toNat d a b)

def execEnqCascade (scope : BitVec 3) (d a b : Code) (s : State) : Out := .next (s.enq true scope.toNat d a b)

/-! ### Publish descriptors (R355) -/

/-- A publish descriptor. -/
structure PubDesc where
  pa : Nat
  va : Nat
  fs0 : Nat
  fs1 : Nat
  npages : Nat
  /-- log2 of the page size -/
  bits : Nat
  scope : Nat
  act : Bool
  gen : Nat
  /-- the fields obey R355 and no poisoned line was read -/
  ok : Bool

def PubDesc.active (p : PubDesc) : Nat := if p.act then p.fs1 else p.fs0
def PubDesc.inactive (p : PubDesc) : Nat := if p.act then p.fs0 else p.fs1
def PubDesc.length (p : PubDesc) : Nat := p.npages * 2 ^ p.bits

/-- The place of an address of the region in the inactive frames; `none` outside the region. -/
def PubDesc.shadowPa (p : PubDesc) (va : DWord) : Option Nat :=
  if p.va ≤ va.toNat ∧ va.toNat < p.va + p.length then some (p.inactive + (va.toNat - p.va)) else none

/-- log2 of the page size that psz names. -/
def pszBits (psz : Nat) : Nat :=
  match psz with
  | 0 => 12
  | 1 => 16
  | _ => 21

/-- `n` bytes of frames lie in device DRAM. -/
def State.framesLie (s : State) (pa n bits : Nat) : Bool :=
  pa % 2 ^ bits == 0 && decide (pa + n ≤ dramEnd)
    && (List.range 8).all fun k => s.stackPresent k || decide (pa + n ≤ k * 0x18_0000_0000 ∨ (k + 1) * 0x18_0000_0000 ≤ pa)

/-- The publish descriptor in a line that was read as `v` at a place. -/
def State.pubOf (s : State) (p : Placed) (v : BitVec 512 × Bool) : PubDesc :=
  let x := v.1.toNat
  let psz := nfield x 224 2
  let bits := pszBits psz
  let n := nfield x 192 32
  let va := nfield x 0 64
  { pa := p.pa, va := va, fs0 := nfield x 64 64, fs1 := nfield x 128 64, npages := n, bits := bits,
    scope := nfield x 228 3, act := x.testBit 231, gen := nfield x 256 64,
    ok := !v.2 && p.home == .cached && isDram p.pa && nfield x 320 192 == 0 && nfield x 232 24 == 0 && nfield x 226 2 == 0
      && psz != 3 && nfield x 228 3 != 0 && 1 ≤ n && va % 2 ^ bits == 0
      && s.framesLie (nfield x 64 64) (n * 2 ^ bits) bits && s.framesLie (nfield x 128 64) (n * 2 ^ bits) bits }

/-- A line at a place with the bytes of the group's own stores that are not performed yet (R67). -/
def State.withOwn (s : State) (p : Placed) (v : BitVec 512 × Bool) : BitVec 512 × Bool :=
  ((s.ownBytes (p.pa / 64 * 64) 64).zipIdx.foldl
    (fun x e => match e.1 with
      | some b => mergeLine (1#64 <<< e.2) x (BitVec.ofNat 512 (b.toNat * 2 ^ (8 * e.2)))
      | none => x) v.1, v.2)

/-- Read a publish descriptor for the group in focus, at the DEV point, where the device writes act and gen. -/
def State.ownPub (s : State) (p : Placed) : PubDesc :=
  s.pubOf p (s.withOwn p (s.view (Agent.ofCore s.cur.core) 6 p.home (p.pa / 64)))

/-! ### PUBLISH (R356) -/

/-- The walk to the leaf entry of page `j` of a region. -/
def State.pubWalk (s : State) (a : Agent) (p : PubDesc) (j : Nat) : DWord × Walk :=
  let va : DWord := BitVec.ofNat 64 (p.va + j * 2 ^ p.bits)
  (va, s.walkFrom a .entry va 4 s.launch.desc.root [])

/-- The first page of a region whose tables lie in a poisoned line (R451). -/
def State.pubPoison (s : State) (a : Agent) (p : PubDesc) : Option DWord :=
  (List.range p.npages).findSome? fun j =>
    match s.pubWalk a p j with
    | (va, .stop (.fault 0xFF)) => some va
    | (va, .leaf l) =>
      let b := l.entryPa / 128 * 128
      if p.bits = 16 ∧ ((s.word64 b).2 || (s.word64 (b + 64)).2) = true then some va else none
    | _ => none

/-- The leaf entries of page `j` of a region: where each lies and its value. -/
def State.pubLeaves (s : State) (a : Agent) (p : PubDesc) (j : Nat) : List (Nat × DWord) :=
  match (s.pubWalk a p j).2 with
  | .stop _ => []
  | .leaf l =>
    if p.bits = 16 then (List.range 16).map fun i =>
      let pa := l.entryPa / 128 * 128 + 8 * i
      (pa, (s.word64 pa).1)
    else [(l.entryPa, l.entry)]

/-- An entry with another frame. -/
def withFrame (e : DWord) (frame : Nat) : DWord :=
  (e &&& ~~~(0x000FFFFFFFFFF000 : DWord)) ||| BitVec.ofNat 64 (frame / 4096 % 2 ^ 40 * 4096)

/-- Every leaf entry of a region with the frame that it is to name. -/
def State.pubPlan (s : State) (a : Agent) (p : PubDesc) : List (Nat × DWord) :=
  (List.range p.npages).flatMap fun j =>
    (s.pubLeaves a p j).map fun e => (e.1, withFrame e.2 (p.inactive + j * 2 ^ p.bits))

/-- Swap the mapping of a region and count it. -/
def State.flip (s : State) (p : PubDesc) (plan : List (Nat × DWord)) : State :=
  let a := Agent.ofCore s.cur.core
  let t := plan.foldl (fun t e => t.storeBytes a (tableScope e.1) .cached e.1 8 e.2.toNat) s
  let first := p.inactive / 64
  let last := (p.inactive + p.length) / 64
  let t := t.dropCopies fun c =>
    decide (first ≤ c.line) && decide (c.line < last) && c.level < 3 && a.covers p.scope c && decide (c.reg < p.scope)
  let old := ((t.loadBytes a 6 .cached (p.pa + 28) 1).1.headD 0)
  let t := t.storeBytes a 6 .cached (p.pa + 28) 1 (old ^^^ 0x80).toNat
  t.storeBytes a 6 .cached (p.pa + 32) 8 ((p.gen + 1) % 2 ^ 64)

/-- `PUBLISH` of a descriptor that has been read. -/
def State.publish (s : State) (va : DWord) (p : PubDesc) : State :=
  let a := Agent.ofCore s.cur.core
  if !p.ok then s.trap causeProtect va
  else
    s.withScope p.scope fun s =>
      match s.pubPoison a p with
      | some page => s.park page 0 0xFF
      | none =>
        s.afterRelease p.scope stallBuffer fun s =>
          let plan := s.pubPlan a p
          if s.linesInUse (plan.map fun e => e.1 / 64) then s.stallOn (.tables (plan.map fun e => e.1 / 64)) stallBuffer
          else ((s.flip p plan).touchEng).endAccess true

def execPublish (a : Code) (s : State) : Out :=
  .next (s.readOp [⟨a.toNat, .s⟩] fun s => s.raising 3 fun s => s.regionEnder fun s =>
    s.checkOne .load 64 (s.wide 0 a) 0 fun p s => s.publish (s.wide 0 a) (s.ownPub p))

/-! ### LAND and UNLAND (R358) -/

/-- Enter a window in the landing table of the group's cluster. -/
def State.landEntry (s : State) (tag : Nat) (shadow : Bool) (va : DWord) (length : Nat) : State :=
  let k := clusterOf s.cur.core
  let mine := s.landings.filter (·.cluster == k)
  if mine.any (·.tag == tag) || 64 ≤ mine.length then s.trap causeProtect 0
  else
    let e : Landing := { cluster := k, tag := tag, launch := s.team.launch, shadow := shadow, va := va, length := length }
    let t : State := { s with landings := s.landings ++ [e] }
    t.touchEng.endAccess true

/-- `LAND`, from s(a) and s(b). -/
def State.land (s : State) (va x : DWord) : State :=
  let tag := nfield x.toNat 0 16
  let shadow := x.getLsbD 16
  let n := nfield x.toNat 32 32
  if nfield x.toNat 17 15 ≠ 0 ∨ va.toNat % 64 ≠ 0 then s.badOperand
  else if shadow then
    if n ≠ 0 then s.badOperand
    else
      s.checkOne .load 64 va 0 fun p s =>
        let d := s.ownPub p
        if !d.ok then s.trap causeProtect va else s.withScope d.scope fun s => s.landEntry tag true va d.length
  else if n = 0 ∨ n % 64 ≠ 0 then s.badOperand
  else s.landEntry tag false va n

def execLand (a b : Code) (s : State) : Out :=
  .next (s.readOp [⟨a.toNat, .s⟩, ⟨b.toNat, .s⟩] fun s => s.raising 3 fun s => s.regionEnder fun s =>
    s.land (s.wide 0 a) (s.wide 1 b))

/-- `UNLAND`, from s(a): it waits for the deliveries that were accepted into the window. -/
def State.unland (s : State) (x : DWord) : State :=
  let k := clusterOf s.cur.core
  let tag := nfield x.toNat 0 16
  let hit (e : Landing) : Bool := e.cluster == k && e.tag == tag
  if s.landings.any fun e => hit e && e.launch == s.team.launch then
    if s.commands.any fun c => c.landing k tag && c.launch == s.team.launch then s.stallOn (.landing tag) stallBuffer
    else
      let t : State := { s with landings := s.landings.filter fun e => !hit e }
      t.touchEng.endAccess true
  else s.badOperand

def execUnland (a : Code) (s : State) : Out :=
  .next (s.readOp [⟨a.toNat, .s⟩] fun s => s.raising 3 fun s => s.regionEnder fun s => s.unland (s.wide 0 a))

end Sys2Proof.Machine
end

