-- ==== Sys2Proof/Machine/Peers.lean ====
section
/-! DEFINITION. The peer table, the security association table and the paths to a peer (R440 to R442). -/

namespace Sys2Proof.Machine

/-! ### Peers (R440) -/

/-- An entry of the peer table. -/
structure PeerEntry where
  /-- entropy offset and local port of each path -/
  paths : List (Nat × Nat)
  pvalid : BitVec 16
  tcnt : Nat
  tbase : Nat
  /-- association index, 0 for unprotected traffic -/
  key : Nat
  /-- IPv6 address of its endpoint -/
  addr : BitVec 128
  /-- valid, its reserved bits 0, and not read as poisoned -/
  ok : Bool

def PeerEntry.ofNat (x : Nat) (poisoned : Bool) : PeerEntry :=
  { paths := (List.range 16).map fun p => (nfield x (320 + 12 * p) 10, nfield x (330 + 12 * p) 2),
    pvalid := BitVec.ofNat 16 (nfield x 288 16), tcnt := nfield x 272 16, tbase := nfield x 256 16,
    key := nfield x 64 64, addr := BitVec.ofNat 128 (nfield x 128 128),
    ok := x.testBit 0 && nfield x 1 63 == 0 && nfield x 304 16 == 0 && decide (nfield x 64 64 ≤ 65535) && !poisoned }

/-- Where the entry of a peer lies. -/
def State.peerPa (s : State) (n : Nat) : Nat := s.peerBase.toNat + 64 * (n - 1)

/-- The entry of peer `n`, if the table has one. -/
def State.peer (s : State) (n : Nat) : Option PeerEntry :=
  if 1 ≤ n ∧ n ≤ s.peerCnt.toNat then
    let r := s.hubNum 0 (s.peerPa n) 64
    let e := PeerEntry.ofNat r.1 r.2
    if e.ok then some e else none
  else none

/-- The peer whose endpoint has an address, the first one in the table; 0 for none (log entry 53). -/
def State.senderOf (s : State) (source : BitVec 128) : Nat :=
  ((List.range' 1 s.peerCnt.toNat).find? fun n => (s.peer n).any fun e => e.addr == source).getD 0

/-- The peer may land in entries with this tag. -/
def PeerEntry.admits (e : PeerEntry) (tag : Nat) : Bool := e.tbase ≤ tag && tag < e.tbase + e.tcnt

/-! ### Security associations (R441) -/

/-- An entry of the association table. -/
structure Assoc where
  rx : Bool
  tx : Bool
  said : Word
  pnlim : DWord
  key : BitVec 256
  /-- its reserved bits are 0, and it was not read as poisoned -/
  ok : Bool

def Assoc.ofNat (x : Nat) (poisoned : Bool) : Assoc :=
  { rx := x.testBit 417, tx := x.testBit 416, said := BitVec.ofNat 32 (nfield x 384 32),
    pnlim := BitVec.ofNat 64 (nfield x 320 64), key := BitVec.ofNat 256 x,
    ok := nfield x 418 94 == 0 && nfield x 256 64 == 0 && !poisoned }

def State.assoc (s : State) (k : Nat) : Option Assoc :=
  if 1 ≤ k ∧ k ≤ s.saCnt.toNat then
    let r := s.hubNum 0 (s.saBase.toNat + 64 * (k - 1)) 64
    some (Assoc.ofNat r.1 r.2)
  else none

/-- The next packet number of an association. -/
def State.nextPn (s : State) (k : Nat) : DWord := sget 0 s.pnNext k

/-- Traffic to a peer can be sent: unprotected, or under an association that may send and is not spent. -/
def State.maySend (s : State) (e : PeerEntry) : Bool :=
  e.key == 0 || (match s.assoc e.key with
    | some a => a.ok && a.tx && decide (s.nextPn e.key < a.pnlim)
    | none => false)

/-! ### Paths (R442, R445) -/

/-- The paths that a command may use: named by its mask, 0 for all, and configured. -/
def PeerEntry.selected (e : PeerEntry) (pmask : BitVec 16) : List Nat :=
  (List.range 16).filter fun p => e.pvalid.getLsbD p && (pmask == 0 || pmask.getLsbD p)

/-- A device port is up. -/
def State.portUp (s : State) (port : Nat) : Bool := s.ports.any fun e => e.1 == port

/-- The device port by which path `p` leaves a hub. -/
def PeerEntry.port (e : PeerEntry) (hub p : Nat) : Nat := 4 * hub + (e.paths.getD p (0, 0)).2

/-- A path is up. -/
def State.pathUp (s : State) (hub n p : Nat) : Bool :=
  match s.peer n with
  | some e => s.portUp (e.port hub p) && !s.pathsDown.contains (hub, (n, p))
  | none => false

/-- Mark a path down. -/
def State.downPath (s : State) (hub n p : Nat) : State :=
  if s.pathsDown.contains (hub, (n, p)) then s else { s with pathsDown := (hub, (n, p)) :: s.pathsDown }

/-- The retransmission timeouts in a row of a path. -/
def State.timeoutsOf (s : State) (hub n p : Nat) : Nat :=
  ((s.timeouts.find? fun e => e.1 == (hub, (n, p))).map (·.2)).getD 0

def State.setTimeouts (s : State) (hub n p k : Nat) : State :=
  let rest := s.timeouts.filter fun e => e.1 != (hub, (n, p))
  { s with timeouts := if k = 0 then rest else ((hub, (n, p)), k) :: rest }

end Sys2Proof.Machine
end

