-- ==== Sys2Proof/Machine/Shape.lean ====
section
/-! DEFINITION. Tensor shape records, the checks that a command's record must pass, and ENGINE_RECORD_READ (R346 to R350,
R354). -/

namespace Sys2Proof.Machine

/-! ### The record (R347, R348) -/

def ShapeRec.ofNat (x : Nat) : ShapeRec :=
  let ndim := nfield x 136 3
  let high := (List.range 5).filter (ndim ≤ ·)
  { pmask := BitVec.ofNat 16 (nfield x 480 16),
    extent := (List.range 5).map fun k => nfield x (440 + 8 * k) 8 + 1,
    stride := (List.range 4).map fun k => (BitVec.ofNat 32 (nfield x (312 + 32 * k) 32)).toInt,
    size := (List.range 5).map fun k => nfield x (192 + 24 * k) 24,
    padval := BitVec.ofNat 32 (nfield x 160 32), padsel := x.testBit 145, spd := x.testBit 144, shadow := x.testBit 143,
    rop := nfield x 139 4, ndim := ndim, esz := nfield x 133 3, op := nfield x 128 4,
    aux := BitVec.ofNat 64 (nfield x 64 64), base := BitVec.ofNat 64 (nfield x 0 64),
    clean := nfield x 496 16 == 0 && nfield x 146 14 == 0 && !x.testBit 132
      && high.all fun k => nfield x (440 + 8 * k) 8 == 0 && nfield x (192 + 24 * k) 24 == 0
        && (k == 0 || nfield x (312 + 32 * (k - 1)) 32 == 0) }

/-- The element size in bytes. -/
def ShapeRec.esize (h : ShapeRec) : Nat := 2 ^ h.esz

/-- The extent of a dimension. -/
def ShapeRec.ext (h : ShapeRec) (k : Nat) : Nat := h.extent.getD k 1

/-- The elements of the box. -/
def ShapeRec.count (h : ShapeRec) : Nat := h.ext 0 * h.ext 1 * h.ext 2 * h.ext 3 * h.ext 4

/-- The bytes of the box. -/
def ShapeRec.total (h : ShapeRec) : Nat := h.count * h.esize

def opLoad : Nat := 0
def opStore : Nat := 1
def opGather : Nat := 2
def opScatter : Nat := 3
def opRedstore : Nat := 4
def opMcast : Nat := 8
def opMcred : Nat := 9

/-- The operation reduces. -/
def ShapeRec.reduces (h : ShapeRec) : Bool := h.op == opRedstore || h.op == opMcred

/-- The operation uses an index list. -/
def ShapeRec.indexed (h : ShapeRec) : Bool := h.op == opGather || h.op == opScatter

/-- log2 of the element size that a reduction fixes (R352). -/
def ropEsz (rop : Nat) : Option Nat :=
  match rop with
  | 1 => some 2
  | 2 => some 2
  | 3 => some 2
  | 4 => some 2
  | 5 => some 1
  | 6 => some 1
  | 7 => some 3
  | _ => none

/-- The operation belongs to the engine, and ndim, esz and rop match it. -/
def ShapeRec.opOk (h : ShapeRec) (cascade : Bool) : Bool :=
  (if cascade then h.op == opMcast || h.op == opMcred else h.op ≤ opRedstore)
    && 1 ≤ h.ndim && h.ndim ≤ 5 && h.esz ≤ 4 && (!h.indexed || 2 ≤ h.ndim)
    && (if h.reduces then ropEsz h.rop == some h.esz else h.rop == 0)

/-- The fields that only some commands use. -/
def ShapeRec.fieldsOk (h : ShapeRec) (c : Command) : Bool :=
  if c.cascade then !h.spd && !h.shadow
  else h.pmask == 0 && c.tag == 0 && c.peer == 0 && (h.shadow || h.indexed || h.aux == 0)
    && (!h.shadow || h.op == opLoad || h.op == opStore || h.op == opRedstore)

/-- The dense side of a scratchpad command lies in the allocation of its team. -/
def State.denseFits (s : State) (c : Command) (h : ShapeRec) : Bool :=
  !h.spd || (match s.team? c.team with
    | some t => c.dense.toNat + h.total ≤ t.spb
    | none => false)

/-- The hub's access to the entry of the peer that a command names (R433). -/
def State.peerReach (s : State) (c : Command) : HubReach := if c.peer = 0 then .ready else s.hubReach 0 .load (s.peerPa c.peer) 64

/-- The peer that a command names can be reached. -/
def State.peerOk (s : State) (c : Command) : Bool :=
  c.peer == 0 || (c.scope == 7 && (s.peerReach c).isReady && (match s.peer c.peer with
    | some e => s.maySend e
    | none => false))

/-- The record is one that the command may use (R354). -/
def State.shapeOk (s : State) (c : Command) (h : ShapeRec) : Bool :=
  h.clean && h.opOk c.cascade && h.fieldsOk c && decide (h.total ≤ 2 ^ 26) && s.denseFits c h && s.peerOk c

/-! ### The engine as a party (R276) -/

def Command.agent (c : Command) : Agent := if c.cascade then Agent.ofHub c.unit else Agent.ofCluster c.unit

def State.command? (s : State) (id : Nat) : Option Command := s.commands.find? (·.id == id)

def State.setCommand (s : State) (c : Command) : State :=
  { s with commands := s.commands.map fun x => if x.id = c.id then c else x }

/-- The launch of a command. It has not completed, since it waits for its commands (R361). -/
def State.launchOf (s : State) (c : Command) : Launch := (s.launch? c.launch).getD Launch.zero

/-- Translate an access of a launch for an agent. -/
def State.partyXlate (s : State) (a : Agent) (l : Launch) (acc : Access) (va : DWord) : Xlate :=
  if canonical va then s.translate a l.desc l.record acc va else .protect

def State.partySettle (s : State) (a : Agent) (l : Launch) (acc : Access) (va : DWord) : State :=
  s.settle a l.desc l.record acc va

/-- A command meets V = 0: a record of kind 5 or 6 is queued, and the command waits for its answer (R376). -/
def State.commandFault (s : State) (c : Command) (va : DWord) (write : Bool) : State :=
  let r := s.record (s.launchOf c) va 0 0xFFFFFFFF (BitVec.ofNat 32 c.tix) (if write then 6 else 5) (if c.cascade then 1 else 0)
  r.2.setCommand { c with fault := some (va, r.1) }

/-- An access waits for the host's translation or for a pull; `none` where it already waits. -/
def State.beginWait (s : State) (a : Agent) (l : Launch) (acc : Access) (va : DWord) : Option State :=
  match s.partyXlate a l acc va with
  | .ats hub page => if s.atsMiss.contains (hub, page) then none else some (s.partySettle a l acc va)
  | .pull d i home => if s.pulls.contains (d, (i, home)) then none else some (s.partySettle a l acc va)
  | _ => none

/-- An access of a party at a line waits for a flip of the page, or for a lost directory half (R419, R436). -/
def State.partyHeld (s : State) (a : Agent) (write : Bool) (scope line : Nat) : Bool := s.heldUp write (a.die.getD 16) scope line

/-- A command is refused: it writes nothing. -/
def State.refuseCommand (s : State) (c : Command) : State := s.setCommand { c with stage := .moved, errors := c.errors + 1 }

/-! ### ENGINE_RECORD_READ (R346) -/

/-- eng falls: the group's operation for a command is complete. -/
def State.engFalls (s : State) (c : Command) : State :=
  s.inGroup c.group fun t => t.modCur fun g =>
    match g.flights.find? (fun f => f.kind == .command c.id) with
    | some f => g.complete f.tag
    | none => g

/-- The record of a command has been read as `x`. -/
def State.takeShape (s : State) (c : Command) (x : Nat) (poisoned : Bool) : State :=
  let h := ShapeRec.ofNat x
  let t := s.engFalls c
  if poisoned || !s.shapeOk c h then t.refuseCommand c else t.setCommand { c with stage := .read, shape := some h, todo := [(0, h.count)] }

/-- The engine reads the shape record at the command's scope. -/
def State.readShape (s : State) (id : Nat) : Option State :=
  match s.command? id with
  | none => none
  | some c =>
    if c.stage != .queued || c.fault.isSome then none
    else if c.skip.contains c.recva then some ((s.engFalls c).refuseCommand c)
    else
      let a := c.agent
      let l := s.launchOf c
      match s.partyXlate a l .load c.recva with
      | .ok p =>
        if s.partyHeld a false c.scope (p.pa / 64) then none
        else
          match (s.peerReach c).waits with
          | some t => s.waitFrom t
          | none =>
          let t := (s.partySettle a l .load c.recva).touch (p.pa / 64)
          let v := t.view a c.scope p.home (p.pa / 64)
          some (t.takeShape c v.1.toNat v.2)
      | .protect => some ((s.engFalls c).refuseCommand c)
      | .fault _ => some (s.commandFault c c.recva false)
      | .ats _ _ => s.beginWait a l .load c.recva
      | .pull _ _ _ => s.beginWait a l .load c.recva

def execEngineRecordRead (cmd : Nat) (s : State) : Out := Out.ofOption "ENGINE_RECORD_READ" (s.readShape cmd)

end Sys2Proof.Machine
end

