-- ==== Sys2Proof/Machine/Boxes.lean ====
section
/-! DEFINITION. What engine commands move: the elements of a box, where each lies, the Runnel operations and the reading
of a Cascade box (R289, R349 to R354, R425). -/

namespace Sys2Proof.Machine

/-! ### Elements (R350, R351) -/

/-- The index of element `n` in dimension `k`. -/
def ShapeRec.index (h : ShapeRec) (n k : Nat) : Nat := (n / ((List.range k).map h.ext).foldl (· * ·) 1) % h.ext k

/-- The coordinate of element `n` in dimension `k`; `list` gives the rows of an indexed operation. -/
def ShapeRec.coord (h : ShapeRec) (c : Command) (list : List Nat) (n k : Nat) : Int :=
  if k = 1 ∧ h.indexed = true then (list.getD (h.index n 1) 0 : Nat) else c.coord.getD k 0 + h.index n k

/-- The element lies inside the tensor. -/
def ShapeRec.inside (h : ShapeRec) (c : Command) (list : List Nat) (n : Nat) : Bool :=
  (List.range h.ndim).all fun k => decide (0 ≤ h.coord c list n k) && decide (h.coord c list n k < (h.size.getD k 0 : Nat))

/-- The byte stride of a dimension. -/
def ShapeRec.strideOf (h : ShapeRec) (k : Nat) : Int := if k = 0 then (h.esize : Int) else h.stride.getD (k - 1) 0

/-- The strided address of element `n`. -/
def ShapeRec.strided (h : ShapeRec) (c : Command) (list : List Nat) (n : Nat) : DWord :=
  h.base + BitVec.ofInt 64 (((List.range h.ndim).map fun k => h.coord c list n k * h.strideOf k).sum)

/-- The dense address of element `n`. -/
def ShapeRec.dense (h : ShapeRec) (c : Command) (n : Nat) : DWord := c.dense + BitVec.ofNat 64 (n * h.esize)

/-- The bytes of an element outside the tensor. -/
def ShapeRec.padding (h : ShapeRec) : List Byte := leBytes h.esize (if h.padsel then h.padval.toNat else 0)

/-! ### Where one side of an element lies -/

inductive Spot where
  | mem (va : DWord) (pa : Nat) (home : Home)
  | scratch (a : Nat)
  /-- outside the tensor -/
  | outside
  /-- outside the region of a shadow command -/
  | beyond
  /-- the element is skipped: misaligned, not permitted, or skipped by a reply -/
  | skip
  /-- V = 0 -/
  | fault (va : DWord)
  /-- the host's translation or a pull is awaited -/
  | wait (va : DWord)
  deriving DecidableEq, Repr

/-- The place of an access of `size` bytes at `va`. -/
def State.spotAt (s : State) (a : Agent) (l : Launch) (skip : List DWord) (acc : Access) (size : Nat) (va : DWord) : Spot :=
  if skip.contains va || !aligned va size then .skip
  else
    match s.partyXlate a l acc va with
    | .ok p => .mem va p.pa p.home
    | .fault _ => .fault va
    | .protect => .skip
    | .ats _ _ => .wait va
    | .pull _ _ _ => .wait va

/-- The place of a shadow write: in the inactive frames, under the permissions of the region's entries (R355). -/
def State.shadowSpot (s : State) (a : Agent) (l : Launch) (p : PubDesc) (skip : List DWord) (acc : Access) (size : Nat)
    (va : DWord) : Spot :=
  match p.shadowPa va with
  | none => .beyond
  | some pa =>
    match s.spotAt a l skip acc size va with
    | .mem va _ _ => .mem va pa .cached
    | x => x

/-- The place of a dense element. -/
def State.denseSpot (s : State) (a : Agent) (l : Launch) (c : Command) (h : ShapeRec) (pub : Option PubDesc) (acc : Access)
    (n : Nat) : Spot :=
  let va := h.dense c n
  if h.spd then (if acc = .store ∧ pub.isSome = true then .beyond else if aligned va h.esize then .scratch va.toNat else .skip)
  else
    match acc, pub with
    | .store, some p => s.shadowSpot a l p c.skip acc h.esize va
    | _, _ => s.spotAt a l c.skip acc h.esize va

/-- The place of a strided element. -/
def State.stridedSpot (s : State) (a : Agent) (l : Launch) (c : Command) (h : ShapeRec) (pub : Option PubDesc)
    (list : List Nat) (acc : Access) (n : Nat) : Spot :=
  if h.inside c list n then
    match acc, pub with
    | .load, _ => s.spotAt a l c.skip acc h.esize (h.strided c list n)
    | _, some p => s.shadowSpot a l p c.skip acc h.esize (h.strided c list n)
    | _, none => s.spotAt a l c.skip acc h.esize (h.strided c list n)
  else .outside

/-- An access at a place is held by a flip or a rebuild (R419, R436). -/
def State.spotHeld (s : State) (a : Agent) (write : Bool) (scope : Nat) : Spot → Bool
  | .mem _ pa _ => s.partyHeld a write scope (pa / 64)
  | _ => false

/-- The first place that waits, in the order given. -/
def firstBlock (xs : List Spot) : Option Spot :=
  xs.find? fun x => match x with
    | .fault _ => true
    | .wait _ => true
    | _ => false

/-! ### Reading and writing -/

/-- The bytes at a place, and whether they are poisoned. -/
def State.readSpot (s : State) (c : Command) (h : ShapeRec) : Spot → List Byte × Bool
  | .mem _ pa home => s.loadBytes c.agent c.scope home pa h.esize
  | .scratch a =>
    match s.team? c.team with
    | some t => ((List.range h.esize).map fun i => sget 0 t.scratch (a + i), t.blockPoisoned a)
    | none => (List.replicate h.esize 0, false)
  | _ => (h.padding, false)

/-- Bytes that go to one line at once: of memory, or of a scratchpad where `home` is `none`. -/
structure LinePiece where
  home : Option Home
  line : Nat
  mask : BitVec 64
  data : BitVec 512
  poison : Bool

/-- The piece that one element writes. -/
def pieceOf (x : Spot) (bs : List Byte) (poison : Bool) : Option LinePiece :=
  match x with
  | .mem _ pa home =>
    let p := placeBytes (pa % 64) bs.length (leNat bs)
    some ⟨some home, pa / 64, p.1, p.2, poison⟩
  | .scratch a =>
    let p := placeBytes (a % 64) bs.length (leNat bs)
    some ⟨none, a / 64, p.1, p.2, poison⟩
  | _ => none

/-- Bytes of a line that earlier pieces of the list write. -/
def writtenBefore (xs : List LinePiece) (p : LinePiece) : BitVec 64 :=
  xs.foldl (fun m x => if x.line = p.line ∧ x.home = p.home then m ||| x.mask else m) 0

/-- Add an element's piece, the last one first. Where an earlier element writes the same byte, which of the two stays is
free; elements that follow one another in a line are written at once. -/
def addPiece (free : BitVec 64) (xs : List LinePiece) (p : LinePiece) : List LinePiece :=
  let q := { p with mask := p.mask &&& ~~~(writtenBefore xs p &&& free) }
  match xs with
  | x :: rest =>
    if x.line = q.line ∧ x.home = q.home then
      ⟨x.home, x.line, x.mask ||| q.mask, mergeLine q.mask x.data q.data, x.poison || (q.poison && q.mask != 0)⟩ :: rest
    else q :: x :: rest
  | [] => [q]

/-- The pieces of a box in the order in which they are written. -/
def piecesOf (seed : Nat) (xs : List (Spot × (List Byte × Bool))) : List LinePiece :=
  (xs.zipIdx.foldl
    (fun acc e =>
      match pieceOf e.1.1 e.1.2.1 e.1.2.2 with
      | some p => addPiece (Config.freeValue (seed + e.2)) acc p
      | none => acc) []).reverse

/-- Write bytes of a block of a team's scratchpad. -/
def Team.setBlock (t : Team) (p : LinePiece) : Team :=
  let q := poisonAfter p.mask (t.spoison.contains p.line) p.poison
  { t with
    scratch := (List.range 64).foldl
      (fun m i => if p.mask.getLsbD i then sset 0 m (64 * p.line + i) (lineByte p.data i) else m) t.scratch,
    spoison := if q then ninsert p.line t.spoison else t.spoison.filter (· ≠ p.line) }

def State.writePiece (s : State) (c : Command) (p : LinePiece) : State :=
  match p.home with
  | some home => s.perform c.agent c.scope home p.line p.mask p.data p.poison
  | none =>
    match s.team? c.team with
    | some t => s.setTeam (t.setBlock p)
    | none => s

/-- Record the translations that a place used. -/
def State.settleSpot (s : State) (a : Agent) (l : Launch) (acc : Access) : Spot → State
  | .mem va _ _ => s.partySettle a l acc va
  | _ => s

/-- The line of a place is about to be read. -/
def State.touchSpot (s : State) : Spot → State
  | .mem _ pa _ => s.touch (pa / 64)
  | _ => s

def Spot.skipped : Spot → Bool
  | .skip => true
  | _ => false

def Spot.isBeyond : Spot → Bool
  | .beyond => true
  | _ => false

/-! ### Reductions (R352) -/

/-- `f(dst, src)` of a reduction. -/
def reduce (rop old src : Nat) : Nat :=
  let atomic (op : AtomOp) : Nat := ((op.apply (BitVec.ofNat 64 old) (BitVec.ofNat 64 src) 0).getD 0).toNat
  match rop with
  | 1 => (old + src) % 2 ^ 32
  | 2 => (f32.add 0 old src).1
  | 3 => atomic .fmin
  | 4 => atomic .fmax
  | 5 => (f16.add 0 old src).1
  | 6 => (bf16.add 0 old src).1
  | _ => (f64.add 0 old src).1

/-- One element combined into its place. -/
def State.combine (s : State) (a : Agent) (scope rop n : Nat) (home : Home) (pa src : Nat) (poison : Bool) : State :=
  let t := s.touch (pa / 64)
  let p := placeBytes (pa % 64) n (reduce rop (leNat (t.loadBytes a scope home pa n).1) src)
  t.perform a scope home (pa / 64) p.1 p.2 poison

/-! ### The descriptor and the list of a command -/

/-- A publish descriptor as it was read: its place and its line. -/
def State.pubRead (s : State) (x : Nat × BitVec 512) : PubDesc := s.pubOf ⟨x.1, .cached, []⟩ (x.2, false)

inductive Prepared where
  | ok (pub : Option (Nat × BitVec 512)) (list : List Nat)
  | refuse
  | fault (va : DWord)
  | wait (va : DWord)

/-- The publish descriptor that a shadow command names. -/
def State.preparePub (s : State) (a : Agent) (l : Launch) (c : Command) (h : ShapeRec) : Prepared :=
  if h.shadow then
    match s.spotAt a l c.skip .load 64 h.aux with
    | .mem _ pa home =>
      let v := s.view a 6 home (pa / 64)
      if (s.pubOf ⟨pa, home, []⟩ v).ok then .ok (some (pa, v.1)) [] else .refuse
    | .fault va => .fault va
    | .wait va => .wait va
    | _ => .refuse
  else .ok none []

/-- The words of the index list. -/
def State.prepareList (s : State) (a : Agent) (l : Launch) (c : Command) (h : ShapeRec) : Prepared :=
  if h.indexed then
    let xs := (List.range (h.ext 1)).map fun i => s.spotAt a l c.skip .load 4 (h.aux + BitVec.ofNat 64 (4 * i))
    match firstBlock xs with
    | some (.fault va) => .fault va
    | some (.wait va) => .wait va
    | _ =>
      let ws := xs.map fun x => match x with
        | .mem _ pa home => let r := s.loadBytes a c.scope home pa 4; if r.2 then none else some (leNat r.1)
        | _ => none
      if ws.any (·.isNone) then .refuse else .ok none (ws.map (·.getD 0))
  else .ok none []

/-- The descriptor and the list, in that order; a command has at most one of the two. -/
def State.prepare (s : State) (c : Command) (h : ShapeRec) : Prepared :=
  let a := c.agent
  let l := s.launchOf c
  if h.indexed then s.prepareList a l c h else s.preparePub a l c h

/-! ### Runnel operations -/

/-- The part of a range of elements that lies among `n` elements from `first` on. -/
def rangeIn (first n : Nat) (r : Nat × Nat) : List Nat :=
  let lo := Nat.max first r.1
  List.range' lo (Nat.min (first + n) (r.1 + r.2) - lo)

/-- The parts of a range that lie outside. -/
def rangeOut (first n : Nat) (r : Nat × Nat) : List (Nat × Nat) :=
  let hi := Nat.max (first + n) r.1
  [(r.1, Nat.min (first - r.1) r.2), (hi, r.1 + r.2 - hi)].filter (·.2 != 0)

/-- The elements that a move takes of those left, and the ranges that are left then. -/
def State.takeElems (s : State) (todo : List (Nat × Nat)) : List Nat × List (Nat × Nat) :=
  let m := s.moveInput
  let xs := todo.flatMap (rangeIn m.first m.count)
  if xs.isEmpty then (todo.flatMap fun r => List.range' r.1 r.2, []) else (xs, todo.flatMap (rangeOut m.first m.count))

/-- Both sides of elements: the one read, and the one written. -/
def State.sides (s : State) (c : Command) (h : ShapeRec) (pub : Option PubDesc) (list elems : List Nat) : List (Spot × Spot) :=
  let a := c.agent
  let l := s.launchOf c
  elems.map fun n =>
    if h.op = opLoad ∨ h.op = opGather then
      (s.stridedSpot a l c h none list .load n, s.denseSpot a l c h pub .store n)
    else
      (s.denseSpot a l c h none .load n,
        s.stridedSpot a l c h pub list (if h.op = opRedstore then .atomic else .store) n)

/-- The marks that count once for a command. -/
def Command.marks (c : Command) (xs : List (Spot × Spot)) (poisoned : Bool) : Command :=
  { c with skipped := c.skipped || xs.any fun e => e.1.skipped || e.2.skipped,
           beyond := c.beyond || xs.any fun e => e.2.isBeyond, poisoned := c.poisoned || poisoned }

/-- Move elements whose every access can be made; `todo` holds those that are left. The dense source of an element that lies outside
the tensor is accessed like any other, though nothing is written (DESIGN CHOICE, log entry 98). -/
def State.moveBox (s : State) (c : Command) (h : ShapeRec) (xs : List (Spot × Spot)) (todo : List (Nat × Nat)) : State :=
  let a := c.agent
  let l := s.launchOf c
  let wacc : Access := if h.op = opRedstore then .atomic else .store
  let t := xs.foldl (fun t e => ((t.settleSpot a l .load e.1).settleSpot a l wacc e.2).touchSpot e.1) s
  let live := xs.filter fun e => !e.1.skipped
  let vals := live.map fun e => (e.2, t.readSpot c h e.1)
  let poisoned := live.any fun e => (t.readSpot c h e.1).2
  let u :=
    if h.op = opRedstore then
      vals.foldl (fun u e => match e.1 with
        | .mem _ pa home => u.combine a c.scope h.rop h.esize home pa (leNat e.2.1) e.2.2
        | _ => u) t
    else (piecesOf t.draws vals).foldl (fun u p => u.writePiece c p) t
  ({ u with draws := u.draws + vals.length }).setCommand
    { c.marks xs poisoned with todo := todo, stage := if todo.isEmpty then .moved else .read }

/-- A Runnel operation on elements of its box: it waits for a page, is refused, or moves them. The elements move in no promised
order (R289). -/
def State.runnel (s : State) (op id : Nat) : Option State :=
  match s.command? id with
  | none => none
  | some c =>
    match c.shape with
    | none => none
    | some h =>
      let (elems, left) := s.takeElems c.todo
      if c.cascade || c.stage != .read || c.fault.isSome || h.op != op || elems.isEmpty then none
      else
        let a := c.agent
        let l := s.launchOf c
        -- the descriptor and the list are read once: no command is refused after its first element (R354)
        match (match c.prep with
          | some p => Prepared.ok p.1 p.2
          | none => s.prepare c h) with
        | .refuse => some (s.refuseCommand c)
        | .fault va => some (s.commandFault c va false)
        | .wait va => s.beginWait a l .load va
        | .ok pub list =>
          let xs := s.sides c h (pub.map s.pubRead) list elems
          let wacc : Access := if op = opRedstore then .atomic else .store
          match firstBlock (xs.map (·.1)), firstBlock (xs.map (·.2)) with
          | some (.fault va), _ => some (s.commandFault c va false)
          | some (.wait va), _ => s.beginWait a l .load va
          | _, some (.fault va) => some (s.commandFault c va true)
          | _, some (.wait va) => s.beginWait a l wacc va
          | _, _ =>
            if xs.any fun e => s.spotHeld a false c.scope e.1 || s.spotHeld a true c.scope e.2 then none
            else some (s.moveBox { c with prep := some (pub, list) } h xs left).tookInput

def execRunnelLoad (cmd : Nat) (s : State) : Out :=
  Out.ofOption "RUNNEL_LOAD" (s.runnel opLoad cmd)

def execRunnelStore (cmd : Nat) (s : State) : Out :=
  Out.ofOption "RUNNEL_STORE" (s.runnel opStore cmd)

def execRunnelGather (cmd : Nat) (s : State) : Out :=
  Out.ofOption "RUNNEL_GATHER" (s.runnel opGather cmd)

def execRunnelScatter (cmd : Nat) (s : State) : Out :=
  Out.ofOption "RUNNEL_SCATTER" (s.runnel opScatter cmd)

def execRunnelRedstore (cmd : Nat) (s : State) : Out :=
  Out.ofOption "RUNNEL_REDSTORE" (s.runnel opRedstore cmd)

end Sys2Proof.Machine
end

