-- ==== Sys2Proof/Machine/Cascade.lean ====
section
/-! DEFINITION. Cascade commands, deliveries on this device, and the end of every engine command (R352, R353, R358 to R360,
R441, R443). -/

namespace Sys2Proof.Machine

/-! ### Deliveries -/

def Command.setDelivery (c : Command) (d : Delivery) : Command :=
  { c with deliveries := c.deliveries.map fun x => if x.cluster = d.cluster then d else x }

def Command.delivery? (c : Command) (cluster : Nat) : Option Delivery := c.deliveries.find? (·.cluster == cluster)

/-- The delivery has neither landed nor been refused. -/
def Delivery.open (d : Delivery) : Bool := d.stage == .sending || d.stage == .flagSent

/-- Refuse one delivery: it counts one refusal (R354). -/
def Command.refuseDelivery (c : Command) (cluster : Nat) : Command :=
  match c.delivery? cluster with
  | some d => if d.open then { c.setDelivery { d with stage := .refused } with errors := c.errors + 1 } else c
  | none => c

/-- Refuse every open delivery. -/
def Command.refuseAll (c : Command) : Command := (c.deliveries.map (·.cluster)).foldl Command.refuseDelivery c

/-- The association that protects the traffic of a command, 0 for none. -/
def State.keyOf (s : State) (c : Command) : Nat := ((s.peer c.peer).map (·.key)).getD 0

/-! ### Packets (R441 to R443) -/

/-- The record of a command that has been read. -/
def Command.shapeRec (c : Command) : ShapeRec := c.shape.getD (ShapeRec.ofNat 0)

/-- The transport headers of a data packet: what the endpoint authenticates. -/
def dataHeader (num : BitVec 32) (cluster tag base size off rop esz : Nat) (poison : Bool) : List Nat :=
  [0, num.toNat, cluster, tag, base, size, off, rop, esz, poison.toNat]

/-- The transport headers of a counter message. -/
def flagHeader (num : BitVec 32) (cluster tag base size : Nat) : List Nat := [1, num.toNat, cluster, tag, base, size]

def SentPacket.header (q : SentPacket) : List Nat :=
  if q.flag then flagHeader q.num q.cluster q.tag q.base q.size
  else dataHeader q.num q.cluster q.tag q.base q.size q.off q.rop q.esz q.poison

/-- The elements at which packets of a box begin: each carries elements that were read, alike in poison, up to a multiple of 4,096
bytes of the box. -/
def packetStarts (h : ShapeRec) (box : List (Option (List Byte × Bool))) : List Nat :=
  (List.range box.length).filter fun i => match (box.getD i none).map (·.2) with
    | none => false
    | some p => i * h.esize % 4096 == 0 || (box.getD (i - 1) none).map (·.2) != some p

/-- The elements of the packet that begins at element `i`. -/
def packetFrom (h : ShapeRec) (box : List (Option (List Byte × Bool))) (i : Nat) : List (Option (List Byte × Bool)) :=
  ((box.drop i).take ((4096 - i * h.esize % 4096) / h.esize)).takeWhile fun e => e.map (·.2) == (box.getD i none).map (·.2)

/-- What the packets of a delivery have in common, before one takes its path. -/
def Command.packet (c : Command) (h : ShapeRec) (d : Delivery) : SentPacket :=
  { hub := c.unit, addr := 0, port := 0, entropy := 0, prot := none, num := d.seq, flag := true, cluster := d.cluster, tag := c.tag,
    base := c.dense.toNat, size := h.total, off := 0, rop := h.rop, esz := h.esz, poison := false, payload := [] }

/-- The data packet of a delivery at an offset of the box. -/
def Command.dataAt (c : Command) (h : ShapeRec) (d : Delivery) (off : Nat) : SentPacket :=
  let xs := packetFrom h c.box (off / h.esize)
  { c.packet h d with
    num := d.msg, flag := false, off := off, poison := xs.any fun e => (e.map (·.2)).getD false,
    payload := xs.flatMap fun e => (e.map (·.1)).getD [] }

/-- The paths that a command may use. -/
def State.pathsOf (s : State) (c : Command) : List Nat :=
  match s.peer c.peer, c.shape with
  | some e, some h => e.selected h.pmask
  | _, _ => []

/-- A packet leaves by a path, encrypted where an association protects the peer; a spent association sends nothing (R441). -/
def State.sendOn (s : State) (e : PeerEntry) (path : Nat) (q : SentPacket) : State :=
  let way := e.paths.getD path (0, 0)
  let q := { q with addr := e.addr, port := way.2, entropy := way.1 }
  match (if e.key = 0 then none else s.assoc e.key) with
  | none => { s with sent := q :: s.sent }
  | some a =>
    let pn := s.nextPn e.key
    if a.pnlim ≤ pn then s
    else
      let text := Config.gcmText a.key (a.said ++ pn) q.payload
      let tag := Config.gcmTag a.key (a.said ++ pn) (Config.uetHeader q.header) text
      { s with sent := { q with prot := some (a.said, (pn, tag)), payload := text } :: s.sent,
               pnNext := sset 0 s.pnNext e.key (pn + 1) }

/-- Packets that a hub has sprayed to a peer. -/
def State.sprayedTo (s : State) (hub peer : Nat) : Nat := ((s.sprayed.find? fun e => e.1 == (hub, peer)).map (·.2)).getD 0

/-- A packet goes round-robin over the selected paths that are up, another one than `avoid` where there is one (R442, R444;
log entry 53). -/
def State.spray (s : State) (c : Command) (avoid : Option Nat) (q : SentPacket) : State :=
  match s.peer c.peer with
  | none => s
  | some e =>
    let ups := (s.pathsOf c).filter (s.pathUp c.unit c.peer)
    let others := ups.filter fun p => avoid != some p
    let ps := if others.isEmpty then ups else others
    let k := s.sprayedTo c.unit c.peer
    match ps[k % ps.length]? with
    | none => s
    | some p =>
      ({ s with sprayed := ((c.unit, c.peer), k + 1) :: s.sprayed.filter fun x => x.1 != (c.unit, c.peer) }).sendOn e p q

/-- An association whose packet numbers are spent refuses the deliveries in flight under it (R441). -/
def State.spend (s : State) (k : Nat) : State :=
  match (if k = 0 then none else s.assoc k) with
  | none => s
  | some a =>
    if a.pnlim ≤ s.nextPn k then
      { s with commands := s.commands.map fun x => if x.peer ≠ 0 ∧ s.keyOf x = k then x.refuseAll else x }
    else s

/-- Packets leave for the peer of a command. -/
def State.sendPackets (s : State) (c : Command) (avoid : Option Nat) (qs : List SentPacket) : State :=
  (qs.foldl (fun t q => t.spray c avoid q) s).spend (s.keyOf c)

/-- The counter message of a delivery leaves, with the sequence number that is next (R443). -/
def State.sendFlag (s : State) (c : Command) (h : ShapeRec) (d : Delivery) : State :=
  let q := sget 0 s.nextSeq c.peer
  let d := { d with stage := .flagSent, seq := q, unacked := [] }
  (({ s with nextSeq := sset 0 s.nextSeq c.peer (q + 1) }).setCommand (c.setDelivery d)).sendPackets c none [c.packet h d]

/-- Deliveries to a peer that are not acknowledged (R443). -/
def State.openTo (s : State) (peer : Nat) : Nat :=
  ((s.commands.filter (·.peer == peer)).map fun c => (c.deliveries.filter Delivery.open).length).sum

/-! ### Reading the box -/

/-- The clusters named by a mask. -/
def clustersOf (aux : DWord) : List Nat := (List.range 64).filter aux.getLsbD

/-- The deliveries of a command; those to a peer take consecutive message numbers. -/
def deliveriesOf (c : Command) (h : ShapeRec) (box : List (Option (List Byte × Bool))) (first : BitVec 32) : List Delivery :=
  (clustersOf h.aux).zipIdx.map fun e =>
    { cluster := e.1, stage := .sending, msg := if c.peer = 0 then 0 else first + BitVec.ofNat 32 e.2, seq := 0,
      unacked := if c.peer = 0 then [] else (packetStarts h box).map (· * h.esize), todo := [(0, h.count)], pub := none }

/-- The deliveries of a command begin: their data packets leave, and the counter message of one that has none. -/
def State.sendDeliveries (s : State) (id : Nat) (h : ShapeRec) (ds : List Delivery) : State :=
  ds.foldl (fun t d =>
    match t.command? id with
    | none => t
    | some c =>
      if !(c.delivery? d.cluster).any Delivery.open then t
      else if d.unacked.isEmpty then t.sendFlag c h d else t.sendPackets c none (d.unacked.map fun off => c.dataAt h d off)) s

/-- The box has been read: its deliveries begin. -/
def State.startDeliveries (s : State) (c : Command) (h : ShapeRec) (xs : List Spot) : State :=
  let a := c.agent
  let t := xs.foldl (fun t x => (t.settleSpot a (s.launchOf c) .load x).touchSpot x) s
  -- a reduction combines only elements inside the tensor (R352)
  let box := xs.map fun x => if x.skipped || (h.reduces && x == .outside) then none else some (t.readSpot c h x)
  let ds := deliveriesOf c h box (sget 0 s.nextMsg c.peer)
  let c' := { (c.marks (xs.map fun x => (x, Spot.outside)) (box.any fun e => (e.map (·.2)).getD false)) with
    stage := .moved, box := box, deliveries := ds }
  let t := t.setCommand c'
  if c.peer = 0 then t
  else
    let t := { t with nextMsg := sset 0 t.nextMsg c.peer (sget 0 t.nextMsg c.peer + BitVec.ofNat 32 ds.length) }
    t.sendDeliveries c.id h ds

/-- MCAST or MCRED: it waits for a page, or reads its box. -/
def State.cascade (s : State) (op id : Nat) : Option State :=
  match s.command? id with
  | none => none
  | some c =>
    match c.shape with
    | none => none
    | some h =>
      if !c.cascade || c.stage != .read || c.fault.isSome || h.op != op
          || (c.peer != 0 && decide (4096 < s.openTo c.peer + (clustersOf h.aux).length)) then none
      else
        let a := c.agent
        let l := s.launchOf c
        let xs := (List.range h.count).map fun n => s.stridedSpot a l c h none [] .load n
        match firstBlock xs with
        | some (.fault va) => some (s.commandFault c va false)
        | some (.wait va) => s.beginWait a l .load va
        | _ => if xs.any (s.spotHeld a false c.scope) then none else some (s.startDeliveries c h xs)

def execCascadeMcast (cmd : Nat) (s : State) : Out := Out.ofOption "CASCADE_MCAST" (s.cascade opMcast cmd)

def execCascadeMcred (cmd : Nat) (s : State) : Out := Out.ofOption "CASCADE_MCRED" (s.cascade opMcred cmd)

/-! ### Windows (R358 to R360) -/

/-- The cluster is part of the device and its die answers. -/
def State.clusterAlive (s : State) (k : Nat) : Bool :=
  let d := s.die (k / 4)
  decide (k < 64) && s.fuses.dmask.getLsbD (k / 4) && (d.dstate == 1 || d.dstate == 4) && !d.cmask.getLsbD (k % 4)

/-- A window ready to be written. -/
inductive Window? where
  /-- virtual base, length, and the descriptor of a shadow entry as it was read -/
  | ok (base : DWord) (length : Nat) (pub : Option (Nat × BitVec 512))
  | refuse
  | fault (va : DWord)
  | wait (va : DWord)

/-- The window of an entry, as a party of the entry's launch finds it; `known` is its publish descriptor where it has been read. -/
def State.windowOf (s : State) (a : Agent) (skip : List DWord) (e : Landing) (known : Option (Nat × BitVec 512)) : Window? :=
  match s.launch? e.launch with
  | none => .refuse
  | some l =>
    if e.shadow then
      match known with
      | some x => .ok (BitVec.ofNat 64 (s.pubRead x).va) e.length (some x)
      | none =>
        match s.spotAt a l skip .load 64 e.va with
        | .mem _ pa home =>
          let v := s.view a 6 home (pa / 64)
          let d := s.pubOf ⟨pa, home, []⟩ v
          if d.ok then .ok (BitVec.ofNat 64 d.va) e.length (some (pa, v.1)) else .refuse
        | .fault va => .fault va
        | .wait va => .wait va
        | _ => .refuse
    else .ok e.va e.length none

/-- The box lies within [8, length) of a window. -/
def boxFits (base size length : Nat) : Bool := 8 ≤ base && base + size ≤ length

/-- Where `n` bytes at an offset of a window go. -/
def State.windowSpot (s : State) (a : Agent) (l : Launch) (skip : List DWord) (base : DWord) (pub : Option PubDesc)
    (acc : Access) (off n : Nat) : Spot :=
  let va := base + BitVec.ofNat 64 off
  match pub with
  | some p => s.shadowSpot a l p skip acc n va
  | none => s.spotAt a l skip acc n va

/-- Raise an arrival counter by an atomic of a scope (R359). -/
def State.raiseArrival (s : State) (a : Agent) (scope : Nat) : Spot → State
  | .mem _ pa home => (s.touch (pa / 64)).atomicAt a scope home pa fun old => (old + 1) % 2 ^ 64
  | _ => s

/-- Write a list of elements at their places: plainly, or combined by `rop`. -/
def State.writeElems (s : State) (a : Agent) (scope rop size : Nat) (xs : List (Spot × (List Byte × Bool))) : State :=
  let t :=
    if rop = 0 then
      (piecesOf s.draws xs).foldl (fun u p => match p.home with
        | some home => u.perform a scope home p.line p.mask p.data p.poison
        | none => u) s
    else
      xs.foldl (fun u e => match e.1 with
        | .mem _ pa home => u.combine a scope rop size home pa (leNat e.2.1) e.2.2
        | _ => u) s
  { t with draws := t.draws + xs.length }

/-! ### CASCADE_DELIVERY (R360) -/

/-- Elements of a delivery whose window is ready are written; after the last ones the delivery is counted. -/
def State.landDelivery (s : State) (c : Command) (h : ShapeRec) (d : Delivery) (l : Launch) (base : DWord)
    (pub : Option (Nat × BitVec 512)) : Option State :=
  let a := c.agent
  let acc : Access := if h.reduces then .atomic else .store
  let (elems, left) := s.takeElems d.todo
  let xs := (elems.filterMap fun i => ((c.box[i]?).join).map fun v =>
    (s.windowSpot a l c.skip base (pub.map s.pubRead) acc (c.dense.toNat + i * h.esize) h.esize, v))
  let ctr := s.spotAt a l c.skip .atomic 8 base
  match firstBlock (xs.map (·.1) ++ [ctr]) with
  | some (.fault va) => some (s.commandFault c va true)
  | some (.wait va) => s.beginWait a l acc va
  | _ =>
    if xs.any (fun e => s.spotHeld a true c.scope e.1) || s.spotHeld a true c.scope ctr then none else
    let t := xs.foldl (fun t e => t.settleSpot a l acc e.1) s
    let t := t.settleSpot a l .atomic ctr
    let t := t.writeElems a c.scope h.rop h.esize xs
    let c := c.marks (xs.map fun e => (e.1, e.1)) false
    some ((if left.isEmpty then
      (t.raiseArrival a c.scope ctr).setCommand ((c.setDelivery { d with stage := .landed, todo := [] }).marks [(ctr, ctr)] false)
    else t.setCommand (c.setDelivery { d with todo := left, pub := pub })) : State).tookInput

/-- Elements of a delivery on this device reach its cluster. Its elements are written in no promised order;
a box that may not land is refused before the first (R289, R360). -/
def State.deliverLocal (s : State) (id cluster : Nat) : Option State :=
  match s.command? id with
  | none => none
  | some c =>
    match c.shape, c.delivery? cluster with
    | some h, some d =>
      if c.peer != 0 || d.stage != .sending || c.fault.isSome || (s.takeElems d.todo).1.isEmpty then none
      else
        let refused := s.setCommand (c.refuseDelivery cluster)
        match s.landings.find? fun e => e.cluster == cluster && e.tag == c.tag && e.launch == c.launch with
        | none => some refused
        | some e =>
          if !s.clusterAlive cluster || !boxFits c.dense.toNat h.total e.length then some refused
          else
            match s.windowOf c.agent c.skip e d.pub with
            | .refuse => some refused
            | .fault va => some (s.commandFault c va false)
            | .wait va => s.beginWait c.agent (s.launchOf c) .load va
            | .ok base _ pub => s.landDelivery c h d (s.launchOf c) base pub
    | _, _ => none

def execCascadeDelivery (cmd cluster : Nat) (s : State) : Out :=
  Out.ofOption "CASCADE_DELIVERY" (s.deliverLocal cmd cluster)

/-! ### ENGINE_COMMAND_END (R353) -/

/-- The refusals and errors of a command (R354). -/
def Command.r (c : Command) : Nat :=
  c.errors + (if c.skipped then 1 else 0) + (if c.beyond then 1 else 0) + (if c.poisoned then 1 else 0)

/-- Who counts a command: its engine, or the hub where the engine's die has failed (R418). -/
def Command.counter (c : Command) : Agent := if c.stage == .lost then Agent.ofHub (ipoOf (c.unit / 4)) else c.agent

/-- Count a command on its counter, and forget it. -/
def State.endCommand (s : State) (id : Nat) : Option State :=
  match s.command? id with
  | none => none
  | some c =>
    if !(c.stage == .moved || c.stage == .lost) || c.fault.isSome || c.deliveries.any Delivery.open then none
    else
      let a := c.counter
      let l := s.launchOf c
      let gone (t : State) : State := { t with commands := t.commands.filter (·.id != id) }
      match s.spotAt a l c.skip .atomic 8 c.ctr with
      | .fault va => some (s.commandFault c va true)
      | .wait va => s.beginWait a l .atomic va
      | .mem va pa home => if s.spotHeld a true c.scope (.mem va pa home) then none
        else some (gone (s.countAt a c.scope l.desc l.record c.ctr c.r))
      | _ => some (gone (s.countAt a c.scope l.desc l.record c.ctr c.r))

def execEngineCommandEnd (cmd : Nat) (s : State) : Out := Out.ofOption "ENGINE_COMMAND_END" (s.endCommand cmd)

end Sys2Proof.Machine
end

