-- ==== Sys2Proof/Machine/Faults.lean ====
section
/-! DEFINITION. Faults between the device and the pager, and the watchdog: FAULT_RECORD_APPEND, the four replies and
WATCHDOG_TRAP (R366, R371 to R379). -/

namespace Sys2Proof.Machine

/-! ### Rings (R372, R374) -/

/-- Bytes that a hub writes at SYS scope. -/
def State.hubStore (s : State) (hub pa : Nat) : List Byte → State
  | [] => s
  | b :: rest => (s.storeBytes (Agent.ofHub hub) 7 .cached pa 1 b.toNat).hubStore hub (pa + 1) rest

/-- The header of a ring: capacity, `wr` and `rd`, and whether it is poisoned. -/
structure RingHeader where
  cap : Nat
  wr : Word
  rd : Word
  poisoned : Bool

def State.ringHeader (s : State) (base : Nat) : RingHeader :=
  let x := s.hubNum 0 base 64
  { cap := nfield x.1 0 32, wr := BitVec.ofNat 32 (nfield x.1 32 32), rd := BitVec.ofNat 32 (nfield x.1 64 32),
    poisoned := x.2 }

/-- A record fits: the capacity is in range and `wr - rd` does not stand at it. -/
def RingHeader.hasRoom (h : RingHeader) : Bool := !h.poisoned && capInRange h.cap && decide ((h.wr - h.rd).toNat < h.cap)

/-- An entry waits: the capacity is in range and `rd` has not reached `wr`. -/
def RingHeader.hasEntry (h : RingHeader) : Bool := !h.poisoned && capInRange h.cap && h.wr != h.rd

/-! ### Fault records (R373) -/

/-- The 32 bytes of a fault record. -/
def FaultRec.bytes (r : FaultRec) : List Byte :=
  leBytes 32 (packFields [(1, 1), (0, 15), (r.info, 8), (r.kind, 8), (r.seq.toNat, 16), (r.ctx, 16), (r.tix.toNat, 32),
    (r.tid0.toNat, 32), (r.pc.toNat, 64), (r.va.toNat, 64)])

/-- Drop the first record of a context. -/
def dropRecord (ctx : Nat) : List FaultRec → List FaultRec
  | [] => []
  | r :: rest => if r.ctx = ctx then rest else r :: dropRecord ctx rest

/-- The oldest record of a context that waits for room is written, then `wr`, then the pager is signalled. -/
def State.appendRecord (s : State) (ctx : Nat) : Option State :=
  match s.faultRecs.find? (·.ctx == ctx) with
  | none => none
  | some r =>
    let h := s.ringHeader r.fqa
    let entry := r.fqa + 64 + 32 * (h.wr.toNat % h.cap)
    match s.hubReachAll 0 ((.load, (r.fqa, 64)) :: if h.hasRoom then [(.store, (entry, 32)), (.store, (r.fqa + 4, 4))] else []) with
    | .wait t => s.waitFrom t
    | .refused => none
    | .ready =>
    if h.hasRoom then
      let t := s.hubStore 0 entry r.bytes
      let t := t.hubStore 0 (r.fqa + 4) (leBytes 4 (h.wr + 1).toNat)
      some { t with faultRecs := dropRecord ctx s.faultRecs,
                    interrupts := if r.sig = 1 then t.interrupts ++ [r.ivec] else t.interrupts }
    else none

def execFaultRecordAppend (ctx : Nat) (s : State) : Out := Out.ofOption "FAULT_RECORD_APPEND" (s.appendRecord ctx)

/-! ### Replies (R374 to R376) -/

/-- An entry of a reply area. -/
structure ReplyEntry where
  seq : BitVec 16
  act : Nat
  /-- its reserved field is 0, its act is not 3, and it was not read as poisoned -/
  ok : Bool

/-- The context number of a team's launch. -/
def State.ctxOfTeam (s : State) (team : Nat) : Option Nat :=
  match s.team? team with
  | none => none
  | some t => (s.launch? t.launch).map (·.record.ctx)

/-- The groups of a context that are parked on the fault with a number. -/
def State.parkedOn (s : State) (ctx : Nat) (seq : BitVec 16) : List Group :=
  s.groups.filter fun g => s.ctxOfTeam g.team == some ctx && g.live
    && (match g.fault with
      | some f => f.seq == seq
      | none => false)

/-- The commands of a context that wait on the fault with a number. -/
def State.commandsOn (s : State) (ctx : Nat) (seq : BitVec 16) : List Command :=
  s.commands.filter fun c => ((s.launch? c.launch).map (·.record.ctx)) == some ctx
    && (match c.fault with
      | some f => f.2 == seq
      | none => false)

/-- The context has teams on the device. -/
def State.ctxResident (s : State) (ctx : Nat) : Bool := s.teams.any fun t => s.ctxOfTeam t.id == some ctx && !t.stopping

/-- The context number of a saved unit's launch. -/
def State.ctxOfUnit (s : State) (u : SavedUnit) : Option Nat := (s.launch? u.launch).map (·.record.ctx)

/-- A group of the unit waits on the fault with a number, and no reply to it has been consumed. -/
def SavedUnit.waitsOn (u : SavedUnit) (seq : BitVec 16) : Bool :=
  (u.groups.any fun g => (g.fault.map (·.seq)) == some seq) && !u.answers.any fun a => a.1 == seq

/-- The saved units of a context with a group that waits on the fault with a number. -/
def State.savedOn (s : State) (ctx : Nat) (seq : BitVec 16) : List SavedUnit :=
  s.units.filter fun u => s.ctxOfUnit u == some ctx && u.waitsOn seq

/-- The reply area of a context: that of its admitted launches. -/
def State.replyArea (s : State) (ctx : Nat) : Option Nat :=
  (s.launches.find? fun l => l.record.ctx == ctx).map (·.desc.rpa)

/-- What the reading of a context's next reply, and its consumption, need: the header of its reply area and, where one waits, the
entry and `rd`. -/
def State.replyReach (s : State) (rpa : Nat) : HubReach :=
  let h := s.ringHeader rpa
  s.hubReachAll 0 ((.load, (rpa, 64)) ::
    if h.hasEntry then [(.load, (rpa + 64 + 8 * (h.rd.toNat % h.cap), 8)), (.store, (rpa + 8, 4))] else [])

/-- The next reply of a context cannot be read yet. -/
def State.replyWaits (s : State) (ctx : Nat) : Option State :=
  match s.replyArea ctx with
  | none => none
  | some rpa => (s.replyReach rpa).waits

/-- The next entry of a context's reply area, and the state in which it has been consumed. -/
def State.takeReply (s : State) (ctx : Nat) : Option (ReplyEntry × State) :=
  match s.replyArea ctx with
  | none => none
  | some rpa =>
    let h := s.ringHeader rpa
    if h.hasEntry && (s.replyReach rpa).isReady then
      let x := s.hubNum 0 (rpa + 64 + 8 * (h.rd.toNat % h.cap)) 8
      some ({ seq := BitVec.ofNat 16 x.1, act := nfield x.1 16 2,
              ok := !x.2 && nfield x.1 18 46 == 0 && nfield x.1 16 2 != 3 },
        s.hubStore 0 (rpa + 8) (leBytes 4 (h.rd + 1).toNat))
    else none

/-- The fault of the group in focus is answered: it runs again. -/
def Group.unpark (g : Group) : Group := { g with fault := none, switch := true, wait := .none }

/-- Act 0: the group will replay, or fetch again. -/
def State.replay (s : State) : State := s.modCur Group.unpark

/-- Act 1: the group takes the page-fault trap. -/
def State.deliverFault (s : State) : State :=
  let va := match s.cur.fault with
    | some f => f.va
    | none => 0
  (s.modCur Group.unpark).trap causePage va

/-- Act 2: the launch of the group ends. -/
def State.endByReply (s : State) : State :=
  match s.cur.fault with
  | some f => s.endOwnLaunch causePage f.va
  | none => s

/-- Change the commands in a list. -/
def State.mapCommands (s : State) (cs : List Command) (f : Command → Command) : State :=
  { s with commands := s.commands.map fun c => if cs.any (·.id == c.id) then f c else c }

/-- The access is made again. -/
def Command.retry (c : Command) : Command := { c with fault := none }

/-- The element is skipped. -/
def Command.skipFault (c : Command) : Command :=
  match c.fault with
  | some f => { c with fault := none, skip := c.skip ++ [f.1] }
  | none => c

/-- The launches of commands end; no group's instruction ended them. -/
def State.endCommandLaunches (s : State) (cs : List Command) : State :=
  cs.foldl (fun t c => t.endLaunch c.launch (match c.fault with
    | some f => f.1
    | none => 0) 0 0xFFFFFFFF 0xFFFFFFFF causePage) s

/-- The launch of a saved unit ends by a reply, at the instruction of the group that waits. -/
def State.endSaved (s : State) (seq : BitVec 16) (u : SavedUnit) : State :=
  match u.groups.find? fun g => (g.fault.map (·.seq)) == some seq with
  | some g =>
    match g.fault with
    | some f => s.endLaunch u.launch f.va g.pc g.tid0 (BitVec.ofNat 32 g.tix) causePage
    | none => s
  | none => s

/-- A reply to a saved group's fault: it is kept for the resume, but an end of the launch comes at once (R374, R375). -/
def State.answerSaved (s : State) (ctx act : Nat) (seq : BitVec 16) : State :=
  let us := s.savedOn ctx seq
  if act = 2 then us.foldl (fun t u => t.endSaved seq u) s
  else
    { s with units := s.units.map fun u => if us.any (·.id == u.id) then { u with answers := u.answers ++ [(seq, act)] } else u }

/-- Apply an answer to what waits on the fault with a number on the device. -/
def State.answerHere (s : State) (ctx act : Nat) (seq : BitVec 16) : State :=
  let gs := (s.parkedOn ctx seq).map (·.id)
  let cs := s.commandsOn ctx seq
  match act with
  | 0 => (s.inEach gs State.replay).mapCommands cs Command.retry
  | 1 => (s.inEach gs State.deliverFault).mapCommands cs Command.skipFault
  | _ => ((s.inEach gs State.endByReply).endCommandLaunches cs).mapCommands cs Command.retry

/-- Apply an answer to what waits on the fault with a number. -/
def State.answer (s : State) (ctx act : Nat) (seq : BitVec 16) : State := (s.answerHere ctx act seq).answerSaved ctx act seq

/-- An engine command waits on the fault that an entry names. -/
def State.matchedCommand (s : State) (ctx : Nat) (e : ReplyEntry) : Bool := e.ok && !(s.commandsOn ctx e.seq).isEmpty

/-- Something waits on the fault that an entry names. -/
def State.matched (s : State) (ctx : Nat) (e : ReplyEntry) : Bool :=
  e.ok && (!(s.parkedOn ctx e.seq).isEmpty || !(s.commandsOn ctx e.seq).isEmpty || !(s.savedOn ctx e.seq).isEmpty)

/-- The next reply of a context is consumed; it must carry the act given and match a pending fault. While no team of the context
is on the device, only a reply to an engine command's fault is consumed (R375, R376). -/
def State.reply (s : State) (ctx act : Nat) : Option State :=
  match s.replyWaits ctx, s.takeReply ctx with
  | some t, _ => s.waitFrom t
  | none, some r =>
    if (if s.ctxResident ctx then s.matched ctx r.1 else s.matchedCommand ctx r.1) && r.1.act == act then
      some (r.2.answer ctx act r.1.seq)
    else none
  | none, none => none

/-- The next reply of a context is consumed and does nothing. -/
def State.replyLost (s : State) (ctx : Nat) : Option State :=
  if s.ctxResident ctx then
    match s.takeReply ctx with
    | some r => if s.matched ctx r.1 then none else some r.2
    | none => none
  else none

def execReplyReplay (ctx : Nat) (s : State) : Out := Out.ofOption "REPLY_REPLAY" (s.reply ctx 0)

def execReplyDeliver (ctx : Nat) (s : State) : Out := Out.ofOption "REPLY_DELIVER" (s.reply ctx 1)

def execReplyEndLaunch (ctx : Nat) (s : State) : Out := Out.ofOption "REPLY_END_LAUNCH" (s.reply ctx 2)

def execReplyNoEffect (ctx : Nat) (s : State) : Out := Out.ofOption "REPLY_NO_EFFECT" (s.replyLost ctx)

/-! ### The watchdog (R378, R379) -/

/-- The group in focus stalls at a phase that needs a group in its handler for cause 9 (R379). -/
def State.escalated (s : State) : Bool :=
  s.cur.live && s.cur.fault.isNone && (match s.cur.wait with
    | .bar k phase => s.barPhase k == phase && s.barNeedsTrapped k
    | .cbar phase => s.launch.cphase == phase && s.cbarNeedsTrapped
    | .rendezvous _ _ _ => s.watchdogIn s.cur
    | .retry => (match s.cur.hold with
      | .arrived k sync => s.cur.stalled != 0 && sync && s.cur.arrived.contains (k, s.barPhase k) && s.barNeedsTrapped k
      | _ => false)
    | _ => false)

/-- The group in focus has reached the limit, or stalls at a phase that needs a group in its handler for cause 9. -/
def State.watchdogFires (s : State) : Option State :=
  if !s.cur.live || s.cur.fault.isSome then none
  else if 2 ^ 24 ≤ s.cur.watchdog then some (s.trap causeWatchdog 0)
  else if s.escalated then
    match s.cur.wait with
    | .bar k _ => some ((s.withdrawBar k).trap causeWatchdog 1)
    | .cbar _ => some ((s.setLaunch { s.launch with ccount := s.launch.ccount - s.cur.threads.length }).trap causeWatchdog 1)
    | _ => some (s.trap causeWatchdog 1)
  else none

def execWatchdogTrap (g : Nat) (s : State) : Out := Out.ofOption "WATCHDOG_TRAP" (s.inGroup? g State.watchdogFires)

end Sys2Proof.Machine
end

