-- ==== Sys2Proof/Machine/Launching.lean ====
section
/-! DEFINITION. From a queue entry to the completion of a launch: doorbells, admission, dependences, placement,
completion and queue leadership (R169, R170, R395 to R408). -/

namespace Sys2Proof.Machine

/-! ### Doorbells (R396, R397) -/

/-- A write of `wr`: beyond the capacity it sets err and nothing is consumed until a valid one. -/
def Queue.doorbell (b : Queue) (wr : Word) : Queue :=
  if (wr - b.rd).toNat ≤ b.cap.toNat then { b with wr := wr, blocked := false } else { b with err := true, blocked := true }

def State.ring (s : State) (q : Nat) (wr : Word) : Option State :=
  if q < 128 then some (s.setQueue q ((s.queue q).doorbell wr)) else none

def execLaunchQueueDoorbell (q : Nat) (wr : Word) (s : State) : Out := Out.ofOption "LAUNCH_QUEUE_DOORBELL" (s.ring q wr)

/-! ### Leadership (R407, R408) -/

/-- The die may lead a queue. -/
def State.mayLead (s : State) (d : Nat) : Bool :=
  let x := s.die d
  s.fuses.dmask.getLsbD d && x.dstate == 1 && decide (x.csteps < 4)

/-- The queue that a launch came from has a leader, who tracks its dependences and places it (R407, R408). A queue that has
been disabled since has none. -/
def State.led (s : State) (l : Launch) : Bool :=
  match l.queue with
  | none => true
  | some q => !(s.queue q).en || (match (s.queue q).leader with
    | some d => s.mayLead d
    | none => false)

/-- The hub withdraws the leases of dies that may not lead any more (R408). -/
def State.withdraw (s : State) : State :=
  { s with queues := s.queues.map fun e =>
      if e.2.leader.any (fun d => !s.mayLead d) then (e.1, { e.2 with leader := none }) else e }

/-- The command processors run their firmware (R428). -/
def State.managed (s : State) : Bool := s.power == .on

/-- The queues that a die leads. -/
def State.leads (s : State) (d : Nat) : Nat := (s.queues.filter fun e => e.2.en && e.2.leader == some d).length

/-- The candidate with the fewest queues, the lowest number first. -/
def State.leastLeading (s : State) : List Nat → Option Nat
  | [] => none
  | d :: rest =>
    match s.leastLeading rest with
    | none => some d
    | some e => if s.leads d ≤ s.leads e then some d else some e

/-- The die that a queue's home hub elects. -/
def State.elect (s : State) (q : Nat) : Option Nat :=
  let near := (List.range 8).map fun d => 8 * (q % 2) + d
  let far := (List.range 8).map fun d => 8 * ((q + 1) % 2) + d
  match s.leastLeading (near.filter s.mayLead) with
  | some d => some d
  | none => s.leastLeading (far.filter s.mayLead)

/-- An enabled queue has no leader, or one that has to give way. -/
def State.needsLeader (s : State) (q : Nat) : Bool :=
  (s.queue q).en && (match (s.queue q).leader with
    | some d => !s.mayLead d
    | none => true)

def State.electLeader (s : State) (q : Nat) : Option State :=
  if q < 128 ∧ s.needsLeader q = true ∧ s.managed = true then
    let t := s.setQueue q { s.queue q with leader := none }
    (t.elect q).map fun d => t.setQueue q { t.queue q with leader := some d }
  else none

def execLeaderElection (q : Nat) (s : State) : Out := Out.ofOption "LEADER_ELECTION" (s.electLeader q)

/-! ### Consuming an entry (R398, R401) -/

/-- The entry of a queue that `rd` points at is done with. -/
def State.consumed (s : State) (q : Nat) (err : Bool) : State :=
  let b := s.queue q
  s.setQueue q { b with rd := b.rd + 1, err := b.err || err }

/-- An admitted launch of a queue has yet to become eligible. -/
def State.queueHeld (s : State) (q : Nat) : Bool := s.launches.any fun l => l.queue == some q && l.stage == .waiting

/-- A record has been read from a queue: it is admitted, or refused and counted. -/
def State.admitRec (s : State) (q : Nat) (va : DWord) (x : ReadRec) : Option State :=
  if s.admissible (q % 2) (s.queue q).ctx x then
    let n := s.number
    some ({ n.2 with launches := n.2.launches ++ [newLaunch n.1 s x va (some q)] }.consumed q false)
  else s.counted (q % 2) x.desc x.record 1 fun t => t.consumed q false

/-- The entry of a queue at `rd` has been read: its record is read in turn, or it is skipped. -/
def State.takeEntry (s : State) (q : Nat) (entry : Nat × Bool) : Option State :=
  let va : DWord := BitVec.ofNat 64 entry.1
  let ctx := (s.queue q).ctx
  if entry.2 || va.toNat % 128 != 0 then some (s.consumed q true)
  else
    match s.readRecord (q % 2) ctx va with
    | .ok r => (s.recordTouched (q % 2) ctx va).admitRec q va r
    | .unreachable => some ((s.recordTouched (q % 2) ctx va).consumed q true)
    | .wait t => s.waitFrom t

/-- QUEUE_ENTRY_CONSUME. -/
def State.consume (s : State) (q : Nat) : Option State :=
  let b := s.queue q
  if !s.managed || !b.en || b.blocked || b.rd == b.wr || b.leader.isNone || s.needsLeader q || s.queueHeld q || decide (128 ≤ q) then none
  else if decide (4096 ≤ b.ctx) || !capInRange b.cap.toNat || decide (65536 < b.cap.toNat) then some (s.consumed q true)
  else
    let pa := b.base + 8 * (b.rd.toNat % b.cap.toNat)
    match s.hubReach (q % 2) .load pa 8 with
    | .wait t => s.waitFrom t
    | .refused => some (s.consumed q true)
    | .ready => s.takeEntry q (s.hubNum (q % 2) pa 8)

def execQueueEntryConsume (q : Nat) (s : State) : Out := Out.ofOption "QUEUE_ENTRY_CONSUME" (s.consume q)

/-! ### Dependences (R402) -/

/-- The hub that carries the accesses of a launch's leader: that of its queue. -/
def Launch.hub (l : Launch) : Nat := l.queue.getD 0 % 2

/-- A dependence counter as the leader reads it. -/
inductive DepRead where
  | ok (value : Nat)
  | bad
  | wait (s : State)

def State.readDep (s : State) (hub : Nat) (l : Launch) (va : DWord) : DepRead :=
  let a := Agent.ofHub hub
  if !aligned va 8 then .bad
  else
    match s.hubPlace hub l.desc l.record .load va with
    | .ok p => let r := s.loadBytes a 7 p.home p.pa 8; if r.2 then .bad else .ok (leNat r.1)
    | .unreachable => .bad
    | .wait t => .wait t

/-- The counter has reached the threshold. -/
def depMet (value thr : Nat) : Bool := (nfield value 0 48 + 2 ^ 48 - thr % 2 ^ 48) % 2 ^ 48 < 2 ^ 47

/-- What the counters of a launch say. -/
inductive DepState where
  | met | refused | pending
  | wait (s : State)

def joinDep : DepState → DepState → DepState
  | .refused, _ => .refused
  | _, .refused => .refused
  | .wait s, _ => .wait s
  | _, .wait s => .wait s
  | .pending, _ => .pending
  | _, x => x

def State.depState (s : State) (hub : Nat) (l : Launch) (va : DWord) (thr : Nat) : DepState :=
  if va = 0 then .met
  else
    match s.readDep hub l va with
    | .bad => .refused
    | .wait t => .wait t
    | .ok v => if depMet v thr then (if l.record.dstrict && nfield v 48 16 != 0 then .refused else .met) else .pending

def State.depsOf (s : State) (l : Launch) : DepState :=
  let hub := l.hub
  joinDep (s.depState hub l l.record.dep0 l.record.thr0) (s.depState hub l l.record.dep1 l.record.thr1)

/-- A launch is refused after its admission. -/
def State.refuseLaunch (s : State) (l : Launch) : Option State :=
  s.counted l.hub l.desc l.record 1 fun t => { t with launches := t.launches.filter fun x => x.id != l.id }

/-- The accesses of the leader to the counters have left their marks. -/
def State.settleDeps (s : State) (l : Launch) : State :=
  let a := Agent.ofHub l.hub
  [l.record.dep0, l.record.dep1].foldl
    (fun t va => if va = 0 ∨ canonical va = false then t else t.settle a l.desc l.record .load va) s

/-- DEPENDENCE_CHECK: the launch becomes eligible, or is refused. -/
def State.checkDeps (s : State) (launch : Nat) : Option State :=
  match s.launch? launch with
  | none => none
  | some l =>
    if l.stage != .waiting || !s.managed || !s.led l then none
    else
      match s.depsOf l with
      | .refused => s.refuseLaunch l
      | .wait t => s.waitFrom t
      | .pending => none
      | .met =>
        let n := (s.settleDeps l).number
        some (n.2.setLaunch { l with stage := .eligible, order := n.1 })

def execDependenceCheck (launch : Nat) (s : State) : Out := Out.ofOption "DEPENDENCE_CHECK" (s.checkDeps launch)

/-! ### Placement (R169, R170, R403, R405) -/

/-- The launch has teams that are not placed. -/
def Launch.unplaced (l : Launch) : Bool :=
  !l.viaExit && l.fault.isNone && (l.stage == .eligible || (l.stage == .running && decide (l.placed < l.record.teams)))

/-- A launch or a saved unit that must be placed before a launch. -/
def State.heldBack (s : State) (l : Launch) : Bool :=
  (s.launches.any fun m => m.unplaced && m.id != l.id
    && (decide (l.record.prio < m.record.prio) || (m.record.prio == l.record.prio && decide (m.order < l.order))))
    || s.units.any fun u => u.saved && (match s.launch? u.launch with
      | some m => decide (l.record.prio ≤ m.record.prio)
      | none => false)

/-- The cores chosen lie within one instance of a cohort's level. With ring placement, the team with tix j stands at position
c0 + j of one ring. -/
def coresLie (r : LaunchRec) (tixs cores : List Nat) : Bool :=
  let c := cores.headD 0
  if r.coh = 0 then true
  else if r.ring then
    let k := if r.pspan then 2 else 1
    let m := if r.pspan then 4 else 8
    let base := c % 8 / k + m - tixs.headD 0 % m
    (cores.zip tixs).all fun e => e.1 == c / 8 * 8 + k * ((base + e.2) % m)
  else cores.all fun x => x / levelCores r.coh == c / levelCores r.coh

/-- A team takes its place; a launch that waited for a counter sees every store before it (R402), and whether any
other narrow copies are still read is free. -/
def State.putTeam (s : State) (l : Launch) (tix : Nat) (p : Placement) : State :=
  let n := s.number
  let t := newTeam n.1 l.id tix l.record p n.1
  let fresh := l.record.dep0 != 0 || l.record.dep1 != 0 || !Config.readsOld s.draws
  let u : State := (coresOf t.pspan t.core).foldl (fun (u : State) c => if fresh then u.pullIn c 7 else u)
    { n.2 with draws := s.draws + 1 }
  u.addTeam t l.desc l.record p.pipes

/-- Place teams one after another on the cores given. -/
def State.placeAll (s : State) (l : Launch) : Nat → List Nat → Option State
  | _, [] => some s
  | tix, c :: rest =>
    match s.placeTeam l.record l.desc.pfr c l.record.reqw (countsAt l.record.nthr) none (s.freeContext c) with
    | none => none
    | some p => (s.putTeam l tix p).placeAll l (tix + 1) rest

/-- LAUNCH_PLACEMENT: a cohort whole, or the next team of a launch without one. -/
def State.place? (s : State) (launch : Nat) (cores : List Nat) : Option State :=
  match s.launch? launch with
  | none => none
  | some l =>
    let n := if l.record.coh = 0 then 1 else l.record.teams
    if !l.unplaced || !s.managed || !s.led l || s.heldBack l || cores.length != n
        || !coresLie l.record ((List.range n).map fun i => l.placed + i) cores
        || (cores.flatMap (coresOf l.record.pspan)).any (fun c => s.heldLine c 7) then none
    else
      (s.placeAll l l.placed cores).map fun t =>
        t.modLaunch launch fun m => { m with stage := .running, placed := l.placed + n }

def execLaunchPlacement (launch : Nat) (cores : List Nat) (s : State) : Out :=
  Out.ofOption "LAUNCH_PLACEMENT" (s.place? launch cores)

/-! ### Completion (R404) -/

/-- The paths of the cores that a launch's teams have run on push their dirty bytes to the home; whose come last is free
(R286). -/
def State.flushLaunch (s : State) (l : Launch) : State :=
  let cs := if Config.readsOld s.draws then l.cores.reverse else l.cores
  cs.foldl (fun t c => t.pushOut c 7) { s with draws := s.draws + 1 }

/-- The groups of a launch. -/
def State.groupsOf (s : State) (launch : Nat) : List Group :=
  let teams := (s.teams.filter fun t => t.launch == launch).map (·.id)
  s.groups.filter fun g => teams.contains g.team

/-- Perform what the groups of a launch left in write buffers. -/
def State.drainLaunch (s : State) (launch : Nat) : State :=
  let gs := (s.groupsOf launch).map (·.id)
  let mine := s.writeBuf.filter fun e => gs.contains e.group
  mine.foldl (fun t e => t.performEntry e 0) { s with writeBuf := s.writeBuf.filter fun e => !gs.contains e.group }

/-- Forget a launch, its teams and groups, and its landing entries. -/
def State.forget (s : State) (launch : Nat) : State :=
  let gs := s.groupsOf launch
  let t := s.withGroups (s.groups.filter fun g => !gs.any (·.id == g.id))
  { t with teams := t.teams.filter fun x => x.launch != launch,
           launches := t.launches.filter fun x => x.id != launch,
           landings := t.landings.filter fun e => e.launch != launch }

/-- Every team of the grid has ended, or the launch has been ended by a fault and its operations have drained. -/
def State.teamsOver (s : State) (l : Launch) : Bool :=
  if l.fault.isSome then (s.groupsOf l.id).all fun g => g.flights.isEmpty && g.storeBuf.isEmpty
  else
    l.stage == .running && decide (l.record.teams ≤ l.ended + (if l.viaExit then l.refused else 0))
      && !(s.teams.any fun t => t.launch == l.id && t.live)

/-- The errors of a launch. -/
def Launch.r (l : Launch) : Nat := (if l.fault.isSome then 1 else 0) + l.refused + l.errors

/-- LAUNCH_COMPLETION. -/
def State.completeLaunch (s : State) (launch : Nat) : Option State :=
  match s.launch? launch with
  | none => none
  | some l =>
    if s.teamsOver l && !(s.commands.any fun c => c.launch == launch) && !(l.cores.any fun c => s.heldLine c 7) then
      ((s.drainLaunch launch).flushLaunch l).counted l.hub l.desc l.record l.r fun t => t.forget launch
    else none

def execLaunchCompletion (launch : Nat) (s : State) : Out := Out.ofOption "LAUNCH_COMPLETION" (s.completeLaunch launch)

end Sys2Proof.Machine
end

