-- ==== Sys2Proof/Machine/Schedule.lean ====
section
/-! DEFINITION. Which group issues, and what caches and directories do on their own: GROUP_ISSUE_CHOICE,
RUN_LIMIT_EXPIRY, CACHE_MISS_FILL, NARROW_COPY_EVICTION and DIRECTORY_EVICTION_RECALL (R63, R182, R240, R279, R280, R286,
R410 to R413). -/

namespace Sys2Proof.Machine

/-! ### The pipe (R410) -/

/-- The focus moves to a group that may have its pipe. -/
def State.chooseGroup (s : State) (g : Nat) : Option State :=
  match s.group? g with
  | none => none
  | some x => if s.eligible x then some (s.takePipe x) else none

def execGroupIssueChoice (g : Nat) (s : State) : Out := Out.ofOption "GROUP_ISSUE_CHOICE" (s.chooseGroup g)

/-- The next instruction of the group in focus would end past the 32nd cycle of its run while another group of its pipe is
ready: it stalls at issue, and the pipe passes. -/
def State.endRun (s : State) : Option State :=
  if s.before.isSome then none
  else
    match s.fetchInstr with
    | .stop _ => none
    | .ok w slot t =>
      let u := t.begin w slot
      if u.waitsOn.isSome || u.waitsBar.isSome then none else u.overTo.map u.yieldTo

def execRunLimitExpiry (g : Nat) (s : State) : Out :=
  Out.ofOption "RUN_LIMIT_EXPIRY" (if s.cur.id = g ∧ g ≠ 0 ∧ s.canIssue s.cur = true then s.endRun else none)

/-! ### Fills (R240, R241, R280) -/

/-- A load or an atomic of the core in flight has missed a line at a level for a scope, and the miss has a way. An invariant
load registers nothing (R287). -/
def State.missOf (s : State) (core level unit line scope : Nat) : Bool :=
  s.groups.any fun g => g.core == core && g.flights.any fun f => !f.done && !f.walking && (match f.kind with
    | .load _ _ sc _ inv _ => sc == scope && !inv
    | .atomic _ _ _ sc _ _ => sc == scope
    | _ => false)
    && (s.flightMisses core level f).contains line && s.hasMissWay level unit f.born line

/-- Where a fetch of a group reads, through a page that a cache may hold. -/
def State.fetchLine (s : State) (va : DWord) : Option Nat :=
  match s.translate (Agent.ofCore s.cur.core) s.launch.desc s.launch.record .fetch va with
  | .ok p => if s.uncachedLine p.home (p.pa / 64) then none else some (p.pa / 64)
  | _ => none

/-- A group of the core may fetch from a line: it runs up to 1 KiB past the program counter (R164). -/
def State.fetchMiss (s : State) (core line : Nat) : Bool :=
  s.groups.any fun g => g.core == core && g.live &&
    let t := s.focus g.id
    (List.range 17).any fun k =>
      let pc := g.pc + BitVec.ofNat 64 (64 * k)
      t.fetchLine pc == some line || t.fetchLine (t.schedAddr pc) == some line

/-- A fetch misses a line at a cache, and the miss has a way. -/
def State.fetchWay (s : State) (core level unit line : Nat) : Bool := s.fetchMiss core line && s.hasMissWay level unit s.draws line

/-- Of some operations that wait for a line, each is answered after those that came before it. -/
def State.noteOrder (s : State) (all : List Request) (line : Nat) : State :=
  let rs := all.filter fun r => r.lines.contains line
  s.mapGroups (fun g => rs.any fun r => r.group == g.id) fun g => { g with
    flights := g.flights.map fun f =>
      if rs.any fun r => r.group == g.id && r.tag == f.tag then
        { f with after := f.after ++ (rs.filter fun r => decide (r.born < f.born)).map fun r => (line, (r.group, r.tag)) }
      else f }

/-- The operations that wait in the list of a line at a cache are answered in its order once it is filled (R240). -/
def State.noteList (s : State) (level unit line : Nat) : State := s.noteOrder (s.requests level unit) line

/-- The lines at which accesses of an operation in flight of a core are held. -/
def State.heldLines (s : State) (core : Nat) (f : Flight) : List Nat :=
  let held (write : Bool) (scope : Nat) (xs : List LaneAcc) : List Nat :=
    ((xs.map fun x => x.pa / 64).eraseDups).filter fun l => s.heldUp write (dieOf core) scope l
  if f.done then []
  else match f.kind with
    | .load _ _ scope _ _ lanes => held false scope lanes
    | .atomic _ _ _ scope _ lanes => held true scope lanes
    | _ => []

/-- A rebuild has ended: the loads and atomics that it held at a line go on in their arrival order (R419). -/
def State.heldInOrder (s : State) : State :=
  let rs := s.groups.flatMap fun g => g.flights.filterMap fun f =>
    match s.heldLines g.core f with
    | [] => none
    | ls => some ⟨f.born, g.id, f.tag, ls⟩
  (rs.flatMap (·.lines)).eraseDups.foldl (fun t l => t.noteOrder rs l) s

/-- CACHE_MISS_FILL: not where every way of the set is pinned, and not in the L3 that pins the line. -/
def State.missFill (s : State) (core level line scope : Nat) : Option State :=
  let a := Agent.ofCore core
  match a.unit level with
  | none => none
  | some u =>
    if level ≤ 2 && level ≤ pointLevel scope && 1 ≤ scope && !s.inHostBias line
        && (s.missOf core level u line scope || (scope == 1 && s.fetchWay core level u line))
        && (s.makeRoom a level line).hasWay level u line && !(level == 2 && u == pinDie line && s.pinnedLine line)
        && !s.heldUp false (dieOf core) scope line then
      some ((s.noteList level u line).fill a level u line scope)
    else none

def execCacheMissFill (core level line scope : Nat) (s : State) : Out :=
  Out.ofOption "CACHE_MISS_FILL" (s.missFill core level line scope)

/-! ### Evictions (R280, R286) -/

/-- The scope at which dirty bytes that leave a cache of a level arrive one level outward. -/
def outScope (level : Nat) : Nat := if level = 2 then 7 else level + 2

/-- Two copies of a line whose dirty bytes go to the same place one level outward. -/
def Copy.pushesWith (c x : Copy) : Bool :=
  x.line == c.line && x.level == c.level && x.unit != c.unit && x.dirty != 0
    && (c.level == 2 || (if c.level = 1 then x.unit / 4 == c.unit / 4 else x.unit / 8 == c.unit / 8))

/-- Copies whose pushes arrive in an order of their own at each byte, with the bytes at which each arrives after those that follow
it in the list: each keeps dirty the bytes at which it is the last (R286). -/
def lastPushes (taken : BitVec 64) : List (Copy × BitVec 64) → List Copy
  | [] => []
  | (c, m) :: rest =>
    let later := rest.foldl (fun a e => a ||| e.1.dirty) 0
    let keep := c.dirty &&& ~~~taken &&& (m ||| ~~~later)
    { c with dirty := keep } :: lastPushes (taken ||| keep) rest

/-- The copy can be evicted: it is not pinned, nothing holds the push of its dirty bytes, and they find a way (R236, R237). -/
def State.evictable (s : State) (c : Copy) : Bool :=
  !s.pinnedCopy c && (c.dirty == 0 || (!s.heldUp true (unitDie c.level c.unit) (outScope c.level) c.line
    && (c.level == 2 || (s.roomBeyond c).hasWay (c.level + 1) (if c.level = 1 then c.unit / 4 else c.unit / 8) c.line)))

/-- A copy leaves its cache, its dirty bytes one level outward. -/
def State.evictCopy (s : State) (c : Copy) : State := (s.roomBeyond c).pushOutward c

/-- A copy is evicted, alone or together with the others whose dirty bytes meet its own at the next point; `stays` says where its
bytes arrive after theirs. No push of a line's bytes is seen in part (R280, R286). -/
def State.evict (s : State) (level unit line : Nat) : Option State :=
  let stays := s.moveInput.stays
  match s.copies.find? fun c => c.level == level && c.unit == unit && c.line == line && level < 3 with
  | none => none
  | some c =>
    if !s.evictable c then none
    else
      let xs := if stays = 0 then [] else s.copies.filter fun x => c.pushesWith x && s.evictable x
      let all := lastPushes 0 ((c, stays) :: xs.zipIdx.map fun e => (e.1, Config.freeValue (s.draws + e.2)))
      let t : State := { s with
        draws := s.draws + xs.length,
        copies := s.copies.map fun y => (all.find? fun x => x.level == y.level && x.unit == y.unit && x.line == y.line).getD y }
      some (all.foldl (fun t c => t.evictCopy c) t).tookInput

def execNarrowCopyEviction (level unit line : Nat) (s : State) : Out :=
  Out.ofOption "NARROW_COPY_EVICTION" (s.evict level unit line)

/-! ### Directories (R412, R413) -/

/-- A directory: 1 of a cluster, 2 of a die, 3 the half of a stack (2 s + half), 4 of an interposer, 5 the half of the
device. Its scope. -/
def dirScope (level : Nat) : Nat := level + 1

/-- A directory records a copy. -/
def dirRecords (level unit : Nat) (c : Copy) : Bool :=
  let d := unitDie c.level c.unit
  let pa := 64 * c.line
  c.level < 3 && decide (dirScope level ≤ c.reg) && (match level with
    | 1 => c.level == 0 && c.unit / 8 == unit
    | 2 => decide (c.level ≤ 1) && d == unit
    | 3 => d / 2 == unit / 2 && nfield pa 12 1 == unit % 2
    | 4 => d / 8 == unit
    | 5 => nfield pa 13 1 == unit
    | _ => false)

/-- A line is pinned: by a page of home 11 or by a tile fetch unit. -/
def State.linePinned (s : State) (line : Nat) : Bool :=
  s.pinnedLine line || s.groups.any fun g => g.tilePins.contains line

/-- A directory evicts its entry for a line that is not pinned: every copy it records is recalled to its point. Beyond the L3s
the bytes go to the home. -/
def State.dirEvict (s : State) (level unit line : Nat) : Option State :=
  let mine := s.copies.filter fun c => c.line == line && dirRecords level unit c
  let scope := if 3 ≤ level then 7 else dirScope level
  let t := mine.foldl
    (fun t c =>
      if c.dirty = 0 then t
      else
        let a := cacheAgent c.level c.unit
        (if scope ≤ 3 then t.makeRoom a (pointLevel scope) line else t).performAt a scope line 0 0 false) s
  if mine.isEmpty || s.linePinned line
      || mine.any (fun c => c.dirty != 0 && s.heldUp true (unitDie c.level c.unit) scope line) then none
  else some (t.dropCopies fun x => mine.any fun c => x.level == c.level && x.unit == c.unit && x.line == c.line)

def execDirectoryEvictionRecall (level unit line : Nat) (s : State) : Out :=
  Out.ofOption "DIRECTORY_EVICTION_RECALL" (s.dirEvict level unit line)

end Sys2Proof.Machine
end

