-- ==== Sys2Proof/Machine/HostLink.lean ====
section
/-! DEFINITION. The host: bias flips, CXL reads and writes, snoops, address translation and link training (R422, R425,
R431 to R437, R445). -/

namespace Sys2Proof.Machine

/-- The device answers the host: it is powered and its wipe has ended (R430). -/
def State.answers (s : State) : Bool := s.power == .on || s.power == .held

/-- The lines of a 4 KiB page. -/
def pageLines (page : Nat) : List Nat := (List.range 64).map (64 * page + ·)

/-- A page of device DRAM that exists. -/
def State.dramPage (s : State) (page : Nat) : Bool := isDram (4096 * page) && s.paExists (4096 * page)

/-- A line's DEV half: the hub that PA[13] names (R3, R238). -/
def hubOf (line : Nat) : Nat := nfield (64 * line) 13 1

/-- The host link of a line's DEV half runs CXL 3.x (R431, R435). -/
def State.cxl3Of (s : State) (line : Nat) : Bool := ((s.cxl3.find? (·.1 == hubOf line)).map (·.2)).getD true

/-- A recall of the line has to reach a stack whose directory is being rebuilt (R419). -/
def State.recallHeld (s : State) (line : Nat) : Bool := s.lostHalf true 16 7 line

/-- An access of the host is held by a flip, or by a rebuild where it has to recall copies (R419, R436). -/
def State.hostHeld (s : State) (write : Bool) (line : Nat) : Bool := s.flipping line || s.lostHalf write 16 7 line

/-! ### Bias (R435, R436) -/

/-- BIASCMD after a flip: the page, the direction, and busy = 0. -/
def biasAfter (page : Nat) (dir : Bool) : DWord := BitVec.ofNat 64 (page % 2 ^ 40 * 4096 + if dir then 2 else 0)

/-- BIASCMD while a flip is in progress. -/
def biasBusy (page : Nat) (dir : Bool) : DWord := biasAfter page dir ||| 4

/-- A flip of the page can run: no other one is in progress. -/
def State.flipFits (s : State) (page : Nat) (dir : Bool) : Bool := !s.biasCmd.getLsbD 2 || s.biasCmd == biasBusy page dir

/-- The page has another bias: monitors of its lines fire, and no host copy is recorded any more. -/
def State.flipped (s : State) (page : Nat) : State :=
  (pageLines page).foldl (fun t l => t.notify l fun _ _ => true) { s with hostCopies := s.hostCopies.filter (· / 64 ≠ page) }

/-- Recall every copy of a line, pinned ones too; among copies of one level the order is free (R286). -/
def State.recallAll (s : State) (line : Nat) (rev : Bool) : State :=
  let t := (s.flushLineBy line rev).dropCopies fun c => c.line == line && c.level < 3
  { t with copies := t.copies.filter (·.line != line) }

/-- BIAS_FLIP_TO_HOST. A write that names no page of device DRAM is ignored. -/
def State.flipToHost (s : State) (page : Nat) : State :=
  if !s.dramPage page then s
  else
    let t := (pageLines page).zipIdx.foldl (fun t e => t.recallAll e.1 (Config.readsOld (s.draws + e.2))) s
    { t.flipped page with hostBias := ninsert page t.hostBias, biasCmd := biasAfter page false, draws := t.draws + 64 }

/-- The host gives up its dirty data of a line. Under CXL 2.0 no snoop is sent, and whether what it still holds reaches
DRAM is free (R437). -/
def State.hostGivesUp (s : State) (line : Nat) (lost : Bool) : State :=
  match s.hostLines.find? (·.line == line) with
  | none => s
  | some _ => if !s.cxl3Of line && lost then { s with hostLines := s.hostLines.filter (·.line != line) } else s.takeFromHost line

/-- BIAS_FLIP_TO_DEVICE. -/
def State.flipToDevice (s : State) (page : Nat) : State :=
  if !s.dramPage page then s
  else
    let t := (pageLines page).zipIdx.foldl (fun t e => t.hostGivesUp e.1 (Config.readsOld (s.draws + e.2))) s
    { t.flipped page with hostBias := t.hostBias.filter (· ≠ page), biasCmd := biasAfter page true, draws := t.draws + 64 }

def execBiasFlipToHost (page : Nat) (s : State) : Out :=
  Out.ofOption "BIAS_FLIP_TO_HOST" 
    (if s.answers && s.flipFits page false && !(pageLines page).any s.recallHeld then some (s.flipToHost page) else none)

def execBiasFlipToDevice (page : Nat) (s : State) : Out :=
  Out.ofOption "BIAS_FLIP_TO_DEVICE" 
    (if s.answers && s.flipFits page true then some (s.flipToDevice page) else none)

/-! ### Accesses of the host (R435) -/

/-- Before the host reads or writes a line of device memory, the device's dirty bytes are pushed. -/
def State.pushForHost (s : State) (line : Nat) : State :=
  let t := (s.touch line).flushLineBy line (Config.readsOld s.draws)
  { t with draws := t.draws + 1 }

/-- Under CXL 3.x the DEV half records the copy that the host takes of a line in device bias (R435). -/
def State.noteHostCopy (s : State) (line : Nat) : State :=
  if s.cxl3Of line && !s.inHostBias line then { s with hostCopies := ninsert line s.hostCopies } else s

/-- HOST_CXL_READ of a line of device memory. -/
def State.hostRead (s : State) (line : Nat) : Option State :=
  if s.answers && isDram (64 * line) && s.paExists (64 * line) && !s.hostHeld false line then
    let t := s.pushForHost line
    some { t.noteHostCopy line with hostAnswer := some (t.homeLine line, t.poisoned line) }
  else none

def execHostCxlRead (line : Nat) (s : State) : Out := Out.ofOption "HOST_CXL_READ" (s.hostRead line)

/-- The copies that record the host as an observer are invalidated. -/
def State.dropWide (s : State) (line scope : Nat) : State :=
  s.dropCopies fun c => c.line == line && c.level < 3 && decide (scope ≤ c.reg)

/-- The host writes its own cached copy of a line in host bias. -/
def State.hostOwn (s : State) (line : Nat) (mask : BitVec 64) (data : BitVec 512) (poison : Bool) : State :=
  let d := mergeLine mask (s.homeLine line) data
  let q := poison || s.hostLines.any fun h => h.line == line && h.poison
  { (s.remember line).notify line (fun _ _ => true) with
    hostLines := { line := line, data := d, poison := q } :: s.hostLines.filter (·.line != line) }

/-- The host's bytes reach a line's home. They never clear poison (R425). Monitors of the line fire whatever their scopes: those of pages
of home 01 watch the home (R274). -/
def State.hostPut (s : State) (line : Nat) (mask : BitVec 64) (data : BitVec 512) (poison : Bool) : State :=
  ((s.remember line).putHome line mask data (s.poisoned line || poison)).notify line fun _ _ => true

/-- HOST_CXL_WRITE of bytes within one line, poisoned ones as CXL carries them (R425). -/
def State.hostWrite (s : State) (pa : Nat) (bs : List Byte) : Option State :=
  let poison := s.moveInput.poison
  let s := s.tookInput
  let line := pa / 64
  let p := placeBytes (pa % 64) bs.length (leNat bs)
  if !s.answers || bs.isEmpty || decide (64 < pa % 64 + bs.length) || s.hostHeld true line then none
  else if isHostMem pa then some ((s.dropWide line 7).hostPut line p.1 p.2 poison)
  else if !(isDram pa && s.paExists pa) then none
  else if s.inHostBias line then some (s.hostOwn line p.1 p.2 poison)
  else some (((s.pushForHost line).dropWide line 6).hostPut line p.1 p.2 poison)

def execHostCxlWrite (pa : Nat) (data : List Byte) (s : State) : Out :=
  Out.ofOption "HOST_CXL_WRITE" (s.hostWrite pa data)

/-- HOST_SNOOP of a line of host memory: poisoned where its mask names a die that has failed since, whether or not the die has
rejoined; the mask is cleared (R422). -/
def State.snoop (s : State) (line : Nat) : Option State :=
  if s.answers && isHostMem (64 * line) && !s.hostHeld false line then
    let lost := sget 0 s.writers line != 0
    let t := s.pushForHost line
    let t : State := if lost then { t.setPoison line true with writers := sset 0 t.writers line 0 } else t
    some { t with hostAnswer := some (t.homeLine line, t.poisoned line) }
  else none

def execHostSnoop (line : Nat) (s : State) : Out := Out.ofOption "HOST_SNOOP" (s.snoop line)

/-! ### ATS (R433, R434) -/

/-- Something translated under an entry has not reached its coherence point. -/
def State.hostPageBusy (s : State) (hub page : Nat) : Bool :=
  let first := (hostBase + 4096 * page) / 64
  let hit (line : Nat) : Bool := first ≤ line && line < first + 64
  let near (core : Nat) : Bool := ipoOf (dieOf core) == hub
  (s.groups.any fun g => near g.core && (g.storeBuf.any (fun l => hit l.line) || g.flights.any fun f => !f.done
      && (match f.kind with
        | .load _ _ _ _ _ lanes => lanes.any fun x => hit (x.pa / 64)
        | .atomic _ _ _ _ _ lanes => lanes.any fun x => hit (x.pa / 64)
        | .returned _ _ _ _ _ _ _ lanes => lanes.any fun x => hit (x.pa / 64)
        | .mtx (.store pieces) _ => pieces.any fun p => hit (p.1.pa / 64)
        | .mtx (.load _ rows) _ => rows.any fun r => r.segs.any fun x => hit (x.pa / 64)
        | .mtx (.mma _ _ _ _ _ rows cols _) _ => (rows ++ cols).any fun r => r.segs.any fun x => hit (x.pa / 64)
        | _ => false)))
    || s.writeBuf.any fun e => near e.core && hit e.line

/-- ATS_INVALIDATION: the entries go first; the request completes, with no further effect, once nothing translated under them is under
way. -/
def State.invalidate (s : State) (hub page : Nat) : Option State :=
  let hit (e : AtsEntry) : Bool := e.hub == hub && e.page == page
  if s.ats.any hit || !s.hostPageBusy hub page then some { s with ats := s.ats.filter fun e => !hit e } else none

def execAtsInvalidation (hub page : Nat) (s : State) : Out := Out.ofOption "ATS_INVALIDATION" (s.invalidate hub page)

def atsEntries : Nat := 8192

/-- A translation is requested: none is held, or one that refuses some access. -/
def State.atsWanted (s : State) (hub page : Nat) : Bool :=
  s.atsMiss.contains (hub, page) || s.ats.any fun e => e.hub == hub && e.page == page && !(e.read && e.write)

/-- ATS_TRANSLATION_RESPONSE: the entry is held; the oldest of the hub's gives way where its cache is full. The host page that it names is
what the page's addresses mean from then on (log entry 100). -/
def State.translated (s : State) (hub page : Nat) (read write : Bool) : Option State :=
  if s.atsWanted hub page then
    let rest := s.ats.filter fun e => !(e.hub == hub && e.page == page)
    let mine := (rest.filter (·.hub == hub)).take (atsEntries - 1)
    let host := s.moveInput.page.getD page
    some { s.tookInput with
                  hostMap := sset page s.hostMap page host,
                  ats := { hub := hub, page := page, read := read, write := write } :: mine ++ rest.filter (·.hub != hub),
                  atsMiss := s.atsMiss.filter (· != (hub, page)) }
  else none

def execAtsTranslationResponse (hub page : Nat) (read write : Bool) (s : State) : Out :=
  Out.ofOption "ATS_TRANSLATION_RESPONSE" (s.translated hub page read write)

/-! ### Link training (R431, R445) -/

/-- HOST_LINK_TRAIN: width 16, 8 or 4, PCI Express 7, 6 or 5, and CXL 3.x or 2.0. -/
def State.linkTrain (s : State) (hub width gen : Nat) (cxl3 : Bool) : Option State :=
  if hub < 2 ∧ (width = 16 ∨ width = 8 ∨ width = 4) ∧ (gen = 7 ∨ gen = 6 ∨ gen = 5) then
    some { s with hostCopies := if cxl3 then s.hostCopies else s.hostCopies.filter fun l => hubOf l != hub,
                  links := (hub, (width, gen)) :: s.links.filter (·.1 != hub), cxl3 := (hub, cxl3) :: s.cxl3.filter (·.1 != hub) }
  else none

def execHostLinkTrain (hub width gen : Nat) (cxl3 : Bool) (s : State) : Out :=
  Out.ofOption "HOST_LINK_TRAIN" (s.linkTrain hub width gen cxl3)

end Sys2Proof.Machine
end

