-- ==== Sys2Proof/Machine/Device.lean ====
section
/-! DEFINITION. Dies and the whole device: clocks, failure and rejoin, links between dies, reset, life cycle, attestation
and the management window (R408, R409, R417 to R424, R427 to R432). -/

namespace Sys2Proof.Machine

/-- Apply a change to a die that is part of the device. -/
def State.withDie (s : State) (d : Nat) (p : Die → Bool) (f : Die → Die) : Option State :=
  if d < 16 ∧ s.fuses.dmask.getLsbD d = true ∧ p (s.die d) = true then some (s.setDie d (f (s.die d))) else none

/-! ### Clocks and draining (R408, R409) -/

def execClockStepDown (die : Nat) (s : State) : Out :=
  Out.ofOption "CLOCK_STEP_DOWN"
    ((s.withDie die (fun d => d.csteps < 29) fun d => { d with csteps := d.csteps + 1 }).map State.withdraw)

def execClockStepUp (die : Nat) (s : State) : Out :=
  Out.ofOption "CLOCK_STEP_UP" (s.withDie die (fun d => 0 < d.csteps) fun d => { d with csteps := d.csteps - 1 })

def execDieDrainedByTheHost (die : Nat) (s : State) : Out :=
  Out.ofOption "DIE_DRAINED_BY_THE_HOST" ((s.withDie die (fun d => d.dstate == 1) fun d => { d with dstate := 4 }).map State.withdraw)

/-! ### Die failure (R417 to R422) -/

/-- The copy lies in a cache of a die, or marks a line that its L3 pins. -/
def Copy.onDie (c : Copy) (f : Nat) : Bool := (if c.level < 3 then unitDie c.level c.unit else c.unit) == f

/-- Lines that a die holds dirty: their homes' masks name it. Its caches are lost. -/
def State.markWriters (s : State) (f : Nat) : State :=
  let lost := s.copies.filter fun c => c.onDie f
  let t := (lost.filter fun c => c.dirty != 0 && (c.level < 3 || (c.pinned && s.markHolds c))).foldl
    (fun t c => { t with writers := sset 0 t.writers c.line (sget 0 t.writers c.line ||| (1#16 <<< f)) }) s
  let t := t.dropCopies fun c => c.level < 3 && c.onDie f
  { t with copies := t.copies.filter fun c => !c.onDie f }

/-- Launches that have a team on a die. -/
def State.launchesOn (s : State) (f : Nat) : List Nat :=
  ((s.teams.filter fun t => dieOf t.core == f).map (·.launch)).eraseDups

/-- What the groups on a die had under way is lost. -/
def State.loseGroups (s : State) (f : Nat) : State :=
  let t := s.mapGroups (fun g => dieOf g.core == f) fun g =>
    { g with live := false, flights := [], storeBuf := [], wait := .none }
  { t with writeBuf := t.writeBuf.filter fun e => dieOf e.core != f,
           teams := t.teams.map fun (x : Team) => if dieOf x.core = f then { x with mtxBusy := none } else x,
           arrayBusy := t.arrayBusy.filter fun e => dieOf (2 * e.1) != f }

/-- A Runnel command of a lost cluster ends: its counter is to rise by done + 1, err + 1. -/
def State.loseCommand (s : State) (c : Command) : State :=
  s.setCommand { c with stage := .lost, fault := none, errors := 1, skipped := false, beyond := false, poisoned := false }

/-- The device declares a die failed. -/
def State.failDie (s : State) (f : Nat) : State :=
  let d := s.die f
  let t := (s.setDie f { d with dstate := 2, rebuilding := true, silent := false }).markWriters f
  let t : State := { t with fallen := t.fallen ||| (1#16 <<< f) }
  let t := t.loseGroups f
  let t := (s.launchesOn f).foldl (fun t l => t.endLaunch l (BitVec.ofNat 64 f) 0 0xFFFFFFFF 0xFFFFFFFF 0xFD) t
  ((t.commands.filter fun c => !c.cascade && c.unit / 4 == f).foldl State.loseCommand t).withdraw

/-- A die that works, is drained, or rejoins. -/
def Die.works (d : Die) : Bool := d.dstate == 1 || d.dstate == 3 || d.dstate == 4

def execDieFailure (die : Nat) (s : State) : Out :=
  Out.ofOption "DIE_FAILURE"
    (if die < 16 ∧ s.fuses.dmask.getLsbD die = true ∧ (s.die die).works = true then some (s.failDie die) else none)

/-- A directory half is complete again: the partner holds both halves, or has handed one back to a die that rejoins, which
is active from then on (R421, R423). -/
def execRebuildComplete (die : Nat) (s : State) : Out :=
  Out.ofOption "REBUILD_COMPLETE"
    (s.heldInOrder.withDie die (·.rebuilding) fun d => { d with rebuilding := false, dstate := if d.dstate = 3 then 1 else d.dstate })

/-! ### Rejoin (R423) -/

/-- Every SRAM of a die is wiped: its caches, landing tables, page frames and core registers. -/
def State.wipeDie (s : State) (f : Nat) : State :=
  { s with copies := s.copies.filter fun c => !c.onDie f,
           landings := s.landings.filter fun e => e.cluster / 4 != f,
           frames := s.frames.filter fun e => dieOf e.1 != f,
           pipes := s.pipes.filter fun e => dieOf (e.1 / 4) != f,
           cycles := s.cycles.filter fun e => dieOf e.1 != f,
           mem := s.mem.filter fun e => !(decide (2 ^ 52 ≤ e.1) && dieOf (nfield (e.1 - 2 ^ 52) 21 9) == f) }

/-- Every line of device DRAM whose mask names a die is poisoned, and the bit is cleared. -/
def State.sweep (s : State) (f : Nat) : State :=
  let named := (s.writers.filter fun e => e.2.getLsbD f && isDram (64 * e.1)).map (·.1)
  let t := named.foldl (fun t l => t.setPoison l true) s
  { t with writers := named.foldl (fun m l => sset 0 m l (sget 0 m l &&& ~~~(1#16 <<< f))) t.writers }

/-- The die rejoins under its next incarnation: it is active once the partner has handed back its directory half. -/
def State.rejoin (s : State) (f : Nat) : State :=
  let d := s.die f
  let t := (s.wipeDie f).sweep f
  ({ t with fallen := t.fallen &&& ~~~(1#16 <<< f) }).setDie f
    { d with inc := d.inc + 1, dstate := 3, csteps := 0, pinov := 0, ce := 0, rebuilding := true }

def execDieRejoin (die : Nat) (s : State) : Out :=
  Out.ofOption "DIE_REJOIN"
    (if die < 16 ∧ (s.die die).dstate = 2 ∧ (s.die die).rebuilding = false then some (s.rejoin die) else none)

/-- A flit with an incarnation that is not the sender's current one is refused, and the die that sent it resets itself.
A failed die has no current incarnation; a die that resets while it works is lost as one that fails. -/
def State.refuseFlit (s : State) (die : Nat) (inc : BitVec 16) : Option State :=
  let d := s.die die
  if 16 ≤ die ∨ s.fuses.dmask.getLsbD die = false then none
  else if d.works then (if inc = d.inc then none else some (s.failDie die))
  else some (s.wipeDie die)

def execIncarnationRefusal (die : Nat) (inc : BitVec 16) (s : State) : Out :=
  Out.ofOption "INCARNATION_REFUSAL" (s.refuseFlit die inc)

/-! ### Links between dies (R414, R424) -/

/-- Links: the face of stack n at n, its UCIe link at 8 + n, the bridge at 16, and die n's own path to its base layer at
17 + n. -/
def baseLink (link : Nat) : Option Nat := if 17 ≤ link ∧ link < 33 then some (link - 17) else none

/-- POMAS_LINK_DOWN: a die left without a link to its base layer has failed. -/
def State.linkDown (s : State) (link : Nat) : Option State :=
  if 33 ≤ link ∨ s.pomasDown.contains link = true then none
  else
    let t : State := { s with pomasDown := link :: s.pomasDown }
    match baseLink link with
    | some d => if s.fuses.dmask.getLsbD d && (s.die d).works then some (t.failDie d) else some t
    | none => some t

def execPomasLinkDown (link : Nat) (s : State) : Out := Out.ofOption "POMAS_LINK_DOWN" (s.linkDown link)

/-! ### Reset, wipe and life cycle (R428 to R430) -/

/-- A device reset keeps only the fuses, the host's memory, and what belongs to the model: the script and the free values
drawn. -/
def State.wiped (s : State) (fuses : Fuses) (power : Power) : State :=
  { State.resetWith fuses with
    power := power, script := s.script, draws := s.draws, mem := s.mem.filter fun e => isHostMem e.1,
    poison := s.poison.filter fun l => isHostMem (64 * l), interrupts := s.interrupts }

def execDeviceReset (s : State) : Out := .next (s.wiped s.fuses .wiping)

/-- The images that a life-cycle state accepts (R429). -/
def acceptsImage (lifecycle : BitVec 3) (c : Config.ImageClass) : Bool :=
  match lifecycle.toNat with
  | 0 => c == .manufacturing
  | 1 => c == .manufacturing || c == .production
  | 2 => c == .production
  | 3 => c == .diagnostic
  | _ => false

/-- The boot ROM lets the image run (R428, R429). -/
def firmwareRuns (lifecycle : BitVec 3) : Bool := Config.signatureValid && acceptsImage lifecycle Config.imageClass

/-- Bytes of a 512-bit digest. -/
def digestBytes (x : BitVec 512) : List Byte := leBytes 64 x.toNat

/-- WIPE_COMPLETE: the host link answers. An image that the boot ROM accepts is measured and runs; with any other the command
processors are held. -/
def State.wipeEnds (s : State) : Option State :=
  if s.power = .wiping then
    some (if firmwareRuns s.fuses.lifecycle then
      { s with power := .on, meas := Config.shake256 (digestBytes 0 ++ digestBytes (Config.shake256 Config.firmware)) }
    else { s with power := .held })
  else none

def execWipeComplete (s : State) : Out := Out.ofOption "WIPE_COMPLETE" s.wipeEnds

def execLifecycleAdvance (next : BitVec 3) (s : State) : Out :=
  Out.ofOption "LIFECYCLE_ADVANCE"
    (if s.fuses.lifecycle < next ∧ next.toNat ≤ 4 then some (s.wiped { s.fuses with lifecycle := next } .wiping) else none)

def execModuleUnpowered (s : State) : Out := .next (s.wiped s.fuses .off)

/-! ### Attestation (R428, R429) -/

/-- DEVCAP (R427): dmask names the dies present and not failed. -/
def State.devcap (s : State) : DWord :=
  let alive := (List.range 16).filter fun d => s.fuses.dmask.getLsbD d && (s.die d).dstate != 2 && (s.die d).dstate != 3
  let m := alive.foldl (fun (m : Nat) d => m + 2 ^ d) 0
  let k := (List.range 8).foldl (fun (k : Nat) i => if s.stackPresent i then k + 2 ^ i else k) 0
  BitVec.ofNat 64 ((if s.dprec then 1 else 0) + 2 ^ 16 * m + 2 ^ 32 * k)

/-- DCAP0 of a die (R427). -/
def Die.dcap0 (d : Die) : DWord :=
  BitVec.ofNat 64 (d.pfuse.toNat + 2 ^ 32 * d.pdeg.toNat + 2 ^ 48 * d.inc.toNat)

/-- DCAP1 of a die (R427). -/
def Die.dcap1 (d : Die) : DWord :=
  BitVec.ofNat 64 (d.dstate % 8 + 2 ^ 4 * d.cmask.toNat + 2 ^ 16 * d.ce.toNat + 2 ^ 32 * d.pinov.toNat + 2 ^ 48 * (d.csteps % 256))

/-- The report with its signature; none in the states blank and scrapped. -/
def State.attestation (s : State) : Option (List Byte) :=
  let c := s.fuses.lifecycle
  if c = 0 ∨ 3 < c then none
  else
    let r := Config.report s.meas c s.devcap s.nonce
    some (r ++ Config.sign c.toNat r)

/-- What stands between a hub and `n` bytes that it writes, line by line. -/
def State.writeReach (s : State) (hub pa n : Nat) : HubReach :=
  s.hubReachAll hub ((List.range (ceilDiv (pa % 64 + n) 64)).map fun i => (.store, (pa / 64 * 64 + 64 * i, 64)))

/-- A write of bit 0 of the command clears bit 1; once the report lies at its destination, bit 1 is set. Bit 0 stays while the report
waits for the host's translation, a flip or a rebuild. -/
def State.attest (s : State) (hub : Nat) : Option State :=
  match (if s.managed then s.attestation else none) with
  | none => some { s with attCmd := 0 }
  | some bs =>
    match s.writeReach hub s.attDest.toNat bs.length with
    | .ready => some { s.hubStore hub s.attDest.toNat bs with attCmd := 2 }
    | .refused => some { s with attCmd := 0 }
    | .wait t => if s.attCmd = 1 then s.waitFrom t else some { t with attCmd := 1 }

def execAttestationRequest (hub : Nat) (s : State) : Out :=
  Out.ofOption "ATTESTATION_REQUEST" (if hub < 2 ∧ s.answers = true then s.attest hub else none)

/-! ### The management window (R396, R427, R432) -/

/-- The units of a die whose counts its word of a shared stall counter adds up: matrix contexts, cores, clusters, the hub of its
interposer, or the die (log entry 80). -/
def sharedUnitsOf (i d : Nat) : List Nat :=
  if i ≤ 0x123 then List.range' (32 * d) 32
  else if i ≤ 0x12B then List.range' (4 * d) 4
  else if i ≤ 0x133 then [ipoOf d]
  else [d]

/-- A shared stall counter of a die as the host reads it (R411, R432). -/
def State.sharedWord (s : State) (i d : Nat) : DWord :=
  if sharedIndex i then (sharedUnitsOf i d).foldl (fun n u => n + s.sharedCount i u) 0 else 0

/-- A dword of a queue's block (R396). -/
def Queue.read (b : Queue) (k : Nat) : DWord :=
  match k with
  | 0 => BitVec.ofNat 64 b.base
  | 1 => BitVec.ofNat 64 (b.wr.toNat + 2 ^ 32 * b.rd.toNat)
  | 2 =>
    BitVec.ofNat 64 (b.cap.toNat + 2 ^ 32 * b.ctx + (if b.en then 2 ^ 48 else 0) + (if b.dev then 2 ^ 49 else 0)
      + (if b.err then 2 ^ 50 else 0))
  | _ => 0

/-- A register of the window as the host reads it. An offset not listed reads 0. -/
def State.mgmtRead (s : State) (off : Nat) : DWord :=
  if off % 8 ≠ 0 then 0
  else if off = 0 then s.devcap
  else if 0x100 ≤ off ∧ off < 0x200 then
    let d := s.die ((off - 0x100) / 16)
    if off % 16 = 0 then d.dcap0 else d.dcap1
  else if off = 0x1000 then s.ctxBase
  else if 0x2000 ≤ off ∧ off < 0x3000 then (s.queue ((off - 0x2000) / 32)).read ((off - 0x2000) / 8 % 4)
  else if off = 0x3000 then s.biasCmd
  else if off = 0x3100 then s.peerBase
  else if off = 0x3108 then s.peerCnt
  else if off = 0x3110 then s.saBase
  else if off = 0x3118 then s.saCnt
  else if off = 0x3120 then s.saDrop
  else if 0x4000 ≤ off ∧ off < 0x4020 then s.nonce.extractLsb' (8 * (off - 0x4000)) 64
  else if off = 0x4020 then s.attDest
  else if off = 0x4028 then s.attCmd &&& 2
  else if 0x10000 ≤ off ∧ off < 0x12000 then s.sharedWord (0x120 + (off - 0x10000) % 0x200 / 8) ((off - 0x10000) / 0x200)
  else 0

/-- A write of DCAP1: pinov and ce are cleared by a written 0. -/
def Die.write (d : Die) (x : DWord) : Die :=
  { d with pinov := if nfield x.toNat 32 16 = 0 then 0 else d.pinov, ce := if nfield x.toNat 16 16 = 0 then 0 else d.ce }

/-- A write of dword `k` of a queue's block. Base, cap and ctx stay while the queue is enabled. -/
def Queue.write (b : Queue) (k : Nat) (x : DWord) : Queue :=
  match k with
  | 0 => if b.en then b else { b with base := x.toNat / 64 * 64 }
  | 1 => b.doorbell (BitVec.ofNat 32 x.toNat)
  | 2 =>
    { b with
      cap := if b.en then b.cap else BitVec.ofNat 32 x.toNat, ctx := if b.en then b.ctx else nfield x.toNat 32 16,
      en := x.getLsbD 48, dev := x.getLsbD 49, err := b.err && !x.getLsbD 50,
      leader := if x.getLsbD 48 then b.leader else none }
  | _ => b

/-- A write of BIASCMD: it starts a flip of a page of device DRAM that has the other bias, which runs while busy is 1. Nothing is
written while busy (R436; log entry 100). -/
def State.writeBias (s : State) (x : DWord) : State :=
  let page := nfield x.toNat 12 40
  let dir := x.getLsbD 1
  if s.biasCmd.getLsbD 2 || (x.getLsbD 0 && !s.dramPage page) then s
  else { s with biasCmd := if x.getLsbD 0 && s.hostBias.contains page == dir then biasBusy page dir else biasAfter page dir }

/-- A value whose low `n` bits are 0. -/
def alignTo (x : DWord) (n : Nat) : DWord := BitVec.ofNat 64 (x.toNat / 2 ^ n * 2 ^ n)

/-- A write to a register of the window. An offset not listed, and a register that only reads, ignore it. -/
def State.mgmtWrite (s : State) (off : Nat) (x : DWord) : State :=
  if off % 8 ≠ 0 then s
  else if 0x100 ≤ off ∧ off < 0x200 then
    (if off % 16 = 8 then s.setDie ((off - 0x100) / 16) ((s.die ((off - 0x100) / 16)).write x) else s)
  else if off = 0x1000 then { s with ctxBase := alignTo x 12 }
  else if 0x2000 ≤ off ∧ off < 0x3000 then
    let q := (off - 0x2000) / 32
    s.setQueue q ((s.queue q).write ((off - 0x2000) / 8 % 4) x)
  else if off = 0x3000 then s.writeBias x
  else if off = 0x3100 then { s with peerBase := alignTo x 6 }
  else if off = 0x3108 then { s with peerCnt := x &&& 0xFFFF }
  else if off = 0x3110 then { s with saBase := alignTo x 6 }
  else if off = 0x3118 then { s with saCnt := x &&& 0xFFFF }
  else if off = 0x3120 then { s with saDrop := if x = 0 then 0 else s.saDrop }
  else if 0x4000 ≤ off ∧ off < 0x4020 then
    let sh := 8 * (off - 0x4000)
    { s with nonce := (s.nonce &&& ~~~((0xFFFFFFFFFFFFFFFF#256) <<< sh)) ||| (x.setWidth 256 <<< sh) }
  else if off = 0x4020 then { s with attDest := x }
  else if off = 0x4028 then (if x.getLsbD 0 then (s.attest 0).getD s else s)
  else s

def execMgmtRegisterWrite (off : Nat) (value : DWord) (s : State) : Out :=
  Out.ofOption "MGMT_REGISTER_WRITE" (if s.answers then some (s.mgmtWrite off value) else none)

end Sys2Proof.Machine
end

