-- ==== Sys2Proof/Machine/Block.lean ====
section
/-! DEFINITION. Block floating point, the three block instructions, the A80 format and its arithmetic, and conversions
out of A80 (R300 to R321). -/

namespace Sys2Proof.Machine

/-! ### Blocks (R300 to R302) -/

/-- `scale_of` of an exact magnitude; `none` for infinity. -/
def scaleOf (amax : Option Dyadic) : Nat × FpFlags :=
  match amax with
  | none => (254, flagClamp)
  | some d =>
    if d.m = 0 then (0, 0)
    else
      let e : Int := d.e + Nat.log2 d.m + 127
      if e < 0 then (0, flagClamp) else if 254 < e then (254, flagClamp) else (e.toNat, 0)

/-- The w-bit code of the NaN element. -/
def nanElement (w : Nat) : Nat := 2 ^ (w - 1)

/-- `quant`: the w-bit code of a value that is no NaN. -/
def quantOf (x : FVal) (scale w : Nat) : Nat × FpFlags :=
  let lim := 2 ^ (w - 1) - 1
  let code : Bool → Nat → Nat := fun neg q => if neg && q != 0 then 2 ^ w - q else q
  if scale = 255 then (nanElement w, 0)
  else
    match x with
    | .nan _ => (nanElement w, 0)
    | .inf n => (code n lim, flagSAT)
    | .fin d =>
      let q := (cutAt 0 d.neg d.m d.e ((scale : Int) - 127 - (w - 2)) false).1
      if lim < q then (code d.neg lim, flagSAT) else (code d.neg q, 0)

/-- The signed value of a w-bit code. -/
def codeInt (w c : Nat) : Int := if c < 2 ^ (w - 1) then c else (c : Int) - 2 ^ w

/-- The exponent of a step of a block. -/
def stepExp (scale w : Nat) : Int := (scale : Int) - 127 - (w - 2)

def bscaleOf (x : Nat) : Nat × FpFlags :=
  match f32.read x with
  | .nan s => (0xFF, if s then flagNV else 0)
  | .inf _ => scaleOf none
  | .fin d => scaleOf (some d)

/-- The format code and scale byte of a block descriptor (R306). -/
def descFmt (b : Nat) : Nat := nfield b 8 4
def descScale (b : Nat) : Nat := nfield b 0 8

def bquantOf (a b : Nat) : Nat × FpFlags :=
  if descFmt b < 4 ∨ 10 < descFmt b then (0, flagNV)
  else
    let r := quantOf (f32.read a) (descScale b) (descFmt b - 2)
    (r.1, r.2 ||| f32.snan [a])

def bdeqOf (a b : Nat) : Nat × FpFlags :=
  if descFmt b < 4 ∨ 10 < descFmt b then (f32.defaultNaN, flagNV)
  else
    let w := descFmt b - 2
    let c := a % 2 ^ w
    if descScale b = 255 ∨ c = nanElement w then (f32.defaultNaN, 0)
    else
      let m := codeInt w c
      ((f32.roundD 0 ⟨m < 0, m.natAbs, stepExp (descScale b) w⟩).1, 0)

def blockCell (d : Code) (srcs : List Src) (f : List DWord → Nat × FpFlags) : Cell :=
  { kind := .byDest, d := d.toNat, dcls := .w .zero, srcs := srcs, lat := 4, long := false, f := fun _ xs => fpOut (f xs) }

def execBscale (d a : Code) (s : State) : Out :=
  .next ((blockCell d [gen a] fun xs => bscaleOf (low32 (arg xs 0)).toNat).exec s)

def execBquant (d a b : Code) (s : State) : Out :=
  .next ((blockCell d [gen a, gen b] fun xs => bquantOf (low32 (arg xs 0)).toNat (low32 (arg xs 1)).toNat).exec s)

def execBdeq (d a b : Code) (s : State) : Out :=
  .next ((blockCell d [gen a, gen b] fun xs => bdeqOf (low32 (arg xs 0)).toNat (low32 (arg xs 1)).toNat).exec s)

/-! ### A80 (R311 to R317) -/

/-- A80 has the shape of a binary format. -/
def fmtA80 : FFmt := ⟨15, 64⟩

/-- nan80(c). -/
def nan80 (c : Nat) : A80 := BitVec.ofNat 80 (fmtA80.infBits + 2 ^ 63 + c)

def valA80 (x : A80) : FVal := fmtA80.read x.toNat

/-- The order of R314 as one number: cause, fraction, then sign 0 first. -/
def nanRank (x : A80) : Nat :=
  (x.toNat % 16) * 2 ^ 65 + (x.toNat % 2 ^ 64) * 2 + (1 - x.toNat / 2 ^ 79 % 2)

/-- A NaN read with bit 63 clear is treated as quiet (R312). -/
def quietA80 (x : A80) : A80 := x ||| (1#80 <<< 63)

/-- The NaN that is delivered when several are candidates, each read as quiet (R312, R314). -/
def nanPick (xs : List A80) : Option A80 :=
  match (xs.filter fun x => (valA80 x).isNaN).map quietA80 with
  | [] => none
  | x :: rest => some (rest.foldl (fun m y => if nanRank m < nanRank y then y else m) x)

/-- round_A80: one rounding to nearest. -/
def roundA80 (d : Dyadic) (sticky : Bool) : A80 :=
  if d.m = 0 then BitVec.ofNat 80 (withSign fmtA80 d.neg 0)
  else BitVec.ofNat 80 (fmtA80.round 0 d.neg d.m d.e sticky).1

def infA80 (neg : Bool) : A80 := BitVec.ofNat 80 (withSign fmtA80 neg fmtA80.infBits)

def mul80 (p q : A80) : A80 :=
  match nanPick [p, q] with
  | some n => n
  | none =>
    match (valA80 p).mul (valA80 q) with
    | none => nan80 4
    | some (.inf s) => infA80 s
    | some (.fin d) => roundA80 d false
    | some (.nan _) => nan80 4

def add80 (p q : A80) : A80 :=
  match nanPick [p, q] with
  | some n => n
  | none =>
    match (valA80 p), (valA80 q) with
    | .inf s, .inf t => if s = t then infA80 s else nan80 3
    | .inf s, _ => infA80 s
    | _, .inf t => infA80 t
    | .fin x, .fin y => roundA80 (x.add 0 y) false
    | _, _ => nan80 3

/-- Add an exact number to an accumulator value: one rounding. -/
def addExact (p : A80) (d : Dyadic) : A80 :=
  match nanPick [p] with
  | some n => n
  | none =>
    match (valA80 p) with
    | .fin x => roundA80 (x.add 0 d) false
    | .inf s => infA80 s
    | .nan _ => p

/-- round_F64 of an A80 value, held in A80 (R317). -/
def roundF64 (p : A80) : A80 :=
  match (valA80 p) with
  | .fin d =>
    match f64.read (f64.roundD 0 d).1 with
    | .fin e => roundA80 e false
    | .inf s => infA80 s
    | .nan _ => p
  | _ => p

/-- to_A80 of an IEEE operand (R316). -/
def toA80 (f : FFmt) (x : Nat) : A80 :=
  match f.read x with
  | .fin d => roundA80 d false
  | .inf n => infA80 n
  | .nan _ =>
    -- the fraction bits below the quiet bit go to [62:4], highest first
    let below := x % f.quietBit
    BitVec.ofNat 80 (withSign fmtA80 (x / f.signBit % 2 == 1)
      (fmtA80.infBits + 2 ^ 63 + below * 2 ^ (63 - (f.frac - 1))))

/-- The memory image of an A80 value (R315). -/
def imageA80 (x : A80) : Nat := x.toNat

/-- The A80 value of a 16-byte image; non-zero bytes 10 to 15 give nan80(6) with the image's sign. -/
def ofImage (n : Nat) : A80 :=
  let x : A80 := BitVec.ofNat 80 n
  if n / 2 ^ 80 % 2 ^ 48 = 0 then x
  else if x.toNat / 2 ^ 79 % 2 = 1 then nan80 6 ||| (1#80 <<< 79) else nan80 6

/-! ### Conversions out of A80 (R319, R320) -/

/-- cvt_out to an IEEE format under nf.rnd and nf.sat. -/
def cvtOut (f : FFmt) (rnd : BitVec 2) (sat : Bool) (x : A80) : Nat × FpFlags :=
  let neg := x.toNat / 2 ^ 79 % 2 == 1
  match (valA80 x) with
  | .nan _ => (withSign f neg (f.defaultNaN + x.toNat % 8), 0)
  | .inf n => (withSign f n f.infBits, 0)
  | .fin d =>
    let r := f.roundD rnd d
    if sat && r.2 &&& flagOF ≠ 0 then (withSign f d.neg f.maxFinite, r.2) else r

/-- The largest magnitude of a run of A80 values, NaNs apart; `none` for infinity. -/
def amaxOf (xs : List A80) : Option Dyadic :=
  xs.foldl
    (fun acc x => match acc, (valA80 x) with
      | some m, .fin d => if m.lt ⟨false, d.m, d.e⟩ then some ⟨false, d.m, d.e⟩ else some m
      | _, .inf _ => none
      | acc, _ => acc)
    (some ⟨false, 0, 0⟩)

/-- cvt_block: the codes, the scale byte and the flags of one block. -/
def cvtBlock (xs : List A80) (w : Nat) : List Nat × Nat × FpFlags :=
  let e := scaleOf (amaxOf xs)
  let qs := xs.map fun x => quantOf (valA80 x) e.1 w
  (qs.map (·.1), e.1, qs.foldl (fun (f : FpFlags) q => f ||| q.2) e.2)

/-- The bytes of a block from its codes and scale (R300). -/
def blockBytes (codes : List Nat) (scale w : Nat) : List Byte :=
  let n := (codes.zipIdx.map fun e => e.1 * 2 ^ (e.2 * w)).sum
  leBytes (4 * w) n ++ [BitVec.ofNat 8 scale]

/-- The code of element `i` of a block given by its number. -/
def blockCode (block w i : Nat) : Nat := nfield block (i * w) w

/-- bdot: a NaN, or the exact sum of products (R318). -/
def bdot (a wa b wb : Nat) : A80 ⊕ Dyadic :=
  let ea := nfield a (32 * wa) 8
  let eb := nfield b (32 * wb) 8
  if ea = 255 ∨ eb = 255 then .inl (nan80 2)
  else if (List.range 32).any fun i => blockCode a wa i == nanElement wa || blockCode b wb i == nanElement wb then
    .inl (nan80 1)
  else
    let n : Int := ((List.range 32).map fun i => codeInt wa (blockCode a wa i) * codeInt wb (blockCode b wb i)).sum
    .inr ⟨n < 0, n.natAbs, (ea : Int) + eb - 254 - (wa - 2) - (wb - 2)⟩

end Sys2Proof.Machine
end

