-- ==== Sys2Proof/Machine/Matrix.lean ====
section
/-! DEFINITION. The matrix array: major 22, the acceptance of a cell and its retirement (R100, R305, R322 to R342). -/

namespace Sys2Proof.Machine

/-! ### Operands in memory (R327, R331) -/

/-- `n` bytes at `va`, cut at the ends of lines. The fuel bounds the pieces. -/
def cutLines : Nat → DWord → Nat → List (DWord × Nat)
  | 0, _, _ => []
  | k + 1, va, n =>
    if n = 0 then []
    else
      let m := Nat.min n (64 - va.toNat % 64)
      (va, m) :: cutLines k (va + BitVec.ofNat 64 m) (n - m)

/-- The pieces of a row of `n` bytes. -/
def rowPieces (va : DWord) (n : Nat) : List (DWord × Nat) := cutLines (n / 64 + 2) va n

/-- The addresses of `count` rows. -/
def rowVas (base stride : DWord) (count : Nat) : List DWord :=
  (List.range count).map fun i => base + BitVec.ofNat 64 i * stride

/-- The bytes of a row now. -/
def State.rowBytes (s : State) (a : Agent) (segs : List Seg) : List Byte :=
  segs.flatMap fun g => (s.loadBytes a 2 g.home g.pa g.len).1

/-- The poisoned lines of a row now. -/
def State.rowPoison (s : State) (a : Agent) (segs : List Seg) : List DWord :=
  (segs.filter fun g => (s.view a 2 g.home (g.pa / 64)).2).map fun g => g.va &&& ~~~63

/-- What the checks of matrix operands answer. -/
inductive MtxChecked where
  | ok (rows : List (List Seg)) (s : State)
  | trap (cause : Nat) (tval : DWord)
  | fault (va : DWord) (info : Nat)
  | wait (s : State)

/-- Give the pieces of each row their places, from the places of all pieces in order. -/
def deal (rows : List (List (DWord × Nat))) (places : List (Nat × (DWord × Placed))) : List (List Seg) :=
  match rows with
  | [] => []
  | r :: rest =>
    ((r.zip places).map fun e => { va := e.1.1, pa := e.2.2.2.pa, home := e.2.2.2.home, len := e.1.2, tbl := e.2.2.2.tbl })
      :: deal rest (places.drop r.length)

/-- The checks of R116 over rows of `(address, bytes)`, each address a multiple of `align`. -/
def State.checkRows (s : State) (acc : Access) (rows : List (DWord × Nat)) (align : DWord → Bool) : MtxChecked :=
  match rows.find? fun r => !align r.1 with
  | some r => .trap causeAlign r.1
  | none =>
    let pieces := rows.map fun r => rowPieces r.1 r.2
    match s.checkAccess acc 1 ((pieces.flatten.map (·.1)).map fun va => (0, va)) with
    | .trap cause tval => .trap cause tval
    | .fault va info => .fault va info
    | .wait t => .wait t
    | .ok places t => .ok (deal pieces places) t

/-- The rows with their bytes at acceptance. What was seen at an earlier value of `draws` counts no more. -/
def State.takeRows (s : State) (a : Agent) (rows : List (List Seg)) : List MtxRow :=
  rows.map fun g => { segs := g, old := s.rowBytes a g, since := s.draws, poison := s.rowPoison a g }

/-! ### Formats (R304, R305) -/

def nfA (nf : BitVec 16) : Nat := nfield nf.toNat 0 4
def nfB (nf : BitVec 16) : Nat := nfield nf.toNat 4 4
def nfOut (nf : BitVec 16) : Nat := nfield nf.toNat 8 4
def nfRnd (nf : BitVec 16) : BitVec 2 := nf.extractLsb' 12 2
def nfSat (nf : BitVec 16) : Bool := nf.getLsbD 14

def isIeee (code : Nat) : Bool := code < 4
def isBfp (code : Nat) : Bool := 4 ≤ code && code ≤ 10

/-- The operand formats agree (R305). -/
def mmaFormatsOk (nf : BitVec 16) : Bool :=
  (isIeee (nfA nf) && nfA nf == nfB nf) || (isBfp (nfA nf) && isBfp (nfB nf))

/-- The bytes of an IEEE element. -/
def elementBytes (code : Nat) : Nat := (fmtOf (BitVec.ofNat 2 code)).width / 8

/-- Elements of a row of A (R326). -/
def depthOf (code : Nat) : Nat :=
  match code with
  | 0 => 16
  | 1 => 64
  | 2 => 256
  | 3 => 256
  | _ => 512

/-- The bytes of a row of an operand of this format. -/
def rowLength (code : Nat) : Nat :=
  if isIeee code then depthOf code * elementBytes code else 16 * (4 * (code - 2) + 1)

/-- The alignment that a format asks of an address. -/
def formatAlign (code : Nat) (va : DWord) : Bool := !isIeee code || aligned va (elementBytes code)

/-! ### The arithmetic of MMA (R326, R328, R329) -/

def negZero80 : A80 := 1#80 <<< 79

/-- `fstep` on values that are in A80 already. -/
def fstep (x p q : A80) : A80 :=
  match nanPick [x, p, q] with
  | some n => n
  | none =>
    match (valA80 p).mul (valA80 q), valA80 x with
    | none, _ => nan80 4
    | some (.inf t), .inf u => if t = u then infA80 t else nan80 3
    | some (.inf t), _ => infA80 t
    | some (.fin _), .inf u => infA80 u
    | some (.fin d), .fin y => roundA80 (y.add 0 d) false
    | _, _ => x

/-- `bstep`. -/
def bstep (x : A80) (t : A80 ⊕ Dyadic) : A80 :=
  match t with
  | .inl n => (nanPick [x, n]).getD n
  | .inr d => addExact x d

/-- Element `k` of the bytes of a row. -/
def elementAt (code : Nat) (row : List Byte) (k : Nat) : A80 :=
  let n := elementBytes code
  toA80 (fmtOf (BitVec.ofNat 2 code)) (leNat ((row.drop (k * n)).take n))

/-- Block `k` of the bytes of a row, as a number. -/
def blockAt (code : Nat) (row : List Byte) (k : Nat) : Nat :=
  let n := 4 * (code - 2) + 1
  leNat ((row.drop (k * n)).take n)

/-- The special cases of `fstep` alone: what a term makes of an element whose sum is held apart. -/
def fspecial (x p q : A80) : A80 :=
  match nanPick [x, p, q] with
  | some n => n
  | none =>
    match (valA80 p).mul (valA80 q), valA80 x with
    | none, _ => nan80 4
    | some (.inf t), .inf u => if t = u then infA80 t else nan80 3
    | some (.inf t), _ => infA80 t
    | _, _ => x

/-- The exact product of two finite values; 0 where it is not finite. -/
def exactProduct (p q : A80) : Dyadic :=
  match (valA80 p).mul (valA80 q) with
  | some (.fin d) => d
  | _ => ⟨false, 0, 0⟩

/-- One block of terms in degraded precision (R329). -/
def degradedBlock (x : A80) (terms : List (A80 × A80)) : A80 :=
  let y := terms.foldl (fun x t => fspecial x t.1 t.2) x
  match valA80 y with
  | .fin _ =>
    match terms.map fun t => exactProduct t.1 t.2 with
    | [] => y
    | d :: rest => roundF64 (addExact y (rest.foldl (fun a b => a.add 0 b) d))
  | _ => y

/-- Terms per block in degraded precision. -/
def blockTerms (code : Nat) : Nat := if code = 0 then 16 else 32

/-- An element from its start value and the bytes of its row and column. -/
def mmaElement (degraded : Bool) (afmt bfmt : Nat) (x : A80) (row col : List Byte) : A80 :=
  if isIeee afmt then
    let term k := (elementAt afmt row k, elementAt bfmt col k)
    if degraded then
      let n := blockTerms afmt
      (List.range (depthOf afmt / n)).foldl (fun x b => degradedBlock x ((List.range n).map fun i => term (b * n + i))) x
    else (List.range (depthOf afmt)).foldl (fun x k => fstep x (term k).1 (term k).2) x
  else
    (List.range 16).foldl
      (fun x k =>
        let y := bstep x (bdot (blockAt afmt row k) (afmt - 2) (blockAt bfmt col k) (bfmt - 2))
        if degraded then roundF64 y else y)
      x

/-- Add the NaN of a poisoned operand. -/
def withPoison (p : Bool) (x : A80) : A80 := if p then (nanPick [x, nan80 5]).getD x else x

/-- The bytes that one element reads, each with whether it is poisoned: of the values that a byte has had since acceptance, a free
one (R332). `versions` holds the bytes at acceptance and since, `first` numbers the bytes. -/
def mixBytes (draws e first : Nat) (versions : List (List (Byte × Bool))) (new : List (Byte × Bool)) : List (Byte × Bool) :=
  new.mapIdx fun i b =>
    let vs := (b :: versions.map fun v => v.getD i b).eraseDups
    vs.getD (Config.readsAmong draws e (first + i) % vs.length) b

/-! ### Accumulators -/

/-- The key of element (i, j) of an accumulator. -/
def accKey (acc i j : Nat) : Nat := 2048 * acc + 64 * i + j

def Team.element (t : Team) (acc i j : Nat) : A80 := sget 0 t.acc (accKey acc i j)

/-- Replace every element of an accumulator. -/
def Team.fillAcc (t : Team) (acc : Nat) (f : Nat → Nat → A80) : Team :=
  let rest := t.acc.filter fun e => e.1 / 2048 != acc
  { t with acc := (List.range 2048).foldl (fun m k => sset 0 m (2048 * acc + k) (f (k / 64) (k % 64))) rest }

def Team.setElements (t : Team) (acc : Nat) (vals : List (Nat × A80)) : Team :=
  { t with acc := vals.foldl (fun m e => sset 0 m (2048 * acc + e.1) e.2) t.acc }

/-! ### Issue (R323, R324) -/

/-- Stall at an MTX cell, in the order of stalling. -/
def State.stallCell (s : State) : State :=
  let n := s.number
  n.2.stallAt (.mtx n.1 s.issue.word none) stallMtx

/-- The registers that an MTX cell reads: a uniform cell once, a row move in its lanes. -/
def mtxReads : Instr → List Src
  | .mma _ a b => [⟨a.toNat, .s⟩, ⟨a.toNat + 1, .s⟩, ⟨b.toNat, .s⟩, ⟨b.toNat + 1, .s⟩]
  | .mmaAcc _ a b => [⟨a.toNat, .s⟩, ⟨a.toNat + 1, .s⟩, ⟨b.toNat, .s⟩, ⟨b.toNat + 1, .s⟩]
  | .mmaSacc _ a b =>
    [⟨a.toNat, .s⟩, ⟨a.toNat + 1, .s⟩, ⟨b.toNat, .s⟩, ⟨b.toNat + 1, .s⟩, ⟨b.toNat + 2, .s⟩]
  | .mscl _ a => [⟨a.toNat, .s⟩]
  | .mrd _ _ b => [⟨b.toNat, .wide⟩]
  | .mwr _ a b => [⟨a.toNat, .w⟩, ⟨b.toNat, .wide⟩]
  | .msto _ a => [⟨a.toNat, .s⟩, ⟨a.toNat + 1, .s⟩]
  | .mlda _ a => [⟨a.toNat, .s⟩, ⟨a.toNat + 1, .s⟩]
  | _ => []

/-- The lanes that read them. -/
def State.mtxReaders (s : State) (uniform : Bool) : List Nat := if uniform then [0] else s.lanes

/-- The issue of an MTX cell: the checks of R342 and the port, then the stall before acceptance. A cell that ends the region
waits for its translations; the region ends at acceptance (R338, R367). -/
def State.mtxIssue (s : State) (i : Instr) (uniform : Bool) (ok : State → Bool) (ends : Bool) (pops : List Nat)
    (push : Option Nat) : State :=
  if s.u != uniform || s.team.ctx.isNone || (uniform && s.cur.core % 2 == 1) then s.illegal
  else if !ok s then s.badOperand
  else
    s.sound (s.mtxReaders uniform) (mtxReads i) fun s => s.raising 4 fun s =>
      match s.rillBlocked s.em pops push with
      | some q => s.stallPorts (if s.cur.walking then .retry else .rill q) s.em pops push
      | none => if (ends || !pops.isEmpty || push.isSome) && s.cur.walking then s.stall stallRegion else s.stallCell

/-- An `:acc` field. -/
def accOk (d : Code) : Bool := d.toNat < 8

/-- An `:s2` field. -/
def pairOk (a : Code) : Bool := evenS a.toNat

def State.mmaOk (ctl : Nat) (d a b : Code) (s : State) : Bool :=
  accOk d && pairOk a && pairOk b && (ctl != 2 || b.toNat ≤ 92) && mmaFormatsOk s.nfSeen

def execMma (d a b : Code) (s : State) : Out := .next (s.mtxIssue (.mma d a b) true (State.mmaOk 0 d a b) true [] none)

def execMmaAcc (d a b : Code) (s : State) : Out := .next (s.mtxIssue (.mmaAcc d a b) true (State.mmaOk 1 d a b) true [] none)

def execMmaSacc (d a b : Code) (s : State) : Out := .next (s.mtxIssue (.mmaSacc d a b) true (State.mmaOk 2 d a b) true [] none)

def execMzero (d : Code) (s : State) : Out := .next (s.mtxIssue (.mzero d) true (fun _ => accOk d) true [] none)

def execMscl (d a : Code) (s : State) : Out := .next (s.mtxIssue (.mscl d a) true (fun _ => accOk d && isS a.toNat) true [] none)

def execMmov (d a : Code) (s : State) : Out := .next (s.mtxIssue (.mmov d a) true (fun _ => accOk d && accOk a) true [] none)

/-- The port that a code names. -/
def portOf (c : Code) : Option Nat := if isPort c.toNat then some (c.toNat - 100) else none

/-- nf.ofmt names FP32, FP16 or BF16. -/
def rowFormatOk (nf : BitVec 16) : Bool := 1 ≤ nfOut nf && nfOut nf ≤ 3

/-- R342 and R335 let `MRD` push a port and `MWR` pop one, where the class `:v` of R78 names v-registers alone: the former is
followed (DESIGN CHOICE, log entry 89). -/
def State.mrdOk (d a b : Code) (s : State) : Bool :=
  (isV d.toNat || isPort d.toNat) && accOk a && uniformSrc b.toNat && rowFormatOk s.nfSeen

def execMrd (d a b : Code) (s : State) : Out := .next (s.mtxIssue (.mrd d a b) false (State.mrdOk d a b) false [] (portOf d))

/-- As for `MRD`, with a port that it pops (DESIGN CHOICE, log entry 89). -/
def State.mwrOk (d a b : Code) (s : State) : Bool :=
  accOk d && (isV a.toNat || isPort a.toNat) && uniformSrc b.toNat && rowFormatOk s.nfSeen

def execMwr (d a b : Code) (s : State) : Out :=
  .next (s.mtxIssue (.mwr d a b) false (State.mwrOk d a b) true (popsOf [⟨a.toNat, .w⟩]) none)

def State.mstoOk (d a : Code) (s : State) : Bool := accOk d && pairOk a && nfOut s.nfSeen ≤ 10

def execMsto (d a : Code) (s : State) : Out := .next (s.mtxIssue (.msto d a) true (State.mstoOk d a) true [] none)

def execMlda (d a : Code) (s : State) : Out := .next (s.mtxIssue (.mlda d a) true (fun _ => accOk d && pairOk a) true [] none)

/-! ### Acceptance (R324, R330, R331, R338) -/

/-- The order number and the word of the MTX cell at which a group stalls. -/
def Group.cell (g : Group) : Option (Nat × Word) :=
  match g.wait with
  | .mtx n w _ => some (n, w)
  | _ => none

/-- The group of a team that has stalled longest at an MTX cell. -/
def State.oldestCell (s : State) (team : Nat) : Option Group :=
  (s.groups.filter fun g => g.team == team && g.live).foldl
    (fun best g => match g.cell, best.bind Group.cell with
      | none, _ => best
      | some _, none => some g
      | some x, some y => if x.1 < y.1 then some g else best)
    none

/-- A word of an `MMA` form. -/
def isMma (w : Word) : Bool := (w.extractLsb' 27 5).toNat == 22 && (w.extractLsb' 21 6).toNat ≤ 2

/-- An `MMA` of the group stalls with every line that it pins held. -/
def Group.pinsHeld (g : Group) : Bool :=
  match g.wait with
  | .mtx _ _ (some _) => true
  | _ => false

/-- The other context of the pair has an `MMA` ready: it holds its pins and waits for the array. -/
def State.otherReady (s : State) (t : Team) : Bool :=
  s.teams.any fun x => x.core / 2 == t.core / 2 && x.id != t.id && x.ctx.isSome && x.mtxBusy.isNone && !x.stopping
    && (match s.oldestCell x.id with
      | some g => g.pinsHeld
      | none => false)

/-- The group's cell is the one of its context that has stalled longest: it alone pins (R324). -/
def State.cellFirst (s : State) (g : Group) (t : Team) : Bool := (s.oldestCell t.id).map (·.id) == some g.id

/-- No cell of the context is in progress, and, for an `MMA`, the array is free and it is the context's turn (R324). -/
def State.cellTurn (s : State) (t : Team) (w : Word) : Bool :=
  t.mtxBusy.isNone
    && (!isMma w || (!(s.arrayBusy.any fun e => e.1 == t.core / 2)
      && !(t.ctx.any (fun x => s.arrayLast.contains (t.core / 2, x)) && s.otherReady t)))

/-- Put an accepted cell in flight and end the instruction. -/
def State.accepted (s : State) (op : MtxOp) (flags : BitVec 7) (ends : Bool) : State :=
  let tag := s.cur.nextTag
  let t := (s.setTeam { s.team with mtxBusy := some (s.cur.id, tag) }).launchFlight 4 (.mtx op flags)
  let t := match op with
    | .mma _ _ _ _ _ _ _ _ => { t with arrayBusy := (s.cur.core / 2, s.team.id) :: t.arrayBusy }
    | _ => t
  let u := t.finish 0
  if ends then u.startRegion else u

/-- Commit the group's stores, and run `f` once they have reached the cluster (R331); `none` while nothing changes. -/
def State.afterStores (s : State) (f : State → Option State) : Option State :=
  let t := s.endRegion
  if t.cur.count 1 ≠ 0 ∨ t.heldLine t.cur.core 2 = true then
    (if s.cur.storeBuf.any (!·.committed) then some t else none)
  else f (t.release 2)

/-- Run `f` where no port blocks the cell any more; where one does, the cell waits at the port again (R217). -/
def State.afterPorts (s : State) (pops : List Nat) (push : Option Nat) (f : State → State) : State :=
  match s.rillBlocked s.em pops push with
  | some q => s.stallPorts (.rill q) s.em pops push
  | none => f s

/-- Go on with the rows of an operand, or take what their check calls for: a cell that faults is a region of its own. `none` while
a translation is awaited already. -/
def State.withRows (s : State) (kind : Nat) (c : MtxChecked) (f : List (List Seg) → State → Option State) : Option State :=
  match c with
  | .ok rows t => f rows t
  | .trap cause tval => some (s.trap cause tval)
  | .fault va info => some (s.endRegion.park va kind info)
  | .wait t => if t.atsMiss.length = s.atsMiss.length ∧ t.pulls.length = s.pulls.length then none else some t

/-- The tile fetch unit of the group's cluster. -/
def State.fetchUnit (s : State) : Agent := Agent.ofCluster (clusterOf s.cur.core)

/-- The rows of A and the columns of B of an `MMA`, checked. -/
def State.mmaRows (s : State) (a b : Code) : MtxChecked :=
  let nf := s.nfSeen
  let ra := (rowVas (s.wide 0 a) (s.wide 1 (a + 1)) 32).map fun va => (va, rowLength (nfA nf))
  let rb := (rowVas (s.wide 2 b) (s.wide 3 (b + 1)) 64).map fun va => (va, rowLength (nfB nf))
  s.checkRows .load (ra ++ rb) (formatAlign (nfA nf))

/-- The lines of rows that a tile fetch unit may pin: each once, and none that no cache holds. -/
def State.rowLines (s : State) (rows : List (List Seg)) : List Nat :=
  ((rows.flatten.filter fun g => !s.uncachedLine g.home (g.pa / 64)).map fun g => g.pa / 64).eraseDups

/-- The lines that are pinned: in each set of an L2 slice at most 8, counting those of every pair of the cluster (R330). -/
def pinsFor (held lines : List Nat) : List Nat :=
  lines.foldl
    (fun acc l =>
      let same := (held ++ acc).eraseDups.filter fun x => x != l && cachePlace 1 x == cachePlace 1 l
      if same.length < 8 then acc ++ [l] else acc) []

/-- The pins of a matrix context. -/
def State.contextPins (s : State) (t : Team) : Nat := ((s.groups.filter (·.team == t.id)).map fun g => g.tilePins.length).sum

/-- Pinned lines that the L2 does not hold are filled; the fills count as operand fetch (R330, R411). -/
def State.pinFill (s : State) (t : Team) (pins : List Nat) : State :=
  let k := clusterOf s.cur.core
  let missing := pins.filter fun l => !s.copies.any fun c => c.level == 1 && c.unit == k && c.line == l
  let u := missing.foldl (fun u l => u.fill s.fetchUnit 1 k l 2) s
  if missing.isEmpty then u
  else u.addShared 0x120 (2 * (t.core / 2) + t.ctx.getD 0) (BitVec.ofNat 64 (Config.elapsed s.draws))

/-- The tile fetch unit pins the lines of the `MMA` at which the group in focus stalls; `none` while its context would hold more
than 1,024 pins (R330). -/
def State.pinCell (s : State) (t : Team) (n : Nat) (w : Word) (i : Instr) : Option State :=
  let pin (ok : State → Bool) (a b : Code) : Option State :=
    if !ok s then some s.badOperand
    else s.withRows 0 (s.mmaRows a b) fun rows u =>
      let pins := pinsFor (u.tilePins (clusterOf s.cur.core)) (u.rowLines rows)
      if 1024 < u.contextPins t + pins.length then none
      else some ((u.modCur fun g => { g with wait := .mtx n w (some pins) }).pinFill t pins)
  match i with
  | .mma d a b => pin (State.mmaOk 0 d a b) a b
  | .mmaAcc d a b => pin (State.mmaOk 1 d a b) a b
  | .mmaSacc d a b => pin (State.mmaOk 2 d a b) a b
  | _ => some s

/-- The pins that the group's stalled cell holds. -/
def Group.cellPins (g : Group) : List Nat :=
  match g.wait with
  | .mtx _ _ (some pins) => pins
  | _ => []

/-- Accept an `MMA` with accumulate control `ctl`. -/
def State.acceptMma (s : State) (ctl : Nat) (d a b : Code) : Option State :=
  let nf := s.nfSeen
  let factor := toA80 f64 (s.wide 4 (b + 2)).toNat
  s.withRows 0 (s.mmaRows a b) fun rows t =>
    let t : State := { t with draws := t.draws + 1 }
    let m := t.takeRows s.fetchUnit rows
    some (t.accepted (.mma d.toNat ctl factor (nfA nf) (nfB nf) (m.take 32) (m.drop 32) s.cur.cellPins) 0 true)

/-- The selector of a row move: row and first column. -/
def selRow (x : DWord) : Nat := nfield x.toNat 0 5
def selCol (x : DWord) : Nat := nfield x.toNat 5 6

/-- Accept an `MRD` (R335). -/
def State.acceptMrd (s : State) (d a b : Code) : State :=
  let nf := s.nfSeen
  let x := s.wide 1 b
  let f := fmtOf (BitVec.ofNat 2 (nfOut nf))
  let rs : List (Nat × (Nat × FpFlags)) := s.lanes.map fun l =>
    (l, if selCol x + l < 64 then cvtOut f (nfRnd nf) (nfSat nf) (s.team.element a.toNat (selRow x) (selCol x + l)) else (0, 0))
  let flags : FpFlags := rs.foldl (fun (f : FpFlags) e => f ||| e.2.2) 0
  let t := match portOf d with
    | some p => s.reserveAll s s.em p fun l => .reserved s.cur.id (reserveKey s.cur.nextTag l)
    | none => s
  let u := t.accepted (.read (s.loadDst .word d.toNat) (rs.map fun e => (e.1, e.2.1))) flags (portOf d).isSome
  if (portOf d).isSome then u.progress else u

/-- Accept an `MWR`. -/
def State.acceptMwr (s : State) (d a b : Code) : State :=
  let x := s.wide 1 b
  let f := fmtOf (BitVec.ofNat 2 (nfOut s.nfSeen))
  let src : Src := ⟨a.toNat, .w⟩
  let vals := (s.lanes.filter fun l => selCol x + l < 64).map fun l =>
    (64 * selRow x + selCol x + l, toA80 f ((s.source l [] 0 src).toNat % 2 ^ f.width))
  let u := (s.takePops s.em (popsOf [src])).accepted (.write d.toNat vals) 0 true
  if isPort a.toNat then u.progress else u

/-- The bytes of row `i` of an accumulator in an output format, and the flags (R336). -/
def rowImage (t : Team) (nf : BitVec 16) (acc i : Nat) : List Byte × FpFlags :=
  let xs := (List.range 64).map fun j => t.element acc i j
  let code := nfOut nf
  if isIeee code then
    let rs := xs.map (cvtOut (fmtOf (BitVec.ofNat 2 code)) (nfRnd nf) (nfSat nf))
    (rs.flatMap fun r => leBytes (elementBytes code) r.1, rs.foldl (fun (f : FpFlags) r => f ||| r.2) 0)
  else
    let w := code - 2
    let p := cvtBlock (xs.take 32) w
    let q := cvtBlock (xs.drop 32) w
    (blockBytes p.1 p.2.1 w ++ blockBytes q.1 q.2.1 w, p.2.2 ||| q.2.2)

/-- The pieces of a row with their data. -/
def dataPieces : List Seg → List Byte → List (Seg × Nat)
  | [], _ => []
  | g :: rest, bs => (g, leNat (bs.take g.len)) :: dataPieces rest (bs.drop g.len)

/-- Accept an `MSTO`. -/
def State.acceptMsto (s : State) (d a : Code) : Option State :=
  let nf := s.nfSeen
  let images := (List.range 32).map (rowImage s.team nf d.toNat)
  let vas := rowVas (s.wide 0 a) (s.wide 1 (a + 1)) 32
  let rows := (vas.zip images).map fun e => (e.1, e.2.1.length)
  s.withRows 1 (s.checkRows .store rows (formatAlign (nfOut nf))) fun segs t =>
    some (t.accepted (.store ((segs.zip images).flatMap fun e => dataPieces e.1 e.2.1))
      (images.foldl (fun (f : FpFlags) e => f ||| e.2) 0) true)

/-- Accept an `MLDA`. -/
def State.acceptMlda (s : State) (d a : Code) : Option State :=
  let rows := (rowVas (s.wide 0 a) (s.wide 1 (a + 1)) 32).map fun va => (va, 1024)
  s.withRows 0 (s.checkRows .load rows fun va => aligned va 16) fun segs t =>
    let t : State := { t with draws := t.draws + 1 }
    some (t.accepted (.load d.toNat (t.takeRows s.fetchUnit segs)) 0 true)

/-- A cell reads a register that holds an error that its code cannot correct. -/
def State.mtxFlawed (s : State) (i : Instr) : Bool :=
  !s.cur.intact && (s.mtxReaders (needsU i)).any fun l => s.cur.badSources l [] (mtxReads i)

/-- Accept the cell in issue. Every cell but an `MRD` that pushes no port ends the region at its acceptance (R338). -/
def State.acceptCell (s : State) (i : Instr) : Option State :=
  if s.mtxFlawed i then some (s.poisonTrap id s.cur.pc 1) else
  let checked (ok : State → Bool) (f : State → Option State) : Option State := if ok s then f s else some s.badOperand
  match i with
  | .mma d a b => checked (State.mmaOk 0 d a b) fun s => s.afterStores fun s => s.acceptMma 0 d a b
  | .mmaAcc d a b => checked (State.mmaOk 1 d a b) fun s => s.afterStores fun s => s.acceptMma 1 d a b
  | .mmaSacc d a b => checked (State.mmaOk 2 d a b) fun s => s.afterStores fun s => s.acceptMma 2 d a b
  | .mzero d => some (s.endRegion.accepted (.zero d.toNat) 0 true)
  | .mscl d a => some (s.endRegion.accepted (.scale d.toNat (toA80 f64 (s.wide 0 a).toNat)) 0 true)
  | .mmov d a => some (s.endRegion.accepted (.move d.toNat a.toNat) 0 true)
  | .mrd d a b => checked (State.mrdOk d a b) fun s => some (s.afterPorts [] (portOf d) fun s =>
      (if (portOf d).isSome then s.endRegion else s).acceptMrd d a b)
  | .mwr d a b => checked (State.mwrOk d a b) fun s => some (s.afterPorts (popsOf [⟨a.toNat, .w⟩]) none fun s =>
      s.endRegion.acceptMwr d a b)
  | .msto d a => checked (State.mstoOk d a) fun s => s.afterStores fun s => s.acceptMsto d a
  | .mlda d a => s.afterStores fun s => s.acceptMlda d a
  | _ => none

/-- The issue slot of an MTX cell that is accepted. -/
def State.cellSlot (s : State) (w : Word) : IssueSlot :=
  let uniform : Bool := match decodeWord w with
    | .ok i => needsU i
    | .error _ => false
  { half := if uniform then 0x1000 else 0, half2 := 0, word := w, len := 1, beats := s.team.gw / 16 }

/-- The MTX cell of the group in focus, where it is the first of its context: the tile fetch unit pins the lines of an `MMA`, and
the cell is accepted where it is its turn. Its cycles count for the run of a group that holds the pipe (R410). -/
def State.mtxAccept (s : State) : Option State :=
  match s.cur.cell, s.team? s.cur.team with
  | some (n, w), some t =>
    if !s.cellFirst s.cur t || t.stopping || !s.cur.live || s.cur.fault.isSome then none
    else
      match decodeWord w with
      | .error _ => none
      | .ok i =>
        let u := { s with issue := s.cellSlot w, draws := s.draws + 1 }
        let pinning := isMma w && !s.cur.pinsHeld
        let back (v : State) : State :=
          { v with issue := s.issue, pipes := if (s.holder s.cur.pipeKey).1 = s.cur.id then v.pipes else s.pipes }
        ((if pinning then u.pinCell t n w i else some u).bind fun v =>
          let after := if v.cur.cell.isSome && (!isMma w || v.cur.pinsHeld) && v.cellTurn t w then v.acceptCell i else none
          match after with
          | some x => some x
          | none => if pinning then some v else none).map back
  | _, _ => none

def execMtxAccept (g : Nat) (s : State) : Out := Out.ofOption "MTX_ACCEPT" (s.inGroup? g State.mtxAccept)

/-! ### Retirement (R325, R328, R332, R336, R337, R339) -/

/-- What the tile fetch units of a cluster have seen in a piece since a moment, each with the place of the piece in its row. -/
def State.segPast (s : State) (cluster since before : Nat) (g : Seg) : List (Nat × List (Byte × Bool)) :=
  ((s.pastSince (g.pa / 64) since).filter fun e => e.level == 5 && e.unit == cluster).map fun e =>
    (before, (List.range g.len).map fun i => (lineByte e.data (g.pa % 64 + i), e.poison))

/-- The same for the pieces of a row, with the place of each in the row. -/
def State.rowPast (s : State) (cluster since : Nat) : Nat → List Seg → List (Nat × List (Byte × Bool))
  | _, [] => []
  | before, g :: rest => s.segPast cluster since before g ++ s.rowPast cluster since (before + g.len) rest

/-- A row with some of its bytes in the place of others. -/
def patched {α : Type} (row : List α) (e : Nat × List α) : List α := row.take e.1 ++ e.2 ++ row.drop (e.1 + e.2.length)

/-- The bytes of the pieces of a row, each with whether its line is among some poisoned ones. -/
def flagged (segs : List Seg) (bytes : List Byte) (poison : List DWord) : List (Byte × Bool) :=
  bytes.zip (segs.flatMap fun g => List.replicate g.len (poison.contains (g.va &&& ~~~63)))

/-- The bytes of a row for one element, each with whether it is poisoned. -/
def State.rowFor (s : State) (a : Agent) (e first : Nat) (r : MtxRow) : List (Byte × Bool) :=
  let new := flagged r.segs (s.rowBytes a r.segs) (s.rowPoison a r.segs)
  mixBytes s.draws e first
    (flagged r.segs r.old r.poison :: (s.rowPast (a.cluster.getD 0) r.since 0 r.segs).map (patched new)) new

/-- An element has consumed a poisoned byte (R339). -/
def anyFlag (xs : List (Byte × Bool)) : Bool := xs.any (·.2)

/-- Some value that a row has had since acceptance was poisoned. -/
def State.rowTainted (s : State) (a : Agent) (r : MtxRow) : Bool :=
  !r.poison.isEmpty || !(s.rowPoison a r.segs).isEmpty
    || (s.rowPast (a.cluster.getD 0) r.since 0 r.segs).any fun e => anyFlag e.2

/-- The first line of a row of which an element has consumed a poisoned byte; `elems` are the elements that read the row. -/
def State.rowFirst (s : State) (a : Agent) (elems : List Nat) (first : Nat) (r : MtxRow) : Option DWord :=
  if s.rowTainted a r then
    let reads := elems.map fun e => s.rowFor a e first r
    let ends := r.segs.foldl (fun (acc : List (Seg × Nat)) g =>
      acc ++ [(g, ((acc.getLast?).map fun x => x.2 + x.1.len).getD 0)]) []
    (ends.find? fun x => reads.any fun bs => anyFlag ((bs.drop x.2).take x.1.len)).map fun x => x.1.va &&& ~~~63
  else none

/-- The first poisoned line that an `MMA` has consumed: the rows of A in rising order, then the columns of B; R339 does not say
which line is the first (DESIGN CHOICE, log entry 97). -/
def State.firstPoison (s : State) (a : Agent) (rows cols : List MtxRow) : Option DWord :=
  ((rows.zipIdx.findSome? fun x => s.rowFirst a ((List.range 64).map fun j => 64 * x.2 + j) 0 x.1).orElse fun _ =>
    cols.zipIdx.findSome? fun x => s.rowFirst a ((List.range 32).map fun i => 64 * i + x.2) 1024 x.1)

/-- The same for the rows of an `MLDA`. -/
def State.firstLoaded (s : State) (a : Agent) (rows : List MtxRow) : Option DWord :=
  rows.zipIdx.findSome? fun x =>
    if s.rowTainted a x.1 then
      (List.range 64).findSome? fun j =>
        if anyFlag (((s.rowFor a (64 * x.2 + j) 0 x.1).drop (16 * j)).take 16) then
          (x.1.segs.head?).map fun g => (g.va + BitVec.ofNat 64 (16 * j)) &&& ~~~63
        else none
    else none

/-- The start value of an element (R326). -/
def mmaStart (ctl : Nat) (factor old : A80) : A80 :=
  match ctl with
  | 0 => negZero80
  | 1 => old
  | _ => mul80 factor old

/-- The team after an `MMA`. -/
def State.mmaTile (s : State) (a : Agent) (t : Team) (acc ctl : Nat) (factor : A80) (afmt bfmt : Nat)
    (rows cols : List MtxRow) : Team :=
  let deg := ((s.launch? t.launch).getD Launch.zero).degraded
  t.fillAcc acc fun i j =>
    match rows[i]?, cols[j]? with
    | some r, some c =>
      let e := 64 * i + j
      let x := s.rowFor a e 0 r
      let y := s.rowFor a e 1024 c
      withPoison (anyFlag x || anyFlag y)
        (mmaElement deg afmt bfmt (mmaStart ctl factor (t.element acc i j)) (x.map (·.1)) (y.map (·.1)))
    | _, _ => t.element acc i j

/-- The team after an `MLDA`. -/
def State.mldaTile (s : State) (a : Agent) (t : Team) (acc : Nat) (rows : List MtxRow) : Team :=
  t.fillAcc acc fun i j =>
    match rows[i]? with
    | some r =>
      let x := ((s.rowFor a (64 * i + j) 0 r).drop (16 * j)).take 16
      withPoison (anyFlag x) (ofImage (leNat (x.map (·.1))))
    | none => t.element acc i j

/-- One piece of an `MSTO`: the L1 copies of the pair are pushed and invalidated around the store at the L2 (R336). -/
def State.storePiece (s : State) (core : Nat) (e : Seg × Nat) : State :=
  let g := e.1
  let line := g.pa / 64
  let pair := [core / 2 * 2, core / 2 * 2 + 1]
  let t := pair.foldl (fun t c => t.perform (Agent.ofCore c) 2 g.home line 0 0 false) s
  let t := t.storeBytes (Agent.ofCluster (clusterOf core)) 2 g.home g.pa g.len e.2
  t.dropCopies fun c => c.level == 0 && pair.contains c.unit && c.line == line

/-- The effect of a cell at its retirement, with the group in focus. `MMOV` copies a NaN with every bit as it stands, where R312 sets
bit 63 of the NaNs that operations deliver (DESIGN CHOICE, log entry 95). The rows of an `MSTO` are written in rising order, so
of two that overlap the last stays (DESIGN CHOICE, log entry 96). -/
def State.retireOp (s : State) (tag : Nat) (t : Team) (op : MtxOp) : State :=
  let a := s.fetchUnit
  match op with
  | .mma acc ctl factor afmt bfmt rows cols _ =>
    let u := s.setTeam (s.mmaTile a t acc ctl factor afmt bfmt rows cols)
    let u := { u with arrayBusy := u.arrayBusy.filter fun e => e.2 != t.id,
                      arrayLast := (t.core / 2, t.ctx.getD 0) :: u.arrayLast.filter fun e => e.1 != t.core / 2 }
    match s.firstPoison a rows cols with
    | some va => u.modCur fun g => g.notePoison 4 va
    | none => u
  | .zero acc => s.setTeam (t.fillAcc acc fun _ _ => 0)
  | .scale acc factor => s.setTeam (t.fillAcc acc fun i j => mul80 factor (t.element acc i j))
  | .move acc src => s.setTeam (t.fillAcc acc fun i j => t.element src i j)
  | .load acc rows =>
    let u := s.setTeam (s.mldaTile a t acc rows)
    match s.firstLoaded a rows with
    | some va => u.modCur fun g => g.notePoison 4 va
    | none => u
  | .read dst values => s.deliver tag dst values
  | .write acc values => s.setTeam (t.setElements acc values)
  | .store pieces => pieces.foldl (fun u e => u.storePiece s.cur.core e) s

/-- The stores of an `MSTO` come after the loads that its group issued before it (R278). -/
def Group.storesWait (g : Group) (tag : Nat) (op : MtxOp) : Bool :=
  match op with
  | .store _ => g.flights.any fun f => f.path == 0 && !f.done && decide (f.tag < tag)
  | _ => false

/-- Retire the cell with this tag of the group in focus: the one in progress in its team's context. -/
def State.mtxRetire (tag : Nat) (s : State) : Option State :=
  match s.cur.flight? tag, s.team? s.cur.team with
  | some f, some t =>
    match f.kind with
    | .mtx op flags =>
      if t.mtxBusy = some (s.cur.id, tag) ∧ s.cur.storesWait tag op = false then
        let u := { s.retireOp tag { t with mtxBusy := none } op with draws := s.draws + 1 }
        let u := u.setTeam { (u.team? t.id).getD t with mtxBusy := none }
        some (u.modCur fun g => (g.raise flags).complete tag)
      else none
    | _ => none
  | _, _ => none

def execMtxRetire (g tag : Nat) (s : State) : Out := Out.ofOption "MTX_RETIRE" (s.inGroup? g (State.mtxRetire tag))

end Sys2Proof.Machine
end

