-- ==== Sys2Proof/Machine/Save.lean ====
section
/-! DEFINITION. Pre-emption: which unit gives way, how it stops, the liveness section and the save block (R340, R381 to
R387, R406). -/

namespace Sys2Proof.Machine

/-! ### Which unit gives way (R406) -/

/-- A resident unit: its launch, its teams in ascending tix, and the moment of its last placement. -/
structure ResidentUnit where
  launch : Launch
  teams : List Team
  placed : Nat

/-- Insert a team among teams of rising tix. -/
def insertByTix (t : Team) : List Team → List Team
  | [] => [t]
  | x :: rest => if t.tix < x.tix then t :: x :: rest else x :: insertByTix t rest

/-- The unit of a team: its cohort, or the team alone (R382). -/
def State.unitOf (s : State) (t : Team) : ResidentUnit :=
  let l := (s.launch? t.launch).getD Launch.zero
  let ts := if l.record.coh = 0 ∨ t.isSuccessor = true then [t] else s.teams.filter fun x => x.launch == t.launch
  { launch := l, teams := ts.foldr insertByTix [], placed := (ts.map (·.placed)).foldl Nat.max 0 }

/-- The lowest save slot of a context that no unit holds (R384). -/
def State.freeSaveSlot (s : State) (l : Launch) : Option Nat :=
  let held := (s.units.filter fun u => ((s.launch? u.launch).map (·.record.ctx)) == some l.record.ctx).map (·.slot)
  (List.range (held.length + 1)).find? fun k => k < l.desc.nslot && !held.contains k

/-- Units that may give way to a priority. -/
def State.victims (s : State) (prio : Nat) : List ResidentUnit :=
  (s.teams.map s.unitOf).filter fun u =>
    decide (u.launch.record.prio < prio) && u.launch.fault.isNone && u.teams.all (fun t => t.live && !t.stopping)
      && (s.freeSaveSlot u.launch).isSome

/-- `u` gives way before `v`: lower priority, then placed later. -/
def givesWayBefore (u v : ResidentUnit) : Bool :=
  decide (u.launch.record.prio < v.launch.record.prio)
    || (u.launch.record.prio == v.launch.record.prio && decide (v.placed < u.placed))

/-- Place teams of a launch on one core while they fit. The fuel is the number of slots. -/
def State.fillCore (s : State) (l : Launch) (c : Nat) : Nat → Nat × State
  | 0 => (0, s)
  | n + 1 =>
    match s.placeTeam l.record l.desc.pfr c l.record.reqw (countsAt l.record.nthr) none (s.freeContext c) with
    | none => (0, s)
    | some p => let r := (s.putTeam l 0 p).fillCore l c n; (r.1 + 1, r.2)

/-- How many teams of a launch a core, or the pair it leads, can take now. -/
def State.roomOn (s : State) (l : Launch) (c : Nat) : Nat := (s.fillCore l c 16).1

/-- The next team of a launch, or its whole cohort, can be placed now. -/
def State.fitsNow (s : State) (l : Launch) : Bool :=
  let r := l.record
  if r.coh = 0 then (List.range 512).any fun c => 1 ≤ s.roomOn l c
  else
    let n := levelCores r.coh
    (List.range (512 / n)).any fun i =>
      if r.ring then
        let m := if r.pspan then 4 else 8
        let k := if r.pspan then 2 else 1
        (List.range m).any fun c0 => (List.range r.teams).all fun j => 1 ≤ s.roomOn l (8 * i + k * ((c0 + j) % m))
      else r.teams ≤ ((List.range n).map fun j => s.roomOn l (n * i + j)).sum

/-- Some launch of priority above a unit's waits for room, and the unit is the one that must give way. -/
def State.mustGive (s : State) (u : ResidentUnit) : Bool :=
  s.launches.any fun m => m.unplaced && !s.heldBack m && !s.fitsNow m
    && (s.victims m.record.prio).any (fun v => v.launch.id == u.launch.id && v.teams.map (·.id) == u.teams.map (·.id))
    && !(s.victims m.record.prio).any fun v => givesWayBefore v u

/-! ### PREEMPTION (R382 step 1) -/

/-- A group that stops: it will issue the instruction at which it stalls again, but keeps a barrier that it has arrived
at. -/
def Group.halt (g : Group) : Group :=
  { g with wait := (match g.wait with
      | .bar k phase => .bar k phase
      | .cbar phase => .cbar phase
      | _ => .none), barWait := [], switch := true, latches := 0 }

/-- A group takes a trap before it stops: its watchdog count stands at the limit or the trap of another group is escalated to
it, or a poisoned `WAITV` is to be trapped (R273, R379, R390). -/
def State.trapDue (s : State) (g : Group) : Bool :=
  (g.live && g.fault.isNone && (g.ppend || decide (2 ^ 24 ≤ g.watchdog))) || (s.focus g.id).escalated

/-- The pairs of teams of a unit that are z peers (R231). -/
def State.mirrorsOf (s : State) (ts : List Team) : List (Nat × Nat) :=
  ts.filterMap fun t => (s.zPeer t).map fun p => (t.tix, p.tix)

/-- PREEMPTION of the unit of a team. -/
def State.preempt (s : State) (launch tix : Nat) : Option State :=
  match s.teams.find? fun t => t.launch == launch && t.tix == tix with
  | none => none
  | some t =>
    let u := s.unitOf t
    let ids := u.teams.map (·.id)
    let inUnit (g : Group) : Bool := ids.contains g.team
    match s.freeSaveSlot u.launch with
    | none => none
    | some slot =>
      if !s.mustGive u || s.units.any (fun x => !x.saved) || s.groups.any (fun g => inUnit g && s.trapDue g) then none
      else
        let n := s.number
        let unit : SavedUnit :=
          { id := n.1, launch := launch, tixs := u.teams.map (·.tix), slot := slot, saved := false,
            mirrors := s.mirrorsOf u.teams, positions := [], spans := [], groups := [], answers := [] }
        let v : State := { n.2 with
          units := n.2.units ++ [unit],
          teams := n.2.teams.map fun (x : Team) => if ids.contains x.id then { x with stopping := true } else x }
        -- a run of distance 0 goes on to its end (R57)
        some (v.mapGroups (fun g => inUnit g && !s.midRun g) Group.halt)

def execPreemption (launch tix : Nat) (s : State) : Out := Out.ofOption "PREEMPTION" (s.preempt launch tix)

/-! ### The liveness section (R383) -/

/-- The masks of one group: v-registers of the window, and accumulators. -/
abbrev Masks := BitVec 64 × BitVec 8

def allLive : Masks := (BitVec.allOnes 64, BitVec.allOnes 8)

inductive LiveRead where
  | ok (x : Nat)
  | bad
  | wait (va : DWord)

/-- A launch whose translations go through the context's tables alone. -/
def Launch.tables (l : Launch) : Launch := { l with record := tablesOnly }

/-- 16 bytes of the section, through the context's tables (R399). -/
def State.liveWord (s : State) (l : Launch) (va : DWord) : LiveRead :=
  match s.spotAt (Agent.ofHub 0) l.tables [] .load 16 va with
  | .mem _ pa home => let r := s.loadBytes (Agent.ofHub 0) 7 home pa 16; if r.2 then .bad else .ok (leNat r.1)
  | .wait va => .wait va
  | _ => .bad

/-- The entries of a section, as far as they can be read. -/
def State.liveEntries (s : State) (l : Launch) (n : Nat) : List LiveRead :=
  (List.range n).map fun k => s.liveWord l (l.record.live + BitVec.ofNat 64 (16 + 16 * k))

/-- The first word of an entry. -/
def entryFirst (x : Nat) : Nat := nfield x 96 32

/-- The entries rise, the first is 0, and their reserved fields are 0. -/
def entriesOk (xs : List Nat) : Bool :=
  entryFirst (xs.headD 1) == 0 && xs.all (fun x => nfield x 72 24 == 0)
    && (xs.zip (xs.drop 1)).all fun e => decide (entryFirst e.1 < entryFirst e.2)

/-- The masks of the entry that covers a word. -/
def coveringMasks (xs : List Nat) (idx : Nat) : Masks :=
  match xs.reverse.find? fun x => entryFirst x ≤ idx with
  | some x => (BitVec.ofNat 64 x, BitVec.ofNat 8 (nfield x 64 8))
  | none => allLive

/-- The place that a reading of the section waits for, if any. -/
def LiveRead.waits : LiveRead → Option DWord
  | .wait va => some va
  | _ => none

def LiveRead.value : LiveRead → Option Nat
  | .ok x => some x
  | _ => none

/-- The masks of a group at an address; `inl` where the section waits to be read. -/
def State.masksAt (s : State) (l : Launch) (pc : DWord) : DWord ⊕ Masks :=
  if l.record.live = 0 then .inr allLive
  else
    match s.liveWord l l.record.live with
    | .wait va => .inl va
    | .bad => .inr allLive
    | .ok h =>
      let nent := nfield h 0 32
      let nwords := nfield h 32 32
      let off := (pc - l.record.code).toNat
      if nfield h 64 64 ≠ 0 ∨ nent = 0 ∨ off % 4 ≠ 0 ∨ nwords ≤ off / 4 then .inr allLive
      else
        let rs := s.liveEntries l nent
        match rs.findSome? LiveRead.waits with
        | some va => .inl va
        | none =>
          let xs := rs.filterMap LiveRead.value
          if xs.length = nent ∧ entriesOk xs = true then .inr (coveringMasks xs (off / 4)) else .inr allLive

/-! ### The save block (R384 to R387) -/

def saveMagic : Nat := 0x47395341

/-- The words of a thread's stack that are saved, by index. -/
def savedWords (wb wal : Nat) (vmask : BitVec 64) : List Nat :=
  List.range wb ++ ((List.range 64).filter vmask.getLsbD).map (wb + ·) ++ (List.range (wal - wb - 64)).map (wb + 64 + ·)

/-- A thread record. -/
def threadBytes (t : Thread) (wb wal : Nat) (vmask : BitVec 64) : List Byte :=
  let qs := (List.range 6).map t.queue
  let entry (q : List RillEntry) (e : Nat) : Nat := match q[e]? with
    | some x => x.value.toNat
    | none => 0
  let head := packFields ([(t.tid, 32), (0, 32), (t.pred.toNat, 32), (0, 112)] ++ qs.map (fun q => (q.length, 4)) ++ [(0, 24)]
    ++ qs.flatMap fun q => (List.range 4).map fun e => (entry q e, 32))
  let data := (savedWords wb wal vmask).flatMap fun i => leBytes 4 (sget 0 t.stack i).toNat
  leBytes 128 head ++ data ++ List.replicate (roundUp data.length 16 - data.length) 0

/-- A group record. -/
def groupBytes (g : Group) (vmask : BitVec 64) : List Byte :=
  leBytes 512 (packFields
    ((List.range 32).map (fun i => ((sget 0 g.sregs i).toNat, 64)) ++ (List.range 8).map (fun i => ((sget 0 g.hregs i).toNat, 64))
      ++ [(g.pc.toNat, 64), (g.em.toNat, 64), (g.tem.toNat, 64), (g.tpc.toNat, 64), (g.tval.toNat, 64), (g.rstart.toNat, 64),
        (g.wsa.toNat, 64), (g.gcyc.toNat, 64), (vmask.toNat, 64), (g.fpc.toNat, 32), (g.nf.toNat, 16), (g.wb, 16),
        (g.wss.toNat, 32), (g.wsd.toNat, 32), (g.gstat.toNat, 32), (g.tcause.toNat, 8), (if g.fault.isSome then 1 else 0, 8),
        (g.rwb, 16), (g.watchdog, 25), (0, 7), ((g.fault.map (·.seq.toNat)).getD 0, 16), (g.ppath.toNat, 6), (0, 10),
        ((g.fault.map (·.va.toNat)).getD 0, 64), (g.pva.toNat, 64), (g.gix, 16)]))

/-- The image of an accumulator element (R315). -/
def a80Bytes (x : A80) : List Byte := leBytes 10 x.toNat ++ List.replicate 6 0

/-- The accumulators of a mask. -/
def accBytes (t : Team) (amask : BitVec 8) : List Byte :=
  ((List.range 8).filter amask.getLsbD).flatMap fun k => (List.range 2048).flatMap fun e => a80Bytes (sget 0 t.acc (2048 * k + e))

/-- The header of a team block. -/
def teamHeader (t : Team) (nthr nrec : Nat) (amask : BitVec 8) (size : Nat) : List Byte :=
  leBytes 128 (packFields
    ([(t.tix, 32), (t.ngrp, 16), (t.gw, 8), (if t.pspan then 1 else 0, 1), (if t.ctx.isSome then 1 else 0, 1),
      (if t.succ.isSome then 1 else 0, 1), (0, 5), (nthr, 32), (t.crank, 32), ((t.succ.getD 0).toNat, 64), (t.rcfg.toNat, 64)]
    ++ t.bars.flatMap (fun b => [(b.count, 16), (b.phase.toNat, 16)])
    ++ [(amask.toNat, 8), (nrec, 16), (0, 8), (t.spb, 32), (size, 64)]))

/-- A team block, and the offset of the scratchpad in it. -/
def State.teamBlock (s : State) (t : Team) (ms : Group → Masks) : List Byte × Nat :=
  let gs := s.teamGroups t.id
  let amask : BitVec 8 := if t.ctx.isSome then gs.foldl (fun (m : BitVec 8) g => m ||| (ms g).2) 0 else 0
  let body := gs.flatMap (fun g => groupBytes g (ms g).1)
    ++ gs.flatMap (fun g => g.threads.flatMap fun x => threadBytes x g.wb t.wal (ms g).1) ++ accBytes t amask
  let scratch := (List.range t.spb).map fun i => sget 0 t.scratch i
  let size := roundUp (128 + body.length + t.spb) 64
  (teamHeader t (s.teamThreads t.id) gs.length amask size ++ body ++ scratch
      ++ List.replicate (size - (128 + body.length + t.spb)) 0,
    128 + body.length)

/-- The area header of a slot. -/
def areaHeader (gen cphase ccount used nteam : Nat) : List Byte :=
  leBytes 64 (packFields [(saveMagic, 32), (nteam, 32), (used, 64), (ccount, 32), (cphase, 32), (gen, 64)])

/-! ### SAVE_BLOCK_WRITE (R382 steps 2 to 5) -/

/-- The teams of a unit that are on the device. -/
def State.unitTeams (s : State) (u : SavedUnit) : List Team :=
  (s.teams.filter fun t => t.launch == u.launch && t.stopping && u.tixs.contains t.tix).foldr insertByTix []

/-- A reserved entry waits for its value. -/
def Thread.reserves (t : Thread) : Bool :=
  (List.range 6).any fun p => (t.queue p).any fun e => !e.isFilled

/-- The operations of a team have drained, and no trap is left that a group takes first (R231, R340, R361, R390). -/
def State.drained (s : State) (t : Team) : Bool :=
  (s.groups.all fun g => g.team != t.id || (g.flights.isEmpty && !s.midRun g && !s.trapDue g && g.threads.all fun x => !x.reserves))
    && t.mtxBusy.isNone
    && !s.scratchBusy t.id

/-- The group stops, and results of fixed latency are written; a group that is not parked on a data fault ends its region. -/
def Group.settled (g : Group) : Group :=
  let h := g.flags.foldl (fun (h : Group) f => h.raise f.flags) { g.halt with flags := [], hazards := [] }
  match g.fault with
  | some f => if f.fetch then { h with rstart := h.pc, rwb := h.wb } else h
  | none => { h with rstart := h.pc, rwb := h.wb }

/-- Perform what the groups of teams left in store buffers and write buffers, and push their cores' narrow bytes to the
DEV point, so that the threads see their own stores wherever they resume (R67). -/
def State.carryOut (s : State) (ts : List Team) : State :=
  let ids := ts.map (·.id)
  let gs := s.groups.filter fun g => ids.contains g.team
  let own := gs.flatMap fun g => g.storeBuf.map fun l => l.toEntry g
  let mine := (s.writeBuf.filter fun e => gs.any (·.id == e.group)) ++ own
  let t := { s with writeBuf := s.writeBuf.filter fun e => !gs.any (·.id == e.group) }.mapGroups
    (fun g => ids.contains g.team) fun g => { g with storeBuf := [] }
  let t := mine.foldl (fun t e => t.performEntry e 6) t
  (ts.flatMap fun x => coresOf x.pspan x.core).foldl
    (fun t c => (t.narrowLines (Agent.ofCore c) 6).foldl (fun t l => t.perform (Agent.ofCore c) 6 .cached l 0 0 false) t) t

/-- What `carryOut` would push is held by a flip, a rebuild or a load (R278, R419, R448). -/
def State.carryHeld (s : State) (ts : List Team) : Bool :=
  (ts.flatMap fun x => coresOf x.pspan x.core).any (fun c => s.heldLine c 6)
    || s.groups.any fun g => ts.any (·.id == g.team) && g.storeBuf.any fun l => s.heldUp true (dieOf g.core) 6 l.line

/-- The masks of every group of the teams; `inl` where a section waits to be read. -/
def State.allMasks (s : State) (l : Launch) (gs : List Group) : DWord ⊕ List (Nat × Masks) :=
  match gs.findSome? fun g => match s.masksAt l g.pc with
    | .inl va => some va
    | .inr _ => none with
  | some va => .inl va
  | none => .inr (gs.map fun g => (g.id, match s.masksAt l g.pc with
    | .inl _ => allLive
    | .inr m => m))

/-- The lines of a slot that hold poisoned blocks of a scratchpad. -/
def poisonedLines (base : Nat) (spoison : List Nat) (spb : Nat) : List Nat :=
  (spoison.filter fun k => 64 * k < spb).flatMap fun k => [(base + 64 * k) / 64, (base + 64 * k + 63) / 64]

/-- Write the team blocks one after another from an address. -/
def State.writeBlocks (s : State) (ms : Group → Masks) (pa : Nat) : List Team → State × Nat
  | [] => (s, pa)
  | t :: rest =>
    let b := s.teamBlock t ms
    let u := s.hubStore 0 pa b.1
    let u := (poisonedLines (pa + b.2) t.spoison t.spb).foldl (fun u l => u.setPoison l true) u
    u.writeBlocks ms (pa + b.1.length) rest

/-- What the scheduler keeps of a unit's groups. -/
def State.savedGroups (s : State) (ts : List Team) : List SavedGroup :=
  ts.flatMap fun t => (s.teamGroups t.id).map fun g =>
    { tix := t.tix, gix := g.gix, arrived := g.arrived, wait := g.wait, resliced := g.resliced, fault := g.fault, pc := g.pc,
      tid0 := g.tid0 }

def State.savedPositions (s : State) (ts : List Team) : List (Nat × (Nat × Nat)) :=
  ts.flatMap fun t => (s.teamGroups t.id).flatMap fun g => g.threads.map fun x => (t.tix, (x.tid, x.pos))

/-- Free the teams of a unit. -/
def State.freeTeams (s : State) (ts : List Team) : State :=
  let ids := ts.map (·.id)
  let t := s.withGroups (s.groups.filter fun g => !ids.contains g.team)
  { t with teams := t.teams.filter fun x => !ids.contains x.id }

/-- The masks of a group among those found. -/
def masksIn (ms : List (Nat × Masks)) (g : Group) : Masks := ((ms.find? (·.1 == g.id)).map (·.2)).getD allLive

/-- The bytes of a slot that the save of teams writes. -/
def State.savedBytes (s : State) (ts : List Team) (ms : List (Nat × Masks)) : Nat :=
  64 + (ts.map fun t => (s.teamBlock t (masksIn ms)).1.length).sum

/-- The unit's block is written and its teams are freed. -/
def State.saveUnit (s : State) (u : SavedUnit) (l : Launch) (ts : List Team) (ms : List (Nat × Masks)) : State :=
  let base := l.desc.pool + l.desc.slsz * u.slot
  let old := s.hubNum 0 base 64
  -- no value of a poisoned header is used (R451)
  let gen := (if old.2 then 0 else nfield old.1 192 64) + 1
  let w := s.writeBlocks (masksIn ms) (base + 64) ts
  let t := w.1.hubStore 0 base (areaHeader gen l.cphase.toNat l.ccount (w.2 - base) ts.length)
  let done := { u with saved := true, positions := s.savedPositions ts, groups := s.savedGroups ts,
                       spans := ts.map fun t => (t.tix, t.nthr) }
  { t.freeTeams ts with units := t.units.map fun x => if x.id = u.id then done else x }

/-- The region stores of every group that is not parked on a data fault are committed. -/
def State.settleUnit (s : State) (ts : List Team) : State :=
  s.mapGroups (fun g => (ts.map (·.id)).contains g.team) Group.settled

/-- The group in focus goes on after a barrier whose phase has completed. -/
def State.passOver (s : State) : State :=
  if s.barrierOver then
    let s : State := { s with issue := { half := 0, half2 := 0, word := 0, len := 1, beats := 1 } }
    match s.cur.wait with
    | .bar _ _ => s.passBar s.team.scope
    | .cbar _ => s.passBar s.launch.record.coh
    | _ => s
  else s

/-- The groups of a unit pass the barriers that have completed. -/
def State.passOvers (s : State) (ts : List Team) : State :=
  s.inEach (((s.groups.filter fun g => g.live && (ts.map (·.id)).contains g.team)).map (·.id)) State.passOver

/-- SAVE_BLOCK_WRITE. -/
def State.saveBlock (s : State) (unit : Nat) : Option State :=
  match s.units.find? (·.id == unit) with
  | none => none
  | some u =>
    let ts := s.unitTeams u
    let l := (s.launch? u.launch).getD Launch.zero
    if u.saved || ts.isEmpty || !ts.all s.drained || s.carryHeld ts then none
    else
      let t := ((s.passOvers ts).settleUnit ts).carryOut ts
      match t.allMasks l (ts.flatMap fun x => t.teamGroups x.id) with
      | .inl va => s.beginWait (Agent.ofHub 0) l.tables .load va
      | .inr ms =>
        match s.slotReach .atomic (l.desc.pool + l.desc.slsz * u.slot) (t.savedBytes ts ms) with
        | .wait v => s.waitFrom v
        | .refused => none
        | .ready => some (t.saveUnit u l ts ms)

def execSaveBlockWrite (unit : Nat) (s : State) : Out := Out.ofOption "SAVE_BLOCK_WRITE" (s.saveBlock unit)

end Sys2Proof.Machine
end

