-- ==== Sys2Proof/Machine/Resume.lean ====
section
/-! DEFINITION. RESUME: reading and checking a save slot, restoring teams and groups, the grant on the new core, and the
faults still pending (R172 to R176, R231, R375, R384 to R389). -/

namespace Sys2Proof.Machine

/-! ### Reading a slot -/

/-- A thread as its record holds it. -/
structure SavedThread where
  head : Nat
  words : List Word

/-- A team block as it is read. -/
structure SavedTeam where
  head : Nat
  groups : List Nat
  threads : List SavedThread
  acc : List (Nat × A80)
  scratch : List (Nat × Byte)
  /-- bytes that the block takes by its parts -/
  size : Nat

def headTix (h : Nat) : Nat := nfield h 0 32
def headNgrp (h : Nat) : Nat := nfield h 32 16
def headGw (h : Nat) : Nat := nfield h 48 8
def headNthr (h : Nat) : Nat := nfield h 64 32
def headAmask (h : Nat) : BitVec 8 := BitVec.ofNat 8 (nfield h 448 8)
def headNrec (h : Nat) : Nat := nfield h 456 16
def headSpbytes (h : Nat) : Nat := nfield h 480 32

/-- The window base and vmask of a group record. -/
def recWb (r : Nat) : Nat := nfield r 3184 16
def recVmask (r : Nat) : BitVec 64 := BitVec.ofNat 64 (nfield r 3072 64)
def recGix (r : Nat) : Nat := nfield r 3520 16

/-- Words from a number. -/
def wordsOf (n x : Nat) : List Word := (List.range n).map fun i => BitVec.ofNat 32 (nfield x (32 * i) 32)

/-- Thread records from an address; `rs` gives the group record of each thread. -/
def State.readThreads (s : State) (wal : Nat) (pa : Nat) : List Nat → List SavedThread × Nat
  | [] => ([], pa)
  | r :: rest =>
    let n := (savedWords (recWb r) wal (recVmask r)).length
    let t : SavedThread := { head := (s.hubNum 0 pa 128).1, words := wordsOf n (s.hubNum 0 (pa + 128) (4 * n)).1 }
    let q := s.readThreads wal (pa + 128 + roundUp (4 * n) 16) rest
    (t :: q.1, q.2)

/-- The saved accumulators from an address. -/
def State.readAccs (s : State) (pa : Nat) (amask : BitVec 8) : List (Nat × A80) :=
  ((List.range 8).filter amask.getLsbD).zipIdx.foldl
    (fun m k => (List.range 2048).foldl
      (fun m e => sset 0 m (2048 * k.1 + e) (ofImage (s.hubNum 0 (pa + 32768 * k.2 + 16 * e) 16).1)) m) []

/-- A team block at an address. -/
def State.readTeam (s : State) (wal pa : Nat) : SavedTeam :=
  let h := (s.hubNum 0 pa 128).1
  let rs := (List.range (headNrec h)).map fun i => (s.hubNum 0 (pa + 128 + 512 * i) 512).1
  let recs := (List.range (headNthr h)).map fun j => rs.getD (j / headGw h) 0
  let ts := s.readThreads wal (pa + 128 + 512 * headNrec h) recs
  let accEnd := ts.2 + 32768 * popCount (headAmask h)
  { head := h, groups := rs, threads := ts.1, acc := s.readAccs ts.2 (headAmask h),
    scratch := (List.range (headSpbytes h)).foldl
      (fun m i => sset 0 m i (BitVec.ofNat 8 (s.hubNum 0 (accEnd + i) 1).1)) [],
    size := roundUp (accEnd + headSpbytes h - pa) 64 }

/-- The team blocks of a slot. -/
def State.readTeams (s : State) (wal : Nat) : Nat → Nat → List SavedTeam × Nat
  | 0, pa => ([], pa)
  | n + 1, pa =>
    let t := s.readTeam wal pa
    let q := s.readTeams wal n (pa + t.size)
    (t :: q.1, q.2)

/-! ### Checks (R388) -/

def SavedThread.ok (t : SavedThread) : Bool :=
  nfield t.head 232 24 == 0 && nfield t.head 96 112 == 0 && nfield t.head 32 32 == 0
    && (List.range 6).all fun q => nfield t.head (208 + 4 * q) 4 ≤ 4

/-- A group record is in order for a register allotment: its reserved fields, those of nf, gstat and fpc among them, are 0. -/
def recOk (wal r : Nat) : Bool :=
  nfield r 3536 560 == 0 && nfield r 3382 10 == 0 && nfield r 3353 7 == 0 && nfield r 3304 8 ≤ 1 && recWb r + 64 ≤ wal
    && nfield r 3183 1 == 0 && nfield r 3268 28 == 0 && nfield r 3145 23 == 0

/-- A team block is in order: its reserved fields, those of rcfg among them, are 0 (R11, R216, R388). -/
def SavedTeam.ok (t : SavedTeam) (r : LaunchRec) (tix : Nat) : Bool :=
  let h := t.head
  nfield h 576 448 == 0 && nfield h 472 8 == 0 && nfield h 59 5 == 0 && nfield h 208 48 == 0
    && headTix h == tix && headSpbytes h == r.spb && h.testBit 56 == r.pspan && h.testBit 57 == r.mctx
    && (headAmask h == 0 || r.mctx) && (headGw h == 16 || headGw h == 32 || headGw h == 64) && r.gmin ≤ headGw h
    && headNthr h ≤ headNrec h * headGw h && nfield h 512 64 == t.size
    && t.groups.all (recOk r.wal) && t.threads.all SavedThread.ok

/-- What the reading of a slot needs: its header, then what the header says is used. -/
def State.readReach (s : State) (u : SavedUnit) (l : Launch) : HubReach :=
  let base := l.desc.pool + l.desc.slsz * u.slot
  match s.slotReach .load base 64 with
  | .ready => s.slotReach .load base (Nat.min (nfield (s.hubNum 0 base 64).1 64 64) l.desc.slsz)
  | r => r

/-- What a slot holds, if it passes every check. -/
def State.readSlot (s : State) (u : SavedUnit) (l : Launch) : Option (Nat × List SavedTeam) :=
  let base := l.desc.pool + l.desc.slsz * u.slot
  let h := (s.hubNum 0 base 64).1
  let used := nfield h 64 64
  if !(s.readReach u l).isReady || (s.hubNum 0 base 64).2 || nfield h 0 32 != saveMagic || nfield h 256 256 != 0 || nfield h 32 32 != u.tixs.length
      || decide (used < 64) || decide (l.desc.slsz < used)
      || (List.range ((used + 63) / 64)).any (fun i => (s.view (Agent.ofHub 0) 7 .cached (base / 64 + i)).2) then none
  else
    let ts := s.readTeams l.record.wal u.tixs.length (base + 64)
    if ts.2 - base == used && (ts.1.zip u.tixs).all fun e => e.1.ok l.record e.2 then some (h, ts.1) else none

/-! ### Restoring -/

/-- The stack of a thread: words that were not saved hold 0 (R389). -/
def restoredStack (wal r : Nat) (ws : List Word) : List (Nat × Word) :=
  ((savedWords (recWb r) wal (recVmask r)).zip ws).foldl (fun m e => sset 0 m e.1 e.2) []

/-- A queue of a thread record. -/
def restoredQueue (h q : Nat) : List RillEntry :=
  (List.range (nfield h (208 + 4 * q) 4)).map fun e => .filled (BitVec.ofNat 32 (nfield h (256 + 128 * q + 32 * e) 32))

def restoredThread (u : SavedUnit) (tix wal r : Nat) (t : SavedThread) : Thread :=
  let tid := nfield t.head 0 32
  { Thread.new tid with
    pos := ((u.positions.find? fun e => e.1 == tix && e.2.1 == tid).map (·.2.2)).getD tid,
    stack := restoredStack wal r t.words, pred := BitVec.ofNat 32 (nfield t.head 64 32),
    xp := restoredQueue t.head 0, xm := restoredQueue t.head 1, yp := restoredQueue t.head 2, ym := restoredQueue t.head 3,
    zp := restoredQueue t.head 4, zm := restoredQueue t.head 5 }

/-- A 64-bit field of a record. -/
def field64 (r lo : Nat) : DWord := BitVec.ofNat 64 (nfield r lo 64)

/-- A register file of `n` 64-bit registers. -/
def restoredRegs (r lo n : Nat) : List (Nat × DWord) :=
  (List.range n).foldl (fun m i => sset 0 m i (field64 r (lo + 64 * i))) []

/-- A group from its record and its threads. Its first instruction is a switch point. -/
def restoredGroup (u : SavedUnit) (d : CtxDesc) (team tix r : Nat) (ts : List Thread) : Group :=
  let keep := u.groups.find? fun x => x.tix == tix && x.gix == recGix r
  { Group.zero with
    live := true, team := team, gix := recGix r, pc := field64 r 2560, threads := ts, sregs := restoredRegs r 0 32,
    hregs := restoredRegs r 2048 8, em := field64 r 2624 &&& lowMask ts.length, nf := BitVec.ofNat 16 (nfield r 3168 16),
    fpc := BitVec.ofNat 32 (nfield r 3136 32), wb := recWb r, rstart := field64 r 2880, rwb := nfield r 3312 16,
    gstat := BitVec.ofNat 32 (nfield r 3264 32), tcause := BitVec.ofNat 8 (nfield r 3296 8), tpc := field64 r 2752,
    tval := field64 r 2816, tem := field64 r 2688, hva := d.hva, wsa := field64 r 2944,
    wss := BitVec.ofNat 32 (nfield r 3200 32), wsd := BitVec.ofNat 32 (nfield r 3232 32), gcyc := field64 r 3008,
    watchdog := nfield r 3328 25, ppath := BitVec.ofNat 6 (nfield r 3376 6), pva := field64 r 3456,
    fault := if nfield r 3304 8 = 1 then
        some { va := field64 r 3392, seq := BitVec.ofNat 16 (nfield r 3360 16), fetch := false }
      else none,
    wait := (keep.map (·.wait)).getD .none, arrived := (keep.map (·.arrived)).getD [],
    resliced := (keep.map (·.resliced)).getD false,
    -- the instruction at a barrier goes on; its own waits are over
    came := ((keep.map (·.wait)).getD .none) != .none }

/-- The groups of a team at the saved width. -/
def SavedTeam.restore (t : SavedTeam) (u : SavedUnit) (l : Launch) (team : Nat) : List Group :=
  let tix := headTix t.head
  t.groups.mapIdx fun i r =>
    restoredGroup u l.desc team tix r
      (((t.threads.drop (i * headGw t.head)).take (headGw t.head)).map (restoredThread u tix l.record.wal r))

/-- The barriers of a team header. -/
def restoredBars (h : Nat) : List Barrier :=
  (List.range 6).map fun k => { phase := BitVec.ofNat 16 (nfield h (272 + 32 * k) 16), count := nfield h (256 + 32 * k) 16 }

/-- A team from its block, without its place. -/
def SavedTeam.team (t : SavedTeam) (u : SavedUnit) (l : Launch) (id core : Nat) : Team :=
  let h := t.head
  { Team.zero with
    id := id, live := true, launch := l.id, tix := headTix h, core := core, pspan := l.record.pspan, gw := headGw h,
    ngrp := headNgrp h, nthr := ((u.spans.find? (·.1 == headTix h)).map (·.2)).getD (headNthr h), wal := l.record.wal,
    bars := restoredBars h, rcfg := BitVec.ofNat 16 (nfield h 192 64), spb := l.record.spb, scratch := t.scratch,
    acc := t.acc, succ := if h.testBit 58 then some (field64 h 128) else none, crank := nfield h 96 32, placed := id,
    isSuccessor := l.viaExit }

/-! ### The place of a resumed team (R172, R173, R405) -/

/-- Put each group on a pipe of its core; `none` where one does not fit. -/
def State.pipesFor (s : State) (wal : Nat) (gs : List Group) (cores : List Nat) : Option (List Group) :=
  let on (c : Nat) : Option (List (Nat × Nat)) :=
    let mine := gs.filter (·.core == c)
    (assignPipes wal (mine.map fun g => g.threads.length) (s.pipesWith c s.groups)).map fun ps => (mine.map (·.gix)).zip ps
  if cores.all fun c => (on c).isSome then
    let ps := cores.flatMap fun c => (on c).getD []
    some (gs.map fun g => { g with pipe := ((ps.find? (·.1 == g.gix)).map (·.2)).getD 0 })
  else none

/-- The team and its groups at width `w`. A narrower width renumbers the groups, sets RESLICED and makes each enter the
reslice vector (R176, R388). -/
def Team.atWidth (t : Team) (gs : List Group) (w : Nat) : Team × List Group :=
  if w = t.gw then (t, gs.map fun g => { g with core := t.coreOf g.gix })
  else
    let hs := (t.renumber 0 (resliceGroups t.gw w gs)).map fun g => { g with gstat := setBit g.gstat 1 true, resliced := true }
    ({ t with gw := w, ngrp := hs.length }, hs)

/-- Place a resumed team on the core, or the pair, led by `c`. -/
def State.placeSaved (s : State) (t : SavedTeam) (u : SavedUnit) (l : Launch) (c : Nat) : Option State :=
  let r := l.record
  let cores := coresOf r.pspan c
  let cap := (cores.map s.coreCap).foldl Nat.min 64
  let ctx := s.freeContext c
  if !s.suits s.coreUsable r c || (r.mctx && ctx.isNone) || !(cores.all (s.framesFit l.desc.pfr)) then none
  else
    match s.freshSpot r l.desc.pfr c with
    | none => none
    | some k =>
      let n := s.number
      let team := { t.team u l n.1 c with slot := k.1, spBase := k.2, ctx := if r.mctx then ctx else none }
      let gs := t.restore u l n.1
      let fit := [64, 32, 16].findSome? fun w =>
        if w ≤ team.gw ∧ w ≤ cap ∧ r.gmin ≤ w then
          let x := team.atWidth gs w
          (n.2.pipesFor r.wal x.2 cores).map fun ps => (x.1, ps)
        else none
      match fit with
      | none => none
      | some x =>
        let v := cores.foldl (fun v c => (v.setFrames l.desc.pfr c).pullIn c 6) n.2
        let v := v.modLaunch l.id fun m => m.runsOn cores (v.draws + 1)
        let named := v.nameGroups (x.2.map fun g => { g with codeTime := v.draws + 1 })
        some { named.1 with teams := named.1.teams ++ [x.1], others := named.1.others ++ named.2, draws := v.draws + 1 }

/-- Place the teams of a unit on the cores given. -/
def State.placeUnit (s : State) (u : SavedUnit) (l : Launch) : List (SavedTeam × Nat) → Option State
  | [] => some s
  | e :: rest =>
    match s.placeSaved e.1 u l e.2 with
    | none => none
    | some t => t.placeUnit u l rest

/-! ### Pending faults (R375) -/

/-- Consume the replies of a context. The fuel is the number of entries. -/
def State.consumeReplies (s : State) (ctx : Nat) : Nat → State
  | 0 => s
  | n + 1 =>
    match s.takeReply ctx with
    | none => s
    | some r => (if s.matched ctx r.1 then r.2.answer ctx r.1.act r.1.seq else r.2).consumeReplies ctx n

/-- Apply the replies that were kept for a unit. -/
def State.applyKept (s : State) (ctx : Nat) (u : SavedUnit) : State :=
  u.answers.foldl (fun t a => t.answerHere ctx a.2 a.1) s

/-- How many replies wait. -/
def State.repliesOf (s : State) (ctx : Nat) : Nat :=
  match s.replyArea ctx with
  | none => 0
  | some rpa => let h := s.ringHeader rpa; if h.hasEntry then (h.wr - h.rd).toNat else 0

/-- The fault address of the group in focus is walked; if the walk succeeds, the group replays. -/
def State.walkPending (s : State) : State :=
  match s.cur.fault with
  | none => s
  | some f =>
    match s.partyXlate (Agent.ofCore s.cur.core) s.launch .load f.va with
    | .fault _ => s
    | _ => s.modCur Group.unpark

/-! ### RESUME (R388, R403, R406) -/

/-- Every pair of z peers stands on mirror cores again. -/
def State.mirrored (s : State) (u : SavedUnit) : Bool :=
  let ts := s.teams.filter fun t => t.launch == u.launch
  u.mirrors.all fun m => (s.mirrorsOf ts).contains m

/-- A launch of higher priority must be placed first. -/
def State.resumeHeld (s : State) (l : Launch) : Bool :=
  s.launches.any fun m => m.unplaced && decide (l.record.prio < m.record.prio) && s.fitsNow m

/-- The unit is on its cores: its barrier of the cohort is restored, its slot is free, and pending faults are looked at. -/
def State.unitBack (s : State) (u : SavedUnit) (l : Launch) (header : Nat) : State :=
  let t := s.modLaunch l.id fun m =>
    if l.record.coh = 0 then m
    else { m with cphase := BitVec.ofNat 32 (nfield header 160 32), ccount := nfield header 128 32 }
  let t := { t with units := s.units.filter fun x => x.id != u.id }.applyKept l.record.ctx u
  let t := t.consumeReplies l.record.ctx (t.repliesOf l.record.ctx)
  let gs := (t.groups.filter fun g => g.fault.isSome && u.tixs.any fun x =>
    t.teams.any fun m => m.id == g.team && m.launch == u.launch && m.tix == x).map (·.id)
  t.inEach gs State.walkPending

/-- What a resume reads cannot be read yet: the slot, or the next reply of its context. -/
def State.resumeWaits (s : State) (u : SavedUnit) (l : Launch) : Option State :=
  match (s.readReach u l).waits with
  | some t => some t
  | none => s.replyWaits l.record.ctx

def State.resumeUnit (s : State) (unit : Nat) (cores : List Nat) : Option State :=
  match s.units.find? (·.id == unit) with
  | none => none
  | some u =>
    match s.launch? u.launch with
    | none => none
    | some l =>
      if !u.saved || !s.led l || s.resumeHeld l || (cores.flatMap (coresOf l.record.pspan)).any (fun c => s.heldLine c 6) then none
      else
        match s.resumeWaits u l with
        | some t => s.waitFrom t
        | none =>
        match s.readSlot u l with
        | none => some (s.endLaunch l.id 0 0 0xFFFFFFFF 0xFFFFFFFF 0xFE)
        | some x =>
          if !s.managed || cores.length != u.tixs.length || !coresLie l.record u.tixs cores then none
          else
            match s.placeUnit u l (x.2.zip cores) with
            | none => none
            | some t => if t.mirrored u then some (t.unitBack u l x.1) else none

def execResume (unit : Nat) (cores : List Nat) (s : State) : Out := Out.ofOption "RESUME" (s.resumeUnit unit cores)

end Sys2Proof.Machine
end

