-- ==== Sys2Proof/Machine/Defaults.lean ====
section
/-! DEFINITION. The moves of the device that are due where no script names one, in the order in which the step tries
them, and which group takes the pipe. -/

namespace Sys2Proof.Machine

/-- A move of the device: the meaning of one of its operations. -/
abbrev Move : Type := State → Out

/-- The moves that an operation in flight calls for. -/
def Flight.moves (g : Nat) (f : Flight) : List Move :=
  if f.done then []
  else if f.walking then [execTranslationComplete g f.tag]
  else
    match f.kind with
    | .load _ _ _ _ _ _ => [execLoadResultReturn g f.tag (BitVec.allOnes 64)]
    | .atomic _ _ _ _ _ _ => [execLoadResultReturn g f.tag (BitVec.allOnes 64)]
    | .returned _ _ _ _ _ _ _ _ => [execLoadResultReturn g f.tag (BitVec.allOnes 64)]
    | .store _ _ => [execStoreAcknowledge g f.tag]
    | .sload _ _ _ => [execScratchpadAccessPerformed g f.tag (BitVec.allOnes 64)]
    | .sstore _ _ => [execScratchpadAccessPerformed g f.tag (BitVec.allOnes 64)]
    | .long _ _ _ => [execLongLatencyResult g f.tag]
    | .command c => [execEngineRecordRead c]
    | .mtx _ _ => [execMtxRetire g f.tag]

/-- The queue entries of a lane that can be filled. -/
def fillMoves (g lane : Nat) (t : Thread) : List Move :=
  ((List.range 6).filter fun p => (fillFirst (t.queue p)).isSome).map fun p => execRillEntryFill g lane p

/-- The moves that a group calls for. -/
def Group.moves (g : Group) : List Move :=
  (g.flights.flatMap (Flight.moves g.id))
    ++ (g.threads.zipIdx.flatMap fun e => fillMoves g.id e.2 e.1)
    ++ (match g.wait with
      | .waitv _ _ entry _ => if entry then [execWaitvMonitorFire g.id] else [execWaitvMonitorPoll g.id]
      | .mtx _ _ _ => [execMtxAccept g.id]
      | .bar _ _ => [execWatchdogTrap g.id]
      | .cbar _ => [execWatchdogTrap g.id]
      | .rendezvous _ _ _ => [execWatchdogTrap g.id]
      | _ => [])

/-- The moves that an engine command calls for. -/
def Command.moves (c : Command) : List Move :=
  match c.stage with
  | .queued => [execEngineRecordRead c.id]
  | .read => [execRunnelLoad c.id, execRunnelStore c.id, execRunnelGather c.id, execRunnelScatter c.id,
      execRunnelRedstore c.id, execCascadeMcast c.id, execCascadeMcred c.id]
  | .moved => (c.deliveries.map fun d => execCascadeDelivery c.id d.cluster) ++ [execEngineCommandEnd c.id]
  | .lost => [execEngineCommandEnd c.id]

/-- The cores on which `n` teams are tried: one after another from a core on, around a ring, or all on one core. -/
def coreChoices (r : LaunchRec) (n : Nat) : List (List Nat) :=
  let k := if r.pspan then 2 else 1
  let m := if r.pspan then 4 else 8
  (List.range 512).flatMap fun c =>
    if r.ring then [(List.range n).map fun i => c / 8 * 8 + k * ((c % 8 / k + i) % m)]
    else [(List.range n).map fun i => c + k * i, List.replicate n c]

def Launch.placeMoves (l : Launch) : List Move :=
  if l.unplaced then
    (coreChoices l.record (if l.record.coh = 0 then 1 else l.record.teams)).map fun cs => execLaunchPlacement l.id cs
  else []

def Launch.moves (l : Launch) : List Move :=
  match l.stage with
  | .waiting => [execDependenceCheck l.id]
  | .eligible => l.placeMoves
  | .running => execLaunchCompletion l.id :: l.placeMoves
  | .complete => []

/-- The answers that a context's reply area may hold. -/
def replyMoves (ctx : Nat) : List Move :=
  [execReplyReplay ctx, execReplyDeliver ctx, execReplyEndLaunch ctx, execReplyNoEffect ctx]

/-- A unit being pre-empted is saved when it has drained; a saved one is resumed where there is room. -/
def State.unitMoves (s : State) (u : SavedUnit) : List Move :=
  if u.saved then
    match s.launch? u.launch with
    | some l => (coreChoices l.record u.tixs.length).map fun cs => execResume u.id cs
    | none => []
  else [execSaveBlockWrite u.id]

/-- A queue that has entries elects its leader and consumes them. -/
def queueMoves (q : Nat) (b : Queue) : List Move :=
  if b.en && b.rd != b.wr then [execLeaderElection q, execQueueEntryConsume q] else []

/-- The flip in progress ends, and a report that waits is written. -/
def State.windowMoves (s : State) : List Move :=
  let page := nfield s.biasCmd.toNat 12 40
  (if s.biasCmd.getLsbD 2 then [if s.biasCmd.getLsbD 1 then execBiasFlipToDevice page else execBiasFlipToHost page] else [])
    ++ (if s.attCmd.getLsbD 0 then [execAttestationRequest 0] else [])

/-- Every move that is due. -/
def State.dueMoves (s : State) : List Move :=
  (if s.power == .wiping then [execWipeComplete] else [])
    ++ s.windowMoves
    ++ (s.groups.flatMap Group.moves)
    ++ (s.pulls.map fun p => execMigrationPull p.1 p.2.1)
    ++ (s.writeBuf.map fun e => execWriteBufferDrain e.core (bankOf e.line))
    ++ (s.commands.flatMap Command.moves)
    ++ (s.faultRecs.map fun r => execFaultRecordAppend r.ctx)
    ++ ((s.launches.map fun l => l.record.ctx).eraseDups.flatMap replyMoves)
    ++ (s.launches.flatMap Launch.moves)
    ++ (s.units.flatMap s.unitMoves)
    ++ (s.queues.flatMap fun e => queueMoves e.1 e.2)

/-- The group that issues next after the one in focus, of those that may have their pipes: the ready one whose last issue is
oldest, else the one that was in focus longest ago; every fourth time that one of those that stall goes first, so that each of
them looks again at what it stalls at. -/
def State.nextGroup (s : State) : Option Group :=
  let may := s.others.filter s.eligible
  let ready := s.oldestOf (may.filter s.readyNow)
  let looking := may.find? fun g => g.stalled != 0
  if s.cursor % 4 = 3 then looking.orElse fun _ => ready.orElse fun _ => may.head?
  else ready.orElse fun _ => may.head?

end Sys2Proof.Machine
end

