-- ==== Sys2Proof/Machine/Fabric.lean ====
section
/-! DEFINITION. Deliveries over Ultra Ethernet: packets and counter messages that arrive, acknowledgements, lost packets,
paths and ports (R439 to R445). -/

namespace Sys2Proof.Machine

/-! ### Numbers seen (R441, R443) -/

/-- `x` lies more than `n` below `newest`, modulo 2^w. -/
def belowWindow {w : Nat} (n : Nat) (newest x : BitVec w) : Bool :=
  decide (n < (newest - x).toNat) && decide ((newest - x).toNat < 2 ^ (w - 1))

/-- `x` is newer than `newest`. -/
def isNewer {w : Nat} (newest x : BitVec w) : Bool := x != newest && decide ((x - newest).toNat < 2 ^ (w - 1))

def windowSize : Nat := 4096

/-- What is recorded for a sender. -/
def windowFor (ws : List Window) (sender : Nat) : Window :=
  (ws.find? (·.sender == sender)).getD { sender := sender, newest := none, seen := [] }

/-- A number, with an offset, is a repeat or lies below the window. -/
def Window.stale (w : Window) (x : BitVec 32) (off : Nat) : Bool :=
  w.seen.contains (x, off) || (match w.newest with
    | some n => belowWindow windowSize n x
    | none => false)

/-- Record a number; what falls below the window is forgotten. -/
def Window.note (w : Window) (x : BitVec 32) (off : Nat) : Window :=
  let newest := match w.newest with
    | some n => if isNewer n x then x else n
    | none => x
  { w with newest := some newest, seen := ((x, off) :: w.seen).filter fun e => !belowWindow windowSize newest e.1 }

def setWindow (ws : List Window) (w : Window) : List Window := w :: ws.filter (·.sender != w.sender)

/-! ### The security sublayer (R441) -/

def pnWindowSize : Nat := 65536

def pnWindowFor (ws : List PnWindow) (said : Word) : PnWindow :=
  (ws.find? (·.said == said)).getD { said := said, newest := none, seen := [] }

def PnWindow.note (w : PnWindow) (pn : DWord) : PnWindow :=
  let newest := match w.newest with
    | some n => if n < pn then pn else n
    | none => pn
  { w with newest := some newest, seen := (pn :: w.seen).filter fun x => decide (newest.toNat < x.toNat + pnWindowSize) }

/-- A packet number has been seen, or lies below the window (log entry 53). -/
def PnWindow.stale (w : PnWindow) (pn : DWord) : Bool :=
  w.seen.contains pn || w.newest.any fun n => decide (pn.toNat + pnWindowSize ≤ n.toNat)

/-- The security sublayer's answer for a packet of a sender: its payload in clear, or a drop. -/
inductive Secure where
  | ok (s : State) (text : List Byte)
  | drop (s : State)

/-- A dropped packet is counted. -/
def State.saDropped (s : State) : State := { s with saDrop := s.saDrop + 1 }

/-- Check a packet from a sender with the headers and payload given, and record its number. -/
def State.secure (s : State) (sender : Nat) (prot : Bool) (said : Word) (pn : DWord) (auth : BitVec 128) (headers : List Nat)
    (data : List Byte) : Secure :=
  let key := ((s.peer sender).map (·.key)).getD 0
  if !prot then (if key = 0 then .ok s data else .drop s.saDropped)
  else
    match (if key = 0 then none else s.assoc key) with
    | none => .drop s.saDropped
    | some a =>
      let w := pnWindowFor s.pnWindows said
      if a.ok && a.rx && a.said == said && auth == Config.gcmTag a.key (said ++ pn) (Config.uetHeader headers) data && !w.stale pn then
        .ok { s with pnWindows := w.note pn :: s.pnWindows.filter (·.said != said) } (Config.gcmText a.key (said ++ pn) data)
      else .drop s.saDropped

/-! ### Arrivals (R443) -/

/-- The entry in which a delivery of a sender may land, with its launch. -/
def State.landingFor (s : State) (sender cluster tag base size : Nat) : Option (Landing × Launch) :=
  match s.peer sender, s.landings.find? fun e => e.cluster == cluster && e.tag == tag with
  | some p, some e =>
    if p.admits tag && s.clusterAlive cluster && boxFits base size e.length then (s.launch? e.launch).map fun l => (e, l)
    else none
  | _, _ => none

/-- The elements of a packet, with their offsets in the window. -/
def packetElems (p : UetPacket) : List (Nat × (List Byte × Bool)) :=
  let n := 2 ^ p.esz
  (List.range (p.data.length / n)).map fun i => (p.base + p.off + n * i, ((p.data.drop (n * i)).take n, p.poison))

/-- The bytes of a packet of a sender, in clear, are written in the window at the DEV point; `none` while a page, a flip or a rebuild
is awaited. -/
def State.placePacket (s : State) (p : UetPacket) (sender : Nat) (e : Landing) (l : Launch) : Option State :=
  let a := Agent.ofHub p.hub
  let noted (t : State) : State :=
    { t with uetMsgs := setWindow t.uetMsgs ((windowFor t.uetMsgs sender).note p.msg p.off) }
  match s.windowOf a [] e none with
  | .refuse => some s
  | .fault _ => none
  | .wait va => s.beginWait a l .load va
  | .ok base _ pub =>
    let acc : Access := if p.rop = 0 then .store else .atomic
    let n := 2 ^ p.esz
    let xs := (packetElems p).map fun x => (s.windowSpot a l [] base (pub.map s.pubRead) acc x.1 n, x.2)
    match firstBlock (xs.map (·.1)) with
    | some (.wait va) => s.beginWait a l acc va
    | some _ => none
    | none =>
      if xs.any fun e => s.spotHeld a true 6 e.1 then none
      else
        let t := xs.foldl (fun t e => t.settleSpot a l acc e.1) s
        some (noted (t.writeElems a 6 p.rop n xs))

/-- UET_DATA_PACKET. -/
def State.dataPacket (s : State) (p : UetPacket) : Option State :=
  let n := s.senderOf p.source
  match s.secure n p.prot p.said p.pn p.auth (dataHeader p.msg p.cluster p.tag p.base p.size p.off p.rop p.esz p.poison) p.data with
  | .drop t => some t
  | .ok t text =>
    if (windowFor t.uetMsgs n).stale p.msg p.off then some t
    else
      match t.landingFor n p.cluster p.tag p.base p.size with
      | none => some t
      | some x => t.placePacket { p with data := text } n x.1 x.2

def execUetDataPacket (p : UetPacket) (s : State) : Out := Out.ofOption "UET_DATA_PACKET" (s.dataPacket p)

/-- UET_COUNTER_MESSAGE: the arrival counter rises once, and the number is recorded. -/
def State.counterMessage (s : State) (m : UetFlag) : Option State :=
  let n := s.senderOf m.source
  match s.secure n m.prot m.said m.pn m.auth (flagHeader m.seq m.cluster m.tag m.base m.size) [] with
  | .drop t => some t
  | .ok t _ =>
    if (windowFor t.uetFlags n).stale m.seq 0 then some t
    else
      match t.landingFor n m.cluster m.tag m.base m.size with
      | none => some t
      | some x =>
        let a := Agent.ofHub m.hub
        match t.windowOf a [] x.1 none with
        | .refuse => some t
        | .fault _ => none
        | .wait va => t.beginWait a x.2 .load va
        | .ok base _ _ =>
          match t.spotAt a x.2 [] .atomic 8 base with
          | .fault _ => none
          | .wait va => t.beginWait a x.2 .atomic va
          | spot =>
            if t.spotHeld a true 6 spot then none else
            let u := (t.settleSpot a x.2 .atomic spot).raiseArrival a 6 spot
            some { u with uetFlags := setWindow u.uetFlags ((windowFor u.uetFlags n).note m.seq 0) }

def execUetCounterMessage (m : UetFlag) (s : State) : Out := Out.ofOption "UET_COUNTER_MESSAGE" (s.counterMessage m)

/-! ### The sender (R442 to R444) -/

/-- The offset that names the counter message of a delivery among its packets; no offset of a box reaches it (log entry 53). -/
def flagOffset : Nat := 2 ^ 32

/-- UET_PACKET_ACK: an acknowledgement, or a refusal by the receiver, reaches the sender over a path. That of a data packet says
whether the receiver skipped an element (R354); that of the counter message lands the delivery, and no other one does (R443). -/
def State.packetAck (s : State) (id cluster off path : Nat) (refused : Bool) : Option State :=
  match s.command? id with
  | none => none
  | some c =>
    match c.delivery? cluster with
    | none => none
    | some d =>
      let t := s.setTimeouts c.unit c.peer path 0
      if c.peer = 0 ∨ d.open = false then none
      else if refused then some (t.setCommand (c.refuseDelivery cluster))
      else if d.stage = .flagSent then some (if off = flagOffset then t.setCommand (c.setDelivery { d with stage := .landed }) else t)
      else if d.unacked.contains off then
        let c := { c with skipped := c.skipped || s.moveInput.skipped }
        let t := t.tookInput
        let rest := d.unacked.filter (· ≠ off)
        some (if rest.isEmpty then t.sendFlag c c.shapeRec d else t.setCommand (c.setDelivery { d with unacked := rest }))
      else some t

def execUetPacketAck (cmd cluster off path : Nat) (refused : Bool) (s : State) : Out :=
  Out.ofOption "UET_PACKET_ACK" (s.packetAck cmd cluster off path refused)

/-- UET_RETRANSMIT_TIMEOUT: the third in a row marks the path down; the packet leaves again on another path that is
up, a counter message with its first sequence number (R444). -/
def State.retransmit (s : State) (peer path id cluster off : Nat) : Option State :=
  match s.command? id with
  | none => none
  | some c =>
    match c.delivery? cluster with
    | none => none
    | some d =>
      if c.peer = 0 ∨ c.peer ≠ peer ∨ d.open = false ∨ (s.pathsOf c).contains path = false
          ∨ (d.stage = .sending ∧ d.unacked.contains off = false) ∨ (d.stage = .flagSent ∧ off ≠ flagOffset) then none
      else
        let k := s.timeoutsOf c.unit peer path + 1
        let t := s.setTimeouts c.unit peer path (if 3 ≤ k then 0 else k)
        let t := if 3 ≤ k then t.downPath c.unit peer path else t
        some (t.sendPackets c (some path) [if d.stage = .flagSent then c.packet c.shapeRec d else c.dataAt c.shapeRec d off])

def execUetRetransmitTimeout (peer path cmd cluster off : Nat) (s : State) : Out :=
  Out.ofOption "UET_RETRANSMIT_TIMEOUT" (s.retransmit peer path cmd cluster off)

/-- PATH_PROBE: a path that is down is probed; an answer, which needs its port, brings it up. -/
def State.probe (s : State) (hub peer path : Nat) (answered : Bool) : Option State :=
  if s.pathsDown.contains (hub, (peer, path)) then
    if answered then
      match s.peer peer with
      | some e =>
        if s.portUp (e.port hub path) then
          some ({ s with pathsDown := s.pathsDown.filter (· != (hub, (peer, path))) }.setTimeouts hub peer path 0)
        else none
      | none => none
    else some s
  else none

def execPathProbe (hub peer path : Nat) (answered : Bool) (s : State) : Out :=
  Out.ofOption "PATH_PROBE" (s.probe hub peer path answered)

/-- DELIVERY_PATH_TIMEOUT: every path of a delivery has been down for 100 ms. -/
def State.pathTimeout (s : State) (id cluster : Nat) : Option State :=
  match s.command? id with
  | none => none
  | some c =>
    match c.delivery? cluster with
    | none => none
    | some d =>
      if c.peer = 0 ∨ d.open = false ∨ ((s.pathsOf c).any fun p => s.pathUp c.unit c.peer p) = true then none
      else some (s.setCommand (c.refuseDelivery cluster))

def execDeliveryPathTimeout (cmd cluster : Nat) (s : State) : Out :=
  Out.ofOption "DELIVERY_PATH_TIMEOUT" (s.pathTimeout cmd cluster)

/-! ### Ports (R439, R445) -/

/-- The paths that leave by a device port. -/
def State.pathsAt (s : State) (port : Nat) : List (Nat × Nat) :=
  (List.range s.peerCnt.toNat).flatMap fun i =>
    match s.peer (i + 1) with
    | some e => ((List.range 16).filter fun p => e.pvalid.getLsbD p && e.port (port / 4) p == port).map fun p => (i + 1, p)
    | none => []

/-- UE_PORT_DOWN: the paths of the port are down. -/
def State.portDown (s : State) (port : Nat) : Option State :=
  if s.portUp port then
    let t := { s with ports := s.ports.filter (·.1 != port) }
    some ((s.pathsAt port).foldl (fun t e => t.downPath (port / 4) e.1 e.2) t)
  else none

def execUePortDown (port : Nat) (s : State) : Out := Out.ofOption "UE_PORT_DOWN" (s.portDown port)

/-- UE_PORT_TRAIN: the port comes up, at 1.6 Tb/s where `fast`. -/
def State.portTrain (s : State) (port : Nat) (fast : Bool) : Option State :=
  if port < 8 then some { s with ports := (port, fast) :: s.ports.filter (·.1 != port) } else none

def execUePortTrain (port : Nat) (fast : Bool) (s : State) : Out := Out.ofOption "UE_PORT_TRAIN" (s.portTrain port fast)

end Sys2Proof.Machine
end

