-- ==== Sys2Proof/Machine/Lane.lean ====
section
/-! DEFINITION. Cross-lane instructions: major 13 (R93, R186 to R195). A cell of this family first works out the result of
every lane from the sources of all active lanes; each lane then takes its own. -/

namespace Sys2Proof.Machine

/-- The sources of every active lane. -/
def State.laneSources (s : State) (srcs : List Src) : List (Nat × List DWord) :=
  s.lanes.map fun l => (l, s.sources l 0 [] srcs)

/-- One source of every active lane. -/
def column (xs : List (Nat × List DWord)) (i : Nat) : List (Nat × DWord) := xs.map fun e => (e.1, arg e.2 i)

/-- A cell of this family. `table` holds the result of each active lane. -/
def laneCell (d : Code) (dcls : DstCls) (srcs : List Src) (extra : Nat → Bool) (table : List (Nat × DWord))
    (flags : FpFlags) : Cell :=
  { kind := .thread, d := d.toNat, dcls := dcls, srcs := srcs ++ [⟨0, .lane⟩], lat := 6, long := false, extra := extra,
    f := fun _ xs => (laneVal table (arg xs srcs.length).toNat, flags) }

/-- The same result for every active lane. -/
def State.everyLane (s : State) (x : DWord) : List (Nat × DWord) := s.lanes.map fun l => (l, x)

/-! ### Pulls (R188) -/

/-- The lane that lane `l` reads from; a negative number names no lane. -/
def pullFrom (k : Nat) (l : Nat) (b : DWord) : Int :=
  match k with
  | 0 => (low32 b).toNat
  | 1 => (l : Int) - (b.toNat % 64 : Nat)
  | 2 => l + b.toNat % 64
  | _ => (l ^^^ (b.toNat % 64) : Nat)

/-- The value of the lane named, 0 where no active lane has that number. -/
def fromLane (xs : List (Nat × DWord)) (j : Int) : DWord := if j < 0 then 0 else laneVal xs j.toNat

def State.pull (s : State) (k : Nat) (d a b : Code) : State :=
  let srcs := [gen a, gen b]
  let xs := s.laneSources srcs
  let table := (column xs 1).map fun e => (e.1, fromLane (column xs 0) (pullFrom k e.1 e.2))
  (laneCell d .v srcs (fun _ => false) table 0).exec s

def execLpullAt (d a b : Code) (s : State) : Out := .next (s.pull 0 d a b)

def execLpullBelow (d a b : Code) (s : State) : Out := .next (s.pull 1 d a b)

def execLpullAbove (d a b : Code) (s : State) : Out := .next (s.pull 2 d a b)

def execLpullXor (d a b : Code) (s : State) : Out := .next (s.pull 3 d a b)

/-! ### One lane (R189, R190) -/

/-- Run a cell whose b field must be uniform. -/
def Cell.execUniformB (c : Cell) (b : Code) (s : State) : State :=
  match c.cause s with
  | some cause => s.trap cause (zext64 s.issue.word)
  | none =>
    if uniformSrc b.toNat then s.sound (c.readers s) (c.srcs ++ [⟨b.toNat, .wide⟩]) c.proceed else s.badOperand

/-- The lane number that b names, at most 64 for none. -/
def State.laneIndex (s : State) (b : Code) : Nat := Nat.min (s.wide 1 b).toNat 64

def execRdlane (d a b : Code) (s : State) : Out :=
  let srcs := [⟨a.toNat, .v⟩]
  let x := laneVal (column (s.laneSources srcs) 0) (s.laneIndex b)
  .next ((laneCell d (.w .zero) srcs isS (s.everyLane x) 0).execUniformB b s)

/-- Only the lane named reads, pops and writes. In the other active lanes b0 becomes 0: R62 and R190 give it no value there (DESIGN
CHOICE, log entry 92). -/
def wrlaneCell (d a : Code) (j : Nat) : Cell :=
  { kind := .thread, d := d.toNat, dcls := .v, srcs := [gen a], lat := 6, long := false, only := some j,
    f := fun _ xs => noFlags (arg xs 0) }

def execWrlane (d a b : Code) (s : State) : Out := .next ((wrlaneCell d a (s.laneIndex b)).execUniformB b s)

/-! ### Ballots and votes (R191, R192) -/

def predSrcOf (a : Code) : Src := ⟨a.toNat, .pred⟩

def execLmask (d a : Code) (s : State) : Out :=
  let srcs := [predSrcOf a]
  let m := (column (s.laneSources srcs) 0).foldl (fun (m : LaneMask) e => setBit m e.1 (e.2 != 0)) 0
  .next ((laneCell d .pair srcs (fun c => isS c || c == codeNul) (s.everyLane m) 0).exec s)

/-- A test whose result is the same in every active lane. -/
def State.vote (s : State) (d a : Code) (f : List DWord → Bool) : State :=
  let srcs := [predSrcOf a]
  let x := boolD (f ((column (s.laneSources srcs) 0).map (·.2)))
  (laneCell d .pred srcs (fun _ => false) (s.everyLane x) 0).exec s

def execLany (d a : Code) (s : State) : Out := .next (s.vote d a fun xs => xs.any (· != 0))

def execLall (d a : Code) (s : State) : Out := .next (s.vote d a fun xs => xs.all (· != 0))

def execLsame (d a : Code) (s : State) : Out :=
  let srcs := [gen a]
  let xs := column (s.laneSources srcs) 0
  let first := (xs.headD (0, 0)).2
  .next ((laneCell d .pred srcs (fun _ => false) (xs.map fun e => (e.1, boolD (e.2 == first))) 0).exec s)

/-! ### Reductions and scans (R193 to R195) -/

/-- A combine of two values. -/
abbrev Combine := Word → Word → Word × FpFlags

/-- What a value becomes when it meets an absent one. -/
abbrev Lone := Word → Word × FpFlags

/-- Combine two positions; `none` is absent. -/
def joinAt (f : Combine) (q : Lone) (u v : Option Word × FpFlags) : Option Word × FpFlags :=
  match u.1, v.1 with
  | none, none => (none, u.2 ||| v.2)
  | some x, none => let r := q x; (some r.1, u.2 ||| v.2 ||| r.2)
  | none, some y => let r := q y; (some r.1, u.2 ||| v.2 ||| r.2)
  | some x, some y => let r := f x y; (some r.1, u.2 ||| v.2 ||| r.2)

/-- One round of the tree: neighbours are combined, the lower position first. -/
def pairUp (f : Combine) (q : Lone) : List (Option Word × FpFlags) → List (Option Word × FpFlags)
  | u :: v :: rest => joinAt f q u v :: pairUp f q rest
  | xs => xs

/-- `n` rounds of the tree over 2^n positions. -/
def tree (f : Combine) (q : Lone) : Nat → List (Option Word × FpFlags) → Option Word × FpFlags
  | 0, xs => xs.headD (none, 0)
  | n + 1, xs => tree f q n (pairUp f q xs)

/-- The positions of the grant. -/
def positions (gw : Nat) (xs : List (Nat × DWord)) : List (Option Word × FpFlags) :=
  (List.range gw).map fun l => ((xs.find? (·.1 == l)).map (fun e => low32 e.2), 0)

/-- The result of a reduction over the grant. -/
def reduceOver (gw : Nat) (f : Combine) (q : Lone) (xs : List (Nat × DWord)) : Option Word × FpFlags :=
  tree f q (Nat.log2 gw) (positions gw xs)

def loneInt : Lone := fun x => (x, 0)

/-- A signalling NaN is quieted and raises NV. -/
def loneF32 : Lone := fun x =>
  if (f32.read x.toNat).isSignalling then (BitVec.ofNat 32 (f32.quiet x.toNat), flagNV) else (x, 0)

def combInt (f : Word → Word → Word) : Combine := fun x y => (f x y, 0)

def combF32 (f : Nat → Nat → Nat × FpFlags) : Combine := fun x y =>
  let r := f x.toNat y.toNat; (BitVec.ofNat 32 r.1, r.2)

def State.reduce (s : State) (d a : Code) (ext : Ext) (f : Combine) (q : Lone) : State :=
  let srcs := [⟨a.toNat, .v⟩]
  let r := reduceOver s.team.gw f q (column (s.laneSources srcs) 0)
  (laneCell d (.w ext) srcs isS (s.everyLane (zext64 (r.1.getD 0))) r.2).exec s

def execRedAdd (d a : Code) (s : State) : Out := .next (s.reduce d a .sign (combInt fun x y => x + y) loneInt)

def execRedMin (d a : Code) (s : State) : Out := .next (s.reduce d a .sign (combInt minS) loneInt)

def execRedMax (d a : Code) (s : State) : Out := .next (s.reduce d a .sign (combInt maxS) loneInt)

def execRedMinu (d a : Code) (s : State) : Out := .next (s.reduce d a .zero (combInt minU) loneInt)

def execRedMaxu (d a : Code) (s : State) : Out := .next (s.reduce d a .zero (combInt maxU) loneInt)

def execRedFaddF32 (d a : Code) (s : State) : Out := .next (s.reduce d a .zero (combF32 (f32.add s.rmSeen)) loneF32)

def execRedFminF32 (d a : Code) (s : State) : Out := .next (s.reduce d a .zero (combF32 (f32.minmax false)) loneF32)

def execRedFmaxF32 (d a : Code) (s : State) : Out := .next (s.reduce d a .zero (combF32 (f32.minmax true)) loneF32)

/-- The inclusive sums in ascending lane order, and the flags. -/
def scanFrom (f : Combine) (q : Lone) : Option Word × FpFlags → List (Nat × DWord) → List (Nat × DWord) × FpFlags
  | acc, [] => ([], acc.2)
  | acc, e :: rest =>
    let next := joinAt f q acc (some (low32 e.2), 0)
    let r := scanFrom f q next rest
    ((e.1, zext64 (next.1.getD 0)) :: r.1, r.2)

def State.scan (s : State) (d a : Code) (f : Combine) (q : Lone) : State :=
  let srcs := [⟨a.toNat, .v⟩]
  let r := scanFrom f q (none, 0) (column (s.laneSources srcs) 0)
  (laneCell d .v srcs (fun _ => false) r.1 r.2).exec s

def execScanAdd (d a : Code) (s : State) : Out := .next (s.scan d a (combInt fun x y => x + y) loneInt)

def execScanFaddF32 (d a : Code) (s : State) : Out := .next (s.scan d a (combF32 (f32.add s.rmSeen)) loneF32)

end Sys2Proof.Machine
end

