-- ==== Sys2Proof/Machine/Mask.lean ====
section
/-! DEFINITION. Mask instructions: major 12 (R92, R196). -/

namespace Sys2Proof.Machine

/-- The set of lanes whose predicate is 1, active or not. -/
def State.predMask (s : State) (p : Code) : LaneMask :=
  (List.range s.cur.threads.length).foldl (fun (m : LaneMask) l => setBit m l (s.pred 0 l p.toNat)) 0

/-- A cell that writes em from its old value and a predicate's lanes; the new em enters b0. -/
def State.maskCell (s : State) (a : Code) (f : LaneMask → LaneMask → LaneMask) : State :=
  s.readOp [⟨a.toNat, .pred⟩] fun s =>
    let m := f s.em (s.predMask a) &&& s.cur.present
    (s.modCur fun g => g.setEm m).finish m

def execMset (a : Code) (s : State) : Out := .next (s.maskCell a fun _ p => p)

def execMand (a : Code) (s : State) : Out := .next (s.maskCell a fun em p => em &&& p)

def execMandn (a : Code) (s : State) : Out := .next (s.maskCell a fun em p => em &&& ~~~p)

def execMor (a : Code) (s : State) : Out := .next (s.maskCell a fun em p => em ||| p)

def execMall (s : State) : Out :=
  .next (s.uniformOp [] fun s => (s.modCur fun g => g.setEm s.cur.present).finish s.cur.present)

def execMcnt (d : Code) (s : State) : Out :=
  .next (s.uniformOp [⟨d.toNat, .s⟩] fun s =>
    let n : DWord := BitVec.ofNat 64 (popCount s.em)
    (s.modCur fun g => g.writeS (d.toNat - 64) n 2).finish n)

/-- A pair of s-registers, the lower one named. -/
def isS2 (c : Nat) : Bool := 64 ≤ c && c ≤ 94 && c % 2 == 0

def execPsave (d : Code) (s : State) : Out :=
  .next (s.uniformOp [] fun s =>
    if !isS2 d.toNat then s.badOperand
    else
      (s.modCur fun g => (g.writeS (d.toNat - 64) s.em 2).writeS (d.toNat - 63) (zext64 s.nfSeen) 2).finish s.em)

def execPrest (a : Code) (s : State) : Out :=
  .next (s.uniformOp [] fun s =>
    if !isS2 a.toNat then s.badOperand
    else s.sound [0] [⟨a.toNat, .s⟩, ⟨a.toNat + 1, .s⟩] fun s =>
      (s.modCur fun g => (g.setEm (s.sreg 0 (a.toNat - 64))).setNf (s.sreg 1 (a.toNat - 63))).finish 0)

end Sys2Proof.Machine
end

