-- ==== Sys2Proof/Machine/RillCells.lean ====
section
/-! DEFINITION. Rill instructions: major 21 (R99, R216, R221 to R224). -/

namespace Sys2Proof.Machine

/-! ### RCFG -/

/-- The value obeys R216 for a team of `n` threads. -/
def rcfgOk (x : DWord) (n : Nat) : Bool :=
  let seg := nfield x.toNat 0 11
  nfield x.toNat 16 48 == 0 && (seg == 0 || seg < n)

/-- The effect of `RCFG` with the value of the lowest-numbered live group. -/
def State.rcfgEffect (s : State) : State :=
  let t := s.team
  let x := match s.teamGroups t.id with
    | g :: _ => g.rendezvousOperand
    | [] => 0
  if !rcfgOk x (s.teamThreads t.id) then s.trapTeam causeOperand fun g => zext64 g.rendezvousWord
  else if !s.xEmpty t.id then s.trapTeam causeRill fun _ => 0
  else (s.setTeam { t with rcfg := x.setWidth 16 }).passAll t.id fun _ => 0

def execRcfg (a : Code) (s : State) : Out :=
  .next (s.readOp [⟨a.toNat, .s⟩] fun s => s.rendezvous 2 (s.wide 0 a) State.rcfgEffect)

/-! ### Status, peek and drain -/

/-- A cell that writes a v-register with the value that `table` gives each lane. -/
def rillCell (d : Code) (table : List (Nat × DWord)) : Cell :=
  { kind := .thread, d := d.toNat, dcls := .v, srcs := [⟨0, .lane⟩], lat := 2, long := false,
    f := fun _ xs => (laneVal table (xs.headD 0).toNat, 0) }

/-- The status word of R222. -/
def State.rstatWord (s : State) (port lane : Nat) : DWord :=
  let q := (s.cur.lane lane).queue port
  let filled := (q.filter (·.isFilled)).length
  let out := match s.link lane port with
    | some seat => (4 - (s.queueAt seat (opposite port)).length) * 256
    | none => 0x8000 + 4 * 256
  BitVec.ofNat 64 (out + (q.length - filled) * 16 + filled)

/-- Run `f` with the port that `a` names (R78). -/
def State.withPort (s : State) (a : Code) (f : Nat → State) : State :=
  if isPort a.toNat then f (a.toNat - 100) else s.badOperand

def execRstat (d a : Code) (s : State) : Out :=
  .next (match (rillCell d []).cause s with
    | some cause => s.trap cause (zext64 s.issue.word)
    | none => s.withPort a fun p => (rillCell d (s.lanes.map fun l => (l, s.rstatWord p l))).exec s)

def execRpeek (d a : Code) (s : State) : Out :=
  .next (match (rillCell d []).cause s with
    | some cause => s.trap cause (zext64 s.issue.word)
    | none => s.withPort a fun p =>
        match s.rillBlocked s.em [p] none with
        | some q => s.stallPorts (.rill q) s.em [p] none
        | none => s.sound s.lanes [⟨a.toNat, .w⟩] (rillCell d (s.lanes.map fun l => (l, s.popValue l p 0))).exec)

/-- A lane that `RDRAIN` waits for: its queue holds an entry that is not filled. -/
def State.drainWaits (s : State) (port : Nat) : Bool :=
  s.lanes.any fun l => !((s.cur.lane l).queue port).all (·.isFilled)

/-- Empty the queue of a port in every active lane. -/
def State.emptyQueues (s : State) (port : Nat) : State :=
  let m := s.em
  s.modCur fun g => { g with threads := g.threads.mapIdx fun l t => cond (m.getLsbD l) (t.setQueue port []) t }

/-- `RDRAIN` (R224). -/
def State.rdrain (s : State) (port : Nat) : State :=
  if s.drainWaits port then
    let t := if s.cur.walking then s else s.endRegion
    t.stallFor (.drain s.em port) (if s.cur.walking then .retry else .rill port) stallRillEmpty
  else s.regionEnder fun s => (((s.emptyQueues port).finish 0).startRegion).progress

def execRdrain (a : Code) (s : State) : Out :=
  .next (if s.u then s.illegal else s.withPort a s.rdrain)

end Sys2Proof.Machine
end

