-- ==== Sys2Proof/Machine/Dispatch.lean ====
section
/-! DEFINITION. Which meaning each instruction and each operation of the device has. -/

namespace Sys2Proof.Machine

def exec (i : Instr) (s : State) : Host.Outcome State Fault Refusal :=
  match i with
  | .pfx imm second => Sys2Proof.Machine.execPfx imm second s
  | .nop => Sys2Proof.Machine.execNop s
  | .trap code => Sys2Proof.Machine.execTrap code s
  | .rtt => Sys2Proof.Machine.execRtt s
  | .isync => Sys2Proof.Machine.execIsync s
  | .sread d index => Sys2Proof.Machine.execSread d index s
  | .swrite a index => Sys2Proof.Machine.execSwrite a index s
  | .swriteEm a => Sys2Proof.Machine.execSwriteEm a s
  | .swriteFpc a => Sys2Proof.Machine.execSwriteFpc a s
  | .wspill a => Sys2Proof.Machine.execWspill a s
  | .wfill a => Sys2Proof.Machine.execWfill a s
  | .br off => Sys2Proof.Machine.execBr off s
  | .brNone off => Sys2Proof.Machine.execBrNone off s
  | .brAny off => Sys2Proof.Machine.execBrAny off s
  | .brAll off => Sys2Proof.Machine.execBrAll off s
  | .brUc off => Sys2Proof.Machine.execBrUc off s
  | .brNuc off => Sys2Proof.Machine.execBrNuc off s
  | .call f off => Sys2Proof.Machine.execCall f off s
  | .callAny f off => Sys2Proof.Machine.execCallAny f off s
  | .ret => Sys2Proof.Machine.execRet s
  | .jmpr a => Sys2Proof.Machine.execJmpr a s
  | .callr a b => Sys2Proof.Machine.execCallr a b s
  | .callrAny a b => Sys2Proof.Machine.execCallrAny a b s
  | .wbase a => Sys2Proof.Machine.execWbase a s
  | .rgn => Sys2Proof.Machine.execRgn s
  | .ucmpEq a b => Sys2Proof.Machine.execUcmpEq a b s
  | .ucmpNe a b => Sys2Proof.Machine.execUcmpNe a b s
  | .ucmpLt a b => Sys2Proof.Machine.execUcmpLt a b s
  | .ucmpLe a b => Sys2Proof.Machine.execUcmpLe a b s
  | .ucmpLtu a b => Sys2Proof.Machine.execUcmpLtu a b s
  | .ucmpLeu a b => Sys2Proof.Machine.execUcmpLeu a b s
  | .add d a b => Sys2Proof.Machine.execAdd d a b s
  | .sub d a b => Sys2Proof.Machine.execSub d a b s
  | .mul d a b => Sys2Proof.Machine.execMul d a b s
  | .mulhi d a b => Sys2Proof.Machine.execMulhi d a b s
  | .mulhu d a b => Sys2Proof.Machine.execMulhu d a b s
  | .div d a b => Sys2Proof.Machine.execDiv d a b s
  | .divu d a b => Sys2Proof.Machine.execDivu d a b s
  | .rem d a b => Sys2Proof.Machine.execRem d a b s
  | .remu d a b => Sys2Proof.Machine.execRemu d a b s
  | .and d a b => Sys2Proof.Machine.execAnd d a b s
  | .or d a b => Sys2Proof.Machine.execOr d a b s
  | .xor d a b => Sys2Proof.Machine.execXor d a b s
  | .andn d a b => Sys2Proof.Machine.execAndn d a b s
  | .shl d a b => Sys2Proof.Machine.execShl d a b s
  | .shr d a b => Sys2Proof.Machine.execShr d a b s
  | .sra d a b => Sys2Proof.Machine.execSra d a b s
  | .shli d a cnt => Sys2Proof.Machine.execShli d a cnt s
  | .shri d a cnt => Sys2Proof.Machine.execShri d a cnt s
  | .srai d a cnt => Sys2Proof.Machine.execSrai d a cnt s
  | .min d a b => Sys2Proof.Machine.execMin d a b s
  | .max d a b => Sys2Proof.Machine.execMax d a b s
  | .minu d a b => Sys2Proof.Machine.execMinu d a b s
  | .maxu d a b => Sys2Proof.Machine.execMaxu d a b s
  | .abs d a => Sys2Proof.Machine.execAbs d a s
  | .clz d a => Sys2Proof.Machine.execClz d a s
  | .popc d a => Sys2Proof.Machine.execPopc d a s
  | .brev d a => Sys2Proof.Machine.execBrev d a s
  | .sextb d a => Sys2Proof.Machine.execSextb d a s
  | .sexth d a => Sys2Proof.Machine.execSexth d a s
  | .mov d a => Sys2Proof.Machine.execMov d a s
  | .mad d a b => Sys2Proof.Machine.execMad d a b s
  | .addD d a b => Sys2Proof.Machine.execAddD d a b s
  | .subD d a b => Sys2Proof.Machine.execSubD d a b s
  | .mulD d a b => Sys2Proof.Machine.execMulD d a b s
  | .shlD d a b => Sys2Proof.Machine.execShlD d a b s
  | .shrD d a b => Sys2Proof.Machine.execShrD d a b s
  | .sraD d a b => Sys2Proof.Machine.execSraD d a b s
  | .movD d a => Sys2Proof.Machine.execMovD d a s
  | .lea size d a b => Sys2Proof.Machine.execLea size d a b s
  | .addi d a imm => Sys2Proof.Machine.execAddi d a imm s
  | .lim d imm => Sys2Proof.Machine.execLim d imm s
  | .addFmt fmt d a b => Sys2Proof.Machine.execAddFmt fmt d a b s
  | .subFmt fmt d a b => Sys2Proof.Machine.execSubFmt fmt d a b s
  | .mulFmt fmt d a b => Sys2Proof.Machine.execMulFmt fmt d a b s
  | .divFmt fmt d a b => Sys2Proof.Machine.execDivFmt fmt d a b s
  | .sqrtFmt fmt d a => Sys2Proof.Machine.execSqrtFmt fmt d a s
  | .minFmt fmt d a b => Sys2Proof.Machine.execMinFmt fmt d a b s
  | .maxFmt fmt d a b => Sys2Proof.Machine.execMaxFmt fmt d a b s
  | .absFmt fmt d a => Sys2Proof.Machine.execAbsFmt fmt d a s
  | .negFmt fmt d a => Sys2Proof.Machine.execNegFmt fmt d a s
  | .csgnFmt fmt d a b => Sys2Proof.Machine.execCsgnFmt fmt d a b s
  | .rcpF32 d a => Sys2Proof.Machine.execRcpF32 d a s
  | .rsqF32 d a => Sys2Proof.Machine.execRsqF32 d a s
  | .exp2F32 d a => Sys2Proof.Machine.execExp2F32 d a s
  | .log2F32 d a => Sys2Proof.Machine.execLog2F32 d a s
  | .sinF32 d a => Sys2Proof.Machine.execSinF32 d a s
  | .cosF32 d a => Sys2Proof.Machine.execCosF32 d a s
  | .fma fmt d a b => Sys2Proof.Machine.execFma fmt d a b s
  | .fms fmt d a b => Sys2Proof.Machine.execFms fmt d a b s
  | .fnma fmt d a b => Sys2Proof.Machine.execFnma fmt d a b s
  | .fnms fmt d a b => Sys2Proof.Machine.execFnms fmt d a b s
  | .cvt dst src d a rnd => Sys2Proof.Machine.execCvt dst src d a rnd s
  | .rintF64 d a rnd => Sys2Proof.Machine.execRintF64 d a rnd s
  | .rintF32 d a rnd => Sys2Proof.Machine.execRintF32 d a rnd s
  | .rintF16 d a rnd => Sys2Proof.Machine.execRintF16 d a rnd s
  | .rintBf16 d a rnd => Sys2Proof.Machine.execRintBf16 d a rnd s
  | .bscale d a => Sys2Proof.Machine.execBscale d a s
  | .bquant d a b => Sys2Proof.Machine.execBquant d a b s
  | .bdeq d a b => Sys2Proof.Machine.execBdeq d a b s
  | .cmpEq type d a b => Sys2Proof.Machine.execCmpEq type d a b s
  | .cmpNe type d a b => Sys2Proof.Machine.execCmpNe type d a b s
  | .cmpLt type d a b => Sys2Proof.Machine.execCmpLt type d a b s
  | .cmpLe type d a b => Sys2Proof.Machine.execCmpLe type d a b s
  | .cmpGt type d a b => Sys2Proof.Machine.execCmpGt type d a b s
  | .cmpGe type d a b => Sys2Proof.Machine.execCmpGe type d a b s
  | .cmpUn fmt d a b => Sys2Proof.Machine.execCmpUn fmt d a b s
  | .pand d a b => Sys2Proof.Machine.execPand d a b s
  | .por d a b => Sys2Proof.Machine.execPor d a b s
  | .pxor d a b => Sys2Proof.Machine.execPxor d a b s
  | .pandn d a b => Sys2Proof.Machine.execPandn d a b s
  | .pnot d a => Sys2Proof.Machine.execPnot d a s
  | .pmov d a => Sys2Proof.Machine.execPmov d a s
  | .pset d a => Sys2Proof.Machine.execPset d a s
  | .pget d a => Sys2Proof.Machine.execPget d a s
  | .sel k d a b => Sys2Proof.Machine.execSel k d a b s
  | .mset a => Sys2Proof.Machine.execMset a s
  | .mand a => Sys2Proof.Machine.execMand a s
  | .mandn a => Sys2Proof.Machine.execMandn a s
  | .mor a => Sys2Proof.Machine.execMor a s
  | .mall => Sys2Proof.Machine.execMall s
  | .mcnt d => Sys2Proof.Machine.execMcnt d s
  | .psave d => Sys2Proof.Machine.execPsave d s
  | .prest a => Sys2Proof.Machine.execPrest a s
  | .lpullAt d a b => Sys2Proof.Machine.execLpullAt d a b s
  | .lpullBelow d a b => Sys2Proof.Machine.execLpullBelow d a b s
  | .lpullAbove d a b => Sys2Proof.Machine.execLpullAbove d a b s
  | .lpullXor d a b => Sys2Proof.Machine.execLpullXor d a b s
  | .rdlane d a b => Sys2Proof.Machine.execRdlane d a b s
  | .wrlane d a b => Sys2Proof.Machine.execWrlane d a b s
  | .lmask d a => Sys2Proof.Machine.execLmask d a s
  | .lany d a => Sys2Proof.Machine.execLany d a s
  | .lall d a => Sys2Proof.Machine.execLall d a s
  | .lsame d a => Sys2Proof.Machine.execLsame d a s
  | .redAdd d a => Sys2Proof.Machine.execRedAdd d a s
  | .redMin d a => Sys2Proof.Machine.execRedMin d a s
  | .redMax d a => Sys2Proof.Machine.execRedMax d a s
  | .redMinu d a => Sys2Proof.Machine.execRedMinu d a s
  | .redMaxu d a => Sys2Proof.Machine.execRedMaxu d a s
  | .redFaddF32 d a => Sys2Proof.Machine.execRedFaddF32 d a s
  | .redFminF32 d a => Sys2Proof.Machine.execRedFminF32 d a s
  | .redFmaxF32 d a => Sys2Proof.Machine.execRedFmaxF32 d a s
  | .scanAdd d a => Sys2Proof.Machine.execScanAdd d a s
  | .scanFaddF32 d a => Sys2Proof.Machine.execScanFaddF32 d a s
  | .setw a => Sys2Proof.Machine.execSetw a s
  | .regroup d => Sys2Proof.Machine.execRegroup d s
  | .barSync a => Sys2Proof.Machine.execBarSync a s
  | .barArv a => Sys2Proof.Machine.execBarArv a s
  | .cbar => Sys2Proof.Machine.execCbar s
  | .yield => Sys2Proof.Machine.execYield s
  | .exit a => Sys2Proof.Machine.execExit a s
  | .launch a => Sys2Proof.Machine.execLaunch a s
  | .ldB ord scope d a off => Sys2Proof.Machine.execLdB ord scope d a off s
  | .ldH ord scope d a off => Sys2Proof.Machine.execLdH ord scope d a off s
  | .ldW ord scope d a off => Sys2Proof.Machine.execLdW ord scope d a off s
  | .ldD ord scope d a off => Sys2Proof.Machine.execLdD ord scope d a off s
  | .ldQ ord scope d a off => Sys2Proof.Machine.execLdQ ord scope d a off s
  | .ldInvW scope d a off => Sys2Proof.Machine.execLdInvW scope d a off s
  | .ldInvD scope d a off => Sys2Proof.Machine.execLdInvD scope d a off s
  | .ldInvQ scope d a off => Sys2Proof.Machine.execLdInvQ scope d a off s
  | .stB ord scope d a off => Sys2Proof.Machine.execStB ord scope d a off s
  | .stH ord scope d a off => Sys2Proof.Machine.execStH ord scope d a off s
  | .stW ord scope d a off => Sys2Proof.Machine.execStW ord scope d a off s
  | .stD ord scope d a off => Sys2Proof.Machine.execStD ord scope d a off s
  | .stQ ord scope d a off => Sys2Proof.Machine.execStQ ord scope d a off s
  | .atAddW ord scope d a off => Sys2Proof.Machine.execAtAddW ord scope d a off s
  | .atAddD ord scope d a off => Sys2Proof.Machine.execAtAddD ord scope d a off s
  | .atMinW ord scope d a off => Sys2Proof.Machine.execAtMinW ord scope d a off s
  | .atMaxW ord scope d a off => Sys2Proof.Machine.execAtMaxW ord scope d a off s
  | .atMinuW ord scope d a off => Sys2Proof.Machine.execAtMinuW ord scope d a off s
  | .atMaxuW ord scope d a off => Sys2Proof.Machine.execAtMaxuW ord scope d a off s
  | .atSwapW ord scope d a off => Sys2Proof.Machine.execAtSwapW ord scope d a off s
  | .atCasW ord scope d a off => Sys2Proof.Machine.execAtCasW ord scope d a off s
  | .atAndW ord scope d a off => Sys2Proof.Machine.execAtAndW ord scope d a off s
  | .atOrW ord scope d a off => Sys2Proof.Machine.execAtOrW ord scope d a off s
  | .atXorW ord scope d a off => Sys2Proof.Machine.execAtXorW ord scope d a off s
  | .atSwapD ord scope d a off => Sys2Proof.Machine.execAtSwapD ord scope d a off s
  | .atCasD ord scope d a off => Sys2Proof.Machine.execAtCasD ord scope d a off s
  | .atFaddF32 ord scope d a off => Sys2Proof.Machine.execAtFaddF32 ord scope d a off s
  | .atFminF32 ord scope d a off => Sys2Proof.Machine.execAtFminF32 ord scope d a off s
  | .atFmaxF32 ord scope d a off => Sys2Proof.Machine.execAtFmaxF32 ord scope d a off s
  | .sldW d a off => Sys2Proof.Machine.execSldW d a off s
  | .sldD d a off => Sys2Proof.Machine.execSldD d a off s
  | .sldQ d a off => Sys2Proof.Machine.execSldQ d a off s
  | .sstW d a off => Sys2Proof.Machine.execSstW d a off s
  | .sstD d a off => Sys2Proof.Machine.execSstD d a off s
  | .sstQ d a off => Sys2Proof.Machine.execSstQ d a off s
  | .fence ord scope => Sys2Proof.Machine.execFence ord scope s
  | .waitp a path => Sys2Proof.Machine.execWaitp a path s
  | .waitv ord scope d a off => Sys2Proof.Machine.execWaitv ord scope d a off s
  | .rcfg a => Sys2Proof.Machine.execRcfg a s
  | .rstat d a => Sys2Proof.Machine.execRstat d a s
  | .rdrain a => Sys2Proof.Machine.execRdrain a s
  | .rpeek d a => Sys2Proof.Machine.execRpeek d a s
  | .mma d a b => Sys2Proof.Machine.execMma d a b s
  | .mmaAcc d a b => Sys2Proof.Machine.execMmaAcc d a b s
  | .mmaSacc d a b => Sys2Proof.Machine.execMmaSacc d a b s
  | .mzero d => Sys2Proof.Machine.execMzero d s
  | .mscl d a => Sys2Proof.Machine.execMscl d a s
  | .mrd d a b => Sys2Proof.Machine.execMrd d a b s
  | .mwr d a b => Sys2Proof.Machine.execMwr d a b s
  | .msto d a => Sys2Proof.Machine.execMsto d a s
  | .mlda d a => Sys2Proof.Machine.execMlda d a s
  | .mmov d a => Sys2Proof.Machine.execMmov d a s
  | .enqRunnel scope d a b => Sys2Proof.Machine.execEnqRunnel scope d a b s
  | .enqCascade scope d a b => Sys2Proof.Machine.execEnqCascade scope d a b s
  | .publish a => Sys2Proof.Machine.execPublish a s
  | .land a b => Sys2Proof.Machine.execLand a b s
  | .unland a => Sys2Proof.Machine.execUnland a s
  | .groupIssueChoice g => Sys2Proof.Machine.execGroupIssueChoice g s
  | .runLimitExpiry g => Sys2Proof.Machine.execRunLimitExpiry g s
  | .rillBlockTimeout g => Sys2Proof.Machine.execRillBlockTimeout g s
  | .cacheMissFill core level line scope => Sys2Proof.Machine.execCacheMissFill core level line scope s
  | .narrowCopyEviction level unit line => Sys2Proof.Machine.execNarrowCopyEviction level unit line s
  | .directoryEvictionRecall level unit line => Sys2Proof.Machine.execDirectoryEvictionRecall level unit line s
  | .replyReplay ctx => Sys2Proof.Machine.execReplyReplay ctx s
  | .replyDeliver ctx => Sys2Proof.Machine.execReplyDeliver ctx s
  | .replyEndLaunch ctx => Sys2Proof.Machine.execReplyEndLaunch ctx s
  | .replyNoEffect ctx => Sys2Proof.Machine.execReplyNoEffect ctx s
  | .uetDataPacket p => Sys2Proof.Machine.execUetDataPacket p s
  | .uetCounterMessage m => Sys2Proof.Machine.execUetCounterMessage m s
  | .uetPacketAck cmd cluster off path refused => Sys2Proof.Machine.execUetPacketAck cmd cluster off path refused s
  | .uetRetransmitTimeout peer path cmd cluster off => Sys2Proof.Machine.execUetRetransmitTimeout peer path cmd cluster off s
  | .pathProbe hub peer path answered => Sys2Proof.Machine.execPathProbe hub peer path answered s
  | .deliveryPathTimeout cmd cluster => Sys2Proof.Machine.execDeliveryPathTimeout cmd cluster s
  | .uePortDown port => Sys2Proof.Machine.execUePortDown port s
  | .launchQueueDoorbell q wr => Sys2Proof.Machine.execLaunchQueueDoorbell q wr s
  | .launchPlacement launch cores => Sys2Proof.Machine.execLaunchPlacement launch cores s
  | .preemption launch tix => Sys2Proof.Machine.execPreemption launch tix s
  | .resume unit cores => Sys2Proof.Machine.execResume unit cores s
  | .dieFailure die => Sys2Proof.Machine.execDieFailure die s
  | .rebuildComplete die => Sys2Proof.Machine.execRebuildComplete die s
  | .dieRejoin die => Sys2Proof.Machine.execDieRejoin die s
  | .incarnationRefusal die inc => Sys2Proof.Machine.execIncarnationRefusal die inc s
  | .pomasLinkDown link => Sys2Proof.Machine.execPomasLinkDown link s
  | .lifecycleAdvance next => Sys2Proof.Machine.execLifecycleAdvance next s
  | .attestationRequest hub => Sys2Proof.Machine.execAttestationRequest hub s
  | .biasFlipToHost page => Sys2Proof.Machine.execBiasFlipToHost page s
  | .biasFlipToDevice page => Sys2Proof.Machine.execBiasFlipToDevice page s
  | .hostCxlRead line => Sys2Proof.Machine.execHostCxlRead line s
  | .hostCxlWrite pa data => Sys2Proof.Machine.execHostCxlWrite pa data s
  | .hostSnoop line => Sys2Proof.Machine.execHostSnoop line s
  | .atsInvalidation hub page => Sys2Proof.Machine.execAtsInvalidation hub page s
  | .atsTranslationResponse hub page read write => Sys2Proof.Machine.execAtsTranslationResponse hub page read write s
  | .mgmtRegisterWrite off value => Sys2Proof.Machine.execMgmtRegisterWrite off value s
  | .loadResultReturn g tag lanes => Sys2Proof.Machine.execLoadResultReturn g tag lanes s
  | .storeAcknowledge g tag => Sys2Proof.Machine.execStoreAcknowledge g tag s
  | .scratchpadAccessPerformed g tag lanes => Sys2Proof.Machine.execScratchpadAccessPerformed g tag lanes s
  | .longLatencyResult g tag => Sys2Proof.Machine.execLongLatencyResult g tag s
  | .rillEntryFill g lane port => Sys2Proof.Machine.execRillEntryFill g lane port s
  | .writeBufferDrain core bank => Sys2Proof.Machine.execWriteBufferDrain core bank s
  | .translationComplete g tag => Sys2Proof.Machine.execTranslationComplete g tag s
  | .migrationPull desc line => Sys2Proof.Machine.execMigrationPull desc line s
  | .faultRecordAppend ctx => Sys2Proof.Machine.execFaultRecordAppend ctx s
  | .waitvMonitorPoll g => Sys2Proof.Machine.execWaitvMonitorPoll g s
  | .mtxAccept g => Sys2Proof.Machine.execMtxAccept g s
  | .mtxRetire g tag => Sys2Proof.Machine.execMtxRetire g tag s
  | .engineRecordRead cmd => Sys2Proof.Machine.execEngineRecordRead cmd s
  | .runnelLoad cmd => Sys2Proof.Machine.execRunnelLoad cmd s
  | .runnelStore cmd => Sys2Proof.Machine.execRunnelStore cmd s
  | .runnelGather cmd => Sys2Proof.Machine.execRunnelGather cmd s
  | .runnelScatter cmd => Sys2Proof.Machine.execRunnelScatter cmd s
  | .runnelRedstore cmd => Sys2Proof.Machine.execRunnelRedstore cmd s
  | .cascadeMcast cmd => Sys2Proof.Machine.execCascadeMcast cmd s
  | .cascadeMcred cmd => Sys2Proof.Machine.execCascadeMcred cmd s
  | .engineCommandEnd cmd => Sys2Proof.Machine.execEngineCommandEnd cmd s
  | .cascadeDelivery cmd cluster => Sys2Proof.Machine.execCascadeDelivery cmd cluster s
  | .dependenceCheck launch => Sys2Proof.Machine.execDependenceCheck launch s
  | .launchCompletion launch => Sys2Proof.Machine.execLaunchCompletion launch s
  | .saveBlockWrite unit => Sys2Proof.Machine.execSaveBlockWrite unit s
  | .queueEntryConsume q => Sys2Proof.Machine.execQueueEntryConsume q s
  | .leaderElection q => Sys2Proof.Machine.execLeaderElection q s
  | .watchdogTrap g => Sys2Proof.Machine.execWatchdogTrap g s
  | .waitvMonitorFire g => Sys2Proof.Machine.execWaitvMonitorFire g s
  | .clockStepDown die => Sys2Proof.Machine.execClockStepDown die s
  | .clockStepUp die => Sys2Proof.Machine.execClockStepUp die s
  | .uePortTrain port fast => Sys2Proof.Machine.execUePortTrain port fast s
  | .dieDrainedByTheHost die => Sys2Proof.Machine.execDieDrainedByTheHost die s
  | .hostLinkTrain hub width gen cxl3 => Sys2Proof.Machine.execHostLinkTrain hub width gen cxl3 s
  | .deviceReset => Sys2Proof.Machine.execDeviceReset s
  | .wipeComplete => Sys2Proof.Machine.execWipeComplete s
  | .moduleUnpowered => Sys2Proof.Machine.execModuleUnpowered s

end Sys2Proof.Machine
end

