-- ==== Sys2Proof/Machine/Upset.lean ====
section
/-! DEFINITION. Errors of storage: what happens where stored bits change (R424, R425). -/

namespace Sys2Proof.Machine

/-- A corrected error adds 1 to the die's count, which saturates. -/
def Die.corrected (d : Die) : Die := { d with ce := if d.ce = 0xFFFF then d.ce else d.ce + 1 }

/-- Two bits of a copy: a clean copy is discarded, a dirty one is poisoned. A line that an L3 pins lies there. -/
def State.upsetCache (s : State) (level unit line : Nat) : State :=
  let here (c : Copy) : Bool := c.level == level && c.unit == unit && c.line == line
  let t := (s.remember line).dropCopies fun c => here c && c.dirty == 0 && c.level < 3
  let t : State := { t with copies := t.copies.map fun c => if here c then { c with poison := true } else c }
  if level = 2 ∧ t.copies.any (fun c => c.level == 3 && c.pinned && c.unit == unit && c.line == line && c.dirty != 0) = true then
    t.setPoison line true
  else t

/-- Two bits of a 64-byte block of a team's scratchpad: it is poisoned. -/
def Team.upsetBlock (t : Team) (block : Nat) : Team :=
  if 64 * block < t.spb then { t with spoison := ninsert block t.spoison } else t

/-- Two bits of an accumulator element. -/
def Team.upsetElement (t : Team) (i : Nat) : Team :=
  if t.ctx.isSome ∧ i < 16384 then { t with acc := sset 0 t.acc i (nan80 5) } else t

/-- Change a thread of a group. -/
def State.modThread (s : State) (g lane : Nat) (f : Thread → Thread) : State :=
  s.mapGroups (·.id == g) fun x => { x with threads := modLane f lane x.threads }

/-- Two bits of a filled entry of a queue. -/
def flawEntry : Nat → List RillEntry → List RillEntry
  | _, [] => []
  | 0, .filled v :: rest => .flawed v :: rest
  | 0, e :: rest => e :: rest
  | k + 1, e :: rest => e :: flawEntry k rest

/-- One error of storage. -/
def State.upset (s : State) : Upset → State
  | .corrected d => s.setDie d (s.die d).corrected
  | .dram line => (s.remember line).setPoison line true
  | .cache level unit line => s.upsetCache level unit line
  | .scratch team block => { s with teams := s.teams.map fun (t : Team) => if t.id = team then t.upsetBlock block else t }
  | .control d => if s.fuses.dmask.getLsbD d && (s.die d).works then s.failDie d else s
  | .silent d => if s.fuses.dmask.getLsbD d && (s.die d).works then s.setDie d { s.die d with silent := true } else s
  | .stack g lane i => s.modThread g lane fun t => { t with badStack := ninsert i t.badStack }
  | .pred g lane i => s.modThread g lane fun t => { t with badPreds := ninsert i t.badPreds }
  | .queue g lane port k => s.modThread g lane fun t => t.setQueue port (flawEntry k (t.queue port))
  | .uniform g handler i => s.mapGroups (·.id == g) fun x => { x with bad := (handler, i) :: x.bad }
  | .element team i => { s with teams := s.teams.map fun (t : Team) => if t.id = team then t.upsetElement i else t }

end Sys2Proof.Machine
end

