-- ==== Sys2Proof/Machine/Step.lean ====
section
/-! DEFINITION. One step of the machine, and placing an instruction where the next step fetches it. -/

namespace Sys2Proof.Machine

/-- Issue the next instruction of the group in focus. -/
def issue (s : State) : Host.Outcome State Fault Refusal := s.issueWith exec

/-- The first move of a list that the device can make. -/
def firstMove (s : State) : List Move → Option State
  | [] => none
  | m :: rest =>
    match m s with
    | .next t => some t
    | _ => firstMove s rest

/-- A list that begins at its element `n`, counted round and round. -/
def rotate {α : Type} (n : Nat) (xs : List α) : List α := xs.drop (n % xs.length) ++ xs.take (n % xs.length)

/-- The first move that is due and can be made. The list begins elsewhere each time, so that every move comes first once
in a while (R183). -/
def State.moved (s : State) : Option State := firstMove s (rotate (s.cursor / 2) s.dueMoves)

/-- The group in focus makes room: a move of the device that is due or another group comes first, in turn. -/
def turn (s : State) : Host.Outcome State Fault Refusal :=
  let go (g : Group) : Host.Outcome State Fault Refusal := issue (s.takePipe g)
  let stay : Host.Outcome State Fault Refusal := if s.canIssue s.cur then issue s else .next s
  if s.cursor % 2 = 0 then
    match s.moved with
    | some t => .next t
    | none =>
      match s.nextGroup with
      | some g => go g
      | none => stay
  else
    match s.nextGroup with
    | some g => go g
    | none =>
      match s.moved with
      | some t => .next t
      | none => stay

/-- Steps that the group in focus issues in before it makes room for others. -/
def burstLimit : Nat := 32

/-- One step: an error of storage that is to happen, else a scripted move of the device, else the group in focus issues;
where it cannot, or has issued for long enough, others come first. -/
def step (s : State) : Host.Outcome State Fault Refusal :=
  match s.upsets with
  | u :: rest => .next (State.upset { s with upsets := rest } u)
  | [] =>
    match s.script with
    | i :: rest => if i.isDeviceOp then exec i { s with script := rest } else .fault .notADeviceOp
    | [] =>
      if s.canIssue s.cur && s.cur.wait == .none && decide (s.burst < burstLimit) then issue { s with burst := s.burst + 1 }
      else turn { s with burst := 0, cursor := s.cursor + 1 }

/-- The state with an instruction stored where the next step fetches it: the words of `w`, each with a half-word whose
only bit is the kind that the instruction needs. -/
def State.withFetchWord (s : State) (nbits w : Nat) : State :=
  let v := w % 2 ^ nbits
  let w1 : Word := BitVec.ofNat 32 v
  let w2 : Word := BitVec.ofNat 32 (v / 2 ^ 32)
  let i := decodePair w1 w2
  let u : Bool := match i.1 with
    | .ok j => needsU j
    | .error _ => false
  let h : Half := if u then 0x1000 else 0
  let t := { s with script := [], upsets := [] }
  (if t.canFetch then t else t.boot).placeInstr w1 w2 h h

end Sys2Proof.Machine
end

