-- ==== Sys2Proof/Safety.lean ====
section
/-! DEFINITION. What a safe run is: no move faults or is refused, no launch has been ended by a fault, and the data of the
state keeps its forms. -/

namespace Sys2Proof.Machine

/-- Memory, poison and scratchpads are in canonical form. -/
def State.dataOk (s : State) : Bool :=
  Memory.wf s.mem && s.teams.all fun t => swf unwritten t.scratch

/-- No admitted launch has been ended by a fault (R366). -/
def State.noLaunchFault (s : State) : Bool := s.launches.all fun l => l.fault.isNone

/-- A state from which `n` steps neither fault nor are refused. -/
def State.safeFor (s : State) (n : Nat) : Prop :=
  match Sys2Proof.core.run n s with
  | .next t => t.dataOk = true ∧ t.noLaunchFault = true
  | .fault _ => False
  | .refused _ => False

end Sys2Proof.Machine
end

