-- ==== Sys2Proof/Certificates/Slice0/Obligations.lean ====
section
/-! DEFINITION. The statements for the provers. `Sys2Proof.Spec` holds what they are written in: what the rules give each
instruction, as tables of rows, and what an instruction leaves as it was. -/

namespace Sys2Proof.Spec

open Sys2Proof.Machine

/-! ### What an instruction leaves -/

/-- The group in focus has issued its instruction: it holds its pipe, and its run goes on, or begins where it did not
hold it before or had passed it (R410). -/
def issuedPipes (s : State) : List (Nat × (Nat × Nat)) :=
  let h := s.holder s.cur.pipeKey
  sset (0, 0) s.pipes s.cur.pipeKey
    (s.cur.id, if h.1 = s.cur.id ∧ h.2 ≠ 0 then h.2 + s.issue.dist + s.issue.beats else s.issue.beats)

/-- Nothing outside the group in focus changes but the run of its pipe. -/
def OnlyFocus (s t : State) : Prop := t = { s with cur := t.cur, pipes := issuedPipes s }

/-- Of the group in focus, what an instruction that only computes may change: the program counter, registers, what is
below its latency, latches and the accounting of issue, and the marks of registers that hold an error. Every other field
is as before. -/
def OnlyRegisters (g h : Group) : Prop :=
  h = { g with pc := h.pc, threads := h.threads, sregs := h.sregs, hregs := h.hregs, hazards := h.hazards,
               flags := h.flags, gstat := h.gstat, gcyc := h.gcyc, lastIssue := h.lastIssue, latches := h.latches,
               switch := h.switch, came := h.came, stalled := h.stalled, wait := h.wait, barWait := h.barWait,
               bad := h.bad }
    ∧ ∀ x ∈ h.bad, x ∈ g.bad

/-- The phases of the team's barriers. -/
def barPhases (s : State) : List (Nat × BitVec 16) :=
  (List.range 6).map fun k => (k, (s.team.bars.getD k Barrier.zero).phase)

/-- The instruction is over and the group is at `pc`: the latches have moved, with `b0 l` in the b0 of lane `l`, the cycles are
counted, and the barrier phases are those that the next instruction's waits begin in (R59, R62, R156). -/
def MovedOn (s : State) (g : Group) (pc : DWord) (b0 : Nat → DWord) : Prop :=
  g.pc = pc ∧ g.wait = .none ∧ g.came = false ∧ g.stalled = 0 ∧ g.barWait = barPhases s
    ∧ g.gcyc = s.cur.gcyc + BitVec.ofNat 64 s.issue.beats ∧ g.lastIssue = s.draws
    ∧ g.threads.length = s.cur.threads.length
    ∧ ∀ l < s.cur.threads.length,
        (g.lane l).b0 = b0 l ∧ (g.lane l).b1 = (s.cur.lane l).b0 ∧ (g.lane l).b2 = (s.cur.lane l).b1
          ∧ (g.lane l).b3 = (s.cur.lane l).b2

/-- The latches after an instruction: one more of them holds a value, or none where its group is held, so that the next instruction is
a switch point (R63, R267). -/
def Latched (s : State) (g : Group) (held : Bool) : Prop :=
  g.switch = held ∧ g.latches = if held then 0 else Nat.min (s.cur.latches + 1) 4

/-- The instruction is over and the group goes on at `pc`. -/
def GoesOn (s : State) (g : Group) (pc : DWord) (b0 : Nat → DWord) : Prop := MovedOn s g pc b0 ∧ Latched s g false

/-- The rest of a thread: its number, its place in the team order and its rill queues. An instruction marks no register
with an error. -/
def KeepsQueues (x y : Thread) : Prop :=
  y = { x with stack := y.stack, pred := y.pred, b0 := y.b0, b1 := y.b1, b2 := y.b2, b3 := y.b3,
               badStack := y.badStack, badPreds := y.badPreds }
    ∧ (∀ i ∈ y.badStack, i ∈ x.badStack) ∧ ∀ i ∈ y.badPreds, i ∈ x.badPreds

/-- No source field names, in one of the lanes, a register with an error that its code cannot correct: such an
instruction takes the poison trap in the place of its effect (R424). -/
def Sound (s : State) (lanes : List Nat) (srcs : List Src) : Prop := ∀ l ∈ lanes, s.cur.badSources l [] srcs = false

/-- The same for the sources of an instruction of kind U, which may read a predicate of every lane. -/
def SoundU (s : State) (srcs : List Src) : Prop := Sound s (0 :: List.range s.cur.threads.length) srcs

/-! ### Instructions that compute a value -/

/-- One instruction of three register fields: where its sources lie, the class of its destination, its latency in the
per-thread form, and its result and flags from the rounding mode and the values of the sources. -/
structure Row where
  instr : Code → Code → Code → Instr
  srcs : Code → Code → Code → List Src
  dst : DstCls
  lat : Nat
  value : BitVec 2 → List DWord → DWord × FpFlags

/-- Two 32-bit operands. -/
def two (_ a b : Code) : List Src := [⟨a.toNat, .w⟩, ⟨b.toNat, .w⟩]

/-- One 32-bit operand. -/
def one (_ a _ : Code) : List Src := [⟨a.toNat, .w⟩]

/-- A 32-bit operand and a count from 0 to 31. -/
def counted (_ a b : Code) : List Src := [⟨a.toNat, .w⟩, ⟨b.toNat, .num 31⟩]

/-- Two 64-bit operands. -/
def twoPairs (_ a b : Code) : List Src := [⟨a.toNat, .pair⟩, ⟨b.toNat, .pair⟩]

/-- A 64-bit operand and a 32-bit one. -/
def pairAndWord (_ a b : Code) : List Src := [⟨a.toNat, .pair⟩, ⟨b.toNat, .w⟩]

/-- Source `i`. -/
def src (xs : List DWord) (i : Nat) : DWord := xs.getD i 0

/-- The low 32 bits of source `i`. -/
def word (xs : List DWord) (i : Nat) : Word := (src xs i).setWidth 32

/-- A 32-bit result without flags. -/
def plain (x : Word) : DWord × FpFlags := (x.setWidth 64, 0)

/-- A row of a 32-bit function of two words. -/
def row2 (instr : Code → Code → Code → Instr) (ext : Ext) (lat : Nat) (f : Word → Word → Word) : Row :=
  { instr := instr, srcs := two, dst := .w ext, lat := lat, value := fun _ xs => plain (f (word xs 0) (word xs 1)) }

/-- A row of a 32-bit function of a word and a count. -/
def rowCnt (instr : Code → Code → Code → Instr) (ext : Ext) (f : Word → Nat → Word) : Row :=
  { instr := instr, srcs := counted, dst := .w ext, lat := 2,
    value := fun _ xs => plain (f (word xs 0) (src xs 1).toNat) }

/-- A row of a 32-bit function of one word. -/
def row1 (instr : Code → Code → Instr) (ext : Ext) (f : Word → Word) : Row :=
  { instr := fun d a _ => instr d a, srcs := one, dst := .w ext, lat := 2, value := fun _ xs => plain (f (word xs 0)) }

/-- The 32-bit integer instructions of R107 with a fixed latency. -/
def integerRows : List Row :=
  [row2 .add .sign 2 fun a b => a + b,
   row2 .sub .sign 2 fun a b => a - b,
   row2 .mul .sign 4 fun a b => a * b,
   row2 .mulhi .sign 4 fun a b => BitVec.ofInt 32 (a.toInt * b.toInt / 2 ^ 32),
   row2 .mulhu .zero 4 fun a b => BitVec.ofNat 32 (a.toNat * b.toNat / 2 ^ 32),
   row2 .and .sign 2 fun a b => a &&& b,
   row2 .or .sign 2 fun a b => a ||| b,
   row2 .xor .sign 2 fun a b => a ^^^ b,
   row2 .andn .sign 2 fun a b => a &&& ~~~b,
   row2 .shl .sign 2 fun a b => a <<< (b.toNat % 32),
   row2 .shr .zero 2 fun a b => a >>> (b.toNat % 32),
   row2 .sra .sign 2 fun a b => BitVec.ofInt 32 (a.toInt / 2 ^ (b.toNat % 32)),
   row2 .min .sign 2 fun a b => if a.toInt < b.toInt then a else b,
   row2 .max .sign 2 fun a b => if a.toInt < b.toInt then b else a,
   row2 .minu .zero 2 fun a b => if a.toNat < b.toNat then a else b,
   row2 .maxu .zero 2 fun a b => if a.toNat < b.toNat then b else a]
  ++ [rowCnt .shli .sign fun a n => a <<< n,
   rowCnt .shri .zero fun a n => a >>> n,
   rowCnt .srai .sign fun a n => BitVec.ofInt 32 (a.toInt / 2 ^ n)]
  ++ [row1 .abs .sign fun a => if a.toInt < 0 then -a else a,
   row1 .clz .zero fun a => BitVec.ofNat 32 (32 - Nat.size a.toNat),
   row1 .popc .zero fun a => BitVec.ofNat 32 ((List.range 32).filter fun i => a.getLsbD i).length,
   row1 .brev .zero fun a => a.reverse,
   row1 .sextb .sign fun a => BitVec.ofInt 32 (a.setWidth 8).toInt,
   row1 .sexth .sign fun a => BitVec.ofInt 32 (a.setWidth 16).toInt,
   row1 .mov .sign fun a => a]
  ++ [{ instr := .mad, srcs := fun d a b => two d a b ++ [⟨d.toNat, .w⟩], dst := .w .sign, lat := 4,
        value := fun _ xs => plain (word xs 2 + word xs 0 * word xs 1) }]

/-- The 64-bit and address instructions of R109, and the immediates of R110 and R111. -/
def longRows : List Row :=
  [{ instr := .addD, srcs := twoPairs, dst := .pair, lat := 2, value := fun _ xs => (src xs 0 + src xs 1, 0) },
   { instr := .subD, srcs := twoPairs, dst := .pair, lat := 2, value := fun _ xs => (src xs 0 - src xs 1, 0) },
   { instr := .mulD, srcs := twoPairs, dst := .pair, lat := 4, value := fun _ xs => (src xs 0 * src xs 1, 0) },
   { instr := .shlD, srcs := pairAndWord, dst := .pair, lat := 2,
     value := fun _ xs => (src xs 0 <<< ((word xs 1).toNat % 64), 0) },
   { instr := .shrD, srcs := pairAndWord, dst := .pair, lat := 2,
     value := fun _ xs => (src xs 0 >>> ((word xs 1).toNat % 64), 0) },
   { instr := .sraD, srcs := pairAndWord, dst := .pair, lat := 2,
     value := fun _ xs => (BitVec.ofInt 64 ((src xs 0).toInt / 2 ^ ((word xs 1).toNat % 64)), 0) },
   { instr := fun d a _ => .movD d a, srcs := fun _ a _ => [⟨a.toNat, .pair⟩], dst := .pair, lat := 2,
     value := fun _ xs => (src xs 0, 0) }]
  ++ ((List.range 4).map fun k =>
      { instr := .lea (BitVec.ofNat 2 k), srcs := pairAndWord, dst := .pair, lat := 2,
        value := fun _ xs => (src xs 0 + BitVec.ofInt 64 ((word xs 1).toInt * 2 ^ k), 0) })

/-- Sums with an immediate and loads of one, for each immediate. -/
def immediateRows (imm13 : BitVec 13) (imm20 : BitVec 20) : List Row :=
  [{ instr := fun d a _ => .addi d a imm13, srcs := fun _ a _ => [⟨a.toNat, .wide⟩], dst := .w .full, lat := 2,
     value := fun _ xs => (src xs 0 + BitVec.ofInt 64 imm13.toInt, 0) },
   { instr := fun d _ _ => .lim d imm20, srcs := fun _ _ _ => [], dst := .w .full, lat := 2,
     value := fun _ _ => (BitVec.ofInt 64 imm20.toInt, 0) }]

/-- The value that a stack entry receives in an active lane, where the destination is code `d` (R50, R106). -/
def written (dst : DstCls) (wb d : Nat) (x : DWord) (i : Nat) : Option Word :=
  if isV d = true ∧ dst ≠ .pred then
    (if i = wb + d then some (x.setWidth 32)
     else if dst = .pair ∧ i = wb + d + 1 then some (x.extractLsb' 32 32)
     else none)
  else none

/-- What enters b0 in an active lane (R62). -/
def latched (dst : DstCls) (x : DWord) : DWord :=
  match dst with
  | .pair => x
  | .pred => if x = 0 then 0 else 1
  | _ => x &&& 0xFFFFFFFF

/-- The value before a write, which a source may still read below the latency in the lanes of `m` (R60). -/
def before (s : State) (t : Target) (old : List DWord) (lat : Nat) (m : LaneMask) : Hazard :=
  { target := t, old := old, left := lat, producer := s.cur.lastIssue, lanes := m }

/-- The values before the write of destination `d` in the lanes of `m`. -/
def pending (s : State) (dst : DstCls) (d lat : Nat) (m : LaneMask) : List Hazard :=
  let old (i : Nat) : List DWord := s.cur.threads.map fun t => (sget 0 t.stack i).setWidth 64
  if dst = .pred then [before s (.p d) (s.cur.threads.map fun t => if t.pred.getLsbD d then 1 else 0) lat m]
  else if isV d then
    (if dst = .pair then [before s (.v (s.cur.wb + d + 1)) (old (s.cur.wb + d + 1)) lat m] else [])
      ++ [before s (.v (s.cur.wb + d)) (old (s.cur.wb + d)) lat m]
  else []

/-- What is below its latency once a latch has been lost: an `SREAD` that still reads gstat as it was before an `SWRITE`
sees LATCHLOST too (R63, R157). -/
def afterLoss (lost : Bool) (hs : List Hazard) : List Hazard :=
  if lost then
    hs.map fun h => if h.target = .special 5 then { h with old := h.old.map (· ||| 1) } else h
  else hs

/-- The registers of every lane after a per-thread instruction: the active lanes of `m` write destination `d`, and
nothing else of a register stack or of the predicates changes (R57, R104). -/
def LanesWritten (s t : State) (dst : DstCls) (d : Nat) (m : LaneMask) (val : Nat → DWord) : Prop :=
  ∀ l < s.cur.threads.length,
    (∀ i, sget 0 (t.cur.lane l).stack i =
      if m.getLsbD l then (written dst s.cur.wb d (val l) i).getD (sget 0 (s.cur.lane l).stack i)
      else sget 0 (s.cur.lane l).stack i)
    ∧ ∀ i < 32, (t.cur.lane l).pred.getLsbD i =
        if m.getLsbD l = true ∧ dst = .pred ∧ i = d then decide (val l ≠ 0) else (s.cur.lane l).pred.getLsbD i

/-- The flags that the lanes of `m` raise, seen once a latency has passed (R129). -/
def raised (s : State) (m : LaneMask) (lat : Nat) (fl : Nat → FpFlags) : List PendingFlags :=
  let f : FpFlags := (s.lanesOf m).foldl (fun (f : FpFlags) l => f ||| fl l) 0
  if f = 0 then [] else [⟨f, lat⟩]

/-- The whole effect of a per-thread instruction that touches no rill and has no uniform destination. -/
def ThreadEffect (s t : State) (dst : DstCls) (d lat : Nat) (m : LaneMask) (codes : List Nat) (val : Nat → DWord × FpFlags) :
    Prop :=
  OnlyFocus s t ∧ OnlyRegisters s.cur t.cur
    ∧ GoesOn s t.cur s.nextPc (fun l => if m.getLsbD l then latched dst (val l).1 else 0)
    ∧ LanesWritten s t dst d m (fun l => (val l).1)
    ∧ (∀ l < s.cur.threads.length, KeepsQueues (s.cur.lane l) (t.cur.lane l))
    ∧ t.cur.sregs = s.cur.sregs ∧ t.cur.hregs = s.cur.hregs
    ∧ t.cur.hazards =
        pending s dst d lat m ++ afterLoss (decide (m ≠ 0 ∧ s.cur.losesLatch codes = true)) s.cur.hazards
    ∧ t.cur.flags = s.cur.flags ++ raised s m lat (fun l => (val l).2)
    ∧ t.cur.gstat = (if m ≠ 0 ∧ s.cur.losesLatch codes = true then s.cur.gstat ||| 1 else s.cur.gstat)

/-- The general operands among the sources, the only ones that can name a latch. -/
def general (srcs : List Src) : List Nat := (srcs.filter fun x => x.cls == .w || x.cls == .wide || x.cls == .pair).map (·.code)

/-- The per-thread form without rill ports, in one state: it completes where its half-word and fields are valid and its sources
hold no error. -/
def threadFormAt (s : State) (i : Instr) (srcs : List Src) (dst : DstCls) (d lat : Nat) (val : Nat → DWord × FpFlags) : Prop :=
  s.u = false → dst.ok false d = true → isPort d = false → srcs.all (Src.ok false) = true → popsOf srcs = [] →
    Sound s (s.lanesOf s.em) srcs → ∃ t, exec i s = .next t ∧ ThreadEffect s t dst d lat s.em (general srcs) val

/-- The per-thread form without rill ports, in every state. -/
def threadForm (i : Instr) (srcs : List Src) (dst : DstCls) (d lat : Nat) (val : State → Nat → DWord × FpFlags) : Prop :=
  ∀ s : State, threadFormAt s i srcs dst d lat (val s)

/-- The result of a row in a lane. -/
def Row.val (r : Row) (d a b : Code) (s : State) (l : Nat) : DWord × FpFlags :=
  r.value s.rmSeen (s.sources l 0 [] (r.srcs d a b))

def Row.threadForm (r : Row) : Prop :=
  ∀ d a b : Code, Spec.threadForm (r.instr d a b) (r.srcs d a b) r.dst d.toNat r.lat (r.val d a b)

/-- What an s-register receives from a result (R106). -/
def extended (dst : DstCls) (x : DWord) : DWord :=
  match dst with
  | .w .sign => BitVec.ofInt 64 (x.setWidth 32 : Word).toInt
  | .w .zero => x &&& 0xFFFFFFFF
  | .v => x &&& 0xFFFFFFFF
  | _ => x

/-- s-register `i` written: in the handler bank for s24 to s31 inside a handler (R159), else in the other. -/
def sWritten (g : Group) (i : Nat) (x : DWord) (h : Group) : Prop :=
  if g.intrap = true ∧ 24 ≤ i ∧ i < 32 then
    h.sregs = g.sregs ∧ ∀ j, sget 0 h.hregs j = if j = i - 24 then x else sget 0 g.hregs j
  else h.hregs = g.hregs ∧ ∀ j, sget 0 h.sregs j = if j = i then x else sget 0 g.sregs j

/-- The whole effect of a uniform instruction that computes `x` for destination `d`: an s-register, or nul. -/
def UniformEffect (s t : State) (d : Nat) (x b0 : DWord) (fl : FpFlags) : Prop :=
  OnlyFocus s t ∧ OnlyRegisters s.cur t.cur ∧ GoesOn s t.cur s.nextPc (fun _ => b0)
    ∧ (∀ l < s.cur.threads.length, KeepsQueues (s.cur.lane l) (t.cur.lane l)
        ∧ (t.cur.lane l).stack = (s.cur.lane l).stack ∧ (t.cur.lane l).pred = (s.cur.lane l).pred)
    ∧ (if isS d then sWritten s.cur (d - 64) x t.cur
         ∧ t.cur.hazards = before s (s.cur.sTarget (d - 64)) [s.cur.sreg (d - 64)] 2 (BitVec.allOnes 64) :: s.cur.hazards
       else t.cur.sregs = s.cur.sregs ∧ t.cur.hregs = s.cur.hregs ∧ t.cur.hazards = s.cur.hazards)
    ∧ t.cur.flags = s.cur.flags ++ (if fl = 0 then [] else [⟨fl, 2⟩]) ∧ t.cur.gstat = s.cur.gstat

/-- The uniform form in one state: the destination is an s-register or nul. -/
def uniformFormAt (s : State) (i : Instr) (srcs : List Src) (dst : DstCls) (d : Nat) (val : DWord × FpFlags) : Prop :=
  s.u = true → dst.ok true d = true → srcs.all (Src.ok true) = true → Sound s [0] srcs →
    ∃ t, exec i s = .next t ∧
      UniformEffect s t d (extended dst val.1)
        (if isS d = true ∨ dst = .w .full ∨ dst = .pair then extended dst val.1 else val.1 &&& 0xFFFFFFFF) val.2

/-- The uniform form in every state. -/
def uniformForm (i : Instr) (srcs : List Src) (dst : DstCls) (d : Nat) (val : State → DWord × FpFlags) : Prop :=
  ∀ s : State, uniformFormAt s i srcs dst d (val s)

/-- The uniform form of a row of kind D. -/
def Row.uniformForm (r : Row) : Prop :=
  ∀ d a b : Code, Spec.uniformForm (r.instr d a b) (r.srcs d a b) r.dst d.toNat (fun s => r.val d a b s 0)

/-! ### Rill ports as operands (R217, R219, R220) -/

/-- The port that a destination pushes. -/
def pushOf (dst : DstCls) (d : Nat) : Option Nat :=
  match dst with
  | .w _ => if isPort d then some (d - 100) else none
  | _ => none

/-- The entries that the pushes of the lanes of `m` add to queue `q` at a seat. -/
def arrivals (s : State) (m : LaneMask) (push : Option Nat) (seat : Seat) (q : Nat) (entry : Nat → RillEntry) : List RillEntry :=
  match push with
  | none => []
  | some p => (s.lanesOf m).filterMap fun l => if s.link l p = some seat ∧ opposite p = q then some (entry l) else none

/-- Every queue after the pops and pushes of the lanes of `m`. -/
def QueuesMoved (s t : State) (m : LaneMask) (pops : List Nat) (push : Option Nat) (entry : Nat → RillEntry) : Prop :=
  ∀ (g l q : Nat) (x : Group), s.group? g = some x → l < x.threads.length → q < 6 →
    t.queueAt (g, l) q =
      (if g = s.cur.id ∧ m.getLsbD l = true then (s.queueAt (g, l) q).drop (popCountOf pops q) else s.queueAt (g, l) q)
        ++ arrivals s m push (g, l) q entry

/-- A form with a rill port, in one state: it completes where no translation of the region is outstanding and no port blocks; it is
a region of its own (R220). -/
def portFormAt (s : State) (i : Instr) (srcs : List Src) (dst : DstCls) (d : Nat) (val : Nat → DWord × FpFlags) : Prop :=
  s.u = false → dst.ok false d = true → srcs.all (Src.ok false) = true →
    (popsOf srcs ≠ [] ∨ pushOf dst d ≠ none) → s.cur.id ≠ 0 → s.cur.walking = false →
    s.rillBlocked s.em (popsOf srcs) (pushOf dst d) = none → Sound s (s.lanesOf s.em) srcs →
    ∃ t, exec i s = .next t
      ∧ t.mem = s.mem ∧ t.teams = s.teams ∧ t.launches = s.launches
      ∧ GoesOn s t.cur s.nextPc (fun l => if s.em.getLsbD l then latched dst (val l).1 else 0)
      ∧ LanesWritten s t dst d s.em (fun l => (val l).1)
      ∧ t.cur.sregs = s.cur.sregs ∧ t.cur.hregs = s.cur.hregs ∧ t.cur.em = s.cur.em ∧ t.cur.fpc = s.cur.fpc
      ∧ t.cur.rstart = s.nextPc ∧ t.cur.rwb = s.cur.wb ∧ t.cur.watchdog = 0
      ∧ QueuesMoved s t s.em (popsOf srcs) (pushOf dst d) (fun l => .ready ((val l).1.setWidth 32))

/-- A form with a rill port, in every state. -/
def portForm (i : Instr) (srcs : List Src) (dst : DstCls) (d : Nat) (val : State → Nat → DWord × FpFlags) : Prop :=
  ∀ s : State, portFormAt s i srcs dst d (val s)

def Row.portForm (r : Row) : Prop :=
  ∀ d a b : Code, Spec.portForm (r.instr d a b) (r.srcs d a b) r.dst d.toNat (r.val d a b)

/-- The three forms of a row of kind D. -/
def Row.forms (r : Row) : Prop := r.threadForm ∧ r.uniformForm ∧ r.portForm

/-! ### Instructions of the lng path (R64, R108, R138) -/

/-- The lanes' results as an operation in flight holds them. -/
def heldResults (s : State) (dst : DstCls) (val : Nat → DWord) : List (Nat × Nat) :=
  (s.lanesOf s.em).map fun l => (l, (latched dst (val l)).toNat)

/-- Where an operation in flight will write: stack entries do not move with the window. -/
def destination (s : State) (dst : DstCls) (d : Nat) : Dst :=
  if isV d then .v (s.cur.wb + d) (if dst = .pair then 2 else 1)
  else if isS d then
    (if s.cur.intrap = true ∧ 24 ≤ d - 64 ∧ d - 64 < 32 then .s true (d - 88) 1 else .s false (d - 64) 1)
  else if isPort d then .port (d - 100)
  else .none

/-- An operation that the group in focus begins. -/
def newFlight (s : State) (path : Nat) (kind : FlightKind) : Flight :=
  { tag := s.cur.nextTag, path := path, pc := s.cur.pc, walking := false, fva := 0, finfo := 0, done := false,
    born := s.draws, after := [], kind := kind }

/-- One more operation is in flight on a path, the newest; everything else of the group is as an instruction that writes
no register leaves it. -/
def Raised (s t : State) (path : Nat) (kind : FlightKind) (b0 : Nat → DWord) : Prop :=
  OnlyFocus s t ∧ GoesOn s t.cur s.nextPc b0 ∧ t.cur.nextTag = s.cur.nextTag + 1
    ∧ t.cur.flights = s.cur.flights ++ [newFlight s path kind]
    ∧ t.cur = { s.cur with pc := t.cur.pc, threads := t.cur.threads, gstat := t.cur.gstat, gcyc := t.cur.gcyc,
                           lastIssue := t.cur.lastIssue, latches := t.cur.latches, switch := t.cur.switch,
                           came := t.cur.came, stalled := t.cur.stalled, hazards := t.cur.hazards,
                           wait := t.cur.wait, barWait := t.cur.barWait, flights := t.cur.flights,
                           nextTag := t.cur.nextTag }
    ∧ (t.cur.gstat = s.cur.gstat ∧ t.cur.hazards = s.cur.hazards
        ∨ t.cur.gstat = s.cur.gstat ||| 1 ∧ t.cur.hazards = afterLoss true s.cur.hazards)
    ∧ ∀ l < s.cur.threads.length, (t.cur.lane l).stack = (s.cur.lane l).stack
        ∧ (t.cur.lane l).pred = (s.cur.lane l).pred ∧ KeepsQueues (s.cur.lane l) (t.cur.lane l)

/-- The flags of every active lane. -/
def allFlags (s : State) (fl : Nat → FpFlags) : FpFlags := (s.lanesOf s.em).foldl (fun (f : FpFlags) l => f ||| fl l) 0

/-- The per-thread form of an instruction of the lng path without rill ports. -/
def Row.longThread (r : Row) : Prop :=
  ∀ (d a b : Code) (s : State), s.u = false → r.dst.ok false d.toNat = true → isPort d.toNat = false →
    (r.srcs d a b).all (Src.ok false) = true → popsOf (r.srcs d a b) = [] →
    Sound s (s.lanesOf s.em) (r.srcs d a b) → s.cur.count 5 < 63 →
    ∃ t, exec (r.instr d a b) s = .next t ∧
      Raised s t 5
        (.long (destination s r.dst d.toNat) (heldResults s r.dst fun l => (r.val d a b s l).1)
          (allFlags s fun l => (r.val d a b s l).2)) (fun _ => 0)

/-- The uniform form of an instruction of the lng path. -/
def Row.longUniform (r : Row) : Prop :=
  ∀ (d a b : Code) (s : State), s.u = true → r.dst.ok true d.toNat = true →
    (r.srcs d a b).all (Src.ok true) = true → Sound s [0] (r.srcs d a b) → s.cur.count 5 < 63 →
    ∃ t, exec (r.instr d a b) s = .next t ∧
      let x := r.val d a b s 0
      Raised s t 5
        (.long (destination s r.dst d.toNat)
          [(0, (if isS d.toNat = true ∨ r.dst = .pair then extended r.dst x.1 else x.1 &&& 0xFFFFFFFF).toNat)] x.2) (fun _ => 0)

/-- A form of an instruction of the lng path with a rill port: each lane reserves its entry now (R219). -/
def Row.longPort (r : Row) : Prop :=
  ∀ (d a b : Code) (s : State), s.u = false → r.dst.ok false d.toNat = true → (r.srcs d a b).all (Src.ok false) = true →
    (popsOf (r.srcs d a b) ≠ [] ∨ pushOf r.dst d.toNat ≠ none) → s.cur.id ≠ 0 → s.cur.walking = false →
    s.cur.count 5 < 63 → s.rillBlocked s.em (popsOf (r.srcs d a b)) (pushOf r.dst d.toNat) = none →
    Sound s (s.lanesOf s.em) (r.srcs d a b) → ∃ t, exec (r.instr d a b) s = .next t
      ∧ t.mem = s.mem ∧ GoesOn s t.cur s.nextPc (fun _ => 0) ∧ t.cur.rstart = s.nextPc
      ∧ t.cur.flights = s.cur.flights ++ [newFlight s 5
          (.long (destination s r.dst d.toNat) (heldResults s r.dst fun l => (r.val d a b s l).1)
            (allFlags s fun l => (r.val d a b s l).2))]
      ∧ QueuesMoved s t s.em (popsOf (r.srcs d a b)) (pushOf r.dst d.toNat)
          (fun l => .reserved s.cur.id (64 * s.cur.nextTag + l))

def Row.longForms (r : Row) : Prop := r.longThread ∧ r.longUniform ∧ r.longPort

/-- Division of R108: toward zero, the remainder with the sign of the dividend. -/
def divisionRows : List Row :=
  [row2 .div .sign 0 fun a b => if b = 0 then 0xFFFFFFFF else BitVec.ofInt 32 (a.toInt.tdiv b.toInt),
   row2 .divu .zero 0 fun a b => if b = 0 then 0xFFFFFFFF else BitVec.ofNat 32 (a.toNat / b.toNat),
   row2 .rem .sign 0 fun a b => if b = 0 then a else BitVec.ofInt 32 (a.toInt.tmod b.toInt),
   row2 .remu .zero 0 fun a b => if b = 0 then a else BitVec.ofNat 32 (a.toNat % b.toNat)]

/-! ### Floating-point rows (R134 to R147, R300 to R306) -/

/-- The operand class of a format: pairs for FP64 (R134). -/
def fpSrc (f : FFmt) (c : Code) : Src := ⟨c.toNat, if f.width = 64 then .pair else .w⟩

def fpDst (f : FFmt) : DstCls := if f.width = 64 then .pair else .w .zero

def fpLat (f : FFmt) : Nat := if f.width = 64 then 6 else 4

/-- The bits of an operand of a format: the low bits of the register. -/
def fpArg (f : FFmt) (xs : List DWord) (i : Nat) : Nat := (src xs i).toNat % 2 ^ f.width

/-- A result of a format. -/
def fpRes (r : Nat × FpFlags) : DWord × FpFlags := (BitVec.ofNat 64 r.1, r.2)

def fpRow2 (instr : Code → Code → Code → Instr) (f : FFmt) (g : BitVec 2 → Nat → Nat → Nat × FpFlags) : Row :=
  { instr := instr, srcs := fun _ a b => [fpSrc f a, fpSrc f b], dst := fpDst f, lat := fpLat f,
    value := fun rm xs => fpRes (g rm (fpArg f xs 0) (fpArg f xs 1)) }

def fpRow1 (instr : Code → Code → Instr) (f : FFmt) (g : BitVec 2 → Nat → Nat × FpFlags) : Row :=
  { instr := fun d a _ => instr d a, srcs := fun _ a _ => [fpSrc f a], dst := fpDst f, lat := fpLat f,
    value := fun rm xs => fpRes (g rm (fpArg f xs 0)) }

/-- The addend: of a 16-bit format a register and nothing else (R140). -/
def fpAddend (f : FFmt) (d : Code) : Src := if f.width = 16 then ⟨d.toNat, .reg⟩ else fpSrc f d

def fpRow3 (instr : Code → Code → Code → Instr) (f : FFmt) (negP negA : Bool) : Row :=
  { instr := instr, srcs := fun d a b => [fpSrc f a, fpSrc f b, fpAddend f d], dst := fpDst f, lat := fpLat f,
    value := fun rm xs => fpRes (f.fma rm negP negA (fpArg f xs 0) (fpArg f xs 1) (fpArg f xs 2)) }

/-- The arithmetic of a format, by its code: 0 FP64, 1 FP32, 2 FP16, 3 BF16 (R86, R87). -/
def floatRows (fmt : BitVec 2) : List Row :=
  let f := fmtOf fmt
  [fpRow2 (.addFmt fmt) f f.add, fpRow2 (.subFmt fmt) f f.sub, fpRow2 (.mulFmt fmt) f f.mul,
   fpRow2 (.minFmt fmt) f (fun _ => f.minmax false), fpRow2 (.maxFmt fmt) f (fun _ => f.minmax true),
   fpRow1 (.absFmt fmt) f (fun _ x => (x % 2 ^ (f.width - 1), 0)),
   fpRow1 (.negFmt fmt) f (fun _ x => ((x + 2 ^ (f.width - 1)) % 2 ^ f.width, 0)),
   fpRow2 (.csgnFmt fmt) f (fun _ x y => (x % 2 ^ (f.width - 1) + y / 2 ^ (f.width - 1) * 2 ^ (f.width - 1), 0)),
   fpRow3 (.fma fmt) f false false, fpRow3 (.fms fmt) f false true, fpRow3 (.fnma fmt) f true false,
   fpRow3 (.fnms fmt) f true true]

/-- The floating-point instructions of the lng path. -/
def floatLongRows (fmt : BitVec 2) : List Row :=
  let f := fmtOf fmt
  [fpRow2 (.divFmt fmt) f f.div, fpRow1 (.sqrtFmt fmt) f f.sqrt,
   fpRow1 .rcpF32 f32 (fun _ => rcpF32), fpRow1 .rsqF32 f32 (fun _ => rsqF32), fpRow1 .exp2F32 f32 (fun _ => exp2Of),
   fpRow1 .log2F32 f32 (fun _ => log2Of), fpRow1 .sinF32 f32 (fun _ => sinOf), fpRow1 .cosF32 f32 (fun _ => cosOf)]

/-- A rounding field: 0 for rm, 1 to 4 for a mode of its own (R141). -/
def rounded (instr : Code → Code → Code → Instr) (f : FFmt) : Row :=
  { instr := instr, srcs := fun _ a b => [fpSrc f a, ⟨b.toNat, .num 4⟩], dst := fpDst f, lat := 4,
    value := fun rm xs => fpRes (f.rint (rndMode rm (src xs 1).toNat) (fpArg f xs 0)) }

/-- The result of a conversion under a rounding mode. -/
def converted (dst from_ : BitVec 3) (mode : BitVec 2) (xs : List DWord) : DWord × FpFlags :=
  let fd := fmtOf (dst.setWidth 2)
  let fs := fmtOf (from_.setWidth 2)
  if from_.toNat < 4 then
    (if dst.toNat < 4 then fpRes (convertFloat fs fd mode (fpArg fs xs 0))
     else fpRes (floatToInt fs (dst == 4) mode (fpArg fs xs 0)))
  else fpRes (intToFloat fd (from_ == 4) mode (word xs 0).toNat)

/-- A conversion between two floating-point formats, or with a 32-bit integer: 4 signed, 5 unsigned (R142 to R144). -/
def convertRow (dst from_ : BitVec 3) : Row :=
  { instr := .cvt dst from_,
    srcs := fun _ a b => [⟨a.toNat, if from_ = 0 then .pair else .w⟩, ⟨b.toNat, .num 4⟩],
    dst := if dst = 0 then .pair else .w (if dst = 4 then .sign else .zero), lat := 4,
    value := fun rm xs => converted dst from_ (rndMode rm (src xs 1).toNat) xs }

/-- Conversions, integral rounding and the three block instructions. -/
def convertRows (dst from_ : BitVec 3) : List Row :=
  [convertRow dst from_, rounded .rintF64 f64, rounded .rintF32 f32, rounded .rintF16 f16, rounded .rintBf16 bf16]
  ++ [{ instr := fun d a _ => .bscale d a, srcs := one, dst := .w .zero, lat := 4,
        value := fun _ xs => fpRes (bscaleOf (word xs 0).toNat) },
      { instr := .bquant, srcs := two, dst := .w .zero, lat := 4,
        value := fun _ xs => fpRes (bquantOf (word xs 0).toNat (word xs 1).toNat) },
      { instr := .bdeq, srcs := two, dst := .w .zero, lat := 4,
        value := fun _ xs => fpRes (bdeqOf (word xs 0).toNat (word xs 1).toNat) }]

/-! ### Compares, predicates and selection (R112, R113, R147) -/

def truth (b : Bool) : DWord := if b then 1 else 0

/-- The order of two integers: EQ, NE, LT, LE, GT, GE. -/
def holds (cond : Nat) (x y : Int) : Bool :=
  match cond with
  | 0 => decide (x = y)
  | 1 => decide (x ≠ y)
  | 2 => decide (x < y)
  | 3 => decide (x ≤ y)
  | 4 => decide (y < x)
  | _ => decide (y ≤ x)

/-- The comparison of a type: S32, U32, S64, U64, F64, F32, F16, BF16. -/
def compared (cond : Nat) (type : BitVec 3) (xs : List DWord) : Bool × FpFlags :=
  match type.toNat with
  | 0 => (holds cond (word xs 0).toInt (word xs 1).toInt, 0)
  | 1 => (holds cond (word xs 0).toNat (word xs 1).toNat, 0)
  | 2 => (holds cond (src xs 0).toInt (src xs 1).toInt, 0)
  | 3 => (holds cond (src xs 0).toNat (src xs 1).toNat, 0)
  | 4 => f64.compare cond (fpArg f64 xs 0) (fpArg f64 xs 1)
  | 5 => f32.compare cond (fpArg f32 xs 0) (fpArg f32 xs 1)
  | 6 => f16.compare cond (fpArg f16 xs 0) (fpArg f16 xs 1)
  | _ => bf16.compare cond (fpArg bf16 xs 0) (fpArg bf16 xs 1)

def compareRow (instr : Code → Code → Code → Instr) (cond : Nat) (type : BitVec 3) : Row :=
  let cls : SrcCls := if type = 2 ∨ type = 3 ∨ type = 4 then .pair else .w
  { instr := instr, srcs := fun _ a b => [⟨a.toNat, cls⟩, ⟨b.toNat, cls⟩], dst := .pred, lat := 2,
    value := fun _ xs => let r := compared cond type xs; (truth r.1, r.2) }

/-- The compares of a type, and the unordered test of a format. -/
def compareRows (type : BitVec 3) (fmt : BitVec 2) : List Row :=
  [compareRow (.cmpEq type) 0 type, compareRow (.cmpNe type) 1 type, compareRow (.cmpLt type) 2 type,
   compareRow (.cmpLe type) 3 type, compareRow (.cmpGt type) 4 type, compareRow (.cmpGe type) 5 type,
   compareRow (.cmpUn fmt) 6 (4 + fmt.setWidth 3)]

/-- A row over two predicates. -/
def predRow2 (instr : Code → Code → Code → Instr) (f : Bool → Bool → Bool) : Row :=
  { instr := instr, srcs := fun _ a b => [⟨a.toNat, .pred⟩, ⟨b.toNat, .pred⟩], dst := .pred, lat := 2,
    value := fun _ xs => (truth (f (decide (src xs 0 ≠ 0)) (decide (src xs 1 ≠ 0))), 0) }

def predRow1 (instr : Code → Code → Instr) (f : Bool → Bool) : Row :=
  { instr := fun d a _ => instr d a, srcs := fun _ a _ => [⟨a.toNat, .pred⟩], dst := .pred, lat := 2,
    value := fun _ xs => (truth (f (decide (src xs 0 ≠ 0))), 0) }

/-- The predicate instructions and the selection by predicate `k`. -/
def predicateRows (k : BitVec 5) : List Row :=
  [predRow2 .pand (fun x y => x && y), predRow2 .por (fun x y => x || y), predRow2 .pxor (fun x y => x != y),
   predRow2 .pandn (fun x y => x && !y), predRow1 .pnot (fun x => !x), predRow1 .pmov (fun x => x)]
  ++ [{ instr := fun d a _ => .pset d a, srcs := one, dst := .pred, lat := 2,
        value := fun _ xs => (truth (decide (word xs 0 ≠ 0)), 0) },
      { instr := fun d a _ => .pget d a, srcs := fun _ a _ => [⟨a.toNat, .pred⟩], dst := .w .zero, lat := 2,
        value := fun _ xs => (src xs 0, 0) },
      { instr := .sel k, srcs := fun _ a b => [⟨a.toNat, .w⟩, ⟨b.toNat, .w⟩, ⟨k.toNat, .pred⟩], dst := .w .zero, lat := 2,
        value := fun _ xs => plain (if src xs 2 ≠ 0 then word xs 0 else word xs 1) }]

/-! ### Cross-lane instructions (R186 to R195) -/

/-- A source value of an active lane, 0 where no active lane has that number (R188). -/
def ofLane (s : State) (srcs : List Src) (i : Nat) (j : Int) : DWord :=
  if 0 ≤ j ∧ s.em.getLsbD j.toNat = true then src (s.sources j.toNat 0 [] srcs) i else 0

/-- The lane that a pull reads: `.AT` names it, `.BELOW`, `.ABOVE` and `.XOR` count from the lane itself. -/
def pulledLane (k l : Nat) (b : Word) : Int :=
  match k with
  | 0 => b.toNat
  | 1 => (l : Int) - (b.toNat % 64 : Nat)
  | 2 => (l : Int) + (b.toNat % 64 : Nat)
  | _ => (l ^^^ (b.toNat % 64) : Nat)

def pullInstr (k : Nat) : Code → Code → Code → Instr :=
  match k with
  | 0 => .lpullAt
  | 1 => .lpullBelow
  | 2 => .lpullAbove
  | _ => .lpullXor

/-- The result of a pull in a lane. -/
def pullVal (k : Nat) (d a b : Code) (s : State) (l : Nat) : DWord × FpFlags :=
  let srcs := two d a b
  (ofLane s srcs 0 (pulledLane k l (word (s.sources l 0 [] srcs) 1)), 0)

/-- The value of v-register `a` in the active lanes, lowest lane first. -/
def laneWords (s : State) (a : Code) : List (Nat × Word) := (s.lanesOf s.em).map fun l => (l, s.vreg 0 l a.toNat)

/-- A uniform destination of a per-thread instruction is written once, if any lane is active (R187). -/
def uniformDest (i : Instr) (srcs : List Src) (dst : DstCls) (d : Nat) (val : State → DWord × FpFlags) : Prop :=
  ∀ s : State, s.u = false → isS d = true → srcs.all (Src.ok false) = true → Sound s (s.lanesOf s.em) srcs →
    ∃ t, exec i s = .next t ∧ OnlyFocus s t ∧ OnlyRegisters s.cur t.cur
      ∧ GoesOn s t.cur s.nextPc (fun l => if s.em.getLsbD l then extended dst (val s).1 else 0)
      ∧ (∀ l < s.cur.threads.length, (t.cur.lane l).stack = (s.cur.lane l).stack
          ∧ (t.cur.lane l).pred = (s.cur.lane l).pred ∧ KeepsQueues (s.cur.lane l) (t.cur.lane l))
      ∧ (if s.em = 0 then t.cur.sregs = s.cur.sregs ∧ t.cur.hregs = s.cur.hregs
         else sWritten s.cur (d - 64) (extended dst (val s).1) t.cur)
      ∧ t.cur.flags = s.cur.flags ++ raised s s.em 6 (fun _ => (val s).2)

/-- An instruction whose result is the same in every active lane. -/
structure VoteRow where
  instr : Code → Code → Instr
  /-- the source is a v-register; else a predicate -/
  ofV : Bool
  dst : DstCls
  value : State → Code → DWord × FpFlags

def VoteRow.srcs (r : VoteRow) (a : Code) : List Src := [⟨a.toNat, if r.ofV then .v else .pred⟩]

/-- The active lanes whose predicate `a` is 1. -/
def ballot (s : State) (a : Code) : List Nat := (s.lanesOf s.em).filter fun l => s.pred 0 l a.toNat

/-- A ballot and the two votes (R191, R192). -/
def voteRows : List VoteRow :=
  [{ instr := .lany, ofV := false, dst := .pred, value := fun s a => (truth (decide (ballot s a ≠ [])), 0) },
   { instr := .lall, ofV := false, dst := .pred, value := fun s a => (truth (decide (ballot s a = s.lanesOf s.em)), 0) }]

/-- The set of the active lanes whose predicate is 1. -/
def ballotMask (s : State) (a : Code) : DWord := BitVec.ofNat 64 ((ballot s a).map fun l => 2 ^ l).sum

/-- The words of the active lanes as the combining tree takes them. -/
def treeOf (s : State) (a : Code) (f : Combine) (q : Lone) : DWord × FpFlags :=
  let r := reduceOver s.team.gw f q ((laneWords s a).map fun e => (e.1, e.2.setWidth 64))
  ((r.1.getD 0).setWidth 64, r.2)

/-- Integer reductions. -/
def reduceRows : List VoteRow :=
  [{ instr := .redAdd, ofV := true, dst := .w .sign, value := fun s a => treeOf s a (combInt fun x y => x + y) loneInt },
   { instr := .redMin, ofV := true, dst := .w .sign,
     value := fun s a => treeOf s a (combInt fun x y => if x.toInt < y.toInt then x else y) loneInt },
   { instr := .redMax, ofV := true, dst := .w .sign,
     value := fun s a => treeOf s a (combInt fun x y => if y.toInt < x.toInt then x else y) loneInt },
   { instr := .redMinu, ofV := true, dst := .w .zero,
     value := fun s a => treeOf s a (combInt fun x y => if x.toNat < y.toNat then x else y) loneInt },
   { instr := .redMaxu, ofV := true, dst := .w .zero,
     value := fun s a => treeOf s a (combInt fun x y => if y.toNat < x.toNat then x else y) loneInt }]

/-- Floating-point reductions, by the tree of R194. -/
def reduceFloatRows : List VoteRow :=
  [{ instr := .redFaddF32, ofV := true, dst := .w .zero, value := fun s a => treeOf s a (combF32 (f32.add s.rmSeen)) loneF32 },
   { instr := .redFminF32, ofV := true, dst := .w .zero, value := fun s a => treeOf s a (combF32 (f32.minmax false)) loneF32 },
   { instr := .redFmaxF32, ofV := true, dst := .w .zero, value := fun s a => treeOf s a (combF32 (f32.minmax true)) loneF32 }]

/-- The result of `LSAME`: the lane's word equals that of the lowest active lane (R192). -/
def sameAsFirst (s : State) (a : Code) (l : Nat) : Bool :=
  let x (l : Nat) : Word := word (s.sources l 0 [] [⟨a.toNat, .w⟩]) 0
  match s.lanesOf s.em with
  | [] => false
  | first :: _ => decide (x l = x first)

/-- The running result of a scan: the words of the active lanes up to a lane, combined in ascending order (R195). -/
def scanned (f : Combine) (q : Lone) (s : State) (a : Code) (l : Nat) : Option Word × FpFlags :=
  ((laneWords s a).filter fun e => decide (e.1 ≤ l)).foldl (fun acc e => joinAt f q acc (some e.2, 0)) (none, 0)

/-- The two scans. The flags of a scan are those of the whole. -/
def scanVal (f : Combine) (q : Lone) (s : State) (a : Code) (l : Nat) : DWord × FpFlags :=
  (((scanned f q s a l).1.getD 0).setWidth 64, (scanned f q s a s.cur.threads.length).2)

/-! ### Control and system instructions -/

/-- The instruction is over and has changed the group to `base`: beside that, only what the end of an instruction does. -/
def Ended (s t : State) (base : Group) (pc : DWord) (b0 : Nat → DWord) : Prop :=
  OnlyFocus s t ∧ GoesOn s t.cur pc b0
    ∧ t.cur = { base with pc := t.cur.pc, threads := t.cur.threads, gcyc := t.cur.gcyc, lastIssue := t.cur.lastIssue,
                          latches := t.cur.latches, switch := t.cur.switch, came := t.cur.came,
                          stalled := t.cur.stalled, wait := t.cur.wait,
                          barWait := t.cur.barWait }
    ∧ ∀ l < s.cur.threads.length, (t.cur.lane l).stack = (s.cur.lane l).stack
        ∧ (t.cur.lane l).pred = (s.cur.lane l).pred ∧ KeepsQueues (s.cur.lane l) (t.cur.lane l)

/-- A trap has been taken from the group `g`, that of `s` with what the instruction had already changed: the saved
registers, the new mask and status, and the handler's address (R159, R365). The region's stores are committed, and move
to the write buffer in order as far as there is room; the watchdog count begins again (R378). The handler begins a region (log
entry 24), and no earlier write of em, tpc or tem is below its latency there (log entry 25): these two are the model's choices. -/
def Trapped (s t : State) (g : Group) (cause : Nat) (tpc tval : DWord) : Prop :=
  t.cur = { g with tcause := BitVec.ofNat 8 cause, tpc := tpc, tval := tval, tem := g.em, em := g.present,
                   gstat := g.gstat ||| 8, pc := g.hva, rstart := g.hva, rwb := g.wb, wait := .none, barWait := [],
                   latches := 0, switch := true, came := false, stalled := 0, watchdog := 0,
                   storeBuf := t.cur.storeBuf,
                   hazards := g.hazards.filter fun h => decide (h.target ≠ .em ∧ h.target ≠ .special 9 ∧ h.target ≠ .special 0xB) }
    ∧ t = { s with cur := t.cur, writeBuf := t.writeBuf }
    ∧ ∃ k, let lines := g.storeBuf.map fun l => { l with committed := true }
        t.cur.storeBuf = lines.drop k ∧ t.writeBuf = s.writeBuf ++ (lines.take k).map fun l => l.toEntry g

/-- The group can take a trap: it is outside its handler, and the translations of its region are known (R365, R371). -/
def canTrap (s : State) : Prop := s.cur.intrap = false ∧ s.cur.walking = false

/-- An instruction that has issued counts the cycles for which it holds its pipe (R156 gcyc, R410). -/
def ticked (s : State) (g : Group) : Group :=
  { g with gcyc := g.gcyc + BitVec.ofNat 64 s.issue.beats, lastIssue := s.draws }

/-- A backward transfer is counted (R378). -/
def transferred (g : Group) (target : DWord) : Group := if target ≤ g.pc then { g with watchdog := g.watchdog + 1 } else g

/-- The condition of a branch (R149). -/
def taken (s : State) (cond : Nat) : Bool :=
  match cond with
  | 0 => true
  | 1 => decide (s.em = 0)
  | 2 => decide (s.em ≠ 0)
  | 3 => decide (s.em = s.cur.present)
  | 4 => s.ucSeen
  | _ => !s.ucSeen

def branchInstr (cond : Nat) : BitVec 23 → Instr :=
  match cond with
  | 0 => .br
  | 1 => .brNone
  | 2 => .brAny
  | 3 => .brAll
  | 4 => .brUc
  | _ => .brNuc

/-- The link of a call: the address after it, with the frame code in its low bits (R152). -/
def linkOf (s : State) (f : Nat) : DWord := s.nextPc ||| BitVec.ofNat 64 f

/-- The values that a register of a group held, which a source may still read for 2 cycles (R60, R156). -/
def noted (g : Group) (t : Target) (old : DWord) : Group :=
  { g with hazards :=
      { target := t, old := [old], left := 2, producer := g.lastIssue, lanes := BitVec.allOnes 64 } :: g.hazards }

/-- s-register `i` written by a uniform instruction: the handler register inside a handler for s24 to s31 (R159). What it
holds is correct from then on. -/
def withS (g : Group) (i : Nat) (x : DWord) : Group :=
  let h := noted g (g.sTarget i) (g.sreg i)
  if g.intrap = true ∧ 24 ≤ i ∧ i < 32 then
    { h with hregs := sset 0 g.hregs (i - 24) x, bad := g.bad.filter fun e => decide (e ≠ (true, i - 24)) }
  else { h with sregs := sset 0 g.sregs i x, bad := g.bad.filter fun e => decide (e ≠ (false, i)) }

/-- The group with the link of a call in s31. -/
def withLink (s : State) (f : Nat) : Group := withS s.cur 31 (linkOf s f)

/-- A call is made, or takes the window-overflow trap (R152). -/
def Called (s t : State) (target : DWord) (f : Nat) : Prop :=
  if s.cur.wb + 16 * f + 64 ≤ s.team.wal then
    Ended s t (transferred { withLink s f with wb := s.cur.wb + 16 * f } target) target (fun _ => linkOf s f)
  else Trapped s t (ticked s (withLink s f)) 7 target (BitVec.ofNat 64 (s.cur.wb + 16 * f))

/-- A uniform comparison, by the order of R151. -/
def ucmpInstr (k : Nat) : Code → Code → Instr :=
  match k with
  | 0 => .ucmpEq
  | 1 => .ucmpNe
  | 2 => .ucmpLt
  | 3 => .ucmpLe
  | 4 => .ucmpLtu
  | _ => .ucmpLeu

def compares (k : Nat) (x y : DWord) : Bool :=
  match k with
  | 0 => decide (x = y)
  | 1 => decide (x ≠ y)
  | 2 => decide (x.toInt < y.toInt)
  | 3 => decide (x.toInt ≤ y.toInt)
  | 4 => decide (x.toNat < y.toNat)
  | _ => decide (x.toNat ≤ y.toNat)

/-- UC is written, seen at a d-sum of 2. -/
def withUc (g : Group) (c : Bool) : Group :=
  { noted g .uc (if g.gstat.getLsbD 2 then 1 else 0) with
      gstat := if c then g.gstat ||| 4 else g.gstat &&& ~~~4 }

/-- em is written, seen at a d-sum of 2 (R177). -/
def withEm (g : Group) (m : LaneMask) : Group := { noted g .em g.em with em := m }

/-- The lanes whose predicate is 1, active or not. -/
def predLanes (s : State) (a : Code) : LaneMask :=
  BitVec.ofNat 64 (((List.range s.cur.threads.length).filter fun l => s.pred 0 l a.toNat).map fun l => 2 ^ l).sum

/-- The new mask of `MSET`, `MAND`, `MANDN` and `MOR` (R196). -/
def maskRows : List ((Code → Instr) × (LaneMask → LaneMask → LaneMask)) :=
  [(.mset, fun _ p => p), (.mand, fun m p => m &&& p), (.mandn, fun m p => m &&& ~~~p), (.mor, fun m p => m ||| p)]

/-- What `SWRITE` of `x` does to the group, by the index (R129, R156, R157). A read-only register keeps its value. -/
def swritten (g : Group) (i : Nat) (x : DWord) : Group :=
  let w : Word := x.setWidth 32
  match i with
  | 0x000 => withEm g (x &&& g.present)
  | 0x001 => { noted g .nf (g.nf.setWidth 64) with nf := x.setWidth 16 &&& 0x7FFF }
  | 0x002 => { noted (noted g (.special 2) (g.fpc.setWidth 64)) .rm ((g.fpc &&& 3).setWidth 64) with
                 fpc := (g.fpc &&& w &&& 0x1FC) ||| (w &&& 3) }
  | 0x005 => { noted (noted g (.special 5) (g.gstat.setWidth 64)) .uc (if g.gstat.getLsbD 2 then 1 else 0) with
                 gstat := (g.gstat &&& 8) ||| (w &&& 4) ||| (g.gstat &&& w &&& 3) }
  | 0x009 => { noted g (.special 9) g.tpc with tpc := x }
  | 0x00B => { noted g (.special 0xB) g.tem with tem := x }
  | 0x010 => { noted g (.special 0x10) g.wsa with wsa := x }
  | 0x011 => { noted g (.special 0x11) (g.wss.setWidth 64) with wss := w }
  | _ => g

/-- The special registers of R156 and R411 by index. -/
def isSpecial (i : Nat) : Bool :=
  [0, 1, 2, 3, 4, 5, 6, 8, 9, 0xA, 0xB, 0xC, 0x10, 0x11, 0x12, 0x13, 0x14, 0x20, 0x21].contains i
    || (0x100 ≤ i && i < 0x140)

/-- What `SREAD` answers for a register of the group, where nothing is below its latency (R156, R157). -/
def specialRegisters (s : State) : List (Nat × DWord) :=
  let g := s.cur
  [(0x000, g.em &&& g.present), (0x001, g.nf.setWidth 64), (0x002, (g.fpc &&& 0x1FF).setWidth 64),
   (0x003, BitVec.ofNat 64 g.wb), (0x004, g.rstart), (0x005, (g.gstat &&& 0xF).setWidth 64),
   (0x006, BitVec.ofNat 64 s.team.wal), (0x008, g.tcause.setWidth 64), (0x009, g.tpc), (0x00A, g.tval), (0x00B, g.tem),
   (0x00C, g.hva), (0x010, g.wsa), (0x011, g.wss.setWidth 64), (0x012, g.wsd.setWidth 64), (0x013, 0), (0x014, 0),
   (0x020, sget 0 s.cycles g.core), (0x021, g.gcyc)]

/-! ### Groups and teams -/

/-- Every group has a number of its own, and the next number is free. -/
def Numbered (s : State) : Prop := 0 < s.fresh ∧ (s.groups.map (·.id)).Nodup ∧ ∀ g ∈ s.groups, g.id ≠ 0 ∧ g.id < s.fresh

/-- No directory is being rebuilt, every die answers, and no page is being flipped, so that no access waits for one of them (R419,
R436). -/
def NoRebuild (s : State) : Prop :=
  s.biasCmd.getLsbD 2 = false ∧ ∀ e ∈ s.dies, e.2.rebuilding = false ∧ e.2.silent = false

/-- The group in focus is the last of its team to come to a rendezvous instruction: every other live group of the team
stalls at the same instruction, none has an operation in flight, and once its region is committed no line waits in the
buffers of the team's cores (R197, R278). -/
def LastToMeet (s : State) (tm : Team) : Prop :=
  Numbered s ∧ s.u = true ∧ s.cur.id ≠ 0 ∧ s.cur.live = true ∧ s.cur.intrap = false ∧ s.team? s.cur.team = some tm
    ∧ (∀ g ∈ s.teamGroups tm.id, g.flights = [] ∧ g.pc = s.cur.pc)
    ∧ (∀ g ∈ s.others, g.team = tm.id → g.live = true →
        g.wait.isRendezvous = true ∧ ¬(g.intrap = true ∧ g.tcause.toNat = 9))
    ∧ ∀ c ∈ coresOf tm.pspan tm.core, s.endRegion.heldLine c tm.scope = false

/-- The operand that counts at a rendezvous: that of the lowest-numbered live group. -/
def meetOperand (s : State) (tm : Team) (own : DWord) : DWord :=
  match s.teamGroups tm.id with
  | [] => 0
  | g :: _ => if g.id = s.cur.id then own else g.rendezvousOperand

/-- A group has passed the rendezvous: it goes on at the next instruction, which begins a region and is a switch point. -/
def Passed (s : State) (g : Group) : Prop :=
  g.pc = s.nextPc ∧ g.rstart = s.nextPc ∧ g.wait = .none ∧ g.watchdog = 0 ∧ g.latches = 0 ∧ g.switch = true

/-- The threads of a list of groups in team order, by number. -/
def tids (gs : List Group) : List Nat := gs.flatMap fun g => g.threads.map (·.tid)

/-- The threads of a list of groups, in team order, that are active where each group's em is given by its number. -/
def activeTids (em : Nat → LaneMask) (gs : List Group) : List Nat :=
  gs.flatMap fun g => (g.threads.zipIdx.filter fun e => (em g.id).getLsbD e.2).map (·.1.tid)

/-- What the instruction at which a group stands may read as em: its value, or one before a write whose latency has not
elapsed (R156, R196). -/
def MayReadEm (g : Group) (m : LaneMask) : Prop :=
  m = g.em &&& g.present ∨ ∃ h ∈ g.hazards, h.target = .em ∧ m = h.old.getD 0 0 &&& g.present

/-- Groups that a wider grant would merge, `k` at a time, agree in wb and wsd (R198). -/
def Mergeable (k : Nat) (gs : List Group) : Prop :=
  ∀ (i j : Nat) (g h : Group), gs[i]? = some g → gs[j]? = some h → i / k = j / k → g.wb = h.wb ∧ g.wsd = h.wsd

/-! ### Window spills and fills (R161) -/

/-- The conditions under which `n` entries may be spilled, or filled. -/
def mayMove (s : State) (spill : Bool) (n : Nat) : Prop :=
  let g := s.cur
  g.intrap = true ∧ n % 2 = 0 ∧ 2 ≤ n ∧
    if spill then g.tcause = 7 ∧ (n : Int) ≤ g.tval.toInt ∧ g.tval.toInt - n + 64 ≤ s.team.wal
    else g.tcause = 8 ∧ n ≤ g.wsd.toNat ∧ 0 ≤ g.tval.toInt + n ∧ g.tval.toInt + n + 64 ≤ s.team.wal

/-- The spill area of the group in focus, as the instruction reads it: its address, and the bytes of a thread. -/
def spillArea (s : State) : DWord × Word :=
  (s.specialSeen 0x10 s.cur.wsa, (s.specialSeen 0x11 (s.cur.wss.setWidth 64)).setWidth 32)

/-- The address of entry `j` of the spill area of the thread in a lane. -/
def spillAddress (s : State) (l j : Nat) : DWord :=
  (spillArea s).1 + BitVec.ofNat 64 ((s.cur.lane l).tid) * (spillArea s).2.setWidth 64 + BitVec.ofNat 64 (4 * j)

/-- The words from entry `first` on of every thread's spill area can be reached: aligned, translated, and with no earlier
access left that theirs come after: for a spill the group's loads and the stores of the same banks (R278), for a fill the accesses to
the same lines (R67). -/
def Reachable (s : State) (acc : Access) (first n : Nat) : Prop :=
  (spillArea s).1.toNat % 4 = 0 ∧ (spillArea s).2.toNat % 4 = 0
    ∧ (acc = .store → s.cur.count 0 = 0)
    ∧ ∀ l < s.cur.threads.length, ∀ j < n,
        ∃ p, s.windowXlate acc (spillAddress s l (first + j)) = .ok p
          ∧ (if acc = .store then s.bankBusy p.pa = false else s.lineBusy (p.pa / 64) = false)

/-- The words of a spill or a fill in thread order: the lane, the entry, and the address of the word. -/
def spillWords (s : State) (first n : Nat) : List (Nat × (Nat × DWord)) :=
  (List.range s.cur.threads.length).flatMap fun l => (List.range n).map fun j => (l, (j, spillAddress s l (first + j)))

/-- An arrival at barrier `k` of the team: the count rises by the threads of the group, and where every live thread has
arrived, the phase ends and the count begins again (R200, R201). -/
def arrivedBar (s : State) (tm : Team) (k : Nat) : Barrier :=
  let b := tm.bars.getD k Barrier.zero
  let n := b.count + s.cur.threads.length
  if s.teamThreads tm.id ≤ n then ⟨b.phase + 1, 0⟩ else ⟨b.phase, n⟩

/-- The group can release at a scope: its region's translations are known, it has no access in flight that a release waits
for, and, once its region is committed, nothing of its core waits for a load or for a directory (R202, R267, R278,
R419). -/
def Releases (s : State) (scope : Nat) : Prop :=
  s.cur.walking = false ∧ s.cur.quiet = true ∧ NoRebuild s ∧ s.endRegion.heldLine s.cur.core scope = false

/-- The state once the group's region has ended and its stores have gone to the point of a scope. -/
def released (s : State) (scope : Nat) : State := s.endRegion.release scope

/-- `EXIT` may retire the group (R205): outside a handler, with every counter zero, no line of its core waiting for a load
and no deferred poison. -/
def MayExit (s : State) : Prop :=
  s.u = true ∧ s.cur.id ≠ 0 ∧ s.cur.live = true ∧ s.cur.intrap = false ∧ s.cur.flights = [] ∧ s.cur.ppath = 0
    ∧ s.heldLine s.cur.core s.team.scope = false

/-! ### Rills -/

/-- The status word of a port of a lane: filled entries in [3:0], reserved ones in [7:4], free entries outward in [14:8],
and bit 15 for an open port (R222). -/
def portStatus (s : State) (l p : Nat) : DWord :=
  let q := (s.cur.lane l).queue p
  let filled := (q.filter (·.isFilled)).length
  let free := match s.link l p with
    | some seat => 4 - (s.queueAt seat (opposite p)).length
    | none => 4
  BitVec.ofNat 64 (filled + 16 * (q.length - filled) + 256 * free + (if s.link l p = none then 2 ^ 15 else 0))

/-! ### Memory instructions (R114 to R122, R257 to R271) -/

/-- One cell of majors 15 to 19 by its kind: the instruction, the bytes of an access and the registers of its d field. -/
structure MemRow where
  kind : Nat
  instr : BitVec 2 → BitVec 3 → Code → Code → BitVec 5 → Instr
  size : Nat
  shape : Shape

def loadRows : List MemRow :=
  [⟨0, .ldB, 1, .word⟩, ⟨1, .ldH, 2, .word⟩, ⟨2, .ldW, 4, .word⟩, ⟨3, .ldD, 8, .pair⟩, ⟨4, .ldQ, 16, .quad⟩]

/-- Invariant loads, which have no order. -/
def invariantRows : List MemRow :=
  [⟨5, fun _ => .ldInvW, 4, .word⟩, ⟨6, fun _ => .ldInvD, 8, .pair⟩, ⟨7, fun _ => .ldInvQ, 16, .quad⟩]

def storeRows : List MemRow :=
  [⟨0, .stB, 1, .word⟩, ⟨1, .stH, 2, .word⟩, ⟨2, .stW, 4, .word⟩, ⟨3, .stD, 8, .pair⟩, ⟨4, .stQ, 16, .quad⟩]

/-- The atomics with their operation; a compare-and-swap takes its two values from a field twice as wide. -/
def atomicRows : List (MemRow × (Nat × AtomOp)) :=
  [(⟨0, .atAddW, 4, .word⟩, (17, .add)), (⟨1, .atAddD, 8, .pair⟩, (17, .add)), (⟨2, .atMinW, 4, .word⟩, (17, .min)),
   (⟨3, .atMaxW, 4, .word⟩, (17, .max)), (⟨4, .atMinuW, 4, .word⟩, (17, .minu)), (⟨5, .atMaxuW, 4, .word⟩, (17, .maxu)),
   (⟨6, .atSwapW, 4, .word⟩, (17, .swap)), (⟨7, .atCasW, 4, .pair⟩, (17, .cas)), (⟨0, .atAndW, 4, .word⟩, (18, .and)),
   (⟨1, .atOrW, 4, .word⟩, (18, .or)), (⟨2, .atXorW, 4, .word⟩, (18, .xor)), (⟨3, .atSwapD, 8, .pair⟩, (18, .swap)),
   (⟨4, .atCasD, 8, .quad⟩, (18, .cas)), (⟨5, .atFaddF32, 4, .word⟩, (18, .fadd)), (⟨6, .atFminF32, 4, .word⟩, (18, .fmin)),
   (⟨7, .atFmaxF32, 4, .word⟩, (18, .fmax))]

def scratchLoadRows : List MemRow :=
  [⟨0, fun _ _ => .sldW, 4, .word⟩, ⟨1, fun _ _ => .sldD, 8, .pair⟩, ⟨2, fun _ _ => .sldQ, 16, .quad⟩]

def scratchStoreRows : List MemRow :=
  [⟨4, fun _ _ => .sstW, 4, .word⟩, ⟨5, fun _ _ => .sstD, 8, .pair⟩, ⟨6, fun _ _ => .sstQ, 16, .quad⟩]

/-- The instruction as it stands in issue: alone, with its 5-bit offset, or as the second word of a prefix pair, whose
offset is the sign-extended combination of the two immediates (R32, R74, R77). -/
def inIssue (major : Nat) (r : MemRow) (imm : Option (BitVec 27)) (ord : BitVec 2) (scope : BitVec 3) (d a : Code)
    (off : BitVec 5) : Instr :=
  match imm with
  | none => r.instr ord scope d a off
  | some x => .pfx x (some (.mem (BitVec.ofNat 5 major) (BitVec.ofNat 3 r.kind) ord scope d a off))

def offsetUnits (imm : Option (BitVec 27)) (off : BitVec 5) : DWord :=
  match imm with
  | none => off.setWidth 64
  | some x => (x ++ off : BitVec (27 + 5)).signExtend 64

/-- The second word of a pair carries no schedule of its own (R66). -/
def issueOk (s : State) (imm : Option (BitVec 27)) : Prop := imm = none ∨ s.issue.pairOk = true

/-- The form is uniform: its d field names an s-register, or its half-word says so. -/
def isUniform (s : State) (d : Code) : Bool := isS d.toNat || s.u

/-- The bit 12 of the half-word agrees with the d field (R58). -/
def kindOk (s : State) (d : Code) : Prop :=
  (isS d.toNat = true → s.u = true) ∧ (isV d.toNat = true ∨ isPort d.toNat = true → s.u = false)

/-- The base field names an s-register, or in a per-thread form an even v-register pair (R74). -/
def baseField (s : State) (d a : Code) : Prop :=
  isS a.toNat = true ∨ (isUniform s d = false ∧ isV a.toNat = true ∧ a.toNat % 2 = 0)

/-- The lanes that make an access: the active ones, or lane 0 alone in the uniform form. -/
def accessing (s : State) (d : Code) : List Nat := if isUniform s d then [0] else s.lanesOf s.em

/-- The address of a lane: the base and the offset in access units (R114). -/
def address (s : State) (a : Code) (units : DWord) (size l : Nat) : DWord := s.base l a.toNat + units * BitVec.ofNat 64 size

/-- Every access is aligned, lies in the address space, and translates to a place (R116). -/
def Accessible (s : State) (acc : Access) (size : Nat) (d a : Code) (units : DWord) : Prop :=
  ∀ l ∈ accessing s d, let va := address s a units size l
    va.toNat % size = 0 ∧ canonical va = true ∧ ∃ p, s.xlate acc va = .ok p

/-- The state after the translations of the accesses: they set accessed and dirty bits and are cached (R252). -/
def translated (s : State) (acc : Access) (size : Nat) (d a : Code) (units : DWord) : State :=
  (accessing s d).foldl (fun t l => t.settleVa acc (address s a units size l)) s

/-- The accesses in flight are those of the lanes, at the places that their addresses translate to, with their operands. -/
def AccessesOf (s : State) (acc : Access) (size : Nat) (d a : Code) (units : DWord) (opnd : Nat → Nat)
    (lanes : List LaneAcc) : Prop :=
  lanes.map (·.lane) = accessing s d
    ∧ ∀ x ∈ lanes, x.va = address s a units size x.lane ∧ s.xlate acc x.va = .ok ⟨x.pa, x.home, x.tbl⟩
        ∧ x.opnd.toNat = opnd x.lane % 2 ^ (8 * size) % 2 ^ 64
        ∧ x.opnd2.toNat = opnd x.lane / 2 ^ (8 * size) % 2 ^ 64

/-- Some access crosses a Pomas link at the scope (R415). -/
def crossing (s : State) (acc : Access) (scope size : Nat) (d a : Code) (units : DWord) : Bool :=
  (accessing s d).any fun l =>
    match s.xlate acc (address s a units size l) with
    | .ok p => crossesLink s.cur.core scope p.home p.pa
    | _ => false

/-- An access that is a synchronisation transaction finds room: the core holds fewer than 32 outstanding (R416). -/
def SyncRoom (s : State) (acc : Access) (scope size : Nat) (d a : Code) (units : DWord) : Prop :=
  size ≤ 8 → crossing s acc scope size d a units = true → s.syncOpen s.cur.core < 32

/-- The registers that a load or a scratchpad load reads hold no error (R424). -/
def SoundBase (s : State) (d a : Code) : Prop := Sound s (accessing s d) (baseSrcs a.toNat)

/-- The same for an instruction that also reads its d field. -/
def SoundData (s : State) (shape : Shape) (d a : Code) : Prop :=
  Sound s (accessing s d) (shape.srcs d.toNat ++ baseSrcs a.toNat)

/-- Where the old value of an atomic goes: the registers of its size, or, for a compare-and-swap of 4 bytes in the uniform
form, the low half of the s-register alone (R259, R261). -/
def atomicDst (s : State) (op : AtomOp) (size d : Nat) : Dst :=
  let handler := s.cur.intrap && decide (24 ≤ d - 64 ∧ d - 64 < 32)
  let first := if handler then d - 88 else d - 64
  if isV d then .v (s.cur.wb + d) (size / 4)
  else if op = .cas ∧ size = 4 then .sLow handler first
  else .s handler first 1

/-- The registers that a d field of a shape names as a destination. -/
def dstOf (s : State) (shape : Shape) (d : Nat) : Dst :=
  let words := match shape with
    | .word => 1
    | .pair => 2
    | .quad => 4
  if isV d then .v (s.cur.wb + d) words
  else if isS d then
    (if s.cur.intrap = true ∧ 24 ≤ d - 64 ∧ d - 64 < 32 then .s true (d - 88) (if words = 4 then 2 else 1)
     else .s false (d - 64) (if words = 4 then 2 else 1))
  else if isPort d then .port (d - 100)
  else .none

/-- The registers of every lane and the special registers are as before, but for gstat.LATCHLOST (R63). -/
def RegistersKept (s t : State) : Prop :=
  (∀ l < s.cur.threads.length, (t.cur.lane l).stack = (s.cur.lane l).stack ∧ (t.cur.lane l).pred = (s.cur.lane l).pred
      ∧ (t.cur.lane l).tid = (s.cur.lane l).tid)
    ∧ t.cur.sregs = s.cur.sregs ∧ t.cur.hregs = s.cur.hregs ∧ t.cur.em = s.cur.em ∧ t.cur.nf = s.cur.nf
    ∧ t.cur.fpc = s.cur.fpc ∧ t.cur.wb = s.cur.wb ∧ (t.cur.gstat = s.cur.gstat ∨ t.cur.gstat = s.cur.gstat ||| 1)
    ∧ t.cur.tcause = s.cur.tcause ∧ t.cur.tpc = s.cur.tpc ∧ t.cur.tval = s.cur.tval ∧ t.cur.tem = s.cur.tem
    ∧ t.cur.hva = s.cur.hva

/-- A memory instruction is over: 0 enters b0, it is a progress point, and one more operation of its path is in flight. After an
acquire the group is held until that operation has returned (R267). -/
def Begun (s t : State) (acquire : Bool) (path : Nat) (kind : FlightKind) : Prop :=
  MovedOn s t.cur s.nextPc (fun _ => 0) ∧ Latched s t.cur acquire ∧ t.cur.watchdog = 0 ∧ RegistersKept s t
    ∧ t.cur.flights = s.cur.flights ++ [newFlight s path kind] ∧ t.cur.nextTag = s.cur.nextTag + 1

def AccessBegun (s t : State) (path : Nat) (kind : FlightKind) : Prop := Begun s t false path kind

/-- No bytes that the core holds dirty below the point of a scope are narrower than the scope: they have been pushed (R266, R267). A
page in host bias has no copies (R435). -/
def NothingNarrow (t : State) (core scope : Nat) : Prop :=
  ∀ c ∈ t.copies, (Agent.ofCore core).onPath c = true → c.level < pointLevel scope → c.dirty ≠ 0 → t.inHostBias c.line = false →
    scope ≤ c.reg

/-- The destination of a load: the field is a destination of the shape. -/
def loadField (s : State) (shape : Shape) (d : Code) : Prop := shape.dstOk (isUniform s d) d.toNat = true

/-- The ports of a store's data field. -/
def storePops (shape : Shape) (d : Code) : List Nat := if shape = .word ∧ isPort d.toNat = true then [d.toNat - 100] else []

/-- The entries of the region store buffer that the lanes' stores make, in lane order (R68, R277). -/
def buffered (s : State) (size scope : Nat) (shape : Shape) (d a : Code) (units : DWord) (buf : List StoreLine) : List StoreLine :=
  bufferStores size scope s.cur.loadTags buf ((accessing s d).filterMap fun l =>
    match s.xlate .store (address s a units size l) with
    | .ok p => some (s.storeData shape l d.toNat, p)
    | _ => none)


/-! ### Moves of the device -/

/-- Every group but one is as before. -/
def OtherGroups (s t : State) (g : Nat) : Prop := ∀ h, h ≠ g → t.group? h = s.group? h

/-- The group is as before, but for a monitor that may have fired (R274). -/
def AsBefore (x y : Group) : Prop :=
  y = x ∨ ∃ line scope entry, x.wait = .waitv line scope entry false ∧ y = { x with wait := .waitv line scope entry true }

/-- Every group is as before, but for monitors. -/
def GroupsStay (s t : State) : Prop := AsBefore s.cur t.cur ∧ List.Forall₂ AsBefore s.others t.others

/-- Every group but one is as before, but for monitors. -/
def OthersStay (s t : State) (g : Nat) : Prop :=
  ∀ h x, h ≠ g → s.group? h = some x → ∃ y, t.group? h = some y ∧ AsBefore x y

/-- Each cache of a core up to a scope's point has a way for a line: no other line has to leave (R237). -/
def HasWays (s : State) (core scope line : Nat) : Prop :=
  ∀ lvl ≤ pointLevel scope, ∀ u, (Agent.ofCore core).unit lvl = some u → s.hasWay lvl u line = true

/-- Group `g` has become `y`, and nothing else in the machine has changed. -/
def GroupBecomes (s t : State) (g : Nat) (y : Group) : Prop :=
  t = { s with cur := t.cur, others := t.others } ∧ t.group? g = some y ∧ OtherGroups s t g

/-- Group `g` has taken a trap at its own instruction, and memory and the other groups are as before. -/
def GroupTraps (s t : State) (g : Nat) (x : Group) (cause : Nat) (tval : DWord) : Prop :=
  t.mem = s.mem ∧ t.teams = s.teams ∧ t.launches = s.launches ∧ OtherGroups s t g
    ∧ ∃ y, t.group? g = some y ∧ y.tcause = BitVec.ofNat 8 cause ∧ y.tpc = x.pc ∧ y.tval = tval ∧ y.tem = x.em
      ∧ y.em = x.present ∧ y.gstat = x.gstat ||| 8 ∧ y.pc = x.hva ∧ y.rstart = x.hva ∧ y.watchdog = 0

/-- The words of numbers, in the stacks of their lanes from an entry on. -/
def WordsDelivered (x y : Group) (first words : Nat) (vals : List (Nat × Nat)) : Prop :=
  (vals.map (·.1)).Nodup → ∀ e ∈ vals, e.1 < x.threads.length →
    ∀ i < words, sget 0 (y.lane e.1).stack (first + i) = BitVec.ofNat 32 (e.2 / 2 ^ (32 * i))

/-- An operation in flight is over, or has lanes left. -/
def flightAfter (f : Flight) (rest : Bool) (kind : FlightKind) : Option Flight := if rest then some { f with kind := kind } else none

/-- What an access of a load returns: the bytes that its core sees, under the group's own earlier stores (R67, R117). -/
def loaded (s : State) (x : Group) (scope size : Nat) (a : LaneAcc) : Nat :=
  leNat (overlay a.fwd (s.loadBytes (Agent.ofCore x.core) scope a.home a.pa size).1)

/-- The lanes of a mask of an operation of group `g` may return: nothing that has to come first is left, no rebuild holds them,
and each cache that does not serve them answers them first (R240, R241, R267, R278, R419). -/
def MayReturn (s : State) (g : Nat) (f : Flight) (m : LaneMask) (scope : Nat) (atomic : Bool) (accs : List LaneAcc) : Prop :=
  (s.focus g).canReturn f m = true ∧ (s.focus g).answered f scope atomic (pickLanes m accs) = true

/-- A die of the device with its registers. -/
def IsDie (s : State) (n : Nat) (d : Die) : Prop :=
  n < 16 ∧ s.fuses.dmask.getLsbD n = true ∧ s.dies.find? (·.1 == n) = some (n, d)

/-- One die changes; a lease of a die that may not lead any more is withdrawn (R408). -/
def DieLeases (s t : State) (n : Nat) (d : Die) : Prop :=
  t = { s with dies := t.dies, queues := t.queues } ∧ t.die n = d ∧ (∀ k, k ≠ n → t.die k = s.die k)
    ∧ ∀ q, t.queue q = { s.queue q with leader := (s.queue q).leader.filter t.mayLead }

/-- One die changes, and nothing else. -/
def DieBecomes (s t : State) (n : Nat) (d : Die) : Prop :=
  t = { s with dies := t.dies } ∧ t.die n = d ∧ ∀ k, k ≠ n → t.die k = s.die k

/-! ### The matrix array -/

/-- An s-register pair. -/
def pairField (a : Code) : Prop := 64 ≤ a.toNat ∧ a.toNat ≤ 94 ∧ a.toNat % 2 = 0

/-- The operand formats of nf agree: one IEEE format, or two block formats (R305). -/
def formatsAgree (s : State) : Prop :=
  let a := s.nfSeen.toNat % 16
  let b := s.nfSeen.toNat / 16 % 16
  (a < 4 ∧ a = b) ∨ (4 ≤ a ∧ a ≤ 10 ∧ 4 ≤ b ∧ b ≤ 10)

/-- The output format of nf. -/
def outFormat (s : State) : Nat := s.nfSeen.toNat / 256 % 16

/-- A matrix cell: its instruction, whether it is uniform, its fields, whether it ends the region, the ports it pops and
the one it pushes. -/
structure MtxRowOf where
  instr : Code → Code → Code → Instr
  uniform : Bool
  fields : State → Code → Code → Code → Prop
  ends : Bool
  pops : Code → List Nat
  push : Code → Option Nat

/-- A uniform cell without ports. -/
def uniformCell (instr : Code → Code → Code → Instr) (fields : State → Code → Code → Code → Prop) : MtxRowOf :=
  { instr := instr, uniform := true, fields := fields, ends := true, pops := fun _ => [], push := fun _ => none }

def matrixRows : List MtxRowOf :=
  [uniformCell .mma fun s d a b => d.toNat < 8 ∧ pairField a ∧ pairField b ∧ formatsAgree s,
   uniformCell .mmaAcc fun s d a b => d.toNat < 8 ∧ pairField a ∧ pairField b ∧ formatsAgree s,
   uniformCell .mmaSacc fun s d a b => d.toNat < 8 ∧ pairField a ∧ pairField b ∧ b.toNat ≤ 92 ∧ formatsAgree s,
   uniformCell (fun d _ _ => .mzero d) fun _ d _ _ => d.toNat < 8,
   uniformCell (fun d a _ => .mscl d a) fun _ d a _ => d.toNat < 8 ∧ isS a.toNat = true,
   uniformCell (fun d a _ => .mmov d a) fun _ d a _ => d.toNat < 8 ∧ a.toNat < 8,
   uniformCell (fun d a _ => .msto d a) fun s d a _ => d.toNat < 8 ∧ pairField a ∧ outFormat s ≤ 10,
   uniformCell (fun d a _ => .mlda d a) fun _ d a _ => d.toNat < 8 ∧ pairField a,
   { instr := .mrd, uniform := false,
     fields := fun s d a b => (isV d.toNat = true ∨ isPort d.toNat = true) ∧ a.toNat < 8 ∧ uniformSrc b.toNat = true
       ∧ 1 ≤ outFormat s ∧ outFormat s ≤ 3,
     ends := false, pops := fun _ => [], push := fun d => if isPort d.toNat then some (d.toNat - 100) else none },
   { instr := .mwr, uniform := false,
     fields := fun s d a b => d.toNat < 8 ∧ (isV a.toNat = true ∨ isPort a.toNat = true) ∧ uniformSrc b.toNat = true
       ∧ 1 ≤ outFormat s ∧ outFormat s ≤ 3,
     ends := true, pops := fun a => if isPort a.toNat then [a.toNat - 100] else [], push := fun _ => none }]

/-- The cells that only change an accumulator, with what they are once accepted. -/
def simpleCells (x : Group) (d a : Code) : List (Instr × MtxOp) :=
  [(.mzero d, .zero d.toNat), (.mscl d a, .scale d.toNat (toA80 f64 (x.sreg (a.toNat - 64)).toNat)),
   (.mmov d a, .move d.toNat a.toNat)]

/-- The cell at which group `g` stalls is the one of its team that may be accepted: it has stalled longest, no cell of the context
is in progress, and nothing stops the group (R324). -/
def CellReady (s : State) (g n : Nat) (w : Word) (pins : Option (List Nat)) (i : Instr) (x : Group) (tm : Team) : Prop :=
  Numbered s ∧ s.group? g = some x ∧ x.live = true ∧ x.fault = none ∧ s.team? x.team = some tm ∧ tm.stopping = false
    ∧ tm.mtxBusy = none ∧ x.wait = .mtx n w pins ∧ decodeWord w = .ok i
    ∧ ((s.focus g).oldestCell tm.id).map (·.id) = some g

/-- The state in which that cell is accepted: its group in focus, the cell in issue. -/
def atCell (s : State) (g : Nat) (w : Word) : State :=
  { s.focus g with issue := (s.focus g).cellSlot w, draws := s.draws + 1 }

/-- The cell has been accepted: it is the operation in progress of its context, in flight on mtx, and its group goes on; the next
region begins there where the cell ends its own (R324, R338). -/
def CellTaken (s t : State) (g : Nat) (x : Group) (tm : Team) (op : MtxOp) (flags : BitVec 7) (ends : Bool) : Prop :=
  ∃ y, t.group? g = some y ∧ y.pc = x.pc + 4 ∧ y.wait = .none ∧ y.rstart = (if ends then x.pc + 4 else x.rstart)
    ∧ y.flights = x.flights ++ [{ tag := x.nextTag, path := 4, pc := x.pc, walking := false, fva := 0, finfo := 0,
                                   done := false, born := s.draws + 1, after := [], kind := .mtx op flags }]
    ∧ t.team? tm.id = some { tm with mtxBusy := some (g, x.nextTag) }

/-- The row and the first column that the selector of a row move names (R335). -/
def moveRow (x : DWord) : Nat := x.toNat % 32
def moveCol (x : DWord) : Nat := x.toNat / 32 % 64

/-- What `MRD` reads in each lane: its element in the output format of nf, with its flags; 0 past the last column (R335). -/
def rowRead (u : State) (acc : Nat) (sel : DWord) : List (Nat × (Nat × FpFlags)) :=
  (u.lanesOf u.em).map fun l =>
    (l, if moveCol sel + l < 64 then
          cvtOut (fmtOf (BitVec.ofNat 2 (outFormat u))) ((u.nfSeen.toNat / 2 ^ 12 % 4 : Nat) : BitVec 2) (u.nfSeen.getLsbD 14)
            (u.team.element acc (moveRow sel) (moveCol sel + l))
        else (0, 0))

/-- What `MWR` writes: each active lane's word, in the output format of nf, to the element of the lane's column (R335). -/
def rowWritten (u : State) (a : Code) (sel : DWord) : List (Nat × A80) :=
  let f := fmtOf (BitVec.ofNat 2 (outFormat u))
  ((u.lanesOf u.em).filter fun l => moveCol sel + l < 64).map fun l =>
    (64 * moveRow sel + (moveCol sel + l), toA80 f ((u.source l [] 0 ⟨a.toNat, .w⟩).toNat % 2 ^ f.width))

/-- The flags of several conversions together. -/
def flagsOf (fs : List FpFlags) : FpFlags := fs.foldl (· ||| ·) 0

/-- Element (i, j) of an accumulator after a simple cell (R333, R334). -/
def simpleElement (op : MtxOp) (tm : Team) (i j : Nat) : A80 :=
  match op with
  | .zero _ => 0
  | .scale acc factor => mul80 factor (tm.element acc i j)
  | .move _ src => tm.element src i j
  | _ => 0

/-- The rows of an operand hold the bytes that they have held since acceptance, and no poison (R332). -/
def unchanged (s : State) (a : Agent) (rows : List MtxRow) : Prop :=
  ∀ r ∈ rows, r.old = s.rowBytes a r.segs ∧ s.rowPast (a.cluster.getD 0) r.since 0 r.segs = [] ∧ r.poison = []
    ∧ s.rowPoison a r.segs = []

/-- The rows of an operand, by their bytes. -/
def rowOf (rows : List MtxRow) (i : Nat) : List Byte := ((rows[i]?).map (·.old)).getD []

/-! ### Engines -/

/-- The last bytes written to a place are what an access of its scope reads there. -/
def Holds (t : State) (a : Agent) (scope : Nat) (home : Home) (pa n x : Nat) : Prop :=
  (t.loadBytes a scope home pa n).1 = leBytes n x

/-- No rebuild and no flip holds a place that a command accesses, be it a read or a write (R419, R436). -/
def Unheld (s : State) (c : Command) (xs : List Spot) : Prop := ∀ x ∈ xs, ∀ write, s.spotHeld c.agent write c.scope x = false

/-- The command has become `c`. -/
def CommandBecomes (t : State) (id : Nat) (c : Command) : Prop := t.command? id = some c

/-- An instruction that ends its region and puts nothing else of the group in play is over. -/
def EngineEnded (s t : State) : Prop :=
  GoesOn s t.cur s.nextPc (fun _ => 0) ∧ RegistersKept s t ∧ t.cur.rstart = s.nextPc ∧ t.cur.watchdog = 0

/-- A word of a counter after one more command with `r` errors (R353): done in [47:0], err in [63:48], saturating. -/
def counted48 (r old : Nat) : Nat := (old % 2 ^ 48 + 1) % 2 ^ 48 + Nat.min (old / 2 ^ 48 % 2 ^ 16 + r) 0xFFFF * 2 ^ 48

/-! ### Fields that are refused -/

/-- The instruction takes the trap of `cause` before it has any effect, with its word in tval (R103). -/
def Refused (i : Instr) (s : State) (cause : Nat) : Prop :=
  ∃ t, exec i s = .next t ∧ Trapped s t s.cur cause s.cur.pc (s.issue.word.setWidth 64)

/-- A row of kind D is an illegal instruction under the other kind of half-word (R58), and an illegal operand where a field
names nothing valid (R53, R78); where a source holds an error that its code cannot correct, a launch that takes poison traps
takes one with tval 1 (R364, R424). -/
def Row.refusals (r : Row) : Prop :=
  ∀ (d a b : Code) (s : State), canTrap s →
    (isS d.toNat = true → s.u = false → Refused (r.instr d a b) s 1)
    ∧ (isV d.toNat = true ∨ isPort d.toNat = true → s.u = true → Refused (r.instr d a b) s 1)
    ∧ (kindOk s d → (r.dst.ok s.u d.toNat && (r.srcs d a b).all (Src.ok s.u)) = false → Refused (r.instr d a b) s 2)
    ∧ (kindOk s d → (r.dst.ok s.u d.toNat && (r.srcs d a b).all (Src.ok s.u)) = true → s.launch.record.poison = true →
        ¬Sound s (if s.u then [0] else s.lanesOf s.em) (r.srcs d a b) →
        ∃ t, exec (r.instr d a b) s = .next t ∧ Trapped s t s.cur 10 s.cur.pc 1)

/-- A row of kind T is an illegal instruction under the half-word of a uniform instruction, and an illegal operand where a
field names nothing valid. -/
def Row.threadRefusals (r : Row) : Prop :=
  ∀ (d a b : Code) (s : State), canTrap s →
    (s.u = true → Refused (r.instr d a b) s 1)
    ∧ (s.u = false → (r.dst.ok false d.toNat && (r.srcs d a b).all (Src.ok false)) = false → Refused (r.instr d a b) s 2)

/-- A word of format A (R70): major, fn6, d, a, b. -/
def wordA (major : BitVec 5) (fn : BitVec 6) (d a b : Code) : Word := major ++ fn ++ d ++ a ++ b

end Sys2Proof.Spec

open Sys2Proof Sys2Proof.Machine Sys2Proof.Spec

/-! ### Instructions that compute a value -/

/-- R106, R107: every 32-bit integer instruction of fixed latency completes with the result of its row in each of its
forms, and changes nothing else; where its half-word or a field is not valid it traps. -/
def Obligations.IntegerResults : Prop := ∀ r ∈ integerRows, r.forms ∧ r.refusals

/-- R109: the 64-bit and address instructions. -/
def Sys2Proof.Spec.LongArithmetic : Prop := ∀ r ∈ longRows, r.forms ∧ r.refusals

/-- R110, R111: `ADDI` and `LIM`, for every immediate. -/
def Sys2Proof.Spec.ImmediateResults : Prop := ∀ imm13 imm20, ∀ r ∈ immediateRows imm13 imm20, r.forms ∧ r.refusals

/-- R109 to R111: the 64-bit and address instructions, and `ADDI` and `LIM` for every immediate. -/
def Obligations.LongResults : Prop := LongArithmetic ∧ ImmediateResults

/-- R108: the divisions put their result in flight on lng; they never trap on their operands. -/
def Sys2Proof.Spec.DivisionsInFlight : Prop := ∀ r ∈ divisionRows, r.longForms

/-- R135, R136, R140: the arithmetic of the four formats, with the flags of every lane. -/
def Obligations.FloatResults : Prop := ∀ fmt, ∀ r ∈ floatRows fmt, r.forms

/-- R137, R138: division, square root and the approximations put their result in flight on lng. -/
def Sys2Proof.Spec.FloatInFlight : Prop := ∀ fmt, ∀ r ∈ floatLongRows fmt, r.longForms

/-- R108, R137, R138: divisions, square root and the approximations put their result in flight on lng; they never trap on
their operands. -/
def Obligations.LongLatency : Prop := DivisionsInFlight ∧ FloatInFlight

/-- R141 to R145, R307 to R309: conversions, integral rounding and the block instructions. -/
def Obligations.ConversionResults : Prop := ∀ dst from_, ∀ r ∈ convertRows dst from_, r.forms

/-- R112, R147: a compare writes one predicate in each active lane and nothing else. -/
def Sys2Proof.Spec.CompareResults : Prop := ∀ type fmt, ∀ r ∈ compareRows type fmt, r.threadForm ∧ r.portForm ∧ r.threadRefusals

/-- R113: the predicate instructions and `SEL`. -/
def Sys2Proof.Spec.PredicateLogic : Prop := ∀ k, ∀ r ∈ predicateRows k, r.threadForm ∧ r.portForm ∧ r.threadRefusals

/-- R112, R113, R147: compares and predicate instructions write one predicate in each active lane, `SEL` a word, and nothing
else. -/
def Obligations.PredicateResults : Prop := CompareResults ∧ PredicateLogic

/-! ### Cross-lane instructions -/

/-- R188: the four pulls read every source before any result is written; a lane that is not active gives 0. -/
def Sys2Proof.Spec.PullResults : Prop :=
  ∀ k < 4, ∀ d a b : Code,
    threadForm (pullInstr k d a b) (two d a b) .v d.toNat 6 (pullVal k d a b)
      ∧ portForm (pullInstr k d a b) (two d a b) .v d.toNat (pullVal k d a b)
      ∧ ∀ s : State, canTrap s → s.u = false →
          (DstCls.ok false d.toNat .v && (two d a b).all (Src.ok false)) = false → Refused (pullInstr k d a b) s 2

/-- R189, R190: `RDLANE` gives every active lane the word of one lane, or writes it once into an s-register; `WRLANE` writes
one lane alone. -/
def Sys2Proof.Spec.OneLaneWrites : Prop :=
  ∀ d a b : Code, uniformSrc b.toNat = true →
    let picked : State → DWord × FpFlags := fun s => (ofLane s [⟨a.toNat, .v⟩] 0 (s.wide 1 b).toNat, 0)
    let srcs : List Src := [⟨a.toNat, .v⟩, ⟨b.toNat, .wide⟩]
    threadForm (.rdlane d a b) srcs (.w .zero) d.toNat 6 (fun s _ => picked s)
      ∧ portForm (.rdlane d a b) srcs (.w .zero) d.toNat (fun s _ => picked s)
      ∧ uniformDest (.rdlane d a b) srcs (.w .zero) d.toNat picked
      ∧ ∀ s : State, s.u = false → isV d.toNat = true → Src.ok false ⟨a.toNat, .w⟩ = true → isPort a.toNat = false →
          let m : LaneMask := if (s.wide 1 b).toNat < 64 then s.em &&& (1 <<< (s.wide 1 b).toNat) else 0
          Sound s (s.lanesOf m) [⟨a.toNat, .w⟩, ⟨b.toNat, .wide⟩] →
          ∃ t, exec (.wrlane d a b) s = .next t
            ∧ ThreadEffect s t .v d.toNat 6 m [a.toNat] (fun l => (src (s.sources l 0 [] [⟨a.toNat, .w⟩]) 0, 0))

/-- R190: `WRLANE` with a port as source pops it in the lane written alone. -/
def Sys2Proof.Spec.OneLanePops : Prop :=
  ∀ (d a b : Code) (s : State), uniformSrc b.toNat = true → s.u = false → isV d.toNat = true → isPort a.toNat = true →
    s.cur.id ≠ 0 → s.cur.walking = false →
    let m : LaneMask := if (s.wide 1 b).toNat < 64 then s.em &&& (1 <<< (s.wide 1 b).toNat) else 0
    s.rillBlocked m [a.toNat - 100] none = none → Sound s (s.lanesOf m) [⟨a.toNat, .w⟩, ⟨b.toNat, .wide⟩] →
    ∃ t, exec (.wrlane d a b) s = .next t ∧ t.mem = s.mem ∧ t.cur.rstart = s.nextPc
      ∧ LanesWritten s t .v d.toNat m (fun l => src (s.sources l 0 [] [⟨a.toNat, .w⟩]) 0)
      ∧ QueuesMoved s t m [a.toNat - 100] none (fun _ => .ready 0)

/-- R189, R190: reading one lane, and writing one lane alone, with a port as source too. -/
def Obligations.OneLaneResults : Prop := OneLaneWrites ∧ OneLanePops

/-- R191, R192: `LMASK` gives the set of active lanes whose predicate is 1, as a pair, in an s-register or only in b0; `LANY`
and `LALL` write the same truth value in every active lane, `LSAME` each lane's own. That `LMASK` with the code nul completes and gives
its set to b0 alone is the model's choice (log entry 66); R191 says nothing of nul. -/
def Sys2Proof.Spec.VoteValues : Prop :=
  (∀ r ∈ voteRows, ∀ d a : Code, threadForm (r.instr d a) (r.srcs a) r.dst d.toNat 6 (fun s _ => r.value s a))
    ∧ (∀ d a b : Code,
        threadForm (.lsame d a) (one d a b) .pred d.toNat 6 (fun s l => (truth (sameAsFirst s a l), 0))
          ∧ portForm (.lsame d a) (one d a b) .pred d.toNat (fun s l => (truth (sameAsFirst s a l), 0)))
    ∧ (∀ d a : Code, threadForm (.lmask d a) [⟨a.toNat, .pred⟩] .pair d.toNat 6 (fun s _ => (ballotMask s a, 0))
        ∧ uniformDest (.lmask d a) [⟨a.toNat, .pred⟩] .pair d.toNat (fun s => (ballotMask s a, 0)))
    ∧ ∀ (a : Code) (s : State), s.u = false → a.toNat < 32 → Sound s (s.lanesOf s.em) [⟨a.toNat, .pred⟩] →
        ∃ t, exec (.lmask 127 a) s = .next t
          ∧ Ended s t s.cur s.nextPc (fun l => if s.em.getLsbD l then ballotMask s a else 0)

/-- R191, R192: the fields of these instructions that name nothing valid are illegal operands: an odd v-register for the pair
of `LMASK`, and a predicate number above 31. -/
def Sys2Proof.Spec.VoteRefusals : Prop :=
  ∀ (d a : Code) (s : State), canTrap s → s.u = false →
    ((isV d.toNat = true ∧ d.toNat % 2 = 1) ∨ 32 ≤ a.toNat → Refused (.lmask d a) s 2)
    ∧ (32 ≤ d.toNat ∨ 32 ≤ a.toNat → Refused (.lany d a) s 2 ∧ Refused (.lall d a) s 2)
    ∧ (32 ≤ d.toNat ∨ 114 ≤ a.toNat → Refused (.lsame d a) s 2)

/-- R191, R192: ballots and votes. `LMASK` with nul is the model's choice (log entry 66). -/
def Obligations.VoteResults : Prop := VoteValues ∧ VoteRefusals

/-- R193, R195: the reductions, by the tree over the grant, to every active lane, to a port, or once to an s-register. -/
def Obligations.ReductionResults : Prop :=
  ∀ r ∈ reduceRows ++ reduceFloatRows, ∀ d a : Code,
    threadForm (r.instr d a) (r.srcs a) r.dst d.toNat 6 (fun s _ => r.value s a)
      ∧ portForm (r.instr d a) (r.srcs a) r.dst d.toNat (fun s _ => r.value s a)
      ∧ uniformDest (r.instr d a) (r.srcs a) r.dst d.toNat (fun s => r.value s a)

/-- R193, R195: over a grant of 16, 32 or 64 lanes, the tree of an associative and commutative function gives the fold of the
words of the lanes in ascending order, whichever lanes are absent; with none it gives nothing. -/
def Obligations.TreeIsFold : Prop :=
  ∀ f : Word → Word → Word, (∀ x y z, f (f x y) z = f x (f y z)) → (∀ x y, f x y = f y x) →
    ∀ k ∈ [4, 5, 6], ∀ xs : List (Nat × Word), xs.Pairwise (fun x y => x.1 < y.1) → (∀ x ∈ xs, x.1 < 2 ^ k) →
      reduceOver (2 ^ k) (combInt f) loneInt (xs.map fun e => (e.1, e.2.setWidth 64))
        = ((match xs.map (·.2) with
            | [] => none
            | x :: rest => some (rest.foldl f x)), 0)

/-- R194: the inclusive scans, in ascending lane order. -/
def Sys2Proof.Spec.ScanResults : Prop :=
  ∀ d a : Code,
    threadForm (.scanAdd d a) [⟨a.toNat, .v⟩] .v d.toNat 6 (scanVal (combInt fun x y => x + y) loneInt · a ·)
      ∧ threadForm (.scanFaddF32 d a) [⟨a.toNat, .v⟩] .v d.toNat 6
          (fun s l => scanVal (combF32 (f32.add s.rmSeen)) loneF32 s a l)

/-- R188, R194: the four pulls and the inclusive scans. -/
def Obligations.PullAndScanResults : Prop := PullResults ∧ ScanResults

/-! ### Control and system instructions -/

/-- R163, R164: `NOP` only goes on; after `ISYNC` the group fetches no value of code that an
earlier prefetch may have taken. -/
def Sys2Proof.Spec.NopAndIsync : Prop :=
  ∀ s : State, s.u = true →
    (∃ t, exec .nop s = .next t ∧ Ended s t s.cur s.nextPc (fun _ => 0))
      ∧ ∃ t, exec .isync s = .next t
          ∧ Ended s t { s.cur with codeTime := s.draws } s.nextPc (fun _ => 0)

/-- R149, R378: a branch goes to its target, counted in words from the next instruction, where its condition holds, and to
the next instruction where it does not; a transfer that is not forward counts for the watchdog. -/
def Obligations.BranchResults : Prop :=
  ∀ cond < 6, ∀ (off : BitVec 23) (s : State), s.u = true →
    ∃ t, exec (branchInstr cond off) s = .next t ∧
      let target := s.nextPc + BitVec.ofInt 64 (4 * off.toInt)
      if taken s cond then Ended s t (transferred s.cur target) target (fun _ => 0)
      else Ended s t s.cur s.nextPc (fun _ => 0)

/-- R152: `CALL` writes the link, moves the window and goes to its target, or takes the window-overflow trap; `CALL.ANY`
does so where some lane is active, and `CALLR` goes to an address in a register, which must be a multiple of 4. -/
def Sys2Proof.Spec.CallForms : Prop :=
  (∀ (f : BitVec 2) (off : BitVec 23) (s : State), s.u = true → canTrap s →
    let target := s.nextPc + BitVec.ofInt 64 (4 * off.toInt)
    (∃ t, exec (.call f off) s = .next t ∧ Called s t target f.toNat)
      ∧ ∃ t, exec (.callAny f off) s = .next t
          ∧ if s.em = 0 then Ended s t s.cur s.nextPc (fun _ => 0) else Called s t target f.toNat)
    ∧ ∀ (a b : Code) (s : State), s.u = true → canTrap s → isS a.toNat = true → b.toNat < 4 →
        SoundU s [⟨a.toNat, .s⟩] →
        let target := s.sreg 0 (a.toNat - 64)
        if target.toNat % 4 = 0 then
          (∃ t, exec (.callr a b) s = .next t ∧ Called s t target b.toNat)
            ∧ ∃ t, exec (.callrAny a b) s = .next t
                ∧ if s.em = 0 then Ended s t s.cur s.nextPc (fun _ => 0) else Called s t target b.toNat
        else
          (∃ t, exec (.callr a b) s = .next t ∧ Trapped s t s.cur 3 s.cur.pc target)
            ∧ (s.em ≠ 0 → ∃ t, exec (.callrAny a b) s = .next t ∧ Trapped s t s.cur 3 s.cur.pc target)

/-- R152: the frame code of `CALLR` and `CALLR.ANY` is 0 to 3; any other is an illegal operand. -/
def Sys2Proof.Spec.FrameCodes : Prop :=
  ∀ (a b : Code) (s : State), s.u = true → canTrap s → 4 ≤ b.toNat →
    Refused (.callr a b) s 2 ∧ Refused (.callrAny a b) s 2

/-- A call inside a handler completes where the window has room. -/
def Sys2Proof.Spec.CallsInHandlers : Prop :=
  ∀ (f : BitVec 2) (off : BitVec 23) (s : State), s.u = true → s.cur.wb + 16 * f.toNat + 64 ≤ s.team.wal →
    ∃ t, exec (.call f off) s = .next t ∧ Called s t (s.nextPc + BitVec.ofInt 64 (4 * off.toInt)) f.toNat

/-- R152: calls, outside a handler and inside one. -/
def Obligations.CallResults : Prop := CallForms ∧ FrameCodes ∧ CallsInHandlers

/-- R153: `RET` goes back to the link of s31 and moves the window down by its frame code, or takes the window-underflow
trap; `JMPR` goes to an aligned address. The word of `RET` holds 0 in d, a and b. -/
def Sys2Proof.Spec.ReturnResults : Prop :=
  (∀ d a b : Code, decodeWord (wordA 3 0 d a b) = if d = 0 ∧ a = 0 ∧ b = 0 then .ok .ret else .error .reservedField) ∧
  ∀ s : State, s.u = true →
    (let link := s.sreg 0 31
     let back := 16 * (link.toNat % 4)
     let target := link &&& ~~~3
     Sound s [0] [⟨95, .s⟩] →
     (back ≤ s.cur.wb → ∃ t, exec .ret s = .next t
        ∧ Ended s t (transferred { s.cur with wb := s.cur.wb - back } target) target (fun _ => 0))
       ∧ (s.cur.wb < back → canTrap s → ∃ t, exec .ret s = .next t
            ∧ Trapped s t (ticked s s.cur) 8 target (BitVec.ofInt 64 ((s.cur.wb : Int) - back))))
    ∧ ∀ a : Code, isS a.toNat = true → SoundU s [⟨a.toNat, .s⟩] →
        let target := s.sreg 0 (a.toNat - 64)
        (target.toNat % 4 = 0 → ∃ t, exec (.jmpr a) s = .next t
            ∧ Ended s t (transferred s.cur target) target (fun _ => 0))
          ∧ (target.toNat % 4 ≠ 0 → canTrap s → ∃ t, exec (.jmpr a) s = .next t ∧ Trapped s t s.cur 3 s.cur.pc target)

/-- R154: `WBASE` sets an even window base between 0 and wal - 64; an odd one is an illegal operand, one above takes the
window-overflow trap and one below the window-underflow trap, each at the next instruction. -/
def Sys2Proof.Spec.WindowBase : Prop :=
  ∀ (a : Code) (s : State), s.u = true → uniformSrc a.toNat = true → SoundU s [⟨a.toNat, .wide⟩] →
    let w := s.wide 0 a
    (w.toNat % 2 = 0 → 0 ≤ w.toInt → w.toInt + 64 ≤ s.team.wal → ∃ t, exec (.wbase a) s = .next t
        ∧ Ended s t { s.cur with wb := w.toNat } s.nextPc (fun _ => 0))
      ∧ (canTrap s → w.toNat % 2 = 0 → s.team.wal < w.toInt + 64 → ∃ t, exec (.wbase a) s = .next t
          ∧ Trapped s t (ticked s s.cur) 7 s.nextPc w)
      ∧ (canTrap s → w.toNat % 2 = 0 → w.toInt < 0 → w.toInt + 64 ≤ s.team.wal → ∃ t, exec (.wbase a) s = .next t
          ∧ Trapped s t (ticked s s.cur) 8 s.nextPc w)
      ∧ (canTrap s → w.toNat % 2 = 1 → ∃ t, exec (.wbase a) s = .next t
          ∧ Trapped s t s.cur 2 s.cur.pc (s.issue.word.setWidth 64))

/-- R153, R154: returns, jumps and the window base. -/
def Obligations.ReturnAndWindowBase : Prop := ReturnResults ∧ WindowBase

/-- R151: a uniform compare is major 3 with fn6 16 to 21 and 0 in its d field; it writes UC and puts its value in b0. -/
def Obligations.UniformCompares : Prop :=
  (∀ k < 6, ∀ d a b : Code, decodeWord (wordA 3 (BitVec.ofNat 6 (16 + k)) d a b) =
    if d = 0 then .ok (ucmpInstr k a b) else .error .reservedField) ∧
  ∀ k < 6, ∀ (a b : Code) (s : State), s.u = true → uniformSrc a.toNat = true → uniformSrc b.toNat = true →
    SoundU s [⟨a.toNat, .wide⟩, ⟨b.toNat, .wide⟩] → ∃ t, exec (ucmpInstr k a b) s = .next t ∧
      let c := compares k (s.wide 0 a) (s.wide 1 b)
      Ended s t (withUc s.cur c) s.nextPc (fun _ => truth c)

/-- R159, R365: `TRAP` enters the handler with cause 0, its code in tval and the address of the next instruction in tpc; em, the
status and the program counter change as R159 says. Memory and every other group stay; beside what R159 names, the region's stores
are committed, the watchdog count begins again (R378), and rstart, rwb and what is below its latency change as `Trapped` says,
which the model chooses (log entries 24 and 25). -/
def Sys2Proof.Spec.TrapOutsideHandler : Prop :=
  ∀ (code : BitVec 21) (s : State), s.u = true → canTrap s →
    ∃ t, exec (.trap code) s = .next t ∧ Trapped s t (ticked s s.cur) 0 s.nextPc (code.setWidth 64)

/-- R366: a trap inside a handler ends the launch: it has the cause for its fault, none of its groups issues any more, and
a fault record of kind 8 waits. -/
def Sys2Proof.Spec.TrapInHandlerEndsLaunch : Prop :=
  ∀ (code : BitVec 21) (s : State) (tm : Team) (l : Launch), s.u = true → s.cur.intrap = true → s.cur.id ≠ 0 →
    s.team? s.cur.team = some tm → s.launch? tm.launch = some l → l.fault = none → l.stage ≠ .complete →
    ∃ t, exec (.trap code) s = .next t ∧ t.mem = s.mem
      ∧ (∀ g ∈ t.groups, g.team = tm.id → g.live = false)
      ∧ (∃ x ∈ t.launches, x = { l with fault := some 0 })
      ∧ ∃ r ∈ t.faultRecs, r.kind = 8 ∧ r.info = 0 ∧ r.ctx = l.record.ctx ∧ r.va = code.setWidth 64 ∧ r.pc = s.cur.pc

/-- R159, R365, R366: a trap outside the handler enters it; one inside ends the launch. That the handler begins a region at its first
instruction (rstart, rwb) is the choice of log entry 24, that no earlier write of em, tpc or tem is below its latency there that of
log entry 25. -/
def Obligations.TrapEntry : Prop := TrapOutsideHandler ∧ TrapInHandlerEndsLaunch

/-- R160: `RTT` outside a handler is illegal; inside one it restores the mask, clears INTRAP and goes to tpc, which must be
a multiple of 4; it is a region of its own and a progress point. That no earlier write of em is below its latency after `RTT`, and of em,
tpc and tem after a trap, is the model's choice (log entry 25; R149 and R177 would let em be read late), and so is rstart after a
trap (log entry 24). -/
def Obligations.ReturnFromTrap : Prop :=
  ∀ s : State, s.u = true →
    let tpc := s.specialSeen 9 s.cur.tpc
    let tem := s.specialSeen 0xB s.cur.tem
    (canTrap s → ∃ t, exec .rtt s = .next t ∧ Trapped s t s.cur 1 s.cur.pc (s.issue.word.setWidth 64))
      ∧ (s.cur.intrap = true → s.cur.walking = false → tpc.toNat % 4 = 0 →
          ∃ t, exec .rtt s = .next t
            ∧ t.cur = { s.cur with
                em := tem &&& s.cur.present, gstat := s.cur.gstat &&& ~~~8, pc := tpc, rstart := tpc, rwb := s.cur.wb,
                hazards := s.cur.hazards.filter fun h => decide (h.target ≠ .em), watchdog := 0, latches := 0,
                switch := true, came := false, stalled := 0, wait := .none, barWait := barPhases s, gcyc := s.cur.gcyc + BitVec.ofNat 64 s.issue.beats,
                lastIssue := s.draws, threads := t.cur.threads, storeBuf := t.cur.storeBuf }
            ∧ (∀ i < s.cur.threads.length, (t.cur.lane i).stack = (s.cur.lane i).stack
                ∧ (t.cur.lane i).pred = (s.cur.lane i).pred ∧ KeepsQueues (s.cur.lane i) (t.cur.lane i))
            ∧ t = { s with cur := t.cur, writeBuf := t.writeBuf, pipes := issuedPipes s })

/-- R367, R369: `RGN` ends the region: its stores are committed, and the next region begins after it. Its word holds 0 in d,
a and b. -/
def Sys2Proof.Spec.RegionEnd : Prop :=
  (∀ d a b : Code, decodeWord (wordA 3 5 d a b) = if d = 0 ∧ a = 0 ∧ b = 0 then .ok .rgn else .error .reservedField) ∧
  ∀ s : State, s.u = true → s.cur.walking = false →
    ∃ t, exec .rgn s = .next t ∧ t.mem = s.mem ∧ GoesOn s t.cur s.nextPc (fun _ => 0)
      ∧ t.cur.rstart = s.nextPc ∧ t.cur.rwb = s.cur.wb ∧ (∀ l ∈ t.cur.storeBuf, l.committed = true)
      ∧ t = { s with cur := t.cur, writeBuf := t.writeBuf, pipes := issuedPipes s }

/-- R163, R164, R367, R369: `NOP`, `ISYNC` and `RGN`. -/
def Obligations.NopIsyncRegionEnd : Prop := NopAndIsync ∧ RegionEnd

/-- R156, R411: `SREAD` writes the special register to an s-register, to each active lane's v-register, to a port or
nowhere. A push to a port ends the region first, which sets rstart (R367). That a shared stall counter counts first when it is read is
the model's choice (log entry 5): R411 does not say when such a counter rises. -/
def Sys2Proof.Spec.SpecialReadForms : Prop :=
  ∀ (d : Code) (i : BitVec 14) (s : State), isSpecial i.toNat = true →
    let c := s.countShared i.toNat
    let x := c.specialValue i.toNat
    (c = { s with shared := c.shared } ∧ (i.toNat < 0x120 → c = s))
      ∧ (s.u = false → isV d.toNat = true ∨ d.toNat = 127 → ∃ t, exec (.sread d i) s = .next t
          ∧ ThreadEffect c t (.w .full) d.toNat 2 s.em [] (fun _ => (x, 0)))
      ∧ (s.u = true → isS d.toNat = true ∨ d.toNat = 127 → ∃ t, exec (.sread d i) s = .next t
          ∧ UniformEffect c t d.toNat x x 0)
      ∧ portForm (.sread d i) [] (.w .full) d.toNat fun s _ =>
          (if i.toNat = 4 then s.cur.pc else (s.countShared i.toNat).specialValue i.toNat, 0)

/-- R156, R157: what the special registers of a group read as, where nothing is below its latency. -/
def Sys2Proof.Spec.SpecialRegisterValues : Prop :=
  ∀ s : State, s.cur.hazards = [] → s.cur.flags = [] → ∀ e ∈ specialRegisters s, s.specialValue e.1 = e.2

/-- R156, R157, R411: reading special registers, and what each one of a group reads as; a shared stall counter counts when it is read
(the model's choice, log entry 5). -/
def Obligations.SpecialRead : Prop := SpecialReadForms ∧ SpecialRegisterValues

/-- R129, R156, R157: `SWRITE` writes the registers that can be written, each by its own rule, and leaves the others. -/
def Obligations.SpecialWrite : Prop :=
  ∀ (a : Code) (s : State), s.u = true → uniformSrc a.toNat = true → Sound s [0] [⟨a.toNat, .wide⟩] →
    (∀ i : BitVec 14, isSpecial i.toNat = true → i.toNat ≠ 0x13 → i.toNat ≠ 0x14 →
      ∃ t, exec (.swrite a i) s = .next t ∧ Ended s t (swritten s.cur i.toNat (s.wide 0 a)) s.nextPc (fun _ => 0))
      ∧ (∃ t, exec (.swriteEm a) s = .next t ∧ Ended s t (swritten s.cur 0 (s.wide 0 a)) s.nextPc (fun _ => 0))
      ∧ ∃ t, exec (.swriteFpc a) s = .next t ∧ Ended s t (swritten s.cur 2 (s.wide 0 a)) s.nextPc (fun _ => 0)

/-- R196: the mask instructions write em, seen at a d-sum of 2, and put the new mask in b0. -/
def Sys2Proof.Spec.MaskWrites : Prop :=
  (∀ r ∈ maskRows, ∀ (a : Code) (s : State), s.u = true → a.toNat < 32 → SoundU s [⟨a.toNat, .pred⟩] →
    ∃ t, exec (r.1 a) s = .next t ∧
      let m := r.2 s.em (predLanes s a) &&& s.cur.present
      Ended s t (withEm s.cur m) s.nextPc (fun _ => m))
    ∧ ∀ s : State, s.u = true →
        ∃ t, exec .mall s = .next t ∧ Ended s t (withEm s.cur s.cur.present) s.nextPc (fun _ => s.cur.present)

/-- R196: `MCNT` counts the active lanes; `PSAVE` saves em and nf in two s-registers, and `PREST` restores both. -/
def Sys2Proof.Spec.MaskSaves : Prop :=
  ∀ s : State, s.u = true →
    (∀ d : Code, isS d.toNat = true → ∃ t, exec (.mcnt d) s = .next t ∧
      let n : DWord := BitVec.ofNat 64 (s.lanesOf s.em).length
      Ended s t (withS s.cur (d.toNat - 64) n) s.nextPc (fun _ => n))
    ∧ ∀ d : Code, isS d.toNat = true → d.toNat % 2 = 0 →
        (∃ t, exec (.psave d) s = .next t
          ∧ Ended s t (withS (withS s.cur (d.toNat - 64) s.em) (d.toNat - 63) (s.nfSeen.setWidth 64)) s.nextPc (fun _ => s.em))
        ∧ (Sound s [0] [⟨d.toNat, .s⟩, ⟨d.toNat + 1, .s⟩] → ∃ t, exec (.prest d) s = .next t
            ∧ Ended s t (swritten (withEm s.cur (s.sreg 0 (d.toNat - 64) &&& s.cur.present)) 1 (s.sreg 1 (d.toNat - 63)))
                s.nextPc (fun _ => 0))

/-- R196: a predicate number above 31 is an illegal operand, and so is a pair of s-registers that is odd or outside 64 to
94. -/
def Sys2Proof.Spec.MaskRefusals : Prop :=
  ∀ (a : Code) (s : State), s.u = true → canTrap s →
    (32 ≤ a.toNat → ∀ r ∈ maskRows, Refused (r.1 a) s 2)
    ∧ (isS a.toNat = false ∨ a.toNat % 2 = 1 → Refused (.psave a) s 2 ∧ Refused (.prest a) s 2)

/-- R196: which fields of the mask instructions must be 0. -/
def Sys2Proof.Spec.MaskFields : Prop :=
  ∀ d a b : Code,
    (∀ e ∈ [((0 : BitVec 6), Instr.mset), (1, .mand), (2, .mandn), (3, .mor)], decodeWord (wordA 12 e.1 d a b) =
      if d = 0 ∧ b = 0 then .ok (e.2 a) else .error .reservedField)
    ∧ decodeWord (wordA 12 4 d a b) = (if d = 0 ∧ a = 0 ∧ b = 0 then .ok .mall else .error .reservedField)
    ∧ decodeWord (wordA 12 5 d a b) = (if a = 0 ∧ b = 0 then .ok (.mcnt d) else .error .reservedField)
    ∧ decodeWord (wordA 12 6 d a b) = (if a = 0 ∧ b = 0 then .ok (.psave d) else .error .reservedField)
    ∧ decodeWord (wordA 12 7 d a b) = (if d = 0 ∧ b = 0 then .ok (.prest a) else .error .reservedField)

/-- R196: the mask instructions. -/
def Obligations.MaskInstructions : Prop := MaskWrites ∧ MaskSaves ∧ MaskRefusals ∧ MaskFields

/-! ### Window spills and fills -/

/-- R161: in a handler for a window overflow, `SWRITE` of `n` to wspill stores the lowest `n` entries of every thread's stack
to the spill area, in thread order, moves the stack down and the window with it. -/
def Sys2Proof.Spec.WindowSpill : Prop :=
  ∀ (a : Code) (s : State), s.u = true → uniformSrc a.toNat = true → Sound s [0] [⟨a.toNat, .wide⟩] →
    let n := (s.wide 0 a).toNat
    let spilled := s.cur.wsd.toNat
    n < 2 ^ 16 → mayMove s true n → 4 * (spilled + n) ≤ (spillArea s).2.toNat → Reachable s .store spilled n →
    (∀ l < s.cur.threads.length, ∀ i ∈ (s.cur.lane l).badStack, n ≤ i) →
    ∃ t, exec (.wspill a) s = .next t
      ∧ GoesOn s t.cur s.nextPc (fun _ => 0)
      ∧ t.cur.wsd = s.cur.wsd + BitVec.ofNat 32 n ∧ t.cur.wb = s.cur.tval.toNat - n
      ∧ (∀ l < s.cur.threads.length, ∀ i, sget 0 (t.cur.lane l).stack i = sget 0 (s.cur.lane l).stack (i + n))
      ∧ (let u := (spillWords s spilled n).foldl
            (fun u w => u.spillOne w.2.2 (sget 0 (s.cur.lane w.1).stack w.2.1)) s
         t.mem = u.mem ∧ t.copies = u.copies ∧ t.poison = u.poison)
      ∧ t.cur.sregs = s.cur.sregs ∧ t.cur.hregs = s.cur.hregs ∧ t.cur.em = s.cur.em ∧ t.cur.gstat = s.cur.gstat
      ∧ t.teams = s.teams ∧ t.launches = s.launches

/-- R161: in a handler for a window underflow, `SWRITE` of `n` to wfill moves every thread's stack up by `n` entries and the
window with it, and loads into the lowest `n` what the spill area holds, the last spilled first. -/
def Sys2Proof.Spec.WindowFill : Prop :=
  ∀ (a : Code) (s : State), s.u = true → uniformSrc a.toNat = true → Sound s [0] [⟨a.toNat, .wide⟩] →
    let n := (s.wide 0 a).toNat
    let left := s.cur.wsd.toNat - n
    n < 2 ^ 16 → mayMove s false n → Reachable s .load left n →
    ∃ t, exec (.wfill a) s = .next t
      ∧ GoesOn s t.cur s.nextPc (fun _ => 0)
      ∧ t.cur.wsd = s.cur.wsd - BitVec.ofNat 32 n ∧ t.cur.wb = (s.cur.tval.toInt + n).toNat
      ∧ (∀ l < s.cur.threads.length, ∀ i, n ≤ i → i < s.team.wal →
          sget 0 (t.cur.lane l).stack i = sget 0 (s.cur.lane l).stack (i - n))
      ∧ (let u := (spillWords s left n).foldl
            (fun u w => u.settle (Agent.ofCore s.cur.core) s.launch.desc s.launch.record .load w.2.2) s
         ∀ l < s.cur.threads.length, ∀ j < n,
           sget 0 (t.cur.lane l).stack j = (u.fillOne (spillAddress s l (left + j))).1)
      ∧ t.cur.sregs = s.cur.sregs ∧ t.cur.hregs = s.cur.hregs ∧ t.cur.em = s.cur.em ∧ t.cur.gstat = s.cur.gstat
      ∧ t.teams = s.teams ∧ t.launches = s.launches

/-- R161: what one word of a fill reads: the bytes of the group's own earlier stores, and else what a CORE-scope load
reads (R67). -/
def Sys2Proof.Spec.FilledWord : Prop :=
  ∀ (s : State) (va : DWord) (p : Placed), s.windowXlate .load va = .ok p →
    (s.fillOne va).1 = BitVec.ofNat 32 (leNat (overlay (s.ownBytes p.pa 4)
      (s.loadBytes (Agent.ofCore s.cur.core) 1 p.home p.pa 4).1))

/-- R161: what one word of a spill leaves in the spill area: a CORE-scope load of the word reads the stack entry. -/
def Sys2Proof.Spec.SpilledWord : Prop :=
  ∀ (s : State) (va : DWord) (x : Word) (p : Placed), s.windowXlate .store va = .ok p → p.pa % 4 = 0 →
    Holds (s.spillOne va x) (Agent.ofCore s.cur.core) 1 p.home p.pa 4 x.toNat

/-- R161: window spills and fills; what a word of a spill leaves, and what a word of a fill reads. -/
def Obligations.WindowSpillAndFill : Prop := WindowSpill ∧ SpilledWord ∧ WindowFill ∧ FilledWord

/-! ### Groups and teams -/

/-- R216: `RCFG` gives the team its rill configuration once every live group is there, and every group goes on. -/
def Sys2Proof.Spec.RillConfiguration : Prop :=
  ∀ (a : Code) (s : State) (tm : Team), LastToMeet s tm → isS a.toNat = true → SoundU s [⟨a.toNat, .s⟩] →
    let x := meetOperand s tm (s.sreg 0 (a.toNat - 64))
    x.toNat < 2 ^ 16 → (x.toNat % 2 ^ 11 = 0 ∨ x.toNat % 2 ^ 11 < s.teamThreads tm.id) → s.xEmpty tm.id = true →
    ∃ t, exec (.rcfg a) s = .next t ∧ t.mem = s.mem
      ∧ t.team? tm.id = some { tm with rcfg := x.setWidth 16 }
      ∧ ∀ g ∈ s.teamGroups tm.id, ∃ h ∈ t.groups, h.id = g.id ∧ Passed s h ∧ h.em = g.em ∧ tids [h] = tids [g]

/-- R198: the width asked for is one that a grant can have. -/
def Sys2Proof.Spec.widthAsked (s : State) (x : DWord) : Prop := (x = 16 ∨ x = 32 ∨ x = 64) ∧ s.launch.record.gmin ≤ x.toNat

/-- R198: `SETW` of a width the team already has changes no group; every group goes on. -/
def Sys2Proof.Spec.WidthKept : Prop :=
  ∀ (a : Code) (s : State) (tm : Team), LastToMeet s tm → uniformSrc a.toNat = true → SoundU s [⟨a.toNat, .wide⟩] →
    let x := meetOperand s tm (s.wide 0 a)
    widthAsked s x → s.grantOf tm s.launch.record.gmin x.toNat = tm.gw →
    ∃ t, exec (.setw a) s = .next t ∧ t.mem = s.mem ∧ t.team? tm.id = some tm
      ∧ ∀ g ∈ s.teamGroups tm.id, ∃ h ∈ t.groups, h.id = g.id ∧ Passed s h ∧ h.em = g.em ∧ tids [h] = tids [g]

/-- R174, R175, R198: `SETW` completes for every width that a grant can have, where the groups that a wider grant would merge
agree: the team has the width of its grant, its groups are numbered from 0, and every thread is in one of them, in the
team order. -/
def Sys2Proof.Spec.WidthGranted : Prop :=
  ∀ (a : Code) (s : State) (tm : Team), LastToMeet s tm → uniformSrc a.toNat = true → SoundU s [⟨a.toNat, .wide⟩] →
    let x := meetOperand s tm (s.wide 0 a)
    let w := s.grantOf tm s.launch.record.gmin x.toNat
    let gs := s.teamGroups tm.id
    widthAsked s x → tm.gw ∈ [16, 32, 64] → gs.map (·.gix) = List.range gs.length →
    (∀ g ∈ gs, g.threads.length ≤ tm.gw) → (tm.gw < w → Mergeable (w / tm.gw) gs) →
    ∃ t, exec (.setw a) s = .next t
      ∧ (∃ y, t.team? tm.id = some y ∧ y.gw = w ∧ (w ≠ tm.gw → y.ngrp = (t.teamGroups tm.id).length))
      ∧ tids (t.teamGroups tm.id) = tids gs
      ∧ (t.teamGroups tm.id).map (·.gix) = List.range (t.teamGroups tm.id).length
      ∧ ∀ g ∈ t.teamGroups tm.id, Passed s g ∧ g.threads.length ≤ w

/-- R174, R198: `SETW`. -/
def Obligations.WidthRequests : Prop := WidthKept ∧ WidthGranted

/-- R199: `REGROUP` keeps the active threads of the team in their order, packs them into groups of the grant's width with
every lane active, and gives each group its thread count. It completes where no x queue holds an entry and the groups
agree in wb and wsd; em is what each group's own instruction reads (R196). -/
def Sys2Proof.Spec.Regrouping : Prop :=
  ∀ (d : Code) (s : State) (tm : Team), LastToMeet s tm → isS d.toNat = true → s.xEmpty tm.id = true → 0 < tm.gw →
    (s.teamGroups tm.id).map (·.gix) = List.range (s.teamGroups tm.id).length →
    (∀ g ∈ s.teamGroups tm.id, g.wb = s.cur.wb ∧ g.wsd = s.cur.wsd ∧ g.threads.length ≤ tm.gw) →
    ∃ t, exec (.regroup d) s = .next t ∧ ∃ em : Nat → LaneMask,
      (∀ g ∈ s.teamGroups tm.id, MayReadEm g (em g.id))
      ∧ tids (t.teamGroups tm.id) = activeTids em (s.teamGroups tm.id)
      ∧ (∃ y, t.team? tm.id = some y ∧ y.nthr = (activeTids em (s.teamGroups tm.id)).length)
      ∧ ∀ g ∈ t.teamGroups tm.id, Passed s g ∧ g.em = g.present ∧ g.threads.length ≤ tm.gw
          ∧ g.sreg (d.toNat - 64) = BitVec.ofNat 64 g.threads.length

/-- R199, R216: `RCFG` and `REGROUP`. -/
def Obligations.RillConfigurationAndRegrouping : Prop := RillConfiguration ∧ Regrouping

/-- R200 to R202: `BAR.ARV` arrives and goes on; `BAR.SYNC` arrives, and goes on if that completes the phase, else waits
for the phase to end; a group that waits goes on once it has ended. -/
def Sys2Proof.Spec.TeamBarriers : Prop :=
  ∀ (a : Code) (s : State) (tm : Team), s.u = true → a.toNat < 6 → s.team? s.cur.team = some tm → a.toNat < tm.bars.length →
    s.cur.id ≠ 0 → s.cur.live = true → Releases s s.team.scope →
    let k := a.toNat
    let phase := (tm.bars.getD k Barrier.zero).phase
    (s.cur.arrived.contains (k, phase) = false →
      (∃ t, exec (.barArv a) s = .next t ∧ t.cur.pc = s.nextPc ∧ t.cur.wait = .none ∧ t.cur.rstart = s.nextPc
        ∧ (t.team? tm.id).map (·.bars) = some (tm.bars.set k (arrivedBar s tm k)))
      ∧ ((∀ j p, s.cur.wait ≠ .bar j p) → s.cur.loadsQuiet = true → s.barNeedsTrapped k = false →
        ∃ t, exec (.barSync a) s = .next t
          ∧ (t.team? tm.id).map (·.bars) = some (tm.bars.set k (arrivedBar s tm k))
          ∧ if (arrivedBar s tm k).phase = phase then t.cur.pc = s.cur.pc ∧ t.cur.wait = .bar k phase
            else t.cur.pc = s.nextPc ∧ t.cur.wait = .none ∧ t.cur.rstart = s.nextPc))
    ∧ ∀ p, s.cur.wait = .bar k p → p ≠ phase → s.cur.loadsQuiet = true →
        ∃ t, exec (.barSync a) s = .next t ∧ GoesOn s t.cur s.nextPc (fun _ => 0) ∧ t.cur.rstart = s.nextPc
          ∧ t.teams = s.teams

/-- R203: `CBAR` arrives at the cohort's barrier with the threads of the group; it goes on where every live thread of the
launch has arrived, else it waits. Of a cohort that spans dies a core holds at most 32 such transactions (R416). -/
def Sys2Proof.Spec.CohortBarrier : Prop :=
  ∀ (s : State) (tm : Team) (l : Launch), s.u = true → s.team? s.cur.team = some tm → s.launch? tm.launch = some l →
    l.record.coh ≠ 0 → tm.isSuccessor = false → Releases s l.record.coh → s.cur.loadsQuiet = true →
    s.cbarNeedsTrapped = false → (l.record.coh < 5 ∨ s.syncOpen s.cur.core < 32) →
    let n := l.ccount + s.cur.threads.length
    ((∀ p, s.cur.wait ≠ .cbar p) → ∃ t, exec .cbar s = .next t ∧
      if s.launchThreads l.id ≤ n then
        (∃ x ∈ t.launches, x = { l with cphase := l.cphase + 1, ccount := 0 }) ∧ t.cur.pc = s.nextPc ∧ t.cur.wait = .none
      else
        (∃ x ∈ t.launches, x = { l with ccount := n }) ∧ t.cur.pc = s.cur.pc ∧ t.cur.wait = .cbar l.cphase)
      ∧ ∀ p, s.cur.wait = .cbar p → p ≠ l.cphase → ∃ t, exec .cbar s = .next t
          ∧ GoesOn s t.cur s.nextPc (fun _ => 0) ∧ t.launches = s.launches

/-- R200 to R203: the team barriers and the cohort barrier. -/
def Obligations.Barriers : Prop := TeamBarriers ∧ CohortBarrier

/-- R204: `YIELD` goes on, as a switch point, and its pipe passes to the ready group of the pipe whose last issue is oldest, which
begins a run; where there is none the group keeps it. The group chosen is `State.pipeNext` of the state in which the yielding group
itself, of the same core and pipe, has ended its instruction. -/
def Sys2Proof.Spec.YieldPassesThePipe : Prop :=
  ∀ s : State, s.u = true → s.cur.id ≠ 0 → Numbered s →
    ∃ u t, Ended s u s.cur s.nextPc (fun _ => 0) ∧ exec .yield s = .next t ∧
      let y : State := { u with cur := { u.cur with switch := true } }
      match y.pipeNext with
      | none => t = y
      | some g => y.cur ∈ t.groups ∧ g.id ≠ s.cur.id ∧ g.pipeKey = s.cur.pipeKey ∧ (∃ x, t.cur = { g with stalls := x })
          ∧ t.holder s.cur.pipeKey = (g.id, 0)
          ∧ t = { y with cur := t.cur, others := t.others, pipes := t.pipes, draws := y.draws + 1, burst := 0 }

/-- R205: `EXIT` of a group that is not the last of its team retires it: no group has its number any more, the other groups
stay, and the team remembers the successor value; that of the last one, with no successor, ends the team. -/
def Sys2Proof.Spec.ExitOfAGroup : Prop :=
  ∀ (a : Code) (s : State) (tm : Team), MayExit s → Numbered s → isS a.toNat = true → Sound s [0] [⟨a.toNat, .s⟩] →
    s.team? s.cur.team = some tm →
    let x := s.sreg 0 (a.toNat - 64)
    (tm.succ = none ∨ tm.succ = some x) →
    (1 < (s.teamGroups tm.id).length →
      ∃ t, exec (.exit a) s = .next t
        ∧ t.groups.map (·.id) = s.others.map (·.id) ∧ ∃ y, t.team? tm.id = some y ∧ y.succ = some x)
      ∧ ((s.teamGroups tm.id).length = 1 → x = 0 → s.scratchBusy tm.id = false →
          ∃ t, exec (.exit a) s = .next t
            ∧ t.groups.map (·.id) = s.others.map (·.id) ∧ t.team? tm.id = none)

/-- R205: an `EXIT` whose value differs from that of an earlier group of the team takes the illegal-operand trap. -/
def Sys2Proof.Spec.ExitValuesAgree : Prop :=
  ∀ (a : Code) (s : State) (tm : Team) (x : DWord), MayExit s → isS a.toNat = true → Sound s [0] [⟨a.toNat, .s⟩] →
    s.team? s.cur.team = some tm → tm.succ = some x → x ≠ s.sreg 0 (a.toNat - 64) →
    ∃ t, exec (.exit a) s = .next t ∧ t.cur.tcause = 2 ∧ t.cur.tpc = s.cur.pc ∧ t.cur.pc = s.cur.hva ∧ t.cur.intrap = true

/-- R205: `EXIT`. -/
def Obligations.ExitRetires : Prop := ExitOfAGroup ∧ ExitValuesAgree

/-- R207, R397: `LAUNCH` to a queue that takes it writes the record's address in the next entry of the queue, moves wr, and
goes on, where the hub can reach the entry. -/
def Sys2Proof.Spec.LaunchAccepted : Prop :=
  ∀ (a : Code) (s : State), s.u = true → isS a.toNat = true → SoundU s [⟨a.toNat, .s⟩] → s.cur.count 3 < 63 →
    Releases s 6 →
    let x := s.sreg 0 (a.toNat - 64)
    let q := x.toNat % 128
    let b := s.queue q
    let pa := b.base + 8 * (b.wr.toNat % b.cap.toNat)
    b.takes s.launch.record.ctx = true → (b.wr - b.rd).toNat < b.cap.toNat → b.base % 8 = 0 →
    (released s 6).hubReach (q % 2) .store pa 8 = .ready →
    ∃ t, exec (.launch a) s = .next t
      ∧ GoesOn s t.cur s.nextPc (fun _ => 0) ∧ t.cur.rstart = s.nextPc
      ∧ t.num (64 * t.homeKey (pa / 64) + pa % 64) 8 = x.toNat / 128 * 128
      ∧ t.queue q = { b with wr := b.wr + 1 } ∧ (∀ k, k ≠ q → t.queue k = s.queue k)
      ∧ t.cur.count 3 ≤ s.cur.count 3 + 1 ∧ t.teams = s.teams

/-- R207: `LAUNCH` to a queue that does not take the context's records completes all the same, once the record's translation
and that of its counter are known: no queue changes. -/
def Sys2Proof.Spec.LaunchRefused : Prop :=
  ∀ (a : Code) (s : State), s.u = true → isS a.toNat = true → SoundU s [⟨a.toNat, .s⟩] → s.cur.count 3 < 63 →
    Releases s 6 →
    let x := s.sreg 0 (a.toNat - 64)
    (s.queue (x.toNat % 128)).takes s.launch.record.ctx = false →
    let va := x &&& ~~~127
    (∀ u, (released s 6).readRecord 0 s.launch.record.ctx va ≠ .wait u) →
    (∀ r, (released s 6).readRecord 0 s.launch.record.ctx va = .ok r →
      ((released s 6).recordTouched 0 s.launch.record.ctx va).countWaits 0 r.desc r.record = none) →
    ∃ t, exec (.launch a) s = .next t
      ∧ GoesOn s t.cur s.nextPc (fun _ => 0) ∧ t.cur.rstart = s.nextPc
      ∧ (∀ k, t.queue k = s.queue k) ∧ t.cur.count 3 ≤ s.cur.count 3 + 1 ∧ t.teams = s.teams

/-- R207, R397: `LAUNCH`. -/
def Obligations.LaunchEnqueues : Prop := LaunchAccepted ∧ LaunchRefused

/-! ### Rills -/

/-- R222, R223: `RSTAT` gives each active lane the status of a port, `RPEEK` the head of its queue without taking it where
no lane blocks. -/
def Sys2Proof.Spec.RillStatus : Prop :=
  ∀ (d a : Code) (s : State), s.u = false → isV d.toNat = true → isPort a.toNat = true →
    let p := a.toNat - 100
    (∃ t, exec (.rstat d a) s = .next t ∧ ThreadEffect s t .v d.toNat 2 s.em [] (fun l => (portStatus s l p, 0)))
      ∧ (s.rillBlocked s.em [p] none = none → Sound s (s.lanesOf s.em) [⟨a.toNat, .w⟩] →
          ∃ t, exec (.rpeek d a) s = .next t
            ∧ ThreadEffect s t .v d.toNat 2 s.em []
                (fun l => (match ((s.cur.lane l).queue p).head? with
                  | some e => e.value.setWidth 64
                  | none => 0, 0)))

/-- R224: `RDRAIN` empties the queue of a port in every active lane once its entries are filled, and is a region of its
own. -/
def Sys2Proof.Spec.RillDrain : Prop :=
  ∀ (a : Code) (s : State), s.u = false → isPort a.toNat = true → s.cur.walking = false →
    let p := a.toNat - 100
    (∀ l ∈ s.lanesOf s.em, ∀ e ∈ (s.cur.lane l).queue p, e.isFilled = true) →
    ∃ t, exec (.rdrain a) s = .next t ∧ GoesOn s t.cur s.nextPc (fun _ => 0) ∧ t.mem = s.mem
      ∧ t.cur.rstart = s.nextPc ∧ t.cur.watchdog = 0
      ∧ ∀ l < s.cur.threads.length, ∀ q < 6, (t.cur.lane l).queue q =
          if q = p ∧ s.em.getLsbD l = true then [] else (s.cur.lane l).queue q

/-- R222 to R224: `RSTAT`, `RPEEK` and `RDRAIN`. -/
def Obligations.RillStatusAndDrain : Prop := RillStatus ∧ RillDrain

/-! ### Memory instructions -/

/-- R95, R114 to R117, R120: a load whose accesses translate is put in flight on gld with the place of every lane, in the
per-thread, uniform and prefixed forms, and with the bytes of the group's own earlier stores that no atomic between the two will
change (R67, R264); nothing but the accessed bits of the translations changes in memory. An acquire holds its group (R267). -/
def Sys2Proof.Spec.LoadsIntoRegisters : Prop :=
  ∀ r ∈ loadRows ++ invariantRows, ∀ (imm : Option (BitVec 27)) (ord : BitVec 2) (scope : BitVec 3) (d a : Code)
    (off : BitVec 5) (s : State), issueOk s imm → (5 ≤ r.kind → ord = 0) →
    kindOk s d → loadField s r.shape d → isPort d.toNat = false → baseField s d a → s.scopeOk scope.toNat = true →
    s.cur.count 0 < 63 → SoundBase s d a →
    let units := offsetUnits imm off
    Accessible s .load r.size d a units → (ord = 1 → SyncRoom s .load scope.toNat r.size d a units) →
    ∃ t lanes, exec (inIssue 15 r imm ord scope d a off) s = .next t
      ∧ Begun s t (ord == 1) 0 (.load r.size (dstOf s r.shape d.toNat) scope.toNat (ord == 1) (decide (5 ≤ r.kind)) lanes)
      ∧ AccessesOf s .load r.size d a units (fun _ => 0) lanes
      ∧ (∀ x ∈ lanes, x.fwd = s.forwards x.pa r.size)
      ∧ OnlyFocus (translated s .load r.size d a units) t

/-- R217, R219, R220: a load into a port reserves an entry in each active lane's queue outward, and is a region of its own. -/
def Sys2Proof.Spec.LoadsIntoPorts : Prop :=
  ∀ r ∈ loadRows ++ invariantRows, ∀ (imm : Option (BitVec 27)) (ord : BitVec 2) (scope : BitVec 3) (d a : Code)
    (off : BitVec 5) (s : State), issueOk s imm → (5 ≤ r.kind → ord = 0) → s.u = false → s.cur.id ≠ 0 →
    r.shape = .word → isPort d.toNat = true → baseField s d a → s.scopeOk scope.toNat = true → s.cur.count 0 < 63 →
    s.cur.walking = false → s.rillBlocked s.em [] (some (d.toNat - 100)) = none → SoundBase s d a →
    let units := offsetUnits imm off
    Accessible s .load r.size d a units → (ord = 1 → SyncRoom s .load scope.toNat r.size d a units) →
    ∃ t lanes, exec (inIssue 15 r imm ord scope d a off) s = .next t
      ∧ Begun s t (ord == 1) 0 (.load r.size (.port (d.toNat - 100)) scope.toNat (ord == 1) (decide (5 ≤ r.kind)) lanes)
      ∧ lanes.map (·.lane) = s.lanesOf s.em ∧ t.cur.rstart = s.nextPc
      ∧ QueuesMoved s t s.em [] (some (d.toNat - 100)) (fun l => .reserved s.cur.id (64 * s.cur.nextTag + l))

/-- R95, R115 to R117, R217: loads put one operation in flight, into registers or into a port. -/
def Obligations.LoadsBegin : Prop := LoadsIntoRegisters ∧ LoadsIntoPorts

/-- R95, R118, R277, R368: a relaxed store to lines from which no translation is cached enters the region store buffer;
memory keeps every byte but the accessed and dirty bits of the translations. -/
def Sys2Proof.Spec.StoresOfRegisters : Prop :=
  ∀ r ∈ storeRows, ∀ (imm : Option (BitVec 27)) (scope : BitVec 3) (d a : Code) (off : BitVec 5) (s : State),
    issueOk s imm → kindOk s d → r.shape.srcOk (isUniform s d) d.toNat = true → storePops r.shape d = [] →
    baseField s d a → s.scopeOk scope.toNat = true → s.cur.count 1 < 63 → SoundData s r.shape d a →
    let units := offsetUnits imm off
    Accessible s .store r.size d a units →
    (∀ l ∈ accessing s d, ∀ p, s.xlate .store (address s a units r.size l) = .ok p →
      (translated s .store r.size d a units).isTable p = false) →
    let buf := buffered s r.size scope.toNat r.shape d a units s.cur.storeBuf
    (buf.filter fun l => !l.committed).length ≤ 32 → buf.length ≤ 32 →
    ∃ t, exec (inIssue 16 r imm 0 scope d a off) s = .next t
      ∧ AccessBegun s t 1 (.store [] false) ∧ t.cur.storeBuf = buf
      ∧ OnlyFocus (translated s .store r.size d a units) t

/-- R277, R368: a store whose region would hold more than 32 lines takes the overflow trap instead. -/
def Sys2Proof.Spec.RegionOverflow : Prop :=
  ∀ r ∈ storeRows, ∀ (scope : BitVec 3) (d a : Code) (off : BitVec 5) (s : State),
    kindOk s d → r.shape.srcOk (isUniform s d) d.toNat = true → storePops r.shape d = [] →
    baseField s d a → s.scopeOk scope.toNat = true → s.cur.count 1 < 63 → canTrap s → SoundData s r.shape d a →
    let units := offsetUnits none off
    Accessible s .store r.size d a units →
    (∀ l ∈ accessing s d, ∀ p, s.xlate .store (address s a units r.size l) = .ok p →
      (translated s .store r.size d a units).isTable p = false) →
    32 < ((buffered s r.size scope.toNat r.shape d a units s.cur.storeBuf).filter fun l => !l.committed).length →
    ∃ t, exec (r.instr 0 scope d a off) s = .next t
      ∧ Trapped (translated s .store r.size d a units) t (translated s .store r.size d a units).cur 6 s.cur.pc 32

/-- R217, R263, R267, R277: a release store, alone or as the second word of a pair, of registers or of the entries of a port, is
performed at its scope once what came before it is; the bytes of a uniform one are then what the core's accesses of that scope read
at its place. One of a port's entries pops them in every active lane. -/
def Obligations.ReleaseStores : Prop :=
  ∀ r ∈ storeRows, ∀ (imm : Option (BitVec 27)) (scope : BitVec 3) (d a : Code) (off : BitVec 5) (s : State), issueOk s imm →
    kindOk s d → r.shape.srcOk (isUniform s d) d.toNat = true →
    (storePops r.shape d ≠ [] → s.cur.id ≠ 0 ∧ s.rillBlocked s.em (storePops r.shape d) none = none) →
    baseField s d a → s.scopeOk scope.toNat = true → s.cur.count 1 < 63 →
    Releases s scope.toNat → SoundData s r.shape d a →
    let units := offsetUnits imm off
    Accessible s .store r.size d a units → SyncRoom s .store scope.toNat r.size d a units →
    (translated s.endRegion .store r.size d a units).heldLine s.cur.core scope.toNat = false →
    ∃ t lines, exec (inIssue 16 r imm 2 scope d a off) s = .next t
      ∧ AccessBegun s t 1 (.store lines (decide (r.size ≤ 8) && crossing s .store scope.toNat r.size d a units))
      ∧ t.cur.rstart = s.nextPc ∧ QueuesMoved s t s.em (storePops r.shape d) none (fun _ => .ready 0)
      ∧ ∀ p, isUniform s d = true → s.xlate .store (address s a units r.size 0) = .ok p → p.pa % 64 + r.size ≤ 64 →
          (t.loadBytes (Agent.ofCore s.cur.core) scope.toNat p.home p.pa r.size).1 = leBytes r.size (s.storeData r.shape 0 d.toNat)

/-- R217: a store of a port's entries pops them in every active lane; it is a region of its own. -/
def Sys2Proof.Spec.StoresFromPorts : Prop :=
  ∀ r ∈ storeRows, ∀ (scope : BitVec 3) (d a : Code) (off : BitVec 5) (s : State),
    s.u = false → s.cur.id ≠ 0 → r.shape = .word → isPort d.toNat = true → baseField s d a → s.scopeOk scope.toNat = true →
    s.cur.count 1 < 63 → s.cur.walking = false → s.rillBlocked s.em [d.toNat - 100] none = none →
    SoundData s r.shape d a →
    let units := offsetUnits none off
    Accessible s .store r.size d a units →
    (∀ l ∈ accessing s d, ∀ p, s.xlate .store (address s a units r.size l) = .ok p →
      (translated s.endRegion .store r.size d a units).isTable p = false) →
    (buffered s r.size scope.toNat r.shape d a units s.endRegion.cur.storeBuf).length ≤ 32 →
    ∃ t, exec (r.instr 0 scope d a off) s = .next t
      ∧ AccessBegun s t 1 (.store [] false) ∧ t.cur.rstart = s.nextPc ∧ (∀ l ∈ t.cur.storeBuf, l.committed = true)
      ∧ QueuesMoved s t s.em [d.toNat - 100] none (fun _ => .ready 0)

/-- R95, R118, R217, R277, R368: relaxed stores enter the region store buffer, or overflow it. -/
def Obligations.StoresEnterTheBuffer : Prop := StoresOfRegisters ∧ RegionOverflow ∧ StoresFromPorts

/-- R96, R257 to R263: every atomic completes, in the per-thread, uniform and prefixed forms, where its fields are valid, its
accesses translate and its counter has room: it is put in flight with its operation, the places and operands of its lanes,
and the registers of its old value. It is a region of its own, and one with release order waits until what came before it
can be performed. -/
def Obligations.AtomicsBegin : Prop :=
  ∀ e ∈ atomicRows, ∀ (imm : Option (BitVec 27)) (ord : BitVec 2) (scope : BitVec 3) (d a : Code) (off : BitVec 5)
    (s : State), issueOk s imm → kindOk s d → isV d.toNat = true ∨ isS d.toNat = true →
    loadField s e.1.shape d → baseField s d a → s.scopeOk scope.toNat = true → s.cur.count 0 < 63 →
    SoundData s e.1.shape d a →
    let units := offsetUnits imm off
    Accessible s .atomic e.1.size d a units → SyncRoom s .atomic scope.toNat e.1.size d a units →
    (if ord.getLsbD 1 then Releases s scope.toNat
        ∧ (translated s.endRegion .atomic e.1.size d a units).heldLine s.cur.core scope.toNat = false
     else s.cur.walking = false) →
    ∃ t lanes, exec (inIssue e.2.1 e.1 imm ord scope d a off) s = .next t
      ∧ Begun s t (ord.getLsbD 0) 0
          (.atomic e.2.2 e.1.size (atomicDst s e.2.2 e.1.size d.toNat) scope.toNat (ord.getLsbD 0) lanes)
      ∧ AccessesOf s .atomic e.1.size d a units (fun l => s.storeData e.1.shape l d.toNat) lanes
      ∧ t.cur.rstart = s.nextPc ∧ t.teams = s.teams ∧ t.launches = s.launches

/-- R97, R268 to R271: a scratchpad load or store whose addresses are aligned and lie in the team's scratchpad is put in
flight on spm, and its bank conflicts are counted (R244); memory does not change. -/
def Obligations.ScratchpadBegins : Prop :=
  ∀ (imm : Option (BitVec 27)) (d a : Code) (off : BitVec 5) (s : State), issueOk s imm → kindOk s d →
    isPort d.toNat = false → isS a.toNat = true ∨ (isUniform s d = false ∧ isV a.toNat = true) → s.cur.count 2 < 63 →
    let units := offsetUnits imm off
    let inside (size : Nat) : Prop := ∀ l ∈ accessing s d, (address s a units size l).toNat % size = 0
      ∧ (address s a units size l).toNat + size ≤ s.team.spb
    let places (size : Nat) : List (Nat × Nat) := (accessing s d).map fun l => (l, (address s a units size l).toNat)
    let banks (t : State) (size : Nat) : Prop :=
      OnlyFocus { s with shared := t.shared } t ∧ t.shared = (s.countBanks size (places size)).shared
    (∀ r ∈ scratchLoadRows, loadField s r.shape d → SoundBase s d a → inside r.size →
      ∃ t, exec (inIssue 19 r imm 0 0 d a off) s = .next t ∧ banks t r.size
        ∧ AccessBegun s t 2 (.sload r.size (dstOf s r.shape d.toNat) (places r.size)))
    ∧ ∀ r ∈ scratchStoreRows, r.shape.srcOk (isUniform s d) d.toNat = true → SoundData s r.shape d a → inside r.size →
        ∃ t, exec (inIssue 19 r imm 0 0 d a off) s = .next t ∧ banks t r.size
          ∧ AccessBegun s t 2 (.sstore r.size ((places r.size).map fun e =>
              let x := s.storeData r.shape e.1 d.toNat
              (e.1, (e.2, (BitVec.ofNat 64 x, BitVec.ofNat 64 (x / 2 ^ 64))))))

/-- R116, R268: the first misaligned lane raises the alignment trap with its address; nothing is put in flight. -/
def Sys2Proof.Spec.AlignmentTraps : Prop :=
  ∀ (ord : BitVec 2) (scope : BitVec 3) (d a : Code) (off : BitVec 5) (s : State) (l : Nat) (before after : List Nat),
    kindOk s d → baseField s d a → isPort d.toNat = false → s.scopeOk scope.toNat = true → s.cur.count 0 < 63 →
    s.cur.count 1 < 63 → s.cur.count 2 < 63 → canTrap s → accessing s d = before ++ l :: after → SoundBase s d a →
    let misaligned (size : Nat) : Prop := (∀ k ∈ before, (address s a (off.setWidth 64) size k).toNat % size = 0)
      ∧ (address s a (off.setWidth 64) size l).toNat % size ≠ 0
    (∀ r ∈ loadRows, loadField s r.shape d → misaligned r.size →
      ∃ t, exec (r.instr ord scope d a off) s = .next t
        ∧ Trapped s t s.cur 3 s.cur.pc (address s a (off.setWidth 64) r.size l))
    ∧ (∀ r ∈ storeRows, r.shape.srcOk (isUniform s d) d.toNat = true → SoundData s r.shape d a → misaligned r.size →
        ∃ t, exec (r.instr 0 scope d a off) s = .next t
          ∧ Trapped s t s.cur 3 s.cur.pc (address s a (off.setWidth 64) r.size l))
    ∧ ∀ r ∈ scratchLoadRows, loadField s r.shape d → misaligned r.size →
        ∃ t, exec (r.instr 0 0 d a off) s = .next t
          ∧ Trapped s t s.cur 3 s.cur.pc (address s a (off.setWidth 64) r.size l)

/-- R103, R257: a scope wider than the launch allows raises the scope trap before the access is checked. -/
def Sys2Proof.Spec.ScopeTraps : Prop :=
  ∀ r ∈ loadRows, ∀ (ord : BitVec 2) (scope : BitVec 3) (d a : Code) (off : BitVec 5) (s : State),
    kindOk s d → loadField s r.shape d → baseField s d a → 1 < scope.toNat → s.launch.record.maxsc < scope.toNat →
    canTrap s →
    ∃ t, exec (r.instr ord scope d a off) s = .next t ∧ Trapped s t s.cur 12 s.cur.pc (scope.setWidth 64)

/-- R103, R116, R257, R268: misaligned accesses and scopes that are too wide. -/
def Obligations.AccessTraps : Prop := AlignmentTraps ∧ ScopeTraps

/-- R276, R277, R280: bytes that a core performs at a scope are what its accesses of that scope read from then on. Where no
other line has to leave a cache for it, every byte of memory outside the line's home is as it was (R237). -/
def Obligations.PerformedStoreIsSeen : Prop :=
  ∀ (s : State) (core scope : Nat) (home : Home) (line : Nat) (mask : BitVec 64) (data : BitVec 512) (p : Bool),
    let a := Agent.ofCore core
    let t := s.perform a scope home line mask data p
    (∀ i < 64, mask.getLsbD i = true → lineByte (t.view a scope home line).1 i = lineByte data i)
      ∧ ((scope ≤ 3 → ∀ u, a.unit (pointLevel scope) = some u → s.hasWay (pointLevel scope) u line = true) →
          ∀ q, q / 64 ≠ s.homeKey line → t.byte q = s.byte q)

/-- R98, R265, R267: a fence whose waits are over completes; with release order it is a region of its own, and pushes what the core
has stored to the point of its scope. -/
def Sys2Proof.Spec.FencesComplete : Prop :=
  ∀ (ord : BitVec 2) (scope : BitVec 3) (s : State), s.u = true → s.scopeOk scope.toNat = true → ord ≠ 0 →
    s.cur.ppath &&& 5 = 0 →
    (if ord.getLsbD 1 then Releases s scope.toNat
     else s.cur.loadsQuiet = true ∧ s.heldLine s.cur.core scope.toNat = false) →
    ∃ t, exec (.fence ord scope) s = .next t ∧ GoesOn s t.cur s.nextPc (fun _ => 0) ∧ RegistersKept s t
      ∧ t.cur.flights = s.cur.flights ∧ (ord.getLsbD 1 = true → t.cur.rstart = s.nextPc)
      ∧ t.teams = s.teams ∧ t.launches = s.launches
      ∧ (let u := if ord.getLsbD 1 then released s scope.toNat else s
         let v := if ord.getLsbD 0 then u.acquire scope.toNat else u
         t.mem = v.mem ∧ t.copies = v.copies ∧ t.poison = v.poison ∧ t.writeBuf = v.writeBuf)

/-- R266, R267: what a release of a scope leaves: no store of the core waits in a buffer, and none of its dirty bytes below the point
is narrower than the scope. A line of the region waits for loads alone, of which none is left. -/
def Sys2Proof.Spec.ReleasesPush : Prop :=
  ∀ (scope : Nat) (s : State), 1 ≤ scope → scope ≤ 7 → s.cur.id ≠ 0 → Releases s scope →
    (∀ l ∈ s.cur.storeBuf, ∀ f ∈ s.cur.flights, f.tag ∉ l.after) →
    (released s scope).cur.storeBuf = [] ∧ (∀ e ∈ (released s scope).writeBuf, e.core ≠ s.cur.core)
      ∧ NothingNarrow (released s scope) s.cur.core scope

/-- R266, R280: what the push of one line leaves at the point of its scope: the byte that the core's innermost dirty copy held is what
the core's accesses of the scope read. -/
def Sys2Proof.Spec.PushedBytesAreSeen : Prop :=
  ∀ (s : State) (core scope line i : Nat) (c : Copy), 2 ≤ scope → scope ≤ 7 → i < 64 → s.inHostBias line = false →
    let a := Agent.ofCore core
    c ∈ s.pathCopies a line → c.level < pointLevel scope → c.reg < scope → c.dirty.getLsbD i = true →
    (∀ x ∈ s.pathCopies a line, x.level < c.level → x.dirty.getLsbD i = false) →
    (∀ x ∈ s.pathCopies a line, x.level = c.level → x = c) →
    lineByte ((s.perform a scope .cached line 0 0 false).view a scope .cached line).1 i = lineByte c.data i

/-- R123: `WAITP` goes on where the counter of the path is not above its operand, and stalls otherwise. -/
def Sys2Proof.Spec.CounterWaits : Prop :=
  ∀ (a : Code) (path : BitVec 5) (s : State), s.u = true → isS a.toNat = true → path.toNat < 6 →
    SoundU s [⟨a.toNat, .s⟩] →
    (s.cur.count path.toNat ≤ (s.sreg 0 (a.toNat - 64)).toNat → s.cur.ppath.getLsbD path.toNat = false →
      ∃ t, exec (.waitp a path) s = .next t ∧ Ended s t s.cur s.nextPc (fun _ => 0))
    ∧ ((s.sreg 0 (a.toNat - 64)).toNat < s.cur.count path.toNat →
      ∃ t, exec (.waitp a path) s = .next t ∧ t.cur.pc = s.cur.pc ∧ t.cur.wait = .retry ∧ RegistersKept s t)

/-- R98, R123, R265 to R267: fences and what a release leaves at the point of its scope, and waits on a counter. -/
def Obligations.FencesAndCounterWaits : Prop := FencesComplete ∧ ReleasesPush ∧ PushedBytesAreSeen ∧ CounterWaits

/-- R272, R273: `WAITV` of a value that differs writes it to its register and goes on, once the loads before it have
returned where it is an acquire; of an equal value it parks the group on the line. -/
def Obligations.ValueWaits : Prop :=
  ∀ (imm : Option (BitVec 27)) (ord : BitVec 2) (scope : BitVec 3) (d a : Code) (off : BitVec 5) (s : State) (p : Placed),
    issueOk s imm → s.u = true → isS d.toNat = true → isS a.toNat = true → s.scopeOk scope.toNat = true →
    Sound s [0] [⟨d.toNat, .s⟩, ⟨a.toNat, .s⟩] →
    let va := s.sreg 1 (a.toNat - 64) + 8 * offsetUnits imm off
    let i : Instr := match imm with
      | none => .waitv ord scope d a off
      | some x => .pfx x (some (.mem 20 2 ord scope d a off))
    va.toNat % 8 = 0 → canonical va = true → s.xlate .load va = .ok p → (∀ f ∈ s.cur.flights, f.touches p.pa 8 = false) →
    (crossesLink s.cur.core scope.toNat p.home p.pa = true → s.syncOpen s.cur.core < 32) →
    let u := s.settleVa .load va
    (ord = 1 → s.cur.loadsQuiet = true ∧ u.heldLine s.cur.core scope.toNat = false) →
    let x : DWord := BitVec.ofNat 64 (leNat (u.readOwn scope.toNat p 8).1)
    (u.readOwn scope.toNat p 8).2 = false →
    ∃ t, exec i s = .next t ∧
      if x = s.sreg 0 (d.toNat - 64) then t.cur.pc = s.cur.pc ∧ RegistersKept s t
          ∧ ∃ entry, t.cur.wait = .waitv (p.pa / 64) scope.toNat entry false
      else GoesOn s t.cur s.nextPc (fun _ => x) ∧ sWritten s.cur (d.toNat - 64) x t.cur

/-- `ADDI` and `LIM` under a prefix, with their immediates. -/
def Sys2Proof.Spec.pairRows (imm : BitVec 27) (x13 : BitVec 13) (x20 : BitVec 20) : List Row :=
  [{ instr := fun d a _ => .pfx imm (some (.addi d a x13)), srcs := fun _ a _ => [⟨a.toNat, .wide⟩], dst := .w .full, lat := 2,
     value := fun _ xs => (src xs 0 + (imm ++ x13 : BitVec (27 + 13)).signExtend 64, 0) },
   { instr := fun d _ _ => .pfx imm (some (.lim d x20)), srcs := fun _ _ _ => [], dst := .w .full, lat := 2,
     value := fun _ _ => ((imm ++ x20 : BitVec (27 + 20)).signExtend 64, 0) }]

/-- R32, R66, R77: a prefix pair is the instruction of its second word with the combined immediate: `ADDI` and `LIM` in the
per-thread form, the uniform form and the form with ports, with every destination and every source that those have alone; every branch
and every call. The memory pairs stand in the statements of their instructions. -/
def Sys2Proof.Spec.LegalPairs : Prop :=
  ∀ (imm : BitVec 27) (x13 : BitVec 13) (x20 : BitVec 20) (x23 : BitVec 23) (s : State), s.issue.pairOk = true →
    (∀ r ∈ pairRows imm x13 x20, ∀ d a b : Code,
      threadFormAt s (r.instr d a b) (r.srcs d a b) r.dst d.toNat r.lat (r.val d a b s)
        ∧ uniformFormAt s (r.instr d a b) (r.srcs d a b) r.dst d.toNat (r.val d a b s 0)
        ∧ portFormAt s (r.instr d a b) (r.srcs d a b) r.dst d.toNat (r.val d a b s))
    ∧ (s.u = true →
        let target := s.nextPc + 4 * (imm ++ x23 : BitVec (27 + 23)).signExtend 64
        (∀ cond < 6, ∃ t, exec (.pfx imm (some (.br (BitVec.ofNat 4 cond) x23))) s = .next t
          ∧ if taken s cond then Ended s t (transferred s.cur target) target (fun _ => 0)
            else Ended s t s.cur s.nextPc (fun _ => 0))
        ∧ ∀ f < 4, canTrap s →
            (∃ t, exec (.pfx imm (some (.br (BitVec.ofNat 4 (8 + f)) x23))) s = .next t ∧ Called s t target f)
              ∧ ∃ t, exec (.pfx imm (some (.br (BitVec.ofNat 4 (12 + f)) x23))) s = .next t
                  ∧ if s.em = 0 then Ended s t s.cur s.nextPc (fun _ => 0) else Called s t target f)

/-- R66: the second word of a pair that carries a schedule of its own makes the pair an illegal instruction, and so does a
prefix before an instruction that it cannot extend. -/
def Sys2Proof.Spec.IllegalPairs : Prop :=
  ∀ (imm : BitVec 27) (second : Option Prefixed) (s : State), canTrap s →
    s.issue.pairOk = false ∨ second = none →
    ∃ t, exec (.pfx imm second) s = .next t ∧ Trapped s t s.cur 1 s.cur.pc (s.issue.word.setWidth 64)

/-- R32, R66, R77: prefix pairs, and those that are illegal. -/
def Obligations.PrefixPairs : Prop := LegalPairs ∧ IllegalPairs


/-! ### The matrix array -/

/-- R323, R324, R342: a matrix cell whose team has a context, in the form and on the core that R342 asks for, with valid
fields, stalls at its place in the order of stalling until it is accepted. -/
def Obligations.MatrixCells : Prop :=
  ∀ r ∈ matrixRows, ∀ (d a b : Code) (s : State) (tm : Team),
    s.u = r.uniform → s.team? s.cur.team = some tm → tm.ctx ≠ none → (r.uniform = true → s.cur.core % 2 = 0) →
    r.fields s d a b → s.cur.count 4 < 63 →
    (r.ends = true ∨ r.pops a ≠ [] ∨ r.push d ≠ none → s.cur.walking = false) →
    s.rillBlocked s.em (r.pops a) (r.push d) = none →
    Sound s (if r.uniform then [0] else s.lanesOf s.em) (mtxReads (r.instr d a b)) →
    ∃ t, exec (r.instr d a b) s = .next t
      ∧ t.cur.wait = .mtx s.fresh s.issue.word none ∧ t.fresh = s.fresh + 1 ∧ t.cur.pc = s.cur.pc
      ∧ RegistersKept s t ∧ t.cur.flights = s.cur.flights ∧ t.mem = s.mem ∧ t.teams = s.teams

/-- R324, R333: the cell that has stalled longest in its team is accepted where no cell of the team is in progress: it is
put in flight on mtx, and the group goes on. -/
def Sys2Proof.Spec.AcceptedCells : Prop :=
  ∀ (d a : Code) (s : State) (g n : Nat) (w : Word) (pins : Option (List Nat)) (x : Group) (tm : Team),
    ∀ c ∈ simpleCells x d a,
    Numbered s → s.group? g = some x → x.live = true → x.fault = none → s.team? x.team = some tm →
    tm.stopping = false → tm.mtxBusy = none → x.wait = .mtx n w pins → decodeWord w = .ok c.1 → isMma w = false →
    (c.1 = .mscl d a → isS a.toNat = true) → ((s.focus g).oldestCell tm.id).map (·.id) = some g → x.hazards = [] →
    x.badSources 0 [] (mtxReads c.1) = false → ∃ t y, exec (.mtxAccept g) s = .next t ∧ t.group? g = some y ∧ OtherGroups s t g ∧ t.mem = s.mem
      ∧ y.pc = x.pc + 4 ∧ y.rstart = x.pc + 4 ∧ y.wait = .none
      ∧ y.flights = x.flights ++ [{ tag := x.nextTag, path := 4, pc := x.pc, walking := false, fva := 0, finfo := 0,
                                     done := false, born := s.draws + 1, after := [], kind := .mtx c.2 0 }]
      ∧ t.team? tm.id = some { tm with mtxBusy := some (g, x.nextTag) }

/-- R335: `MRD` and `MWR` are accepted with what they move, of registers or of ports: an `MRD` converts the row's elements at
acceptance, an `MWR` takes the words of its lanes. One with a port ends the region and moves the queues (R217, R338). -/
def Sys2Proof.Spec.AcceptedRowMoves : Prop :=
  ∀ (d a b : Code) (s : State) (g n : Nat) (w : Word) (x : Group) (tm : Team),
    let u := atCell s g w
    let sel := u.wide 1 b
    uniformSrc b.toNat = true → 1 ≤ outFormat u → outFormat u ≤ 3 →
    (CellReady s g n w none (.mrd d a b) x tm → a.toNat < 8 → isV d.toNat = true ∨ isPort d.toNat = true →
      Sound u (u.lanesOf u.em) [⟨b.toNat, .wide⟩] →
      let port := if isPort d.toNat then some (d.toNat - 100) else none
      u.rillBlocked u.em [] port = none →
      ∃ t, exec (.mtxAccept g) s = .next t ∧ t.mem = s.mem ∧ (isV d.toNat = true → OtherGroups s t g)
        ∧ CellTaken s t g x tm (.read (destination u (.w .zero) d.toNat) ((rowRead u a.toNat sel).map fun e => (e.1, e.2.1)))
            (flagsOf ((rowRead u a.toNat sel).map (·.2.2))) (isPort d.toNat)
        ∧ QueuesMoved u t u.em [] port (fun l => .reserved g (64 * x.nextTag + l)))
    ∧ (CellReady s g n w none (.mwr d a b) x tm → d.toNat < 8 → isV a.toNat = true ∨ isPort a.toNat = true →
        Sound u (u.lanesOf u.em) [⟨a.toNat, .w⟩, ⟨b.toNat, .wide⟩] →
        let pops := if isPort a.toNat then [a.toNat - 100] else []
        u.rillBlocked u.em pops none = none →
        ∃ t, exec (.mtxAccept g) s = .next t ∧ t.mem = s.mem ∧ (isV a.toNat = true → OtherGroups s t g)
          ∧ CellTaken s t g x tm (.write d.toNat (rowWritten u a sel)) 0 true
          ∧ QueuesMoved u t u.em pops none (fun _ => .ready 0))

/-- R326, R331, R336, R337: the cells that reach memory are accepted once what their group has stored has reached the cluster and
their rows translate: an `MSTO` with the image of each row in the output format of nf, an `MLDA` and an `MMA` with the bytes of their
rows at acceptance. An `MMA` holds its pins and waits for its turn (R324, R330). -/
def Sys2Proof.Spec.AcceptedMemoryCells : Prop :=
  ∀ (d a b : Code) (s : State) (g n : Nat) (w : Word) (x : Group) (tm : Team), d.toNat < 8 → pairField a →
    let u := (atCell s g w).endRegion
    let v := u.release 2
    let base := v.wide 0 a
    let stride := v.wide 1 (a + 1)
    let image := (List.range 32).map (rowImage tm v.nfSeen d.toNat)
    let taken (q : State) (segs : List (List Seg)) : List MtxRow :=
      State.takeRows { q with draws := q.draws + 1 } (Agent.ofCluster (x.core / 8)) segs
    u.cur.count 1 = 0 → u.heldLine x.core 2 = false →
    (∀ segs q, CellReady s g n w none (.msto d a) x tm → outFormat (atCell s g w) ≤ 10 →
      x.badSources 0 [] (mtxReads (.msto d a)) = false →
      v.checkRows .store (((rowVas base stride 32).zip image).map fun e => (e.1, e.2.1.length)) (formatAlign (outFormat v))
        = .ok segs q →
      ∃ t, exec (.mtxAccept g) s = .next t ∧ OtherGroups q t g ∧ t.mem = q.mem
        ∧ CellTaken s t g x tm (.store ((segs.zip image).flatMap fun e => dataPieces e.1 e.2.1)) (flagsOf (image.map (·.2))) true)
    ∧ (∀ segs q, CellReady s g n w none (.mlda d a) x tm → x.badSources 0 [] (mtxReads (.mlda d a)) = false →
        v.checkRows .load ((rowVas base stride 32).map fun va => (va, 1024)) (fun va => aligned va 16) = .ok segs q →
        ∃ t y, exec (.mtxAccept g) s = .next t ∧ OtherGroups q t g ∧ t.mem = q.mem ∧ t.group? g = some y ∧ y.pc = x.pc + 4
          ∧ y.wait = .none ∧ y.rstart = x.pc + 4 ∧ t.team? tm.id = some { tm with mtxBusy := some (g, x.nextTag) }
          ∧ ∃ f ∈ y.flights, f.tag = x.nextTag ∧ f.path = 4 ∧ f.kind = .mtx (.load d.toNat (taken q segs)) 0)
    ∧ ∀ (ctl : Nat) (i : Instr) (pins : List Nat) (segs : List (List Seg)) (q : State),
        (ctl, i) ∈ [(0, Instr.mma d a b), (1, .mmaAcc d a b), (2, .mmaSacc d a b)] → CellReady s g n w (some pins) i x tm →
        isMma w = true → pairField b → (ctl = 2 → b.toNat ≤ 92) → formatsAgree (atCell s g w) →
        x.badSources 0 [] (mtxReads i) = false → (atCell s g w).cellTurn tm w = true → v.mmaRows a b = .ok segs q →
        ∃ t y, exec (.mtxAccept g) s = .next t ∧ OtherGroups q t g ∧ t.mem = q.mem ∧ t.group? g = some y ∧ y.pc = x.pc + 4
          ∧ y.wait = .none ∧ y.rstart = x.pc + 4 ∧ t.team? tm.id = some { tm with mtxBusy := some (g, x.nextTag) }
          ∧ t.arrayBusy = (x.core / 2, tm.id) :: s.arrayBusy
          ∧ ∃ f ∈ y.flights, f.tag = x.nextTag ∧ f.path = 4
              ∧ f.kind = .mtx (.mma d.toNat ctl (toA80 f64 (v.wide 4 (b + 2)).toNat) (v.nfSeen.toNat % 16) (v.nfSeen.toNat / 16 % 16)
                  ((taken q segs).take 32) ((taken q segs).drop 32) pins) 0

/-- R325, R333, R334: the cell in progress retires: its accumulator is written, the others are not, its flags are raised,
and its operation is over. -/
def Sys2Proof.Spec.RetiredCells : Prop :=
  ∀ (s : State) (g tag acc src : Nat) (factor : A80) (x : Group) (tm : Team) (f : Flight) (op : MtxOp) (flags : BitVec 7),
    Numbered s → s.group? g = some x → x.flight? tag = some f → f.kind = .mtx op flags → s.team? x.team = some tm →
    tm.mtxBusy = some (g, tag) → (op = .zero acc ∨ op = .scale acc factor ∨ op = .move acc src) →
    ∃ t y z, exec (.mtxRetire g tag) s = .next t ∧ t.group? g = some y ∧ y.flight? tag = none
      ∧ y.fpc = x.fpc ||| fpcBits flags ∧ OtherGroups s t g ∧ t.mem = s.mem ∧ t.team? tm.id = some z ∧ z.mtxBusy = none
      ∧ ∀ k i j, i < 32 → j < 64 →
          z.element k i j = if k = acc then simpleElement op tm i j else tm.element k i j

/-- R326, R328, R329: an `MMA` whose operands hold what they held at acceptance gives every element of its accumulator the
sum of the products of its row of A and its column of B, from its start value on. -/
def Sys2Proof.Spec.MatrixProducts : Prop :=
  ∀ (s : State) (g tag acc ctl afmt bfmt : Nat) (factor : A80) (rows cols : List MtxRow) (pins : List Nat) (x : Group)
    (tm : Team) (f : Flight) (flags : BitVec 7), Numbered s → s.group? g = some x → x.flight? tag = some f →
    f.kind = .mtx (.mma acc ctl factor afmt bfmt rows cols pins) flags → s.team? x.team = some tm → tm.mtxBusy = some (g, tag) →
    rows.length = 32 → cols.length = 64 → unchanged s (Agent.ofCluster (x.core / 8)) (rows ++ cols) →
    ∃ t y z, exec (.mtxRetire g tag) s = .next t ∧ t.group? g = some y ∧ y.flight? tag = none ∧ y.ppath = x.ppath
      ∧ OtherGroups s t g ∧ t.mem = s.mem ∧ t.team? tm.id = some z ∧ z.mtxBusy = none
      ∧ ∀ k i j, i < 32 → j < 64 → z.element k i j =
          if k = acc then
            mmaElement ((s.launch? tm.launch).getD Launch.zero).degraded afmt bfmt
              (mmaStart ctl factor (tm.element acc i j)) (rowOf rows i) (rowOf cols j)
          else tm.element k i j

/-- R335: an `MRD` delivers what it read, and an `MWR` writes its elements, at retirement; no other element changes. -/
def Sys2Proof.Spec.RetiredRowMoves : Prop :=
  ∀ (s : State) (g tag acc first : Nat) (values : List (Nat × Nat)) (cells : List (Nat × A80)) (x : Group) (tm : Team) (f : Flight)
    (op : MtxOp) (flags : BitVec 7),
    Numbered s → s.group? g = some x → x.flight? tag = some f → f.kind = .mtx op flags → s.team? x.team = some tm →
    tm.mtxBusy = some (g, tag) →
    (op = .read (.v first 1) values → ∃ t y z, exec (.mtxRetire g tag) s = .next t ∧ t.group? g = some y ∧ y.flight? tag = none
      ∧ y.fpc = x.fpc ||| fpcBits flags ∧ OtherGroups s t g ∧ t.mem = s.mem ∧ WordsDelivered x y first 1 values
      ∧ t.team? tm.id = some z ∧ z.mtxBusy = none ∧ z.acc = tm.acc)
    ∧ (op = .write acc cells → (cells.map (·.1)).Nodup → (∀ e ∈ cells, e.1 < 2048) →
        ∃ t y z, exec (.mtxRetire g tag) s = .next t ∧ t.group? g = some y ∧ y.flight? tag = none
          ∧ y.fpc = x.fpc ||| fpcBits flags ∧ OtherGroups s t g ∧ t.mem = s.mem ∧ t.team? tm.id = some z ∧ z.mtxBusy = none
          ∧ ∀ k i j, i < 32 → j < 64 → z.element k i j =
              if k = acc then ((cells.find? (·.1 == 64 * i + j)).map (·.2)).getD (tm.element k i j) else tm.element k i j)

/-- R332, R337: an `MLDA` whose rows hold what they held at acceptance gives every element of its accumulator the 16 bytes of its
image. -/
def Sys2Proof.Spec.LoadedAccumulator : Prop :=
  ∀ (s : State) (g tag acc : Nat) (rows : List MtxRow) (x : Group) (tm : Team) (f : Flight) (flags : BitVec 7),
    Numbered s → s.group? g = some x → x.flight? tag = some f → f.kind = .mtx (.load acc rows) flags →
    s.team? x.team = some tm → tm.mtxBusy = some (g, tag) → rows.length = 32 →
    unchanged s (Agent.ofCluster (x.core / 8)) rows →
    ∃ t y z, exec (.mtxRetire g tag) s = .next t ∧ t.group? g = some y ∧ y.flight? tag = none ∧ y.ppath = x.ppath
      ∧ OtherGroups s t g ∧ t.mem = s.mem ∧ t.team? tm.id = some z ∧ z.mtxBusy = none
      ∧ ∀ k i j, i < 32 → j < 64 → z.element k i j =
          if k = acc then ofImage (leNat (((rowOf rows i).drop (16 * j)).take 16)) else tm.element k i j

/-- R278, R336: an `MSTO` retires once the loads that came before it have returned: its pieces are stored in turn, and no
accumulator changes; a CLU-scope access of the cluster then reads the bytes of the piece stored last. -/
def Sys2Proof.Spec.StoredAccumulator : Prop :=
  (∀ (s : State) (g tag : Nat) (pieces : List (Seg × Nat)) (x : Group) (tm : Team) (f : Flight) (flags : BitVec 7),
    Numbered s → s.group? g = some x → x.flight? tag = some f → f.kind = .mtx (.store pieces) flags → s.team? x.team = some tm →
    tm.mtxBusy = some (g, tag) → (∀ e ∈ x.flights, e.path = 0 → e.tag < tag → e.done = true) →
    ∃ t y, exec (.mtxRetire g tag) s = .next t ∧ t.group? g = some y ∧ y.flight? tag = none ∧ y.fpc = x.fpc ||| fpcBits flags
      ∧ t.team? tm.id = some { tm with mtxBusy := none }
      ∧ let u := pieces.foldl (fun u e => u.storePiece x.core e) (s.focus g)
        t.mem = u.mem ∧ t.copies = u.copies ∧ t.poison = u.poison)
  ∧ ∀ (s : State) (core : Nat) (p : Seg) (data : Nat), p.pa % 64 + p.len ≤ 64 →
      Holds (s.storePiece core (p, data)) (Agent.ofCluster (core / 8)) 2 p.home p.pa p.len data

/-- R324 to R329, R331 to R337: matrix cells from acceptance to retirement. -/
def Obligations.MatrixAcceptAndRetire : Prop :=
  AcceptedCells ∧ AcceptedRowMoves ∧ AcceptedMemoryCells ∧ RetiredCells ∧ RetiredRowMoves ∧ LoadedAccumulator ∧ StoredAccumulator
    ∧ MatrixProducts

/-! ### Engine instructions -/

/-- R343 to R346: `ENQ` checks its counter and its record, performs the release of its scope, and places a command of the
group in the queue of the engine that serves its core. -/
def Sys2Proof.Spec.CommandsEnqueued : Prop :=
  ∀ (cascade : Bool) (scope : BitVec 3) (d a b : Code) (s : State) (p q : Placed),
    (if cascade then 5 else 2) ≤ scope.toNat → s.u = true → isS d.toNat = true → isS a.toNat = true → isS b.toNat = true →
    b.toNat ≤ 92 → s.scopeOk scope.toNat = true → s.cur.count 3 < 63 → s.cur.walking = false → s.cur.quiet = true →
    Sound s [0] (enqReads d a b) →
    let ctr := s.wide 0 d
    let rec1 := s.wide 1 a
    let u := s.endRegion
    let v := u.settleVa .atomic ctr
    ctr.toNat % 8 = 0 → canonical ctr = true → u.xlate .atomic ctr = .ok p →
    rec1.toNat % 64 = 0 → canonical rec1 = true → v.xlate .load rec1 = .ok q →
    (v.settleVa .load rec1).heldLine s.cur.core scope.toNat = false →
    s.queued cascade (engineUnit cascade s.cur.core) < (if cascade then 256 else 64) →
    ∃ t c, exec (if cascade then .enqCascade scope d a b else .enqRunnel scope d a b) s = .next t ∧ EngineEnded s t
      ∧ t.cur.flights = s.cur.flights ++ [newFlight s 3 (.command s.fresh)] ∧ t.commands = s.commands ++ [c]
      ∧ c.id = s.fresh ∧ c.cascade = cascade ∧ c.unit = engineUnit cascade s.cur.core ∧ c.scope = scope.toNat
      ∧ c.launch = s.team.launch ∧ c.team = s.team.id ∧ c.group = s.cur.id ∧ c.ctr = ctr ∧ c.recva = rec1
      ∧ c.dense = s.wide 2 b
      ∧ c.coord = [((s.wide 3 (b + 1)).setWidth 32 : Word).toInt, ((s.wide 3 (b + 1)).extractLsb' 32 32).toInt,
          ((s.wide 4 (b + 2)).setWidth 32 : Word).toInt, ((s.wide 4 (b + 2)).extractLsb' 32 32).toInt,
          ((s.wide 5 (b + 3)).setWidth 32 : Word).toInt]
      ∧ c.tag = (s.wide 5 (b + 3)).toNat / 2 ^ 32 % 2 ^ 16 ∧ c.peer = (s.wide 5 (b + 3)).toNat / 2 ^ 48
      ∧ c.stage = .queued ∧ c.errors = 0 ∧ c.fault = none

/-- R356: `PUBLISH` writes the inactive frames into every leaf entry of its region, flips act and counts gen. -/
def Sys2Proof.Spec.RegionsPublished : Prop :=
  ∀ (a : Code) (s : State) (p : Placed), s.u = true → isS a.toNat = true → s.cur.count 3 < 63 → s.cur.walking = false →
    s.cur.quiet = true → SoundU s [⟨a.toNat, .s⟩] →
    let va := s.wide 0 a
    va.toNat % 64 = 0 → canonical va = true → s.endRegion.xlate .load va = .ok p → p.pa % 64 = 0 →
    let here := Agent.ofCore s.cur.core
    let u := s.endRegion.settleVa .load va
    let desc := u.ownPub p
    let r := u.release desc.scope
    let plan := r.pubPlan here desc
    let outside (line : Nat) : Prop := line < desc.inactive / 64 ∨ (desc.inactive + desc.length) / 64 ≤ line
    desc.ok = true → s.scopeOk desc.scope = true → u.pubPoison here desc = none →
    u.heldLine s.cur.core desc.scope = false → r.linesInUse (plan.map fun e => e.1 / 64) = false →
    (plan.map fun e => 64 * r.homeKey (e.1 / 64) + e.1 % 64).Nodup → outside (p.pa / 64) →
    (∀ e ∈ plan, e.1 % 8 = 0 ∧ outside (e.1 / 64) ∧ e.1 / 64 ≠ p.pa / 64) →
    let seen (q : State) : PubDesc := q.pubOf p (q.view here 6 p.home (p.pa / 64))
    ∃ t, exec (.publish a) s = .next t ∧ EngineEnded s t
      ∧ (∀ e ∈ plan, (t.word64 e.1).1 = e.2)
      ∧ (seen t).act = !(seen r).act ∧ (seen t).gen = (desc.gen + 1) % 2 ^ 64

/-- R358: `LAND` enters a window in the landing table of the group's cluster, one of a published region by its descriptor, and
`UNLAND` takes out what its launch has entered under a tag, once no delivery into it is under way. -/
def Sys2Proof.Spec.WindowsLanded : Prop :=
  ∀ (a b : Code) (s : State), s.u = true → isS a.toNat = true → isS b.toNat = true → s.cur.count 3 < 63 →
    s.cur.walking = false →
    let k := s.cur.core / 8
    let room (tag : Nat) : Prop := (s.landings.filter fun e => e.cluster == k).length < 64
      ∧ ∀ e ∈ s.landings, e.cluster = k → e.tag ≠ tag
    (let va := s.wide 0 a
     let x := (s.wide 1 b).toNat
     let length := x / 2 ^ 32
     va.toNat % 64 = 0 → x / 2 ^ 16 % 2 ^ 16 = 0 → length ≠ 0 → length % 64 = 0 → room (x % 2 ^ 16) →
     SoundU s [⟨a.toNat, .s⟩, ⟨b.toNat, .s⟩] → ∃ t, exec (.land a b) s = .next t ∧ EngineEnded s t ∧ t.mem = s.mem
       ∧ t.landings = s.landings
           ++ [{ cluster := k, tag := x % 2 ^ 16, launch := s.team.launch, shadow := false, va := va, length := length }])
    ∧ (∀ p, let va := s.wide 0 a
       let x := (s.wide 1 b).toNat
       let u := s.endRegion.settleVa .load va
       let desc := u.ownPub p
       va.toNat % 64 = 0 → x / 2 ^ 16 = 1 → canonical va = true → s.endRegion.xlate .load va = .ok p →
       desc.ok = true → s.scopeOk desc.scope = true → room (x % 2 ^ 16) → SoundU s [⟨a.toNat, .s⟩, ⟨b.toNat, .s⟩] →
       ∃ t, exec (.land a b) s = .next t ∧ EngineEnded s t ∧ t.mem = u.mem
         ∧ t.landings = s.landings ++ [{ cluster := k, tag := x % 2 ^ 16, launch := s.team.launch, shadow := true, va := va,
                                         length := desc.npages * 2 ^ desc.bits }])
    ∧ (let tag := (s.wide 0 a).toNat % 2 ^ 16
       SoundU s [⟨a.toNat, .s⟩] → (∀ c ∈ s.commands, c.launch = s.team.launch → c.landing k tag = false) →
       (∃ e ∈ s.landings, e.cluster = k ∧ e.tag = tag ∧ e.launch = s.team.launch) →
       ∃ t, exec (.unland a) s = .next t ∧ EngineEnded s t ∧ t.mem = s.mem
         ∧ t.landings = s.landings.filter fun e => !(e.cluster == k && e.tag == tag))

/-- R343 to R346, R356, R358: the engine instructions. -/
def Obligations.EngineInstructions : Prop := CommandsEnqueued ∧ RegionsPublished ∧ WindowsLanded


/-! ### Operations in flight -/

/-- R117, R122, R267, R280: the lanes that a load performs receive what their core sees at their places; the operation is
over with the last of them. A load that is no acquire leaves memory as it was. -/
def Sys2Proof.Spec.LoadsReturn : Prop :=
  ∀ (s : State) (g tag size scope : Nat) (m : LaneMask) (dst : Dst) (acq inv : Bool) (accs : List LaneAcc) (x : Group)
    (f : Flight), Numbered s → s.group? g = some x → x.flight? tag = some f →
    f.kind = .load size dst scope acq inv accs → MayReturn s g f m scope false accs →
    ∃ t y, exec (.loadResultReturn g tag m) s = .next t ∧ t.group? g = some y ∧ (acq = false → t.mem = s.mem)
      ∧ y.flight? tag = flightAfter f (!(restLanes m accs).isEmpty) (.load size dst scope acq inv (restLanes m accs))
      ∧ t.teams = s.teams ∧ t.launches = s.launches ∧ y.pc = x.pc ∧ y.em = x.em
      ∧ (acq = false → (∀ p, dst ≠ .port p) → OtherGroups s t g)
      ∧ (∀ first words, dst = .v first words → y.sregs = x.sregs ∧ y.hregs = x.hregs
          ∧ (inv = false → WordsDelivered x y first words ((pickLanes m accs).map fun a => (a.lane, loaded s x scope size a))))
      ∧ ∀ i a, dst = .s false i 1 → inv = false → pickLanes m accs = [a] →
          sget 0 y.sregs i = BitVec.ofNat 64 (loaded s x scope size a)

/-- R260, R261: an atomic returns the old value of its place, and leaves there what its operation makes of it. The accesses are
to no line from which a translation is cached. One that fails writes nothing; of a page in host bias the host has given up the line
(R435). -/
def Sys2Proof.Spec.AtomicsReturn : Prop :=
  ∀ (s : State) (g tag size scope : Nat) (m : LaneMask) (op : AtomOp) (dst : Dst) (acq : Bool) (accs : List LaneAcc)
    (x : Group) (f : Flight), Numbered s → s.group? g = some x → x.flight? tag = some f →
    f.kind = .atomic op size dst scope acq accs → MayReturn s g f m scope true accs →
    (s.focus g).tableLinesOf scope (pickLanes m accs) = [] →
    ∃ t y, exec (.loadResultReturn g tag m) s = .next t ∧ t.group? g = some y
      ∧ y.flight? tag = flightAfter f (!(restLanes m accs).isEmpty) (.atomic op size dst scope acq (restLanes m accs))
      ∧ ∀ a, pickLanes m accs = [a] → acq = false →
          let old := leNat (s.loadBytes (Agent.ofCore x.core) scope a.home a.pa size).1
          (∀ first words, dst = .v first words → WordsDelivered x y first words [(a.lane, old)])
            ∧ (match op.apply (BitVec.ofNat 64 old) a.opnd a.opnd2 with
              | some v => a.pa % 64 + size ≤ 64 → Holds t (Agent.ofCore x.core) scope a.home a.pa size v.toNat
              | none => s.inHostBias (a.pa / 64) = false → t.mem = s.mem)

/-- R253, R260: an atomic that has written table lines returns once no access translated through them is under way. -/
def Sys2Proof.Spec.TableAtomicsReturn : Prop :=
  ∀ (s : State) (g tag size scope : Nat) (m : LaneMask) (op : AtomOp) (dst : Dst) (acq : Bool) (values : List (Nat × Nat))
    (lines : List Nat) (rest : List LaneAcc) (x : Group) (f : Flight),
    Numbered s → s.group? g = some x → x.flight? tag = some f →
    f.kind = .returned op size dst scope acq values lines rest → s.linesInUse lines = false →
    ∃ t y, exec (.loadResultReturn g tag m) s = .next t ∧ t.group? g = some y
      ∧ y.flight? tag = flightAfter f (!rest.isEmpty) (.atomic op size dst scope acq rest)
      ∧ (∀ l ∈ t.tableLines, l ∉ lines)
      ∧ ∀ first words, dst = .v first words → acq = false → WordsDelivered x y first words values

/-- R64, R253: a store is acknowledged once no access translated through the table lines that it wrote is under way. -/
def Sys2Proof.Spec.StoresAcknowledged : Prop :=
  ∀ (s : State) (g tag : Nat) (lines : List Nat) (sync : Bool) (x : Group) (f : Flight),
    Numbered s → s.group? g = some x → x.flight? tag = some f → f.kind = .store lines sync → s.linesInUse lines = false →
    ∃ t y, exec (.storeAcknowledge g tag) s = .next t ∧ t.group? g = some y ∧ OtherGroups s t g ∧ t.mem = s.mem
      ∧ y = { x with flights := y.flights } ∧ y.flight? tag = none ∧ (∀ l ∈ t.tableLines, l ∉ lines)

/-- R268 to R270: scratchpad loads give the lanes the bytes of the team's scratchpad; a scratchpad store of one lane writes
its bytes there and no others. -/
def Sys2Proof.Spec.ScratchpadPerformed : Prop :=
  ∀ (s : State) (g tag n : Nat) (m : LaneMask) (x : Group) (f : Flight) (tm : Team),
    Numbered s → s.group? g = some x → x.flight? tag = some f → x.scratchWaits f m = false → s.team? x.team = some tm →
    (∀ dst lanes, f.kind = .sload n dst lanes → (lanes = [] ∨ ∃ e ∈ lanes, m.getLsbD e.1 = true) →
      let rest := lanes.filter fun e => !m.getLsbD e.1
      ∃ t y, exec (.scratchpadAccessPerformed g tag m) s = .next t ∧ t.group? g = some y ∧ t.mem = s.mem ∧ t.teams = s.teams
        ∧ y.flight? tag = flightAfter f (!rest.isEmpty) (.sload n dst rest)
        ∧ ∀ first words, dst = .v first words → OtherGroups s t g ∧ WordsDelivered x y first words
            ((lanes.filter fun e => m.getLsbD e.1).map fun e => (e.1, tm.scratchNum e.2 n)))
    ∧ ∀ l a lo hi, f.kind = .sstore n [(l, (a, (lo, hi)))] → m.getLsbD l = true →
        ∃ t y z, exec (.scratchpadAccessPerformed g tag m) s = .next t ∧ t.group? g = some y ∧ OtherGroups s t g
          ∧ t.mem = s.mem ∧ y.flight? tag = none ∧ t.team? tm.id = some z
          ∧ ∀ b, sget 0 z.scratch b =
              if a ≤ b ∧ b < a + n then (leBytes n (lo.toNat + 2 ^ 64 * hi.toNat)).getD (b - a) 0 else sget 0 tm.scratch b

/-- R61, R64, R129: the oldest result of the lng path is written, and its flags are raised. -/
def Sys2Proof.Spec.LongResultsReturn : Prop :=
  ∀ (s : State) (g tag : Nat) (dst : Dst) (values : List (Nat × Nat)) (flags : BitVec 7) (x : Group) (f : Flight),
    Numbered s → s.group? g = some x → x.flight? tag = some f → f.path = 5 → f.kind = .long dst values flags →
    (∀ h ∈ x.older tag, h.path = 5 → h.done = true) →
    ∃ t y, exec (.longLatencyResult g tag) s = .next t ∧ t.group? g = some y ∧ t.mem = s.mem ∧ t.teams = s.teams
      ∧ y.flight? tag = none ∧ y.fpc = x.fpc ||| fpcBits flags ∧ y.pc = x.pc
      ∧ ∀ first words, dst = .v first words → OtherGroups s t g ∧ WordsDelivered x y first words values

/-- R61, R64, R117, R260, R270: what is in flight returns. -/
def Obligations.AccessesReturn : Prop :=
  LoadsReturn ∧ AtomicsReturn ∧ TableAtomicsReturn ∧ StoresAcknowledged ∧ ScratchpadPerformed ∧ LongResultsReturn

/-! ### Groups that stall -/

/-- R218, R219: the oldest entry of a queue that is not filled becomes filled, if its value is known. -/
def Sys2Proof.Spec.RillEntriesFill : Prop :=
  ∀ (s : State) (g lane port : Nat) (x : Group) (v : Word) (before rest : List RillEntry),
    Numbered s → s.group? g = some x → lane < x.threads.length → port < 6 →
    (x.lane lane).queue port = before ++ .ready v :: rest → (∀ e ∈ before, e.isFilled = true) →
    ∃ t y, exec (.rillEntryFill g lane port) s = .next t ∧ GroupBecomes s t g y
      ∧ ∀ l q, l < x.threads.length → q < 6 → (y.lane l).queue q =
          if l = lane ∧ q = port then before ++ .filled v :: rest else (x.lane l).queue q

/-- R226, R273, R371, R378, R379: what ends the stall of a group: a blocked rill instruction and the watchdog trap, a walk that
fails parks it, and a monitor that fires makes it read again. The model's choices among these clauses are three: the time-out of a
blocked rill instruction may come at any step, where R226 asks for 2^26 cycles (log entry 29); whether a WAITV has a monitor entry is a
flag that was fixed when it parked (log entry 79); and a trap makes rstart the handler's address (log entry 24). -/
def Sys2Proof.Spec.StallsEnd : Prop :=
  ∀ (s : State) (g : Nat) (x : Group), Numbered s → s.group? g = some x → x.live = true →
    (∀ port, x.wait = .rill port → x.intrap = false → x.walking = false →
      ∃ t, exec (.rillBlockTimeout g) s = .next t ∧ GroupTraps s t g x 11 (BitVec.ofNat 64 (100 + port)))
    ∧ (∀ line scope, x.wait = .waitv line scope true true →
        ∃ t, exec (.waitvMonitorFire g) s = .next t ∧ GroupBecomes s t g { x with wait := .retry })
    ∧ (∀ line scope fired, x.wait = .waitv line scope false fired →
        ∃ t, exec (.waitvMonitorPoll g) s = .next t ∧ GroupBecomes s t g { x with wait := .retry })
    ∧ (x.fault = none → x.intrap = false → x.walking = false →
        (2 ^ 24 ≤ x.watchdog → ∃ t, exec (.watchdogTrap g) s = .next t ∧ GroupTraps s t g x 9 0)
          ∧ ((∃ k v w, x.wait = .rendezvous k v w) → x.watchdog < 2 ^ 24 → s.watchdogIn x = true →
              ∃ t, exec (.watchdogTrap g) s = .next t ∧ GroupTraps s t g x 9 1))
    ∧ ∀ tag f tm l, x.flight? tag = some f → f.walking = true → s.team? x.team = some tm → s.launch? tm.launch = some l →
        ∃ t y r, exec (.translationComplete g tag) s = .next t ∧ t.group? g = some y ∧ OtherGroups s t g ∧ t.mem = s.mem
          ∧ y.pc = x.rstart ∧ y.wb = x.rwb ∧ y.flights = x.flights.filter (fun h => !h.walking)
          ∧ y.storeBuf = x.storeBuf.filter (·.committed) ∧ y.fault = some ⟨f.fva, r.seq, false⟩
          ∧ t.faultRecs = s.faultRecs ++ [r] ∧ r.ctx = l.record.ctx ∧ r.kind = 0 ∧ r.info = f.finfo ∧ r.va = f.fva
          ∧ r.pc = x.rstart ∧ r.seq = sget 0 s.faultSeq l.record.ctx

/-- R218, R219, R226, R273, R371, R378, R379: events of a group that is not issuing. That a time-out may come at any step, the entry
flag of a WAITV, and rstart after a trap are the model's choices (log entries 29, 79 and 24). -/
def Obligations.GroupEvents : Prop := RillEntriesFill ∧ StallsEnd

/-! ### The pipe -/

/-- R182, R410: a group that may have its pipe comes into focus: it holds the pipe, or the holder does not keep it and no ready
group goes first. Of the groups of the pipe those that are ready and do not hold it count the cycles (R411), and nothing else changes. -/
def Sys2Proof.Spec.PipeChoices : Prop :=
  ∀ (s : State) (g : Nat) (x : Group), Numbered s → s.group? g = some x → s.eligible x = true →
    ∃ t, exec (.groupIssueChoice g) s = .next t ∧ t.cur.id = g
      ∧ t = { s with cur := t.cur, others := t.others, draws := s.draws + 1, burst := 0 }
      ∧ ∀ h y, s.group? h = some y → ∃ z, t.group? h = some z ∧ z = { y with stalls := z.stalls }
          ∧ (s.readyNow y = false ∨ y.pipeKey ≠ x.pipeKey ∨ (s.holder x.pipeKey).1 = h → z = y)

/-- R410: where the instruction of the group in focus would end past the 32nd cycle of its run, it does not issue, and the pipe
passes to the ready group whose last issue is oldest: that group is ready, and no other ready group of the pipe has issued
longer ago. -/
def Sys2Proof.Spec.RunsEnd : Prop :=
  ∀ (s t : State) (w : Word) (slot : IssueSlot), s.cur.id ≠ 0 → Numbered s → s.canIssue s.cur = true →
    s.before = none → s.fetchInstr = .ok w slot t →
    let u := t.begin w slot
    u.waitsOn = none → u.waitsBar = none → u.pastRun u.cur u.issue = true → u.rivals u.cur ≠ [] →
    ∃ v, exec (.runLimitExpiry s.cur.id) s = .next v ∧ v.mem = t.mem ∧ v.teams = t.teams
      ∧ (∃ g ∈ u.rivals u.cur, v.cur.id = g.id ∧ v.holder s.cur.pipeKey = (g.id, 0) ∧ ∀ h ∈ u.rivals u.cur, g.lastIssue ≤ h.lastIssue)
      ∧ ∃ y, v.group? s.cur.id = some y ∧ y.pc = s.cur.pc ∧ y.wait = .retry ∧ y.switch = true
          ∧ y.threads.map (fun x => (x.stack, x.pred)) = s.cur.threads.map (fun x => (x.stack, x.pred))

/-- R63, R182, R204, R410: how a pipe passes from one group to another. -/
def Obligations.PipePasses : Prop := YieldPassesThePipe ∧ PipeChoices ∧ RunsEnd


/-! ### Caches and buffers -/

/-- R241, R277, R278: the oldest line of a bank of a core's write buffer is performed at its scope once the loads that it waits for
have returned and a way is free for it at its point; what its core then reads there is what the line holds. Where no other line has to leave a cache for it, the
bytes of every other line are as they were (R237). -/
def Sys2Proof.Spec.BufferDrains : Prop :=
  ∀ (s : State) (core bank : Nat) (e : WriteEntry),
    (s.writeBuf.find? fun w => w.core == core && w.line % 8 == bank) = some e → s.freeToDrain e = true →
    s.drainWay e = true →
    ∃ t, exec (.writeBufferDrain core bank) s = .next t
      ∧ (∀ i < 64, e.mask.getLsbD i = true →
          lineByte (t.view (Agent.ofCore core) e.scope e.home e.line).1 i = lineByte e.data i)
      ∧ (∀ w ∈ s.writeBuf, w ≠ e → w ∈ t.writeBuf)
      ∧ (HasWays s core e.scope e.line → ∀ q, q / 64 ≠ s.homeKey e.line → t.byte q = s.byte q)
      ∧ t.teams = s.teams ∧ t.launches = s.launches

/-- The groups are as before, but that operations in flight may have to wait for others that wait for the same line (R240, R419). -/
def Sys2Proof.Spec.OnlyOrder (s t : State) : Prop :=
  List.Forall₂ (fun x y : Group => ∃ fs, y = { x with flights := fs }
      ∧ List.Forall₂ (fun f h : Flight => ∃ more, h = { f with after := f.after ++ more }) x.flights fs)
    (s.cur :: s.others) (t.cur :: t.others)

/-- R240, R241, R280: a fill brings a line that an access of the core has missed to a level of the core's path that has a way for
it; where no other line has to leave, memory is as before, and the line is what the core's point of the scope holds, under the
dirty bytes that the core's own caches hold at this level and beyond: what an access of the scope sees where none lies further in. -/
def Sys2Proof.Spec.LinesFill : Prop :=
  ∀ (s : State) (core level line scope u : Nat), let a := Agent.ofCore core
    a.unit level = some u → level ≤ 2 → level ≤ pointLevel scope → 1 ≤ scope → s.inHostBias line = false →
    s.missOf core level u line scope = true → (s.makeRoom a level line).hasWay level u line = true →
    s.pinnedLine line = false → s.heldUp false (dieOf core) scope line = false →
    ∃ t, exec (.cacheMissFill core level line scope) s = .next t
      ∧ ∃ c ∈ t.copies, c.level = level ∧ c.unit = u ∧ c.line = line
          ∧ (s.hasWay level u line = true →
              c.data = (s.overlaid a level line (s.servedFrom a level scope line)).1 ∧ t.mem = s.mem ∧ OnlyOrder s t
              ∧ ((∀ x ∈ s.copies, x.line = line → a.onPath x = true → level ≤ x.level) →
                  c.data = (s.view a scope .cached line).1))

/-- The scope at which dirty bytes that leave a cache of a level are performed (R280). -/
def Sys2Proof.Spec.outwardScope (level : Nat) : Nat := if level = 2 then 7 else level + 2

/-- The cache or the home that takes the dirty bytes of a copy holds byte `i` of a line (R280). -/
def Sys2Proof.Spec.OutwardByte (t : State) (level unit line i : Nat) (b : Byte) : Prop :=
  if level = 2 then lineByte (t.homeLine line) i = b
  else lineByte (t.view (cacheAgent (level + 1) (if level = 1 then unit / 4 else unit / 8)) (outwardScope level) .cached line).1 i = b

/-- R280, R286: an eviction of a copy that is not pinned drops it, and its dirty bytes, which are narrow for the next level, go
one level outward: to the next cache, where it has a way for them, or to the home. -/
def Sys2Proof.Spec.CopiesEvicted : Prop :=
  ∀ (s : State) (level unit line : Nat) (c : Copy), level < 3 → s.moveInput.stays = 0 →
    s.copies.find? (fun x => x.level == level && x.unit == unit && x.line == line) = some c →
    s.pinnedCopy c = false →
    (c.dirty ≠ 0 → c.reg < outwardScope level ∧ s.heldUp true (unitDie level unit) (outwardScope level) line = false
      ∧ (level = 2 ∨ (s.roomBeyond c).hasWay (level + 1) (if level = 1 then unit / 4 else unit / 8) line = true)) →
    ∃ t, exec (.narrowCopyEviction level unit line) s = .next t ∧ GroupsStay s t
      ∧ (∀ x ∈ t.copies, ¬(x.level = level ∧ x.unit = unit ∧ x.line = line))
      ∧ (c.dirty = 0 → t.mem = s.mem)
      ∧ ∀ i < 64, c.dirty.getLsbD i = true → OutwardByte t level unit line i (lineByte c.data i)

/-- R286: two copies of a line whose dirty bytes meet at the next point may leave their caches together: both are gone, and the
next point has every byte that either held dirty. Where both held a byte dirty, which of the two arrives last is an input of the
move: the first copy's where its bit of `stays` is set, else the other's (log entry 70). -/
def Sys2Proof.Spec.CopiesPushTogether : Prop :=
  ∀ (s : State) (level unit line : Nat) (c x : Copy), level < 3 → s.moveInput.stays ≠ 0 →
    s.copies.find? (fun y => y.level == level && y.unit == unit && y.line == line) = some c →
    s.copies.filter (fun y => c.pushesWith y && s.evictable y) = [x] → s.evictable c = true →
    c.reg < outwardScope level → x.reg < outwardScope level →
    (∀ y ∈ s.copies, y.line = line → y.dirty ≠ 0 → y = c ∨ y = x) →
    ∃ t, exec (.narrowCopyEviction level unit line) s = .next t ∧ GroupsStay s t
      ∧ (∀ y ∈ t.copies, ¬(y.level = level ∧ (y.unit = unit ∨ y.unit = x.unit) ∧ y.line = line))
      ∧ ∀ i < 64,
          (c.dirty.getLsbD i = true → (s.moveInput.stays.getLsbD i = true ∨ x.dirty.getLsbD i = false) →
            OutwardByte t level unit line i (lineByte c.data i))
          ∧ (x.dirty.getLsbD i = true → (s.moveInput.stays.getLsbD i = false ∨ c.dirty.getLsbD i = false) →
            OutwardByte t level unit line i (lineByte x.data i))

/-- R412, R413: a directory that evicts its entry for a line that is not pinned recalls every copy that it records; with no dirty
byte among them memory is as before, and no copy of another line changes where its cache has a way for the line. -/
def Sys2Proof.Spec.DirectoriesEvict : Prop :=
  ∀ (s : State) (level unit line : Nat),
    (∃ c ∈ s.copies, c.line = line ∧ dirRecords level unit c = true) → s.linePinned line = false →
    (∀ c ∈ s.copies, c.line = line → dirRecords level unit c = true → c.dirty ≠ 0 →
      s.heldUp true (unitDie c.level c.unit) (if 3 ≤ level then 7 else dirScope level) line = false) →
    ∃ t, exec (.directoryEvictionRecall level unit line) s = .next t ∧ GroupsStay s t
      ∧ ((level ≤ 2 → s.hasWay level unit line = true) →
          (∀ c ∈ t.copies, c.line ≠ line → c ∈ s.copies) ∧ ∀ c ∈ s.copies, c.line ≠ line → c ∈ t.copies)
      ∧ (∀ x ∈ s.copies, x.line = line → dirRecords level unit x = true →
          ∀ c ∈ t.copies, ¬(c.level = x.level ∧ c.unit = x.unit ∧ c.line = line))
      ∧ ((∀ c ∈ s.copies, c.line = line → dirRecords level unit c = true → c.dirty = 0) → t.mem = s.mem)

/-- R255: a pull that waits copies the line from the old frame to the new one and marks it as pulled. -/
def Sys2Proof.Spec.LinesPulled : Prop :=
  ∀ (s : State) (desc line : Nat) (home : Home), (s.pulls.find? fun p => p.1 == desc && p.2.1 == line) = some (desc, (line, home)) →
    s.pullFree desc line = true →
    let d := s.migDesc desc 12
    d.poisoned = false → (s.validByte desc line).2 = false →
    let target := if home = .frame then 2 ^ 52 + d.new + 64 * line else d.new + 64 * line
    let old := (d.old + 64 * line) / 64
    desc % 64 = 0 → s.homeKey (target / 64) ≠ s.homeKey ((desc + 64 + line / 8) / 64) →
    s.homeKey (target / 64) ≠ s.homeKey (desc / 64) → s.homeKey ((desc + 64 + line / 8) / 64) ≠ s.homeKey (desc / 64) →
    ∃ t, exec (.migrationPull desc line) s = .next t
      ∧ t.homeLine (target / 64) = (s.recall old).homeLine old
      ∧ ((t.loadBytes (Agent.ofHub 0) 6 .cached (desc + 64 + line / 8) 1).1.headD 0).getLsbD (line % 8) = true
      ∧ (∀ p ∈ t.pulls, ¬(p.1 = desc ∧ p.2.1 = line)) ∧ GroupsStay s t

/-- R240, R255, R277, R278, R280, R286, R412, R413: what buffers, caches and directories do on their own. -/
def Obligations.CacheEvents : Prop := BufferDrains ∧ LinesFill ∧ CopiesEvicted ∧ CopiesPushTogether ∧ DirectoriesEvict ∧ LinesPulled

/-! ### Faults -/

/-- R372, R373: the oldest record of a context goes into its fault queue where there is room and nothing holds the hub's accesses,
wr counts it, and the pager is signalled. -/
def Sys2Proof.Spec.FaultRecordsAppended : Prop :=
  ∀ (s : State) (ctx : Nat) (r : FaultRec) (before rest : List FaultRec), s.faultRecs = before ++ r :: rest →
    (∀ q ∈ before, q.ctx ≠ ctx) → r.ctx = ctx →
    let h := s.ringHeader r.fqa
    let entry := r.fqa + 64 + 32 * (h.wr.toNat % h.cap)
    h.hasRoom = true → r.fqa % 64 = 0 → s.homeKey (entry / 64) ≠ s.homeKey (r.fqa / 64) →
    (s.hubReachAll 0 [(.load, (r.fqa, 64)), (.store, (entry, 32)), (.store, (r.fqa + 4, 4))]).isReady = true →
    ∃ t, exec (.faultRecordAppend ctx) s = .next t ∧ t.faultRecs = before ++ rest
      ∧ (t.hubNum 0 entry 32).1 = leNat r.bytes
      ∧ (t.ringHeader r.fqa).wr = h.wr + 1 ∧ (t.ringHeader r.fqa).rd = h.rd ∧ (t.ringHeader r.fqa).cap = h.cap
      ∧ t.interrupts = (if r.sig = 1 then s.interrupts ++ [r.ivec] else s.interrupts)
      ∧ GroupsStay s t

/-- R374, R375: a reply that answers a pending fault is consumed; with act 0 the group runs again, with act 1 it takes the
page-fault trap, with act 2 its launch ends. -/
def Sys2Proof.Spec.RepliesApplied : Prop :=
  ∀ (s u : State) (ctx : Nat) (e : ReplyEntry) (g : Group) (f : PendingFault) (tm : Team) (l : Launch),
    Numbered s → s.ctxResident ctx = true → s.takeReply ctx = some (e, u) → e.ok = true → s.parkedOn ctx e.seq = [g] →
    g.fault = some f → s.team? g.team = some tm → s.launch? tm.launch = some l →
    (e.act = 0 → ∃ t, exec (.replyReplay ctx) s = .next t
      ∧ t.group? g.id = some { g with fault := none, switch := true, wait := .none } ∧ OthersStay s t g.id)
    ∧ (e.act = 1 → g.intrap = false → g.walking = false → ∃ t y, exec (.replyDeliver ctx) s = .next t
      ∧ t.group? g.id = some y ∧ OthersStay s t g.id ∧ y.fault = none ∧ y.tcause = 4 ∧ y.tval = f.va ∧ y.tpc = g.pc
      ∧ y.pc = g.hva ∧ y.intrap = true)
    ∧ (e.act = 2 → l.fault = none → l.stage ≠ .complete → ∃ t, exec (.replyEndLaunch ctx) s = .next t
      ∧ (∃ x ∈ t.launches, x = { l with fault := some 4 })
      ∧ ∀ h ∈ t.groups, h.team = tm.id → h.live = false)

/-- R374: a reply that matches no pending fault is consumed and does nothing else. -/
def Sys2Proof.Spec.RepliesLost : Prop :=
  ∀ (s u : State) (ctx rpa : Nat) (e : ReplyEntry),
    s.ctxResident ctx = true → s.replyArea ctx = some rpa → rpa % 64 = 0 → s.takeReply ctx = some (e, u) → s.matched ctx e = false →
    ∃ t, exec (.replyNoEffect ctx) s = .next t ∧ (t.ringHeader rpa).rd = (s.ringHeader rpa).rd + 1
      ∧ (t.ringHeader rpa).wr = (s.ringHeader rpa).wr ∧ GroupsStay s t ∧ t.launches = s.launches

/-- R372 to R375: fault records, and the pager's replies. -/
def Obligations.FaultQueue : Prop := FaultRecordsAppended ∧ RepliesApplied ∧ RepliesLost

/-! ### Engine commands -/

/-- R346, R354: an engine reads the shape record of a queued command: the command goes on with a record that it may use, and is
refused with any other; the group's operation is over either way. -/
def Sys2Proof.Spec.RecordsRead : Prop :=
  ∀ (s : State) (c : Command) (p : Placed), Numbered s → s.command? c.id = some c → c.stage = .queued → c.fault = none →
    c.skip.contains c.recva = false → s.partyXlate c.agent (s.launchOf c) .load c.recva = .ok p →
    s.partyHeld c.agent false c.scope (p.pa / 64) = false → (s.peerReach c).waits = none →
    let u := (s.partySettle c.agent (s.launchOf c) .load c.recva).touch (p.pa / 64)
    let v := u.view c.agent c.scope p.home (p.pa / 64)
    let h := ShapeRec.ofNat v.1.toNat
    ∃ t, exec (.engineRecordRead c.id) s = .next t ∧ t.mem = u.mem ∧ OthersStay s t c.group
      ∧ CommandBecomes t c.id (if v.2 = false ∧ u.shapeOk c h = true then
            { c with stage := .read, shape := some h, todo := [(0, h.count)] }
          else { c with stage := .moved, errors := c.errors + 1 })

/-- A Runnel operation of a command, with its number (R350). -/
def Sys2Proof.Spec.RunnelOp (i : Instr) (id op : Nat) : Prop :=
  (op = 0 ∧ i = .runnelLoad id) ∨ (op = 1 ∧ i = .runnelStore id) ∨ (op = 2 ∧ i = .runnelGather id)
    ∨ (op = 3 ∧ i = .runnelScatter id) ∨ (op = 4 ∧ i = .runnelRedstore id)

/-- R289, R350, R352: a Runnel command moves elements that are left of its box where every access of theirs can be made; with the
last of them its moves are over. Which elements it takes is an input of the move (log entry 70), and its publish descriptor or
index list is read before the first (R354). What one element writes is what it reads, or for a reduction what it makes of both. -/
def Sys2Proof.Spec.BoxesMoved : Prop :=
  ∀ (i : Instr) (s : State) (c : Command) (h : ShapeRec) (pub : Option (Nat × BitVec 512)) (list : List Nat),
    RunnelOp i c.id h.op → s.command? c.id = some c → c.cascade = false → c.stage = .read → c.fault = none →
    c.shape = some h →
    (c.prep = some (pub, list) ∨ c.prep = none ∧ match s.prepare c h with
      | .ok x y => x = pub ∧ y = list
      | _ => False) →
    let elems := (s.takeElems c.todo).1
    let left := (s.takeElems c.todo).2
    let xs := s.sides c h (pub.map s.pubRead) list elems
    elems ≠ [] → firstBlock (xs.map (·.1)) = none → firstBlock (xs.map (·.2)) = none →
    Unheld s c (xs.map (·.1) ++ xs.map (·.2)) →
    ∃ t c', exec i s = .next t ∧ CommandBecomes t c.id c' ∧ c'.todo = left
      ∧ c'.stage = (if left.isEmpty then .moved else .read) ∧ c'.errors = c.errors ∧ c'.prep = some (pub, list)
      ∧ GroupsStay s t ∧ t.launches = s.launches
      ∧ (c'.skipped = true ↔ c.skipped = true ∨ ∃ e ∈ xs, e.1 = .skip ∨ e.2 = .skip)
      ∧ (c'.beyond = true ↔ c.beyond = true ∨ ∃ e ∈ xs, e.2 = .beyond)
      ∧ ∀ va1 pa1 home1 va2 pa2 home2, xs = [(.mem va1 pa1 home1, .mem va2 pa2 home2)] → 2 ≤ c.scope →
          pa2 % 64 + h.esize ≤ 64 →
          let l := s.launchOf c
          let u := ((s.settleSpot c.agent l .load (.mem va1 pa1 home1)).settleSpot c.agent l
            (if h.op = 4 then .atomic else .store) (.mem va2 pa2 home2)).touch (pa1 / 64)
          let x := leNat (u.loadBytes c.agent c.scope home1 pa1 h.esize).1
          Holds t c.agent c.scope home2 pa2 h.esize
            (if h.op = 4 then reduce h.rop (leNat (u.loadBytes c.agent c.scope home2 pa2 h.esize).1) x else x)

/-- R358, R359: `MCAST` and `MCRED` read their box and begin one delivery to each cluster that aux names. -/
def Sys2Proof.Spec.DeliveriesBegin : Prop :=
  ∀ (i : Instr) (s : State) (c : Command) (h : ShapeRec),
    (h.op = 8 ∧ i = .cascadeMcast c.id) ∨ (h.op = 9 ∧ i = .cascadeMcred c.id) →
    s.command? c.id = some c → c.cascade = true → c.stage = .read → c.fault = none → c.shape = some h → c.peer = 0 →
    let xs := (List.range h.count).map fun n => s.stridedSpot c.agent (s.launchOf c) c h none [] .load n
    firstBlock xs = none → Unheld s c xs →
    ∃ t c', exec i s = .next t ∧ CommandBecomes t c.id c' ∧ c'.stage = .moved ∧ c'.errors = c.errors
      ∧ GroupsStay s t ∧ c'.box.length = h.count
      ∧ (c'.deliveries.map fun d => (d.cluster, d.stage))
          = ((List.range 64).filter h.aux.getLsbD).map fun k => (k, DeliveryStage.sending)

/-- R289, R358 to R360: a delivery on this device is refused where its cluster has no entry of the command's launch and tag, or
where the box does not fit the window; else elements of it that are left are written, and with the last of them it has landed,
and the window's arrival counter rises by 1. -/
def Sys2Proof.Spec.DeliveriesLand : Prop :=
  ∀ (s : State) (c : Command) (h : ShapeRec) (k : Nat) (d : Delivery), s.command? c.id = some c → c.shape = some h →
    c.delivery? k = some d → c.peer = 0 → d.stage = .sending → c.fault = none →
    let entry := s.landings.find? fun e => e.cluster == k && e.tag == c.tag && e.launch == c.launch
    let elems := (s.takeElems d.todo).1
    let left := (s.takeElems d.todo).2
    elems ≠ [] →
    (entry = none ∨ (∃ e, entry = some e ∧ e.length < c.dense.toNat + h.total) →
      ∃ t c', exec (.cascadeDelivery c.id k) s = .next t ∧ CommandBecomes t c.id c'
      ∧ c'.delivery? k = some { d with stage := .refused } ∧ c'.errors = c.errors + 1 ∧ t.mem = s.mem)
    ∧ ∀ e va pa home, entry = some e → e.shadow = false → s.clusterAlive k = true → 8 ≤ c.dense.toNat →
        c.dense.toNat + h.total ≤ e.length → (s.launch? e.launch).isSome = true →
        let a := c.agent
        let l := s.launchOf c
        let acc : Access := if h.op = 9 then .atomic else .store
        let xs := elems.filterMap fun i => ((c.box[i]?).join).map fun v =>
          (s.windowSpot a l c.skip e.va none acc (c.dense.toNat + i * h.esize) h.esize, v)
        h.op = 8 ∨ h.op = 9 → firstBlock (xs.map (·.1)) = none →
        s.spotAt a l c.skip .atomic 8 e.va = .mem va pa home → pa % 64 + 8 ≤ 64 → 2 ≤ c.scope →
        Unheld s c (xs.map (·.1) ++ [.mem va pa home]) →
        ∃ t c', exec (.cascadeDelivery c.id k) s = .next t ∧ CommandBecomes t c.id c' ∧ c'.errors = c.errors
          ∧ c'.delivery? k = some { d with stage := if left.isEmpty then .landed else .sending, todo := left,
                                                 pub := if left.isEmpty then d.pub else none }
          ∧ let u := ((xs.foldl (fun u y => u.settleSpot a l acc y.1) s).settleSpot a l .atomic (.mem va pa home)).writeElems
              a c.scope h.rop h.esize xs
            left = [] → Holds t a c.scope home pa 8 ((leNat (u.loadBytes a c.scope home pa 8).1 + 1) % 2 ^ 64)

/-- R353, R354: a command whose moves are over counts once on its counter, and is forgotten. -/
def Sys2Proof.Spec.CommandsEnd : Prop :=
  ∀ (s : State) (c : Command) (va : DWord) (pa : Nat) (home : Home), s.command? c.id = some c → c.stage = .moved →
    c.fault = none → (∀ d ∈ c.deliveries, d.stage = .landed ∨ d.stage = .refused) → 2 ≤ c.scope →
    s.spotAt c.agent (s.launchOf c) c.skip .atomic 8 c.ctr = .mem va pa home → pa % 64 + 8 ≤ 64 →
    Unheld s c [.mem va pa home] →
    let l := s.launchOf c
    let u := s.settle c.agent l.desc l.record .atomic c.ctr
    ∃ t, exec (.engineCommandEnd c.id) s = .next t ∧ t.commands = s.commands.filter (fun x => x.id != c.id)
      ∧ GroupsStay s t
      ∧ Holds t c.agent c.scope home pa 8
          (counted48 (c.errors + (if c.skipped then 1 else 0) + (if c.beyond then 1 else 0) + (if c.poisoned then 1 else 0))
            (leNat (u.loadBytes c.agent c.scope home pa 8).1))

/-- R346 to R354, R358 to R360: an engine command from its record to its end. -/
def Obligations.EngineCommands : Prop := RecordsRead ∧ BoxesMoved ∧ DeliveriesBegin ∧ DeliveriesLand ∧ CommandsEnd


/-! ### Ultra Ethernet -/

/-- R441: packets that fail the security sublayer are dropped and counted: a protected one of a sender without a key, an unprotected
one of a sender with a key, and one whose association may not receive, is another one, or has seen its number, or whose tag is not
that of AES-256-GCM over its headers and payload. The sender is the peer with the packet's source address (log entry 53). -/
def Sys2Proof.Spec.PacketsDropped : Prop :=
  ∀ (s : State) (p : UetPacket),
    let key := ((s.peer (s.senderOf p.source)).map (·.key)).getD 0
    let headers := dataHeader p.msg p.cluster p.tag p.base p.size p.off p.rop p.esz p.poison
    (p.prot = true ∧ key = 0) ∨ (p.prot = false ∧ key ≠ 0)
      ∨ (p.prot = true ∧ key ≠ 0 ∧ ∀ a, s.assoc key = some a →
          a.ok = false ∨ a.rx = false ∨ a.said ≠ p.said ∨ (pnWindowFor s.pnWindows p.said).stale p.pn = true
          ∨ p.auth ≠ Config.gcmTag a.key (p.said ++ p.pn) (Config.uetHeader headers) p.data) →
    ∃ t, exec (.uetDataPacket p) s = .next t ∧ t = { s with saDrop := s.saDrop + 1 }

/-- R441, R443: an unprotected packet of a peer without a key that has been seen is dropped; a new one that a window admits is
written there and recorded, where no flip and no rebuild holds its bytes. -/
def Sys2Proof.Spec.PacketsArrive : Prop :=
  ∀ (s : State) (p : UetPacket), let n := s.senderOf p.source
    ((s.peer n).map (·.key)).getD 0 = 0 → p.prot = false →
    ((windowFor s.uetMsgs n).stale p.msg p.off = true → ∃ t, exec (.uetDataPacket p) s = .next t ∧ t = s)
    ∧ ∀ e l, (windowFor s.uetMsgs n).stale p.msg p.off = false →
        s.landingFor n p.cluster p.tag p.base p.size = some (e, l) → e.shadow = false →
        let a := Agent.ofHub p.hub
        let acc : Access := if p.rop = 0 then .store else .atomic
        let size := 2 ^ p.esz
        let xs := (packetElems p).map fun x => (s.windowSpot a l [] e.va none acc x.1 size, x.2)
        firstBlock (xs.map (·.1)) = none → (∀ x ∈ xs, s.spotHeld a true 6 x.1 = false) →
        ∃ t, exec (.uetDataPacket p) s = .next t
          ∧ (windowFor t.uetMsgs n).seen.contains (p.msg, p.off) = true
          ∧ t.mem = ((xs.foldl (fun u x => u.settleSpot a l acc x.1) s).writeElems a 6 p.rop size xs).mem
          ∧ GroupsStay s t

/-- R441, R443: a counter message raises the arrival counter of its window once: one that has been seen does nothing. -/
def Sys2Proof.Spec.CounterMessagesArrive : Prop :=
  ∀ (s : State) (m : UetFlag), let n := s.senderOf m.source
    ((s.peer n).map (·.key)).getD 0 = 0 → m.prot = false →
    ((windowFor s.uetFlags n).stale m.seq 0 = true → ∃ t, exec (.uetCounterMessage m) s = .next t ∧ t = s)
    ∧ ∀ e l va pa home, (windowFor s.uetFlags n).stale m.seq 0 = false →
        s.landingFor n m.cluster m.tag m.base m.size = some (e, l) → e.shadow = false →
        let a := Agent.ofHub m.hub
        s.spotAt a l [] .atomic 8 e.va = .mem va pa home → pa % 64 + 8 ≤ 64 → s.spotHeld a true 6 (.mem va pa home) = false →
        let u := s.settleSpot a l .atomic (.mem va pa home)
        ∃ t, exec (.uetCounterMessage m) s = .next t
          ∧ (windowFor t.uetFlags n).seen.contains (m.seq, 0) = true
          ∧ Holds t a 6 home pa 8 ((leNat (u.loadBytes a 6 home pa 8).1 + 1) % 2 ^ 64)
          ∧ GroupsStay s t

/-- R354, R442 to R444: acknowledgements, refusals and lost packets at the sender of a delivery. An acknowledgement names the
packet by its offset in the box, the counter message by 2^32; a refusal may come with any; whether the receiver skipped an element
is an input of the move; the packets of a hub to a peer take the paths that are up in turn (log entries 53 and 70). -/
def Sys2Proof.Spec.SenderEvents : Prop :=
  ∀ (s : State) (c : Command) (d : Delivery), s.command? c.id = some c → c.delivery? d.cluster = some d → c.peer ≠ 0 →
    (d.stage = .sending ∨ d.stage = .flagSent) →
    (∀ off path, ∃ t c', exec (.uetPacketAck c.id d.cluster off path true) s = .next t ∧ CommandBecomes t c.id c'
      ∧ c'.delivery? d.cluster = some { d with stage := .refused } ∧ c'.errors = c.errors + 1 ∧ t.mem = s.mem)
    ∧ (∀ path, d.stage = .flagSent →
        ∃ t c', exec (.uetPacketAck c.id d.cluster (2 ^ 32) path false) s = .next t ∧ CommandBecomes t c.id c'
          ∧ c'.delivery? d.cluster = some { d with stage := .landed } ∧ c'.errors = c.errors)
    ∧ (∀ off path, d.stage = .flagSent → off ≠ 2 ^ 32 →
        ∃ t, exec (.uetPacketAck c.id d.cluster off path false) s = .next t ∧ t.commands = s.commands ∧ t.mem = s.mem)
    ∧ (∀ off path, d.stage = .sending → d.unacked = [off] → s.keyOf c = 0 →
        ∃ t c', exec (.uetPacketAck c.id d.cluster off path false) s = .next t ∧ CommandBecomes t c.id c'
          ∧ c'.delivery? d.cluster = some { d with stage := .flagSent, seq := sget 0 s.nextSeq c.peer, unacked := [] }
          ∧ c'.skipped = (c.skipped || s.moveInput.skipped)
          ∧ sget 0 t.nextSeq c.peer = sget 0 s.nextSeq c.peer + 1
          ∧ ∀ e p, s.peer c.peer = some e →
              let ups := (s.pathsOf c).filter (s.pathUp c.unit c.peer)
              ups[s.sprayedTo c.unit c.peer % ups.length]? = some p →
              t.sprayedTo c.unit c.peer = s.sprayedTo c.unit c.peer + 1
                ∧ t.sent = { c.packet c.shapeRec { d with seq := sget 0 s.nextSeq c.peer } with
                    addr := e.addr, port := (e.paths.getD p (0, 0)).2, entropy := (e.paths.getD p (0, 0)).1 } :: s.sent)
    ∧ (∀ off path, (s.pathsOf c).contains path = true → (d.stage = .sending → d.unacked.contains off = true) →
        (d.stage = .flagSent → off = 2 ^ 32) →
        ∃ t, exec (.uetRetransmitTimeout c.peer path c.id d.cluster off) s = .next t ∧ t.mem = s.mem
          ∧ (2 ≤ s.timeoutsOf c.unit c.peer path → t.pathsDown.contains (c.unit, (c.peer, path)) = true
              ∧ t.timeoutsOf c.unit c.peer path = 0)
          ∧ (s.timeoutsOf c.unit c.peer path < 2 → t.pathsDown = s.pathsDown
              ∧ t.timeoutsOf c.unit c.peer path = s.timeoutsOf c.unit c.peer path + 1))
    ∧ ((∀ p ∈ s.pathsOf c, s.pathUp c.unit c.peer p = false) →
        ∃ t c', exec (.deliveryPathTimeout c.id d.cluster) s = .next t ∧ CommandBecomes t c.id c'
          ∧ c'.delivery? d.cluster = some { d with stage := .refused } ∧ c'.errors = c.errors + 1)

/-- R439, R442, R445: probes bring a path up again where they are answered; a port that goes down takes its paths with it, and
one that trains comes up. -/
def Sys2Proof.Spec.PathsAndPorts : Prop :=
  (∀ (s : State) (hub peer path : Nat), s.pathsDown.contains (hub, (peer, path)) = true →
    (∃ t, exec (.pathProbe hub peer path false) s = .next t ∧ t = s)
    ∧ ∀ e, s.peer peer = some e → s.portUp (e.port hub path) = true →
        ∃ t, exec (.pathProbe hub peer path true) s = .next t ∧ t.pathsDown.contains (hub, (peer, path)) = false
          ∧ t = { s with pathsDown := t.pathsDown, timeouts := t.timeouts })
  ∧ ∀ (s : State) (port : Nat),
    (s.portUp port = true → ∃ t, exec (.uePortDown port) s = .next t ∧ t.portUp port = false
      ∧ (∀ e ∈ s.pathsAt port, t.pathsDown.contains (port / 4, (e.1, e.2)) = true)
      ∧ t = { s with ports := t.ports, pathsDown := t.pathsDown })
    ∧ (port < 8 → ∀ fast, ∃ t, exec (.uePortTrain port fast) s = .next t ∧ t.portUp port = true
        ∧ (port, fast) ∈ t.ports ∧ t = { s with ports := t.ports })

/-- R439 to R445: the events of Ultra Ethernet. That the refusal of a delivery comes with an acknowledgement, how a receiver tells of
skipped elements, what names a packet, and the order in which packets take the paths are the model's choices (log entries 53 and
70); the rules do not say them. -/
def Obligations.FabricEvents : Prop := PacketsDropped ∧ PacketsArrive ∧ CounterMessagesArrive ∧ SenderEvents ∧ PathsAndPorts

/-! ### Launches -/

/-- R396, R397, R407: a doorbell beyond the capacity sets err and blocks the queue; an enabled queue whose leader is missing or
must give way gets a die that may lead it, of its own interposer where there is one. -/
def Sys2Proof.Spec.QueuesRung : Prop :=
  ∀ (s : State) (q : Nat), q < 128 →
    (∀ wr, ∃ t, exec (.launchQueueDoorbell q wr) s = .next t ∧ t = { s with queues := t.queues }
      ∧ (∀ k, k ≠ q → t.queue k = s.queue k)
      ∧ t.queue q = if (wr - (s.queue q).rd).toNat ≤ (s.queue q).cap.toNat then { s.queue q with wr := wr, blocked := false }
          else { s.queue q with err := true, blocked := true })
    ∧ (s.needsLeader q = true → s.managed = true → (∃ d < 16, s.mayLead d = true) →
        ∃ t d, exec (.leaderElection q) s = .next t ∧ t = { s with queues := t.queues }
          ∧ t.queue q = { s.queue q with leader := some d } ∧ d < 16 ∧ s.mayLead d = true
          ∧ ((∃ e < 16, e / 8 = q % 2 ∧ s.mayLead e = true) → d / 8 = q % 2))

/-- R398, R401: a queue's next entry is consumed: a record in order is admitted and waits for its counters; one that is not in
order is counted, once its counter can be reached, and admits nothing; an entry that names no record sets err. That an entry in a
poisoned line counts as one that names no record is the model's choice (log entry 55). -/
def Sys2Proof.Spec.EntriesConsumed : Prop :=
  ∀ (s : State) (q : Nat), q < 128 →
    let b := s.queue q
    s.managed = true → b.en = true → b.blocked = false → b.rd ≠ b.wr → b.leader.isSome = true → s.needsLeader q = false → s.queueHeld q = false →
    b.ctx < 4096 → capInRange b.cap.toNat = true → b.cap.toNat ≤ 65536 →
    (s.hubReach (q % 2) .load (b.base + 8 * (b.rd.toNat % b.cap.toNat)) 8).isReady = true →
    let x := s.hubNum (q % 2) (b.base + 8 * (b.rd.toNat % b.cap.toNat)) 8
    let va : DWord := BitVec.ofNat 64 x.1
    (x.2 = true ∨ va.toNat % 128 ≠ 0 → ∃ t, exec (.queueEntryConsume q) s = .next t
      ∧ t = { s with queues := t.queues } ∧ t.queue q = { b with rd := b.rd + 1, err := true })
    ∧ (x.2 = false → va.toNat % 128 = 0 → ∀ r, (match s.readRecord (q % 2) b.ctx va with
          | .ok y => y = r
          | _ => False) →
        -- the marks that reading the record leaves in its page tables (R252)
        let u := s.recordTouched (q % 2) b.ctx va
        (u.admissible (q % 2) b.ctx r = true → ∃ t l, exec (.queueEntryConsume q) s = .next t
          ∧ t.launches = s.launches ++ [l] ∧ l.id = s.fresh ∧ l.record = r.record ∧ l.desc = r.desc ∧ l.stage = .waiting
          ∧ l.queue = some q ∧ l.fault = none ∧ t.queue q = { b with rd := b.rd + 1 } ∧ t.mem = u.mem)
        ∧ ∀ p, u.admissible (q % 2) b.ctx r = false →
          let a := Agent.ofHub (q % 2)
          u.hubXlate (q % 2) r.desc r.record .atomic r.record.ctr = .ok p → u.hubHeld .atomic (p.pa / 64) = false →
          p.pa % 64 + 8 ≤ 64 → ∃ t, exec (.queueEntryConsume q) s = .next t
          ∧ t.launches = s.launches ∧ t.queue q = { b with rd := b.rd + 1 } ∧ GroupsStay s t
          ∧ Holds t a 7 p.home p.pa 8
              (counted48 1 (leNat ((u.settle a r.desc r.record .atomic r.record.ctr).loadBytes a 7 p.home p.pa 8).1)))

/-- R402: a launch without counters becomes eligible; one with a counter does once the counter has reached its threshold, and is
refused, once its completion counter can be reached, where dstrict is 1 and the counter's err is not 0. -/
def Sys2Proof.Spec.DependencesChecked : Prop :=
  ∀ (s : State) (l : Launch), s.launch? l.id = some l → l.stage = .waiting → s.managed = true → s.led l = true →
    l.record.dep1 = 0 →
    (l.record.dep0 = 0 → ∃ t, exec (.dependenceCheck l.id) s = .next t
      ∧ t.launch? l.id = some { l with stage := .eligible, order := s.fresh } ∧ t.mem = s.mem)
    ∧ ∀ v, l.record.dep0 ≠ 0 →
        (match s.readDep ((l.queue.getD 0) % 2) l l.record.dep0 with
          | .ok x => x = v
          | _ => False) →
        (v % 2 ^ 48 + 2 ^ 48 - l.record.thr0 % 2 ^ 48) % 2 ^ 48 < 2 ^ 47 →
        (l.record.dstrict = false ∨ v / 2 ^ 48 % 2 ^ 16 = 0 → ∃ t, exec (.dependenceCheck l.id) s = .next t
          ∧ ∃ o, t.launch? l.id = some { l with stage := .eligible, order := o })
        ∧ (l.record.dstrict = true → v / 2 ^ 48 % 2 ^ 16 ≠ 0 → s.countWaits l.hub l.desc l.record = none → ∃ t, exec (.dependenceCheck l.id) s = .next t
          ∧ t.launch? l.id = none)

/-- R166, R389, R400, R405: a team of a launch without a cohort is placed on a core with room: its groups hold its threads in
order, start at the record's first instruction with every lane active, and every register of theirs is 0. -/
def Sys2Proof.Spec.TeamsPlaced : Prop :=
  ∀ (s : State) (l : Launch) (core : Nat) (p : Placement), s.launch? l.id = some l → l.unplaced = true →
    s.managed = true → s.led l = true → s.heldBack l = false → l.record.coh = 0 →
    (∀ c ∈ coresOf l.record.pspan core, s.heldLine c 7 = false) →
    s.placeTeam l.record l.desc.pfr core l.record.reqw (countsAt l.record.nthr) none (s.freeContext core) = some p →
    ∃ t, exec (.launchPlacement l.id [core]) s = .next t
      ∧ (∃ n, t.launch? l.id = some { l.runsOn (coresOf l.record.pspan core) n with stage := .running, placed := l.placed + 1 })
      ∧ (∃ tm ∈ t.teams, tm.id = s.fresh ∧ tm.launch = l.id ∧ tm.tix = l.placed ∧ tm.core = core ∧ tm.gw = p.gw
          ∧ tm.ngrp = p.pipes.length ∧ tm.nthr = l.record.nthr ∧ tm.acc = [] ∧ tm.scratch = [])
      ∧ ∀ i < p.pipes.length, ∃ g ∈ t.groups, g.team = s.fresh ∧ g.gix = i ∧ g.live = true ∧ g.pc = l.record.start
          ∧ g.core = (if l.record.pspan then core + i % 2 else core) ∧ g.pipe = p.pipes.getD i 0
          ∧ g.hva = l.desc.hva ∧ g.em = g.present
          ∧ g.threads = (List.range (Nat.min p.gw (l.record.nthr - i * p.gw))).map (fun j => Thread.new (i * p.gw + j))
          ∧ g.sregs = [] ∧ g.hregs = [] ∧ g.gstat = 0 ∧ g.fpc = 0 ∧ g.nf = 0 ∧ g.wb = 0

/-- R404: a launch whose teams are over, and that no command serves any more, counts once on its completion counter, which can be
reached, and is forgotten with its teams, groups and windows. That the caches of its cores push their bytes as of the end of the
launch, in an order that is free, is the model's choice (log entry 81). -/
def Sys2Proof.Spec.LaunchesComplete : Prop :=
  ∀ (s : State) (l : Launch) (p : Placed), s.launch? l.id = some l → s.teamsOver l = true →
    (∀ c ∈ s.commands, c.launch ≠ l.id) →
    (∀ c ∈ l.cores, s.heldLine c 7 = false) →
    let u := (s.drainLaunch l.id).flushLaunch l
    let a := Agent.ofHub (l.queue.getD 0 % 2)
    u.hubXlate (l.queue.getD 0 % 2) l.desc l.record .atomic l.record.ctr = .ok p → u.hubHeld .atomic (p.pa / 64) = false →
    p.pa % 64 + 8 ≤ 64 →
    ∃ t, exec (.launchCompletion l.id) s = .next t ∧ t.launch? l.id = none
      ∧ (∀ tm ∈ t.teams, tm.launch ≠ l.id) ∧ (∀ e ∈ t.landings, e.launch ≠ l.id)
      ∧ Holds t a 7 p.home p.pa 8
          (counted48 ((if l.fault.isSome then 1 else 0) + l.refused + l.errors)
            (leNat ((u.settle a l.desc l.record .atomic l.record.ctr).loadBytes a 7 p.home p.pa 8).1))

/-- R396 to R405, R407: a launch from its queue to its completion. -/
def Obligations.LaunchEvents : Prop :=
  QueuesRung ∧ EntriesConsumed ∧ DependencesChecked ∧ TeamsPlaced ∧ LaunchesComplete

/-! ### Pre-emption -/

/-- R382, R406: the unit that must give way stops: its teams are marked, a save slot is its own, and memory is as before. -/
def Sys2Proof.Spec.UnitsStop : Prop :=
  ∀ (s : State) (tm : Team) (slot : Nat), (s.teams.find? fun x => x.launch == tm.launch && x.tix == tm.tix) = some tm →
    let u := s.unitOf tm
    s.freeSaveSlot u.launch = some slot → s.mustGive u = true → (∀ x ∈ s.units, x.saved = true) →
    (∀ g ∈ s.groups, (u.teams.map (·.id)).contains g.team = true → s.trapDue g = false) →
    ∃ t x, exec (.preemption tm.launch tm.tix) s = .next t ∧ t.units = s.units ++ [x] ∧ x.id = s.fresh
      ∧ x.launch = tm.launch ∧ x.tixs = u.teams.map (·.tix) ∧ x.slot = slot ∧ x.saved = false ∧ t.mem = s.mem
      ∧ (∀ y ∈ t.teams, (u.teams.map (·.id)).contains y.id = true → y.stopping = true)
      ∧ t.groups.map (·.id) = s.groups.map (·.id)

/-- A group holds what a group record says of it, bit for bit (R386): the s-registers and the handler registers, the PC, the
special registers, and what the device keeps of its region, its watchdog and its deferred traps. -/
def Sys2Proof.Spec.GroupRecord (r : Nat) (g : Group) : Prop :=
  let word (lo : Nat) : DWord := BitVec.ofNat 64 (nfield r lo 64)
  (∀ k < 32, sget 0 g.sregs k = word (64 * k)) ∧ (∀ k < 8, sget 0 g.hregs k = word (2048 + 64 * k))
    ∧ g.pc = word 2560 ∧ g.tem = word 2688 ∧ g.tpc = word 2752 ∧ g.tval = word 2816 ∧ g.rstart = word 2880 ∧ g.wsa = word 2944
    ∧ g.gcyc = word 3008 ∧ g.pva = word 3456 ∧ g.fpc = BitVec.ofNat 32 (nfield r 3136 32)
    ∧ g.nf = BitVec.ofNat 16 (nfield r 3168 16) ∧ g.wb % 2 ^ 16 = nfield r 3184 16 ∧ g.wss = BitVec.ofNat 32 (nfield r 3200 32)
    ∧ g.wsd = BitVec.ofNat 32 (nfield r 3232 32) ∧ g.gstat = BitVec.ofNat 32 (nfield r 3264 32)
    ∧ g.tcause = BitVec.ofNat 8 (nfield r 3296 8) ∧ g.rwb % 2 ^ 16 = nfield r 3312 16
    ∧ g.watchdog % 2 ^ 25 = nfield r 3328 25 ∧ g.ppath = BitVec.ofNat 6 (nfield r 3376 6)

/-- A thread holds what the head of a thread record says of it (R387): its number, its predicates, and its Rill queues. -/
def Sys2Proof.Spec.ThreadRecord (h : Nat) (x : Thread) : Prop :=
  x.tid % 2 ^ 32 = nfield h 0 32 ∧ x.pred = BitVec.ofNat 32 (nfield h 64 32)
    ∧ ∀ q < 6, (x.queue q).length ≤ 4 → x.queue q = (List.range (nfield h (208 + 4 * q) 4)).map fun e =>
        RillEntry.filled (BitVec.ofNat 32 (nfield h (256 + 128 * q + 32 * e) 32))

/-- The bytes of a thread record of `n` words (R387). -/
def Sys2Proof.Spec.threadRecordSize (n : Nat) : Nat := 128 + roundUp (4 * n) 16

/-- The bytes of the block of a team whose every word is saved (R384, R385). -/
def Sys2Proof.Spec.blockSize (v : State) (tm : Team) : Nat :=
  let gs := v.teamGroups tm.id
  roundUp (128 + 512 * gs.length + (gs.flatMap (·.threads)).length * threadRecordSize tm.wal
    + (if tm.ctx.isSome = true ∧ gs ≠ [] then 8 * 32768 else 0) + tm.spb) 64

/-- Bytes in different lines lie in different places of memory. -/
def Sys2Proof.Spec.Apart (s : State) (pa n : Nat) : Prop :=
  ∀ i < n, ∀ j < n, s.homeKey ((pa + i) / 64) = s.homeKey ((pa + j) / 64) → (pa + i) / 64 = (pa + j) / 64

/-- The block of team `tm` at `pa` holds its groups, its threads and their register words (R385 to R387). -/
def Sys2Proof.Spec.BlockHolds (t v : State) (tm : Team) (pa : Nat) : Prop :=
  let gs := v.teamGroups tm.id
  nfield (t.hubNum 0 pa 128).1 0 32 = tm.tix % 2 ^ 32
    ∧ (∀ (i : Nat) (g : Group), gs[i]? = some g →
        let r := (t.hubNum 0 (pa + 128 + 512 * i) 512).1
        GroupRecord r g ∧ g.em = BitVec.ofNat 64 (nfield r 2624 64))
    ∧ ∀ (m : Nat) (x : Thread), (gs.flatMap (·.threads))[m]? = some x →
        let q := pa + 128 + 512 * gs.length + m * threadRecordSize tm.wal
        ThreadRecord (t.hubNum 0 q 128).1 x
          ∧ ∀ n < tm.wal, sget 0 x.stack n = BitVec.ofNat 32 (t.hubNum 0 (q + 128 + 4 * n) 4).1

/-- R382, R384 to R387: the blocks of a unit that has drained are written to its slot, behind its magic number, and its teams and
groups are gone. A launch without a liveness section saves every word of every thread's stack. The groups stand in the slot as
they are once barriers that have completed are passed and their regions are committed; their registers, predicates and em are
those that they had. -/
def Sys2Proof.Spec.UnitsSaved : Prop :=
  ∀ (s : State) (u : SavedUnit) (l : Launch), (s.units.find? (·.id == u.id)) = some u → s.launch? u.launch = some l → Numbered s →
    let ts := s.unitTeams u
    let base := l.desc.pool + l.desc.slsz * u.slot
    let v := ((s.passOvers ts).settleUnit ts).carryOut ts
    let used := 64 + (ts.map (blockSize v)).sum
    u.saved = false → ts ≠ [] → (∀ x ∈ ts, s.drained x = true) → s.carryHeld ts = false → l.record.live = 0 →
    (∀ x ∈ ts, x.wal ≤ 256 ∧ ∀ g ∈ v.teamGroups x.id, g.wb + 64 ≤ x.wal) → Apart s base used →
    (s.slotReach .atomic base used).isReady = true →
    ∃ t, exec (.saveBlockWrite u.id) s = .next t ∧ (∃ x ∈ t.units, x.id = u.id ∧ x.saved = true ∧ x.slot = u.slot)
      ∧ (∀ g ∈ t.groups, ∀ x ∈ ts, g.team ≠ x.id) ∧ (∀ y ∈ t.teams, ∀ x ∈ ts, y.id ≠ x.id)
      ∧ (t.hubNum 0 base 4).1 = 0x47395341
      ∧ (∀ k tm, ts[k]? = some tm → BlockHolds t v tm (base + 64 + ((ts.take k).map (blockSize v)).sum))
      ∧ ∀ g ∈ s.groups, ∃ h ∈ v.groups, h.id = g.id ∧ h.sregs = g.sregs ∧ h.hregs = g.hregs ∧ h.em = g.em
          ∧ h.threads = g.threads ∧ (g.wait = .none → h.pc = g.pc)

/-- The address of thread record `m` of a team block that is read at `pa` (R385, R387). -/
def Sys2Proof.Spec.threadAt (e : SavedTeam) (wal pa m : Nat) : Nat :=
  pa + 128 + 512 * headNrec e.head + ((List.range m).map fun k =>
    let r := e.groups.getD (k / headGw e.head) 0
    threadRecordSize (savedWords (recWb r) wal (recVmask r)).length).sum

/-- A team block is read from the bytes of its slot: its header, its group records, the heads of its thread records and their
words. -/
def Sys2Proof.Spec.BlockRead (s : State) (e : SavedTeam) (wal pa : Nat) : Prop :=
  e.head = (s.hubNum 0 pa 128).1
    ∧ (∀ (i r : Nat), e.groups[i]? = some r → r = (s.hubNum 0 (pa + 128 + 512 * i) 512).1)
    ∧ ∀ (m : Nat) (x : SavedThread), e.threads[m]? = some x →
        x.head = (s.hubNum 0 (threadAt e wal pa m) 128).1
          ∧ ∀ n < x.words.length, x.words.getD n 0 = BitVec.ofNat 32 (s.hubNum 0 (threadAt e wal pa m + 128 + 4 * n) 4).1

/-- A team that keeps its width has its groups back from the records of its block: the registers of each group and thread, its PC,
its special registers, its em and its predicates (R386 to R388). Words that were not saved hold 0 (R389). A group that was parked
on a fault, which a reply may have answered by now, is left out. -/
def Sys2Proof.Spec.TeamBack (t : State) (e : SavedTeam) (wal : Nat) (tm : Team) : Prop :=
  ∀ (i r : Nat), e.groups[i]? = some r → nfield r 3304 8 = 0 →
    ∃ g ∈ t.groups, g.team = tm.id ∧ g.gix = recGix r ∧ GroupRecord r g
      ∧ g.em = BitVec.ofNat 64 (nfield r 2624 64) &&& lowMask g.threads.length
      ∧ ∀ (j : Nat) (x : SavedThread), ((e.threads.drop (i * headGw e.head)).take (headGw e.head))[j]? = some x → ∃ y, g.threads[j]? = some y
          ∧ ThreadRecord x.head y
          ∧ ∀ k < wal, sget 0 y.stack k = match (savedWords (recWb r) wal (recVmask r)).idxOf? k with
              | some n => x.words.getD n 0
              | none => 0

/-- R385 to R389: a unit whose slot passes every check comes back with its teams, its registers read from the slot, and its slot is
free again; one whose slot does not ends its launch with cause 0xFE. -/
def Sys2Proof.Spec.UnitsResume : Prop :=
  ∀ (s : State) (u : SavedUnit) (l : Launch) (cores : List Nat), (s.units.find? (·.id == u.id)) = some u →
    s.launch? u.launch = some l → u.saved = true → s.resumeHeld l = false → s.managed = true → s.led l = true → Numbered s →
    (∀ c ∈ cores, ∀ x ∈ coresOf l.record.pspan c, s.heldLine x 6 = false) → s.resumeWaits u l = none →
    (s.readSlot u l = none → l.fault = none → l.stage ≠ .complete →
      ∃ t, exec (.resume u.id cores) s = .next t ∧ ∃ x ∈ t.launches, x = { l with fault := some 0xFE })
    ∧ ∀ header ts v, s.readSlot u l = some (header, ts) → cores.length = u.tixs.length → coresLie l.record u.tixs cores = true →
        s.placeUnit u l (ts.zip cores) = some v → v.mirrored u = true →
        (∀ k e, ts[k]? = some e →
          BlockRead s e l.record.wal (l.desc.pool + l.desc.slsz * u.slot + 64 + ((ts.take k).map (·.size)).sum))
        ∧ ∃ t, exec (.resume u.id cores) s = .next t ∧ (∀ x ∈ t.units, x.id ≠ u.id)
          ∧ ∀ e ∈ ts.zip cores, ∃ tm ∈ t.teams, tm.launch = l.id ∧ tm.tix = headTix e.1.head ∧ tm.core = e.2
              ∧ (tm.gw = headGw e.1.head → TeamBack t e.1 l.record.wal tm)

/-- R382 to R389, R406: pre-emption, the save block and resumption. -/
def Obligations.PreemptionAndResume : Prop := UnitsStop ∧ UnitsSaved ∧ UnitsResume


/-! ### Dies -/

/-- R408, R409, R419, R423: a die's clock steps down and up, the host drains it, and its rebuild ends, after which a die that
rejoins is active. A die that may not lead any more loses its leases. What a rebuild has held goes on in its arrival order. -/
def Sys2Proof.Spec.DiesStep : Prop :=
  ∀ (s : State) (n : Nat) (d : Die), IsDie s n d →
    (d.csteps < 29 → ∃ t, exec (.clockStepDown n) s = .next t ∧ DieLeases s t n { d with csteps := d.csteps + 1 })
    ∧ (0 < d.csteps → ∃ t, exec (.clockStepUp n) s = .next t ∧ DieBecomes s t n { d with csteps := d.csteps - 1 })
    ∧ (d.dstate = 1 → ∃ t, exec (.dieDrainedByTheHost n) s = .next t ∧ DieLeases s t n { d with dstate := 4 })
    ∧ (d.rebuilding = true → ∃ t, exec (.rebuildComplete n) s = .next t
        ∧ OnlyOrder s t ∧ DieBecomes { s with cur := t.cur, others := t.others } t n
            { d with rebuilding := false, dstate := if d.dstate = 3 then 1 else d.dstate })

/-- What the failure of a die leaves (R417 to R420, R422). -/
def Sys2Proof.Spec.DieLost (s t : State) (n : Nat) : Prop :=
  (t.die n).dstate = 2 ∧ t.fallen.getLsbD n = true
    ∧ (∀ g ∈ t.groups, g.core / 32 = n → g.live = false ∧ g.flights = [] ∧ g.storeBuf = [])
    ∧ (∀ c ∈ s.copies, c.level < 3 → unitDie c.level c.unit = n → c.dirty ≠ 0 → t.poisoned c.line = true)
    ∧ (∀ c ∈ s.commands, c.cascade = false → c.unit / 4 = n → ∃ x ∈ t.commands, x.id = c.id ∧ x.stage = .lost ∧ x.errors = 1)
    ∧ (∀ q ∈ t.queues, q.2.leader ≠ some n)
    ∧ ∀ tm ∈ s.teams, tm.core / 32 = n → ∀ l, s.launch? tm.launch = some l → l.fault = none → l.stage ≠ .complete →
        ∃ x ∈ t.launches, x.id = l.id ∧ x.fault = some 0xFD

/-- R417 to R424: a die fails when the device declares it so, when a flit of its shows a stale incarnation, or when it loses its
own link; it rejoins with the next incarnation, its directory half still to be rebuilt, and lines of device memory that only it held
are poisoned. Three clauses are the model's choices: the numbers of the links (log entry 60), that a die whose flit is refused while it
works is lost as one that fails, where R423 says that it resets itself (log entry 62), and which counters of a die are 0 when it
rejoins (log entry 63). -/
def Sys2Proof.Spec.DiesFailAndRejoin : Prop :=
  ∀ (s : State) (n : Nat) (d : Die), IsDie s n d →
    (d.dstate = 1 ∨ d.dstate = 3 ∨ d.dstate = 4 →
      (∃ t, exec (.dieFailure n) s = .next t ∧ DieLost s t n)
        ∧ (∀ inc, inc ≠ d.inc → ∃ t, exec (.incarnationRefusal n inc) s = .next t ∧ DieLost s t n)
        ∧ (s.pomasDown.contains (17 + n) = false → ∃ t, exec (.pomasLinkDown (17 + n)) s = .next t ∧ DieLost s t n
            ∧ t.pomasDown = (17 + n) :: s.pomasDown))
    ∧ (d.dstate = 2 → d.rebuilding = false → ∃ t, exec (.dieRejoin n) s = .next t
        ∧ t.die n = { d with inc := d.inc + 1, dstate := 3, csteps := 0, pinov := 0, ce := 0, rebuilding := true }
        ∧ t.fallen.getLsbD n = false
        ∧ (∀ e ∈ s.writers, e.2.getLsbD n = true → isDram (64 * e.1) = true → t.poison.contains e.1 = true)
        ∧ (∀ e ∈ t.landings, e.cluster / 4 ≠ n))
    ∧ ∀ link < 17, s.pomasDown.contains link = false →
        ∃ t, exec (.pomasLinkDown link) s = .next t ∧ t = { s with pomasDown := link :: s.pomasDown }

/-- R408, R409, R414, R417 to R424: dies. The numbers of the links, what an incarnation refusal does to a die that works, and the
counters that a rejoin zeroes are the model's choices (log entries 60, 62 and 63). -/
def Obligations.DieEvents : Prop := DiesStep ∧ DiesFailAndRejoin

/-! ### The device as a whole -/

/-- A machine that is being wiped: nothing runs, device memory reads as zero, and the host's own memory is as it was (R430). -/
def Sys2Proof.Spec.Wiped (s t : State) (power : Power) : Prop :=
  t.power = power ∧ t.groups = [] ∧ t.teams = [] ∧ t.launches = [] ∧ t.commands = [] ∧ t.copies = [] ∧ t.nonce = 0 ∧ t.meas = 0
    ∧ (∀ pa, t.byte pa = if isHostMem pa then s.byte pa else 0)

/-- R428 to R430: a reset wipes the device and keeps its fuses, a life-cycle advance too, but for its state; once the wipe is
over the device answers, and an image that the life-cycle state accepts is measured and runs, while any other is held; power
that goes takes the same state with it. -/
def Sys2Proof.Spec.ResetsAndWipes : Prop :=
  ∀ s : State,
    (∃ t, exec .deviceReset s = .next t ∧ Wiped s t .wiping ∧ t.fuses = s.fuses)
    ∧ (∃ t, exec .moduleUnpowered s = .next t ∧ Wiped s t .off ∧ t.fuses = s.fuses)
    ∧ (s.power = .wiping → ∃ t, exec .wipeComplete s = .next t
        ∧ (t = if firmwareRuns s.fuses.lifecycle then
              { s with power := .on, meas := Config.shake256 (digestBytes 0 ++ digestBytes (Config.shake256 Config.firmware)) }
            else { s with power := .held })
        ∧ (s.fuses.lifecycle = 4 → t.power = .held))
    ∧ ∀ next, s.fuses.lifecycle < next → next.toNat ≤ 4 → ∃ t, exec (.lifecycleAdvance next) s = .next t
        ∧ Wiped s t .wiping ∧ t.fuses = { s.fuses with lifecycle := next }

/-- R428, R429: an attestation request in the life-cycle states manufacturing, production and returned writes a report with its
signature to its destination, where nothing holds the hub's writes; in the states blank and scrapped it writes none. That it writes
none either while the image is held is the model's choice (log entry 84). -/
def Sys2Proof.Spec.Attests : Prop :=
  ∀ (s : State) (hub : Nat), hub < 2 → s.answers = true →
    let c := s.fuses.lifecycle
    let body := Config.report s.meas c s.devcap s.nonce
    let all := body ++ Config.sign c.toNat body
    (c = 0 ∨ 3 < c ∨ s.power = .held → ∃ t, exec (.attestationRequest hub) s = .next t ∧ t = { s with attCmd := 0 })
    ∧ (c ≠ 0 → c ≤ 3 → s.power = .on → (s.writeReach hub s.attDest.toNat all.length).isReady = true →
        Apart s s.attDest.toNat all.length → ∃ t, exec (.attestationRequest hub) s = .next t ∧ t.attCmd = 2
        ∧ (t.hubNum hub s.attDest.toNat all.length).1 = leNat all ∧ GroupsStay s t)

/-- R427, R432: writes of the management window: registers take what they hold, an address that names none is ignored, and a
queue keeps its base, capacity and context while it is enabled. That a written 0 clears SADROP and any other value leaves it is the
model's choice (log entry 59). -/
def Sys2Proof.Spec.WindowWrites : Prop :=
  ∀ (s : State) (x : DWord), s.answers = true →
    (∀ off, off % 8 ≠ 0 ∨ 0x5000 ≤ off → ∃ t, exec (.mgmtRegisterWrite off x) s = .next t ∧ t = s)
    ∧ (∃ t, exec (.mgmtRegisterWrite 0x1000 x) s = .next t ∧ t = { s with ctxBase := x &&& ~~~0xFFF })
    ∧ (∃ t, exec (.mgmtRegisterWrite 0x3100 x) s = .next t ∧ t = { s with peerBase := x &&& ~~~0x3F })
    ∧ (∃ t, exec (.mgmtRegisterWrite 0x3108 x) s = .next t ∧ t = { s with peerCnt := x &&& 0xFFFF })
    ∧ (∃ t, exec (.mgmtRegisterWrite 0x3110 x) s = .next t ∧ t = { s with saBase := x &&& ~~~0x3F })
    ∧ (∃ t, exec (.mgmtRegisterWrite 0x3118 x) s = .next t ∧ t = { s with saCnt := x &&& 0xFFFF })
    ∧ (∃ t, exec (.mgmtRegisterWrite 0x3120 x) s = .next t ∧ t = { s with saDrop := if x = 0 then 0 else s.saDrop })
    ∧ (∃ t, exec (.mgmtRegisterWrite 0x4020 x) s = .next t ∧ t = { s with attDest := x })
    ∧ ∀ q < 128,
        (∃ t, exec (.mgmtRegisterWrite (0x2000 + 32 * q) x) s = .next t ∧ t = { s with queues := t.queues }
          ∧ t.queue q = if (s.queue q).en then s.queue q else { s.queue q with base := x.toNat / 64 * 64 })
        ∧ ∃ t, exec (.mgmtRegisterWrite (0x2000 + 32 * q + 16) x) s = .next t ∧ t = { s with queues := t.queues }
          ∧ (t.queue q).en = x.getLsbD 48 ∧ (t.queue q).dev = x.getLsbD 49
          ∧ ((s.queue q).en = true → (t.queue q).cap = (s.queue q).cap ∧ (t.queue q).ctx = (s.queue q).ctx)
          ∧ ((s.queue q).en = false → (t.queue q).cap = x.setWidth 32 ∧ (t.queue q).ctx = x.toNat / 2 ^ 32 % 2 ^ 16)

/-- R427, R432: what the host reads in the management window. -/
def Sys2Proof.Spec.WindowReads : Prop :=
  ∀ s : State, s.mgmtRead 0 = s.devcap ∧ s.devcap.getLsbD 0 = s.dprec ∧ (∀ off, off % 8 ≠ 0 → s.mgmtRead off = 0)
    ∧ ∀ n < 16, ∀ d, s.die n = d →
        let x := s.mgmtRead (0x100 + 16 * n)
        let y := s.mgmtRead (0x108 + 16 * n)
        x.extractLsb' 0 32 = d.pfuse ∧ x.extractLsb' 32 16 = d.pdeg ∧ x.extractLsb' 48 16 = d.inc
          ∧ y.extractLsb' 0 3 = BitVec.ofNat 3 d.dstate ∧ y.extractLsb' 4 4 = d.cmask ∧ y.extractLsb' 16 16 = d.ce
          ∧ y.extractLsb' 32 16 = d.pinov ∧ y.extractLsb' 48 8 = BitVec.ofNat 8 d.csteps

/-- R427 to R432: reset, wipe, life cycle, attestation and the management window. What a write of SADROP does, and that a held device
writes no report, are the model's choices (log entries 59 and 84). -/
def Obligations.DeviceEvents : Prop := ResetsAndWipes ∧ Attests ∧ WindowWrites ∧ WindowReads

/-! ### The host -/

/-- R435, R436: a page of device memory that goes to host bias leaves every cache of the device; one that comes back leaves the
host's. A write of BIASCMD with go = 1 starts a flip of a page that has the other bias, and busy is 1 until it is over; a write while
busy changes nothing, which R436 says of go and which is the model's choice for the rest of the register (log entry 100). -/
def Sys2Proof.Spec.BiasFlips : Prop :=
  ∀ (s : State) (page : Nat), s.answers = true → 4096 * page < 0xC0_0000_0000 → s.paExists (4096 * page) = true →
    (s.flipFits page false = true → (∀ line ∈ pageLines page, s.recallHeld line = false) → ∃ t, exec (.biasFlipToHost page) s = .next t ∧ t.hostBias.contains page = true
      ∧ t.biasCmd = BitVec.ofNat 64 (4096 * page) ∧ (∀ c ∈ t.copies, c.line / 64 ≠ page)
      ∧ GroupsStay s t)
    ∧ (s.flipFits page true = true → ∃ t, exec (.biasFlipToDevice page) s = .next t ∧ t.hostBias.contains page = false
      ∧ t.biasCmd = BitVec.ofNat 64 (4096 * page + 2) ∧ (∀ h ∈ t.hostLines, h.line / 64 ≠ page)
      ∧ (∀ line ∈ t.hostCopies, line / 64 ≠ page) ∧ GroupsStay s t)
    ∧ (∀ x, s.biasCmd.getLsbD 2 = true → ∃ t, exec (.mgmtRegisterWrite 0x3000 x) s = .next t ∧ t = s)
    ∧ ∀ dir : Bool, s.biasCmd.getLsbD 2 = false → s.hostBias.contains page = dir →
        ∃ t, exec (.mgmtRegisterWrite 0x3000 (BitVec.ofNat 64 (4096 * page + (if dir then 2 else 0) + 1))) s = .next t
          ∧ t = { s with biasCmd := BitVec.ofNat 64 (4096 * page + 4 + (if dir then 2 else 0)) }

/-- R422, R425, R435: the host reads and snoops what lies at the home once the device's dirty bytes are there, where no flip and no
rebuild holds the access; what it writes is what the home then holds, and poison that it carries (log entry 70) poisons the line. -/
def Sys2Proof.Spec.HostAccesses : Prop :=
  (∀ (s : State) (line : Nat), s.answers = true → s.hostHeld false line = false →
    let device := 64 * line < 0xC0_0000_0000 ∧ s.paExists (64 * line) = true
    (device → ∃ t, exec (.hostCxlRead line) s = .next t ∧ t.hostAnswer = some (t.homeLine line, t.poisoned line)
      ∧ (∀ c ∈ t.copies, c.line = line → c.level < 3 → c.dirty = 0) ∧ GroupsStay s t)
    ∧ (isHostMem (64 * line) = true → ∃ t, exec (.hostSnoop line) s = .next t
      ∧ t.hostAnswer = some (t.homeLine line, t.poisoned line)
      ∧ (∀ c ∈ t.copies, c.line = line → c.level < 3 → c.dirty = 0) ∧ GroupsStay s t))
  ∧ ∀ (s : State) (pa : Nat) (bs : List Byte), s.answers = true → bs ≠ [] → pa % 64 + bs.length ≤ 64 →
    s.hostHeld true (pa / 64) = false → isHostMem pa = true ∨ (pa < 0xC0_0000_0000 ∧ s.paExists pa = true) →
    ∃ t, exec (.hostCxlWrite pa bs) s = .next t
      ∧ (∀ i < bs.length, lineByte (t.homeLine (pa / 64)) (pa % 64 + i) = bs.getD i 0)
      ∧ (s.moveInput.poison = true → t.poisoned (pa / 64) = true)
      ∧ (∀ q, q / 64 ≠ s.homeKey (pa / 64) → t.byte q = s.byte q) ∧ GroupsStay s t

/-- R431, R433, R434, R445: translations of host pages come and go, and links train. An invalidation removes the entries at once, and
is over when nothing translated under them is under way. That a response that refuses both reads and writes is kept, and that the
host page of a response is an input of the move and holds for both hubs, are the model's choices (log entries 59 and 100). -/
def Sys2Proof.Spec.TranslationsAndLinks : Prop :=
  (∀ (s : State) (hub page : Nat), s.hostPageBusy hub page = false ∨ (∃ e ∈ s.ats, e.hub = hub ∧ e.page = page) →
    ∃ t, exec (.atsInvalidation hub page) s = .next t
      ∧ t = { s with ats := s.ats.filter fun e => !(e.hub == hub && e.page == page) })
  ∧ (∀ (s : State) (hub page : Nat) (r w : Bool), s.atsMiss.contains (hub, page) = true →
      ∃ t, exec (.atsTranslationResponse hub page r w) s = .next t
        ∧ t = { s with ats := t.ats, atsMiss := t.atsMiss, hostMap := t.hostMap, inputs := s.inputs.drop 1 }
        ∧ (∀ p, s.moveInput.page = some p → p ≠ page → sget page t.hostMap page = p)
        ∧ (t.ats.find? fun e => e.hub == hub && e.page == page) = some ⟨hub, page, r, w⟩
        ∧ t.atsMiss.contains (hub, page) = false)
  ∧ ∀ (s : State) (hub width gen : Nat) (cxl3 : Bool), hub < 2 → width ∈ [16, 8, 4] → gen ∈ [7, 6, 5] →
      ∃ t, exec (.hostLinkTrain hub width gen cxl3) s = .next t ∧ t = { s with links := t.links, cxl3 := t.cxl3, hostCopies := t.hostCopies }
        ∧ (t.cxl3.find? (·.1 == hub)) = some (hub, cxl3)
        ∧ (t.links.find? (·.1 == hub)) = some (hub, (width, gen))

/-- R422, R431 to R437, R445: what the host does to the device. That a refusing translation is kept, where a host page's number comes
from, and what a write of BIASCMD does while busy are the model's choices (log entries 59 and 100). -/
def Obligations.HostEvents : Prop := BiasFlips ∧ HostAccesses ∧ TranslationsAndLinks

/-! ### Encodings -/

/-- R69 to R102: the bytes of every well-formed instruction decode to that instruction, and the bytes after it are left. -/
def Obligations.EncodeDecode : Prop :=
  ∀ i : Instr, i.wellFormed = true → i.isDeviceOp = false → ∀ rest : List Byte, decode (encodeBytes i ++ rest) = .ok (i, rest)

/-- R69 to R102: words laid out by hand from the tables of the spec, field by field, decode to the instructions they stand for. -/
def Obligations.DecodeWords : Prop :=
  decodeWord (4#5 ++ 0#6 ++ 3#7 ++ 1#7 ++ 2#7) = .ok (.add 3 1 2)
    ∧ decodeWord (5#5 ++ 5#7 ++ 4#7 ++ 0x1FFF#13) = .ok (.addi 5 4 0x1FFF)
    ∧ decodeWord (7#5 ++ 0#4 ++ 1#2 ++ 4#7 ++ 2#7 ++ 67#7) = .ok (.addFmt 1 4 2 67)
    ∧ decodeWord (2#5 ++ 2#4 ++ 0x7FFFFE#23) = .ok (.brAny 0x7FFFFE)
    ∧ decodeWord (15#5 ++ 2#3 ++ 1#2 ++ 5#3 ++ 3#7 ++ 6#7 ++ 8#5) = .ok (.ldW 1 5 3 6 8)
    ∧ decodeWord (17#5 ++ 7#3 ++ 3#2 ++ 7#3 ++ 8#7 ++ 10#7 ++ 31#5) = .ok (.atCasW 3 7 8 10 31)
    ∧ decodeWord (20#5 ++ 0#3 ++ 3#2 ++ 4#3 ++ 0#7 ++ 0#7 ++ 0#5) = .ok (.fence 3 4)
    ∧ decodeWord (23#5 ++ 14#6 ++ 64#7 ++ 66#7 ++ 68#7) = .ok (.enqCascade 6 64 66 68)
    ∧ decodeWord 0x00200000 = .ok .nop
    ∧ decodeWord 0xA8613380 = .ok (.rpeek 4 103)

/-! ### A step -/

/-- A fetch of the group in focus at `va` gives `bs`: the page permits it, the bytes are not poisoned, and what the group may
have fetched ahead is the same (R163, R164). -/
def Sys2Proof.Spec.Fetches (s : State) (va : DWord) (bs : List Byte) : Prop :=
  canonical va = true ∧ ∃ p : Placed,
    s.translate (Agent.ofCore s.cur.core) s.launch.desc s.launch.record .fetch va = .ok p
      ∧ (s.loadBytes (Agent.ofCore s.cur.core) 1 p.home p.pa bs.length).2 = false
      ∧ s.fetchValues p.home p.pa bs.length = [bs]

/-- The state once a fetch at `va` has set the accessed bits of its translation. -/
def Sys2Proof.Spec.fetched (s : State) (va : DWord) : State :=
  s.settle (Agent.ofCore s.cur.core) s.launch.desc s.launch.record .fetch va

/-- The word at `pc` has the bytes `bs`, its schedule half-word is `h`, and `t` is the state once both are fetched (R39). -/
def Sys2Proof.Spec.FetchesWord (s : State) (pc : DWord) (bs : List Byte) (h : Half) (t : State) : Prop :=
  ∃ hs : List Byte, bs.length = 4 ∧ hs.length = 2 ∧ h = BitVec.ofNat 16 (leNat hs) ∧ Fetches s pc bs
    ∧ Fetches (fetched s pc) (s.schedAddr pc) hs
    ∧ t = fetched (fetched s pc) (s.schedAddr pc)

/-- The group in focus comes to a new instruction: no move of the device or of other groups is first, and nothing else is
due. -/
def Sys2Proof.Spec.Ready (s : State) : Prop :=
  s.upsets = [] ∧ s.script = [] ∧ s.canIssue s.cur = true ∧ s.cur.wait = .none ∧ s.burst < burstLimit ∧ s.before = none

/-- The group has its next instruction still to fetch: none is in its prefetch buffer (R164). -/
def Sys2Proof.Spec.ToFetch (s : State) : Prop := s.cur.came = false ∨ s.cur.fetched = none

/-- The state in which the group issues: one more step of its own has passed. -/
def Sys2Proof.Spec.stepping (s : State) : State := { s with burst := s.burst + 1 }

/-- The waits of a half-word are over: each path it names is empty and without poison, and no barrier wait is left; where the group has
just come to the instruction, its half-word names none (R59). -/
def Sys2Proof.Spec.WaitsOver (s : State) (h : Half) : Prop :=
  (∀ k < 6, h.getLsbD k = true → s.cur.count k = 0 ∧ s.cur.ppath.getLsbD k = false)
    ∧ if s.cur.came = true then s.cur.barWait = [] else ∀ k < 6, h.getLsbD (6 + k) = false

/-- The issue slot of an instruction. -/
def Sys2Proof.Spec.slotOf (s : State) (i : Instr) (h h2 : Half) (w : Word) (len : Nat) : IssueSlot :=
  { half := h, half2 := h2, word := w, len := len,
    beats := if doubleBeat i (h.getLsbD 12) then 2 * (s.team.gw / 16) else s.team.gw / 16 }

/-- The group keeps the pipe for the instruction in issue: it ends within the 32 cycles of the run, and where the group has just come to
it no issue distance stands before it; or no other group of the pipe is ready (R57, R410). -/
def Sys2Proof.Spec.KeepsPipe (s : State) (first : Bool) : Prop :=
  (s.pastRun s.cur s.issue = false ∧ (first = true → s.issue.dist = 0)) ∨ s.pipeNext = none

/-- R56 to R59, R103, R139: where the bytes at the program counter decode to an instruction and its waits are over, a step puts
it into the issue slot and is the meaning of that instruction; a word that is no instruction traps. -/
def Sys2Proof.Spec.StepRunsWord : Prop :=
  ∀ (s t : State) (bs : List Byte) (h : Half), Ready s → ToFetch s → FetchesWord (stepping s) s.cur.pc bs h t → WaitsOver s h →
    (∀ i, decode bs = .ok (i, []) → let u := t.begin (wordOfBytes bs) (slotOf s i h 0 (wordOfBytes bs) 1)
      KeepsPipe u (!s.cur.came) → step s = exec i u)
    ∧ ∀ e, decodeWord (wordOfBytes bs) = .error e → isPfx (wordOfBytes bs) = false →
      let u := t.begin (wordOfBytes bs) { half := h, half2 := 0, word := wordOfBytes bs, len := 1, beats := s.team.gw / 16 }
      KeepsPipe u (!s.cur.came) → step s = .next u.illegal

/-- R32, R57, R66: the two words of a prefix pair are fetched as one instruction, which waits on its first half-word. -/
def Sys2Proof.Spec.StepRunsPair : Prop :=
  ∀ (s t u : State) (bs cs : List Byte) (h h2 : Half) (i : Instr), Ready s → ToFetch s →
    FetchesWord (stepping s) s.cur.pc bs h t → FetchesWord t (s.cur.pc + 4) cs h2 u → WaitsOver s h →
    isPfx (wordOfBytes bs) = true → decode (bs ++ cs) = .ok (i, []) →
    let v := u.begin (wordOfBytes bs) (slotOf s i h h2 (wordOfBytes cs) 2)
    KeepsPipe v (!s.cur.came) → step s = exec i v

/-- R57, R164: a group that has come to an instruction before, and has given way since, runs the instruction in its prefetch buffer. -/
def Sys2Proof.Spec.StepRunsFetched : Prop :=
  ∀ (s : State) (w : Word) (slot : IssueSlot) (i : Instr), Ready s → s.cur.came = true → s.cur.fetched = some (w, slot) →
    WaitsOver s slot.half →
    (isPfx w = false ∧ decodeWord w = .ok i) ∨ (isPfx w = true ∧ (decodePair w slot.word).1 = .ok i) →
    let u := (stepping s).begin w slot
    KeepsPipe u false → step s = exec i u

/-- R59: an instruction does not run while a path that its half-word names has an operation in flight: the group stays where it
is and has no effect on any register, thread, team or byte of memory. -/
def Sys2Proof.Spec.StepWaits : Prop :=
  ∀ (s t : State) (bs : List Byte) (h : Half) (i : Instr) (k : Nat), Ready s → ToFetch s →
    FetchesWord (stepping s) s.cur.pc bs h t → decode bs = .ok (i, []) → k < 6 → h.getLsbD k = true →
    s.cur.count k ≠ 0 → KeepsPipe (t.begin (wordOfBytes bs) (slotOf s i h 0 (wordOfBytes bs) 1)) (!s.cur.came) →
    ∃ u, step s = .next u ∧ u.cur.pc = s.cur.pc ∧ u.cur.wait ≠ .none ∧ u.cur.sregs = s.cur.sregs ∧ u.cur.em = s.cur.em
      ∧ u.cur.threads.map (fun x => (x.stack, x.pred)) = s.cur.threads.map (fun x => (x.stack, x.pred))
      ∧ u.cur.flights = s.cur.flights ∧ u.others = t.others ∧ u.teams = s.teams ∧ u.mem = t.mem

/-- A step makes the first move of the script where there is one; what is no operation of the device stops the machine. An error
of storage that is to happen comes before either. The script and the list of errors are the model's inputs (log entries 1
and 64). -/
def Sys2Proof.Spec.StepFollowsTheScript : Prop :=
  (∀ (s : State) (i : Instr) (rest : List Instr), s.upsets = [] → s.script = i :: rest →
    (i.isDeviceOp = true → step s = exec i { s with script := rest })
    ∧ (i.isDeviceOp = false → step s = .fault .notADeviceOp))
  ∧ ∀ (s : State) (u : Upset) (rest : List Upset), s.upsets = u :: rest → step s = .next (State.upset { s with upsets := rest } u)

/-- R32, R39, R56 to R59, R66, R103: a step runs the decoded instruction. -/
def Obligations.StepRunsDecoded : Prop := StepRunsWord ∧ StepRunsPair ∧ StepRunsFetched ∧ StepWaits ∧ StepFollowsTheScript

/-! ### Reset and what every step keeps -/

/-- R10, R48, R396, R411, R423, R427 to R430, R432, R435, R441: the machine right after reset, of the values that the spec
states: nothing runs, all device memory holds zeros, no line is poisoned, every page is in device bias, no queue is enabled, the
counters and registers of the management window hold 0; and a new thread holds zeros and empty queues. The spec states no reset
value for the registers of R432 that have no table of their own, nor for the landing tables: there 0 and empty are the model's
choice (log entry 11). -/
def Obligations.ResetState : Prop :=
  let s := State.reset
  s.power = .wiping ∧ s.groups = [] ∧ s.teams = [] ∧ s.launches = [] ∧ s.commands = [] ∧ s.landings = [] ∧ s.copies = []
    ∧ s.writeBuf = [] ∧ s.tableLines = [] ∧ s.hostBias = [] ∧ (∀ line, s.poisoned line = false)
    ∧ (∀ pa, isHostMem pa = false → s.byte pa = 0)
    ∧ (∀ q, (s.queue q).en = false ∧ (s.queue q).err = false ∧ (s.queue q).dev = false ∧ (s.queue q).rd = 0 ∧ (s.queue q).wr = 0
        ∧ (s.queue q).base = 0)
    ∧ (∀ core, sget 0 s.cycles core = 0) ∧ (∀ off, sget 0 s.shared off = 0) ∧ (∀ i, sget 0 s.pnNext i = 0)
    ∧ s.ctxBase = 0 ∧ s.biasCmd = 0 ∧ s.peerBase = 0 ∧ s.peerCnt = 0 ∧ s.saBase = 0 ∧ s.saCnt = 0 ∧ s.saDrop = 0
    ∧ s.meas = 0 ∧ s.nonce = 0 ∧ s.attDest = 0 ∧ s.attCmd = 0
    ∧ (∀ n < 16, (s.die n).inc = 0 ∧ (s.die n).ce = 0 ∧ (s.die n).csteps = 0 ∧ (s.die n).rebuilding = false)
    ∧ ∀ tid, (∀ k, sget 0 (Thread.new tid).stack k = 0) ∧ (Thread.new tid).pred = 0 ∧ (Thread.new tid).b0 = 0
        ∧ (∀ p, (Thread.new tid).queue p = []) ∧ Group.zero.sregs = [] ∧ Group.zero.fpc = 0 ∧ Group.zero.gstat = 0
        ∧ Group.zero.latches = 0

/-- The two invariants hold at reset. -/
def Obligations.ResetInvariants : Prop := Memory.wf State.reset.mem = true ∧ Numbered State.reset

/-- R9: memory stays in its canonical form over every step, from every state that has it, so that a byte has one place in
the state and equal memories are equal data. -/
def Obligations.StepKeepsMemoryForm : Prop :=
  ∀ s t : State, Memory.wf s.mem = true → step s = .next t → Memory.wf t.mem = true

/-- Over every step each group of the device keeps a number of its own, which no later group takes: the groups of R165 and R174 are
told apart. The number is the model's (log entry 3). -/
def Obligations.StepKeepsGroupNumbers : Prop :=
  ∀ s t : State, Numbered s → step s = .next t → Numbered t
end

