-- ==== Sys2Proof/Laws/Sparse.lean ====
section
/-! SUPPORT. Laws of sparse maps: reading after setting, the canonical form that setting and filtering keep, and that two
maps in that form with the same readings are the same map. -/

namespace Sys2Proof.Machine

variable {α : Type}

theorem sget_nil (z : α) (i : Nat) : sget z [] i = z := rfl

theorem sget_of_all_gt (z : α) (m : List (Nat × α)) (i : Nat) (h : ∀ e ∈ m, i < e.1) : sget z m i = z := by
  induction m with
  | nil => rfl
  | cons e rest ih =>
    have h1 := h e (by simp)
    simp only [sget]
    rw [if_neg (by omega)]
    exact ih fun x hx => h x (by simp [hx])

theorem sget_filter_ne_same (z : α) (m : List (Nat × α)) (i : Nat) : sget z (m.filter fun e => e.1 ≠ i) i = z := by
  induction m with
  | nil => rfl
  | cons e rest ih =>
    by_cases h : e.1 = i
    · simpa [List.filter, h] using ih
    · simpa [List.filter, h, sget, Ne.symm h] using ih

theorem sget_filter_ne_other (z : α) (m : List (Nat × α)) (i j : Nat) (hj : j ≠ i) :
    sget z (m.filter fun e => e.1 ≠ i) j = sget z m j := by
  induction m with
  | nil => rfl
  | cons e rest ih =>
    by_cases h : e.1 = i
    · have : j ≠ e.1 := by omega
      simpa [List.filter, h, sget, hj] using ih
    · by_cases hje : j = e.1
      · simp [List.filter, h, sget, hje]
      · simpa [List.filter, h, sget, hje] using ih

theorem sget_sins_same (z v : α) (m : List (Nat × α)) (i : Nat) (h : ∀ e ∈ m, e.1 ≠ i) : sget z (sins i v m) i = v := by
  induction m with
  | nil => simp [sins, sget]
  | cons e rest ih =>
    have h1 := h e (by simp)
    by_cases hlt : i < e.1
    · simp [sins, hlt, sget]
    · simp [sins, hlt, sget, Ne.symm h1]
      exact ih fun x hx => h x (by simp [hx])

theorem sget_sins_other (z v : α) (m : List (Nat × α)) (i j : Nat) (hj : j ≠ i) :
    sget z (sins i v m) j = sget z m j := by
  induction m with
  | nil => simp [sins, sget, hj]
  | cons e rest ih =>
    by_cases hlt : i < e.1
    · simp [sins, hlt, sget, hj]
    · by_cases hje : j = e.1 <;> simp [sins, hlt, sget, hje, ih]

/-- A key reads the value it was set to. -/
@[simp] theorem sget_sset_same [DecidableEq α] (z v : α) (m : List (Nat × α)) (i : Nat) : sget z (sset z m i v) i = v := by
  unfold sset
  by_cases hv : v = z
  · simpa [hv] using sget_filter_ne_same z m i
  · simpa [hv] using sget_sins_same z v _ i (by simp)

/-- Setting a key leaves every other key alone. -/
theorem sget_sset_other [DecidableEq α] (z v : α) (m : List (Nat × α)) (i j : Nat) (hj : j ≠ i) :
    sget z (sset z m i v) j = sget z m j := by
  unfold sset
  by_cases hv : v = z
  · simpa [hv] using sget_filter_ne_other z m i j hj
  · have := sget_sins_other z v (m.filter fun e => e.1 ≠ i) i j hj
    simp only [hv, if_false]
    rw [this]; exact sget_filter_ne_other z m i j hj

theorem sget_sset [DecidableEq α] (z v : α) (m : List (Nat × α)) (i j : Nat) :
    sget z (sset z m i v) j = if j = i then v else sget z m j := by
  by_cases h : j = i
  · subst h; simp
  · simp [h, sget_sset_other z v m i j h]

/-! ### The canonical form -/

theorem swf_nil [DecidableEq α] (z : α) : swf z [] = true := rfl

theorem swf_cons [DecidableEq α] (z : α) (e : Nat × α) (m : List (Nat × α)) :
    swf z (e :: m) = true ↔ e.2 ≠ z ∧ (∀ x ∈ m, e.1 < x.1) ∧ swf z m = true := by
  obtain ⟨k, v⟩ := e
  simp [swf, and_assoc]

theorem swf_filter [DecidableEq α] (z : α) (p : Nat × α → Bool) (m : List (Nat × α)) (h : swf z m = true) :
    swf z (m.filter p) = true := by
  induction m with
  | nil => rfl
  | cons e rest ih =>
    obtain ⟨h1, h2, h3⟩ := (swf_cons z e rest).1 h
    by_cases hp : p e = true
    · rw [List.filter_cons_of_pos hp]
      exact (swf_cons z e _).2 ⟨h1, fun x hx => h2 x (List.mem_filter.1 hx).1, ih h3⟩
    · rw [List.filter_cons_of_neg hp]; exact ih h3

theorem mem_sins (i : Nat) (v : α) (m : List (Nat × α)) (e : Nat × α) (h : e ∈ sins i v m) : e = (i, v) ∨ e ∈ m := by
  induction m with
  | nil => simpa [sins] using h
  | cons x rest ih =>
    by_cases hlt : i < x.1
    · simpa [sins, hlt] using h
    · simp only [sins, hlt, if_false, List.mem_cons] at h
      rcases h with h | h
      · exact .inr (by simp [h])
      · rcases ih h with h | h <;> simp [h]

theorem swf_sins [DecidableEq α] (z v : α) (m : List (Nat × α)) (i : Nat) (hv : v ≠ z) (hi : ∀ e ∈ m, e.1 ≠ i)
    (h : swf z m = true) : swf z (sins i v m) = true := by
  induction m with
  | nil => simp [sins, swf, hv]
  | cons e rest ih =>
    obtain ⟨h1, h2, h3⟩ := (swf_cons z e rest).1 h
    have he := hi e (by simp)
    by_cases hlt : i < e.1
    · simp only [sins, hlt, if_true]
      refine (swf_cons z _ _).2 ⟨hv, fun x hx => ?_, h⟩
      rcases List.mem_cons.1 hx with rfl | hx
      · exact hlt
      · exact Nat.lt_trans hlt (h2 x hx)
    · simp only [sins, hlt, if_false]
      refine (swf_cons z _ _).2 ⟨h1, fun x hx => ?_, ih (fun x hx => hi x (by simp [hx])) h3⟩
      rcases mem_sins i v rest x hx with rfl | hx
      · simp; omega
      · exact h2 x hx

/-- Setting a key keeps the canonical form. -/
theorem swf_sset [DecidableEq α] (z v : α) (m : List (Nat × α)) (i : Nat) (h : swf z m = true) :
    swf z (sset z m i v) = true := by
  unfold sset
  by_cases hv : v = z
  · simpa [hv] using swf_filter z _ m h
  · simpa [hv] using swf_sins z v _ i hv (by simp) (swf_filter z _ m h)

theorem sget_ne_of_mem [DecidableEq α] (z : α) (m : List (Nat × α)) (h : swf z m = true) (e : Nat × α) (he : e ∈ m) :
    sget z m e.1 = e.2 := by
  induction m with
  | nil => cases he
  | cons x rest ih =>
    obtain ⟨h1, h2, h3⟩ := (swf_cons z x rest).1 h
    rcases List.mem_cons.1 he with rfl | he
    · simp [sget]
    · have := h2 e he
      simp only [sget]
      rw [if_neg (by omega)]; exact ih h3 he

/-- Two maps in canonical form that read the same at every key are the same list. -/
theorem swf_ext [DecidableEq α] (z : α) (m n : List (Nat × α)) (hm : swf z m = true) (hn : swf z n = true)
    (h : ∀ i, sget z m i = sget z n i) : m = n := by
  induction m generalizing n with
  | nil =>
    cases n with
    | nil => rfl
    | cons e rest =>
      have := h e.1
      rw [sget_ne_of_mem z _ hn e (by simp)] at this
      exact absurd this.symm ((swf_cons z e rest).1 hn).1
  | cons e rest ih =>
    obtain ⟨h1, h2, h3⟩ := (swf_cons z e rest).1 hm
    cases n with
    | nil =>
      have := h e.1
      rw [sget_ne_of_mem z _ hm e (by simp)] at this
      exact absurd this h1
    | cons f more =>
      obtain ⟨g1, g2, g3⟩ := (swf_cons z f more).1 hn
      have hk : e.1 = f.1 := by
        rcases Nat.lt_trichotomy e.1 f.1 with hl | hl | hl
        · have := h e.1
          rw [sget_ne_of_mem z _ hm e (by simp), sget_of_all_gt z (f :: more) e.1] at this
          · exact absurd this h1
          · intro x hx
            rcases List.mem_cons.1 hx with rfl | hx
            · exact hl
            · exact Nat.lt_trans hl (g2 x hx)
        · exact hl
        · have := h f.1
          rw [sget_ne_of_mem z _ hn f (by simp), sget_of_all_gt z (e :: rest) f.1] at this
          · exact absurd this.symm g1
          · intro x hx
            rcases List.mem_cons.1 hx with rfl | hx
            · exact hl
            · exact Nat.lt_trans hl (h2 x hx)
      have hv : e.2 = f.2 := by
        have := h e.1
        rw [sget_ne_of_mem z _ hm e (by simp), hk, sget_ne_of_mem z _ hn f (by simp)] at this
        exact this
      have hef : e = f := Prod.ext hk hv
      subst hef
      rw [ih more h3 g3]
      intro i
      by_cases hi : i = e.1
      · subst hi
        rw [sget_of_all_gt z rest e.1 h2, sget_of_all_gt z more e.1 g2]
      · have := h i
        simpa [sget, hi] using this

end Sys2Proof.Machine
end

