-- ==== Sys2Proof/Laws/Memory.lean ====
section
/-! SUPPORT. Laws of memory: a byte reads what was last written to it, and every memory operation keeps the canonical
form. -/

namespace Sys2Proof.Machine

/-! ### Bytes -/

@[simp] theorem byte_setByte_same (s : State) (pa : Nat) (b : Byte) : (s.setByte pa b).byte pa = b := by
  simp [State.setByte, State.byte]

theorem byte_setByte (s : State) (pa q : Nat) (b : Byte) : (s.setByte pa b).byte q = if q = pa then b else s.byte q := by
  simp [State.setByte, State.byte, sget_sset]

/-- Writing bytes leaves every byte outside them alone. -/
theorem byte_setBytes_outside (bs : List Byte) (s : State) (pa q : Nat) (h : q < pa ∨ pa + bs.length ≤ q) :
    (s.setBytes pa bs).byte q = s.byte q := by
  induction bs generalizing s pa with
  | nil => rfl
  | cons b rest ih =>
    simp only [List.length_cons] at h
    rw [State.setBytes, ih _ _ (by omega), byte_setByte, if_neg (by omega)]

/-- A written byte reads as the one of the list at its place. -/
theorem byte_setBytes_inside (bs : List Byte) (s : State) (pa i : Nat) (h : i < bs.length) :
    (s.setBytes pa bs).byte (pa + i) = bs[i] := by
  induction bs generalizing s pa i with
  | nil => simp at h
  | cons b rest ih =>
    cases i with
    | zero => simp [State.setBytes, byte_setBytes_outside]
    | succ n =>
      have hn : n < rest.length := by simpa using h
      have := ih (s.setByte pa b) (pa + 1) n hn
      simpa [State.setBytes, Nat.add_assoc, Nat.add_comm 1 n] using this

theorem byte_mem_eq {s t : State} (h : s.mem = t.mem) (q : Nat) : s.byte q = t.byte q := by simp [State.byte, h]

/-- Two states whose memories are in canonical form and read the same everywhere have the same memory. -/
theorem mem_ext {s t : State} (hs : Memory.wf s.mem = true) (ht : Memory.wf t.mem = true)
    (h : ∀ q, s.byte q = t.byte q) : s.mem = t.mem := swf_ext unwritten _ _ hs ht h

/-! ### The canonical form -/

/-- Memory is in canonical form. -/
def State.memOk (s : State) : Prop := Memory.wf s.mem = true

theorem memOk_reset : State.reset.memOk := by unfold State.memOk; decide

theorem memOk_of_mem {s t : State} (h : s.memOk) (e : t.mem = s.mem) : t.memOk := by
  unfold State.memOk at *; rw [e]; exact h

theorem memOk_filter {s t : State} (h : s.memOk) (p : Host.Cell → Bool) (e : t.mem = s.mem.filter p) : t.memOk := by
  unfold State.memOk at *; rw [e]; exact swf_filter unwritten p _ h

/-- A fold of operations that keep the form keeps it. -/
theorem memOk_foldl {β : Type} (f : State → β → State) (hf : ∀ s b, s.memOk → (f s b).memOk) (bs : List β) (s : State)
    (h : s.memOk) : (bs.foldl f s).memOk := by
  induction bs generalizing s with
  | nil => exact h
  | cons b rest ih => exact ih _ (hf s b h)

theorem memOk_setByte (s : State) (pa : Nat) (b : Byte) (h : s.memOk) : (s.setByte pa b).memOk :=
  swf_sset unwritten b _ pa h

theorem memOk_setBytes (bs : List Byte) (s : State) (pa : Nat) (h : s.memOk) : (s.setBytes pa bs).memOk := by
  induction bs generalizing s pa with
  | nil => exact h
  | cons b rest ih => exact ih _ _ (memOk_setByte s pa b h)

theorem memOk_setNum (s : State) (pa n x : Nat) (h : s.memOk) : (s.setNum pa n x).memOk := memOk_setBytes _ _ _ h

theorem memOk_setPoison (s : State) (line : Nat) (p : Bool) (h : s.memOk) : (s.setPoison line p).memOk := h

theorem memOk_modCur (s : State) (f : Group → Group) (h : s.memOk) : (s.modCur f).memOk := h

theorem memOk_setTeam (s : State) (t : Team) (h : s.memOk) : (s.setTeam t).memOk := h

theorem memOk_setLaunch (s : State) (l : Launch) (h : s.memOk) : (s.setLaunch l).memOk := h

theorem memOk_writeHome (s : State) (line : Nat) (mask : BitVec 64) (data : BitVec 512) (h : s.memOk) :
    (s.writeHome line mask data).memOk := by
  unfold State.writeHome
  apply memOk_foldl
  · intro t i ht
    by_cases hb : mask.getLsbD i = true
    · simpa only [hb, if_true] using memOk_setByte t _ _ ht
    · simpa [hb] using ht
  · exact h

theorem memOk_touch (s : State) (line : Nat) (h : s.memOk) : (s.touch line).memOk := by
  simp only [State.touch]
  split
  · exact h
  · exact h

theorem memOk_putHome (s : State) (line : Nat) (mask : BitVec 64) (data : BitVec 512) (q : Bool) (h : s.memOk) :
    (s.putHome line mask data q).memOk :=
  memOk_of_mem (memOk_writeHome _ line mask data (memOk_touch s line h)) rfl

theorem memOk_sendHome (s : State) (c : Copy) (h : s.memOk) : (s.sendHome c).memOk := memOk_putHome _ _ _ _ _ h

theorem memOk_takeFromHost (s : State) (line : Nat) (h : s.memOk) : (s.takeFromHost line).memOk := by
  unfold State.takeFromHost
  split
  · exact h
  · exact memOk_putHome _ _ _ _ _ h

/-- Removing copies changes no byte of memory. -/
theorem mem_dropCopies (s : State) (p : Copy → Bool) : (s.dropCopies p).mem = s.mem := by
  suffices ∀ (cs : List Copy) (t : State), (cs.foldl (fun t c => (t.remember c.line).notify c.line c.atPoint) t).mem = t.mem from
    this _ _
  intro cs
  induction cs with
  | nil => intro t; rfl
  | cons c rest ih => intro t; rw [List.foldl_cons, ih]; rfl

theorem memOk_dropCopies (s : State) (p : Copy → Bool) (h : s.memOk) : (s.dropCopies p).memOk :=
  memOk_of_mem h (mem_dropCopies s p)

theorem memOk_notify (s : State) (line : Nat) (hit : Nat → Nat → Bool) (h : s.memOk) : (s.notify line hit).memOk := h

/-- Updating pinned copies changes no byte of memory. -/
theorem mem_keepPins (s old : State) (line : Nat) : (s.keepPins old line).mem = s.mem := by
  unfold State.keepPins
  generalize List.filter _ old.copies = cs
  induction cs generalizing s with
  | nil => rfl
  | cons c rest ih => rw [List.foldl_cons, ih]; split <;> rfl

theorem memOk_keepPins (s old : State) (line : Nat) (h : s.memOk) : (s.keepPins old line).memOk :=
  memOk_of_mem h (mem_keepPins s old line)

/-! ### Performing a store -/

theorem memOk_gather (s : State) (a : Agent) (x line : Nat) (h : s.memOk) : (s.gather a x line).memOk := by
  unfold State.gather
  dsimp only
  split
  · exact memOk_notify _ _ _ (memOk_dropCopies _ _ (memOk_foldl _ (fun t c ht => memOk_sendHome t c ht) _ _ h))
  · exact h

theorem memOk_performHome (s : State) (a : Agent) (line : Nat) (mask : BitVec 64) (data : BitVec 512) (p : Bool) (h : s.memOk) :
    (s.performHome a line mask data p).memOk := by
  unfold State.performHome
  dsimp only
  refine memOk_keepPins _ _ _ (memOk_notify _ _ _ ?_)
  unfold State.memOk
  dsimp only
  exact memOk_dropCopies _ _ (memOk_putHome _ _ _ _ _ (memOk_of_mem (memOk_gather s a 7 line h) rfl))

theorem memOk_reachPoint (s : State) (a : Agent) (scope x line : Nat) (v : Arrival) (h : s.memOk) :
    (s.reachPoint a scope x line v).memOk := by
  unfold State.reachPoint
  dsimp only
  apply memOk_notify
  split
  · exact memOk_putHome _ _ _ _ _ (memOk_dropCopies (s.remember line) _ h)
  · split
    · exact memOk_dropCopies (s.remember line) _ h
    · exact memOk_dropCopies (s.remember line) _ h

theorem memOk_performAt (s : State) (a : Agent) (scope line : Nat) (mask : BitVec 64) (data : BitVec 512) (p : Bool)
    (h : s.memOk) : (s.performAt a scope line mask data p).memOk := by
  unfold State.performAt
  dsimp only
  generalize Arrival.add _ mask data p = v
  split
  · exact h
  · exact memOk_keepPins _ _ _ (memOk_reachPoint _ _ _ _ _ _ (memOk_gather _ _ _ _ (memOk_touch s line h)))

theorem memOk_pushOutward (s : State) (c : Copy) (h : s.memOk) : (s.pushOutward c).memOk := by
  unfold State.pushOutward
  apply memOk_dropCopies
  split
  · exact h
  · exact memOk_performAt _ _ _ _ _ _ _ h

theorem memOk_makeRoom3 (s : State) (unit line : Nat) (h : s.memOk) : (s.makeRoom3 unit line).memOk := by
  unfold State.makeRoom3
  split
  · exact memOk_pushOutward _ _ h
  · exact h

theorem memOk_roomBeyond2 (s : State) (c : Copy) (h : s.memOk) : (s.roomBeyond2 c).memOk := by
  unfold State.roomBeyond2
  split
  · exact h
  · exact memOk_makeRoom3 _ _ _ h

theorem memOk_makeRoom2 (s : State) (unit line : Nat) (h : s.memOk) : (s.makeRoom2 unit line).memOk := by
  unfold State.makeRoom2
  split
  · exact memOk_pushOutward _ _ (memOk_roomBeyond2 _ _ h)
  · exact h

theorem memOk_roomBeyond1 (s : State) (c : Copy) (h : s.memOk) : (s.roomBeyond1 c).memOk := by
  unfold State.roomBeyond1
  split
  · exact h
  · exact memOk_makeRoom2 _ _ _ h

theorem memOk_makeRoom1 (s : State) (unit line : Nat) (h : s.memOk) : (s.makeRoom1 unit line).memOk := by
  unfold State.makeRoom1
  split
  · exact memOk_pushOutward _ _ (memOk_roomBeyond1 _ _ h)
  · exact h

theorem memOk_roomBeyond (s : State) (c : Copy) (h : s.memOk) : (s.roomBeyond c).memOk := by
  unfold State.roomBeyond
  split
  · exact memOk_roomBeyond1 _ _ h
  · split
    · exact memOk_roomBeyond2 _ _ h
    · exact h

theorem memOk_makeRoom (s : State) (a : Agent) (level line : Nat) (h : s.memOk) : (s.makeRoom a level line).memOk := by
  unfold State.makeRoom
  split
  · exact h
  · split
    · exact memOk_makeRoom1 _ _ _ h
    · split
      · exact memOk_makeRoom2 _ _ _ h
      · exact memOk_makeRoom3 _ _ _ h

theorem memOk_perform (s : State) (a : Agent) (scope : Nat) (home : Home) (line : Nat) (mask : BitVec 64)
    (data : BitVec 512) (p : Bool) (h : s.memOk) : (s.perform a scope home line mask data p).memOk := by
  unfold State.perform
  split
  · exact memOk_performHome _ _ _ _ _ _ h
  · apply memOk_performAt
    split
    · exact memOk_makeRoom _ _ _ _ h
    · exact h

theorem memOk_fill (s : State) (a : Agent) (level unit line scope : Nat) (h : s.memOk) :
    (s.fill a level unit line scope).memOk := memOk_makeRoom _ _ _ _ (memOk_touch s line h)

theorem memOk_keepLine (s : State) (core scope line : Nat) (h : s.memOk) : (s.keepLine core scope line).memOk := by
  unfold State.keepLine
  split
  · exact h
  · exact memOk_makeRoom1 _ _ _ h

theorem memOk_performEntry (s : State) (e : WriteEntry) (scope : Nat) (h : s.memOk) : (s.performEntry e scope).memOk := by
  unfold State.performEntry
  dsimp only
  split
  · exact memOk_perform _ _ _ _ _ _ _ _ h
  · exact memOk_keepLine _ _ _ _ (memOk_perform _ _ _ _ _ _ _ _ h)

theorem memOk_pushOut (s : State) (core scope : Nat) (h : s.memOk) : (s.pushOut core scope).memOk := by
  unfold State.pushOut
  exact memOk_foldl _ (fun t l ht => memOk_perform t _ _ _ _ _ _ _ ht) _ _
    (memOk_foldl _ (fun t e ht => memOk_performEntry t e _ ht) _ _ h)

theorem memOk_pullIn (s : State) (core scope : Nat) (h : s.memOk) : (s.pullIn core scope).memOk :=
  memOk_foldl _ (fun _ _ ht => memOk_keepPins _ _ _ ht) _ _ (memOk_dropCopies _ _ (memOk_pushOut s core scope h))

theorem memOk_flushLineBy (s : State) (line : Nat) (rev : Bool) (h : s.memOk) : (s.flushLineBy line rev).memOk := by
  unfold State.flushLineBy
  dsimp only
  split
  · exact h
  · exact memOk_notify _ _ _ (memOk_dropCopies _ _ (memOk_foldl _ (fun t c ht => memOk_sendHome t c ht) _ _ h))

theorem memOk_recall (s : State) (line : Nat) (h : s.memOk) : (s.recall line).memOk :=
  memOk_keepPins _ _ _ (memOk_dropCopies _ _ (memOk_flushLineBy s line false h))

theorem memOk_storeBytes (s : State) (a : Agent) (scope : Nat) (home : Home) (pa n x : Nat) (h : s.memOk) :
    (s.storeBytes a scope home pa n x).memOk := memOk_perform _ _ _ _ _ _ _ _ h

theorem memOk_pinLine (s : State) (line entryPa : Nat) (h : s.memOk) : (s.pinLine line entryPa).memOk := by
  unfold State.pinLine
  dsimp only
  split
  · exact h
  · split
    · exact memOk_of_mem (memOk_makeRoom3 s.unpin _ _ h) rfl
    · exact h

/-! ### Translations, releases and the end of a region -/

theorem memOk_setAD (s : State) (a : Agent) (acc : Access) (entryPa : Nat) (e : DWord) (h : s.memOk) :
    (s.setAD a acc entryPa e).memOk := by
  unfold State.setAD
  split
  · exact h
  · exact memOk_storeBytes _ _ _ _ _ _ _ h

theorem memOk_noteAts (s : State) (hub page : Nat) (h : s.memOk) : (s.noteAts hub page).memOk := by
  unfold State.noteAts
  split <;> exact h

theorem memOk_settle (s : State) (a : Agent) (desc : CtxDesc) (r : LaunchRec) (acc : Access) (va : DWord) (h : s.memOk) :
    (s.settle a desc r acc va).memOk := by
  unfold State.settle
  split
  · dsimp only
    split
    · apply memOk_setAD
      split
      · exact memOk_pinLine _ _ _ h
      · exact h
    · exact h
  · exact memOk_noteAts _ _ _ h
  · split <;> exact h
  · exact h
  · exact h

theorem memOk_pullLine (s : State) (desc line : Nat) (home : Home) (h : s.memOk) : (s.pullLine desc line home).memOk := by
  unfold State.pullLine
  dsimp only
  split
  · exact h
  · exact memOk_storeBytes _ _ _ _ _ _ _ (memOk_storeBytes _ _ _ _ _ _ _ (memOk_perform _ _ _ _ _ _ _ _ (memOk_recall _ _ h)))

theorem memOk_focus (s : State) (g : Nat) (h : s.memOk) : (s.focus g).memOk := by
  unfold State.focus
  split
  · exact h
  · split <;> exact h

theorem memOk_inGroup (s : State) (g : Nat) (f : State → State) (hf : ∀ t : State, t.memOk → (f t).memOk) (h : s.memOk) :
    (s.inGroup g f).memOk := memOk_focus _ _ (hf _ (memOk_focus s g h))

theorem mem_drainLines (ls : List StoreLine) (s : State) (g : Group) : (s.drainLines g ls).1.mem = s.mem := by
  induction ls generalizing s with
  | nil => rfl
  | cons l rest ih =>
    unfold State.drainLines
    split
    · exact ih _
    · rfl

@[simp] theorem mem_drainCommitted (s : State) : s.drainCommitted.mem = s.mem := mem_drainLines _ _ _

@[simp] theorem mem_commit (s : State) : s.commit.mem = s.mem := by simp [State.commit, State.modCur]

@[simp] theorem mem_endRegion (s : State) : s.endRegion.mem = s.mem := mem_commit s

@[simp] theorem mem_finishAt (s : State) (pc : DWord) (b0 : Nat → DWord) : (s.finishAt pc b0).mem = s.mem := rfl

@[simp] theorem mem_stallAt (s : State) (w : Wait) (cause : Nat) : (s.stallAt w cause).mem = s.mem := rfl

theorem memOk_drainAll (s : State) (h : s.memOk) : s.drainAll.memOk := by
  unfold State.drainAll
  refine memOk_foldl _ (fun t g ht => ?_) _ _ h
  split
  · exact memOk_inGroup _ _ _ (fun u hu => memOk_of_mem hu (mem_drainCommitted u)) ht
  · exact ht

theorem memOk_release (s : State) (scope : Nat) (h : s.memOk) : (s.release scope).memOk := by
  unfold State.release
  dsimp only
  split
  · exact h
  · exact memOk_pushOut _ _ _ h

theorem memOk_acquire (s : State) (scope : Nat) (h : s.memOk) : (s.acquire scope).memOk := by
  unfold State.acquire
  split
  · exact h
  · exact memOk_pullIn _ _ _ h

theorem memOk_endLaunch (s : State) (launch : Nat) (va pc : DWord) (tid0 tix : Word) (info : Nat) (h : s.memOk) :
    (s.endLaunch launch va pc tid0 tix info).memOk := by
  unfold State.endLaunch
  split
  · exact h
  · split
    · exact h
    · exact memOk_drainAll _ h

theorem memOk_trapAfter (s : State) (pre : Group → Group) (cause : Nat) (tpc tval : DWord) (h : s.memOk) :
    (s.trapAfter pre cause tpc tval).memOk := by
  unfold State.trapAfter
  split
  · exact memOk_endLaunch _ _ _ _ _ _ _ h
  · split
    · exact h
    · exact memOk_of_mem h (by simp [State.startRegion, State.modCur])

theorem memOk_trap (s : State) (cause : Nat) (tval : DWord) (h : s.memOk) : (s.trap cause tval).memOk :=
  memOk_trapAfter _ _ _ _ _ h

theorem memOk_poisonTrap (s : State) (pre : Group → Group) (tpc tval : DWord) (h : s.memOk) :
    (s.poisonTrap pre tpc tval).memOk := by
  unfold State.poisonTrap
  split
  · exact memOk_endLaunch _ _ _ _ _ _ _ h
  · split
    · exact h
    · split
      · exact memOk_of_mem h (by simp [State.startRegion, State.modCur])
      · exact memOk_endLaunch _ _ _ _ _ _ _ h

theorem memOk_park (s : State) (va : DWord) (kind info : Nat) (h : s.memOk) : (s.park va kind info).memOk := h

theorem memOk_parkFetch (s : State) (va : DWord) (info : Nat) (h : s.memOk) : (s.parkFetch va info).memOk := by
  unfold State.parkFetch
  split <;> exact h

end Sys2Proof.Machine
end

