-- ==== Sys2Proof/Laws/State.lean ====
section
/-! SUPPORT. What each update of the state and of a group leaves in each field, one lemma a field. -/

namespace Sys2Proof.Machine

/-! ### `State.modCur` -/

@[simp] theorem modCur_script (s : State) (f : Group → Group) : (s.modCur f).script = s.script := rfl
@[simp] theorem modCur_upsets (s : State) (f : Group → Group) : (s.modCur f).upsets = s.upsets := rfl
@[simp] theorem modCur_inputs (s : State) (f : Group → Group) : (s.modCur f).inputs = s.inputs := rfl
@[simp] theorem modCur_cur (s : State) (f : Group → Group) : (s.modCur f).cur = f s.cur := rfl
@[simp] theorem modCur_others (s : State) (f : Group → Group) : (s.modCur f).others = s.others := rfl
@[simp] theorem modCur_issue (s : State) (f : Group → Group) : (s.modCur f).issue = s.issue := rfl
@[simp] theorem modCur_teams (s : State) (f : Group → Group) : (s.modCur f).teams = s.teams := rfl
@[simp] theorem modCur_launches (s : State) (f : Group → Group) : (s.modCur f).launches = s.launches := rfl
@[simp] theorem modCur_units (s : State) (f : Group → Group) : (s.modCur f).units = s.units := rfl
@[simp] theorem modCur_mem (s : State) (f : Group → Group) : (s.modCur f).mem = s.mem := rfl
@[simp] theorem modCur_poison (s : State) (f : Group → Group) : (s.modCur f).poison = s.poison := rfl
@[simp] theorem modCur_writeBuf (s : State) (f : Group → Group) : (s.modCur f).writeBuf = s.writeBuf := rfl
@[simp] theorem modCur_copies (s : State) (f : Group → Group) : (s.modCur f).copies = s.copies := rfl
@[simp] theorem modCur_past (s : State) (f : Group → Group) : (s.modCur f).past = s.past := rfl
@[simp] theorem modCur_tableLines (s : State) (f : Group → Group) : (s.modCur f).tableLines = s.tableLines := rfl
@[simp] theorem modCur_oldTables (s : State) (f : Group → Group) : (s.modCur f).oldTables = s.oldTables := rfl
@[simp] theorem modCur_pulls (s : State) (f : Group → Group) : (s.modCur f).pulls = s.pulls := rfl
@[simp] theorem modCur_writers (s : State) (f : Group → Group) : (s.modCur f).writers = s.writers := rfl
@[simp] theorem modCur_fallen (s : State) (f : Group → Group) : (s.modCur f).fallen = s.fallen := rfl
@[simp] theorem modCur_hostBias (s : State) (f : Group → Group) : (s.modCur f).hostBias = s.hostBias := rfl
@[simp] theorem modCur_hostLines (s : State) (f : Group → Group) : (s.modCur f).hostLines = s.hostLines := rfl
@[simp] theorem modCur_hostCopies (s : State) (f : Group → Group) : (s.modCur f).hostCopies = s.hostCopies := rfl
@[simp] theorem modCur_hostMap (s : State) (f : Group → Group) : (s.modCur f).hostMap = s.hostMap := rfl
@[simp] theorem modCur_frames (s : State) (f : Group → Group) : (s.modCur f).frames = s.frames := rfl
@[simp] theorem modCur_cycles (s : State) (f : Group → Group) : (s.modCur f).cycles = s.cycles := rfl
@[simp] theorem modCur_arrayLast (s : State) (f : Group → Group) : (s.modCur f).arrayLast = s.arrayLast := rfl
@[simp] theorem modCur_arrayBusy (s : State) (f : Group → Group) : (s.modCur f).arrayBusy = s.arrayBusy := rfl
@[simp] theorem modCur_commands (s : State) (f : Group → Group) : (s.modCur f).commands = s.commands := rfl
@[simp] theorem modCur_landings (s : State) (f : Group → Group) : (s.modCur f).landings = s.landings := rfl
@[simp] theorem modCur_faultRecs (s : State) (f : Group → Group) : (s.modCur f).faultRecs = s.faultRecs := rfl
@[simp] theorem modCur_faultSeq (s : State) (f : Group → Group) : (s.modCur f).faultSeq = s.faultSeq := rfl
@[simp] theorem modCur_interrupts (s : State) (f : Group → Group) : (s.modCur f).interrupts = s.interrupts := rfl
@[simp] theorem modCur_queues (s : State) (f : Group → Group) : (s.modCur f).queues = s.queues := rfl
@[simp] theorem modCur_dies (s : State) (f : Group → Group) : (s.modCur f).dies = s.dies := rfl
@[simp] theorem modCur_fuses (s : State) (f : Group → Group) : (s.modCur f).fuses = s.fuses := rfl
@[simp] theorem modCur_ctxBase (s : State) (f : Group → Group) : (s.modCur f).ctxBase = s.ctxBase := rfl
@[simp] theorem modCur_biasCmd (s : State) (f : Group → Group) : (s.modCur f).biasCmd = s.biasCmd := rfl
@[simp] theorem modCur_peerBase (s : State) (f : Group → Group) : (s.modCur f).peerBase = s.peerBase := rfl
@[simp] theorem modCur_peerCnt (s : State) (f : Group → Group) : (s.modCur f).peerCnt = s.peerCnt := rfl
@[simp] theorem modCur_saBase (s : State) (f : Group → Group) : (s.modCur f).saBase = s.saBase := rfl
@[simp] theorem modCur_saCnt (s : State) (f : Group → Group) : (s.modCur f).saCnt = s.saCnt := rfl
@[simp] theorem modCur_saDrop (s : State) (f : Group → Group) : (s.modCur f).saDrop = s.saDrop := rfl
@[simp] theorem modCur_nonce (s : State) (f : Group → Group) : (s.modCur f).nonce = s.nonce := rfl
@[simp] theorem modCur_attDest (s : State) (f : Group → Group) : (s.modCur f).attDest = s.attDest := rfl
@[simp] theorem modCur_attCmd (s : State) (f : Group → Group) : (s.modCur f).attCmd = s.attCmd := rfl
@[simp] theorem modCur_meas (s : State) (f : Group → Group) : (s.modCur f).meas = s.meas := rfl
@[simp] theorem modCur_shared (s : State) (f : Group → Group) : (s.modCur f).shared = s.shared := rfl
@[simp] theorem modCur_power (s : State) (f : Group → Group) : (s.modCur f).power = s.power := rfl
@[simp] theorem modCur_hostAnswer (s : State) (f : Group → Group) : (s.modCur f).hostAnswer = s.hostAnswer := rfl
@[simp] theorem modCur_ats (s : State) (f : Group → Group) : (s.modCur f).ats = s.ats := rfl
@[simp] theorem modCur_atsMiss (s : State) (f : Group → Group) : (s.modCur f).atsMiss = s.atsMiss := rfl
@[simp] theorem modCur_links (s : State) (f : Group → Group) : (s.modCur f).links = s.links := rfl
@[simp] theorem modCur_cxl3 (s : State) (f : Group → Group) : (s.modCur f).cxl3 = s.cxl3 := rfl
@[simp] theorem modCur_ports (s : State) (f : Group → Group) : (s.modCur f).ports = s.ports := rfl
@[simp] theorem modCur_pathsDown (s : State) (f : Group → Group) : (s.modCur f).pathsDown = s.pathsDown := rfl
@[simp] theorem modCur_timeouts (s : State) (f : Group → Group) : (s.modCur f).timeouts = s.timeouts := rfl
@[simp] theorem modCur_uetMsgs (s : State) (f : Group → Group) : (s.modCur f).uetMsgs = s.uetMsgs := rfl
@[simp] theorem modCur_uetFlags (s : State) (f : Group → Group) : (s.modCur f).uetFlags = s.uetFlags := rfl
@[simp] theorem modCur_pnWindows (s : State) (f : Group → Group) : (s.modCur f).pnWindows = s.pnWindows := rfl
@[simp] theorem modCur_pnNext (s : State) (f : Group → Group) : (s.modCur f).pnNext = s.pnNext := rfl
@[simp] theorem modCur_nextMsg (s : State) (f : Group → Group) : (s.modCur f).nextMsg = s.nextMsg := rfl
@[simp] theorem modCur_nextSeq (s : State) (f : Group → Group) : (s.modCur f).nextSeq = s.nextSeq := rfl
@[simp] theorem modCur_sent (s : State) (f : Group → Group) : (s.modCur f).sent = s.sent := rfl
@[simp] theorem modCur_sprayed (s : State) (f : Group → Group) : (s.modCur f).sprayed = s.sprayed := rfl
@[simp] theorem modCur_pomasDown (s : State) (f : Group → Group) : (s.modCur f).pomasDown = s.pomasDown := rfl
@[simp] theorem modCur_fresh (s : State) (f : Group → Group) : (s.modCur f).fresh = s.fresh := rfl
@[simp] theorem modCur_draws (s : State) (f : Group → Group) : (s.modCur f).draws = s.draws := rfl
@[simp] theorem modCur_pipes (s : State) (f : Group → Group) : (s.modCur f).pipes = s.pipes := rfl
@[simp] theorem modCur_burst (s : State) (f : Group → Group) : (s.modCur f).burst = s.burst := rfl
@[simp] theorem modCur_cursor (s : State) (f : Group → Group) : (s.modCur f).cursor = s.cursor := rfl

/-! ### `State.setTeam` -/

@[simp] theorem setTeam_script (s : State) (t : Team) : (s.setTeam t).script = s.script := rfl
@[simp] theorem setTeam_upsets (s : State) (t : Team) : (s.setTeam t).upsets = s.upsets := rfl
@[simp] theorem setTeam_inputs (s : State) (t : Team) : (s.setTeam t).inputs = s.inputs := rfl
@[simp] theorem setTeam_cur (s : State) (t : Team) : (s.setTeam t).cur = s.cur := rfl
@[simp] theorem setTeam_others (s : State) (t : Team) : (s.setTeam t).others = s.others := rfl
@[simp] theorem setTeam_issue (s : State) (t : Team) : (s.setTeam t).issue = s.issue := rfl
@[simp] theorem setTeam_teams (s : State) (t : Team) : (s.setTeam t).teams = s.teams.map fun x => if x.id = t.id then t else x := rfl
@[simp] theorem setTeam_launches (s : State) (t : Team) : (s.setTeam t).launches = s.launches := rfl
@[simp] theorem setTeam_units (s : State) (t : Team) : (s.setTeam t).units = s.units := rfl
@[simp] theorem setTeam_mem (s : State) (t : Team) : (s.setTeam t).mem = s.mem := rfl
@[simp] theorem setTeam_poison (s : State) (t : Team) : (s.setTeam t).poison = s.poison := rfl
@[simp] theorem setTeam_writeBuf (s : State) (t : Team) : (s.setTeam t).writeBuf = s.writeBuf := rfl
@[simp] theorem setTeam_copies (s : State) (t : Team) : (s.setTeam t).copies = s.copies := rfl
@[simp] theorem setTeam_past (s : State) (t : Team) : (s.setTeam t).past = s.past := rfl
@[simp] theorem setTeam_tableLines (s : State) (t : Team) : (s.setTeam t).tableLines = s.tableLines := rfl
@[simp] theorem setTeam_oldTables (s : State) (t : Team) : (s.setTeam t).oldTables = s.oldTables := rfl
@[simp] theorem setTeam_pulls (s : State) (t : Team) : (s.setTeam t).pulls = s.pulls := rfl
@[simp] theorem setTeam_writers (s : State) (t : Team) : (s.setTeam t).writers = s.writers := rfl
@[simp] theorem setTeam_fallen (s : State) (t : Team) : (s.setTeam t).fallen = s.fallen := rfl
@[simp] theorem setTeam_hostBias (s : State) (t : Team) : (s.setTeam t).hostBias = s.hostBias := rfl
@[simp] theorem setTeam_hostLines (s : State) (t : Team) : (s.setTeam t).hostLines = s.hostLines := rfl
@[simp] theorem setTeam_hostCopies (s : State) (t : Team) : (s.setTeam t).hostCopies = s.hostCopies := rfl
@[simp] theorem setTeam_hostMap (s : State) (t : Team) : (s.setTeam t).hostMap = s.hostMap := rfl
@[simp] theorem setTeam_frames (s : State) (t : Team) : (s.setTeam t).frames = s.frames := rfl
@[simp] theorem setTeam_cycles (s : State) (t : Team) : (s.setTeam t).cycles = s.cycles := rfl
@[simp] theorem setTeam_arrayLast (s : State) (t : Team) : (s.setTeam t).arrayLast = s.arrayLast := rfl
@[simp] theorem setTeam_arrayBusy (s : State) (t : Team) : (s.setTeam t).arrayBusy = s.arrayBusy := rfl
@[simp] theorem setTeam_commands (s : State) (t : Team) : (s.setTeam t).commands = s.commands := rfl
@[simp] theorem setTeam_landings (s : State) (t : Team) : (s.setTeam t).landings = s.landings := rfl
@[simp] theorem setTeam_faultRecs (s : State) (t : Team) : (s.setTeam t).faultRecs = s.faultRecs := rfl
@[simp] theorem setTeam_faultSeq (s : State) (t : Team) : (s.setTeam t).faultSeq = s.faultSeq := rfl
@[simp] theorem setTeam_interrupts (s : State) (t : Team) : (s.setTeam t).interrupts = s.interrupts := rfl
@[simp] theorem setTeam_queues (s : State) (t : Team) : (s.setTeam t).queues = s.queues := rfl
@[simp] theorem setTeam_dies (s : State) (t : Team) : (s.setTeam t).dies = s.dies := rfl
@[simp] theorem setTeam_fuses (s : State) (t : Team) : (s.setTeam t).fuses = s.fuses := rfl
@[simp] theorem setTeam_ctxBase (s : State) (t : Team) : (s.setTeam t).ctxBase = s.ctxBase := rfl
@[simp] theorem setTeam_biasCmd (s : State) (t : Team) : (s.setTeam t).biasCmd = s.biasCmd := rfl
@[simp] theorem setTeam_peerBase (s : State) (t : Team) : (s.setTeam t).peerBase = s.peerBase := rfl
@[simp] theorem setTeam_peerCnt (s : State) (t : Team) : (s.setTeam t).peerCnt = s.peerCnt := rfl
@[simp] theorem setTeam_saBase (s : State) (t : Team) : (s.setTeam t).saBase = s.saBase := rfl
@[simp] theorem setTeam_saCnt (s : State) (t : Team) : (s.setTeam t).saCnt = s.saCnt := rfl
@[simp] theorem setTeam_saDrop (s : State) (t : Team) : (s.setTeam t).saDrop = s.saDrop := rfl
@[simp] theorem setTeam_nonce (s : State) (t : Team) : (s.setTeam t).nonce = s.nonce := rfl
@[simp] theorem setTeam_attDest (s : State) (t : Team) : (s.setTeam t).attDest = s.attDest := rfl
@[simp] theorem setTeam_attCmd (s : State) (t : Team) : (s.setTeam t).attCmd = s.attCmd := rfl
@[simp] theorem setTeam_meas (s : State) (t : Team) : (s.setTeam t).meas = s.meas := rfl
@[simp] theorem setTeam_shared (s : State) (t : Team) : (s.setTeam t).shared = s.shared := rfl
@[simp] theorem setTeam_power (s : State) (t : Team) : (s.setTeam t).power = s.power := rfl
@[simp] theorem setTeam_hostAnswer (s : State) (t : Team) : (s.setTeam t).hostAnswer = s.hostAnswer := rfl
@[simp] theorem setTeam_ats (s : State) (t : Team) : (s.setTeam t).ats = s.ats := rfl
@[simp] theorem setTeam_atsMiss (s : State) (t : Team) : (s.setTeam t).atsMiss = s.atsMiss := rfl
@[simp] theorem setTeam_links (s : State) (t : Team) : (s.setTeam t).links = s.links := rfl
@[simp] theorem setTeam_cxl3 (s : State) (t : Team) : (s.setTeam t).cxl3 = s.cxl3 := rfl
@[simp] theorem setTeam_ports (s : State) (t : Team) : (s.setTeam t).ports = s.ports := rfl
@[simp] theorem setTeam_pathsDown (s : State) (t : Team) : (s.setTeam t).pathsDown = s.pathsDown := rfl
@[simp] theorem setTeam_timeouts (s : State) (t : Team) : (s.setTeam t).timeouts = s.timeouts := rfl
@[simp] theorem setTeam_uetMsgs (s : State) (t : Team) : (s.setTeam t).uetMsgs = s.uetMsgs := rfl
@[simp] theorem setTeam_uetFlags (s : State) (t : Team) : (s.setTeam t).uetFlags = s.uetFlags := rfl
@[simp] theorem setTeam_pnWindows (s : State) (t : Team) : (s.setTeam t).pnWindows = s.pnWindows := rfl
@[simp] theorem setTeam_pnNext (s : State) (t : Team) : (s.setTeam t).pnNext = s.pnNext := rfl
@[simp] theorem setTeam_nextMsg (s : State) (t : Team) : (s.setTeam t).nextMsg = s.nextMsg := rfl
@[simp] theorem setTeam_nextSeq (s : State) (t : Team) : (s.setTeam t).nextSeq = s.nextSeq := rfl
@[simp] theorem setTeam_sent (s : State) (t : Team) : (s.setTeam t).sent = s.sent := rfl
@[simp] theorem setTeam_sprayed (s : State) (t : Team) : (s.setTeam t).sprayed = s.sprayed := rfl
@[simp] theorem setTeam_pomasDown (s : State) (t : Team) : (s.setTeam t).pomasDown = s.pomasDown := rfl
@[simp] theorem setTeam_fresh (s : State) (t : Team) : (s.setTeam t).fresh = s.fresh := rfl
@[simp] theorem setTeam_draws (s : State) (t : Team) : (s.setTeam t).draws = s.draws := rfl
@[simp] theorem setTeam_pipes (s : State) (t : Team) : (s.setTeam t).pipes = s.pipes := rfl
@[simp] theorem setTeam_burst (s : State) (t : Team) : (s.setTeam t).burst = s.burst := rfl
@[simp] theorem setTeam_cursor (s : State) (t : Team) : (s.setTeam t).cursor = s.cursor := rfl

/-! ### `State.setLaunch` -/

@[simp] theorem setLaunch_script (s : State) (l : Launch) : (s.setLaunch l).script = s.script := rfl
@[simp] theorem setLaunch_upsets (s : State) (l : Launch) : (s.setLaunch l).upsets = s.upsets := rfl
@[simp] theorem setLaunch_inputs (s : State) (l : Launch) : (s.setLaunch l).inputs = s.inputs := rfl
@[simp] theorem setLaunch_cur (s : State) (l : Launch) : (s.setLaunch l).cur = s.cur := rfl
@[simp] theorem setLaunch_others (s : State) (l : Launch) : (s.setLaunch l).others = s.others := rfl
@[simp] theorem setLaunch_issue (s : State) (l : Launch) : (s.setLaunch l).issue = s.issue := rfl
@[simp] theorem setLaunch_teams (s : State) (l : Launch) : (s.setLaunch l).teams = s.teams := rfl
@[simp] theorem setLaunch_launches (s : State) (l : Launch) : (s.setLaunch l).launches = s.launches.map fun x => if x.id = l.id then l else x := rfl
@[simp] theorem setLaunch_units (s : State) (l : Launch) : (s.setLaunch l).units = s.units := rfl
@[simp] theorem setLaunch_mem (s : State) (l : Launch) : (s.setLaunch l).mem = s.mem := rfl
@[simp] theorem setLaunch_poison (s : State) (l : Launch) : (s.setLaunch l).poison = s.poison := rfl
@[simp] theorem setLaunch_writeBuf (s : State) (l : Launch) : (s.setLaunch l).writeBuf = s.writeBuf := rfl
@[simp] theorem setLaunch_copies (s : State) (l : Launch) : (s.setLaunch l).copies = s.copies := rfl
@[simp] theorem setLaunch_past (s : State) (l : Launch) : (s.setLaunch l).past = s.past := rfl
@[simp] theorem setLaunch_tableLines (s : State) (l : Launch) : (s.setLaunch l).tableLines = s.tableLines := rfl
@[simp] theorem setLaunch_oldTables (s : State) (l : Launch) : (s.setLaunch l).oldTables = s.oldTables := rfl
@[simp] theorem setLaunch_pulls (s : State) (l : Launch) : (s.setLaunch l).pulls = s.pulls := rfl
@[simp] theorem setLaunch_writers (s : State) (l : Launch) : (s.setLaunch l).writers = s.writers := rfl
@[simp] theorem setLaunch_fallen (s : State) (l : Launch) : (s.setLaunch l).fallen = s.fallen := rfl
@[simp] theorem setLaunch_hostBias (s : State) (l : Launch) : (s.setLaunch l).hostBias = s.hostBias := rfl
@[simp] theorem setLaunch_hostLines (s : State) (l : Launch) : (s.setLaunch l).hostLines = s.hostLines := rfl
@[simp] theorem setLaunch_hostCopies (s : State) (l : Launch) : (s.setLaunch l).hostCopies = s.hostCopies := rfl
@[simp] theorem setLaunch_hostMap (s : State) (l : Launch) : (s.setLaunch l).hostMap = s.hostMap := rfl
@[simp] theorem setLaunch_frames (s : State) (l : Launch) : (s.setLaunch l).frames = s.frames := rfl
@[simp] theorem setLaunch_cycles (s : State) (l : Launch) : (s.setLaunch l).cycles = s.cycles := rfl
@[simp] theorem setLaunch_arrayLast (s : State) (l : Launch) : (s.setLaunch l).arrayLast = s.arrayLast := rfl
@[simp] theorem setLaunch_arrayBusy (s : State) (l : Launch) : (s.setLaunch l).arrayBusy = s.arrayBusy := rfl
@[simp] theorem setLaunch_commands (s : State) (l : Launch) : (s.setLaunch l).commands = s.commands := rfl
@[simp] theorem setLaunch_landings (s : State) (l : Launch) : (s.setLaunch l).landings = s.landings := rfl
@[simp] theorem setLaunch_faultRecs (s : State) (l : Launch) : (s.setLaunch l).faultRecs = s.faultRecs := rfl
@[simp] theorem setLaunch_faultSeq (s : State) (l : Launch) : (s.setLaunch l).faultSeq = s.faultSeq := rfl
@[simp] theorem setLaunch_interrupts (s : State) (l : Launch) : (s.setLaunch l).interrupts = s.interrupts := rfl
@[simp] theorem setLaunch_queues (s : State) (l : Launch) : (s.setLaunch l).queues = s.queues := rfl
@[simp] theorem setLaunch_dies (s : State) (l : Launch) : (s.setLaunch l).dies = s.dies := rfl
@[simp] theorem setLaunch_fuses (s : State) (l : Launch) : (s.setLaunch l).fuses = s.fuses := rfl
@[simp] theorem setLaunch_ctxBase (s : State) (l : Launch) : (s.setLaunch l).ctxBase = s.ctxBase := rfl
@[simp] theorem setLaunch_biasCmd (s : State) (l : Launch) : (s.setLaunch l).biasCmd = s.biasCmd := rfl
@[simp] theorem setLaunch_peerBase (s : State) (l : Launch) : (s.setLaunch l).peerBase = s.peerBase := rfl
@[simp] theorem setLaunch_peerCnt (s : State) (l : Launch) : (s.setLaunch l).peerCnt = s.peerCnt := rfl
@[simp] theorem setLaunch_saBase (s : State) (l : Launch) : (s.setLaunch l).saBase = s.saBase := rfl
@[simp] theorem setLaunch_saCnt (s : State) (l : Launch) : (s.setLaunch l).saCnt = s.saCnt := rfl
@[simp] theorem setLaunch_saDrop (s : State) (l : Launch) : (s.setLaunch l).saDrop = s.saDrop := rfl
@[simp] theorem setLaunch_nonce (s : State) (l : Launch) : (s.setLaunch l).nonce = s.nonce := rfl
@[simp] theorem setLaunch_attDest (s : State) (l : Launch) : (s.setLaunch l).attDest = s.attDest := rfl
@[simp] theorem setLaunch_attCmd (s : State) (l : Launch) : (s.setLaunch l).attCmd = s.attCmd := rfl
@[simp] theorem setLaunch_meas (s : State) (l : Launch) : (s.setLaunch l).meas = s.meas := rfl
@[simp] theorem setLaunch_shared (s : State) (l : Launch) : (s.setLaunch l).shared = s.shared := rfl
@[simp] theorem setLaunch_power (s : State) (l : Launch) : (s.setLaunch l).power = s.power := rfl
@[simp] theorem setLaunch_hostAnswer (s : State) (l : Launch) : (s.setLaunch l).hostAnswer = s.hostAnswer := rfl
@[simp] theorem setLaunch_ats (s : State) (l : Launch) : (s.setLaunch l).ats = s.ats := rfl
@[simp] theorem setLaunch_atsMiss (s : State) (l : Launch) : (s.setLaunch l).atsMiss = s.atsMiss := rfl
@[simp] theorem setLaunch_links (s : State) (l : Launch) : (s.setLaunch l).links = s.links := rfl
@[simp] theorem setLaunch_cxl3 (s : State) (l : Launch) : (s.setLaunch l).cxl3 = s.cxl3 := rfl
@[simp] theorem setLaunch_ports (s : State) (l : Launch) : (s.setLaunch l).ports = s.ports := rfl
@[simp] theorem setLaunch_pathsDown (s : State) (l : Launch) : (s.setLaunch l).pathsDown = s.pathsDown := rfl
@[simp] theorem setLaunch_timeouts (s : State) (l : Launch) : (s.setLaunch l).timeouts = s.timeouts := rfl
@[simp] theorem setLaunch_uetMsgs (s : State) (l : Launch) : (s.setLaunch l).uetMsgs = s.uetMsgs := rfl
@[simp] theorem setLaunch_uetFlags (s : State) (l : Launch) : (s.setLaunch l).uetFlags = s.uetFlags := rfl
@[simp] theorem setLaunch_pnWindows (s : State) (l : Launch) : (s.setLaunch l).pnWindows = s.pnWindows := rfl
@[simp] theorem setLaunch_pnNext (s : State) (l : Launch) : (s.setLaunch l).pnNext = s.pnNext := rfl
@[simp] theorem setLaunch_nextMsg (s : State) (l : Launch) : (s.setLaunch l).nextMsg = s.nextMsg := rfl
@[simp] theorem setLaunch_nextSeq (s : State) (l : Launch) : (s.setLaunch l).nextSeq = s.nextSeq := rfl
@[simp] theorem setLaunch_sent (s : State) (l : Launch) : (s.setLaunch l).sent = s.sent := rfl
@[simp] theorem setLaunch_sprayed (s : State) (l : Launch) : (s.setLaunch l).sprayed = s.sprayed := rfl
@[simp] theorem setLaunch_pomasDown (s : State) (l : Launch) : (s.setLaunch l).pomasDown = s.pomasDown := rfl
@[simp] theorem setLaunch_fresh (s : State) (l : Launch) : (s.setLaunch l).fresh = s.fresh := rfl
@[simp] theorem setLaunch_draws (s : State) (l : Launch) : (s.setLaunch l).draws = s.draws := rfl
@[simp] theorem setLaunch_pipes (s : State) (l : Launch) : (s.setLaunch l).pipes = s.pipes := rfl
@[simp] theorem setLaunch_burst (s : State) (l : Launch) : (s.setLaunch l).burst = s.burst := rfl
@[simp] theorem setLaunch_cursor (s : State) (l : Launch) : (s.setLaunch l).cursor = s.cursor := rfl

/-! ### `State.setDie` -/

@[simp] theorem setDie_script (s : State) (d : Nat) (x : Die) : (s.setDie d x).script = s.script := rfl
@[simp] theorem setDie_upsets (s : State) (d : Nat) (x : Die) : (s.setDie d x).upsets = s.upsets := rfl
@[simp] theorem setDie_inputs (s : State) (d : Nat) (x : Die) : (s.setDie d x).inputs = s.inputs := rfl
@[simp] theorem setDie_cur (s : State) (d : Nat) (x : Die) : (s.setDie d x).cur = s.cur := rfl
@[simp] theorem setDie_others (s : State) (d : Nat) (x : Die) : (s.setDie d x).others = s.others := rfl
@[simp] theorem setDie_issue (s : State) (d : Nat) (x : Die) : (s.setDie d x).issue = s.issue := rfl
@[simp] theorem setDie_teams (s : State) (d : Nat) (x : Die) : (s.setDie d x).teams = s.teams := rfl
@[simp] theorem setDie_launches (s : State) (d : Nat) (x : Die) : (s.setDie d x).launches = s.launches := rfl
@[simp] theorem setDie_units (s : State) (d : Nat) (x : Die) : (s.setDie d x).units = s.units := rfl
@[simp] theorem setDie_mem (s : State) (d : Nat) (x : Die) : (s.setDie d x).mem = s.mem := rfl
@[simp] theorem setDie_poison (s : State) (d : Nat) (x : Die) : (s.setDie d x).poison = s.poison := rfl
@[simp] theorem setDie_writeBuf (s : State) (d : Nat) (x : Die) : (s.setDie d x).writeBuf = s.writeBuf := rfl
@[simp] theorem setDie_copies (s : State) (d : Nat) (x : Die) : (s.setDie d x).copies = s.copies := rfl
@[simp] theorem setDie_past (s : State) (d : Nat) (x : Die) : (s.setDie d x).past = s.past := rfl
@[simp] theorem setDie_tableLines (s : State) (d : Nat) (x : Die) : (s.setDie d x).tableLines = s.tableLines := rfl
@[simp] theorem setDie_oldTables (s : State) (d : Nat) (x : Die) : (s.setDie d x).oldTables = s.oldTables := rfl
@[simp] theorem setDie_pulls (s : State) (d : Nat) (x : Die) : (s.setDie d x).pulls = s.pulls := rfl
@[simp] theorem setDie_writers (s : State) (d : Nat) (x : Die) : (s.setDie d x).writers = s.writers := rfl
@[simp] theorem setDie_fallen (s : State) (d : Nat) (x : Die) : (s.setDie d x).fallen = s.fallen := rfl
@[simp] theorem setDie_hostBias (s : State) (d : Nat) (x : Die) : (s.setDie d x).hostBias = s.hostBias := rfl
@[simp] theorem setDie_hostLines (s : State) (d : Nat) (x : Die) : (s.setDie d x).hostLines = s.hostLines := rfl
@[simp] theorem setDie_hostCopies (s : State) (d : Nat) (x : Die) : (s.setDie d x).hostCopies = s.hostCopies := rfl
@[simp] theorem setDie_hostMap (s : State) (d : Nat) (x : Die) : (s.setDie d x).hostMap = s.hostMap := rfl
@[simp] theorem setDie_frames (s : State) (d : Nat) (x : Die) : (s.setDie d x).frames = s.frames := rfl
@[simp] theorem setDie_cycles (s : State) (d : Nat) (x : Die) : (s.setDie d x).cycles = s.cycles := rfl
@[simp] theorem setDie_arrayLast (s : State) (d : Nat) (x : Die) : (s.setDie d x).arrayLast = s.arrayLast := rfl
@[simp] theorem setDie_arrayBusy (s : State) (d : Nat) (x : Die) : (s.setDie d x).arrayBusy = s.arrayBusy := rfl
@[simp] theorem setDie_commands (s : State) (d : Nat) (x : Die) : (s.setDie d x).commands = s.commands := rfl
@[simp] theorem setDie_landings (s : State) (d : Nat) (x : Die) : (s.setDie d x).landings = s.landings := rfl
@[simp] theorem setDie_faultRecs (s : State) (d : Nat) (x : Die) : (s.setDie d x).faultRecs = s.faultRecs := rfl
@[simp] theorem setDie_faultSeq (s : State) (d : Nat) (x : Die) : (s.setDie d x).faultSeq = s.faultSeq := rfl
@[simp] theorem setDie_interrupts (s : State) (d : Nat) (x : Die) : (s.setDie d x).interrupts = s.interrupts := rfl
@[simp] theorem setDie_queues (s : State) (d : Nat) (x : Die) : (s.setDie d x).queues = s.queues := rfl
@[simp] theorem setDie_dies (s : State) (d : Nat) (x : Die) : (s.setDie d x).dies = s.dies.map fun e => if e.1 = d then (d, x) else e := rfl
@[simp] theorem setDie_fuses (s : State) (d : Nat) (x : Die) : (s.setDie d x).fuses = s.fuses := rfl
@[simp] theorem setDie_ctxBase (s : State) (d : Nat) (x : Die) : (s.setDie d x).ctxBase = s.ctxBase := rfl
@[simp] theorem setDie_biasCmd (s : State) (d : Nat) (x : Die) : (s.setDie d x).biasCmd = s.biasCmd := rfl
@[simp] theorem setDie_peerBase (s : State) (d : Nat) (x : Die) : (s.setDie d x).peerBase = s.peerBase := rfl
@[simp] theorem setDie_peerCnt (s : State) (d : Nat) (x : Die) : (s.setDie d x).peerCnt = s.peerCnt := rfl
@[simp] theorem setDie_saBase (s : State) (d : Nat) (x : Die) : (s.setDie d x).saBase = s.saBase := rfl
@[simp] theorem setDie_saCnt (s : State) (d : Nat) (x : Die) : (s.setDie d x).saCnt = s.saCnt := rfl
@[simp] theorem setDie_saDrop (s : State) (d : Nat) (x : Die) : (s.setDie d x).saDrop = s.saDrop := rfl
@[simp] theorem setDie_nonce (s : State) (d : Nat) (x : Die) : (s.setDie d x).nonce = s.nonce := rfl
@[simp] theorem setDie_attDest (s : State) (d : Nat) (x : Die) : (s.setDie d x).attDest = s.attDest := rfl
@[simp] theorem setDie_attCmd (s : State) (d : Nat) (x : Die) : (s.setDie d x).attCmd = s.attCmd := rfl
@[simp] theorem setDie_meas (s : State) (d : Nat) (x : Die) : (s.setDie d x).meas = s.meas := rfl
@[simp] theorem setDie_shared (s : State) (d : Nat) (x : Die) : (s.setDie d x).shared = s.shared := rfl
@[simp] theorem setDie_power (s : State) (d : Nat) (x : Die) : (s.setDie d x).power = s.power := rfl
@[simp] theorem setDie_hostAnswer (s : State) (d : Nat) (x : Die) : (s.setDie d x).hostAnswer = s.hostAnswer := rfl
@[simp] theorem setDie_ats (s : State) (d : Nat) (x : Die) : (s.setDie d x).ats = s.ats := rfl
@[simp] theorem setDie_atsMiss (s : State) (d : Nat) (x : Die) : (s.setDie d x).atsMiss = s.atsMiss := rfl
@[simp] theorem setDie_links (s : State) (d : Nat) (x : Die) : (s.setDie d x).links = s.links := rfl
@[simp] theorem setDie_cxl3 (s : State) (d : Nat) (x : Die) : (s.setDie d x).cxl3 = s.cxl3 := rfl
@[simp] theorem setDie_ports (s : State) (d : Nat) (x : Die) : (s.setDie d x).ports = s.ports := rfl
@[simp] theorem setDie_pathsDown (s : State) (d : Nat) (x : Die) : (s.setDie d x).pathsDown = s.pathsDown := rfl
@[simp] theorem setDie_timeouts (s : State) (d : Nat) (x : Die) : (s.setDie d x).timeouts = s.timeouts := rfl
@[simp] theorem setDie_uetMsgs (s : State) (d : Nat) (x : Die) : (s.setDie d x).uetMsgs = s.uetMsgs := rfl
@[simp] theorem setDie_uetFlags (s : State) (d : Nat) (x : Die) : (s.setDie d x).uetFlags = s.uetFlags := rfl
@[simp] theorem setDie_pnWindows (s : State) (d : Nat) (x : Die) : (s.setDie d x).pnWindows = s.pnWindows := rfl
@[simp] theorem setDie_pnNext (s : State) (d : Nat) (x : Die) : (s.setDie d x).pnNext = s.pnNext := rfl
@[simp] theorem setDie_nextMsg (s : State) (d : Nat) (x : Die) : (s.setDie d x).nextMsg = s.nextMsg := rfl
@[simp] theorem setDie_nextSeq (s : State) (d : Nat) (x : Die) : (s.setDie d x).nextSeq = s.nextSeq := rfl
@[simp] theorem setDie_sent (s : State) (d : Nat) (x : Die) : (s.setDie d x).sent = s.sent := rfl
@[simp] theorem setDie_sprayed (s : State) (d : Nat) (x : Die) : (s.setDie d x).sprayed = s.sprayed := rfl
@[simp] theorem setDie_pomasDown (s : State) (d : Nat) (x : Die) : (s.setDie d x).pomasDown = s.pomasDown := rfl
@[simp] theorem setDie_fresh (s : State) (d : Nat) (x : Die) : (s.setDie d x).fresh = s.fresh := rfl
@[simp] theorem setDie_draws (s : State) (d : Nat) (x : Die) : (s.setDie d x).draws = s.draws := rfl
@[simp] theorem setDie_pipes (s : State) (d : Nat) (x : Die) : (s.setDie d x).pipes = s.pipes := rfl
@[simp] theorem setDie_burst (s : State) (d : Nat) (x : Die) : (s.setDie d x).burst = s.burst := rfl
@[simp] theorem setDie_cursor (s : State) (d : Nat) (x : Die) : (s.setDie d x).cursor = s.cursor := rfl

/-! ### `State.setByte` -/

@[simp] theorem setByte_script (s : State) (pa : Nat) (b : Byte) : (s.setByte pa b).script = s.script := rfl
@[simp] theorem setByte_upsets (s : State) (pa : Nat) (b : Byte) : (s.setByte pa b).upsets = s.upsets := rfl
@[simp] theorem setByte_inputs (s : State) (pa : Nat) (b : Byte) : (s.setByte pa b).inputs = s.inputs := rfl
@[simp] theorem setByte_cur (s : State) (pa : Nat) (b : Byte) : (s.setByte pa b).cur = s.cur := rfl
@[simp] theorem setByte_others (s : State) (pa : Nat) (b : Byte) : (s.setByte pa b).others = s.others := rfl
@[simp] theorem setByte_issue (s : State) (pa : Nat) (b : Byte) : (s.setByte pa b).issue = s.issue := rfl
@[simp] theorem setByte_teams (s : State) (pa : Nat) (b : Byte) : (s.setByte pa b).teams = s.teams := rfl
@[simp] theorem setByte_launches (s : State) (pa : Nat) (b : Byte) : (s.setByte pa b).launches = s.launches := rfl
@[simp] theorem setByte_units (s : State) (pa : Nat) (b : Byte) : (s.setByte pa b).units = s.units := rfl
@[simp] theorem setByte_mem (s : State) (pa : Nat) (b : Byte) : (s.setByte pa b).mem = sset unwritten s.mem pa b := rfl
@[simp] theorem setByte_poison (s : State) (pa : Nat) (b : Byte) : (s.setByte pa b).poison = s.poison := rfl
@[simp] theorem setByte_writeBuf (s : State) (pa : Nat) (b : Byte) : (s.setByte pa b).writeBuf = s.writeBuf := rfl
@[simp] theorem setByte_copies (s : State) (pa : Nat) (b : Byte) : (s.setByte pa b).copies = s.copies := rfl
@[simp] theorem setByte_past (s : State) (pa : Nat) (b : Byte) : (s.setByte pa b).past = s.past := rfl
@[simp] theorem setByte_tableLines (s : State) (pa : Nat) (b : Byte) : (s.setByte pa b).tableLines = s.tableLines := rfl
@[simp] theorem setByte_oldTables (s : State) (pa : Nat) (b : Byte) : (s.setByte pa b).oldTables = s.oldTables := rfl
@[simp] theorem setByte_pulls (s : State) (pa : Nat) (b : Byte) : (s.setByte pa b).pulls = s.pulls := rfl
@[simp] theorem setByte_writers (s : State) (pa : Nat) (b : Byte) : (s.setByte pa b).writers = s.writers := rfl
@[simp] theorem setByte_fallen (s : State) (pa : Nat) (b : Byte) : (s.setByte pa b).fallen = s.fallen := rfl
@[simp] theorem setByte_hostBias (s : State) (pa : Nat) (b : Byte) : (s.setByte pa b).hostBias = s.hostBias := rfl
@[simp] theorem setByte_hostLines (s : State) (pa : Nat) (b : Byte) : (s.setByte pa b).hostLines = s.hostLines := rfl
@[simp] theorem setByte_hostCopies (s : State) (pa : Nat) (b : Byte) : (s.setByte pa b).hostCopies = s.hostCopies := rfl
@[simp] theorem setByte_hostMap (s : State) (pa : Nat) (b : Byte) : (s.setByte pa b).hostMap = s.hostMap := rfl
@[simp] theorem setByte_frames (s : State) (pa : Nat) (b : Byte) : (s.setByte pa b).frames = s.frames := rfl
@[simp] theorem setByte_cycles (s : State) (pa : Nat) (b : Byte) : (s.setByte pa b).cycles = s.cycles := rfl
@[simp] theorem setByte_arrayLast (s : State) (pa : Nat) (b : Byte) : (s.setByte pa b).arrayLast = s.arrayLast := rfl
@[simp] theorem setByte_arrayBusy (s : State) (pa : Nat) (b : Byte) : (s.setByte pa b).arrayBusy = s.arrayBusy := rfl
@[simp] theorem setByte_commands (s : State) (pa : Nat) (b : Byte) : (s.setByte pa b).commands = s.commands := rfl
@[simp] theorem setByte_landings (s : State) (pa : Nat) (b : Byte) : (s.setByte pa b).landings = s.landings := rfl
@[simp] theorem setByte_faultRecs (s : State) (pa : Nat) (b : Byte) : (s.setByte pa b).faultRecs = s.faultRecs := rfl
@[simp] theorem setByte_faultSeq (s : State) (pa : Nat) (b : Byte) : (s.setByte pa b).faultSeq = s.faultSeq := rfl
@[simp] theorem setByte_interrupts (s : State) (pa : Nat) (b : Byte) : (s.setByte pa b).interrupts = s.interrupts := rfl
@[simp] theorem setByte_queues (s : State) (pa : Nat) (b : Byte) : (s.setByte pa b).queues = s.queues := rfl
@[simp] theorem setByte_dies (s : State) (pa : Nat) (b : Byte) : (s.setByte pa b).dies = s.dies := rfl
@[simp] theorem setByte_fuses (s : State) (pa : Nat) (b : Byte) : (s.setByte pa b).fuses = s.fuses := rfl
@[simp] theorem setByte_ctxBase (s : State) (pa : Nat) (b : Byte) : (s.setByte pa b).ctxBase = s.ctxBase := rfl
@[simp] theorem setByte_biasCmd (s : State) (pa : Nat) (b : Byte) : (s.setByte pa b).biasCmd = s.biasCmd := rfl
@[simp] theorem setByte_peerBase (s : State) (pa : Nat) (b : Byte) : (s.setByte pa b).peerBase = s.peerBase := rfl
@[simp] theorem setByte_peerCnt (s : State) (pa : Nat) (b : Byte) : (s.setByte pa b).peerCnt = s.peerCnt := rfl
@[simp] theorem setByte_saBase (s : State) (pa : Nat) (b : Byte) : (s.setByte pa b).saBase = s.saBase := rfl
@[simp] theorem setByte_saCnt (s : State) (pa : Nat) (b : Byte) : (s.setByte pa b).saCnt = s.saCnt := rfl
@[simp] theorem setByte_saDrop (s : State) (pa : Nat) (b : Byte) : (s.setByte pa b).saDrop = s.saDrop := rfl
@[simp] theorem setByte_nonce (s : State) (pa : Nat) (b : Byte) : (s.setByte pa b).nonce = s.nonce := rfl
@[simp] theorem setByte_attDest (s : State) (pa : Nat) (b : Byte) : (s.setByte pa b).attDest = s.attDest := rfl
@[simp] theorem setByte_attCmd (s : State) (pa : Nat) (b : Byte) : (s.setByte pa b).attCmd = s.attCmd := rfl
@[simp] theorem setByte_meas (s : State) (pa : Nat) (b : Byte) : (s.setByte pa b).meas = s.meas := rfl
@[simp] theorem setByte_shared (s : State) (pa : Nat) (b : Byte) : (s.setByte pa b).shared = s.shared := rfl
@[simp] theorem setByte_power (s : State) (pa : Nat) (b : Byte) : (s.setByte pa b).power = s.power := rfl
@[simp] theorem setByte_hostAnswer (s : State) (pa : Nat) (b : Byte) : (s.setByte pa b).hostAnswer = s.hostAnswer := rfl
@[simp] theorem setByte_ats (s : State) (pa : Nat) (b : Byte) : (s.setByte pa b).ats = s.ats := rfl
@[simp] theorem setByte_atsMiss (s : State) (pa : Nat) (b : Byte) : (s.setByte pa b).atsMiss = s.atsMiss := rfl
@[simp] theorem setByte_links (s : State) (pa : Nat) (b : Byte) : (s.setByte pa b).links = s.links := rfl
@[simp] theorem setByte_cxl3 (s : State) (pa : Nat) (b : Byte) : (s.setByte pa b).cxl3 = s.cxl3 := rfl
@[simp] theorem setByte_ports (s : State) (pa : Nat) (b : Byte) : (s.setByte pa b).ports = s.ports := rfl
@[simp] theorem setByte_pathsDown (s : State) (pa : Nat) (b : Byte) : (s.setByte pa b).pathsDown = s.pathsDown := rfl
@[simp] theorem setByte_timeouts (s : State) (pa : Nat) (b : Byte) : (s.setByte pa b).timeouts = s.timeouts := rfl
@[simp] theorem setByte_uetMsgs (s : State) (pa : Nat) (b : Byte) : (s.setByte pa b).uetMsgs = s.uetMsgs := rfl
@[simp] theorem setByte_uetFlags (s : State) (pa : Nat) (b : Byte) : (s.setByte pa b).uetFlags = s.uetFlags := rfl
@[simp] theorem setByte_pnWindows (s : State) (pa : Nat) (b : Byte) : (s.setByte pa b).pnWindows = s.pnWindows := rfl
@[simp] theorem setByte_pnNext (s : State) (pa : Nat) (b : Byte) : (s.setByte pa b).pnNext = s.pnNext := rfl
@[simp] theorem setByte_nextMsg (s : State) (pa : Nat) (b : Byte) : (s.setByte pa b).nextMsg = s.nextMsg := rfl
@[simp] theorem setByte_nextSeq (s : State) (pa : Nat) (b : Byte) : (s.setByte pa b).nextSeq = s.nextSeq := rfl
@[simp] theorem setByte_sent (s : State) (pa : Nat) (b : Byte) : (s.setByte pa b).sent = s.sent := rfl
@[simp] theorem setByte_sprayed (s : State) (pa : Nat) (b : Byte) : (s.setByte pa b).sprayed = s.sprayed := rfl
@[simp] theorem setByte_pomasDown (s : State) (pa : Nat) (b : Byte) : (s.setByte pa b).pomasDown = s.pomasDown := rfl
@[simp] theorem setByte_fresh (s : State) (pa : Nat) (b : Byte) : (s.setByte pa b).fresh = s.fresh := rfl
@[simp] theorem setByte_draws (s : State) (pa : Nat) (b : Byte) : (s.setByte pa b).draws = s.draws := rfl
@[simp] theorem setByte_pipes (s : State) (pa : Nat) (b : Byte) : (s.setByte pa b).pipes = s.pipes := rfl
@[simp] theorem setByte_burst (s : State) (pa : Nat) (b : Byte) : (s.setByte pa b).burst = s.burst := rfl
@[simp] theorem setByte_cursor (s : State) (pa : Nat) (b : Byte) : (s.setByte pa b).cursor = s.cursor := rfl

/-! ### `State.setPoison` -/

@[simp] theorem setPoison_script (s : State) (line : Nat) (p : Bool) : (s.setPoison line p).script = s.script := rfl
@[simp] theorem setPoison_upsets (s : State) (line : Nat) (p : Bool) : (s.setPoison line p).upsets = s.upsets := rfl
@[simp] theorem setPoison_inputs (s : State) (line : Nat) (p : Bool) : (s.setPoison line p).inputs = s.inputs := rfl
@[simp] theorem setPoison_cur (s : State) (line : Nat) (p : Bool) : (s.setPoison line p).cur = s.cur := rfl
@[simp] theorem setPoison_others (s : State) (line : Nat) (p : Bool) : (s.setPoison line p).others = s.others := rfl
@[simp] theorem setPoison_issue (s : State) (line : Nat) (p : Bool) : (s.setPoison line p).issue = s.issue := rfl
@[simp] theorem setPoison_teams (s : State) (line : Nat) (p : Bool) : (s.setPoison line p).teams = s.teams := rfl
@[simp] theorem setPoison_launches (s : State) (line : Nat) (p : Bool) : (s.setPoison line p).launches = s.launches := rfl
@[simp] theorem setPoison_units (s : State) (line : Nat) (p : Bool) : (s.setPoison line p).units = s.units := rfl
@[simp] theorem setPoison_mem (s : State) (line : Nat) (p : Bool) : (s.setPoison line p).mem = s.mem := rfl
@[simp] theorem setPoison_poison (s : State) (line : Nat) (p : Bool) : (s.setPoison line p).poison = if p then ninsert (s.homeKey line) s.poison else s.poison.filter (· ≠ s.homeKey line) := rfl
@[simp] theorem setPoison_writeBuf (s : State) (line : Nat) (p : Bool) : (s.setPoison line p).writeBuf = s.writeBuf := rfl
@[simp] theorem setPoison_copies (s : State) (line : Nat) (p : Bool) : (s.setPoison line p).copies = s.copies := rfl
@[simp] theorem setPoison_past (s : State) (line : Nat) (p : Bool) : (s.setPoison line p).past = s.past := rfl
@[simp] theorem setPoison_tableLines (s : State) (line : Nat) (p : Bool) : (s.setPoison line p).tableLines = s.tableLines := rfl
@[simp] theorem setPoison_oldTables (s : State) (line : Nat) (p : Bool) : (s.setPoison line p).oldTables = s.oldTables := rfl
@[simp] theorem setPoison_pulls (s : State) (line : Nat) (p : Bool) : (s.setPoison line p).pulls = s.pulls := rfl
@[simp] theorem setPoison_writers (s : State) (line : Nat) (p : Bool) : (s.setPoison line p).writers = s.writers := rfl
@[simp] theorem setPoison_fallen (s : State) (line : Nat) (p : Bool) : (s.setPoison line p).fallen = s.fallen := rfl
@[simp] theorem setPoison_hostBias (s : State) (line : Nat) (p : Bool) : (s.setPoison line p).hostBias = s.hostBias := rfl
@[simp] theorem setPoison_hostLines (s : State) (line : Nat) (p : Bool) : (s.setPoison line p).hostLines = s.hostLines.map fun h => if h.line = line then { h with poison := p } else h := rfl
@[simp] theorem setPoison_hostCopies (s : State) (line : Nat) (p : Bool) : (s.setPoison line p).hostCopies = s.hostCopies := rfl
@[simp] theorem setPoison_hostMap (s : State) (line : Nat) (p : Bool) : (s.setPoison line p).hostMap = s.hostMap := rfl
@[simp] theorem setPoison_frames (s : State) (line : Nat) (p : Bool) : (s.setPoison line p).frames = s.frames := rfl
@[simp] theorem setPoison_cycles (s : State) (line : Nat) (p : Bool) : (s.setPoison line p).cycles = s.cycles := rfl
@[simp] theorem setPoison_arrayLast (s : State) (line : Nat) (p : Bool) : (s.setPoison line p).arrayLast = s.arrayLast := rfl
@[simp] theorem setPoison_arrayBusy (s : State) (line : Nat) (p : Bool) : (s.setPoison line p).arrayBusy = s.arrayBusy := rfl
@[simp] theorem setPoison_commands (s : State) (line : Nat) (p : Bool) : (s.setPoison line p).commands = s.commands := rfl
@[simp] theorem setPoison_landings (s : State) (line : Nat) (p : Bool) : (s.setPoison line p).landings = s.landings := rfl
@[simp] theorem setPoison_faultRecs (s : State) (line : Nat) (p : Bool) : (s.setPoison line p).faultRecs = s.faultRecs := rfl
@[simp] theorem setPoison_faultSeq (s : State) (line : Nat) (p : Bool) : (s.setPoison line p).faultSeq = s.faultSeq := rfl
@[simp] theorem setPoison_interrupts (s : State) (line : Nat) (p : Bool) : (s.setPoison line p).interrupts = s.interrupts := rfl
@[simp] theorem setPoison_queues (s : State) (line : Nat) (p : Bool) : (s.setPoison line p).queues = s.queues := rfl
@[simp] theorem setPoison_dies (s : State) (line : Nat) (p : Bool) : (s.setPoison line p).dies = s.dies := rfl
@[simp] theorem setPoison_fuses (s : State) (line : Nat) (p : Bool) : (s.setPoison line p).fuses = s.fuses := rfl
@[simp] theorem setPoison_ctxBase (s : State) (line : Nat) (p : Bool) : (s.setPoison line p).ctxBase = s.ctxBase := rfl
@[simp] theorem setPoison_biasCmd (s : State) (line : Nat) (p : Bool) : (s.setPoison line p).biasCmd = s.biasCmd := rfl
@[simp] theorem setPoison_peerBase (s : State) (line : Nat) (p : Bool) : (s.setPoison line p).peerBase = s.peerBase := rfl
@[simp] theorem setPoison_peerCnt (s : State) (line : Nat) (p : Bool) : (s.setPoison line p).peerCnt = s.peerCnt := rfl
@[simp] theorem setPoison_saBase (s : State) (line : Nat) (p : Bool) : (s.setPoison line p).saBase = s.saBase := rfl
@[simp] theorem setPoison_saCnt (s : State) (line : Nat) (p : Bool) : (s.setPoison line p).saCnt = s.saCnt := rfl
@[simp] theorem setPoison_saDrop (s : State) (line : Nat) (p : Bool) : (s.setPoison line p).saDrop = s.saDrop := rfl
@[simp] theorem setPoison_nonce (s : State) (line : Nat) (p : Bool) : (s.setPoison line p).nonce = s.nonce := rfl
@[simp] theorem setPoison_attDest (s : State) (line : Nat) (p : Bool) : (s.setPoison line p).attDest = s.attDest := rfl
@[simp] theorem setPoison_attCmd (s : State) (line : Nat) (p : Bool) : (s.setPoison line p).attCmd = s.attCmd := rfl
@[simp] theorem setPoison_meas (s : State) (line : Nat) (p : Bool) : (s.setPoison line p).meas = s.meas := rfl
@[simp] theorem setPoison_shared (s : State) (line : Nat) (p : Bool) : (s.setPoison line p).shared = s.shared := rfl
@[simp] theorem setPoison_power (s : State) (line : Nat) (p : Bool) : (s.setPoison line p).power = s.power := rfl
@[simp] theorem setPoison_hostAnswer (s : State) (line : Nat) (p : Bool) : (s.setPoison line p).hostAnswer = s.hostAnswer := rfl
@[simp] theorem setPoison_ats (s : State) (line : Nat) (p : Bool) : (s.setPoison line p).ats = s.ats := rfl
@[simp] theorem setPoison_atsMiss (s : State) (line : Nat) (p : Bool) : (s.setPoison line p).atsMiss = s.atsMiss := rfl
@[simp] theorem setPoison_links (s : State) (line : Nat) (p : Bool) : (s.setPoison line p).links = s.links := rfl
@[simp] theorem setPoison_cxl3 (s : State) (line : Nat) (p : Bool) : (s.setPoison line p).cxl3 = s.cxl3 := rfl
@[simp] theorem setPoison_ports (s : State) (line : Nat) (p : Bool) : (s.setPoison line p).ports = s.ports := rfl
@[simp] theorem setPoison_pathsDown (s : State) (line : Nat) (p : Bool) : (s.setPoison line p).pathsDown = s.pathsDown := rfl
@[simp] theorem setPoison_timeouts (s : State) (line : Nat) (p : Bool) : (s.setPoison line p).timeouts = s.timeouts := rfl
@[simp] theorem setPoison_uetMsgs (s : State) (line : Nat) (p : Bool) : (s.setPoison line p).uetMsgs = s.uetMsgs := rfl
@[simp] theorem setPoison_uetFlags (s : State) (line : Nat) (p : Bool) : (s.setPoison line p).uetFlags = s.uetFlags := rfl
@[simp] theorem setPoison_pnWindows (s : State) (line : Nat) (p : Bool) : (s.setPoison line p).pnWindows = s.pnWindows := rfl
@[simp] theorem setPoison_pnNext (s : State) (line : Nat) (p : Bool) : (s.setPoison line p).pnNext = s.pnNext := rfl
@[simp] theorem setPoison_nextMsg (s : State) (line : Nat) (p : Bool) : (s.setPoison line p).nextMsg = s.nextMsg := rfl
@[simp] theorem setPoison_nextSeq (s : State) (line : Nat) (p : Bool) : (s.setPoison line p).nextSeq = s.nextSeq := rfl
@[simp] theorem setPoison_sent (s : State) (line : Nat) (p : Bool) : (s.setPoison line p).sent = s.sent := rfl
@[simp] theorem setPoison_sprayed (s : State) (line : Nat) (p : Bool) : (s.setPoison line p).sprayed = s.sprayed := rfl
@[simp] theorem setPoison_pomasDown (s : State) (line : Nat) (p : Bool) : (s.setPoison line p).pomasDown = s.pomasDown := rfl
@[simp] theorem setPoison_fresh (s : State) (line : Nat) (p : Bool) : (s.setPoison line p).fresh = s.fresh := rfl
@[simp] theorem setPoison_draws (s : State) (line : Nat) (p : Bool) : (s.setPoison line p).draws = s.draws := rfl
@[simp] theorem setPoison_pipes (s : State) (line : Nat) (p : Bool) : (s.setPoison line p).pipes = s.pipes := rfl
@[simp] theorem setPoison_burst (s : State) (line : Nat) (p : Bool) : (s.setPoison line p).burst = s.burst := rfl
@[simp] theorem setPoison_cursor (s : State) (line : Nat) (p : Bool) : (s.setPoison line p).cursor = s.cursor := rfl

/-! ### `State.finishAt` -/

@[simp] theorem finishAt_script (s : State) (pc : DWord) (b0 : Nat → DWord) : (s.finishAt pc b0).script = s.script := rfl
@[simp] theorem finishAt_upsets (s : State) (pc : DWord) (b0 : Nat → DWord) : (s.finishAt pc b0).upsets = s.upsets := rfl
@[simp] theorem finishAt_inputs (s : State) (pc : DWord) (b0 : Nat → DWord) : (s.finishAt pc b0).inputs = s.inputs := rfl
@[simp] theorem finishAt_cur (s : State) (pc : DWord) (b0 : Nat → DWord) : (s.finishAt pc b0).cur = { ((s.cur.shift b0).goto pc).issued s.issue.beats s.draws with barWait := s.barsNow (BitVec.allOnes 6) } := rfl
@[simp] theorem finishAt_others (s : State) (pc : DWord) (b0 : Nat → DWord) : (s.finishAt pc b0).others = s.others := rfl
@[simp] theorem finishAt_issue (s : State) (pc : DWord) (b0 : Nat → DWord) : (s.finishAt pc b0).issue = s.issue := rfl
@[simp] theorem finishAt_teams (s : State) (pc : DWord) (b0 : Nat → DWord) : (s.finishAt pc b0).teams = s.teams := rfl
@[simp] theorem finishAt_launches (s : State) (pc : DWord) (b0 : Nat → DWord) : (s.finishAt pc b0).launches = s.launches := rfl
@[simp] theorem finishAt_units (s : State) (pc : DWord) (b0 : Nat → DWord) : (s.finishAt pc b0).units = s.units := rfl
@[simp] theorem finishAt_mem (s : State) (pc : DWord) (b0 : Nat → DWord) : (s.finishAt pc b0).mem = s.mem := rfl
@[simp] theorem finishAt_poison (s : State) (pc : DWord) (b0 : Nat → DWord) : (s.finishAt pc b0).poison = s.poison := rfl
@[simp] theorem finishAt_writeBuf (s : State) (pc : DWord) (b0 : Nat → DWord) : (s.finishAt pc b0).writeBuf = s.writeBuf := rfl
@[simp] theorem finishAt_copies (s : State) (pc : DWord) (b0 : Nat → DWord) : (s.finishAt pc b0).copies = s.copies := rfl
@[simp] theorem finishAt_past (s : State) (pc : DWord) (b0 : Nat → DWord) : (s.finishAt pc b0).past = s.past := rfl
@[simp] theorem finishAt_tableLines (s : State) (pc : DWord) (b0 : Nat → DWord) : (s.finishAt pc b0).tableLines = s.tableLines := rfl
@[simp] theorem finishAt_oldTables (s : State) (pc : DWord) (b0 : Nat → DWord) : (s.finishAt pc b0).oldTables = s.oldTables := rfl
@[simp] theorem finishAt_pulls (s : State) (pc : DWord) (b0 : Nat → DWord) : (s.finishAt pc b0).pulls = s.pulls := rfl
@[simp] theorem finishAt_writers (s : State) (pc : DWord) (b0 : Nat → DWord) : (s.finishAt pc b0).writers = s.writers := rfl
@[simp] theorem finishAt_fallen (s : State) (pc : DWord) (b0 : Nat → DWord) : (s.finishAt pc b0).fallen = s.fallen := rfl
@[simp] theorem finishAt_hostBias (s : State) (pc : DWord) (b0 : Nat → DWord) : (s.finishAt pc b0).hostBias = s.hostBias := rfl
@[simp] theorem finishAt_hostLines (s : State) (pc : DWord) (b0 : Nat → DWord) : (s.finishAt pc b0).hostLines = s.hostLines := rfl
@[simp] theorem finishAt_hostCopies (s : State) (pc : DWord) (b0 : Nat → DWord) : (s.finishAt pc b0).hostCopies = s.hostCopies := rfl
@[simp] theorem finishAt_hostMap (s : State) (pc : DWord) (b0 : Nat → DWord) : (s.finishAt pc b0).hostMap = s.hostMap := rfl
@[simp] theorem finishAt_frames (s : State) (pc : DWord) (b0 : Nat → DWord) : (s.finishAt pc b0).frames = s.frames := rfl
@[simp] theorem finishAt_cycles (s : State) (pc : DWord) (b0 : Nat → DWord) : (s.finishAt pc b0).cycles = s.cycles := rfl
@[simp] theorem finishAt_arrayLast (s : State) (pc : DWord) (b0 : Nat → DWord) : (s.finishAt pc b0).arrayLast = s.arrayLast := rfl
@[simp] theorem finishAt_arrayBusy (s : State) (pc : DWord) (b0 : Nat → DWord) : (s.finishAt pc b0).arrayBusy = s.arrayBusy := rfl
@[simp] theorem finishAt_commands (s : State) (pc : DWord) (b0 : Nat → DWord) : (s.finishAt pc b0).commands = s.commands := rfl
@[simp] theorem finishAt_landings (s : State) (pc : DWord) (b0 : Nat → DWord) : (s.finishAt pc b0).landings = s.landings := rfl
@[simp] theorem finishAt_faultRecs (s : State) (pc : DWord) (b0 : Nat → DWord) : (s.finishAt pc b0).faultRecs = s.faultRecs := rfl
@[simp] theorem finishAt_faultSeq (s : State) (pc : DWord) (b0 : Nat → DWord) : (s.finishAt pc b0).faultSeq = s.faultSeq := rfl
@[simp] theorem finishAt_interrupts (s : State) (pc : DWord) (b0 : Nat → DWord) : (s.finishAt pc b0).interrupts = s.interrupts := rfl
@[simp] theorem finishAt_queues (s : State) (pc : DWord) (b0 : Nat → DWord) : (s.finishAt pc b0).queues = s.queues := rfl
@[simp] theorem finishAt_dies (s : State) (pc : DWord) (b0 : Nat → DWord) : (s.finishAt pc b0).dies = s.dies := rfl
@[simp] theorem finishAt_fuses (s : State) (pc : DWord) (b0 : Nat → DWord) : (s.finishAt pc b0).fuses = s.fuses := rfl
@[simp] theorem finishAt_ctxBase (s : State) (pc : DWord) (b0 : Nat → DWord) : (s.finishAt pc b0).ctxBase = s.ctxBase := rfl
@[simp] theorem finishAt_biasCmd (s : State) (pc : DWord) (b0 : Nat → DWord) : (s.finishAt pc b0).biasCmd = s.biasCmd := rfl
@[simp] theorem finishAt_peerBase (s : State) (pc : DWord) (b0 : Nat → DWord) : (s.finishAt pc b0).peerBase = s.peerBase := rfl
@[simp] theorem finishAt_peerCnt (s : State) (pc : DWord) (b0 : Nat → DWord) : (s.finishAt pc b0).peerCnt = s.peerCnt := rfl
@[simp] theorem finishAt_saBase (s : State) (pc : DWord) (b0 : Nat → DWord) : (s.finishAt pc b0).saBase = s.saBase := rfl
@[simp] theorem finishAt_saCnt (s : State) (pc : DWord) (b0 : Nat → DWord) : (s.finishAt pc b0).saCnt = s.saCnt := rfl
@[simp] theorem finishAt_saDrop (s : State) (pc : DWord) (b0 : Nat → DWord) : (s.finishAt pc b0).saDrop = s.saDrop := rfl
@[simp] theorem finishAt_nonce (s : State) (pc : DWord) (b0 : Nat → DWord) : (s.finishAt pc b0).nonce = s.nonce := rfl
@[simp] theorem finishAt_attDest (s : State) (pc : DWord) (b0 : Nat → DWord) : (s.finishAt pc b0).attDest = s.attDest := rfl
@[simp] theorem finishAt_attCmd (s : State) (pc : DWord) (b0 : Nat → DWord) : (s.finishAt pc b0).attCmd = s.attCmd := rfl
@[simp] theorem finishAt_meas (s : State) (pc : DWord) (b0 : Nat → DWord) : (s.finishAt pc b0).meas = s.meas := rfl
@[simp] theorem finishAt_shared (s : State) (pc : DWord) (b0 : Nat → DWord) : (s.finishAt pc b0).shared = s.shared := rfl
@[simp] theorem finishAt_power (s : State) (pc : DWord) (b0 : Nat → DWord) : (s.finishAt pc b0).power = s.power := rfl
@[simp] theorem finishAt_hostAnswer (s : State) (pc : DWord) (b0 : Nat → DWord) : (s.finishAt pc b0).hostAnswer = s.hostAnswer := rfl
@[simp] theorem finishAt_ats (s : State) (pc : DWord) (b0 : Nat → DWord) : (s.finishAt pc b0).ats = s.ats := rfl
@[simp] theorem finishAt_atsMiss (s : State) (pc : DWord) (b0 : Nat → DWord) : (s.finishAt pc b0).atsMiss = s.atsMiss := rfl
@[simp] theorem finishAt_links (s : State) (pc : DWord) (b0 : Nat → DWord) : (s.finishAt pc b0).links = s.links := rfl
@[simp] theorem finishAt_cxl3 (s : State) (pc : DWord) (b0 : Nat → DWord) : (s.finishAt pc b0).cxl3 = s.cxl3 := rfl
@[simp] theorem finishAt_ports (s : State) (pc : DWord) (b0 : Nat → DWord) : (s.finishAt pc b0).ports = s.ports := rfl
@[simp] theorem finishAt_pathsDown (s : State) (pc : DWord) (b0 : Nat → DWord) : (s.finishAt pc b0).pathsDown = s.pathsDown := rfl
@[simp] theorem finishAt_timeouts (s : State) (pc : DWord) (b0 : Nat → DWord) : (s.finishAt pc b0).timeouts = s.timeouts := rfl
@[simp] theorem finishAt_uetMsgs (s : State) (pc : DWord) (b0 : Nat → DWord) : (s.finishAt pc b0).uetMsgs = s.uetMsgs := rfl
@[simp] theorem finishAt_uetFlags (s : State) (pc : DWord) (b0 : Nat → DWord) : (s.finishAt pc b0).uetFlags = s.uetFlags := rfl
@[simp] theorem finishAt_pnWindows (s : State) (pc : DWord) (b0 : Nat → DWord) : (s.finishAt pc b0).pnWindows = s.pnWindows := rfl
@[simp] theorem finishAt_pnNext (s : State) (pc : DWord) (b0 : Nat → DWord) : (s.finishAt pc b0).pnNext = s.pnNext := rfl
@[simp] theorem finishAt_nextMsg (s : State) (pc : DWord) (b0 : Nat → DWord) : (s.finishAt pc b0).nextMsg = s.nextMsg := rfl
@[simp] theorem finishAt_nextSeq (s : State) (pc : DWord) (b0 : Nat → DWord) : (s.finishAt pc b0).nextSeq = s.nextSeq := rfl
@[simp] theorem finishAt_sent (s : State) (pc : DWord) (b0 : Nat → DWord) : (s.finishAt pc b0).sent = s.sent := rfl
@[simp] theorem finishAt_sprayed (s : State) (pc : DWord) (b0 : Nat → DWord) : (s.finishAt pc b0).sprayed = s.sprayed := rfl
@[simp] theorem finishAt_pomasDown (s : State) (pc : DWord) (b0 : Nat → DWord) : (s.finishAt pc b0).pomasDown = s.pomasDown := rfl
@[simp] theorem finishAt_fresh (s : State) (pc : DWord) (b0 : Nat → DWord) : (s.finishAt pc b0).fresh = s.fresh := rfl
@[simp] theorem finishAt_draws (s : State) (pc : DWord) (b0 : Nat → DWord) : (s.finishAt pc b0).draws = s.draws := rfl
@[simp] theorem finishAt_pipes (s : State) (pc : DWord) (b0 : Nat → DWord) : (s.finishAt pc b0).pipes = s.pipesAfter := rfl
@[simp] theorem finishAt_burst (s : State) (pc : DWord) (b0 : Nat → DWord) : (s.finishAt pc b0).burst = s.burst := rfl
@[simp] theorem finishAt_cursor (s : State) (pc : DWord) (b0 : Nat → DWord) : (s.finishAt pc b0).cursor = s.cursor := rfl

/-! ### `State.stallFor` -/

@[simp] theorem stallFor_script (s : State) (hold : Hold) (w : Wait) (cause : Nat) : (s.stallFor hold w cause).script = s.script := rfl
@[simp] theorem stallFor_upsets (s : State) (hold : Hold) (w : Wait) (cause : Nat) : (s.stallFor hold w cause).upsets = s.upsets := rfl
@[simp] theorem stallFor_inputs (s : State) (hold : Hold) (w : Wait) (cause : Nat) : (s.stallFor hold w cause).inputs = s.inputs := rfl
@[simp] theorem stallFor_others (s : State) (hold : Hold) (w : Wait) (cause : Nat) : (s.stallFor hold w cause).others = s.others := rfl
@[simp] theorem stallFor_issue (s : State) (hold : Hold) (w : Wait) (cause : Nat) : (s.stallFor hold w cause).issue = s.issue := rfl
@[simp] theorem stallFor_teams (s : State) (hold : Hold) (w : Wait) (cause : Nat) : (s.stallFor hold w cause).teams = s.teams := rfl
@[simp] theorem stallFor_launches (s : State) (hold : Hold) (w : Wait) (cause : Nat) : (s.stallFor hold w cause).launches = s.launches := rfl
@[simp] theorem stallFor_units (s : State) (hold : Hold) (w : Wait) (cause : Nat) : (s.stallFor hold w cause).units = s.units := rfl
@[simp] theorem stallFor_mem (s : State) (hold : Hold) (w : Wait) (cause : Nat) : (s.stallFor hold w cause).mem = s.mem := rfl
@[simp] theorem stallFor_poison (s : State) (hold : Hold) (w : Wait) (cause : Nat) : (s.stallFor hold w cause).poison = s.poison := rfl
@[simp] theorem stallFor_writeBuf (s : State) (hold : Hold) (w : Wait) (cause : Nat) : (s.stallFor hold w cause).writeBuf = s.writeBuf := rfl
@[simp] theorem stallFor_copies (s : State) (hold : Hold) (w : Wait) (cause : Nat) : (s.stallFor hold w cause).copies = s.copies := rfl
@[simp] theorem stallFor_past (s : State) (hold : Hold) (w : Wait) (cause : Nat) : (s.stallFor hold w cause).past = s.past := rfl
@[simp] theorem stallFor_tableLines (s : State) (hold : Hold) (w : Wait) (cause : Nat) : (s.stallFor hold w cause).tableLines = s.tableLines := rfl
@[simp] theorem stallFor_oldTables (s : State) (hold : Hold) (w : Wait) (cause : Nat) : (s.stallFor hold w cause).oldTables = s.oldTables := rfl
@[simp] theorem stallFor_pulls (s : State) (hold : Hold) (w : Wait) (cause : Nat) : (s.stallFor hold w cause).pulls = s.pulls := rfl
@[simp] theorem stallFor_writers (s : State) (hold : Hold) (w : Wait) (cause : Nat) : (s.stallFor hold w cause).writers = s.writers := rfl
@[simp] theorem stallFor_fallen (s : State) (hold : Hold) (w : Wait) (cause : Nat) : (s.stallFor hold w cause).fallen = s.fallen := rfl
@[simp] theorem stallFor_hostBias (s : State) (hold : Hold) (w : Wait) (cause : Nat) : (s.stallFor hold w cause).hostBias = s.hostBias := rfl
@[simp] theorem stallFor_hostLines (s : State) (hold : Hold) (w : Wait) (cause : Nat) : (s.stallFor hold w cause).hostLines = s.hostLines := rfl
@[simp] theorem stallFor_hostCopies (s : State) (hold : Hold) (w : Wait) (cause : Nat) : (s.stallFor hold w cause).hostCopies = s.hostCopies := rfl
@[simp] theorem stallFor_hostMap (s : State) (hold : Hold) (w : Wait) (cause : Nat) : (s.stallFor hold w cause).hostMap = s.hostMap := rfl
@[simp] theorem stallFor_frames (s : State) (hold : Hold) (w : Wait) (cause : Nat) : (s.stallFor hold w cause).frames = s.frames := rfl
@[simp] theorem stallFor_cycles (s : State) (hold : Hold) (w : Wait) (cause : Nat) : (s.stallFor hold w cause).cycles = s.cycles := rfl
@[simp] theorem stallFor_arrayLast (s : State) (hold : Hold) (w : Wait) (cause : Nat) : (s.stallFor hold w cause).arrayLast = s.arrayLast := rfl
@[simp] theorem stallFor_arrayBusy (s : State) (hold : Hold) (w : Wait) (cause : Nat) : (s.stallFor hold w cause).arrayBusy = s.arrayBusy := rfl
@[simp] theorem stallFor_commands (s : State) (hold : Hold) (w : Wait) (cause : Nat) : (s.stallFor hold w cause).commands = s.commands := rfl
@[simp] theorem stallFor_landings (s : State) (hold : Hold) (w : Wait) (cause : Nat) : (s.stallFor hold w cause).landings = s.landings := rfl
@[simp] theorem stallFor_faultRecs (s : State) (hold : Hold) (w : Wait) (cause : Nat) : (s.stallFor hold w cause).faultRecs = s.faultRecs := rfl
@[simp] theorem stallFor_faultSeq (s : State) (hold : Hold) (w : Wait) (cause : Nat) : (s.stallFor hold w cause).faultSeq = s.faultSeq := rfl
@[simp] theorem stallFor_interrupts (s : State) (hold : Hold) (w : Wait) (cause : Nat) : (s.stallFor hold w cause).interrupts = s.interrupts := rfl
@[simp] theorem stallFor_queues (s : State) (hold : Hold) (w : Wait) (cause : Nat) : (s.stallFor hold w cause).queues = s.queues := rfl
@[simp] theorem stallFor_dies (s : State) (hold : Hold) (w : Wait) (cause : Nat) : (s.stallFor hold w cause).dies = s.dies := rfl
@[simp] theorem stallFor_fuses (s : State) (hold : Hold) (w : Wait) (cause : Nat) : (s.stallFor hold w cause).fuses = s.fuses := rfl
@[simp] theorem stallFor_ctxBase (s : State) (hold : Hold) (w : Wait) (cause : Nat) : (s.stallFor hold w cause).ctxBase = s.ctxBase := rfl
@[simp] theorem stallFor_biasCmd (s : State) (hold : Hold) (w : Wait) (cause : Nat) : (s.stallFor hold w cause).biasCmd = s.biasCmd := rfl
@[simp] theorem stallFor_peerBase (s : State) (hold : Hold) (w : Wait) (cause : Nat) : (s.stallFor hold w cause).peerBase = s.peerBase := rfl
@[simp] theorem stallFor_peerCnt (s : State) (hold : Hold) (w : Wait) (cause : Nat) : (s.stallFor hold w cause).peerCnt = s.peerCnt := rfl
@[simp] theorem stallFor_saBase (s : State) (hold : Hold) (w : Wait) (cause : Nat) : (s.stallFor hold w cause).saBase = s.saBase := rfl
@[simp] theorem stallFor_saCnt (s : State) (hold : Hold) (w : Wait) (cause : Nat) : (s.stallFor hold w cause).saCnt = s.saCnt := rfl
@[simp] theorem stallFor_saDrop (s : State) (hold : Hold) (w : Wait) (cause : Nat) : (s.stallFor hold w cause).saDrop = s.saDrop := rfl
@[simp] theorem stallFor_nonce (s : State) (hold : Hold) (w : Wait) (cause : Nat) : (s.stallFor hold w cause).nonce = s.nonce := rfl
@[simp] theorem stallFor_attDest (s : State) (hold : Hold) (w : Wait) (cause : Nat) : (s.stallFor hold w cause).attDest = s.attDest := rfl
@[simp] theorem stallFor_attCmd (s : State) (hold : Hold) (w : Wait) (cause : Nat) : (s.stallFor hold w cause).attCmd = s.attCmd := rfl
@[simp] theorem stallFor_meas (s : State) (hold : Hold) (w : Wait) (cause : Nat) : (s.stallFor hold w cause).meas = s.meas := rfl
@[simp] theorem stallFor_shared (s : State) (hold : Hold) (w : Wait) (cause : Nat) : (s.stallFor hold w cause).shared = s.shared := rfl
@[simp] theorem stallFor_power (s : State) (hold : Hold) (w : Wait) (cause : Nat) : (s.stallFor hold w cause).power = s.power := rfl
@[simp] theorem stallFor_hostAnswer (s : State) (hold : Hold) (w : Wait) (cause : Nat) : (s.stallFor hold w cause).hostAnswer = s.hostAnswer := rfl
@[simp] theorem stallFor_ats (s : State) (hold : Hold) (w : Wait) (cause : Nat) : (s.stallFor hold w cause).ats = s.ats := rfl
@[simp] theorem stallFor_atsMiss (s : State) (hold : Hold) (w : Wait) (cause : Nat) : (s.stallFor hold w cause).atsMiss = s.atsMiss := rfl
@[simp] theorem stallFor_links (s : State) (hold : Hold) (w : Wait) (cause : Nat) : (s.stallFor hold w cause).links = s.links := rfl
@[simp] theorem stallFor_cxl3 (s : State) (hold : Hold) (w : Wait) (cause : Nat) : (s.stallFor hold w cause).cxl3 = s.cxl3 := rfl
@[simp] theorem stallFor_ports (s : State) (hold : Hold) (w : Wait) (cause : Nat) : (s.stallFor hold w cause).ports = s.ports := rfl
@[simp] theorem stallFor_pathsDown (s : State) (hold : Hold) (w : Wait) (cause : Nat) : (s.stallFor hold w cause).pathsDown = s.pathsDown := rfl
@[simp] theorem stallFor_timeouts (s : State) (hold : Hold) (w : Wait) (cause : Nat) : (s.stallFor hold w cause).timeouts = s.timeouts := rfl
@[simp] theorem stallFor_uetMsgs (s : State) (hold : Hold) (w : Wait) (cause : Nat) : (s.stallFor hold w cause).uetMsgs = s.uetMsgs := rfl
@[simp] theorem stallFor_uetFlags (s : State) (hold : Hold) (w : Wait) (cause : Nat) : (s.stallFor hold w cause).uetFlags = s.uetFlags := rfl
@[simp] theorem stallFor_pnWindows (s : State) (hold : Hold) (w : Wait) (cause : Nat) : (s.stallFor hold w cause).pnWindows = s.pnWindows := rfl
@[simp] theorem stallFor_pnNext (s : State) (hold : Hold) (w : Wait) (cause : Nat) : (s.stallFor hold w cause).pnNext = s.pnNext := rfl
@[simp] theorem stallFor_nextMsg (s : State) (hold : Hold) (w : Wait) (cause : Nat) : (s.stallFor hold w cause).nextMsg = s.nextMsg := rfl
@[simp] theorem stallFor_nextSeq (s : State) (hold : Hold) (w : Wait) (cause : Nat) : (s.stallFor hold w cause).nextSeq = s.nextSeq := rfl
@[simp] theorem stallFor_sent (s : State) (hold : Hold) (w : Wait) (cause : Nat) : (s.stallFor hold w cause).sent = s.sent := rfl
@[simp] theorem stallFor_sprayed (s : State) (hold : Hold) (w : Wait) (cause : Nat) : (s.stallFor hold w cause).sprayed = s.sprayed := rfl
@[simp] theorem stallFor_pomasDown (s : State) (hold : Hold) (w : Wait) (cause : Nat) : (s.stallFor hold w cause).pomasDown = s.pomasDown := rfl
@[simp] theorem stallFor_fresh (s : State) (hold : Hold) (w : Wait) (cause : Nat) : (s.stallFor hold w cause).fresh = s.fresh := rfl
@[simp] theorem stallFor_draws (s : State) (hold : Hold) (w : Wait) (cause : Nat) : (s.stallFor hold w cause).draws = s.draws := rfl
@[simp] theorem stallFor_pipes (s : State) (hold : Hold) (w : Wait) (cause : Nat) : (s.stallFor hold w cause).pipes = s.pipes := rfl
@[simp] theorem stallFor_burst (s : State) (hold : Hold) (w : Wait) (cause : Nat) : (s.stallFor hold w cause).burst = s.burst := rfl
@[simp] theorem stallFor_cursor (s : State) (hold : Hold) (w : Wait) (cause : Nat) : (s.stallFor hold w cause).cursor = s.cursor := rfl

/-! ### `State.tookInput` -/

@[simp] theorem tookInput_script (s : State) : (s.tookInput).script = s.script := rfl
@[simp] theorem tookInput_upsets (s : State) : (s.tookInput).upsets = s.upsets := rfl
@[simp] theorem tookInput_inputs (s : State) : (s.tookInput).inputs = s.inputs.drop 1 := rfl
@[simp] theorem tookInput_cur (s : State) : (s.tookInput).cur = s.cur := rfl
@[simp] theorem tookInput_others (s : State) : (s.tookInput).others = s.others := rfl
@[simp] theorem tookInput_issue (s : State) : (s.tookInput).issue = s.issue := rfl
@[simp] theorem tookInput_teams (s : State) : (s.tookInput).teams = s.teams := rfl
@[simp] theorem tookInput_launches (s : State) : (s.tookInput).launches = s.launches := rfl
@[simp] theorem tookInput_units (s : State) : (s.tookInput).units = s.units := rfl
@[simp] theorem tookInput_mem (s : State) : (s.tookInput).mem = s.mem := rfl
@[simp] theorem tookInput_poison (s : State) : (s.tookInput).poison = s.poison := rfl
@[simp] theorem tookInput_writeBuf (s : State) : (s.tookInput).writeBuf = s.writeBuf := rfl
@[simp] theorem tookInput_copies (s : State) : (s.tookInput).copies = s.copies := rfl
@[simp] theorem tookInput_past (s : State) : (s.tookInput).past = s.past := rfl
@[simp] theorem tookInput_tableLines (s : State) : (s.tookInput).tableLines = s.tableLines := rfl
@[simp] theorem tookInput_oldTables (s : State) : (s.tookInput).oldTables = s.oldTables := rfl
@[simp] theorem tookInput_pulls (s : State) : (s.tookInput).pulls = s.pulls := rfl
@[simp] theorem tookInput_writers (s : State) : (s.tookInput).writers = s.writers := rfl
@[simp] theorem tookInput_fallen (s : State) : (s.tookInput).fallen = s.fallen := rfl
@[simp] theorem tookInput_hostBias (s : State) : (s.tookInput).hostBias = s.hostBias := rfl
@[simp] theorem tookInput_hostLines (s : State) : (s.tookInput).hostLines = s.hostLines := rfl
@[simp] theorem tookInput_hostCopies (s : State) : (s.tookInput).hostCopies = s.hostCopies := rfl
@[simp] theorem tookInput_hostMap (s : State) : (s.tookInput).hostMap = s.hostMap := rfl
@[simp] theorem tookInput_frames (s : State) : (s.tookInput).frames = s.frames := rfl
@[simp] theorem tookInput_cycles (s : State) : (s.tookInput).cycles = s.cycles := rfl
@[simp] theorem tookInput_arrayLast (s : State) : (s.tookInput).arrayLast = s.arrayLast := rfl
@[simp] theorem tookInput_arrayBusy (s : State) : (s.tookInput).arrayBusy = s.arrayBusy := rfl
@[simp] theorem tookInput_commands (s : State) : (s.tookInput).commands = s.commands := rfl
@[simp] theorem tookInput_landings (s : State) : (s.tookInput).landings = s.landings := rfl
@[simp] theorem tookInput_faultRecs (s : State) : (s.tookInput).faultRecs = s.faultRecs := rfl
@[simp] theorem tookInput_faultSeq (s : State) : (s.tookInput).faultSeq = s.faultSeq := rfl
@[simp] theorem tookInput_interrupts (s : State) : (s.tookInput).interrupts = s.interrupts := rfl
@[simp] theorem tookInput_queues (s : State) : (s.tookInput).queues = s.queues := rfl
@[simp] theorem tookInput_dies (s : State) : (s.tookInput).dies = s.dies := rfl
@[simp] theorem tookInput_fuses (s : State) : (s.tookInput).fuses = s.fuses := rfl
@[simp] theorem tookInput_ctxBase (s : State) : (s.tookInput).ctxBase = s.ctxBase := rfl
@[simp] theorem tookInput_biasCmd (s : State) : (s.tookInput).biasCmd = s.biasCmd := rfl
@[simp] theorem tookInput_peerBase (s : State) : (s.tookInput).peerBase = s.peerBase := rfl
@[simp] theorem tookInput_peerCnt (s : State) : (s.tookInput).peerCnt = s.peerCnt := rfl
@[simp] theorem tookInput_saBase (s : State) : (s.tookInput).saBase = s.saBase := rfl
@[simp] theorem tookInput_saCnt (s : State) : (s.tookInput).saCnt = s.saCnt := rfl
@[simp] theorem tookInput_saDrop (s : State) : (s.tookInput).saDrop = s.saDrop := rfl
@[simp] theorem tookInput_nonce (s : State) : (s.tookInput).nonce = s.nonce := rfl
@[simp] theorem tookInput_attDest (s : State) : (s.tookInput).attDest = s.attDest := rfl
@[simp] theorem tookInput_attCmd (s : State) : (s.tookInput).attCmd = s.attCmd := rfl
@[simp] theorem tookInput_meas (s : State) : (s.tookInput).meas = s.meas := rfl
@[simp] theorem tookInput_shared (s : State) : (s.tookInput).shared = s.shared := rfl
@[simp] theorem tookInput_power (s : State) : (s.tookInput).power = s.power := rfl
@[simp] theorem tookInput_hostAnswer (s : State) : (s.tookInput).hostAnswer = s.hostAnswer := rfl
@[simp] theorem tookInput_ats (s : State) : (s.tookInput).ats = s.ats := rfl
@[simp] theorem tookInput_atsMiss (s : State) : (s.tookInput).atsMiss = s.atsMiss := rfl
@[simp] theorem tookInput_links (s : State) : (s.tookInput).links = s.links := rfl
@[simp] theorem tookInput_cxl3 (s : State) : (s.tookInput).cxl3 = s.cxl3 := rfl
@[simp] theorem tookInput_ports (s : State) : (s.tookInput).ports = s.ports := rfl
@[simp] theorem tookInput_pathsDown (s : State) : (s.tookInput).pathsDown = s.pathsDown := rfl
@[simp] theorem tookInput_timeouts (s : State) : (s.tookInput).timeouts = s.timeouts := rfl
@[simp] theorem tookInput_uetMsgs (s : State) : (s.tookInput).uetMsgs = s.uetMsgs := rfl
@[simp] theorem tookInput_uetFlags (s : State) : (s.tookInput).uetFlags = s.uetFlags := rfl
@[simp] theorem tookInput_pnWindows (s : State) : (s.tookInput).pnWindows = s.pnWindows := rfl
@[simp] theorem tookInput_pnNext (s : State) : (s.tookInput).pnNext = s.pnNext := rfl
@[simp] theorem tookInput_nextMsg (s : State) : (s.tookInput).nextMsg = s.nextMsg := rfl
@[simp] theorem tookInput_nextSeq (s : State) : (s.tookInput).nextSeq = s.nextSeq := rfl
@[simp] theorem tookInput_sent (s : State) : (s.tookInput).sent = s.sent := rfl
@[simp] theorem tookInput_sprayed (s : State) : (s.tookInput).sprayed = s.sprayed := rfl
@[simp] theorem tookInput_pomasDown (s : State) : (s.tookInput).pomasDown = s.pomasDown := rfl
@[simp] theorem tookInput_fresh (s : State) : (s.tookInput).fresh = s.fresh := rfl
@[simp] theorem tookInput_draws (s : State) : (s.tookInput).draws = s.draws := rfl
@[simp] theorem tookInput_pipes (s : State) : (s.tookInput).pipes = s.pipes := rfl
@[simp] theorem tookInput_burst (s : State) : (s.tookInput).burst = s.burst := rfl
@[simp] theorem tookInput_cursor (s : State) : (s.tookInput).cursor = s.cursor := rfl

/-! ### `Group.shift` -/

@[simp] theorem shift_id (g : Group) (v : Nat → DWord) : (g.shift v).id = g.id := rfl
@[simp] theorem shift_live (g : Group) (v : Nat → DWord) : (g.shift v).live = g.live := rfl
@[simp] theorem shift_team (g : Group) (v : Nat → DWord) : (g.shift v).team = g.team := rfl
@[simp] theorem shift_gix (g : Group) (v : Nat → DWord) : (g.shift v).gix = g.gix := rfl
@[simp] theorem shift_core (g : Group) (v : Nat → DWord) : (g.shift v).core = g.core := rfl
@[simp] theorem shift_pipe (g : Group) (v : Nat → DWord) : (g.shift v).pipe = g.pipe := rfl
@[simp] theorem shift_pc (g : Group) (v : Nat → DWord) : (g.shift v).pc = g.pc := rfl
@[simp] theorem shift_threads (g : Group) (v : Nat → DWord) : (g.shift v).threads = g.threads.mapIdx fun l t => { t with b3 := t.b2, b2 := t.b1, b1 := t.b0, b0 := v l } := rfl
@[simp] theorem shift_sregs (g : Group) (v : Nat → DWord) : (g.shift v).sregs = g.sregs := rfl
@[simp] theorem shift_hregs (g : Group) (v : Nat → DWord) : (g.shift v).hregs = g.hregs := rfl
@[simp] theorem shift_em (g : Group) (v : Nat → DWord) : (g.shift v).em = g.em := rfl
@[simp] theorem shift_nf (g : Group) (v : Nat → DWord) : (g.shift v).nf = g.nf := rfl
@[simp] theorem shift_fpc (g : Group) (v : Nat → DWord) : (g.shift v).fpc = g.fpc := rfl
@[simp] theorem shift_wb (g : Group) (v : Nat → DWord) : (g.shift v).wb = g.wb := rfl
@[simp] theorem shift_rstart (g : Group) (v : Nat → DWord) : (g.shift v).rstart = g.rstart := rfl
@[simp] theorem shift_rwb (g : Group) (v : Nat → DWord) : (g.shift v).rwb = g.rwb := rfl
@[simp] theorem shift_gstat (g : Group) (v : Nat → DWord) : (g.shift v).gstat = g.gstat := rfl
@[simp] theorem shift_tcause (g : Group) (v : Nat → DWord) : (g.shift v).tcause = g.tcause := rfl
@[simp] theorem shift_tpc (g : Group) (v : Nat → DWord) : (g.shift v).tpc = g.tpc := rfl
@[simp] theorem shift_tval (g : Group) (v : Nat → DWord) : (g.shift v).tval = g.tval := rfl
@[simp] theorem shift_tem (g : Group) (v : Nat → DWord) : (g.shift v).tem = g.tem := rfl
@[simp] theorem shift_hva (g : Group) (v : Nat → DWord) : (g.shift v).hva = g.hva := rfl
@[simp] theorem shift_wsa (g : Group) (v : Nat → DWord) : (g.shift v).wsa = g.wsa := rfl
@[simp] theorem shift_wss (g : Group) (v : Nat → DWord) : (g.shift v).wss = g.wss := rfl
@[simp] theorem shift_wsd (g : Group) (v : Nat → DWord) : (g.shift v).wsd = g.wsd := rfl
@[simp] theorem shift_gcyc (g : Group) (v : Nat → DWord) : (g.shift v).gcyc = g.gcyc := rfl
@[simp] theorem shift_latches (g : Group) (v : Nat → DWord) : (g.shift v).latches = if g.latches < 4 then g.latches + 1 else 4 := rfl
@[simp] theorem shift_switch (g : Group) (v : Nat → DWord) : (g.shift v).switch = g.switch := rfl
@[simp] theorem shift_came (g : Group) (v : Nat → DWord) : (g.shift v).came = g.came := rfl
@[simp] theorem shift_stalled (g : Group) (v : Nat → DWord) : (g.shift v).stalled = g.stalled := rfl
@[simp] theorem shift_hold (g : Group) (v : Nat → DWord) : (g.shift v).hold = g.hold := rfl
@[simp] theorem shift_fetched (g : Group) (v : Nat → DWord) : (g.shift v).fetched = g.fetched := rfl
@[simp] theorem shift_hazards (g : Group) (v : Nat → DWord) : (g.shift v).hazards = g.hazards := rfl
@[simp] theorem shift_flags (g : Group) (v : Nat → DWord) : (g.shift v).flags = g.flags := rfl
@[simp] theorem shift_flights (g : Group) (v : Nat → DWord) : (g.shift v).flights = g.flights := rfl
@[simp] theorem shift_nextTag (g : Group) (v : Nat → DWord) : (g.shift v).nextTag = g.nextTag := rfl
@[simp] theorem shift_storeBuf (g : Group) (v : Nat → DWord) : (g.shift v).storeBuf = g.storeBuf := rfl
@[simp] theorem shift_wait (g : Group) (v : Nat → DWord) : (g.shift v).wait = g.wait := rfl
@[simp] theorem shift_barWait (g : Group) (v : Nat → DWord) : (g.shift v).barWait = g.barWait := rfl
@[simp] theorem shift_arrived (g : Group) (v : Nat → DWord) : (g.shift v).arrived = g.arrived := rfl
@[simp] theorem shift_fault (g : Group) (v : Nat → DWord) : (g.shift v).fault = g.fault := rfl
@[simp] theorem shift_watchdog (g : Group) (v : Nat → DWord) : (g.shift v).watchdog = g.watchdog := rfl
@[simp] theorem shift_ppath (g : Group) (v : Nat → DWord) : (g.shift v).ppath = g.ppath := rfl
@[simp] theorem shift_pva (g : Group) (v : Nat → DWord) : (g.shift v).pva = g.pva := rfl
@[simp] theorem shift_ppend (g : Group) (v : Nat → DWord) : (g.shift v).ppend = g.ppend := rfl
@[simp] theorem shift_resliced (g : Group) (v : Nat → DWord) : (g.shift v).resliced = g.resliced := rfl
@[simp] theorem shift_stalls (g : Group) (v : Nat → DWord) : (g.shift v).stalls = g.stalls := rfl
@[simp] theorem shift_lastIssue (g : Group) (v : Nat → DWord) : (g.shift v).lastIssue = g.lastIssue := rfl
@[simp] theorem shift_codeTime (g : Group) (v : Nat → DWord) : (g.shift v).codeTime = g.codeTime := rfl
@[simp] theorem shift_bad (g : Group) (v : Nat → DWord) : (g.shift v).bad = g.bad := rfl

/-! ### `Group.goto` -/

@[simp] theorem goto_id (g : Group) (pc : DWord) : (g.goto pc).id = g.id := rfl
@[simp] theorem goto_live (g : Group) (pc : DWord) : (g.goto pc).live = g.live := rfl
@[simp] theorem goto_team (g : Group) (pc : DWord) : (g.goto pc).team = g.team := rfl
@[simp] theorem goto_gix (g : Group) (pc : DWord) : (g.goto pc).gix = g.gix := rfl
@[simp] theorem goto_core (g : Group) (pc : DWord) : (g.goto pc).core = g.core := rfl
@[simp] theorem goto_pipe (g : Group) (pc : DWord) : (g.goto pc).pipe = g.pipe := rfl
@[simp] theorem goto_pc (g : Group) (pc : DWord) : (g.goto pc).pc = pc := rfl
@[simp] theorem goto_threads (g : Group) (pc : DWord) : (g.goto pc).threads = g.threads := rfl
@[simp] theorem goto_sregs (g : Group) (pc : DWord) : (g.goto pc).sregs = g.sregs := rfl
@[simp] theorem goto_hregs (g : Group) (pc : DWord) : (g.goto pc).hregs = g.hregs := rfl
@[simp] theorem goto_em (g : Group) (pc : DWord) : (g.goto pc).em = g.em := rfl
@[simp] theorem goto_nf (g : Group) (pc : DWord) : (g.goto pc).nf = g.nf := rfl
@[simp] theorem goto_fpc (g : Group) (pc : DWord) : (g.goto pc).fpc = g.fpc := rfl
@[simp] theorem goto_wb (g : Group) (pc : DWord) : (g.goto pc).wb = g.wb := rfl
@[simp] theorem goto_rstart (g : Group) (pc : DWord) : (g.goto pc).rstart = g.rstart := rfl
@[simp] theorem goto_rwb (g : Group) (pc : DWord) : (g.goto pc).rwb = g.rwb := rfl
@[simp] theorem goto_gstat (g : Group) (pc : DWord) : (g.goto pc).gstat = g.gstat := rfl
@[simp] theorem goto_tcause (g : Group) (pc : DWord) : (g.goto pc).tcause = g.tcause := rfl
@[simp] theorem goto_tpc (g : Group) (pc : DWord) : (g.goto pc).tpc = g.tpc := rfl
@[simp] theorem goto_tval (g : Group) (pc : DWord) : (g.goto pc).tval = g.tval := rfl
@[simp] theorem goto_tem (g : Group) (pc : DWord) : (g.goto pc).tem = g.tem := rfl
@[simp] theorem goto_hva (g : Group) (pc : DWord) : (g.goto pc).hva = g.hva := rfl
@[simp] theorem goto_wsa (g : Group) (pc : DWord) : (g.goto pc).wsa = g.wsa := rfl
@[simp] theorem goto_wss (g : Group) (pc : DWord) : (g.goto pc).wss = g.wss := rfl
@[simp] theorem goto_wsd (g : Group) (pc : DWord) : (g.goto pc).wsd = g.wsd := rfl
@[simp] theorem goto_gcyc (g : Group) (pc : DWord) : (g.goto pc).gcyc = g.gcyc := rfl
@[simp] theorem goto_latches (g : Group) (pc : DWord) : (g.goto pc).latches = g.latches := rfl
@[simp] theorem goto_switch (g : Group) (pc : DWord) : (g.goto pc).switch = false := rfl
@[simp] theorem goto_came (g : Group) (pc : DWord) : (g.goto pc).came = false := rfl
@[simp] theorem goto_stalled (g : Group) (pc : DWord) : (g.goto pc).stalled = 0 := rfl
@[simp] theorem goto_hold (g : Group) (pc : DWord) : (g.goto pc).hold = g.hold := rfl
@[simp] theorem goto_fetched (g : Group) (pc : DWord) : (g.goto pc).fetched = g.fetched := rfl
@[simp] theorem goto_hazards (g : Group) (pc : DWord) : (g.goto pc).hazards = g.hazards := rfl
@[simp] theorem goto_flags (g : Group) (pc : DWord) : (g.goto pc).flags = g.flags := rfl
@[simp] theorem goto_flights (g : Group) (pc : DWord) : (g.goto pc).flights = g.flights := rfl
@[simp] theorem goto_nextTag (g : Group) (pc : DWord) : (g.goto pc).nextTag = g.nextTag := rfl
@[simp] theorem goto_storeBuf (g : Group) (pc : DWord) : (g.goto pc).storeBuf = g.storeBuf := rfl
@[simp] theorem goto_wait (g : Group) (pc : DWord) : (g.goto pc).wait = .none := rfl
@[simp] theorem goto_barWait (g : Group) (pc : DWord) : (g.goto pc).barWait = [] := rfl
@[simp] theorem goto_arrived (g : Group) (pc : DWord) : (g.goto pc).arrived = g.arrived := rfl
@[simp] theorem goto_fault (g : Group) (pc : DWord) : (g.goto pc).fault = g.fault := rfl
@[simp] theorem goto_watchdog (g : Group) (pc : DWord) : (g.goto pc).watchdog = g.watchdog := rfl
@[simp] theorem goto_ppath (g : Group) (pc : DWord) : (g.goto pc).ppath = g.ppath := rfl
@[simp] theorem goto_pva (g : Group) (pc : DWord) : (g.goto pc).pva = g.pva := rfl
@[simp] theorem goto_ppend (g : Group) (pc : DWord) : (g.goto pc).ppend = g.ppend := rfl
@[simp] theorem goto_resliced (g : Group) (pc : DWord) : (g.goto pc).resliced = g.resliced := rfl
@[simp] theorem goto_stalls (g : Group) (pc : DWord) : (g.goto pc).stalls = g.stalls := rfl
@[simp] theorem goto_lastIssue (g : Group) (pc : DWord) : (g.goto pc).lastIssue = g.lastIssue := rfl
@[simp] theorem goto_codeTime (g : Group) (pc : DWord) : (g.goto pc).codeTime = g.codeTime := rfl
@[simp] theorem goto_bad (g : Group) (pc : DWord) : (g.goto pc).bad = g.bad := rfl

/-! ### `Group.issued` -/

@[simp] theorem issued_id (g : Group) (beats now : Nat) : (g.issued beats now).id = g.id := rfl
@[simp] theorem issued_live (g : Group) (beats now : Nat) : (g.issued beats now).live = g.live := rfl
@[simp] theorem issued_team (g : Group) (beats now : Nat) : (g.issued beats now).team = g.team := rfl
@[simp] theorem issued_gix (g : Group) (beats now : Nat) : (g.issued beats now).gix = g.gix := rfl
@[simp] theorem issued_core (g : Group) (beats now : Nat) : (g.issued beats now).core = g.core := rfl
@[simp] theorem issued_pipe (g : Group) (beats now : Nat) : (g.issued beats now).pipe = g.pipe := rfl
@[simp] theorem issued_pc (g : Group) (beats now : Nat) : (g.issued beats now).pc = g.pc := rfl
@[simp] theorem issued_threads (g : Group) (beats now : Nat) : (g.issued beats now).threads = g.threads := rfl
@[simp] theorem issued_sregs (g : Group) (beats now : Nat) : (g.issued beats now).sregs = g.sregs := rfl
@[simp] theorem issued_hregs (g : Group) (beats now : Nat) : (g.issued beats now).hregs = g.hregs := rfl
@[simp] theorem issued_em (g : Group) (beats now : Nat) : (g.issued beats now).em = g.em := rfl
@[simp] theorem issued_nf (g : Group) (beats now : Nat) : (g.issued beats now).nf = g.nf := rfl
@[simp] theorem issued_fpc (g : Group) (beats now : Nat) : (g.issued beats now).fpc = g.fpc := rfl
@[simp] theorem issued_wb (g : Group) (beats now : Nat) : (g.issued beats now).wb = g.wb := rfl
@[simp] theorem issued_rstart (g : Group) (beats now : Nat) : (g.issued beats now).rstart = g.rstart := rfl
@[simp] theorem issued_rwb (g : Group) (beats now : Nat) : (g.issued beats now).rwb = g.rwb := rfl
@[simp] theorem issued_gstat (g : Group) (beats now : Nat) : (g.issued beats now).gstat = g.gstat := rfl
@[simp] theorem issued_tcause (g : Group) (beats now : Nat) : (g.issued beats now).tcause = g.tcause := rfl
@[simp] theorem issued_tpc (g : Group) (beats now : Nat) : (g.issued beats now).tpc = g.tpc := rfl
@[simp] theorem issued_tval (g : Group) (beats now : Nat) : (g.issued beats now).tval = g.tval := rfl
@[simp] theorem issued_tem (g : Group) (beats now : Nat) : (g.issued beats now).tem = g.tem := rfl
@[simp] theorem issued_hva (g : Group) (beats now : Nat) : (g.issued beats now).hva = g.hva := rfl
@[simp] theorem issued_wsa (g : Group) (beats now : Nat) : (g.issued beats now).wsa = g.wsa := rfl
@[simp] theorem issued_wss (g : Group) (beats now : Nat) : (g.issued beats now).wss = g.wss := rfl
@[simp] theorem issued_wsd (g : Group) (beats now : Nat) : (g.issued beats now).wsd = g.wsd := rfl
@[simp] theorem issued_gcyc (g : Group) (beats now : Nat) : (g.issued beats now).gcyc = g.gcyc + BitVec.ofNat 64 beats := rfl
@[simp] theorem issued_latches (g : Group) (beats now : Nat) : (g.issued beats now).latches = g.latches := rfl
@[simp] theorem issued_switch (g : Group) (beats now : Nat) : (g.issued beats now).switch = g.switch := rfl
@[simp] theorem issued_came (g : Group) (beats now : Nat) : (g.issued beats now).came = g.came := rfl
@[simp] theorem issued_stalled (g : Group) (beats now : Nat) : (g.issued beats now).stalled = g.stalled := rfl
@[simp] theorem issued_hold (g : Group) (beats now : Nat) : (g.issued beats now).hold = g.hold := rfl
@[simp] theorem issued_fetched (g : Group) (beats now : Nat) : (g.issued beats now).fetched = g.fetched := rfl
@[simp] theorem issued_hazards (g : Group) (beats now : Nat) : (g.issued beats now).hazards = g.hazards := rfl
@[simp] theorem issued_flags (g : Group) (beats now : Nat) : (g.issued beats now).flags = g.flags := rfl
@[simp] theorem issued_flights (g : Group) (beats now : Nat) : (g.issued beats now).flights = g.flights := rfl
@[simp] theorem issued_nextTag (g : Group) (beats now : Nat) : (g.issued beats now).nextTag = g.nextTag := rfl
@[simp] theorem issued_storeBuf (g : Group) (beats now : Nat) : (g.issued beats now).storeBuf = g.storeBuf := rfl
@[simp] theorem issued_wait (g : Group) (beats now : Nat) : (g.issued beats now).wait = g.wait := rfl
@[simp] theorem issued_barWait (g : Group) (beats now : Nat) : (g.issued beats now).barWait = g.barWait := rfl
@[simp] theorem issued_arrived (g : Group) (beats now : Nat) : (g.issued beats now).arrived = g.arrived := rfl
@[simp] theorem issued_fault (g : Group) (beats now : Nat) : (g.issued beats now).fault = g.fault := rfl
@[simp] theorem issued_watchdog (g : Group) (beats now : Nat) : (g.issued beats now).watchdog = g.watchdog := rfl
@[simp] theorem issued_ppath (g : Group) (beats now : Nat) : (g.issued beats now).ppath = g.ppath := rfl
@[simp] theorem issued_pva (g : Group) (beats now : Nat) : (g.issued beats now).pva = g.pva := rfl
@[simp] theorem issued_ppend (g : Group) (beats now : Nat) : (g.issued beats now).ppend = g.ppend := rfl
@[simp] theorem issued_resliced (g : Group) (beats now : Nat) : (g.issued beats now).resliced = g.resliced := rfl
@[simp] theorem issued_stalls (g : Group) (beats now : Nat) : (g.issued beats now).stalls = g.stalls := rfl
@[simp] theorem issued_lastIssue (g : Group) (beats now : Nat) : (g.issued beats now).lastIssue = now := rfl
@[simp] theorem issued_codeTime (g : Group) (beats now : Nat) : (g.issued beats now).codeTime = g.codeTime := rfl
@[simp] theorem issued_bad (g : Group) (beats now : Nat) : (g.issued beats now).bad = g.bad := rfl

/-! ### `Group.enter` -/

@[simp] theorem enter_id (g : Group) (cause : Nat) (tpc tval hva : DWord) : (g.enter cause tpc tval hva).id = g.id := rfl
@[simp] theorem enter_live (g : Group) (cause : Nat) (tpc tval hva : DWord) : (g.enter cause tpc tval hva).live = g.live := rfl
@[simp] theorem enter_team (g : Group) (cause : Nat) (tpc tval hva : DWord) : (g.enter cause tpc tval hva).team = g.team := rfl
@[simp] theorem enter_gix (g : Group) (cause : Nat) (tpc tval hva : DWord) : (g.enter cause tpc tval hva).gix = g.gix := rfl
@[simp] theorem enter_core (g : Group) (cause : Nat) (tpc tval hva : DWord) : (g.enter cause tpc tval hva).core = g.core := rfl
@[simp] theorem enter_pipe (g : Group) (cause : Nat) (tpc tval hva : DWord) : (g.enter cause tpc tval hva).pipe = g.pipe := rfl
@[simp] theorem enter_pc (g : Group) (cause : Nat) (tpc tval hva : DWord) : (g.enter cause tpc tval hva).pc = hva := rfl
@[simp] theorem enter_threads (g : Group) (cause : Nat) (tpc tval hva : DWord) : (g.enter cause tpc tval hva).threads = g.threads := rfl
@[simp] theorem enter_sregs (g : Group) (cause : Nat) (tpc tval hva : DWord) : (g.enter cause tpc tval hva).sregs = g.sregs := rfl
@[simp] theorem enter_hregs (g : Group) (cause : Nat) (tpc tval hva : DWord) : (g.enter cause tpc tval hva).hregs = g.hregs := rfl
@[simp] theorem enter_em (g : Group) (cause : Nat) (tpc tval hva : DWord) : (g.enter cause tpc tval hva).em = g.present := rfl
@[simp] theorem enter_nf (g : Group) (cause : Nat) (tpc tval hva : DWord) : (g.enter cause tpc tval hva).nf = g.nf := rfl
@[simp] theorem enter_fpc (g : Group) (cause : Nat) (tpc tval hva : DWord) : (g.enter cause tpc tval hva).fpc = g.fpc := rfl
@[simp] theorem enter_wb (g : Group) (cause : Nat) (tpc tval hva : DWord) : (g.enter cause tpc tval hva).wb = g.wb := rfl
@[simp] theorem enter_rstart (g : Group) (cause : Nat) (tpc tval hva : DWord) : (g.enter cause tpc tval hva).rstart = g.rstart := rfl
@[simp] theorem enter_rwb (g : Group) (cause : Nat) (tpc tval hva : DWord) : (g.enter cause tpc tval hva).rwb = g.rwb := rfl
@[simp] theorem enter_gstat (g : Group) (cause : Nat) (tpc tval hva : DWord) : (g.enter cause tpc tval hva).gstat = setBit g.gstat 3 true := rfl
@[simp] theorem enter_tcause (g : Group) (cause : Nat) (tpc tval hva : DWord) : (g.enter cause tpc tval hva).tcause = BitVec.ofNat 8 cause := rfl
@[simp] theorem enter_tpc (g : Group) (cause : Nat) (tpc tval hva : DWord) : (g.enter cause tpc tval hva).tpc = tpc := rfl
@[simp] theorem enter_tval (g : Group) (cause : Nat) (tpc tval hva : DWord) : (g.enter cause tpc tval hva).tval = tval := rfl
@[simp] theorem enter_tem (g : Group) (cause : Nat) (tpc tval hva : DWord) : (g.enter cause tpc tval hva).tem = g.em := rfl
@[simp] theorem enter_hva (g : Group) (cause : Nat) (tpc tval hva : DWord) : (g.enter cause tpc tval hva).hva = g.hva := rfl
@[simp] theorem enter_wsa (g : Group) (cause : Nat) (tpc tval hva : DWord) : (g.enter cause tpc tval hva).wsa = g.wsa := rfl
@[simp] theorem enter_wss (g : Group) (cause : Nat) (tpc tval hva : DWord) : (g.enter cause tpc tval hva).wss = g.wss := rfl
@[simp] theorem enter_wsd (g : Group) (cause : Nat) (tpc tval hva : DWord) : (g.enter cause tpc tval hva).wsd = g.wsd := rfl
@[simp] theorem enter_gcyc (g : Group) (cause : Nat) (tpc tval hva : DWord) : (g.enter cause tpc tval hva).gcyc = g.gcyc := rfl
@[simp] theorem enter_latches (g : Group) (cause : Nat) (tpc tval hva : DWord) : (g.enter cause tpc tval hva).latches = 0 := rfl
@[simp] theorem enter_switch (g : Group) (cause : Nat) (tpc tval hva : DWord) : (g.enter cause tpc tval hva).switch = true := rfl
@[simp] theorem enter_came (g : Group) (cause : Nat) (tpc tval hva : DWord) : (g.enter cause tpc tval hva).came = false := rfl
@[simp] theorem enter_stalled (g : Group) (cause : Nat) (tpc tval hva : DWord) : (g.enter cause tpc tval hva).stalled = 0 := rfl
@[simp] theorem enter_hold (g : Group) (cause : Nat) (tpc tval hva : DWord) : (g.enter cause tpc tval hva).hold = g.hold := rfl
@[simp] theorem enter_fetched (g : Group) (cause : Nat) (tpc tval hva : DWord) : (g.enter cause tpc tval hva).fetched = g.fetched := rfl
@[simp] theorem enter_hazards (g : Group) (cause : Nat) (tpc tval hva : DWord) : (g.enter cause tpc tval hva).hazards = g.hazards.filter fun h => h.target != .em && h.target != .special 0x009 && h.target != .special 0x00B := rfl
@[simp] theorem enter_flags (g : Group) (cause : Nat) (tpc tval hva : DWord) : (g.enter cause tpc tval hva).flags = g.flags := rfl
@[simp] theorem enter_flights (g : Group) (cause : Nat) (tpc tval hva : DWord) : (g.enter cause tpc tval hva).flights = g.flights := rfl
@[simp] theorem enter_nextTag (g : Group) (cause : Nat) (tpc tval hva : DWord) : (g.enter cause tpc tval hva).nextTag = g.nextTag := rfl
@[simp] theorem enter_storeBuf (g : Group) (cause : Nat) (tpc tval hva : DWord) : (g.enter cause tpc tval hva).storeBuf = g.storeBuf := rfl
@[simp] theorem enter_wait (g : Group) (cause : Nat) (tpc tval hva : DWord) : (g.enter cause tpc tval hva).wait = .none := rfl
@[simp] theorem enter_barWait (g : Group) (cause : Nat) (tpc tval hva : DWord) : (g.enter cause tpc tval hva).barWait = [] := rfl
@[simp] theorem enter_arrived (g : Group) (cause : Nat) (tpc tval hva : DWord) : (g.enter cause tpc tval hva).arrived = g.arrived := rfl
@[simp] theorem enter_fault (g : Group) (cause : Nat) (tpc tval hva : DWord) : (g.enter cause tpc tval hva).fault = g.fault := rfl
@[simp] theorem enter_watchdog (g : Group) (cause : Nat) (tpc tval hva : DWord) : (g.enter cause tpc tval hva).watchdog = 0 := rfl
@[simp] theorem enter_ppath (g : Group) (cause : Nat) (tpc tval hva : DWord) : (g.enter cause tpc tval hva).ppath = g.ppath := rfl
@[simp] theorem enter_pva (g : Group) (cause : Nat) (tpc tval hva : DWord) : (g.enter cause tpc tval hva).pva = g.pva := rfl
@[simp] theorem enter_ppend (g : Group) (cause : Nat) (tpc tval hva : DWord) : (g.enter cause tpc tval hva).ppend = g.ppend := rfl
@[simp] theorem enter_resliced (g : Group) (cause : Nat) (tpc tval hva : DWord) : (g.enter cause tpc tval hva).resliced = g.resliced := rfl
@[simp] theorem enter_stalls (g : Group) (cause : Nat) (tpc tval hva : DWord) : (g.enter cause tpc tval hva).stalls = g.stalls := rfl
@[simp] theorem enter_lastIssue (g : Group) (cause : Nat) (tpc tval hva : DWord) : (g.enter cause tpc tval hva).lastIssue = g.lastIssue := rfl
@[simp] theorem enter_codeTime (g : Group) (cause : Nat) (tpc tval hva : DWord) : (g.enter cause tpc tval hva).codeTime = g.codeTime := rfl
@[simp] theorem enter_bad (g : Group) (cause : Nat) (tpc tval hva : DWord) : (g.enter cause tpc tval hva).bad = g.bad := rfl

/-! ### `Group.leave` -/

@[simp] theorem leave_id (g : Group) (tem tpc : DWord) : (g.leave tem tpc).id = g.id := rfl
@[simp] theorem leave_live (g : Group) (tem tpc : DWord) : (g.leave tem tpc).live = g.live := rfl
@[simp] theorem leave_team (g : Group) (tem tpc : DWord) : (g.leave tem tpc).team = g.team := rfl
@[simp] theorem leave_gix (g : Group) (tem tpc : DWord) : (g.leave tem tpc).gix = g.gix := rfl
@[simp] theorem leave_core (g : Group) (tem tpc : DWord) : (g.leave tem tpc).core = g.core := rfl
@[simp] theorem leave_pipe (g : Group) (tem tpc : DWord) : (g.leave tem tpc).pipe = g.pipe := rfl
@[simp] theorem leave_pc (g : Group) (tem tpc : DWord) : (g.leave tem tpc).pc = tpc := rfl
@[simp] theorem leave_threads (g : Group) (tem tpc : DWord) : (g.leave tem tpc).threads = g.threads := rfl
@[simp] theorem leave_sregs (g : Group) (tem tpc : DWord) : (g.leave tem tpc).sregs = g.sregs := rfl
@[simp] theorem leave_hregs (g : Group) (tem tpc : DWord) : (g.leave tem tpc).hregs = g.hregs := rfl
@[simp] theorem leave_em (g : Group) (tem tpc : DWord) : (g.leave tem tpc).em = tem &&& g.present := rfl
@[simp] theorem leave_nf (g : Group) (tem tpc : DWord) : (g.leave tem tpc).nf = g.nf := rfl
@[simp] theorem leave_fpc (g : Group) (tem tpc : DWord) : (g.leave tem tpc).fpc = g.fpc := rfl
@[simp] theorem leave_wb (g : Group) (tem tpc : DWord) : (g.leave tem tpc).wb = g.wb := rfl
@[simp] theorem leave_rstart (g : Group) (tem tpc : DWord) : (g.leave tem tpc).rstart = g.rstart := rfl
@[simp] theorem leave_rwb (g : Group) (tem tpc : DWord) : (g.leave tem tpc).rwb = g.rwb := rfl
@[simp] theorem leave_gstat (g : Group) (tem tpc : DWord) : (g.leave tem tpc).gstat = setBit g.gstat 3 false := rfl
@[simp] theorem leave_tcause (g : Group) (tem tpc : DWord) : (g.leave tem tpc).tcause = g.tcause := rfl
@[simp] theorem leave_tpc (g : Group) (tem tpc : DWord) : (g.leave tem tpc).tpc = g.tpc := rfl
@[simp] theorem leave_tval (g : Group) (tem tpc : DWord) : (g.leave tem tpc).tval = g.tval := rfl
@[simp] theorem leave_tem (g : Group) (tem tpc : DWord) : (g.leave tem tpc).tem = g.tem := rfl
@[simp] theorem leave_hva (g : Group) (tem tpc : DWord) : (g.leave tem tpc).hva = g.hva := rfl
@[simp] theorem leave_wsa (g : Group) (tem tpc : DWord) : (g.leave tem tpc).wsa = g.wsa := rfl
@[simp] theorem leave_wss (g : Group) (tem tpc : DWord) : (g.leave tem tpc).wss = g.wss := rfl
@[simp] theorem leave_wsd (g : Group) (tem tpc : DWord) : (g.leave tem tpc).wsd = g.wsd := rfl
@[simp] theorem leave_gcyc (g : Group) (tem tpc : DWord) : (g.leave tem tpc).gcyc = g.gcyc := rfl
@[simp] theorem leave_latches (g : Group) (tem tpc : DWord) : (g.leave tem tpc).latches = g.latches := rfl
@[simp] theorem leave_switch (g : Group) (tem tpc : DWord) : (g.leave tem tpc).switch = g.switch := rfl
@[simp] theorem leave_came (g : Group) (tem tpc : DWord) : (g.leave tem tpc).came = g.came := rfl
@[simp] theorem leave_stalled (g : Group) (tem tpc : DWord) : (g.leave tem tpc).stalled = g.stalled := rfl
@[simp] theorem leave_hold (g : Group) (tem tpc : DWord) : (g.leave tem tpc).hold = g.hold := rfl
@[simp] theorem leave_fetched (g : Group) (tem tpc : DWord) : (g.leave tem tpc).fetched = g.fetched := rfl
@[simp] theorem leave_hazards (g : Group) (tem tpc : DWord) : (g.leave tem tpc).hazards = g.hazards.filter fun h => h.target != .em := rfl
@[simp] theorem leave_flags (g : Group) (tem tpc : DWord) : (g.leave tem tpc).flags = g.flags := rfl
@[simp] theorem leave_flights (g : Group) (tem tpc : DWord) : (g.leave tem tpc).flights = g.flights := rfl
@[simp] theorem leave_nextTag (g : Group) (tem tpc : DWord) : (g.leave tem tpc).nextTag = g.nextTag := rfl
@[simp] theorem leave_storeBuf (g : Group) (tem tpc : DWord) : (g.leave tem tpc).storeBuf = g.storeBuf := rfl
@[simp] theorem leave_wait (g : Group) (tem tpc : DWord) : (g.leave tem tpc).wait = g.wait := rfl
@[simp] theorem leave_barWait (g : Group) (tem tpc : DWord) : (g.leave tem tpc).barWait = g.barWait := rfl
@[simp] theorem leave_arrived (g : Group) (tem tpc : DWord) : (g.leave tem tpc).arrived = g.arrived := rfl
@[simp] theorem leave_fault (g : Group) (tem tpc : DWord) : (g.leave tem tpc).fault = g.fault := rfl
@[simp] theorem leave_watchdog (g : Group) (tem tpc : DWord) : (g.leave tem tpc).watchdog = g.watchdog := rfl
@[simp] theorem leave_ppath (g : Group) (tem tpc : DWord) : (g.leave tem tpc).ppath = g.ppath := rfl
@[simp] theorem leave_pva (g : Group) (tem tpc : DWord) : (g.leave tem tpc).pva = g.pva := rfl
@[simp] theorem leave_ppend (g : Group) (tem tpc : DWord) : (g.leave tem tpc).ppend = g.ppend := rfl
@[simp] theorem leave_resliced (g : Group) (tem tpc : DWord) : (g.leave tem tpc).resliced = g.resliced := rfl
@[simp] theorem leave_stalls (g : Group) (tem tpc : DWord) : (g.leave tem tpc).stalls = g.stalls := rfl
@[simp] theorem leave_lastIssue (g : Group) (tem tpc : DWord) : (g.leave tem tpc).lastIssue = g.lastIssue := rfl
@[simp] theorem leave_codeTime (g : Group) (tem tpc : DWord) : (g.leave tem tpc).codeTime = g.codeTime := rfl
@[simp] theorem leave_bad (g : Group) (tem tpc : DWord) : (g.leave tem tpc).bad = g.bad := rfl

end Sys2Proof.Machine
end

