-- ==== Sys2Proof/Laws/Ops.lean ====
section
/-! SUPPORT. One lemma for each shared operation, which says everything that the operation can do: the end of an
instruction, a region's commit and end, stalls, traps and the returns that meanings are written over. -/

namespace Sys2Proof.Machine

/-! ### Lines that drain -/

/-- Draining moves some first part of the list, committed lines only, to the end of the write buffer. -/
theorem drainLines_spec (g : Group) (ls : List StoreLine) (s : State) :
    ∃ k, s.drainLines g ls =
        ({ s with writeBuf := s.writeBuf ++ (ls.take k).map fun l => l.toEntry g }, ls.drop k) ∧
      ∀ l ∈ ls.take k, l.committed = true := by
  induction ls generalizing s with
  | nil => exact ⟨0, by simp [State.drainLines], by simp⟩
  | cons l rest ih =>
    by_cases h : l.committed && !s.bankFull g.core (bankOf l.line)
    · obtain ⟨k, hk, hc⟩ := ih { s with writeBuf := s.writeBuf ++ [l.toEntry g] }
      refine ⟨k + 1, ?_, ?_⟩
      · rw [State.drainLines, if_pos h, hk]
        simp [List.append_assoc]
      · simp only [Bool.and_eq_true] at h
        simpa [h.1] using hc
    · exact ⟨0, by rw [State.drainLines, if_neg h]; simp, by simp⟩

theorem drainCommitted_spec (s : State) :
    ∃ k, s.drainCommitted =
        { s with writeBuf := s.writeBuf ++ (s.cur.storeBuf.take k).map fun l => l.toEntry s.cur,
                 cur := { s.cur with storeBuf := s.cur.storeBuf.drop k } } ∧
      ∀ l ∈ s.cur.storeBuf.take k, l.committed = true := by
  obtain ⟨k, hk, hc⟩ := drainLines_spec s.cur s.cur.storeBuf s
  exact ⟨k, by simp only [State.drainCommitted, hk]; rfl, hc⟩

/-- A commit changes the store buffer of the group in focus and the write buffer, and nothing else (R367). -/
theorem commit_spec (s : State) :
    ∃ buf entries, s.commit =
      { s with writeBuf := s.writeBuf ++ entries, cur := { s.cur with storeBuf := buf } } := by
  obtain ⟨k, hk, -⟩ := drainCommitted_spec
    (s.modCur fun g => { g with storeBuf := g.storeBuf.map fun l => { l with committed := true } })
  exact ⟨_, _, hk⟩

/-- The end of a region also records the pc and the window base as the region's (R156, R367). -/
theorem endRegion_spec (s : State) :
    ∃ buf entries, s.endRegion =
      { s with writeBuf := s.writeBuf ++ entries,
               cur := { s.cur with storeBuf := buf, rstart := s.cur.pc, rwb := s.cur.wb } } := by
  obtain ⟨buf, entries, h⟩ := commit_spec s
  exact ⟨buf, entries, by rw [State.endRegion, h]; rfl⟩

/-! ### The end of an instruction -/

/-- An instruction that ends moves the pc, shifts the latches, counts its cycles, and notes the barrier phases in which the next one's
waits begin (R59, R62, R63). -/
theorem finishAt_spec (s : State) (pc : DWord) (b0 : Nat → DWord) :
    s.finishAt pc b0 =
      { s with
        pipes := s.pipesAfter,
        cur := { ((s.cur.shift b0).goto pc).issued s.issue.beats s.draws with barWait := s.barsNow (BitVec.allOnes 6) } } := rfl

/-! ### Stalls -/

/-- A stall leaves everything but the counter of its cause, the wait, what ends it, and the latches of the group in focus. -/
theorem stallFor_spec (s : State) (hold : Hold) (w : Wait) (cause : Nat) :
    ∃ counts, s.stallFor hold w cause =
      { s with cur := { s.cur with stalls := counts, wait := w, switch := true, latches := 0, stalled := cause, hold := hold } } :=
  ⟨_, rfl⟩

/-! ### Regions and counters that hold an instruction back -/

theorem regionEnder_cases (s : State) (f : State → State) :
    (s.cur.walking = true ∧ s.regionEnder f = s.stall stallRegion) ∨
    (s.cur.walking = false ∧ s.regionEnder f = f s.endRegion) := by
  cases h : s.cur.walking
  · exact .inr ⟨rfl, by simp [State.regionEnder, h]⟩
  · exact .inl ⟨rfl, by simp [State.regionEnder, h]⟩

theorem raising_cases (s : State) (path : Nat) (f : State → State) :
    (63 ≤ s.cur.count path ∧ s.raising path f = s.stallOn (.path path 62) stallFull) ∨
    (s.cur.count path < 63 ∧ s.raising path f = f s) := by
  by_cases h : 63 ≤ s.cur.count path
  · exact .inl ⟨h, if_pos h⟩
  · exact .inr ⟨by omega, if_neg h⟩

theorem afterWait_cases (s : State) (paths : BitVec 6) (f : State → State) :
    (s.cur.ppath &&& paths ≠ 0 ∧ s.afterWait paths f = s.poisonTrap Group.clearPoison s.cur.pc s.cur.pva) ∨
    (s.cur.ppath &&& paths = 0 ∧ s.afterWait paths f = f s) := by
  by_cases h : s.cur.ppath &&& paths = 0
  · exact .inr ⟨h, if_neg (by simpa using h)⟩
  · exact .inl ⟨h, if_pos h⟩

/-- A thread without an error has none in the entry that a pop takes. -/
theorem intact_queue {t : Thread} (h : t.intact = true) (p k : Nat) (v : Word) : (t.queue p)[k]? ≠ some (.flawed v) := by
  intro hk
  have hm := List.mem_of_getElem? hk
  simp only [Thread.intact, Bool.and_eq_true, List.all_eq_true] at h
  have hq := h.2 (t.queue p)
  have : t.queue p ∈ [t.xp, t.xm, t.yp, t.ym, t.zp, t.zm] ∨ t.queue p = [] := by
    unfold Thread.queue; split <;> simp
  rcases this with h1 | h1
  · have := hq h1 _ hm; simp at this
  · simp [h1] at hm

/-- Every lane of a group without an error is without one. -/
theorem intact_lane {g : Group} (h : g.intact = true) (l : Nat) : (g.lane l).intact = true := by
  simp only [Group.intact, Bool.and_eq_true, List.all_eq_true] at h
  unfold Group.lane
  by_cases hl : l < g.threads.length
  · rw [List.getD_eq_getElem _ _ hl]; exact h.2 _ (List.getElem_mem hl)
  · rw [List.getD_eq_default _ _ (Nat.le_of_not_lt hl)]; rfl

/-- A group without an error has none in what its operands name. -/
theorem badCode_intact {g : Group} (h : g.intact = true) (pairs : Bool) (l k code : Nat) : g.badCode pairs l k code = false := by
  have hl := intact_lane h l
  have hs : (g.lane l).badStack = [] := by simp [Thread.intact] at hl; exact hl.1.1
  have hb : g.bad = [] := by simp [Group.intact] at h; exact h.1
  have he : g.badEntry l (code - 100) k = false := by
    unfold Group.badEntry
    split
    · next v hv => exact absurd hv (intact_queue hl _ _ _)
    · rfl
  simp [Group.badCode, Group.badV, Group.badS, hs, hb, he]

/-- A group without an error has sound sources in every lane (R424). -/
theorem badSources_intact {g : Group} (h : g.intact = true) (l : Nat) (before : List Nat) (srcs : List Src) :
    g.badSources l before srcs = false := by
  induction srcs generalizing before with
  | nil => rfl
  | cons x rest ih =>
    have hp : (g.lane l).badPreds = [] := by
      have hl := intact_lane h l
      simp [Thread.intact] at hl; exact hl.1.2
    have : g.badSource l before x = false := by
      unfold Group.badSource
      cases x.cls <;> simp [badCode_intact h, hp]
    simp [Group.badSources, this, ih]

/-- Sources that an error of storage has spoilt trap, the others are read (R424). -/
theorem sound_cases (s : State) (lanes : List Nat) (srcs : List Src) (f : State → State) :
    (s.cur.intact = false ∧ s.sound lanes srcs f = s.poisonTrap id s.cur.pc 1) ∨ s.sound lanes srcs f = f s := by
  unfold State.sound
  cases h : s.cur.intact
  · split
    · exact .inl ⟨rfl, rfl⟩
    · exact .inr rfl
  · exact .inr (by simp)

/-- Where no register of the group holds an error that its code cannot correct, every source is read. -/
theorem sound_intact (s : State) (h : s.cur.intact = true) (lanes : List Nat) (srcs : List Src) (f : State → State) :
    s.sound lanes srcs f = f s := by simp [State.sound, h]

/-- A synchronisation transaction stalls where the core holds 32 outstanding, and the die counts it (R416). -/
theorem syncing_cases (s : State) (sync : Bool) (f : State → State) :
    (sync = true ∧ 32 ≤ s.syncOpen s.cur.core ∧ ∃ counts stalls, s.syncing sync f =
      { s with shared := counts, cur := { s.cur with
          stalls := stalls, wait := .retry, switch := true, latches := 0, stalled := stallSync, hold := .cause } }) ∨
    ((sync = false ∨ s.syncOpen s.cur.core < 32) ∧ s.syncing sync f = f s) := by
  unfold State.syncing
  cases sync
  · exact .inr ⟨.inl rfl, by simp⟩
  · by_cases h : 32 ≤ s.syncOpen s.cur.core
    · exact .inl ⟨rfl, h, _, _, by simp [h]; rfl⟩
    · exact .inr ⟨.inr (by omega), by simp [h]⟩

/-- An instruction of kind U traps on its half-word, traps on a source code, or runs (R58, R103). -/
theorem uniformOp_cases (s : State) (srcs : List Src) (run : State → State) :
    (s.u = false ∧ s.uniformOp srcs run = s.illegal) ∨
    (s.u = true ∧ srcs.all (Src.ok true) = false ∧ s.uniformOp srcs run = s.badOperand) ∨
    (s.u = true ∧ srcs.all (Src.ok true) = true ∧ s.uniformOp srcs run = run s) := by
  unfold State.uniformOp
  cases h : s.u
  · exact .inl ⟨rfl, by simp⟩
  · cases h2 : srcs.all (Src.ok true)
    · exact .inr (.inl ⟨rfl, rfl, by simp⟩)
    · exact .inr (.inr ⟨rfl, rfl, by simp⟩)

/-! ### Traps -/

/-- The group as a handler finds it (R159): the four trap registers, em, the INTRAP bit and the pc. -/
theorem enter_spec (g : Group) (cause : Nat) (tpc tval hva : DWord) :
    let h := g.enter cause tpc tval hva
    h.tcause = BitVec.ofNat 8 cause ∧ h.tpc = tpc ∧ h.tval = tval ∧ h.tem = g.em ∧ h.em = g.present ∧ h.pc = hva ∧
      h.sregs = g.sregs ∧ h.hregs = g.hregs ∧ h.threads = g.threads ∧ h.nf = g.nf ∧ h.fpc = g.fpc ∧ h.wb = g.wb :=
  ⟨rfl, rfl, rfl, rfl, rfl, rfl, rfl, rfl, rfl, rfl, rfl, rfl⟩

/-- A trap ends the launch inside a handler, waits for the region's translations, or enters the handler (R159, R160). -/
theorem trapAfter_cases (s : State) (pre : Group → Group) (cause : Nat) (tpc tval : DWord) :
    (s.cur.intrap = true ∧ s.trapAfter pre cause tpc tval = (s.modCur pre).endOwnLaunch cause tval) ∨
    (s.cur.intrap = false ∧ s.cur.walking = true ∧ s.trapAfter pre cause tpc tval = s.stall stallRegion) ∨
    (s.cur.intrap = false ∧ s.cur.walking = false ∧ s.trapAfter pre cause tpc tval =
      (((s.modCur pre).commit).modCur fun g => g.enter cause tpc tval g.hva).startRegion) := by
  unfold State.trapAfter
  cases h : s.cur.intrap
  · cases h2 : s.cur.walking
    · exact .inr (.inr ⟨rfl, rfl, by simp⟩)
    · exact .inr (.inl ⟨rfl, rfl, by simp⟩)
  · exact .inl ⟨rfl, by simp⟩

/-- The handler entry of a trap, field by field: the write buffer, and the group in focus with its trap registers, its
store buffer, and the region that begins at the handler. -/
theorem trap_enters (s : State) (cause : Nat) (tval : DWord) (hi : s.cur.intrap = false) (hw : s.cur.walking = false) :
    ∃ buf entries, s.trap cause tval =
      { s with
        writeBuf := s.writeBuf ++ entries,
        cur := { ({ s.cur with storeBuf := buf } : Group).enter cause s.cur.pc tval s.cur.hva with
                 rstart := s.cur.hva, rwb := s.cur.wb } } := by
  obtain ⟨buf, entries, h⟩ := commit_spec s
  refine ⟨buf, entries, ?_⟩
  have : s.modCur id = s := rfl
  simp only [State.trap, State.trapAfter, hi, hw, this, h, Bool.false_eq_true, if_false]
  rfl

/-- Where a poison trap goes (R380): as a trap, and by the launch's policy. -/
theorem poisonTrap_cases (s : State) (pre : Group → Group) (tpc tval : DWord) :
    (s.cur.intrap = true ∧ s.poisonTrap pre tpc tval = (s.modCur pre).endOwnLaunch causePoison tval) ∨
    (s.cur.intrap = false ∧ s.cur.walking = true ∧ s.poisonTrap pre tpc tval = s.stall stallRegion) ∨
    (s.cur.intrap = false ∧ s.cur.walking = false ∧ s.launch.record.poison = true ∧ s.poisonTrap pre tpc tval =
      (((s.modCur pre).commit).modCur fun g => g.enter causePoison tpc tval g.hva).startRegion) ∨
    (s.cur.intrap = false ∧ s.cur.walking = false ∧ s.launch.record.poison = false ∧
      s.poisonTrap pre tpc tval = (s.modCur pre).endOwnLaunch causePoison tval) := by
  unfold State.poisonTrap
  cases h : s.cur.intrap
  · cases h2 : s.cur.walking
    · cases h3 : s.launch.record.poison
      · exact .inr (.inr (.inr ⟨rfl, rfl, rfl, by simp⟩))
      · exact .inr (.inr (.inl ⟨rfl, rfl, rfl, by simp⟩))
    · exact .inr (.inl ⟨rfl, rfl, by simp⟩)
  · exact .inl ⟨rfl, by simp⟩

/-! ### Cells that compute a value -/

/-- A cell traps on its word or its half-word, or reads its sources past its checks (R103). -/
theorem Cell.exec_cases (c : Cell) (s : State) :
    (∃ cause, c.cause s = some cause ∧ c.exec s = s.trap cause (zext64 s.issue.word)) ∨
    (c.cause s = none ∧ c.exec s = s.sound (c.readers s) c.srcs c.proceed) := by
  unfold Cell.exec
  cases h : c.cause s with
  | none => exact .inr ⟨rfl, rfl⟩
  | some cause => exact .inl ⟨cause, rfl, rfl⟩

/-- The only causes that the checks of a cell give. -/
theorem Cell.cause_cases (c : Cell) (s : State) :
    c.cause s = some causeIllegal ∨ c.cause s = some causeOperand ∨ c.cause s = none := by
  unfold Cell.cause
  split
  · exact .inl rfl
  · split
    · exact .inr (.inl rfl)
    · exact .inr (.inr rfl)

/-- A cell that touches no port and is not on the lng path computes at once. -/
theorem Cell.proceed_plain (c : Cell) (s : State) (hl : c.long = false) (hp : c.pops.isEmpty = true)
    (hq : c.push.isNone = true) : c.proceed s = c.runFixed s := by
  simp [Cell.proceed, hl, hp, hq]

/-- A cell on the lng path that touches no port stalls while the counter is full, else it is in flight (R65, R108). -/
theorem Cell.proceed_long (c : Cell) (s : State) (hl : c.long = true) (hp : c.pops.isEmpty = true)
    (hq : c.push.isNone = true) :
    c.proceed s = if 63 ≤ s.cur.count 5 then s.stallOn (.path 5 62) stallFull else c.runLong s := by
  simp [Cell.proceed, hl, hp, hq]

/-! ### Steps -/

/-- An error of storage comes before anything else. -/
theorem step_upset (s : State) (u : Upset) (rest : List Upset) (h : s.upsets = u :: rest) :
    step s = .next (State.upset { s with upsets := rest } u) := by
  simp [step, h]

/-- With a script, the step is its first move, and the script loses it. -/
theorem step_script (s : State) (i : Instr) (rest : List Instr) (hu : s.upsets = []) (h : s.script = i :: rest)
    (hd : i.isDeviceOp = true) : step s = exec i { s with script := rest } := by
  simp [step, hu, h, hd]

/-- Without a script, the group in focus issues where it can. -/
theorem step_issue (s : State) (hu : s.upsets = []) (h : s.script = []) (hc : s.canIssue s.cur = true)
    (hw : s.cur.wait = .none) (hb : s.burst < burstLimit) : step s = issue { s with burst := s.burst + 1 } := by
  simp [step, hu, h, hc, hw, hb]

end Sys2Proof.Machine
end

