-- ==== Sys2Proof/Laws/PerInstr.lean ====
section
/-! SUPPORT. Decoding gives back every instruction that is encoded, one lemma per constructor. -/

namespace Sys2Proof.Laws
open Sys2Proof

theorem bits_append_low {n m : Nat} (x : BitVec n) (y : BitVec m) (lo k : Nat) (h : lo + k ≤ m) :
    (x ++ y).extractLsb' lo k = y.extractLsb' lo k := by
  apply BitVec.eq_of_getLsbD_eq
  intro i hi
  simp only [BitVec.getLsbD_extractLsb', BitVec.getLsbD_append, hi, decide_true, Bool.true_and]
  rw [if_pos (by omega)]

theorem bits_append_high {n m : Nat} (x : BitVec n) (y : BitVec m) (lo k : Nat) (h : m ≤ lo) :
    (x ++ y).extractLsb' lo k = x.extractLsb' (lo - m) k := by
  apply BitVec.eq_of_getLsbD_eq
  intro i hi
  simp only [BitVec.getLsbD_extractLsb', BitVec.getLsbD_append, hi, decide_true, Bool.true_and]
  rw [if_neg (by omega)]
  congr 1; omega

theorem bits_all {n : Nat} (x : BitVec n) : x.extractLsb' 0 n = x := by
  apply BitVec.eq_of_getLsbD_eq
  intro i hi
  simp [hi]

/-- The fields of a word of format A. -/
theorem packA_fields (major fn : Nat) (d a b : Code) :
    bits (packA major fn d a b) 27 5 = BitVec.ofNat 5 major ∧ bits (packA major fn d a b) 21 6 = BitVec.ofNat 6 fn
      ∧ bits (packA major fn d a b) 14 7 = d ∧ bits (packA major fn d a b) 7 7 = a ∧ bits (packA major fn d a b) 0 7 = b := by
  unfold bits packA
  refine ⟨?_, ?_, ?_, ?_, ?_⟩ <;>
    simp (disch := omega) only [bits_append_low, bits_append_high] <;> exact bits_all _

/-- The two parts of the cell number of a floating-point word. -/
theorem packA_op (major fn : Nat) (d a b : Code) :
    bits (packA major fn d a b) 23 4 = (BitVec.ofNat 6 fn).extractLsb' 2 4
      ∧ bits (packA major fn d a b) 21 2 = (BitVec.ofNat 6 fn).extractLsb' 0 2
      ∧ bits (packA major fn d a b) 24 3 = (BitVec.ofNat 6 fn).extractLsb' 3 3
      ∧ bits (packA major fn d a b) 21 3 = (BitVec.ofNat 6 fn).extractLsb' 0 3 := by
  unfold bits packA
  refine ⟨?_, ?_, ?_, ?_⟩ <;> simp (disch := omega) only [bits_append_low, bits_append_high]

/-- The fields of a word of format M. -/
theorem packM_fields (major kind : Nat) (ord : BitVec 2) (scope : BitVec 3) (d a : Code) (off : BitVec 5) :
    let w := packM major kind ord scope d a off
    bits w 27 5 = BitVec.ofNat 5 major ∧ bits w 24 3 = BitVec.ofNat 3 kind ∧ bits w 22 2 = ord ∧ bits w 19 3 = scope
      ∧ bits w 12 7 = d ∧ bits w 5 7 = a ∧ bits w 0 5 = off := by
  unfold bits packM
  refine ⟨?_, ?_, ?_, ?_, ?_, ?_, ?_⟩ <;>
    simp (disch := omega) only [bits_append_low, bits_append_high] <;> exact bits_all _

/-- The fields of a word of format B. -/
theorem packB_fields (cond : Nat) (off : BitVec 23) :
    bits (packB cond off) 27 5 = 2 ∧ bits (packB cond off) 23 4 = BitVec.ofNat 4 cond ∧ bits (packB cond off) 0 23 = off := by
  unfold bits packB
  refine ⟨?_, ?_, ?_⟩ <;> simp (disch := omega) only [bits_append_low, bits_append_high] <;> exact bits_all _

/-- The fields of a word of format S. -/
theorem packS_fields (fn : Nat) (imm : BitVec 21) :
    bits (packS fn imm) 27 5 = 0 ∧ bits (packS fn imm) 21 6 = BitVec.ofNat 6 fn ∧ bits (packS fn imm) 0 21 = imm
      ∧ bits (packS fn imm) 14 7 = imm.extractLsb' 14 7 := by
  unfold bits packS
  refine ⟨?_, ?_, ?_, ?_⟩ <;> simp (disch := omega) only [bits_append_low, bits_append_high] <;> exact bits_all _

/-- A register and an index in the immediate of format S. -/
theorem regIndex_fields (d : Code) (i : BitVec 14) :
    (d ++ i : BitVec (7 + 14)).extractLsb' 14 7 = d ∧ (d ++ i : BitVec (7 + 14)).extractLsb' 0 14 = i := by
  refine ⟨?_, ?_⟩ <;> simp (disch := omega) only [bits_append_low, bits_append_high] <;> exact bits_all _

/-! ### Words by major -/

theorem ctlWord (fn : Nat) (d a b : Code) : decodeWord (packA 3 fn d a b) = decodeCtl (fn % 64) d a b := by
  simp only [decodeWord, packA_fields 3 fn d a b]
  rfl

theorem intWord (fn : Nat) (d a b : Code) : decodeWord (packA 4 fn d a b) = decodeInt (fn % 64) d a b := by
  simp only [decodeWord, packA_fields 4 fn d a b]
  rfl

theorem prdWord (fn : Nat) (d a b : Code) : decodeWord (packA 11 fn d a b) = decodePrd (fn % 64) d a b := by
  simp only [decodeWord, packA_fields 11 fn d a b]
  rfl

theorem mskWord (fn : Nat) (d a b : Code) : decodeWord (packA 12 fn d a b) = decodeMsk (fn % 64) d a b := by
  simp only [decodeWord, packA_fields 12 fn d a b]
  rfl

theorem laneWord (fn : Nat) (d a b : Code) : decodeWord (packA 13 fn d a b) = decodeLane (fn % 64) d a b := by
  simp only [decodeWord, packA_fields 13 fn d a b]
  rfl

theorem grpWord (fn : Nat) (d a b : Code) : decodeWord (packA 14 fn d a b) = decodeGrp (fn % 64) d a b := by
  simp only [decodeWord, packA_fields 14 fn d a b]
  rfl

theorem rillWord (fn : Nat) (d a b : Code) : decodeWord (packA 21 fn d a b) = decodeRill (fn % 64) d a b := by
  simp only [decodeWord, packA_fields 21 fn d a b]
  rfl

theorem mtxWord (fn : Nat) (d a b : Code) : decodeWord (packA 22 fn d a b) = decodeMtx (fn % 64) d a b := by
  simp only [decodeWord, packA_fields 22 fn d a b]
  rfl

theorem engWord (fn : Nat) (d a b : Code) : decodeWord (packA 23 fn d a b) = decodeEng (fn % 64) d a b := by
  simp only [decodeWord, packA_fields 23 fn d a b]
  rfl

theorem fpWord (op : Fin 16) (fmt : BitVec 2) (d a b : Code) :
    decodeWord (packA 7 (4 * op + fmt.toNat) d a b) = decodeFp op fmt d a b := by
  have h : ∀ (op : Fin 16) (fmt : BitVec 2), (BitVec.ofNat 6 (4 * op + fmt.toNat)).extractLsb' 2 4 = BitVec.ofNat 4 op
      ∧ (BitVec.ofNat 6 (4 * op + fmt.toNat)).extractLsb' 0 2 = fmt := by decide +kernel
  simp only [decodeWord, packA_fields, packA_op, h]
  simp

theorem fmaWord (op : Fin 16) (fmt : BitVec 2) (d a b : Code) :
    decodeWord (packA 8 (4 * op + fmt.toNat) d a b) = decodeFma op fmt d a b := by
  have h : ∀ (op : Fin 16) (fmt : BitVec 2), (BitVec.ofNat 6 (4 * op + fmt.toNat)).extractLsb' 2 4 = BitVec.ofNat 4 op
      ∧ (BitVec.ofNat 6 (4 * op + fmt.toNat)).extractLsb' 0 2 = fmt := by decide +kernel
  simp only [decodeWord, packA_fields, packA_op, h]
  simp

theorem cellSplit (x y : BitVec 3) : (BitVec.ofNat 6 (8 * x.toNat + y.toNat)).extractLsb' 3 3 = x
    ∧ (BitVec.ofNat 6 (8 * x.toNat + y.toNat)).extractLsb' 0 3 = y := by
  revert x y; decide +kernel

theorem cvtWord (dst src : BitVec 3) (d a b : Code) :
    decodeWord (packA 9 (8 * dst.toNat + src.toNat) d a b) = decodeCvt dst src d a b := by
  simp only [decodeWord, packA_fields, packA_op, cellSplit]
  rfl

theorem cmpWord (cond type : BitVec 3) (d a b : Code) :
    decodeWord (packA 10 (8 * cond.toNat + type.toNat) d a b) = decodeCmp cond type d a b := by
  simp only [decodeWord, packA_fields, packA_op, cellSplit]
  rfl

theorem brWord (cond : Nat) (off : BitVec 23) : decodeWord (packB cond off) = decodeBr (BitVec.ofNat 4 cond) off := by
  simp only [decodeWord, packB_fields]
  rfl

theorem sysWord (fn : Nat) (imm : BitVec 21) :
    decodeWord (packS fn imm) = decodeSys (fn % 64) (imm.extractLsb' 14 7) imm := by
  simp only [decodeWord, packS_fields]
  rfl

theorem mem15Word (kind : Nat) (ord : BitVec 2) (scope : BitVec 3) (d a : Code) (off : BitVec 5) :
    decodeWord (packM 15 kind ord scope d a off) = decodeMem 15 (kind % 8) ord scope d a off := by
  simp only [decodeWord, packM_fields 15 kind ord scope d a off]
  rfl

theorem mem16Word (kind : Nat) (ord : BitVec 2) (scope : BitVec 3) (d a : Code) (off : BitVec 5) :
    decodeWord (packM 16 kind ord scope d a off) = decodeMem 16 (kind % 8) ord scope d a off := by
  simp only [decodeWord, packM_fields 16 kind ord scope d a off]
  rfl

theorem mem17Word (kind : Nat) (ord : BitVec 2) (scope : BitVec 3) (d a : Code) (off : BitVec 5) :
    decodeWord (packM 17 kind ord scope d a off) = decodeMem 17 (kind % 8) ord scope d a off := by
  simp only [decodeWord, packM_fields 17 kind ord scope d a off]
  rfl

theorem mem18Word (kind : Nat) (ord : BitVec 2) (scope : BitVec 3) (d a : Code) (off : BitVec 5) :
    decodeWord (packM 18 kind ord scope d a off) = decodeMem 18 (kind % 8) ord scope d a off := by
  simp only [decodeWord, packM_fields 18 kind ord scope d a off]
  rfl

theorem mem19Word (kind : Nat) (ord : BitVec 2) (scope : BitVec 3) (d a : Code) (off : BitVec 5) :
    decodeWord (packM 19 kind ord scope d a off) = decodeMem 19 (kind % 8) ord scope d a off := by
  simp only [decodeWord, packM_fields 19 kind ord scope d a off]
  rfl

theorem mem20Word (kind : Nat) (ord : BitVec 2) (scope : BitVec 3) (d a : Code) (off : BitVec 5) :
    decodeWord (packM 20 kind ord scope d a off) = decodeMem 20 (kind % 8) ord scope d a off := by
  simp only [decodeWord, packM_fields 20 kind ord scope d a off]
  rfl

theorem addiWord (d a : Code) (imm : BitVec 13) :
    decodeWord (5#5 ++ d ++ a ++ imm : BitVec (5 + 7 + 7 + 13)) = .ok (.addi d a imm) := by
  have h : bits (5#5 ++ d ++ a ++ imm : BitVec (5 + 7 + 7 + 13)) 27 5 = 5
      ∧ bits (5#5 ++ d ++ a ++ imm : BitVec (5 + 7 + 7 + 13)) 20 7 = d
      ∧ bits (5#5 ++ d ++ a ++ imm : BitVec (5 + 7 + 7 + 13)) 13 7 = a
      ∧ bits (5#5 ++ d ++ a ++ imm : BitVec (5 + 7 + 7 + 13)) 0 13 = imm := by
    unfold bits
    refine ⟨?_, ?_, ?_, ?_⟩ <;> simp (disch := omega) only [bits_append_low, bits_append_high] <;> exact bits_all _
  simp only [decodeWord, h]
  rfl

theorem limWord (d : Code) (imm : BitVec 20) :
    decodeWord (6#5 ++ d ++ imm : BitVec (5 + 7 + 20)) = .ok (.lim d imm) := by
  have h : bits (6#5 ++ d ++ imm : BitVec (5 + 7 + 20)) 27 5 = 6
      ∧ bits (6#5 ++ d ++ imm : BitVec (5 + 7 + 20)) 20 7 = d
      ∧ bits (6#5 ++ d ++ imm : BitVec (5 + 7 + 20)) 0 20 = imm := by
    unfold bits
    refine ⟨?_, ?_, ?_⟩ <;> simp (disch := omega) only [bits_append_low, bits_append_high] <;> exact bits_all _
  simp only [decodeWord, h]
  rfl

/-- Cases over two bits. -/
theorem each2 {P : BitVec 2 → Prop} (h0 : P 0) (h1 : P 1) (h2 : P 2) (h3 : P 3) (x : BitVec 2) : P x := by
  have : x = 0 ∨ x = 1 ∨ x = 2 ∨ x = 3 := by revert x; decide
  rcases this with rfl | rfl | rfl | rfl <;> assumption

/-- Cases over three bits. -/
theorem each3 {P : BitVec 3 → Prop} (h0 : P 0) (h1 : P 1) (h2 : P 2) (h3 : P 3) (h4 : P 4) (h5 : P 5) (h6 : P 6) (h7 : P 7)
    (x : BitVec 3) : P x := by
  have : x = 0 ∨ x = 1 ∨ x = 2 ∨ x = 3 ∨ x = 4 ∨ x = 5 ∨ x = 6 ∨ x = 7 := by revert x; decide
  rcases this with rfl | rfl | rfl | rfl | rfl | rfl | rfl | rfl <;> assumption

/-! ### Every instruction -/

/-- Where the instruction has a word, decoding the word gives the instruction back. -/
def RoundTrip.Statement (i : Instr) : Prop := i.wellFormed = true → ∀ w, encodeWord i = some w → decodeWord w = .ok i

theorem of_word {i : Instr} {w : Word} (e : encodeWord i = some w) (h : i.wellFormed = true → decodeWord w = .ok i) :
    RoundTrip.Statement i := fun k _ e' => Option.some.inj (e.symm.trans e') ▸ h k

theorem of_none {i : Instr} (e : encodeWord i = none) : RoundTrip.Statement i := fun _ _ e' => nomatch e.symm.trans e'

namespace RoundTrip

theorem pfx (imm : BitVec 27) (second : Option Prefixed) : Statement (.pfx imm second) := of_none rfl
theorem nop : Statement .nop :=
  of_word rfl fun _ => sysWord 1 0
theorem trap (code : BitVec 21) : Statement (.trap code) :=
  of_word rfl fun _ => sysWord 2 code
theorem rtt : Statement .rtt :=
  of_word rfl fun _ => sysWord 3 0
theorem isync : Statement .isync :=
  of_word rfl fun _ => sysWord 4 0
theorem sread (d : Code) (index : BitVec 14) : Statement (.sread d index) :=
  of_word rfl fun _ => by rw [sysWord]; simp [decodeSys, regIndex_fields]
theorem swrite (a : Code) (index : BitVec 14) : Statement (.swrite a index) :=
  of_word rfl fun h => by
    have h : index ≠ 0 ∧ index ≠ 2 ∧ index ≠ 19 ∧ index ≠ 20 := by
      simpa [Instr.wellFormed, swriteOwn, and_assoc] using h
    rw [sysWord]
    simp only [decodeSys, regIndex_fields, Nat.reduceMod]
    rw [if_neg h.1, if_neg h.2.1, if_neg h.2.2.1, if_neg h.2.2.2]
theorem swriteEm (a : Code) : Statement (.swriteEm a) :=
  of_word rfl fun _ => by rw [sysWord]; simp [decodeSys, regIndex_fields]
theorem swriteFpc (a : Code) : Statement (.swriteFpc a) :=
  of_word rfl fun _ => by rw [sysWord]; simp [decodeSys, regIndex_fields]
theorem wspill (a : Code) : Statement (.wspill a) :=
  of_word rfl fun _ => by rw [sysWord]; simp [decodeSys, regIndex_fields]
theorem wfill (a : Code) : Statement (.wfill a) :=
  of_word rfl fun _ => by rw [sysWord]; simp [decodeSys, regIndex_fields]
theorem br (off : BitVec 23) : Statement (.br off) :=
  of_word rfl fun _ => brWord 0 off
theorem brNone (off : BitVec 23) : Statement (.brNone off) :=
  of_word rfl fun _ => brWord 1 off
theorem brAny (off : BitVec 23) : Statement (.brAny off) :=
  of_word rfl fun _ => brWord 2 off
theorem brAll (off : BitVec 23) : Statement (.brAll off) :=
  of_word rfl fun _ => brWord 3 off
theorem brUc (off : BitVec 23) : Statement (.brUc off) :=
  of_word rfl fun _ => brWord 4 off
theorem brNuc (off : BitVec 23) : Statement (.brNuc off) :=
  of_word rfl fun _ => brWord 5 off
theorem call (f : BitVec 2) (off : BitVec 23) : Statement (.call f off) :=
  of_word rfl fun _ => each2 (P := fun f => decodeWord (packB (8 + f.toNat) off) = .ok (.call f off))
    (brWord 8 off) (brWord 9 off) (brWord 10 off) (brWord 11 off) f
theorem callAny (f : BitVec 2) (off : BitVec 23) : Statement (.callAny f off) :=
  of_word rfl fun _ => each2 (P := fun f => decodeWord (packB (12 + f.toNat) off) = .ok (.callAny f off))
    (brWord 12 off) (brWord 13 off) (brWord 14 off) (brWord 15 off) f
theorem ret : Statement .ret :=
  of_word rfl fun _ => ctlWord 0 0 0 0
theorem jmpr (a : Code) : Statement (.jmpr a) :=
  of_word rfl fun _ => ctlWord 1 0 a 0
theorem callr (a b : Code) : Statement (.callr a b) :=
  of_word rfl fun _ => ctlWord 2 0 a b
theorem callrAny (a b : Code) : Statement (.callrAny a b) :=
  of_word rfl fun _ => ctlWord 3 0 a b
theorem wbase (a : Code) : Statement (.wbase a) :=
  of_word rfl fun _ => ctlWord 4 0 a 0
theorem rgn : Statement .rgn :=
  of_word rfl fun _ => ctlWord 5 0 0 0
theorem ucmpEq (a b : Code) : Statement (.ucmpEq a b) :=
  of_word rfl fun _ => ctlWord 16 0 a b
theorem ucmpNe (a b : Code) : Statement (.ucmpNe a b) :=
  of_word rfl fun _ => ctlWord 17 0 a b
theorem ucmpLt (a b : Code) : Statement (.ucmpLt a b) :=
  of_word rfl fun _ => ctlWord 18 0 a b
theorem ucmpLe (a b : Code) : Statement (.ucmpLe a b) :=
  of_word rfl fun _ => ctlWord 19 0 a b
theorem ucmpLtu (a b : Code) : Statement (.ucmpLtu a b) :=
  of_word rfl fun _ => ctlWord 20 0 a b
theorem ucmpLeu (a b : Code) : Statement (.ucmpLeu a b) :=
  of_word rfl fun _ => ctlWord 21 0 a b
theorem add (d a b : Code) : Statement (.add d a b) :=
  of_word rfl fun _ => intWord 0 d a b
theorem sub (d a b : Code) : Statement (.sub d a b) :=
  of_word rfl fun _ => intWord 1 d a b
theorem mul (d a b : Code) : Statement (.mul d a b) :=
  of_word rfl fun _ => intWord 2 d a b
theorem mulhi (d a b : Code) : Statement (.mulhi d a b) :=
  of_word rfl fun _ => intWord 3 d a b
theorem mulhu (d a b : Code) : Statement (.mulhu d a b) :=
  of_word rfl fun _ => intWord 4 d a b
theorem div (d a b : Code) : Statement (.div d a b) :=
  of_word rfl fun _ => intWord 5 d a b
theorem divu (d a b : Code) : Statement (.divu d a b) :=
  of_word rfl fun _ => intWord 6 d a b
theorem rem (d a b : Code) : Statement (.rem d a b) :=
  of_word rfl fun _ => intWord 7 d a b
theorem remu (d a b : Code) : Statement (.remu d a b) :=
  of_word rfl fun _ => intWord 8 d a b
theorem and (d a b : Code) : Statement (.and d a b) :=
  of_word rfl fun _ => intWord 9 d a b
theorem or (d a b : Code) : Statement (.or d a b) :=
  of_word rfl fun _ => intWord 10 d a b
theorem xor (d a b : Code) : Statement (.xor d a b) :=
  of_word rfl fun _ => intWord 11 d a b
theorem andn (d a b : Code) : Statement (.andn d a b) :=
  of_word rfl fun _ => intWord 12 d a b
theorem shl (d a b : Code) : Statement (.shl d a b) :=
  of_word rfl fun _ => intWord 13 d a b
theorem shr (d a b : Code) : Statement (.shr d a b) :=
  of_word rfl fun _ => intWord 14 d a b
theorem sra (d a b : Code) : Statement (.sra d a b) :=
  of_word rfl fun _ => intWord 15 d a b
theorem shli (d a b : Code) : Statement (.shli d a b) :=
  of_word rfl fun _ => intWord 16 d a b
theorem shri (d a b : Code) : Statement (.shri d a b) :=
  of_word rfl fun _ => intWord 17 d a b
theorem srai (d a b : Code) : Statement (.srai d a b) :=
  of_word rfl fun _ => intWord 18 d a b
theorem min (d a b : Code) : Statement (.min d a b) :=
  of_word rfl fun _ => intWord 19 d a b
theorem max (d a b : Code) : Statement (.max d a b) :=
  of_word rfl fun _ => intWord 20 d a b
theorem minu (d a b : Code) : Statement (.minu d a b) :=
  of_word rfl fun _ => intWord 21 d a b
theorem maxu (d a b : Code) : Statement (.maxu d a b) :=
  of_word rfl fun _ => intWord 22 d a b
theorem abs (d a : Code) : Statement (.abs d a) :=
  of_word rfl fun _ => intWord 23 d a 0
theorem clz (d a : Code) : Statement (.clz d a) :=
  of_word rfl fun _ => intWord 24 d a 0
theorem popc (d a : Code) : Statement (.popc d a) :=
  of_word rfl fun _ => intWord 25 d a 0
theorem brev (d a : Code) : Statement (.brev d a) :=
  of_word rfl fun _ => intWord 26 d a 0
theorem sextb (d a : Code) : Statement (.sextb d a) :=
  of_word rfl fun _ => intWord 27 d a 0
theorem sexth (d a : Code) : Statement (.sexth d a) :=
  of_word rfl fun _ => intWord 28 d a 0
theorem mov (d a : Code) : Statement (.mov d a) :=
  of_word rfl fun _ => intWord 29 d a 0
theorem mad (d a b : Code) : Statement (.mad d a b) :=
  of_word rfl fun _ => intWord 30 d a b
theorem addD (d a b : Code) : Statement (.addD d a b) :=
  of_word rfl fun _ => intWord 32 d a b
theorem subD (d a b : Code) : Statement (.subD d a b) :=
  of_word rfl fun _ => intWord 33 d a b
theorem mulD (d a b : Code) : Statement (.mulD d a b) :=
  of_word rfl fun _ => intWord 34 d a b
theorem shlD (d a b : Code) : Statement (.shlD d a b) :=
  of_word rfl fun _ => intWord 35 d a b
theorem shrD (d a b : Code) : Statement (.shrD d a b) :=
  of_word rfl fun _ => intWord 36 d a b
theorem sraD (d a b : Code) : Statement (.sraD d a b) :=
  of_word rfl fun _ => intWord 37 d a b
theorem movD (d a : Code) : Statement (.movD d a) :=
  of_word rfl fun _ => intWord 38 d a 0
theorem lea (size : BitVec 2) (d a b : Code) : Statement (.lea size d a b) :=
  of_word rfl fun _ => each2 (P := fun k => decodeWord (packA 4 (40 + k.toNat) d a b) = .ok (.lea k d a b))
    (intWord 40 d a b) (intWord 41 d a b) (intWord 42 d a b) (intWord 43 d a b) size
theorem addi (d a : Code) (imm : BitVec 13) : Statement (.addi d a imm) :=
  of_word rfl fun _ => addiWord d a imm
theorem lim (d : Code) (imm : BitVec 20) : Statement (.lim d imm) :=
  of_word rfl fun _ => limWord d imm
theorem addFmt (fmt : BitVec 2) (d a b : Code) : Statement (.addFmt fmt d a b) :=
  of_word rfl fun _ => fpWord 0 fmt d a b
theorem subFmt (fmt : BitVec 2) (d a b : Code) : Statement (.subFmt fmt d a b) :=
  of_word rfl fun _ => fpWord 1 fmt d a b
theorem mulFmt (fmt : BitVec 2) (d a b : Code) : Statement (.mulFmt fmt d a b) :=
  of_word rfl fun _ => fpWord 2 fmt d a b
theorem divFmt (fmt : BitVec 2) (d a b : Code) : Statement (.divFmt fmt d a b) :=
  of_word rfl fun _ => fpWord 3 fmt d a b
theorem sqrtFmt (fmt : BitVec 2) (d a : Code) : Statement (.sqrtFmt fmt d a) :=
  of_word rfl fun _ => fpWord 4 fmt d a 0
theorem minFmt (fmt : BitVec 2) (d a b : Code) : Statement (.minFmt fmt d a b) :=
  of_word rfl fun _ => fpWord 5 fmt d a b
theorem maxFmt (fmt : BitVec 2) (d a b : Code) : Statement (.maxFmt fmt d a b) :=
  of_word rfl fun _ => fpWord 6 fmt d a b
theorem absFmt (fmt : BitVec 2) (d a : Code) : Statement (.absFmt fmt d a) :=
  of_word rfl fun _ => fpWord 7 fmt d a 0
theorem negFmt (fmt : BitVec 2) (d a : Code) : Statement (.negFmt fmt d a) :=
  of_word rfl fun _ => fpWord 8 fmt d a 0
theorem csgnFmt (fmt : BitVec 2) (d a b : Code) : Statement (.csgnFmt fmt d a b) :=
  of_word rfl fun _ => fpWord 9 fmt d a b
theorem rcpF32 (d a : Code) : Statement (.rcpF32 d a) :=
  of_word rfl fun _ => fpWord 10 1 d a 0
theorem rsqF32 (d a : Code) : Statement (.rsqF32 d a) :=
  of_word rfl fun _ => fpWord 11 1 d a 0
theorem exp2F32 (d a : Code) : Statement (.exp2F32 d a) :=
  of_word rfl fun _ => fpWord 12 1 d a 0
theorem log2F32 (d a : Code) : Statement (.log2F32 d a) :=
  of_word rfl fun _ => fpWord 13 1 d a 0
theorem sinF32 (d a : Code) : Statement (.sinF32 d a) :=
  of_word rfl fun _ => fpWord 14 1 d a 0
theorem cosF32 (d a : Code) : Statement (.cosF32 d a) :=
  of_word rfl fun _ => fpWord 15 1 d a 0
theorem fma (fmt : BitVec 2) (d a b : Code) : Statement (.fma fmt d a b) :=
  of_word rfl fun _ => fmaWord 0 fmt d a b
theorem fms (fmt : BitVec 2) (d a b : Code) : Statement (.fms fmt d a b) :=
  of_word rfl fun _ => fmaWord 1 fmt d a b
theorem fnma (fmt : BitVec 2) (d a b : Code) : Statement (.fnma fmt d a b) :=
  of_word rfl fun _ => fmaWord 2 fmt d a b
theorem fnms (fmt : BitVec 2) (d a b : Code) : Statement (.fnms fmt d a b) :=
  of_word rfl fun _ => fmaWord 3 fmt d a b
theorem cvt (dst src : BitVec 3) (d a b : Code) : Statement (.cvt dst src d a b) :=
  of_word rfl fun h => (cvtWord dst src d a b).trans (if_pos h)
theorem rintF64 (d a b : Code) : Statement (.rintF64 d a b) :=
  of_word rfl fun _ => cvtWord 0 0 d a b
theorem rintF32 (d a b : Code) : Statement (.rintF32 d a b) :=
  of_word rfl fun _ => cvtWord 1 1 d a b
theorem rintF16 (d a b : Code) : Statement (.rintF16 d a b) :=
  of_word rfl fun _ => cvtWord 2 2 d a b
theorem rintBf16 (d a b : Code) : Statement (.rintBf16 d a b) :=
  of_word rfl fun _ => cvtWord 3 3 d a b
theorem bscale (d a : Code) : Statement (.bscale d a) :=
  of_word rfl fun _ => cvtWord 6 0 d a 0
theorem bquant (d a b : Code) : Statement (.bquant d a b) :=
  of_word rfl fun _ => cvtWord 6 1 d a b
theorem bdeq (d a b : Code) : Statement (.bdeq d a b) :=
  of_word rfl fun _ => cvtWord 6 2 d a b
theorem cmpEq (type : BitVec 3) (d a b : Code) : Statement (.cmpEq type d a b) :=
  of_word rfl fun _ => cmpWord 0 type d a b
theorem cmpNe (type : BitVec 3) (d a b : Code) : Statement (.cmpNe type d a b) :=
  of_word rfl fun _ => cmpWord 1 type d a b
theorem cmpLt (type : BitVec 3) (d a b : Code) : Statement (.cmpLt type d a b) :=
  of_word rfl fun _ => cmpWord 2 type d a b
theorem cmpLe (type : BitVec 3) (d a b : Code) : Statement (.cmpLe type d a b) :=
  of_word rfl fun _ => cmpWord 3 type d a b
theorem cmpGt (type : BitVec 3) (d a b : Code) : Statement (.cmpGt type d a b) :=
  of_word rfl fun _ => cmpWord 4 type d a b
theorem cmpGe (type : BitVec 3) (d a b : Code) : Statement (.cmpGe type d a b) :=
  of_word rfl fun _ => cmpWord 5 type d a b
theorem cmpUn (fmt : BitVec 2) (d a b : Code) : Statement (.cmpUn fmt d a b) :=
  of_word rfl fun _ => each2 (P := fun fmt => decodeWord (packA 10 (52 + fmt.toNat) d a b) = .ok (.cmpUn fmt d a b))
    (cmpWord 6 4 d a b) (cmpWord 6 5 d a b) (cmpWord 6 6 d a b) (cmpWord 6 7 d a b) fmt
theorem pand (d a b : Code) : Statement (.pand d a b) :=
  of_word rfl fun _ => prdWord 0 d a b
theorem por (d a b : Code) : Statement (.por d a b) :=
  of_word rfl fun _ => prdWord 1 d a b
theorem pxor (d a b : Code) : Statement (.pxor d a b) :=
  of_word rfl fun _ => prdWord 2 d a b
theorem pandn (d a b : Code) : Statement (.pandn d a b) :=
  of_word rfl fun _ => prdWord 3 d a b
theorem pnot (d a : Code) : Statement (.pnot d a) :=
  of_word rfl fun _ => prdWord 4 d a 0
theorem pmov (d a : Code) : Statement (.pmov d a) :=
  of_word rfl fun _ => prdWord 5 d a 0
theorem pset (d a : Code) : Statement (.pset d a) :=
  of_word rfl fun _ => prdWord 6 d a 0
theorem pget (d a : Code) : Statement (.pget d a) :=
  of_word rfl fun _ => prdWord 7 d a 0
theorem sel (k : BitVec 5) (d a b : Code) : Statement (.sel k d a b) :=
  of_word rfl fun _ => by
    have h : 32 + k.toNat < 64 := by have := k.isLt; omega
    rw [prdWord, Nat.mod_eq_of_lt h, Nat.add_comm]
    exact (if_pos (by have := k.isLt; omega)).trans (by simp)
theorem mset (a : Code) : Statement (.mset a) :=
  of_word rfl fun _ => mskWord 0 0 a 0
theorem mand (a : Code) : Statement (.mand a) :=
  of_word rfl fun _ => mskWord 1 0 a 0
theorem mandn (a : Code) : Statement (.mandn a) :=
  of_word rfl fun _ => mskWord 2 0 a 0
theorem mor (a : Code) : Statement (.mor a) :=
  of_word rfl fun _ => mskWord 3 0 a 0
theorem mall : Statement .mall :=
  of_word rfl fun _ => mskWord 4 0 0 0
theorem mcnt (d : Code) : Statement (.mcnt d) :=
  of_word rfl fun _ => mskWord 5 d 0 0
theorem psave (d : Code) : Statement (.psave d) :=
  of_word rfl fun _ => mskWord 6 d 0 0
theorem prest (a : Code) : Statement (.prest a) :=
  of_word rfl fun _ => mskWord 7 0 a 0
theorem lpullAt (d a b : Code) : Statement (.lpullAt d a b) :=
  of_word rfl fun _ => laneWord 0 d a b
theorem lpullBelow (d a b : Code) : Statement (.lpullBelow d a b) :=
  of_word rfl fun _ => laneWord 1 d a b
theorem lpullAbove (d a b : Code) : Statement (.lpullAbove d a b) :=
  of_word rfl fun _ => laneWord 2 d a b
theorem lpullXor (d a b : Code) : Statement (.lpullXor d a b) :=
  of_word rfl fun _ => laneWord 3 d a b
theorem rdlane (d a b : Code) : Statement (.rdlane d a b) :=
  of_word rfl fun _ => laneWord 4 d a b
theorem wrlane (d a b : Code) : Statement (.wrlane d a b) :=
  of_word rfl fun _ => laneWord 5 d a b
theorem lmask (d a : Code) : Statement (.lmask d a) :=
  of_word rfl fun _ => laneWord 6 d a 0
theorem lany (d a : Code) : Statement (.lany d a) :=
  of_word rfl fun _ => laneWord 7 d a 0
theorem lall (d a : Code) : Statement (.lall d a) :=
  of_word rfl fun _ => laneWord 8 d a 0
theorem lsame (d a : Code) : Statement (.lsame d a) :=
  of_word rfl fun _ => laneWord 9 d a 0
theorem redAdd (d a : Code) : Statement (.redAdd d a) :=
  of_word rfl fun _ => laneWord 10 d a 0
theorem redMin (d a : Code) : Statement (.redMin d a) :=
  of_word rfl fun _ => laneWord 11 d a 0
theorem redMax (d a : Code) : Statement (.redMax d a) :=
  of_word rfl fun _ => laneWord 12 d a 0
theorem redMinu (d a : Code) : Statement (.redMinu d a) :=
  of_word rfl fun _ => laneWord 13 d a 0
theorem redMaxu (d a : Code) : Statement (.redMaxu d a) :=
  of_word rfl fun _ => laneWord 14 d a 0
theorem redFaddF32 (d a : Code) : Statement (.redFaddF32 d a) :=
  of_word rfl fun _ => laneWord 15 d a 0
theorem redFminF32 (d a : Code) : Statement (.redFminF32 d a) :=
  of_word rfl fun _ => laneWord 16 d a 0
theorem redFmaxF32 (d a : Code) : Statement (.redFmaxF32 d a) :=
  of_word rfl fun _ => laneWord 17 d a 0
theorem scanAdd (d a : Code) : Statement (.scanAdd d a) :=
  of_word rfl fun _ => laneWord 18 d a 0
theorem scanFaddF32 (d a : Code) : Statement (.scanFaddF32 d a) :=
  of_word rfl fun _ => laneWord 19 d a 0
theorem setw (a : Code) : Statement (.setw a) :=
  of_word rfl fun _ => grpWord 0 0 a 0
theorem regroup (d : Code) : Statement (.regroup d) :=
  of_word rfl fun _ => grpWord 1 d 0 0
theorem barSync (a : Code) : Statement (.barSync a) :=
  of_word rfl fun _ => grpWord 2 0 a 0
theorem barArv (a : Code) : Statement (.barArv a) :=
  of_word rfl fun _ => grpWord 3 0 a 0
theorem cbar : Statement .cbar :=
  of_word rfl fun _ => grpWord 4 0 0 0
theorem yield : Statement .yield :=
  of_word rfl fun _ => grpWord 5 0 0 0
theorem exit (a : Code) : Statement (.exit a) :=
  of_word rfl fun _ => grpWord 6 0 a 0
theorem launch (a : Code) : Statement (.launch a) :=
  of_word rfl fun _ => grpWord 7 0 a 0
theorem ldB (ord : BitVec 2) (scope : BitVec 3) (d a : Code) (off : BitVec 5) : Statement (.ldB ord scope d a off) :=
  of_word rfl fun h => (mem15Word 0 ord scope d a off).trans (if_pos (of_decide_eq_true h))
theorem ldH (ord : BitVec 2) (scope : BitVec 3) (d a : Code) (off : BitVec 5) : Statement (.ldH ord scope d a off) :=
  of_word rfl fun h => (mem15Word 1 ord scope d a off).trans (if_pos (of_decide_eq_true h))
theorem ldW (ord : BitVec 2) (scope : BitVec 3) (d a : Code) (off : BitVec 5) : Statement (.ldW ord scope d a off) :=
  of_word rfl fun h => (mem15Word 2 ord scope d a off).trans (if_pos (of_decide_eq_true h))
theorem ldD (ord : BitVec 2) (scope : BitVec 3) (d a : Code) (off : BitVec 5) : Statement (.ldD ord scope d a off) :=
  of_word rfl fun h => (mem15Word 3 ord scope d a off).trans (if_pos (of_decide_eq_true h))
theorem ldQ (ord : BitVec 2) (scope : BitVec 3) (d a : Code) (off : BitVec 5) : Statement (.ldQ ord scope d a off) :=
  of_word rfl fun h => (mem15Word 4 ord scope d a off).trans (if_pos (of_decide_eq_true h))
theorem ldInvW (scope : BitVec 3) (d a : Code) (off : BitVec 5) : Statement (.ldInvW scope d a off) :=
  of_word rfl fun _ => mem15Word 5 0 scope d a off
theorem ldInvD (scope : BitVec 3) (d a : Code) (off : BitVec 5) : Statement (.ldInvD scope d a off) :=
  of_word rfl fun _ => mem15Word 6 0 scope d a off
theorem ldInvQ (scope : BitVec 3) (d a : Code) (off : BitVec 5) : Statement (.ldInvQ scope d a off) :=
  of_word rfl fun _ => mem15Word 7 0 scope d a off
theorem stB (ord : BitVec 2) (scope : BitVec 3) (d a : Code) (off : BitVec 5) : Statement (.stB ord scope d a off) :=
  of_word rfl fun h => (mem16Word 0 ord scope d a off).trans (if_pos (by simpa [Instr.wellFormed] using h))
theorem stH (ord : BitVec 2) (scope : BitVec 3) (d a : Code) (off : BitVec 5) : Statement (.stH ord scope d a off) :=
  of_word rfl fun h => (mem16Word 1 ord scope d a off).trans (if_pos (by simpa [Instr.wellFormed] using h))
theorem stW (ord : BitVec 2) (scope : BitVec 3) (d a : Code) (off : BitVec 5) : Statement (.stW ord scope d a off) :=
  of_word rfl fun h => (mem16Word 2 ord scope d a off).trans (if_pos (by simpa [Instr.wellFormed] using h))
theorem stD (ord : BitVec 2) (scope : BitVec 3) (d a : Code) (off : BitVec 5) : Statement (.stD ord scope d a off) :=
  of_word rfl fun h => (mem16Word 3 ord scope d a off).trans (if_pos (by simpa [Instr.wellFormed] using h))
theorem stQ (ord : BitVec 2) (scope : BitVec 3) (d a : Code) (off : BitVec 5) : Statement (.stQ ord scope d a off) :=
  of_word rfl fun h => (mem16Word 4 ord scope d a off).trans (if_pos (by simpa [Instr.wellFormed] using h))
theorem atAddW (ord : BitVec 2) (scope : BitVec 3) (d a : Code) (off : BitVec 5) : Statement (.atAddW ord scope d a off) :=
  of_word rfl fun _ => mem17Word 0 ord scope d a off
theorem atAddD (ord : BitVec 2) (scope : BitVec 3) (d a : Code) (off : BitVec 5) : Statement (.atAddD ord scope d a off) :=
  of_word rfl fun _ => mem17Word 1 ord scope d a off
theorem atMinW (ord : BitVec 2) (scope : BitVec 3) (d a : Code) (off : BitVec 5) : Statement (.atMinW ord scope d a off) :=
  of_word rfl fun _ => mem17Word 2 ord scope d a off
theorem atMaxW (ord : BitVec 2) (scope : BitVec 3) (d a : Code) (off : BitVec 5) : Statement (.atMaxW ord scope d a off) :=
  of_word rfl fun _ => mem17Word 3 ord scope d a off
theorem atMinuW (ord : BitVec 2) (scope : BitVec 3) (d a : Code) (off : BitVec 5) : Statement (.atMinuW ord scope d a off) :=
  of_word rfl fun _ => mem17Word 4 ord scope d a off
theorem atMaxuW (ord : BitVec 2) (scope : BitVec 3) (d a : Code) (off : BitVec 5) : Statement (.atMaxuW ord scope d a off) :=
  of_word rfl fun _ => mem17Word 5 ord scope d a off
theorem atSwapW (ord : BitVec 2) (scope : BitVec 3) (d a : Code) (off : BitVec 5) : Statement (.atSwapW ord scope d a off) :=
  of_word rfl fun _ => mem17Word 6 ord scope d a off
theorem atCasW (ord : BitVec 2) (scope : BitVec 3) (d a : Code) (off : BitVec 5) : Statement (.atCasW ord scope d a off) :=
  of_word rfl fun _ => mem17Word 7 ord scope d a off
theorem atAndW (ord : BitVec 2) (scope : BitVec 3) (d a : Code) (off : BitVec 5) : Statement (.atAndW ord scope d a off) :=
  of_word rfl fun _ => mem18Word 0 ord scope d a off
theorem atOrW (ord : BitVec 2) (scope : BitVec 3) (d a : Code) (off : BitVec 5) : Statement (.atOrW ord scope d a off) :=
  of_word rfl fun _ => mem18Word 1 ord scope d a off
theorem atXorW (ord : BitVec 2) (scope : BitVec 3) (d a : Code) (off : BitVec 5) : Statement (.atXorW ord scope d a off) :=
  of_word rfl fun _ => mem18Word 2 ord scope d a off
theorem atSwapD (ord : BitVec 2) (scope : BitVec 3) (d a : Code) (off : BitVec 5) : Statement (.atSwapD ord scope d a off) :=
  of_word rfl fun _ => mem18Word 3 ord scope d a off
theorem atCasD (ord : BitVec 2) (scope : BitVec 3) (d a : Code) (off : BitVec 5) : Statement (.atCasD ord scope d a off) :=
  of_word rfl fun _ => mem18Word 4 ord scope d a off
theorem atFaddF32 (ord : BitVec 2) (scope : BitVec 3) (d a : Code) (off : BitVec 5) : Statement (.atFaddF32 ord scope d a off) :=
  of_word rfl fun _ => mem18Word 5 ord scope d a off
theorem atFminF32 (ord : BitVec 2) (scope : BitVec 3) (d a : Code) (off : BitVec 5) : Statement (.atFminF32 ord scope d a off) :=
  of_word rfl fun _ => mem18Word 6 ord scope d a off
theorem atFmaxF32 (ord : BitVec 2) (scope : BitVec 3) (d a : Code) (off : BitVec 5) : Statement (.atFmaxF32 ord scope d a off) :=
  of_word rfl fun _ => mem18Word 7 ord scope d a off
theorem sldW (d a : Code) (off : BitVec 5) : Statement (.sldW d a off) :=
  of_word rfl fun _ => mem19Word 0 0 0 d a off
theorem sldD (d a : Code) (off : BitVec 5) : Statement (.sldD d a off) :=
  of_word rfl fun _ => mem19Word 1 0 0 d a off
theorem sldQ (d a : Code) (off : BitVec 5) : Statement (.sldQ d a off) :=
  of_word rfl fun _ => mem19Word 2 0 0 d a off
theorem sstW (d a : Code) (off : BitVec 5) : Statement (.sstW d a off) :=
  of_word rfl fun _ => mem19Word 4 0 0 d a off
theorem sstD (d a : Code) (off : BitVec 5) : Statement (.sstD d a off) :=
  of_word rfl fun _ => mem19Word 5 0 0 d a off
theorem sstQ (d a : Code) (off : BitVec 5) : Statement (.sstQ d a off) :=
  of_word rfl fun _ => mem19Word 6 0 0 d a off
theorem fence (ord : BitVec 2) (scope : BitVec 3) : Statement (.fence ord scope) :=
  of_word rfl fun h => (mem20Word 0 ord scope 0 0 0).trans (if_neg (by simpa [Instr.wellFormed] using h))
theorem waitp (a : Code) (path : BitVec 5) : Statement (.waitp a path) :=
  of_word rfl fun _ => mem20Word 1 0 0 0 a path
theorem waitv (ord : BitVec 2) (scope : BitVec 3) (d a : Code) (off : BitVec 5) : Statement (.waitv ord scope d a off) :=
  of_word rfl fun h => (mem20Word 2 ord scope d a off).trans (if_pos (of_decide_eq_true h))
theorem rcfg (a : Code) : Statement (.rcfg a) :=
  of_word rfl fun _ => rillWord 0 0 a 0
theorem rstat (d a : Code) : Statement (.rstat d a) :=
  of_word rfl fun _ => rillWord 1 d a 0
theorem rdrain (a : Code) : Statement (.rdrain a) :=
  of_word rfl fun _ => rillWord 2 0 a 0
theorem rpeek (d a : Code) : Statement (.rpeek d a) :=
  of_word rfl fun _ => rillWord 3 d a 0
theorem mma (d a b : Code) : Statement (.mma d a b) :=
  of_word rfl fun _ => mtxWord 0 d a b
theorem mmaAcc (d a b : Code) : Statement (.mmaAcc d a b) :=
  of_word rfl fun _ => mtxWord 1 d a b
theorem mmaSacc (d a b : Code) : Statement (.mmaSacc d a b) :=
  of_word rfl fun _ => mtxWord 2 d a b
theorem mzero (d : Code) : Statement (.mzero d) :=
  of_word rfl fun _ => mtxWord 4 d 0 0
theorem mscl (d a : Code) : Statement (.mscl d a) :=
  of_word rfl fun _ => mtxWord 5 d a 0
theorem mrd (d a b : Code) : Statement (.mrd d a b) :=
  of_word rfl fun _ => mtxWord 6 d a b
theorem mwr (d a b : Code) : Statement (.mwr d a b) :=
  of_word rfl fun _ => mtxWord 7 d a b
theorem msto (d a : Code) : Statement (.msto d a) :=
  of_word rfl fun _ => mtxWord 8 d a 0
theorem mlda (d a : Code) : Statement (.mlda d a) :=
  of_word rfl fun _ => mtxWord 9 d a 0
theorem mmov (d a : Code) : Statement (.mmov d a) :=
  of_word rfl fun _ => mtxWord 10 d a 0
theorem enqRunnel (scope : BitVec 3) (d a b : Code) : Statement (.enqRunnel scope d a b) :=
  of_word rfl (each3 (P := fun scope => (Instr.enqRunnel scope d a b).wellFormed = true →
    decodeWord (packA 23 scope.toNat d a b) = .ok (.enqRunnel scope d a b))
    (fun h => absurd h (by simp [Instr.wellFormed])) (fun h => absurd h (by simp [Instr.wellFormed])) (fun _ => engWord 2 d a b)
    (fun _ => engWord 3 d a b) (fun _ => engWord 4 d a b) (fun _ => engWord 5 d a b)
    (fun _ => engWord 6 d a b) (fun _ => engWord 7 d a b) scope)
theorem enqCascade (scope : BitVec 3) (d a b : Code) : Statement (.enqCascade scope d a b) :=
  of_word rfl (each3 (P := fun scope => (Instr.enqCascade scope d a b).wellFormed = true →
    decodeWord (packA 23 (8 + scope.toNat) d a b) = .ok (.enqCascade scope d a b))
    (fun h => absurd h (by simp [Instr.wellFormed])) (fun h => absurd h (by simp [Instr.wellFormed])) (fun h => absurd h (by simp [Instr.wellFormed]))
    (fun h => absurd h (by simp [Instr.wellFormed])) (fun h => absurd h (by simp [Instr.wellFormed])) (fun _ => engWord 13 d a b)
    (fun _ => engWord 14 d a b) (fun _ => engWord 15 d a b) scope)
theorem publish (a : Code) : Statement (.publish a) :=
  of_word rfl fun _ => engWord 16 0 a 0
theorem land (a b : Code) : Statement (.land a b) :=
  of_word rfl fun _ => engWord 17 0 a b
theorem unland (a : Code) : Statement (.unland a) :=
  of_word rfl fun _ => engWord 18 0 a 0
theorem groupIssueChoice (g : Nat) : Statement (.groupIssueChoice g) := of_none rfl
theorem runLimitExpiry (g : Nat) : Statement (.runLimitExpiry g) := of_none rfl
theorem rillBlockTimeout (g : Nat) : Statement (.rillBlockTimeout g) := of_none rfl
theorem cacheMissFill (core level line scope : Nat) : Statement (.cacheMissFill core level line scope) := of_none rfl
theorem narrowCopyEviction (level unit line : Nat) : Statement (.narrowCopyEviction level unit line) := of_none rfl
theorem directoryEvictionRecall (level unit line : Nat) : Statement (.directoryEvictionRecall level unit line) := of_none rfl
theorem replyReplay (ctx : Nat) : Statement (.replyReplay ctx) := of_none rfl
theorem replyDeliver (ctx : Nat) : Statement (.replyDeliver ctx) := of_none rfl
theorem replyEndLaunch (ctx : Nat) : Statement (.replyEndLaunch ctx) := of_none rfl
theorem replyNoEffect (ctx : Nat) : Statement (.replyNoEffect ctx) := of_none rfl
theorem uetDataPacket (p : UetPacket) : Statement (.uetDataPacket p) := of_none rfl
theorem uetCounterMessage (m : UetFlag) : Statement (.uetCounterMessage m) := of_none rfl
theorem uetPacketAck (cmd cluster off path : Nat) (refused : Bool) :
    Statement (.uetPacketAck cmd cluster off path refused) := of_none rfl
theorem uetRetransmitTimeout (peer path cmd cluster off : Nat) : Statement (.uetRetransmitTimeout peer path cmd cluster off) := of_none rfl
theorem pathProbe (hub peer path : Nat) (answered : Bool) : Statement (.pathProbe hub peer path answered) := of_none rfl
theorem deliveryPathTimeout (cmd cluster : Nat) : Statement (.deliveryPathTimeout cmd cluster) := of_none rfl
theorem uePortDown (port : Nat) : Statement (.uePortDown port) := of_none rfl
theorem launchQueueDoorbell (q : Nat) (wr : Word) : Statement (.launchQueueDoorbell q wr) := of_none rfl
theorem launchPlacement (launch : Nat) (cores : List Nat) : Statement (.launchPlacement launch cores) := of_none rfl
theorem preemption (launch tix : Nat) : Statement (.preemption launch tix) := of_none rfl
theorem resume (unit : Nat) (cores : List Nat) : Statement (.resume unit cores) := of_none rfl
theorem dieFailure (die : Nat) : Statement (.dieFailure die) := of_none rfl
theorem rebuildComplete (die : Nat) : Statement (.rebuildComplete die) := of_none rfl
theorem dieRejoin (die : Nat) : Statement (.dieRejoin die) := of_none rfl
theorem incarnationRefusal (die : Nat) (inc : BitVec 16) : Statement (.incarnationRefusal die inc) := of_none rfl
theorem pomasLinkDown (link : Nat) : Statement (.pomasLinkDown link) := of_none rfl
theorem lifecycleAdvance (next : BitVec 3) : Statement (.lifecycleAdvance next) := of_none rfl
theorem attestationRequest (hub : Nat) : Statement (.attestationRequest hub) := of_none rfl
theorem biasFlipToHost (page : Nat) : Statement (.biasFlipToHost page) := of_none rfl
theorem biasFlipToDevice (page : Nat) : Statement (.biasFlipToDevice page) := of_none rfl
theorem hostCxlRead (line : Nat) : Statement (.hostCxlRead line) := of_none rfl
theorem hostCxlWrite (pa : Nat) (data : List Byte) : Statement (.hostCxlWrite pa data) := of_none rfl
theorem hostSnoop (line : Nat) : Statement (.hostSnoop line) := of_none rfl
theorem atsInvalidation (hub page : Nat) : Statement (.atsInvalidation hub page) := of_none rfl
theorem atsTranslationResponse (hub page : Nat) (read write : Bool) : Statement (.atsTranslationResponse hub page read write) := of_none rfl
theorem mgmtRegisterWrite (off : Nat) (value : DWord) : Statement (.mgmtRegisterWrite off value) := of_none rfl
theorem loadResultReturn (g tag : Nat) (lanes : LaneMask) : Statement (.loadResultReturn g tag lanes) := of_none rfl
theorem storeAcknowledge (g tag : Nat) : Statement (.storeAcknowledge g tag) := of_none rfl
theorem scratchpadAccessPerformed (g tag : Nat) (lanes : LaneMask) : Statement (.scratchpadAccessPerformed g tag lanes) := of_none rfl
theorem longLatencyResult (g tag : Nat) : Statement (.longLatencyResult g tag) := of_none rfl
theorem rillEntryFill (g lane port : Nat) : Statement (.rillEntryFill g lane port) := of_none rfl
theorem writeBufferDrain (core bank : Nat) : Statement (.writeBufferDrain core bank) := of_none rfl
theorem translationComplete (g tag : Nat) : Statement (.translationComplete g tag) := of_none rfl
theorem migrationPull (desc line : Nat) : Statement (.migrationPull desc line) := of_none rfl
theorem faultRecordAppend (ctx : Nat) : Statement (.faultRecordAppend ctx) := of_none rfl
theorem waitvMonitorPoll (g : Nat) : Statement (.waitvMonitorPoll g) := of_none rfl
theorem mtxAccept (g : Nat) : Statement (.mtxAccept g) := of_none rfl
theorem mtxRetire (g tag : Nat) : Statement (.mtxRetire g tag) := of_none rfl
theorem engineRecordRead (cmd : Nat) : Statement (.engineRecordRead cmd) := of_none rfl
theorem runnelLoad (cmd : Nat) : Statement (.runnelLoad cmd) := of_none rfl
theorem runnelStore (cmd : Nat) : Statement (.runnelStore cmd) := of_none rfl
theorem runnelGather (cmd : Nat) : Statement (.runnelGather cmd) := of_none rfl
theorem runnelScatter (cmd : Nat) : Statement (.runnelScatter cmd) := of_none rfl
theorem runnelRedstore (cmd : Nat) : Statement (.runnelRedstore cmd) := of_none rfl
theorem cascadeMcast (cmd : Nat) : Statement (.cascadeMcast cmd) := of_none rfl
theorem cascadeMcred (cmd : Nat) : Statement (.cascadeMcred cmd) := of_none rfl
theorem engineCommandEnd (cmd : Nat) : Statement (.engineCommandEnd cmd) := of_none rfl
theorem cascadeDelivery (cmd cluster : Nat) : Statement (.cascadeDelivery cmd cluster) := of_none rfl
theorem dependenceCheck (launch : Nat) : Statement (.dependenceCheck launch) := of_none rfl
theorem launchCompletion (launch : Nat) : Statement (.launchCompletion launch) := of_none rfl
theorem saveBlockWrite (unit : Nat) : Statement (.saveBlockWrite unit) := of_none rfl
theorem queueEntryConsume (q : Nat) : Statement (.queueEntryConsume q) := of_none rfl
theorem leaderElection (q : Nat) : Statement (.leaderElection q) := of_none rfl
theorem watchdogTrap (g : Nat) : Statement (.watchdogTrap g) := of_none rfl
theorem waitvMonitorFire (g : Nat) : Statement (.waitvMonitorFire g) := of_none rfl
theorem clockStepDown (die : Nat) : Statement (.clockStepDown die) := of_none rfl
theorem clockStepUp (die : Nat) : Statement (.clockStepUp die) := of_none rfl
theorem uePortTrain (port : Nat) (fast : Bool) : Statement (.uePortTrain port fast) := of_none rfl
theorem dieDrainedByTheHost (die : Nat) : Statement (.dieDrainedByTheHost die) := of_none rfl
theorem hostLinkTrain (hub width gen : Nat) (cxl3 : Bool) : Statement (.hostLinkTrain hub width gen cxl3) := of_none rfl
theorem deviceReset : Statement .deviceReset := of_none rfl
theorem wipeComplete : Statement .wipeComplete := of_none rfl
theorem moduleUnpowered : Statement .moduleUnpowered := of_none rfl

end RoundTrip

end Sys2Proof.Laws
end

