-- ==== Sys2Proof/Tests/Slice0.lean ====
section
/-! SUPPORT. Tests: terms that `wellFormed` refuses, words of the spec's encodings, single steps, and for every statement
states and operands that meet its hypotheses. -/

namespace Sys2Proof.Tests

open Sys2Proof Sys2Proof.Machine Sys2Proof.Spec

set_option Elab.async false

/-! ### A small machine -/

/-- A thread whose registers v0 to v7 and predicates are given. -/
def thr (n : Nat) (xs : List (Nat × Word)) (p : Word) : Thread := { Thread.new n with stack := xs, pred := p }

/-- A group of two threads on core 0: v4 and v6 hold the addresses 0x8000 and 0x8040, s0 and s2 too. -/
def grp : Group :=
  { Group.zero with
    id := 1, live := true, team := 2, pc := 0x10000, rstart := 0x10000, hva := 0x1000, em := 3,
    threads := [thr 0 [(1, 5), (2, 7), (4, 0x8000), (6, 0x8040)] 1, thr 1 [(1, 6), (2, 8), (4, 0x8040), (6, 0x8080)] 0],
    sregs := [(0, 0x8000), (1, 5), (2, 0x8040), (3, 9), (6, 16)] }

def tm : Team := { bootTeam 2 3 with nthr := 2 }

def ln : Launch := bootLaunch 3

/-- Page tables that map the first GiB to itself with every right. -/
def tables : List Host.Cell := [(0x200000, 0x01), (0x200002, 0x40), (0x400000, 0xBB), (0x400001, 0x01)]

/-- One launch, one team, one group; the device answers. -/
def base : State :=
  { State.reset with power := .on, cur := grp, teams := [tm], launches := [ln], fresh := 10, mem := tables }

/-- The same with bit 12 of the half-word set: the uniform form. -/
def uni (s : State) : State := { s with issue := { s.issue with half := 0x1000, beats := 1 } }

/-- The group in focus, changed. -/
def withCur (s : State) (f : Group → Group) : State := s.modCur f

/-- A group without an error has sound sources of every kind: every witness below has one, and says so (R424). -/
theorem sound_of {s : State} (h : s.cur.intact = true) (lanes : List Nat) (srcs : List Src) : Sound s lanes srcs :=
  fun l _ => badSources_intact h l [] srcs

/-! ### Instructions that compute a value -/

/-- What the per-thread, uniform and port forms ask for. -/
abbrev ThreadReady (s : State) (srcs : List Src) (dst : DstCls) (d : Nat) : Prop :=
  s.u = false ∧ dst.ok false d = true ∧ isPort d = false ∧ srcs.all (Src.ok false) = true ∧ popsOf srcs = []
    ∧ s.cur.intact = true

abbrev UniformReady (s : State) (srcs : List Src) (dst : DstCls) (d : Nat) : Prop :=
  s.u = true ∧ dst.ok true d = true ∧ srcs.all (Src.ok true) = true ∧ s.cur.intact = true

abbrev PortReady (s : State) (srcs : List Src) (dst : DstCls) (d : Nat) : Prop :=
  s.u = false ∧ dst.ok false d = true ∧ srcs.all (Src.ok false) = true ∧ (popsOf srcs ≠ [] ∨ pushOf dst d ≠ none)
    ∧ s.cur.id ≠ 0 ∧ s.cur.walking = false ∧ s.rillBlocked s.em (popsOf srcs) (pushOf dst d) = none
    ∧ s.cur.intact = true

theorem witness_IntegerResults : ThreadReady base (two 3 1 2) (.w .sign) 3
    ∧ UniformReady (uni base) (two 64 65 66) (.w .sign) 64 ∧ PortReady base (two 100 1 2) (.w .sign) 100
    ∧ ThreadReady base (counted 3 1 31) (.w .sign) 127 := by decide +kernel

theorem witness_LongResults : ThreadReady base (twoPairs 2 4 6) .pair 2 ∧ UniformReady (uni base) (pairAndWord 64 65 66) .pair 64
    ∧ PortReady base [⟨1, .wide⟩] (.w .full) 105 ∧ ThreadReady base [] (.w .full) 63 := by decide +kernel

theorem witness_FloatResults : ThreadReady base [fpSrc f64 4, fpSrc f64 6] (fpDst f64) 2
    ∧ UniformReady (uni base) [fpSrc f32 64, fpSrc f32 65] (fpDst f32) 127
    ∧ PortReady base [fpSrc f32 1, fpSrc f32 2] (fpDst f32) 101 := by decide +kernel

theorem witness_LongLatency : ThreadReady base (two 3 1 2) (.w .sign) 3 ∧ UniformReady (uni base) (two 64 65 66) (.w .sign) 64
    ∧ PortReady base (two 100 1 2) (.w .sign) 100 ∧ base.cur.count 5 < 63 := by decide +kernel

theorem witness_ConversionResults : ThreadReady base [⟨4, .pair⟩, ⟨4, .num 4⟩] (.w .zero) 3
    ∧ UniformReady (uni base) [⟨64, .w⟩, ⟨0, .num 4⟩] (.w .sign) 64
    ∧ PortReady base [⟨1, .w⟩, ⟨1, .num 4⟩] (.w .zero) 102 := by decide +kernel

/-- A queue that can be popped: xm of lane 1 and of lane 0 hold a filled entry. -/
def fed : State := withCur base fun g => { g with threads := g.threads.map fun t => { t with xm := [.filled 9], zm := [.filled 4] } }

theorem witness_PredicateResults : ThreadReady base [⟨1, .w⟩, ⟨2, .w⟩] .pred 31 ∧ PortReady fed [⟨101, .w⟩, ⟨2, .w⟩] .pred 0
    ∧ ThreadReady base [⟨1, .pred⟩] .pred 2 ∧ PortReady fed [⟨1, .w⟩, ⟨105, .w⟩, ⟨3, .pred⟩] (.w .zero) 3 := by decide +kernel

/-! ### Cross-lane instructions -/

theorem witness_OneLaneResults : uniformSrc 65 = true ∧ ThreadReady base [⟨1, .v⟩] (.w .zero) 3
    ∧ PortReady base [⟨1, .v⟩] (.w .zero) 100 ∧ (base.u = false ∧ isS 64 = true ∧ [(⟨1, .v⟩ : Src)].all (Src.ok false) = true)
    ∧ (base.u = false ∧ isV 3 = true ∧ Src.ok false ⟨1, .w⟩ = true ∧ isPort 1 = false)
    ∧ (fed.u = false ∧ isV 3 = true ∧ isPort 101 = true ∧ fed.cur.id ≠ 0 ∧ fed.cur.walking = false
      ∧ fed.rillBlocked (if (fed.wide 1 106).toNat < 64 then fed.em &&& (1 <<< (fed.wide 1 106).toNat) else 0) [101 - 100] none
          = none)
    ∧ fed.cur.intact = true ∧ base.cur.intact = true := by decide +kernel

theorem witness_VoteResults : ThreadReady base [⟨0, .pred⟩] .pred 1 ∧ ThreadReady base [⟨1, .w⟩] .pred 1
    ∧ PortReady fed [⟨101, .w⟩] .pred 1 ∧ ThreadReady base [⟨0, .pred⟩] .pair 2
    ∧ (base.u = false ∧ isS 95 = true ∧ [(⟨31, .pred⟩ : Src)].all (Src.ok false) = true) := by decide +kernel

theorem witness_ReductionResults : ThreadReady base [⟨1, .v⟩] (.w .sign) 3 ∧ PortReady base [⟨1, .v⟩] (.w .zero) 105
    ∧ (base.u = false ∧ isS 64 = true ∧ [(⟨63, .v⟩ : Src)].all (Src.ok false) = true) := by decide +kernel

theorem witness_TreeIsFold : (∀ x y z : Word, (x + y) + z = x + (y + z)) ∧ (∀ x y : Word, x + y = y + x)
    ∧ 6 ∈ [4, 5, 6] ∧ [(0, (1 : Word)), (63, 2)].Pairwise (fun x y => x.1 < y.1)
    ∧ ∀ x ∈ [(0, (1 : Word)), (63, 2)], x.1 < 2 ^ 6 := ⟨BitVec.add_assoc, BitVec.add_comm, by decide⟩

theorem witness_PullAndScanResults : 3 < 4 ∧ ThreadReady base (two 3 1 2) .v 3 ∧ PortReady fed (two 3 101 2) .v 3
    ∧ ThreadReady base [⟨1, .v⟩] .v 63 := by decide +kernel

/-! ### Control and system instructions -/

theorem witness_NopIsyncRegionEnd : (uni base).u = true ∧ (uni base).cur.walking = false := by decide +kernel

theorem witness_BranchResults : 5 < 6 ∧ (uni base).u = true ∧ taken (uni base) 2 = true ∧ taken (uni base) 4 = false := by
  decide +kernel

/-- A state whose window is at its upper end. -/
def high : State := withCur (uni base) fun g => { g with wb := 192, sregs := [(31, 0x10043), (0, 0x8000), (1, 0x8001)] }

theorem witness_CallResults : (uni base).u = true ∧ high.cur.intact = true ∧ canTrap (uni base) ∧ isS 64 = true ∧ (3 : Code).toNat < 4
    ∧ (high.sreg 0 0).toNat % 4 = 0 ∧ (high.sreg 0 1).toNat % 4 ≠ 0
    ∧ (uni base).cur.wb + 16 * 3 + 64 ≤ (uni base).team.wal ∧ ¬high.cur.wb + 16 * 1 + 64 ≤ high.team.wal := by
  unfold canTrap; decide +kernel

theorem witness_ReturnAndWindowBase :
    (high.u = true ∧ high.cur.intact = true ∧ 16 * ((high.sreg 0 31).toNat % 4) ≤ high.cur.wb)
    ∧ (let s := withCur high fun g => { g with wb := 0 }
       s.u = true ∧ s.cur.intact = true ∧ s.cur.wb < 16 * ((s.sreg 0 31).toNat % 4) ∧ canTrap s)
    ∧ (isS 64 = true ∧ (high.sreg 0 0).toNat % 4 = 0 ∧ (high.sreg 0 1).toNat % 4 ≠ 0 ∧ canTrap high)
    ∧ (let w (x : DWord) : State := withCur (uni base) fun g => { g with sregs := [(0, x)] }
       uniformSrc 64 = true ∧ (uni base).cur.intact = true ∧ ((w 192).wide 0 64).toNat % 2 = 0 ∧ 0 ≤ ((w 192).wide 0 64).toInt
         ∧ ((w 192).wide 0 64).toInt + 64 ≤ (w 192).team.wal
         ∧ (canTrap (w 194) ∧ ((w 194).wide 0 64).toNat % 2 = 0 ∧ ((w 194).team.wal : Int) < ((w 194).wide 0 64).toInt + 64)
         ∧ (canTrap (w (-2)) ∧ ((w (-2)).wide 0 64).toNat % 2 = 0 ∧ ((w (-2)).wide 0 64).toInt < 0
            ∧ ((w (-2)).wide 0 64).toInt + 64 ≤ (w (-2)).team.wal)
         ∧ canTrap (w 3) ∧ ((w 3).wide 0 64).toNat % 2 = 1) := by
  unfold canTrap; decide +kernel

theorem witness_UniformCompares : 5 < 6 ∧ (uni base).u = true ∧ (uni base).cur.intact = true ∧ uniformSrc 65 = true ∧ uniformSrc 106 = true := by
  decide +kernel

/-- A group inside its handler. -/
def inside : State := withCur (uni base) fun g => { g with gstat := 8, tpc := 0x10008, tem := 1 }

theorem witness_TrapEntry : ((uni base).u = true ∧ canTrap (uni base))
    ∧ (inside.u = true ∧ inside.cur.intrap = true ∧ inside.cur.id ≠ 0 ∧ inside.team? inside.cur.team = some tm
      ∧ inside.launch? tm.launch = some ln ∧ ln.fault = none ∧ ln.stage ≠ .complete) := by
  unfold canTrap; decide +kernel

theorem witness_ReturnFromTrap : (uni base).u = true ∧ canTrap (uni base) ∧ inside.u = true ∧ inside.cur.intrap = true
    ∧ inside.cur.walking = false ∧ (inside.specialSeen 9 inside.cur.tpc).toNat % 4 = 0 := by
  unfold canTrap; decide +kernel

theorem witness_SpecialRead : isSpecial (0x13F : BitVec 14).toNat = true ∧ base.u = false ∧ isV 3 = true ∧ (uni base).u = true
    ∧ isS 64 = true ∧ PortReady base [] (.w .full) 100 ∧ base.cur.hazards = [] ∧ base.cur.flags = []
    ∧ specialRegisters base ≠ [] := by decide +kernel

theorem witness_SpecialWrite : (uni base).u = true ∧ (uni base).cur.intact = true ∧ uniformSrc 64 = true ∧ isSpecial (0x00B : BitVec 14).toNat = true
    ∧ (0x00B : BitVec 14).toNat ≠ 0x13 ∧ (0x00B : BitVec 14).toNat ≠ 0x14 := by decide +kernel

theorem witness_MaskInstructions : maskRows ≠ [] ∧ (uni base).u = true ∧ (uni base).cur.intact = true ∧ (31 : Code).toNat < 32 ∧ isS (94 : Code).toNat = true
    ∧ (94 : Code).toNat % 2 = 0 := by
  refine ⟨List.cons_ne_nil _ _, ?_⟩; decide +kernel

/-! ### Window spills and fills -/

/-- In the handler for a window overflow that would take the base to 2 in an allotment of 64. -/
def spilling : State :=
  let s := withCur (uni base) fun g =>
    { g with gstat := 8, tcause := 7, tval := 194, wb := 192, wsa := 0x8000, wss := 64, sregs := [(0, 2)] }
  s

/-- In the handler for a window underflow, two entries spilled. -/
def filling : State :=
  withCur (uni base) fun g =>
    { g with gstat := 8, tcause := 8, tval := -2, wb := 0, wsa := 0x8000, wss := 64, wsd := 2, sregs := [(0, 2)] }

def isPlaced : Xlate → Bool
  | .ok _ => true
  | _ => false

theorem exists_of_isPlaced {x : Xlate} (h : isPlaced x = true) : ∃ p, x = .ok p := by
  cases x <;> first | exact ⟨_, rfl⟩ | cases h

/-- The word at an address of a spill area can be reached. -/
def reaches (s : State) (acc : Access) (va : DWord) : Bool :=
  match s.windowXlate acc va with
  | .ok p => !(if acc = .store then s.bankBusy p.pa else s.lineBusy (p.pa / 64))
  | _ => false

theorem reaches_spec {s : State} {acc : Access} {va : DWord} (h : reaches s acc va = true) :
    ∃ p, s.windowXlate acc va = .ok p
      ∧ (if acc = .store then s.bankBusy p.pa = false else s.lineBusy (p.pa / 64) = false) := by
  unfold reaches at h
  split at h
  · next p hp => exact ⟨p, hp, by split at h <;> simp_all⟩
  · cases h

theorem reachable_of {s : State} {acc : Access} {first n : Nat} (h : (spillArea s).1.toNat % 4 = 0 ∧ (spillArea s).2.toNat % 4 = 0
    ∧ (acc = .store → s.cur.count 0 = 0)
    ∧ ∀ l < s.cur.threads.length, ∀ j < n, reaches s acc (spillAddress s l (first + j)) = true) : Reachable s acc first n :=
  ⟨h.1, h.2.1, h.2.2.1, fun l hl j hj => reaches_spec (h.2.2.2 l hl j hj)⟩

theorem witness_WindowSpillAndFill :
    (spilling.u = true ∧ spilling.cur.intact = true ∧ uniformSrc 64 = true ∧ (spilling.wide 0 64).toNat = 2
      ∧ mayMove spilling true 2 ∧ 4 * (spilling.cur.wsd.toNat + 2) ≤ (spillArea spilling).2.toNat
      ∧ Reachable spilling .store spilling.cur.wsd.toNat 2
      ∧ ∀ l < spilling.cur.threads.length, ∀ i ∈ (spilling.cur.lane l).badStack, 2 ≤ i)
    ∧ (filling.u = true ∧ filling.cur.intact = true ∧ uniformSrc 64 = true ∧ (filling.wide 0 64).toNat = 2
      ∧ mayMove filling false 2 ∧ Reachable filling .load (filling.cur.wsd.toNat - 2) 2)
    ∧ isPlaced (filling.windowXlate .load 0x8000) = true
    ∧ (spilling.windowXlate .store 0x8000 = .ok { pa := 0x8000, home := .cached, tbl := [32768, 65536] } ∧ 0x8000 % 4 = 0) := by
  unfold mayMove
  refine ⟨⟨by decide +kernel, by decide +kernel, by decide +kernel, by decide +kernel, by decide +kernel, by decide +kernel,
    reachable_of (by decide +kernel), by decide +kernel⟩,
    ⟨by decide +kernel, by decide +kernel, by decide +kernel, by decide +kernel, by decide +kernel,
      reachable_of (by decide +kernel)⟩, by decide +kernel, by decide +kernel⟩

/-! ### Groups and teams -/

/-- Two groups of one team at the same instruction, the other already there with the operand `x`. -/
def meeting (which : Nat) (x : DWord) (w : Word) : State :=
  let s := uni base
  { s with teams := [{ tm with ngrp := 2, nthr := 4 }],
           others := [{ grp with id := 4, gix := 1, threads := [thr 2 [(1, 1)] 1, thr 3 [] 0], em := 1,
                                 wait := .rendezvous which x w }] }

def tm2 : Team := { tm with ngrp := 2, nthr := 4 }

abbrev Meets (s : State) (t : Team) : Prop :=
  s.cur.intact = true ∧ (0 < s.fresh ∧ (s.groups.map (·.id)).Nodup ∧ ∀ g ∈ s.groups, g.id ≠ 0 ∧ g.id < s.fresh)
    ∧ s.u = true ∧ s.cur.id ≠ 0 ∧ s.cur.live = true ∧ s.cur.intrap = false ∧ s.team? s.cur.team = some t
    ∧ (∀ g ∈ s.teamGroups t.id, g.flights = [] ∧ g.pc = s.cur.pc)
    ∧ (∀ g ∈ s.others, g.team = t.id → g.live = true →
        g.wait.isRendezvous = true ∧ ¬(g.intrap = true ∧ g.tcause.toNat = 9))
    ∧ ∀ c ∈ coresOf t.pspan t.core, s.endRegion.heldLine c t.scope = false

theorem meets_lastToMeet {s : State} {t : Team} (h : Meets s t) : LastToMeet s t := h.2

theorem witness_RillConfiguration : Meets (meeting 2 5 0) tm2 ∧ isS 64 = true
    ∧ (let s := withCur (meeting 2 5 0) fun g => { g with sregs := [(0, 0x8003)] }
       Meets s tm2 ∧ (let x := meetOperand s tm2 (s.sreg 0 0)
       x.toNat < 2 ^ 16 ∧ (x.toNat % 2 ^ 11 = 0 ∨ x.toNat % 2 ^ 11 < s.teamThreads tm2.id) ∧ s.xEmpty tm2.id = true)) := by
  decide +kernel

theorem witness_WidthKept : Meets (meeting 0 16 0) tm2 ∧ uniformSrc 70 = true ∧ (let s := meeting 0 16 0
    let x := meetOperand s tm2 (s.wide 0 70)
    (x = 16 ∨ x = 32 ∨ x = 64) ∧ s.launch.record.gmin ≤ x.toNat
      ∧ s.grantOf tm2 s.launch.record.gmin x.toNat = tm2.gw) := by decide +kernel

/-- A team of one group of 20 threads in the width 32. -/
def wideTeam : Team := { tm with gw := 32, nthr := 20, wal := 64 }

def wideState : State :=
  let s := uni base
  { s with teams := [wideTeam], cur := { grp with threads := (List.range 20).map Thread.new, em := 0xFFFFF } }

theorem witness_WidthGranted_narrower : Meets wideState wideTeam ∧ uniformSrc 70 = true ∧ (let s := wideState
    let x := meetOperand s wideTeam (s.wide 0 70)
    (x = 16 ∨ x = 32 ∨ x = 64) ∧ s.launch.record.gmin ≤ x.toNat ∧ s.grantOf wideTeam s.launch.record.gmin x.toNat = 16
      ∧ ¬wideTeam.gw < 16 ∧ wideTeam.gw ∈ [16, 32, 64]
      ∧ (s.teamGroups wideTeam.id).map (·.gix) = List.range (s.teamGroups wideTeam.id).length
      ∧ ∀ g ∈ s.teamGroups wideTeam.id, g.threads.length ≤ wideTeam.gw) := by decide +kernel

/-- Two groups of 16 that agree in wb and wsd, and ask for the width 32. -/
def merging : State :=
  let s := withCur (meeting 0 32 0) fun g => { g with threads := (List.range 16).map Thread.new, em := 0xFFFF, sregs := [(6, 32)] }
  { s with teams := [{ tm2 with nthr := 18, wal := 64 }] }

def mergeTeam : Team := { tm2 with nthr := 18, wal := 64 }

theorem mergeable_of {k : Nat} {gs : List Group} (h : ∀ i < gs.length, ∀ j < gs.length, i / k = j / k →
    (gs.getD i Group.zero).wb = (gs.getD j Group.zero).wb ∧ (gs.getD i Group.zero).wsd = (gs.getD j Group.zero).wsd) :
    Mergeable k gs := by
  intro i j g g' hi hj hk
  have h1 := List.getElem?_eq_some_iff.mp hi
  have h2 := List.getElem?_eq_some_iff.mp hj
  have := h i h1.1 j h2.1 hk
  rw [List.getD_eq_getElem _ _ h1.1, List.getD_eq_getElem _ _ h2.1, h1.2, h2.2] at this
  exact this

theorem witness_WidthGranted_wider : Meets merging mergeTeam ∧ uniformSrc 70 = true ∧ (let s := merging
    let x := meetOperand s mergeTeam (s.wide 0 70)
    let w := s.grantOf mergeTeam s.launch.record.gmin x.toNat
    (x = 16 ∨ x = 32 ∨ x = 64) ∧ s.launch.record.gmin ≤ x.toNat ∧ w = 32
      ∧ mergeTeam.gw ∈ [16, 32, 64]
      ∧ (s.teamGroups mergeTeam.id).map (·.gix) = List.range (s.teamGroups mergeTeam.id).length
      ∧ (∀ g ∈ s.teamGroups mergeTeam.id, g.threads.length ≤ mergeTeam.gw)
      ∧ Mergeable (32 / mergeTeam.gw) (s.teamGroups mergeTeam.id)) := by
  refine ⟨by decide +kernel, by decide +kernel, by decide +kernel, by decide +kernel, by decide +kernel, by decide +kernel,
    by decide +kernel, by decide +kernel, mergeable_of (by decide +kernel)⟩

theorem witness_Regrouping : Meets (meeting 1 0 0) tm2 ∧ isS 64 = true ∧ (let s := meeting 1 0 0
    s.xEmpty tm2.id = true ∧ 0 < tm2.gw
      ∧ (s.teamGroups tm2.id).map (·.gix) = List.range (s.teamGroups tm2.id).length
      ∧ ∀ g ∈ s.teamGroups tm2.id, g.wb = s.cur.wb ∧ g.wsd = s.cur.wsd ∧ g.threads.length ≤ tm2.gw) := by decide +kernel

abbrev MayRelease (s : State) (scope : Nat) : Prop :=
  s.cur.intact = true ∧ s.cur.walking = false ∧ s.cur.quiet = true
    ∧ (s.biasCmd.getLsbD 2 = false ∧ ∀ e ∈ s.dies, e.2.rebuilding = false ∧ e.2.silent = false) ∧ s.endRegion.heldLine s.cur.core scope = false

theorem mayRelease_releases {s : State} {scope : Nat} (h : MayRelease s scope) : Releases s scope := h.2

/-- A group that waits at barrier 5 for a phase that is over. -/
def barWaiting : State := withCur (uni base) fun g => { g with wait := .bar 5 0xFFFF }

theorem witness_Barriers :
    ((uni base).u = true ∧ (5 : Code).toNat < 6 ∧ (uni base).team? (uni base).cur.team = some tm ∧ 5 < tm.bars.length
      ∧ (uni base).cur.id ≠ 0 ∧ (uni base).cur.live = true ∧ MayRelease (uni base) (uni base).team.scope ∧ (uni base).cur.arrived.contains (5, 0) = false
      ∧ (∀ p : BitVec 16, (uni base).cur.wait ≠ .bar 5 p) ∧ (uni base).cur.loadsQuiet = true
      ∧ (uni base).barNeedsTrapped 5 = false)
    ∧ (barWaiting.cur.wait = .bar 5 0xFFFF ∧ MayRelease barWaiting barWaiting.team.scope ∧ (tm.bars.getD 5 Barrier.zero).phase ≠ 0xFFFF
      ∧ barWaiting.cur.loadsQuiet = true) := by
  refine ⟨⟨by decide +kernel, by decide +kernel, by decide +kernel, by decide +kernel, by decide +kernel, by decide +kernel,
    by decide +kernel, by decide +kernel, nofun, by decide +kernel, by decide +kernel⟩, by decide +kernel⟩

/-- The launch of a cohort. -/
def cohort : State := { uni base with launches := [{ ln with record := { bootRec with coh := 1 } }] }

theorem witness_CohortBarrier :
    (cohort.u = true ∧ cohort.team? cohort.cur.team = some tm ∧ cohort.launch? tm.launch = some cohort.launch
      ∧ cohort.launch.record.coh ≠ 0 ∧ tm.isSuccessor = false ∧ MayRelease cohort cohort.launch.record.coh ∧ cohort.cur.loadsQuiet = true
      ∧ cohort.cbarNeedsTrapped = false ∧ cohort.launch.record.coh < 5)
    ∧ (∀ p, cohort.cur.wait ≠ .cbar p)
    ∧ (let s := withCur cohort fun g => { g with wait := .cbar 7 }
       s.cur.wait = .cbar 7 ∧ s.launch.cphase ≠ 7 ∧ MayRelease s s.launch.record.coh ∧ s.cbarNeedsTrapped = false
         ∧ s.syncOpen s.cur.core < 32) := by
  refine ⟨by decide +kernel, nofun, by decide +kernel⟩

abbrev IsNumbered (s : State) : Prop :=
  0 < s.fresh ∧ (s.groups.map (·.id)).Nodup ∧ ∀ g ∈ s.groups, g.id ≠ 0 ∧ g.id < s.fresh

abbrev CanExit (s : State) : Prop :=
  s.cur.intact = true ∧ s.u = true ∧ s.cur.id ≠ 0 ∧ s.cur.live = true ∧ s.cur.intrap = false ∧ s.cur.flights = [] ∧ s.cur.ppath = 0
    ∧ s.heldLine s.cur.core s.team.scope = false

theorem canExit_mayExit {s : State} (h : CanExit s) : MayExit s := h.2

theorem witness_ExitRetires :
    (let s := { meeting 0 16 0 with teams := [{ tm2 with succ := some 0x8000 }] }
     CanExit s ∧ IsNumbered s ∧ isS 64 = true ∧ s.team? s.cur.team = some { tm2 with succ := some 0x8000 }
       ∧ some (s.sreg 0 0) = some 0x8000 ∧ 1 < (s.teamGroups tm2.id).length)
    ∧ (let s := uni base
       CanExit s ∧ IsNumbered s ∧ isS 95 = true ∧ s.team? s.cur.team = some tm ∧ tm.succ = none ∧ s.sreg 0 31 = 0
         ∧ (s.teamGroups tm.id).length = 1 ∧ s.scratchBusy tm.id = false)
    ∧ (let s := { meeting 0 16 0 with teams := [{ tm2 with succ := some 0 }] }
       CanExit s ∧ s.team? s.cur.team = some { tm2 with succ := some 0 } ∧ (0 : DWord) ≠ s.sreg 0 0) := by decide +kernel

/-- A queue that takes launches of the context 0. -/
def queued : State :=
  { uni base with
    queues := [(0, { Queue.reset with dev := true, en := true, cap := 16, base := 0x9000 })] }

/-- A reading of a record that waits for nothing. -/
def isRead : RecordRead → Bool
  | .wait _ => false
  | _ => true

theorem read_of {x : RecordRead} (h : isRead x = true) (u : State) : x ≠ .wait u := by
  intro e
  subst e
  cases h

theorem reachReady_of {x : HubReach} (h : x.isReady = true) : x = .ready := by
  cases x <;> first | rfl | cases h

/-- Where a record is read, the hub knows the place of its counter. -/
def counterKnown (s : State) (hub ctx : Nat) (va : DWord) : Bool :=
  match s.readRecord hub ctx va with
  | .ok r => (((s.recordTouched hub ctx va).countWaits hub r.desc r.record).isNone)
  | _ => true

theorem counterKnown_spec {s : State} {hub ctx : Nat} {va : DWord} (h : counterKnown s hub ctx va = true) :
    ∀ r, s.readRecord hub ctx va = .ok r → (s.recordTouched hub ctx va).countWaits hub r.desc r.record = none := by
  intro r hr
  simpa [counterKnown, hr] using h

theorem witness_LaunchEnqueues : (queued.u = true ∧ isS 64 = true ∧ queued.cur.count 3 < 63 ∧ MayRelease queued 6
    ∧ (let b := queued.queue ((queued.sreg 0 0).toNat % 128)
       b.takes queued.launch.record.ctx = true ∧ (b.wr - b.rd).toNat < b.cap.toNat ∧ b.base % 8 = 0
         ∧ ((released queued 6).hubReach ((queued.sreg 0 0).toNat % 128 % 2) .store (b.base + 8 * (b.wr.toNat % b.cap.toNat)) 8).isReady = true))
    ∧ ((uni base).u = true ∧ (uni base).cur.count 3 < 63 ∧ MayRelease (uni base) 6
      ∧ ((uni base).queue (((uni base).sreg 0 0).toNat % 128)).takes (uni base).launch.record.ctx = false
      ∧ isRead ((released (uni base) 6).readRecord 0 (uni base).launch.record.ctx ((uni base).sreg 0 0 &&& ~~~127)) = true
      ∧ counterKnown (released (uni base) 6) 0 (uni base).launch.record.ctx ((uni base).sreg 0 0 &&& ~~~127) = true) := by
  refine ⟨?_, ?_⟩ <;> decide +kernel

/-! ### Rills -/

theorem witness_RillStatusAndDrain : fed.u = false ∧ isV 3 = true ∧ isPort 101 = true ∧ fed.rillBlocked fed.em [101 - 100] none = none
    ∧ fed.cur.walking = false
    ∧ ∀ l ∈ fed.lanesOf fed.em, ∀ e ∈ (fed.cur.lane l).queue (101 - 100), e.isFilled = true := by decide +kernel

/-! ### Memory instructions -/

abbrev CanAccess (s : State) (acc : Access) (size : Nat) (d a : Code) (units : DWord) : Prop :=
  ∀ l ∈ accessing s d, (address s a units size l).toNat % size = 0 ∧ canonical (address s a units size l) = true
    ∧ isPlaced (s.xlate acc (address s a units size l)) = true

theorem canAccess_accessible {s : State} {acc : Access} {size : Nat} {d a : Code} {units : DWord}
    (h : CanAccess s acc size d a units) : Accessible s acc size d a units :=
  fun l hl => ⟨(h l hl).1, (h l hl).2.1, exists_of_isPlaced (h l hl).2.2⟩

abbrev MemReady (s : State) (d a : Code) (scope path : Nat) : Prop :=
  s.cur.intact = true ∧ ((isS d.toNat = true → s.u = true) ∧ (isV d.toNat = true ∨ isPort d.toNat = true → s.u = false))
    ∧ (isS a.toNat = true ∨ (isUniform s d = false ∧ isV a.toNat = true ∧ a.toNat % 2 = 0))
    ∧ s.scopeOk scope = true ∧ s.cur.count path < 63

/-- There is room for a synchronisation transaction. -/
abbrev HasSyncRoom (s : State) (acc : Access) (scope size : Nat) (d a : Code) (units : DWord) : Prop :=
  crossing s acc scope size d a units = false ∨ s.syncOpen s.cur.core < 32

theorem syncRoom_of {s : State} {acc : Access} {scope size : Nat} {d a : Code} {units : DWord}
    (h : HasSyncRoom s acc scope size d a units) : SyncRoom s acc scope size d a units := fun _ hc => by
  rcases h with h | h
  · simp [h] at hc
  · exact h

theorem witness_LoadsIntoRegisters :
    (base.issue.pairOk = true ∧ MemReady base 8 4 7 0 ∧ Shape.quad.dstOk (isUniform base 8) 8 = true ∧ isPort 8 = false
      ∧ CanAccess base .load 16 8 4 (offsetUnits (some 0) 2) ∧ HasSyncRoom base .load 7 16 8 4 (offsetUnits (some 0) 2))
    ∧ (MemReady (uni base) 64 66 0 0 ∧ Shape.word.dstOk (isUniform (uni base) 64) 64 = true
      ∧ CanAccess (uni base) .load 1 64 66 (offsetUnits none 31)) := by decide +kernel

theorem witness_LoadsIntoPorts : base.u = false ∧ base.cur.id ≠ 0 ∧ isPort 100 = true ∧ MemReady base 100 4 2 0
    ∧ base.cur.walking = false ∧ base.rillBlocked base.em [] (some 0) = none
    ∧ CanAccess base .load 4 100 4 (offsetUnits none 1) := by decide +kernel

theorem witness_StoresOfRegisters : MemReady base 1 4 5 1 ∧ Shape.word.srcOk (isUniform base 1) 1 = true ∧ storePops .word 1 = []
    ∧ CanAccess base .store 4 1 4 (offsetUnits none 3)
    ∧ (let buf := buffered base 4 5 .word 1 4 (offsetUnits none 3) base.cur.storeBuf
       (buf.filter fun l => !l.committed).length ≤ 32 ∧ buf.length ≤ 32) := by decide +kernel

/-- The places of the stores of a form lie in no table line. -/
def offTables (s t : State) (size : Nat) (d a : Code) (units : DWord) : Bool :=
  (accessing s d).all fun l => match s.xlate .store (address s a units size l) with
    | .ok p => !(translated t .store size d a units).isTable p
    | _ => true

theorem offTables_spec {s t : State} {size : Nat} {d a : Code} {units : DWord} (h : offTables s t size d a units = true) :
    ∀ l ∈ accessing s d, ∀ p, s.xlate .store (address s a units size l) = .ok p →
      (translated t .store size d a units).isTable p = false := by
  intro l hl p hp
  have := List.all_eq_true.mp h l hl
  simpa [hp] using this

theorem witness_StoresOfRegisters_places : offTables base base 4 1 4 (offsetUnits none 3) = true := by decide +kernel

/-- A region that holds 32 lines. -/
def full : State :=
  withCur base fun g => { g with storeBuf := (List.range 32).map fun i =>
    { line := 0x1000 + i, home := .cached, mask := 1, data := 0, scope := 1, tbl := [], after := [], committed := false } }

theorem witness_RegionOverflow : MemReady full 1 4 5 1 ∧ Shape.word.srcOk (isUniform full 1) 1 = true ∧ storePops .word 1 = []
    ∧ (full.cur.intrap = false ∧ full.cur.walking = false) ∧ CanAccess full .store 4 1 4 (offsetUnits none 0)
    ∧ 32 < ((buffered full 4 5 .word 1 4 (offsetUnits none 0) full.cur.storeBuf).filter fun l => !l.committed).length
    ∧ offTables full full 4 1 4 (offsetUnits none 0) = true := by decide +kernel

theorem witness_ReleaseStores : MemReady (uni base) 66 64 7 1 ∧ Shape.pair.srcOk (isUniform (uni base) 66) 66 = true
    ∧ storePops .pair 66 = [] ∧ MayRelease (uni base) 7 ∧ CanAccess (uni base) .store 8 66 64 (offsetUnits none 31)
    ∧ HasSyncRoom (uni base) .store 7 8 66 64 (offsetUnits none 31)
    ∧ (translated (uni base).endRegion .store 8 66 64 (offsetUnits none 31)).heldLine (uni base).cur.core 7 = false
    ∧ isUniform (uni base) 66 = true := by decide +kernel

/-- The same of a pair in the per-thread form, and of the entries of a port. -/
theorem witness_ReleaseStores_forms :
    (base.issue.pairOk = true ∧ MemReady base 1 4 2 1 ∧ Shape.word.srcOk (isUniform base 1) 1 = true ∧ storePops .word 1 = []
      ∧ MayRelease base 2 ∧ CanAccess base .store 4 1 4 (offsetUnits (some 0) 3)
      ∧ HasSyncRoom base .store 2 4 1 4 (offsetUnits (some 0) 3)
      ∧ (translated base.endRegion .store 4 1 4 (offsetUnits (some 0) 3)).heldLine base.cur.core 2 = false)
    ∧ (fed.issue.pairOk = true ∧ MemReady fed 101 4 7 1 ∧ Shape.word.srcOk (isUniform fed 101) 101 = true ∧ fed.cur.id ≠ 0
      ∧ storePops .word 101 = [101 - 100] ∧ fed.rillBlocked fed.em (storePops .word 101) none = none ∧ MayRelease fed 7
      ∧ CanAccess fed .store 4 101 4 (offsetUnits (some 0) 0) ∧ HasSyncRoom fed .store 7 4 101 4 (offsetUnits (some 0) 0)
      ∧ (translated fed.endRegion .store 4 101 4 (offsetUnits (some 0) 0)).heldLine fed.cur.core 7 = false) := by
  decide +kernel

theorem witness_StoresFromPorts : fed.u = false ∧ fed.cur.id ≠ 0 ∧ isPort 101 = true ∧ MemReady fed 101 4 1 1
    ∧ fed.cur.walking = false ∧ fed.rillBlocked fed.em [101 - 100] none = none
    ∧ CanAccess fed .store 2 101 4 (offsetUnits none 0)
    ∧ (buffered fed 2 1 .word 101 4 (offsetUnits none 0) fed.endRegion.cur.storeBuf).length ≤ 32
    ∧ offTables fed fed.endRegion 2 101 4 (offsetUnits none 0) = true := by decide +kernel

theorem witness_AtomicsBegin :
    (MemReady base 2 4 6 0 ∧ Shape.pair.dstOk (isUniform base 2) 2 = true ∧ MayRelease base 6
      ∧ (translated base.endRegion .atomic 8 2 4 (offsetUnits none 0)).heldLine base.cur.core 6 = false
      ∧ CanAccess base .atomic 8 2 4 (offsetUnits none 0) ∧ HasSyncRoom base .atomic 6 8 2 4 (offsetUnits none 0))
    ∧ (MemReady (uni base) 66 64 7 0 ∧ Shape.quad.dstOk (isUniform (uni base) 66) 66 = true ∧ (uni base).cur.walking = false
      ∧ CanAccess (uni base) .atomic 8 66 64 (offsetUnits none 2)
      ∧ HasSyncRoom (uni base) .atomic 7 8 66 64 (offsetUnits none 2)) := by decide +kernel

theorem witness_ScratchpadBegins :
    (let s := withCur base fun g => { g with threads := [thr 0 [(1, 0)] 0, thr 1 [(1, 1532)] 0] }
     s.cur.intact = true ∧ ((isS (8 : Code).toNat = true → s.u = true) ∧ (isV (8 : Code).toNat = true ∨ isPort (8 : Code).toNat = true → s.u = false))
       ∧ isPort (8 : Code).toNat = false ∧ isUniform s 8 = false ∧ isV (1 : Code).toNat = true ∧ s.cur.count 2 < 63
       ∧ (∀ l ∈ accessing s 8, (address s 1 (offsetUnits none 0) 4 l).toNat % 4 = 0
         ∧ (address s 1 (offsetUnits none 0) 4 l).toNat + 4 ≤ s.team.spb)
       ∧ Shape.word.dstOk (isUniform s 8) 8 = true ∧ Shape.word.srcOk (isUniform s 8) 8 = true) := by decide +kernel

theorem witness_AccessTraps :
    (let s := withCur base fun g => { g with threads := [thr 0 [(4, 0x8000)] 0, thr 1 [(4, 0x8002)] 0] }
     MemReady s 8 4 1 0 ∧ s.cur.count 1 < 63 ∧ s.cur.count 2 < 63 ∧ (s.cur.intrap = false ∧ s.cur.walking = false)
       ∧ accessing s 8 = [0] ++ 1 :: [] ∧ Shape.word.dstOk (isUniform s 8) 8 = true ∧ Shape.word.srcOk (isUniform s 8) 8 = true
       ∧ (∀ k ∈ [0], (address s 4 ((1 : BitVec 5).setWidth 64) 4 k).toNat % 4 = 0)
       ∧ (address s 4 ((1 : BitVec 5).setWidth 64) 4 1).toNat % 4 ≠ 0)
    ∧ (let s : State := { base with launches := [{ ln with record := { bootRec with maxsc := 3 } }] }
       (isS (8 : Code).toNat = true → s.u = true) ∧ Shape.word.dstOk (isUniform s 8) 8 = true ∧ isV (4 : Code).toNat = true
         ∧ 1 < (4 : BitVec 3).toNat ∧ s.launch.record.maxsc < (4 : BitVec 3).toNat
         ∧ s.cur.intrap = false ∧ s.cur.walking = false) := by decide +kernel

/-- A region with a line in its buffer, and a dirty copy of another line in the core's L1. -/
def storing : State :=
  let s := withCur (uni base) fun g => { g with storeBuf :=
    [{ line := 0x200, home := .cached, mask := 1, data := 7, scope := 1, tbl := [], after := [], committed := false }] }
  { s with copies := [{ level := 0, unit := 0, line := 0x201, reg := 1, dirty := 2, data := 0x500, poison := false, whole := false,
                        pinned := false }] }

theorem witness_ReleasesPush : 1 ≤ 7 ∧ storing.cur.id ≠ 0 ∧ MayRelease storing 7 ∧ storing.cur.storeBuf ≠ []
    ∧ ∀ l ∈ storing.cur.storeBuf, ∀ f ∈ storing.cur.flights, f.tag ∉ l.after := by decide +kernel

theorem witness_PushedBytesAreSeen :
    let a := Agent.ofCore 0
    let c := storing.copies.headD ⟨0, 0, 0, 0, 0, 0, false, false, false⟩
    2 ≤ 7 ∧ 1 < 64 ∧ storing.inHostBias 0x201 = false ∧ c ∈ storing.pathCopies a 0x201 ∧ c.level < pointLevel 7 ∧ c.reg < 7
      ∧ c.dirty.getLsbD 1 = true ∧ (∀ x ∈ storing.pathCopies a 0x201, x.level < c.level → x.dirty.getLsbD 1 = false)
      ∧ ∀ x ∈ storing.pathCopies a 0x201, x.level = c.level → x = c := by decide +kernel

theorem witness_FencesAndCounterWaits :
    ((uni base).u = true ∧ (uni base).scopeOk 7 = true ∧ (3 : BitVec 2) ≠ 0 ∧ (uni base).cur.ppath &&& 5 = 0
      ∧ MayRelease (uni base) 7 ∧ (uni base).cur.loadsQuiet = true ∧ (uni base).heldLine (uni base).cur.core 7 = false)
    ∧ (isS 67 = true ∧ (5 : BitVec 5).toNat < 6 ∧ (uni base).cur.count 5 ≤ ((uni base).sreg 0 3).toNat
      ∧ (uni base).cur.ppath.getLsbD 5 = false)
    ∧ (let s := withCur (uni base) fun g => { g with flights := [newFlight (uni base) 5 (.long .none [] 0)], sregs := [] }
       (s.sreg 0 3).toNat < s.cur.count 5) := by decide +kernel

/-- The place of 0x8000 in `base`. -/
def place8000 : Placed := { pa := 0x8000, home := .cached, tbl := [32768, 65536] }

theorem witness_ValueWaits :
    ((uni base).u = true ∧ isS 65 = true ∧ isS 64 = true ∧ (uni base).scopeOk 7 = true ∧ (uni base).cur.loadsQuiet = true
      ∧ ((uni base).sreg 1 0 + 8 * offsetUnits none 0).toNat % 8 = 0
      ∧ canonical ((uni base).sreg 1 0 + 8 * offsetUnits none 0) = true
      ∧ (uni base).xlate .load ((uni base).sreg 1 0 + 8 * offsetUnits none 0) = .ok place8000
      ∧ (∀ f ∈ (uni base).cur.flights, f.touches place8000.pa 8 = false)
      ∧ (uni base).syncOpen (uni base).cur.core < 32 ∧ (uni base).cur.intact = true
      ∧ ((uni base).settleVa .load 0x8000).heldLine (uni base).cur.core 7 = false
      ∧ (((uni base).settleVa .load 0x8000).readOwn 7 place8000 8).2 = false
      ∧ (BitVec.ofNat 64 (leNat (((uni base).settleVa .load 0x8000).readOwn 7 place8000 8).1) : DWord) ≠ (uni base).sreg 0 1)
    ∧ (BitVec.ofNat 64 (leNat (((uni base).settleVa .load 0x8000).readOwn 7 place8000 8).1) : DWord) = (uni base).sreg 0 9 := by
  decide +kernel

/-- The uniform form of a prefix pair: bit 12 of both half-words is set. -/
def uniPair : State := { base with issue := { base.issue with half := 0x1000, half2 := 0x1000, len := 2 } }

theorem witness_PrefixPairs :
    ThreadReady base [⟨1, .wide⟩] (.w .full) 3 ∧ ThreadReady base [⟨107, .wide⟩] (.w .full) 127
    ∧ UniformReady uniPair [⟨65, .wide⟩] (.w .full) 64 ∧ PortReady base [⟨1, .wide⟩] (.w .full) 100
    ∧ base.issue.pairOk = true ∧ uniPair.issue.pairOk = true ∧ uniPair.u = true ∧ isS 64 = true
    ∧ uniformSrc 65 = true ∧ base.u = false ∧ isV 3 = true ∧ isV 1 = true ∧ 5 < 6 ∧ base.cur.intact = true
    ∧ (base.cur.intrap = false ∧ base.cur.walking = false)
    ∧ ({ base.issue with half2 := 0x2000 } : IssueSlot).pairOk = false := by decide +kernel

/-! ### The matrix array -/

abbrev Formats (s : State) : Prop :=
  (s.nfSeen.toNat % 16 < 4 ∧ s.nfSeen.toNat % 16 = s.nfSeen.toNat / 16 % 16)
    ∨ (4 ≤ s.nfSeen.toNat % 16 ∧ s.nfSeen.toNat % 16 ≤ 10 ∧ 4 ≤ s.nfSeen.toNat / 16 % 16 ∧ s.nfSeen.toNat / 16 % 16 ≤ 10)

theorem witness_MatrixCells :
    ((uni base).u = true ∧ (uni base).cur.intact = true ∧ (uni base).team? (uni base).cur.team = some tm ∧ tm.ctx ≠ none ∧ (uni base).cur.core % 2 = 0
      ∧ (7 : Code).toNat < 8 ∧ (64 ≤ (66 : Code).toNat ∧ (66 : Code).toNat ≤ 94 ∧ (66 : Code).toNat % 2 = 0)
      ∧ (92 : Code).toNat ≤ 92 ∧ Formats (uni base) ∧ outFormat (uni base) ≤ 10 ∧ (uni base).cur.count 4 < 63
      ∧ (uni base).cur.walking = false ∧ (uni base).rillBlocked (uni base).em [] none = none)
    ∧ (let s := withCur fed fun g => { g with nf := 0x100 }
       s.u = false ∧ s.cur.intact = true ∧ isPort (101 : Code).toNat = true ∧ uniformSrc (106 : Code).toNat = true ∧ 1 ≤ outFormat s ∧ outFormat s ≤ 3
         ∧ s.cur.walking = false ∧ s.rillBlocked s.em [] (some 1) = none ∧ s.rillBlocked s.em [101 - 100] none = none) := by
  decide +kernel

/-- A group that stalls at the cell of a word. -/
def stalled (w : Word) : State := withCur (uni base) fun g => { g with wait := .mtx 5 w none }

abbrev SimpleReady (w : Word) : Prop :=
  IsNumbered (stalled w) ∧ (stalled w).group? 1 = some (stalled w).cur ∧ (stalled w).cur.live = true
    ∧ (stalled w).cur.fault = none ∧ (stalled w).team? (stalled w).cur.team = some tm
    ∧ tm.stopping = false ∧ tm.mtxBusy = none ∧ (stalled w).cur.wait = .mtx 5 w none ∧ isMma w = false
    ∧ (((stalled w).focus 1).oldestCell tm.id).map (·.id) = some 1 ∧ (stalled w).cur.hazards = []
    ∧ (stalled w).cur.intact = true

theorem witness_AcceptedCells : SimpleReady 0xB081C000 ∧ SimpleReady 0xB0A02000 ∧ SimpleReady 0xB1400380 := by
  refine ⟨?_, ?_, ?_⟩ <;> decide +kernel

theorem witness_AcceptedCells_words : decodeWord 0xB081C000 = .ok (.mzero 7)
    ∧ decodeWord 0xB0A02000 = .ok (.mscl 0 64) ∧ decodeWord 0xB1400380 = .ok (.mmov 0 7)
    ∧ isS (64 : Code).toNat = true := by decide +kernel

/-- The same with an output format, queues that can be popped, and rows at 0x8000 and 0x10000; the host's caches hold the page
tables. -/
def tiled (w : Word) (pins : Option (List Nat)) : State :=
  let s := withCur fed fun g => { g with
    wait := .mtx 5 w pins, nf := 0x100, flights := [], sregs := [(0, 0x8000), (1, 1024), (2, 0x10000), (3, 1024)] }
  { s with mem := [], hostLines := [⟨0x200000 / 64, 0x400001, false⟩, ⟨0x400000 / 64, 0x1BB, false⟩] }

abbrev Stalls (w : Word) (pins : Option (List Nat)) (i : Instr) : Prop :=
  let s := tiled w pins
  IsNumbered s ∧ s.group? 1 = some s.cur ∧ s.cur.live = true ∧ s.cur.fault = none ∧ s.team? s.cur.team = some tm
    ∧ tm.stopping = false ∧ tm.mtxBusy = none ∧ s.cur.wait = .mtx 5 w pins ∧ decodeWord w = .ok i
    ∧ ((s.focus 1).oldestCell tm.id).map (·.id) = some 1

theorem stalls_cellReady {w : Word} {pins : Option (List Nat)} {i : Instr} (h : Stalls w pins i) :
    CellReady (tiled w pins) 1 5 w pins i (tiled w pins).cur tm := h

abbrev accepting (w : Word) : State := atCell (tiled w none) 1 w

theorem witness_AcceptedRowMoves :
    ((Stalls 0xB0C0C141 none (.mrd 3 2 65) ∧ uniformSrc 65 = true ∧ 1 ≤ outFormat (accepting 0xB0C0C141) ∧ outFormat (accepting 0xB0C0C141) ≤ 3
       ∧ (accepting 0xB0C0C141).rillBlocked (accepting 0xB0C0C141).em [] none = none ∧ (accepting 0xB0C0C141).cur.intact = true)
     ∧ (Stalls 0xB0D90141 none (.mrd 100 2 65)
       ∧ (accepting 0xB0D90141).rillBlocked (accepting 0xB0D90141).em [] (some 0) = none ∧ (accepting 0xB0D90141).cur.intact = true)
     ∧ (Stalls 0xB0E081C1 none (.mwr 2 3 65) ∧ (accepting 0xB0E081C1).rillBlocked (accepting 0xB0E081C1).em [] none = none)
     ∧ (Stalls 0xB0E0B2C1 none (.mwr 2 101 65) ∧ (accepting 0xB0E0B2C1).rillBlocked (accepting 0xB0E0B2C1).em [1] none = none)) := by
  refine ⟨⟨?_, ?_, ?_, ?_, ?_, ?_⟩, ⟨?_, ?_, ?_⟩, ⟨?_, ?_⟩, ?_, ?_⟩ <;> decide +kernel

def isChecked : MtxChecked → Bool
  | .ok _ _ => true
  | _ => false

theorem exists_of_isChecked {x : MtxChecked} (h : isChecked x = true) : ∃ segs q, x = .ok segs q := by
  cases x <;> first | exact ⟨_, _, rfl⟩ | cases h

abbrev Settled (w : Word) (pins : Option (List Nat)) (i : Instr) : Prop :=
  Stalls w pins i ∧ (atCell (tiled w pins) 1 w).endRegion.cur.count 1 = 0
    ∧ (atCell (tiled w pins) 1 w).endRegion.heldLine (tiled w pins).cur.core 2 = false
    ∧ (tiled w pins).cur.badSources 0 [] (mtxReads i) = false

theorem witness_AcceptedMemoryCells_stores :
    let v := (atCell (tiled 0xB100A100 none) 1 0xB100A100).endRegion.release 2
    Settled 0xB100A100 none (.msto 2 66) ∧ outFormat (atCell (tiled 0xB100A100 none) 1 0xB100A100) ≤ 10
      ∧ isChecked (v.checkRows .store (((rowVas (v.wide 0 66) (v.wide 1 67) 32).zip
            ((List.range 32).map (rowImage tm v.nfSeen 2))).map fun e => (e.1, e.2.1.length))
          (formatAlign (outFormat v))) = true := by decide +kernel

theorem witness_AcceptedMemoryCells_loads :
    let v := (atCell (tiled 0xB120A100 none) 1 0xB120A100).endRegion.release 2
    Settled 0xB120A100 none (.mlda 2 66)
      ∧ isChecked (v.checkRows .load ((rowVas (v.wide 0 66) (v.wide 1 67) 32).map fun va => (va, 1024)) (fun va => aligned va 16))
          = true := by decide +kernel

theorem witness_AcceptedMemoryCells_products : ∀ e ∈ [(0xB000A042, Instr.mma 2 64 66), (0xB020A042, .mmaAcc 2 64 66),
      (0xB040A042, .mmaSacc 2 64 66)],
    Settled e.1 (some []) e.2 ∧ isMma e.1 = true ∧ Formats (atCell (tiled e.1 (some [])) 1 e.1)
      ∧ (atCell (tiled e.1 (some [])) 1 e.1).cellTurn tm e.1 = true := by decide +kernel

theorem witness_AcceptedMemoryCells_rows :
    isChecked (((atCell (tiled 0xB000A042 (some [])) 1 0xB000A042).endRegion.release 2).mmaRows 64 66) = true := by
  decide +kernel

/-- A matrix cell in progress. -/
def inCell (op : MtxOp) : State :=
  let f : Flight := { newFlight base 4 (.mtx op 0) with tag := 6 }
  { withCur (uni base) (fun g => { g with flights := [f], nextTag := 7 }) with
    teams := [{ tm with mtxBusy := some (1, 6), acc := [(3, 1)] }] }

def cellFlight (op : MtxOp) : Flight := { newFlight base 4 (.mtx op 0) with tag := 6 }

theorem witness_RetiredCells : ∀ op ∈ [MtxOp.zero 7, .scale 0 0x3FFF8000000000000000, .move 1 0],
    let s := inCell op
    IsNumbered s ∧ s.group? 1 = some s.cur ∧ s.cur.flight? 6 = some (cellFlight op) ∧ (cellFlight op).kind = .mtx op 0
      ∧ s.team? s.cur.team = some s.team ∧ s.team.mtxBusy = some (1, 6) := by decide +kernel

def emptyRow : MtxRow := { segs := [], old := [], since := 0, poison := [] }

theorem witness_RetiredRowMoves : ∀ op ∈ [MtxOp.read (.v 3 1) [(0, 5), (1, 6)], .write 7 [(0, 1), (64, 2)]],
    let s := inCell op
    IsNumbered s ∧ s.group? 1 = some s.cur ∧ s.cur.flight? 6 = some (cellFlight op) ∧ s.team? s.cur.team = some s.team
      ∧ s.team.mtxBusy = some (1, 6) ∧ ([(0, (1 : A80)), (64, 2)].map (·.1)).Nodup
      ∧ ∀ e ∈ [(0, (1 : A80)), (64, 2)], e.1 < 2048 := by decide +kernel

theorem witness_LoadedAccumulator :
    let s := inCell (.load 3 (List.replicate 32 emptyRow))
    IsNumbered s ∧ s.group? 1 = some s.cur ∧ s.cur.flight? 6 = some (cellFlight (.load 3 (List.replicate 32 emptyRow)))
      ∧ s.team? s.cur.team = some s.team ∧ s.team.mtxBusy = some (1, 6) ∧ (List.replicate 32 emptyRow).length = 32
      ∧ unchanged s (Agent.ofCluster (s.cur.core / 8)) (List.replicate 32 emptyRow) :=
  ⟨by decide +kernel, rfl, rfl, rfl, rfl, rfl, fun r hr => by
    obtain rfl := List.eq_of_mem_replicate hr
    exact ⟨rfl, rfl, rfl, rfl⟩⟩

theorem witness_StoredAccumulator :
    (let op : MtxOp := .store [(⟨0x8000, 0x8000, .cached, 64, []⟩, 5)]
     let s := inCell op
     IsNumbered s ∧ s.group? 1 = some s.cur ∧ s.cur.flight? 6 = some (cellFlight op) ∧ s.team? s.cur.team = some s.team
       ∧ s.team.mtxBusy = some (1, 6) ∧ ∀ e ∈ s.cur.flights, e.path = 0 → e.tag < 6 → e.done = true)
    ∧ 0x8000 % 64 + 64 ≤ 64 := by decide +kernel

theorem witness_MatrixProducts :
    let op : MtxOp := .mma 7 1 0 1 1 (List.replicate 32 emptyRow) (List.replicate 64 emptyRow) []
    let s := inCell op
    IsNumbered s ∧ s.group? 1 = some s.cur ∧ s.cur.flight? 6 = some (cellFlight op) ∧ s.team? s.cur.team = some s.team
      ∧ s.team.mtxBusy = some (1, 6) ∧ (List.replicate 32 emptyRow).length = 32 ∧ (List.replicate 64 emptyRow).length = 64
      ∧ unchanged s (Agent.ofCluster (s.cur.core / 8)) (List.replicate 32 emptyRow ++ List.replicate 64 emptyRow) :=
  ⟨by decide +kernel, rfl, rfl, rfl, rfl, rfl, rfl, fun r hr => by
    have : r = emptyRow := by
      rcases List.mem_append.mp hr with h | h <;> exact List.eq_of_mem_replicate h
    subst this; exact ⟨rfl, rfl, rfl, rfl⟩⟩

/-! ### Engine instructions -/

theorem witness_CommandsEnqueued : 5 ≤ (7 : BitVec 3).toNat ∧ (uni base).u = true ∧ isS (64 : Code).toNat = true
    ∧ isS (66 : Code).toNat = true ∧ isS (92 : Code).toNat = true ∧ (92 : Code).toNat ≤ 92 ∧ (uni base).scopeOk 7 = true
    ∧ (uni base).cur.count 3 < 63 ∧ MayRelease (uni base) 7
    ∧ ((uni base).wide 0 64).toNat % 8 = 0 ∧ canonical ((uni base).wide 0 64) = true
    ∧ (uni base).xlate .atomic ((uni base).wide 0 64) = .ok place8000
    ∧ ((uni base).wide 1 66).toNat % 64 = 0 ∧ canonical ((uni base).wide 1 66) = true
    ∧ ((uni base).settleVa .atomic ((uni base).wide 0 64)).xlate .load ((uni base).wide 1 66)
        = .ok { place8000 with pa := 0x8040 }
    ∧ ((((uni base).endRegion.settleVa .atomic ((uni base).wide 0 64)).settleVa .load ((uni base).wide 1 66)).heldLine
        (uni base).cur.core 7) = false
    ∧ (uni base).queued true (engineUnit true (uni base).cur.core) < 256
    ∧ (uni base).queued false (engineUnit false (uni base).cur.core) < 64 := by decide +kernel

/-- A publish descriptor at 0x8000: one page of 2 MiB at 0x20_0000, frames at 0x80_0000 and 0xA0_0000, scope CORE. -/
def publishing : State :=
  { uni base with mem := [(0x8002, 0x20), (0x800A, 0x80), (0x8012, 0xA0), (0x8018, 1), (0x801C, 0x12)] ++ tables }

theorem witness_RegionsPublished :
    let s := publishing
    let va := s.wide 0 64
    let here := Agent.ofCore s.cur.core
    let u := s.endRegion.settleVa .load va
    let desc := u.ownPub place8000
    let r := u.release desc.scope
    let plan := r.pubPlan here desc
    s.u = true ∧ s.cur.intact = true ∧ isS (64 : Code).toNat = true ∧ s.cur.count 3 < 63 ∧ s.cur.walking = false
      ∧ s.cur.quiet = true ∧ va.toNat % 64 = 0 ∧ canonical va = true
      ∧ s.endRegion.xlate .load va = .ok place8000 ∧ place8000.pa % 64 = 0 ∧ desc.ok = true ∧ s.scopeOk desc.scope = true
      ∧ u.pubPoison here desc = none ∧ u.heldLine s.cur.core desc.scope = false
      ∧ r.linesInUse (plan.map fun e => e.1 / 64) = false ∧ (plan.map fun e => 64 * r.homeKey (e.1 / 64) + e.1 % 64).Nodup
      ∧ (place8000.pa / 64 < desc.inactive / 64 ∨ (desc.inactive + desc.length) / 64 ≤ place8000.pa / 64)
      ∧ plan ≠ [] ∧ (∀ e ∈ plan, e.1 % 8 = 0
          ∧ (e.1 / 64 < desc.inactive / 64 ∨ (desc.inactive + desc.length) / 64 ≤ e.1 / 64) ∧ e.1 / 64 ≠ place8000.pa / 64) := by
  decide +kernel

theorem witness_WindowsLanded :
    (let s := withCur (uni base) fun g => { g with sregs := [(0, 0x8000), (1, 0x400000FFFF)] }
     s.u = true ∧ s.cur.intact = true ∧ isS (64 : Code).toNat = true ∧ isS (65 : Code).toNat = true ∧ s.cur.count 3 < 63 ∧ s.cur.walking = false
       ∧ (s.wide 0 64).toNat % 64 = 0 ∧ (s.wide 1 65).toNat / 2 ^ 16 % 2 ^ 16 = 0 ∧ (s.wide 1 65).toNat / 2 ^ 32 ≠ 0
       ∧ (s.wide 1 65).toNat / 2 ^ 32 % 64 = 0 ∧ (s.landings.filter fun e => e.cluster == s.cur.core / 8).length < 64
       ∧ ∀ e ∈ s.landings, e.cluster = s.cur.core / 8 → e.tag ≠ (s.wide 1 65).toNat % 2 ^ 16)
    ∧ (let s := withCur publishing fun g => { g with sregs := [(0, 0x8000), (1, 0x1FFFF)] }
       let va := s.wide 0 64
       let desc := (s.endRegion.settleVa .load va).ownPub place8000
       s.u = true ∧ s.cur.intact = true ∧ s.cur.count 3 < 63 ∧ s.cur.walking = false ∧ va.toNat % 64 = 0
         ∧ (s.wide 1 65).toNat / 2 ^ 16 = 1 ∧ canonical va = true ∧ s.endRegion.xlate .load va = .ok place8000 ∧ desc.ok = true
         ∧ s.scopeOk desc.scope = true ∧ (s.landings.filter fun e => e.cluster == s.cur.core / 8).length < 64
         ∧ ∀ e ∈ s.landings, e.cluster = s.cur.core / 8 → e.tag ≠ (s.wide 1 65).toNat % 2 ^ 16)
    ∧ (let s : State := { uni base with
         landings := [{ cluster := 0, tag := 0x8000, launch := 3, shadow := false, va := 0x9000, length := 64 }] }
       s.u = true ∧ s.cur.walking = false ∧ s.cur.count 3 < 63 ∧ s.cur.intact = true
         ∧ (∀ c ∈ s.commands, c.launch = s.team.launch → c.landing (s.cur.core / 8) ((s.wide 0 64).toNat % 2 ^ 16) = false)
         ∧ ∃ e ∈ s.landings,
         e.cluster = s.cur.core / 8 ∧ e.tag = (s.wide 0 64).toNat % 2 ^ 16 ∧ e.launch = s.team.launch) := by decide +kernel

/-! ### Operations in flight -/

/-- The group with one operation in flight. -/
def flying (path : Nat) (k : FlightKind) : State :=
  withCur (uni base) fun g => { g with flights := [{ newFlight base path k with tag := 6 }], nextTag := 7 }

def flight (path : Nat) (k : FlightKind) : Flight := { newFlight base path k with tag := 6 }

/-- One lane's access to 0x8000. -/
def access (lane : Nat) : LaneAcc :=
  { lane := lane, va := 0x8000, pa := 0x8000, home := .cached, opnd := 5, opnd2 := 0, fwd := [none, none, none, none],
    tbl := [32768, 65536] }

abbrev InFlight (s : State) (f : Flight) : Prop :=
  IsNumbered s ∧ s.group? 1 = some s.cur ∧ s.cur.flight? 6 = some f ∧ f.walking = false

theorem witness_LoadsReturn :
    let k : FlightKind := .load 4 (.v 3 1) 7 true false [access 0, access 1]
    InFlight (flying 0 k) (flight 0 k) ∧ ((flying 0 k).focus 1).canReturn (flight 0 k) 2 = true
      ∧ ((flying 0 k).focus 1).answered (flight 0 k) 7 false (pickLanes 2 [access 0, access 1]) = true
      ∧ pickLanes 1 [access 0] = [access 0] ∧ ([(0, 1)].map (·.1)).Nodup := by decide +kernel

theorem witness_AtomicsReturn :
    let k : FlightKind := .atomic .add 4 (.v 3 1) 7 false [access 0]
    let s := flying 0 k
    InFlight s (flight 0 k) ∧ pickLanes 1 [access 0] = [access 0] ∧ (s.focus 1).canReturn (flight 0 k) 1 = true
      ∧ (s.focus 1).answered (flight 0 k) 7 true (pickLanes 1 [access 0]) = true
      ∧ (s.focus 1).tableLinesOf 7 (pickLanes 1 [access 0]) = [] ∧ (access 0).pa % 64 + 4 ≤ 64 := by decide +kernel

theorem witness_TableAtomicsReturn :
    let k : FlightKind := .returned .add 4 (.v 3 1) 7 false [(0, 5)] [512] [access 1]
    InFlight (flying 0 k) (flight 0 k) ∧ (flying 0 k).linesInUse [5] = false ∧ ([(0, 5)].map (·.1)).Nodup := by decide +kernel

theorem witness_StoresAcknowledged :
    InFlight (flying 1 (.store [5] true)) (flight 1 (.store [5] true)) ∧ (flying 1 (.store [5] true)).linesInUse [5] = false := by
  decide +kernel

theorem witness_ScratchpadPerformed :
    (let k : FlightKind := .sload 4 (.v 3 1) [(0, 8), (1, 12)]
     InFlight (flying 2 k) (flight 2 k) ∧ (flying 2 k).cur.scratchWaits (flight 2 k) 1 = false
       ∧ (flying 2 k).team? (flying 2 k).cur.team = some tm ∧ ∃ e ∈ [(0, 8), (1, 12)], (1 : LaneMask).getLsbD e.1 = true)
    ∧ (let k : FlightKind := .sstore 4 [(1, (1532, (5, 0)))]
       InFlight (flying 2 k) (flight 2 k) ∧ (flying 2 k).cur.scratchWaits (flight 2 k) 2 = false
         ∧ (2 : LaneMask).getLsbD 1 = true) := by decide +kernel

theorem witness_LongResultsReturn :
    let k : FlightKind := .long (.v 3 1) [(0, 5), (1, 6)] 3
    InFlight (flying 5 k) (flight 5 k) ∧ (flight 5 k).path = 5
      ∧ ∀ h ∈ (flying 5 k).cur.older 6, h.path = 5 → h.done = true := by decide +kernel

/-! ### Groups that stall -/

theorem witness_RillEntriesFill :
    let s := withCur base fun g => { g with threads := [{ thr 0 [] 0 with zm := [.filled 1, .ready 7, .ready 8] }] }
    IsNumbered s ∧ s.group? 1 = some s.cur ∧ 0 < s.cur.threads.length ∧ 5 < 6
      ∧ (s.cur.lane 0).queue 5 = [.filled 1] ++ .ready 7 :: [.ready 8] ∧ ∀ e ∈ [RillEntry.filled 1], e.isFilled = true := by
  decide +kernel

abbrev Stalled (s : State) : Prop := IsNumbered s ∧ s.group? 1 = some s.cur ∧ s.cur.live = true

theorem witness_StallsEnd :
    (let s := withCur (uni base) fun g => { g with wait := .rill 5 }
     Stalled s ∧ s.cur.wait = .rill 5 ∧ s.cur.intrap = false ∧ s.cur.walking = false)
    ∧ (let s := withCur (uni base) fun g => { g with wait := .waitv 512 7 true true }
       Stalled s ∧ s.cur.wait = .waitv 512 7 true true)
    ∧ (let s := withCur (uni base) fun g => { g with wait := .waitv 512 1 false true }
       Stalled s ∧ s.cur.wait = .waitv 512 1 false true) := by decide +kernel

theorem witness_StallsEnd_watchdog :
    (let s := withCur (uni base) fun g => { g with watchdog := 2 ^ 24 }
     Stalled s ∧ s.cur.fault = none ∧ s.cur.intrap = false ∧ s.cur.walking = false ∧ 2 ^ 24 ≤ s.cur.watchdog)
    ∧ (let s := { withCur (meeting 0 16 0) (fun g => { g with wait := .rendezvous 0 16 0 }) with
         others := [{ grp with id := 4, gix := 1, gstat := 8, tcause := 9 }] }
       Stalled s ∧ s.cur.fault = none ∧ s.cur.intrap = false ∧ s.cur.walking = false ∧ s.cur.wait = .rendezvous 0 16 0
         ∧ s.cur.watchdog < 2 ^ 24 ∧ s.watchdogIn s.cur = true)
    ∧ (let s := withCur (uni base) fun g => { g with flights := [{ newFlight base 0 (.store [] false) with walking := true, fva := 9 }] }
       Stalled s ∧ s.cur.flight? 0 = some { newFlight base 0 (.store [] false) with walking := true, fva := 9 }
         ∧ s.team? s.cur.team = some tm ∧ s.launch? tm.launch = some ln) := by decide +kernel

/-! ### The pipe -/

/-- Two groups of one pipe that come to a NOP; the first has held the pipe for 32 cycles. -/
def sharing : State :=
  { uni base with
    mem := [(0x10002, 0x20), (0x20001, 0x10)] ++ tables, others := [{ grp with id := 4, gix := 1 }],
    pipes := [(grp.pipeKey, (1, 32))] }

theorem witness_PipePasses : sharing.u = true ∧ IsNumbered sharing ∧ sharing.cur.id ≠ 0
    ∧ sharing.group? 4 = some { grp with id := 4, gix := 1 } ∧ sharing.eligible { grp with id := 4, gix := 1 } = true
    ∧ sharing.group? 1 = some sharing.cur ∧ (uni base).eligible (uni base).cur = true := by decide +kernel

/-- The run of the group in focus is over, and another group of its pipe is ready. -/
def runOut (s : State) : Bool :=
  match s.fetchInstr with
  | .ok w slot t =>
    let u := t.begin w slot
    u.waitsOn.isNone && u.waitsBar.isNone && u.pastRun u.cur u.issue && !(u.rivals u.cur).isEmpty
  | .stop _ => false

theorem witness_RunsEnd : sharing.canIssue sharing.cur = true ∧ sharing.before.isNone = true ∧ runOut sharing = true := by
  decide +kernel

/-! ### Caches and buffers -/

def entry : WriteEntry :=
  { core := 0, group := 1, line := 0x207, home := .cached, mask := 0xFF, data := 7, scope := 1, tbl := [], after := [] }

theorem witness_BufferDrains :
    let s : State := { base with writeBuf := [entry] }
    (s.writeBuf.find? fun w => w.core == 0 && w.line % 8 == 7) = some entry ∧ s.freeToDrain entry = true
      ∧ s.drainWay entry = true ∧ (Agent.ofCore entry.core).unit 0 = some 0 ∧ s.hasWay 0 0 entry.line = true := by decide +kernel

theorem witness_LinesFill :
    let s := flying 0 (.load 4 (.v 3 1) 6 false false [access 0])
    (Agent.ofCore 0).unit 2 = some 0 ∧ 2 ≤ pointLevel 6 ∧ 1 ≤ 6 ∧ s.inHostBias 512 = false ∧ s.missOf 0 2 0 512 6 = true
      ∧ (s.makeRoom (Agent.ofCore 0) 2 512).hasWay 2 0 512 = true ∧ s.hasWay 2 0 512 = true ∧ s.pinnedLine 512 = false
      ∧ s.heldUp false (dieOf 0) 6 512 = false ∧ s.copies = [] := by
  decide +kernel

def copy (level : Nat) : Copy :=
  { level := level, unit := 0, line := 512, reg := if level = 0 then 1 else 6, dirty := 3, data := 9, poison := false,
    whole := false, pinned := false }

theorem witness_CopiesEvicted : ∀ level ∈ [0, 2],
    let s : State := { base with copies := [copy level] }
    level < 3 ∧ s.moveInput.stays = 0 ∧ s.copies.find? (fun x => x.level == level && x.unit == 0 && x.line == 512) = some (copy level)
      ∧ s.pinnedCopy (copy level) = false ∧ (copy level).reg < outwardScope level
      ∧ s.heldUp true (unitDie level 0) (outwardScope level) 512 = false
      ∧ (level = 2 ∨ (s.roomBeyond (copy level)).hasWay (level + 1) (if level = 1 then 0 / 4 else 0 / 8) 512 = true)
      ∧ (copy level).dirty.getLsbD 1 = true := by decide +kernel

/-- Two L1 copies of a line in one cluster, both dirty at byte 1, and an input by which the first's byte 1 arrives last. -/
def meetingCopies : State :=
  { base with copies := [copy 0, { copy 0 with unit := 1, dirty := 6 }],
              inputs := [{ first := 0, count := 0, stays := 2, skipped := false, poison := false, page := none }] }

theorem witness_CopiesPushTogether : let s := meetingCopies
    let c := copy 0
    let x : Copy := { copy 0 with unit := 1, dirty := 6 }
    0 < 3 ∧ s.moveInput.stays ≠ 0 ∧ s.copies.find? (fun y => y.level == 0 && y.unit == 0 && y.line == 512) = some c
      ∧ s.copies.filter (fun y => c.pushesWith y && s.evictable y) = [x] ∧ s.evictable c = true ∧ c.reg < outwardScope 0
      ∧ x.reg < outwardScope 0 ∧ (∀ y ∈ s.copies, y.line = 512 → y.dirty ≠ 0 → y = c ∨ y = x)
      ∧ (c.dirty.getLsbD 1 = true ∧ s.moveInput.stays.getLsbD 1 = true)
      ∧ (x.dirty.getLsbD 2 = true ∧ c.dirty.getLsbD 2 = false) := by decide +kernel

theorem witness_DirectoriesEvict :
    let s : State := { base with copies := [{ copy 0 with dirty := 0, reg := 6 }] }
    (∃ c ∈ s.copies, c.line = 512 ∧ dirRecords 1 0 c = true) ∧ s.linePinned 512 = false
      ∧ s.hasWay 1 0 512 = true ∧ ∀ c ∈ s.copies, c.line = 512 → dirRecords 1 0 c = true → c.dirty = 0 := by decide +kernel

/-- A directory that recalls a dirty copy. -/
theorem witness_DirectoriesEvict_dirty :
    let s : State := { base with copies := [{ copy 0 with reg := 6 }] }
    (∃ c ∈ s.copies, c.line = 512 ∧ dirRecords 1 0 c = true) ∧ s.linePinned 512 = false
      ∧ ∀ c ∈ s.copies, c.line = 512 → s.heldUp true (unitDie c.level c.unit) (if 3 ≤ 1 then 7 else dirScope 1) 512 = false := by
  decide +kernel

/-- A migration descriptor at 0x8000: new frame 0x80_0000, old frame 0xA0_0000; line 63 of the page is wanted. -/
def pulling : State :=
  { base with mem := [(0x8002, 0x80), (0x800A, 0xA0)] ++ tables, pulls := [(0x8000, (63, .cached))] }

theorem witness_LinesPulled :
    let s := pulling
    let d := s.migDesc 0x8000 12
    (s.pulls.find? fun p => p.1 == 0x8000 && p.2.1 == 63) = some (0x8000, (63, .cached))
      ∧ s.homeKey ((d.new + 64 * 63) / 64) ≠ s.homeKey ((0x8000 + 64 + 63 / 8) / 64)
      ∧ s.homeKey ((d.new + 64 * 63) / 64) ≠ s.homeKey (0x8000 / 64)
      ∧ s.homeKey ((0x8000 + 64 + 63 / 8) / 64) ≠ s.homeKey (0x8000 / 64) ∧ 0x8000 % 64 = 0 ∧ s.pullFree 0x8000 63 = true ∧ d.poisoned = false ∧ (s.validByte 0x8000 63).2 = false := by
  decide +kernel

/-! ### Faults -/

def frec : FaultRec :=
  { ctx := 0, fqa := 0x8000, sig := 1, ivec := 4, va := 0x77, pc := 0x10000, tid0 := 0, tix := 0, seq := 3, kind := 0, info := 0 }

/-- A fault queue of 64 entries at 0x8000. -/
def faulting : State := { base with hostLines := [⟨0x8000 / 64, 64, false⟩], faultRecs := [frec] }

theorem witness_FaultRecordsAppended : faulting.faultRecs = [] ++ frec :: [] ∧ frec.ctx = 0
    ∧ (faulting.ringHeader frec.fqa).hasRoom = true ∧ frec.fqa % 64 = 0
    ∧ (let h := faulting.ringHeader frec.fqa
       let entry := frec.fqa + 64 + 32 * (h.wr.toNat % h.cap)
       faulting.homeKey (entry / 64) ≠ faulting.homeKey (frec.fqa / 64)
         ∧ (faulting.hubReachAll 0 [(.load, (frec.fqa, 64)), (.store, (entry, 32)), (.store, (frec.fqa + 4, 4))]).isReady
             = true) := by decide +kernel

/-- A reply area of 64 entries at 0x9000 with one reply, and the group parked on fault 3. -/
def answered (act : Byte) : State :=
  { withCur (uni base) (fun g => { g with fault := some ⟨0x77, 3, false⟩ }) with
    launches := [{ ln with desc := { bootDesc with rpa := 0x9000 } }],
    hostLines := [⟨0x9000 / 64, 64 + 2 ^ 32, false⟩, ⟨0x9040 / 64, 3 + 2 ^ 16 * act.setWidth 512, false⟩] }

abbrev Answers (act : Byte) (seq : BitVec 16) : Prop :=
  IsNumbered (answered act) ∧ (answered act).ctxResident 0 = true
    ∧ ((answered act).takeReply 0).map (·.1.ok) = some true ∧ ((answered act).takeReply 0).map (·.1.seq) = some seq
    ∧ ((answered act).takeReply 0).map (·.1.act) = some act.toNat
    ∧ (answered act).parkedOn 0 seq = [(answered act).cur] ∧ (answered act).cur.fault = some ⟨0x77, 3, false⟩
    ∧ (answered act).team? (answered act).cur.team = some tm
    ∧ ((answered act).launch? tm.launch).map (·.fault) = some none
    ∧ ((answered act).launch? tm.launch).map (·.stage) = some .running
    ∧ (answered act).cur.intrap = false ∧ (answered act).cur.walking = false

theorem witness_RepliesApplied : Answers 0 3 ∧ Answers 1 3 ∧ Answers 2 3 := by
  refine ⟨?_, ?_, ?_⟩ <;> decide +kernel

theorem witness_RepliesLost :
    let s := withCur (answered 0) fun g => { g with fault := none }
    s.ctxResident 0 = true ∧ s.replyArea 0 = some 0x9000 ∧ 0x9000 % 64 = 0 ∧ (s.takeReply 0).map (fun r => s.matched 0 r.1) = some false := by
  decide +kernel

/-! ### Engine commands -/

def cmd : Command :=
  { id := 8, cascade := false, unit := 0, core := 0, scope := 6, launch := 3, team := 2, tix := 0, group := 1, ctr := 0x8000,
    recva := 0x8040, dense := 0x9000, coord := [0, 0, 0, 0, 0], tag := 0, peer := 0, stage := .queued, shape := none,
    errors := 0, skipped := false, beyond := false, poisoned := false, box := [], skip := [], fault := none,
    deliveries := [], todo := [], prep := none }

/-- A box of one word at 0xA000. -/
def shapeOf (op rop : Nat) : ShapeRec :=
  { pmask := 0, extent := [1, 1, 1, 1, 1], stride := [0, 0, 0, 0], size := [1, 0, 0, 0, 0], padval := 0, padsel := false,
    spd := false, shadow := false, rop := rop, ndim := 1, esz := 2, op := op, aux := 0, base := 0xA000, clean := true }

def commanded (c : Command) : State := { uni base with commands := [c] }

theorem witness_RecordsRead : IsNumbered (commanded cmd) ∧ (commanded cmd).command? 8 = some cmd ∧ cmd.stage = .queued
    ∧ cmd.fault = none ∧ cmd.skip.contains cmd.recva = false
    ∧ (commanded cmd).partyXlate cmd.agent ((commanded cmd).launchOf cmd) .load cmd.recva
        = .ok { place8000 with pa := 0x8040 }
    ∧ (commanded cmd).partyHeld cmd.agent false cmd.scope 0x201 = false ∧ ((commanded cmd).peerReach cmd).waits = none := by decide +kernel

/-- A command whose record has been read. -/
def moving (op rop : Nat) : Command := { cmd with stage := .read, shape := some (shapeOf op rop), todo := [(0, 1)] }

/-- One element read at `x` and written at `y`. -/
def oneElement (x y : Nat) : List (Spot × Spot) := [(.mem (BitVec.ofNat 64 x) x .cached, .mem (BitVec.ofNat 64 y) y .cached)]

abbrev BoxReady (op rop x y : Nat) : Prop :=
  let c := moving op rop
  let s := commanded c
  s.command? 8 = some c ∧ c.cascade = false ∧ c.stage = .read ∧ c.fault = none ∧ c.shape = some (shapeOf op rop)
    ∧ s.takeElems c.todo = ([0], []) ∧ s.sides c (shapeOf op rop) none [] [0] = oneElement x y
    ∧ firstBlock ((oneElement x y).map (·.1)) = none ∧ firstBlock ((oneElement x y).map (·.2)) = none ∧ 2 ≤ c.scope
    ∧ y % 64 + (shapeOf op rop).esize ≤ 64
    ∧ Unheld s c ((oneElement x y).map (·.1) ++ (oneElement x y).map (·.2))

theorem witness_BoxesMoved : BoxReady 0 0 0xA000 0x9000 ∧ BoxReady 1 0 0x9000 0xA000 ∧ BoxReady 4 1 0x9000 0xA000
    ∧ RunnelOp (.runnelRedstore 8) 8 4 :=
  ⟨by unfold BoxReady Unheld; decide +kernel, by unfold BoxReady Unheld; decide +kernel, by unfold BoxReady Unheld; decide +kernel, .inr (.inr (.inr (.inr ⟨rfl, rfl⟩)))⟩

theorem witness_BoxesMoved_prepared : (match (commanded (moving 1 0)).prepare (moving 1 0) (shapeOf 1 0) with
    | .ok x y => x = none ∧ y = []
    | _ => False) := ⟨rfl, rfl⟩

/-- A multicast to cluster 63 and its delivery. -/
def casting : Command :=
  { cmd with cascade := true, scope := 7, stage := .read, shape := some { shapeOf 8 0 with aux := 2 ^ 63 }, tag := 5 }

theorem witness_DeliveriesBegin :
    let s := commanded casting
    let h := { shapeOf 8 0 with aux := 2 ^ 63 }
    h.op = 8 ∧ s.command? 8 = some casting ∧ casting.cascade = true ∧ casting.stage = .read ∧ casting.fault = none
      ∧ casting.shape = some h ∧ casting.peer = 0
      ∧ firstBlock ((List.range h.count).map fun n => s.stridedSpot casting.agent (s.launchOf casting) casting h none [] .load n)
          = none
      ∧ Unheld s casting ((List.range h.count).map fun n =>
          s.stridedSpot casting.agent (s.launchOf casting) casting h none [] .load n) := by
  unfold Unheld; decide +kernel

def parcel : Delivery := { cluster := 63, stage := .sending, msg := 0, seq := 0, unacked := [], todo := [(0, 1)], pub := none }

def delivering : Command :=
  { casting with stage := .moved, dense := 64, box := [some ([1, 2, 3, 4], false)], deliveries := [parcel] }

def window : Landing := { cluster := 63, tag := 5, launch := 3, shadow := false, va := 0xC000, length := 128 }

theorem witness_DeliveriesLand :
    (let s := commanded delivering
     s.command? 8 = some delivering ∧ delivering.delivery? 63 = some parcel ∧ parcel.stage = .sending ∧ delivering.fault = none
       ∧ delivering.peer = 0 ∧ (s.takeElems parcel.todo).1 ≠ [] ∧ (s.landings.find? fun e => e.cluster == 63 && e.tag == 5 && e.launch == 3) = none)
    ∧ (let s : State := { commanded delivering with landings := [window] }
       let l := s.launchOf delivering
       (s.landings.find? fun e => e.cluster == 63 && e.tag == delivering.tag && e.launch == delivering.launch) = some window
         ∧ window.shadow = false ∧ s.clusterAlive 63 = true ∧ 8 ≤ delivering.dense.toNat
         ∧ delivering.dense.toNat + (shapeOf 8 0).total ≤ window.length ∧ (s.launch? window.launch).isSome = true
         ∧ firstBlock [s.windowSpot delivering.agent l delivering.skip window.va none .store 64 4] = none
         ∧ (s.takeElems parcel.todo).1 = [0] ∧ (delivering.box[0]?).join = some ([1, 2, 3, 4], false)
         ∧ Unheld s delivering [s.windowSpot delivering.agent l delivering.skip window.va none .store 64 4, .mem 0xC000 0xC000 .cached]
         ∧ s.spotAt delivering.agent l delivering.skip .atomic 8 window.va = .mem 0xC000 0xC000 .cached
         ∧ 2 ≤ delivering.scope) := by
  unfold Unheld; decide +kernel

theorem witness_CommandsEnd :
    let c := { moving 1 0 with stage := .moved, errors := 1, skipped := true }
    let s := commanded c
    s.command? 8 = some c ∧ c.stage = .moved ∧ c.fault = none ∧ (∀ d ∈ c.deliveries, d.stage = .landed ∨ d.stage = .refused)
      ∧ 2 ≤ c.scope ∧ s.spotAt c.agent (s.launchOf c) c.skip .atomic 8 c.ctr = .mem 0x8000 0x8000 .cached
      ∧ Unheld s c [.mem 0x8000 0x8000 .cached] := by
  unfold Unheld; decide +kernel

/-! ### Ultra Ethernet -/

/-- One peer at the address 9 without a key, path 0 on port 0, tags from 0; a window of tag 5 in cluster 0. -/
def networked : State :=
  { uni base with
    peerBase := 0xE000, peerCnt := 1, landings := [{ window with cluster := 0 }],
    hostLines := [⟨0xE000 / 64, BitVec.ofNat 512 (1 + 9 * 2 ^ 128 + 0xFFFF * 2 ^ 272 + 2 ^ 288), false⟩] }

def packet : UetPacket :=
  { hub := 0, source := 9, msg := 1, cluster := 0, tag := 5, base := 8, size := 4, off := 0, data := [1, 2, 3, 4], poison := false,
    rop := 0, esz := 0, prot := false, said := 0, pn := 0, auth := 0 }

def cellPlaces (s : State) (va : DWord) (n : Nat) : List Spot :=
  (packetElems packet).map fun x => s.windowSpot (Agent.ofHub 0) ln [] va none .store x.1 n

/-- The peer's entry names the key 1, whose association receives, under another number than the packet's. -/
def keyed : State :=
  { networked with
    saBase := 0xF000, saCnt := 1,
    hostLines := [⟨0xE000 / 64, BitVec.ofNat 512 (1 + 2 ^ 64 + 9 * 2 ^ 128 + 0xFFFF * 2 ^ 272 + 2 ^ 288), false⟩,
                  ⟨0xF000 / 64, BitVec.ofNat 512 0, false⟩] }

theorem witness_PacketsDropped :
    (let p := { packet with prot := true }
     p.prot = true ∧ ((networked.peer (networked.senderOf p.source)).map (·.key)).getD 0 = 0)
    ∧ (packet.prot = false ∧ ((keyed.peer (keyed.senderOf packet.source)).map (·.key)).getD 0 ≠ 0)
    ∧ (let p := { packet with prot := true }
       let key := ((keyed.peer (keyed.senderOf p.source)).map (·.key)).getD 0
       p.prot = true ∧ key ≠ 0 ∧ ((keyed.assoc key).map fun a => a.ok && a.rx) ≠ some true) := by decide +kernel

theorem witness_PacketsArrive :
    networked.senderOf packet.source = 1 ∧ ((networked.peer 1).map (·.key)).getD 0 = 0 ∧ packet.prot = false
      ∧ (windowFor networked.uetMsgs 1).stale packet.msg packet.off = false
      ∧ networked.landingFor 1 packet.cluster packet.tag packet.base packet.size
          = some ({ window with cluster := 0 }, ln) ∧ window.shadow = false
      ∧ firstBlock (cellPlaces networked window.va (2 ^ packet.esz)) = none
      ∧ (∀ x ∈ cellPlaces networked window.va (2 ^ packet.esz), networked.spotHeld (Agent.ofHub 0) true 6 x = false)
      ∧ (windowFor [{ sender := 1, newest := some 0x80000000, seen := [] }] 1).stale 0x7FFFEFFF 0 = true := by decide +kernel

def flagMsg : UetFlag :=
  { hub := 0, source := 9, seq := 0, cluster := 0, tag := 5, base := 8, size := 4, prot := false, said := 0, pn := 0, auth := 0 }

theorem witness_CounterMessagesArrive : networked.senderOf flagMsg.source = 1
    ∧ ((networked.peer 1).map (·.key)).getD 0 = 0 ∧ flagMsg.prot = false ∧ (windowFor networked.uetFlags 1).stale flagMsg.seq 0 = false
    ∧ networked.landingFor 1 flagMsg.cluster flagMsg.tag flagMsg.base flagMsg.size
        = some ({ window with cluster := 0 }, ln)
    ∧ networked.spotAt (Agent.ofHub 0) ln [] .atomic 8 window.va = .mem 0xC000 0xC000 .cached ∧ 0xC000 % 64 + 8 ≤ 64
    ∧ networked.spotHeld (Agent.ofHub 0) true 6 (.mem 0xC000 0xC000 .cached) = false
    ∧ (windowFor [{ sender := 1, newest := some 3, seen := [(3, 0)] }] 1).stale 3 0 = true := by decide +kernel

def parcelOf (st : DeliveryStage) : Delivery := { parcel with stage := st, unacked := if st = .sending then [0] else [] }

/-- A delivery to the peer, in a stage. -/
def sending (st : DeliveryStage) : Command :=
  { casting with
    stage := .moved, peer := 1, box := [some ([1, 2, 3, 4], false)], deliveries := [parcelOf st] }

def toPeer (st : DeliveryStage) : State := { networked with commands := [sending st] }

theorem witness_SenderEvents :
    ((toPeer .sending).command? 8 = some (sending .sending) ∧ (sending .sending).delivery? 63 = some (parcelOf .sending)
      ∧ (sending .sending).peer ≠ 0 ∧ (parcelOf .sending).unacked = [0] ∧ (toPeer .sending).keyOf (sending .sending) = 0
      ∧ ((toPeer .sending).pathsOf (sending .sending)).contains 0 = true ∧ (parcelOf .sending).unacked.contains 0 = true
      ∧ (let s := toPeer .sending
         let ups := (s.pathsOf (sending .sending)).filter (s.pathUp 0 1)
         (s.peer 1).isSome = true ∧ ups[s.sprayedTo 0 1 % ups.length]? = some 0)
      ∧ (toPeer .sending).timeoutsOf 0 1 0 < 2
      ∧ 2 ≤ ({ toPeer .sending with timeouts := [((0, (1, 0)), 2)] } : State).timeoutsOf 0 1 0)
    ∧ ((toPeer .flagSent).command? 8 = some (sending .flagSent) ∧ (sending .flagSent).delivery? 63 = some (parcelOf .flagSent)
      ∧ (parcelOf .flagSent).stage = .flagSent ∧ 0 ≠ 2 ^ 32)
    ∧ (let s : State := { toPeer .sending with pathsDown := [(0, (1, 0))] }
       ∀ p ∈ s.pathsOf (sending .sending), s.pathUp 0 1 p = false) := by decide +kernel

theorem witness_PathsAndPorts :
    (let s : State := { networked with pathsDown := [(0, (1, 0))] }
     s.pathsDown.contains (0, (1, 0)) = true ∧ (s.peer 1).map (fun e => s.portUp (e.port 0 0)) = some true)
    ∧ networked.portUp 7 = true ∧ 7 < 8 := by decide +kernel

/-! ### Launches -/

/-- A descriptor of context 0 at 0xD000: its tables, a fault queue, a reply area and two save slots. -/
def descNum : Nat :=
  0x200000 + 0x1000 * 2 ^ 64 + 0x12000 * 2 ^ 128 + 0x13000 * 2 ^ 192 + 0x40000 * 2 ^ 256 + 0x10000 * 2 ^ 320 + 2 * 2 ^ 352

/-- A record of one team of 16 threads. -/
def recNum : Nat :=
  0x10000 + 0x20000 * 2 ^ 64 + 0xF000 * 2 ^ 192 + 2 ^ 768 + 2 ^ 800 + 2 ^ 816 + 16 * 2 ^ 832 + 16 * 2 ^ 844 + 64 * 2 ^ 852
    + 7 * 2 ^ 900

def queue0 : Queue := { Queue.reset with en := true, cap := 16, wr := 1, base := 0x9000, leader := some 0 }

/-- Lines that the host has written and still holds: a queue entry at 0x9000, the descriptor, a record at 0xE000, two rings. -/
def readyLines (entry rec1 : Nat) : List HostLine :=
  [⟨0x9000 / 64, BitVec.ofNat 512 entry, false⟩, ⟨0xD000 / 64, BitVec.ofNat 512 descNum, false⟩, ⟨0xE000 / 64, BitVec.ofNat 512 rec1, false⟩,
   ⟨0xE040 / 64, BitVec.ofNat 512 (rec1 / 2 ^ 512), false⟩, ⟨0x12000 / 64, 64, false⟩, ⟨0x13000 / 64, 64, false⟩]

/-- A queue whose only entry names the record at 0xE000. -/
def ready : State :=
  { State.reset with
    power := .on, ctxBase := 0xD000, queues := [(0, queue0)], fresh := 10, mem := tables,
    hostLines := readyLines 0xE000 recNum }

theorem witness_QueuesRung : 127 < 128 ∧ ready.managed = true ∧ ({ ready with queues := [(0, { queue0 with leader := none })] } : State).needsLeader 0 = true
    ∧ (∃ d < 16, ready.mayLead d = true) ∧ ∃ e < 16, e / 8 = 0 % 2 ∧ ready.mayLead e = true := by decide +kernel

/-- What the queue's record reads as. -/
def readOf (s : State) (va : DWord) : Option ReadRec :=
  match s.readRecord 0 0 va with
  | .ok x => some x
  | _ => none

theorem witness_EntriesConsumed :
    (let b := ready.queue 0
     ready.managed = true ∧ b.en = true ∧ b.blocked = false ∧ b.rd ≠ b.wr ∧ b.leader.isSome = true ∧ ready.needsLeader 0 = false
       ∧ ready.queueHeld 0 = false ∧ b.ctx < 4096 ∧ capInRange b.cap.toNat = true ∧ b.cap.toNat ≤ 65536
       ∧ (ready.hubReach (0 % 2) .load (b.base + 8 * (b.rd.toNat % b.cap.toNat)) 8).isReady = true
       ∧ ready.hubNum 0 (b.base + 8 * (b.rd.toNat % b.cap.toNat)) 8 = (0xE000, false))
    ∧ ((readOf ready 0xE000).map fun r => (ready.recordTouched 0 0 0xE000).admissible 0 0 r) = some true
    ∧ (let s : State := { ready with hostLines := readyLines 0xE000 (recNum + 2 ^ 908) }
       let u := s.recordTouched 0 0 0xE000
       ((readOf s 0xE000).map fun r => (u.admissible 0 0 r,
           match u.hubXlate 0 r.desc r.record .atomic r.record.ctr with
           | .ok p => !u.hubHeld .atomic (p.pa / 64) && decide (p.pa % 64 + 8 ≤ 64)
           | _ => false)) = some (false, true))
    ∧ (let s : State := { ready with hostLines := readyLines 0xE001 recNum }
       ∃ x : Nat × Bool, s.hubNum 0 0x9000 8 = x ∧ (BitVec.ofNat 64 x.1 : DWord).toNat % 128 ≠ 0) := by
  refine ⟨by decide +kernel, by decide +kernel, by decide +kernel, _, rfl, by decide +kernel⟩

def waitingLaunch (dep0 : DWord) (strict : Bool) : Launch :=
  { Launch.zero with id := 9, record := { bootRec with dep0 := dep0, thr0 := 1, dstrict := strict, wal := 64 }, desc := bootDesc, queue := some 0 }

/-- A counter of 1 with an error at 0xF000. -/
def counting (l : Launch) : State := { State.reset with power := .on, launches := [l], fresh := 10, mem := [(0xF000, 1), (0xF006, 1)] ++ tables }

def depOf (s : State) (l : Launch) : Option Nat :=
  match s.readDep ((l.queue.getD 0) % 2) l l.record.dep0 with
  | .ok x => some x
  | _ => none

theorem witness_DependencesChecked :
    ((counting (waitingLaunch 0 false)).launch? 9 = some (waitingLaunch 0 false) ∧ (waitingLaunch 0 false).stage = .waiting
      ∧ (counting (waitingLaunch 0 false)).managed = true ∧ (counting (waitingLaunch 0 false)).led (waitingLaunch 0 false) = true
      ∧ (waitingLaunch 0 false).record.dep1 = 0)
    ∧ (let l := waitingLaunch 0xF000 true
       let v := 1 + 2 ^ 48
       (counting l).launch? 9 = some l ∧ (counting l).managed = true ∧ (counting l).led l = true ∧ l.record.dep0 ≠ 0 ∧ depOf (counting l) l = some v
         ∧ (v % 2 ^ 48 + 2 ^ 48 - l.record.thr0 % 2 ^ 48) % 2 ^ 48 < 2 ^ 47 ∧ l.record.dstrict = true
         ∧ v / 2 ^ 48 % 2 ^ 16 ≠ 0 ∧ (counting l).countWaits l.hub l.desc l.record = none) := by decide +kernel

def eligible : Launch := { waitingLaunch 0 false with stage := .eligible, record := { (waitingLaunch 0 false).record with gx := 1 } }

theorem witness_TeamsPlaced :
    let s := counting eligible
    s.launch? 9 = some eligible ∧ eligible.unplaced = true ∧ s.managed = true ∧ s.led eligible = true
      ∧ s.heldBack eligible = false ∧ eligible.record.coh = 0
      ∧ (∀ c ∈ coresOf eligible.record.pspan 510, s.heldLine c 7 = false)
      ∧ (s.placeTeam eligible.record eligible.desc.pfr 510 eligible.record.reqw (countsAt eligible.record.nthr) none
          (s.freeContext 510)).isSome = true := by decide +kernel

/-- A launch whose only team has ended. -/
def finishing : Launch :=
  { eligible with stage := .running, placed := 1, ended := 1, record := { eligible.record with ctr := 0xF000 } }

theorem flushLaunch_no_core {s : State} {l : Launch} (h : l.cores = []) : s.flushLaunch l = { s with draws := s.draws + 1 } := by
  simp [State.flushLaunch, h]

theorem witness_LaunchesComplete :
    let s := counting finishing
    s.launch? 9 = some finishing ∧ s.teamsOver finishing = true ∧ (∀ c ∈ s.commands, c.launch ≠ finishing.id)
      ∧ (∀ c ∈ finishing.cores, s.heldLine c 7 = false)
      ∧ (let u := (s.drainLaunch finishing.id).flushLaunch finishing
         finishing.queue.getD 0 % 2 = 0
         ∧ u.hubXlate 0 finishing.desc finishing.record .atomic finishing.record.ctr
             = .ok { pa := 0xF000, home := .cached, tbl := [32768, 65536] }
         ∧ u.hubHeld .atomic (0xF000 / 64) = false ∧ 0xF000 % 64 + 8 ≤ 64) := by
  refine ⟨by decide +kernel, by decide +kernel, by decide +kernel, by decide +kernel, ?_⟩
  dsimp only
  rw [flushLaunch_no_core rfl]; decide +kernel

/-! ### Pre-emption -/

/-- A device without dies, so that nothing fits: the launch of the team must give way to one of a higher priority. -/
def giving : State :=
  { uni base with
    fuses := { Fuses.sound with dmask := 0 },
    launches := [{ ln with desc := { bootDesc with nslot := 1 } },
      { eligible with record := { eligible.record with prio := 3, mctx := false } }] }

theorem witness_UnitsStop :
    (giving.teams.find? fun x => x.launch == tm.launch && x.tix == tm.tix) = some tm
      ∧ giving.freeSaveSlot (giving.unitOf tm).launch = some 0 ∧ giving.mustGive (giving.unitOf tm) = true
      ∧ (∀ x ∈ giving.units, x.saved = true)
      ∧ ∀ g ∈ giving.groups, ((giving.unitOf tm).teams.map (·.id)).contains g.team = true → giving.trapDue g = false := by
  decide +kernel

def unit0 : SavedUnit :=
  { id := 8, launch := 3, tixs := [0], slot := 1, saved := false, mirrors := [], positions := [], spans := [], groups := [], answers := [] }

/-- The unit of the team is about to be saved in slot 1. -/
def stopped : State :=
  { uni base with
    teams := [{ tm with stopping := true, ctx := none, gw := 16, wal := 64, spb := 0 }], units := [unit0],
    launches := [{ ln with record := { bootRec with wal := 64, nthr := 2, mctx := false },
                           desc := { bootDesc with nslot := 2, slsz := 0x10000, pool := 0x40000 } }] }

theorem homeKey_device {s : State} {line : Nat} (h : 64 * line < hostBase ∨ 2 ^ 52 ≤ 64 * line) : s.homeKey line = line := by
  have : isHostMem (64 * line) = false := by
    simp only [isHostMem, Bool.and_eq_false_iff, decide_eq_false_iff_not]; omega
  simp [State.homeKey, this]

theorem apart_of {s : State} {pa n : Nat} (h : pa + n ≤ hostBase ∨ 2 ^ 52 ≤ pa) : Apart s pa n := by
  intro i hi j hj e
  have key : ∀ k < n, s.homeKey ((pa + k) / 64) = (pa + k) / 64 := fun k hk =>
    homeKey_device (by unfold hostBase at *; omega)
  rwa [key i hi, key j hj] at e

theorem witness_UnitsSaved : (stopped.units.find? (·.id == unit0.id)) = some unit0
    ∧ (stopped.launch? unit0.launch).map (·.record.live) = some 0 ∧ unit0.saved = false ∧ stopped.unitTeams unit0 ≠ []
    ∧ IsNumbered stopped ∧ (∀ x ∈ stopped.unitTeams unit0, stopped.drained x = true)
    ∧ stopped.carryHeld (stopped.unitTeams unit0) = false := by decide +kernel

/-- Its slot. -/
theorem witness_UnitsSaved_slot :
    let ts := stopped.unitTeams unit0
    let v := ((stopped.passOvers ts).settleUnit ts).carryOut ts
    let used := 64 + (ts.map (blockSize v)).sum
    (∀ x ∈ ts, x.wal ≤ 256 ∧ ∀ g ∈ v.teamGroups x.id, g.wb + 64 ≤ x.wal)
      ∧ (stopped.slotReach .atomic 0x50000 used).isReady = true ∧ Apart stopped 0x50000 used := by
  refine ⟨by decide +kernel, by decide +kernel, apart_of (.inl (by decide +kernel))⟩

/-- A saved unit without teams, and a slot that holds nothing. -/
def lost : State :=
  { stopped with
    teams := [], cur := Group.zero, units := [{ unit0 with saved := true }],
    launches := [{ ln with desc := { bootDesc with nslot := 2, slsz := 0x10000, pool := 0x40000 } }] }

theorem witness_UnitsResume_bad : (lost.units.find? (·.id == unit0.id)) = some { unit0 with saved := true }
    ∧ (lost.launch? unit0.launch).map (fun l => (lost.resumeHeld l, lost.managed, lost.led l, l.fault, l.stage)) = some (false, true, true, none, .running)
    ∧ ((lost.launch? unit0.launch).map fun l => (lost.readSlot { unit0 with saved := true } l).isNone
        && (lost.resumeWaits { unit0 with saved := true } l).isNone) = some true
    ∧ IsNumbered lost := by decide +kernel

/-- A slot with one team of one group of two threads: its area header, the team header, the group record and two thread records,
as R384 to R387 lay them out, as the bytes that are not 0. -/
def slotBytes : List (Nat × Nat) :=
  [(0, 65), (1, 83), (2, 57), (3, 71), (4, 1), (8, 192), (9, 5), (24, 1)]
  ++ [(68, 1), (70, 16), (72, 2), (121, 1), (128, 128), (129, 5)]
  ++ [(193, 128), (200, 5), (208, 64), (209, 128), (216, 9), (240, 16), (514, 1), (520, 3), (554, 1)]
  ++ (List.range' 576 8).map (fun i => (i, 255))
  ++ [(712, 1), (836, 5), (840, 7), (849, 128), (856, 64), (857, 128), (1088, 1), (1220, 6), (1224, 8)]
  ++ [(1232, 64), (1233, 128), (1240, 128), (1241, 128)]

/-- Line `i` of the slot. -/
def slotLine (i : Nat) : BitVec 512 :=
  BitVec.ofNat 512 (((slotBytes.filter fun e => e.1 / 64 == i).map fun e => e.2 * 256 ^ (e.1 % 64)).sum)

/-- The unit is saved there. -/
def kept : State :=
  { stopped with
    hostLines := (List.range 23).map (fun i => ⟨0x50000 / 64 + i, slotLine i, false⟩), cur := Group.zero, teams := [],
    units := [{ unit0 with
      saved := true, positions := [(0, (0, 0)), (0, (1, 1))], spans := [(0, 2)],
      groups := [{ tix := 0, gix := 0, arrived := [], wait := .none, resliced := false, fault := none, pc := 0x10000, tid0 := 0 }] }] }

/-- A saved unit whose slot passes every check and holds a team with its group, and which fits on core 0. -/
def fits (s : State) : Bool :=
  match s.units.find? (·.id == 8) with
  | none => false
  | some u =>
    match s.launch? u.launch with
    | none => false
    | some l =>
      u.saved && !s.resumeHeld l && s.managed && s.led l && (s.resumeWaits u l).isNone && !s.heldLine 0 6
        && (match s.readSlot u l with
          | some (_, ts) => u.tixs.length == 1 && coresLie l.record u.tixs [0] && ts.length == 1
              && ts.all (fun e => headGw e.head == 16 && e.groups.length == 1 && e.groups.all fun r => nfield r 3304 8 == 0)
              && (match s.placeUnit u l (ts.zip [0]) with
                | some v => v.mirrored u
                | none => false)
          | none => false)

theorem witness_UnitsResume : IsNumbered kept ∧ fits kept = true := by
  refine ⟨?_, ?_⟩ <;> decide +kernel

/-! ### Dies -/

def die15 (f : Die → Die) : Die := f (Die.reset Fuses.sound 15)

def dieState (f : Die → Die) : State :=
  { base with dies := (List.range 15).map (fun n => (n, Die.reset Fuses.sound n)) ++ [(15, die15 f)] }

abbrev HasDie (f : Die → Die) : Prop :=
  15 < 16 ∧ (dieState f).fuses.dmask.getLsbD 15 = true ∧ (dieState f).dies.find? (·.1 == 15) = some (15, die15 f)

theorem witness_DieEvents :
    (HasDie (fun d => { d with csteps := 28 }) ∧ (die15 fun d => { d with csteps := 28 }).csteps < 29)
      ∧ (HasDie (fun d => { d with csteps := 1 }) ∧ 0 < (die15 fun d => { d with csteps := 1 }).csteps)
      ∧ (HasDie id ∧ (die15 id).dstate = 1 ∧ (1 : BitVec 16) ≠ (die15 id).inc ∧ (dieState id).pomasDown.contains 32 = false)
      ∧ (HasDie (fun d => { d with rebuilding := true }) ∧ (die15 fun d => { d with rebuilding := true }).rebuilding = true)
      ∧ (HasDie (fun d => { d with dstate := 2 }) ∧ (die15 fun d => { d with dstate := 2 }).dstate = 2
        ∧ (die15 fun d => { d with dstate := 2 }).rebuilding = false)
      ∧ (HasDie (fun d => { d with rebuilding := true, dstate := 3 }) ∧ (die15 fun d => { d with dstate := 3 }).dstate = 3)
      ∧ (dieState id).pomasDown.contains 16 = false := by decide +kernel

/-! ### The device and the host -/

theorem witness_DeviceEvents : State.reset.answers = false ∧ base.answers = true ∧ State.reset.power = .wiping ∧ State.reset.fuses.lifecycle < 4 ∧ (4 : BitVec 3).toNat ≤ 4
    ∧ base.power = .on ∧ 1 < 2 ∧ base.fuses.lifecycle ≠ 0 ∧ base.fuses.lifecycle ≤ 3
    ∧ (0 : BitVec 3) = 0 ∧ 0x5008 % 8 = 0 ∧ 0x5000 ≤ 0x5008 ∧ 127 < 128
    ∧ (ready.queue 0).en = true ∧ (ready.queue 1).en = false := by decide +kernel

/-- Nothing holds a hub's accesses. -/
abbrev NothingHeld (s : State) : Prop :=
  s.biasCmd.getLsbD 2 = false ∧ (s.die 16).silent = false ∧ ∀ f < 16, (s.die f).halfLost = false

theorem not_heldUp {s : State} (h : NothingHeld s) (write : Bool) (scope line : Nat) : s.heldUp write 16 scope line = false := by
  have : (List.range 16).any (fun f => (s.die f).halfLost && nfield (64 * line) 12 1 == f % 2
      && (16 == f ^^^ 1 || s.copies.any fun c => c.line == line && c.level < 3 && decide (4 ≤ c.reg)
        && unitDie c.level c.unit == f ^^^ 1 && (write || c.dirty != 0))) = false := by
    rw [List.any_eq_false]
    intro f hf
    simp [h.2.2 f (List.mem_range.mp hf)]
  simp only [State.heldUp, State.flipping, State.lostHalf, h.1, h.2.1, this, Bool.false_and, Bool.and_false, Bool.or_self]

/-- Beyond the host's memory no translation of the host is asked for. -/
theorem hubReach_beyond {s : State} (h : NothingHeld s) (hub pa n : Nat) (hp : 2 ^ 52 ≤ pa) (hn : 0 < n) :
    s.hubReach hub .store pa n = .ready := by
  have far : ∀ q, 2 ^ 52 ≤ q → isHostMem q = false := fun q hq => by
    simp only [isHostMem, Bool.and_eq_false_iff, decide_eq_false_iff_not]; omega
  simp [State.hubReach, State.atsCheck, far pa hp, far (pa + n - 1) (by omega), State.hubHeld, not_heldUp h]

theorem hubReachAll_ready {s : State} {hub : Nat} {xs : List (Access × (Nat × Nat))}
    (h : ∀ x ∈ xs, s.hubReach hub x.1 x.2.1 x.2.2 = .ready) : s.hubReachAll hub xs = .ready := by
  induction xs with
  | nil => rfl
  | cons x rest ih => simp [State.hubReachAll, h x (by simp), ih fun y hy => h y (by simp [hy])]

/-- An attestation of a device in production, whose report, of any length, goes to the addresses from 2^52 on. -/
theorem witness_Attests (n : Nat) :
    let s : State := { base with attDest := BitVec.ofNat 64 (2 ^ 52) }
    s.answers = true ∧ s.fuses.lifecycle ≠ 0 ∧ s.fuses.lifecycle ≤ 3 ∧ s.power = .on
      ∧ (s.writeReach 1 s.attDest.toNat n).isReady = true ∧ Apart s s.attDest.toNat n := by
  refine ⟨by decide +kernel, by decide +kernel, by decide +kernel, by decide +kernel, ?_, apart_of (.inr (by decide))⟩
  have held : NothingHeld { base with attDest := BitVec.ofNat 64 (2 ^ 52) } := by decide +kernel
  have : (BitVec.ofNat 64 (2 ^ 52)).toNat = 2 ^ 52 := by decide
  simp only [State.writeReach, this]
  rw [hubReachAll_ready]
  · rfl
  · intro x hx
    obtain ⟨i, _, rfl⟩ := List.mem_map.mp hx
    exact hubReach_beyond held _ _ _ (by dsimp only; omega) (Nat.succ_pos _)

theorem witness_HostEvents :
    (base.answers = true ∧ (pageLines 0xBFFFFFF).all (fun l => !base.recallHeld l) = true ∧ 4096 * 0xBFFFFFF < 0xC0_0000_0000 ∧ base.paExists (4096 * 0xBFFFFFF) = true)
      ∧ base.recallHeld 512 = false ∧ base.recallHeld 0x400000000 = false
      ∧ (64 * 512 < 0xC0_0000_0000 ∧ base.paExists (64 * 512) = true)
      ∧ isHostMem (64 * 0x400000000) = true
      ∧ (0x8038 % 64 + [1, 2, 3, 4, 5, 6, 7, (8 : Byte)].length ≤ 64 ∧ isHostMem 0x100_0000_0038 = true)
      ∧ (base.flipFits 0xBFFFFFF false = true ∧ base.flipFits 0xBFFFFFF true = true ∧ base.biasCmd.getLsbD 2 = false
        ∧ base.hostBias.contains 0xBFFFFFF = false ∧ ({ base with hostBias := [0xBFFFFFF] } : State).hostBias.contains 0xBFFFFFF = true
        ∧ ({ base with biasCmd := 0x7004 } : State).biasCmd.getLsbD 2 = true)
      ∧ (base.hostHeld false 512 = false ∧ base.hostHeld true (0x8038 / 64) = false ∧ base.hostHeld false 0x400000000 = false)
      ∧ ({ base with ats := [⟨0, 7, true, false⟩] } : State).ats = [⟨0, 7, true, false⟩]
      ∧ ({ base with inputs := [{ first := 0, count := 0, stays := 0, skipped := false, poison := true, page := some 9 }] } :
          State).moveInput.page = some 9
      ∧ base.hostPageBusy 1 7 = false ∧ ({ base with atsMiss := [(1, 7)] } : State).atsMiss.contains (1, 7) = true
      ∧ 4 ∈ [16, 8, 4] ∧ 5 ∈ [7, 6, 5] := by decide +kernel

/-! ### A step -/

/-- `Fetches` as a test. -/
def fetchesB (s : State) (va : DWord) (bs : List Byte) : Bool :=
  canonical va && match s.translate (Agent.ofCore s.cur.core) s.launch.desc s.launch.record .fetch va with
    | .ok p => decide ((s.loadBytes (Agent.ofCore s.cur.core) 1 p.home p.pa bs.length).2 = false)
        && decide (s.fetchValues p.home p.pa bs.length = [bs])
    | _ => false

theorem fetches_of {s : State} {va : DWord} {bs : List Byte} (h : fetchesB s va bs = true) : Fetches s va bs := by
  unfold fetchesB at h
  rw [Bool.and_eq_true] at h
  refine ⟨h.1, ?_⟩
  have h2 := h.2
  split at h2
  · next p hp =>
    rw [Bool.and_eq_true, decide_eq_true_eq, decide_eq_true_eq] at h2
    exact ⟨p, hp, h2.1, h2.2⟩
  · cases h2

/-- A machine with code. -/
def coded (cells : List Host.Cell) : State := { base with mem := cells ++ tables }

/-- NOP, with the half-word of a uniform instruction. -/
def codedNop : State := coded [(0x10002, 0x20), (0x20001, 0x10)]

/-- The pair of PFX 5 and LIM s1, 0x80000, with the half-words of uniform instructions. -/
def codedPair : State :=
  coded [(0x10000, 0x05), (0x10003, 0x08), (0x10006, 0x18), (0x10007, 0x34), (0x20001, 0x10), (0x20003, 0x10)]

/-- A NOP that waits on path 0, which has a load in flight. -/
def codedWait : State :=
  let s := coded [(0x10002, 0x20), (0x20000, 0x01), (0x20001, 0x10)]
  { s with cur := { s.cur with flights := [newFlight s 0 (.store [] false)] } }

/-- A word whose major is 31, which no instruction has. -/
def codedIllegal : State := coded [(0x10003, 0xF8)]

theorem ready_of {s : State}
    (h : s.upsets = [] ∧ s.script = [] ∧ s.canIssue s.cur = true ∧ s.cur.wait = .none ∧ s.burst < burstLimit
      ∧ s.before.isNone = true) : Ready s :=
  ⟨h.1, h.2.1, h.2.2.1, h.2.2.2.1, h.2.2.2.2.1, Option.isNone_iff_eq_none.mp h.2.2.2.2.2⟩

/-- The group has just come to its instruction, whose half-word names no wait. -/
theorem waitsOver_of {s : State} {h : Half} (hc : s.cur.came = false)
    (hk : ∀ k < 6, h.getLsbD k = true → s.cur.count k = 0 ∧ s.cur.ppath.getLsbD k = false)
    (hb : ∀ k < 6, h.getLsbD (6 + k) = false) : WaitsOver s h := ⟨hk, by rw [hc]; exact hb⟩

theorem fetchesWord_of {s : State} {pc : DWord} {bs hs : List Byte} (h1 : bs.length = 4) (h2 : hs.length = 2)
    (h3 : fetchesB s pc bs = true) (h4 : fetchesB (fetched s pc) (s.schedAddr pc) hs = true) :
    FetchesWord s pc bs (BitVec.ofNat 16 (leNat hs)) (fetched (fetched s pc) (s.schedAddr pc)) :=
  ⟨hs, h1, h2, rfl, fetches_of h3, fetches_of h4, rfl⟩

/-- The state once the word at `pc` and its half-word are fetched. -/
def after (s : State) (pc : DWord) : State := fetched (fetched s pc) (s.schedAddr pc)

theorem witness_StepRunsWord : Ready codedNop ∧ ToFetch codedNop
    ∧ FetchesWord (stepping codedNop) codedNop.cur.pc [0, 0, 0x20, 0] 0x1000 (after (stepping codedNop) 0x10000)
    ∧ WaitsOver codedNop 0x1000 ∧ decode [0, 0, 0x20, 0] = .ok (.nop, [])
    ∧ KeepsPipe ((after (stepping codedNop) 0x10000).begin (wordOfBytes [0, 0, 0x20, 0]) (slotOf codedNop .nop 0x1000 0 (wordOfBytes [0, 0, 0x20, 0]) 1))
        (!codedNop.cur.came) := by
  refine ⟨ready_of (by decide +kernel), .inl rfl, ?_, ?_, by decide +kernel, Or.inl (by decide +kernel)⟩
  · exact fetchesWord_of (hs := [0, 0x10]) rfl rfl (by decide +kernel) (by decide +kernel)
  · exact waitsOver_of rfl (by decide) (by decide)

theorem witness_StepRunsWord_illegal : Ready codedIllegal ∧ ToFetch codedIllegal
    ∧ FetchesWord (stepping codedIllegal) codedIllegal.cur.pc [0, 0, 0, 0xF8] 0 (after (stepping codedIllegal) 0x10000)
    ∧ WaitsOver codedIllegal 0
    ∧ (∃ e, decodeWord (wordOfBytes [0, 0, 0, 0xF8]) = .error e) ∧ isPfx (wordOfBytes [0, 0, 0, 0xF8]) = false
    ∧ KeepsPipe ((after (stepping codedIllegal) 0x10000).begin (wordOfBytes [0, 0, 0, 0xF8])
        { half := 0, half2 := 0, word := wordOfBytes [0, 0, 0, 0xF8], len := 1, beats := codedIllegal.team.gw / 16 })
        (!codedIllegal.cur.came) := by
  refine ⟨ready_of (by decide +kernel), .inl rfl, ?_, waitsOver_of rfl (by decide) (by decide), ⟨_, rfl⟩, by decide +kernel,
    Or.inl (by decide +kernel)⟩
  exact fetchesWord_of (hs := [0, 0]) rfl rfl (by decide +kernel) (by decide +kernel)

theorem witness_StepRunsPair : Ready codedPair ∧ ToFetch codedPair
    ∧ FetchesWord (stepping codedPair) codedPair.cur.pc [5, 0, 0, 8] 0x1000 (after (stepping codedPair) 0x10000)
    ∧ FetchesWord (after (stepping codedPair) 0x10000) (codedPair.cur.pc + 4) [0, 0, 0x18, 0x34] 0x1000
        (after (after (stepping codedPair) 0x10000) 0x10004)
    ∧ WaitsOver codedPair 0x1000 ∧ isPfx (wordOfBytes [5, 0, 0, 8]) = true
    ∧ decode ([5, 0, 0, 8] ++ [0, 0, 0x18, 0x34]) = .ok (.pfx 5 (some (.lim 65 0x80000)), [])
    ∧ KeepsPipe ((after (after (stepping codedPair) 0x10000) 0x10004).begin (wordOfBytes [5, 0, 0, 8])
        (slotOf codedPair (.pfx 5 (some (.lim 65 0x80000))) 0x1000 0x1000 (wordOfBytes [0, 0, 0x18, 0x34]) 2))
        (!codedPair.cur.came) := by
  refine ⟨ready_of (by decide +kernel), .inl rfl, ?_, ?_, waitsOver_of rfl (by decide) (by decide), by decide +kernel, by decide +kernel,
    Or.inl (by decide +kernel)⟩
  · exact fetchesWord_of (hs := [0, 0x10]) rfl rfl (by decide +kernel) (by decide +kernel)
  · exact fetchesWord_of (hs := [0, 0x10]) rfl rfl (by decide +kernel) (by decide +kernel)

/-- The NOP is in the group's prefetch buffer. -/
def codedFetched : State :=
  withCur codedNop fun g => { g with
    came := true, fetched := some (0x200000, { half := 0x1000, half2 := 0, word := 0x200000, len := 1, beats := 1 }) }

theorem witness_StepRunsFetched : Ready codedFetched ∧ codedFetched.cur.came = true
    ∧ codedFetched.cur.fetched = some (0x200000, { half := 0x1000, half2 := 0, word := 0x200000, len := 1, beats := 1 })
    ∧ WaitsOver codedFetched 0x1000 ∧ isPfx 0x200000 = false ∧ decodeWord 0x200000 = .ok .nop
    ∧ KeepsPipe ((stepping codedFetched).begin 0x200000 { half := 0x1000, half2 := 0, word := 0x200000, len := 1, beats := 1 })
        false := by
  refine ⟨ready_of (by decide +kernel), rfl, rfl, ⟨by decide, rfl⟩, by decide +kernel, by decide +kernel, Or.inl (by decide +kernel)⟩

theorem witness_StepWaits : Ready codedWait ∧ ToFetch codedWait
    ∧ FetchesWord (stepping codedWait) codedWait.cur.pc [0, 0, 0x20, 0] 0x1001 (after (stepping codedWait) 0x10000)
    ∧ decode [0, 0, 0x20, 0] = .ok (.nop, [])
    ∧ (0x1001 : Half).getLsbD 0 = true ∧ codedWait.cur.count 0 ≠ 0
    ∧ KeepsPipe ((after (stepping codedWait) 0x10000).begin (wordOfBytes [0, 0, 0x20, 0])
        (slotOf codedWait .nop 0x1001 0 (wordOfBytes [0, 0, 0x20, 0]) 1)) (!codedWait.cur.came) := by
  refine ⟨ready_of (by decide +kernel), .inl rfl, ?_, by decide +kernel, by decide, by decide +kernel, Or.inl (by decide +kernel)⟩
  exact fetchesWord_of (hs := [1, 0x10]) rfl rfl (by decide +kernel) (by decide +kernel)

theorem witness_StepFollowsTheScript : ({ base with script := [.wipeComplete, .nop] } : State).script = .wipeComplete :: [.nop]
    ∧ Instr.isDeviceOp .wipeComplete = true ∧ Instr.isDeviceOp .nop = false := ⟨rfl, rfl, rfl⟩

/-! ### Encodings and invariants -/

theorem witness_EncodeDecode : (Instr.add 3 1 2).wellFormed = true ∧ (Instr.add 3 1 2).isDeviceOp = false
    ∧ (Instr.pfx 5 (some (.lim 65 0x80000))).wellFormed = true ∧ (Instr.pfx 5 (some (.lim 65 0x80000))).isDeviceOp = false := by decide

theorem witness_PerformedStoreIsSeen : (1 <<< 63 : BitVec 64).getLsbD 63 = true ∧ (0x10040 / 64 ≠ base.homeKey 0x400)
    ∧ (1 ≤ 3 ∧ (Agent.ofCore 0).unit (pointLevel 1) = some 0 ∧ base.hasWay (pointLevel 1) 0 0x400 = true) := by decide +kernel

/-- `step` answers a next state. -/
def isNext : Out → Bool
  | .next _ => true
  | _ => false

theorem exists_of_isNext {o : Out} (h : isNext o = true) : ∃ t, o = .next t := by
  cases o with
  | next t => exact ⟨t, rfl⟩
  | fault _ => cases h
  | refused _ => cases h

theorem witness_StepKeepsMemoryForm : Memory.wf codedNop.mem = true ∧ ∃ t, step codedNop = .next t :=
  ⟨by decide +kernel, exists_of_isNext (by decide +kernel)⟩

theorem witness_StepKeepsGroupNumbers : Numbered codedNop ∧ ∃ t, step codedNop = .next t := by
  refine ⟨by unfold Numbered; decide +kernel, exists_of_isNext (by decide +kernel)⟩

/-! ### Fields that are refused -/

/-- The hypotheses of `Row.refusals`, `Row.threadRefusals`, `VoteRefusals`, `FrameCodes` and `MaskRefusals`: the other kind of
half-word, a source that names nothing, an odd pair, a predicate number of 32, a frame code of 4. -/
theorem witness_Refusals : canTrap base ∧ canTrap (uni base) ∧ (isS 64 = true ∧ base.u = false)
    ∧ (isV 63 = true ∧ isPort 100 = true ∧ (uni base).u = true)
    ∧ ((isS 3 = false ∧ isV 3 = true ∧ base.u = false) ∧ ((DstCls.w .sign).ok false 3 && (two 3 114 2).all (Src.ok false)) = false)
    ∧ (DstCls.ok true 64 .pair && (twoPairs 64 2 66).all (Src.ok true)) = false
    ∧ (DstCls.pred.ok false 32 && (two 32 1 2).all (Src.ok false)) = false
    ∧ (isV 3 = true ∧ 3 % 2 = 1 ∧ 32 ≤ (32 : Code).toNat ∧ 4 ≤ (4 : Code).toNat) ∧ isS 97 = false ∧ (65 : Code).toNat % 2 = 1 := by
  unfold canTrap; decide +kernel

/-- A lane whose v1 holds an error, and a launch that hears of poison: a source that names it is not sound (R424). -/
def flawed : State :=
  { withCur base (fun g => { g with threads := g.threads.map fun t => { t with badStack := [1] } }) with
    launches := [{ ln with record := { ln.record with poison := true } }] }

theorem witness_Refusals_register : canTrap flawed ∧ ¬Sound flawed (flawed.lanesOf flawed.em) (two 3 1 2)
    ∧ ((DstCls.w .sign).ok false 3 && (two 3 1 2).all (Src.ok false)) = true ∧ flawed.u = false
    ∧ popsOf (two 3 1 2) = [] ∧ flawed.launch.record.poison = true := by
  unfold canTrap Sound; decide +kernel

theorem witness_StepFollowsTheScript_errors :
    ({ base with upsets := [.corrected 0, .dram 512] } : State).upsets = .corrected 0 :: [.dram 512] := rfl

/-! ### Decoding: for every cell a word laid out from the tables of the spec -/

/-- Format A (R70): major, fn6, d, a, b. -/
def formA (major : BitVec 5) (fn : BitVec 6) (d a b : BitVec 7) : Word := major ++ fn ++ d ++ a ++ b

/-- Format M (R74): major, kind3, ord2, scope3, d, a, off5. -/
def formM (major : BitVec 5) (kind : BitVec 3) (ord : BitVec 2) (scope : BitVec 3) (d a : BitVec 7) (off : BitVec 5) : Word :=
  major ++ kind ++ ord ++ scope ++ d ++ a ++ off

/-- Format S (R76): major, fn6, imm21. -/
def formS (major : BitVec 5) (fn : BitVec 6) (imm : BitVec 21) : Word := major ++ fn ++ imm

/-- R83. -/
theorem test_decode_sys :
    decodeWord (formS 0 1 0) = .ok .nop
    ∧ decodeWord (formS 0 2 0x1FFFFE) = .ok (.trap 0x1FFFFE)
    ∧ decodeWord (formS 0 3 0) = .ok .rtt
    ∧ decodeWord (formS 0 4 0) = .ok .isync
    ∧ decodeWord (formS 0 5 (3#7 ++ 0x13F#14)) = .ok (.sread 3 0x13F)
    ∧ decodeWord (formS 0 6 (65#7 ++ 0x00B#14)) = .ok (.swrite 65 0x00B)
    ∧ decodeWord (formS 0 6 (65#7 ++ 0x000#14)) = .ok (.swriteEm 65)
    ∧ decodeWord (formS 0 6 (65#7 ++ 0x002#14)) = .ok (.swriteFpc 65)
    ∧ decodeWord (formS 0 6 (65#7 ++ 0x013#14)) = .ok (.wspill 65)
    ∧ decodeWord (formS 0 6 (65#7 ++ 0x014#14)) = .ok (.wfill 65) := by decide +kernel

/-- R82: the offset of the second is −2. -/
theorem test_decode_br :
    decodeWord (2#5 ++ 0#4 ++ 5#23) = .ok (.br 5)
    ∧ decodeWord (2#5 ++ 1#4 ++ 0x7FFFFE#23) = .ok (.brNone 0x7FFFFE)
    ∧ decodeWord (2#5 ++ 2#4 ++ 5#23) = .ok (.brAny 5)
    ∧ decodeWord (2#5 ++ 3#4 ++ 5#23) = .ok (.brAll 5)
    ∧ decodeWord (2#5 ++ 4#4 ++ 5#23) = .ok (.brUc 5)
    ∧ decodeWord (2#5 ++ 5#4 ++ 5#23) = .ok (.brNuc 5)
    ∧ decodeWord (2#5 ++ 10#4 ++ 5#23) = .ok (.call 2 5)
    ∧ decodeWord (2#5 ++ 15#4 ++ 5#23) = .ok (.callAny 3 5) := by decide +kernel

/-- R84. -/
theorem test_decode_ctl :
    decodeWord (formA 3 0 0 0 0) = .ok .ret
    ∧ decodeWord (formA 3 1 0 65 0) = .ok (.jmpr 65)
    ∧ decodeWord (formA 3 2 0 65 3) = .ok (.callr 65 3)
    ∧ decodeWord (formA 3 3 0 65 3) = .ok (.callrAny 65 3)
    ∧ decodeWord (formA 3 4 0 65 0) = .ok (.wbase 65)
    ∧ decodeWord (formA 3 5 0 0 0) = .ok .rgn
    ∧ decodeWord (formA 3 16 0 65 66) = .ok (.ucmpEq 65 66)
    ∧ decodeWord (formA 3 17 0 65 66) = .ok (.ucmpNe 65 66)
    ∧ decodeWord (formA 3 18 0 65 66) = .ok (.ucmpLt 65 66)
    ∧ decodeWord (formA 3 19 0 65 66) = .ok (.ucmpLe 65 66)
    ∧ decodeWord (formA 3 20 0 65 66) = .ok (.ucmpLtu 65 66)
    ∧ decodeWord (formA 3 21 0 65 66) = .ok (.ucmpLeu 65 66) := by decide +kernel

/-- R85. -/
theorem test_decode_int :
    decodeWord (formA 4 0 3 1 2) = .ok (.add 3 1 2)
    ∧ decodeWord (formA 4 1 3 1 2) = .ok (.sub 3 1 2)
    ∧ decodeWord (formA 4 2 3 1 2) = .ok (.mul 3 1 2)
    ∧ decodeWord (formA 4 3 3 1 2) = .ok (.mulhi 3 1 2)
    ∧ decodeWord (formA 4 4 3 1 2) = .ok (.mulhu 3 1 2)
    ∧ decodeWord (formA 4 5 3 1 2) = .ok (.div 3 1 2)
    ∧ decodeWord (formA 4 6 3 1 2) = .ok (.divu 3 1 2)
    ∧ decodeWord (formA 4 7 3 1 2) = .ok (.rem 3 1 2)
    ∧ decodeWord (formA 4 8 3 1 2) = .ok (.remu 3 1 2)
    ∧ decodeWord (formA 4 9 3 1 2) = .ok (.and 3 1 2)
    ∧ decodeWord (formA 4 10 3 1 2) = .ok (.or 3 1 2)
    ∧ decodeWord (formA 4 11 3 1 2) = .ok (.xor 3 1 2)
    ∧ decodeWord (formA 4 12 3 1 2) = .ok (.andn 3 1 2)
    ∧ decodeWord (formA 4 13 3 1 2) = .ok (.shl 3 1 2)
    ∧ decodeWord (formA 4 14 3 1 2) = .ok (.shr 3 1 2)
    ∧ decodeWord (formA 4 15 3 1 2) = .ok (.sra 3 1 2)
    ∧ decodeWord (formA 4 16 3 1 2) = .ok (.shli 3 1 2)
    ∧ decodeWord (formA 4 17 3 1 2) = .ok (.shri 3 1 2) := by decide +kernel

/-- R85. -/
theorem test_decode_int_last :
    decodeWord (formA 4 18 3 1 2) = .ok (.srai 3 1 2)
    ∧ decodeWord (formA 4 19 3 1 2) = .ok (.min 3 1 2)
    ∧ decodeWord (formA 4 20 3 1 2) = .ok (.max 3 1 2)
    ∧ decodeWord (formA 4 21 3 1 2) = .ok (.minu 3 1 2)
    ∧ decodeWord (formA 4 22 3 1 2) = .ok (.maxu 3 1 2)
    ∧ decodeWord (formA 4 23 3 1 0) = .ok (.abs 3 1)
    ∧ decodeWord (formA 4 24 3 1 0) = .ok (.clz 3 1)
    ∧ decodeWord (formA 4 25 3 1 0) = .ok (.popc 3 1)
    ∧ decodeWord (formA 4 26 3 1 0) = .ok (.brev 3 1)
    ∧ decodeWord (formA 4 27 3 1 0) = .ok (.sextb 3 1)
    ∧ decodeWord (formA 4 28 3 1 0) = .ok (.sexth 3 1)
    ∧ decodeWord (formA 4 29 3 1 0) = .ok (.mov 3 1)
    ∧ decodeWord (formA 4 30 3 1 2) = .ok (.mad 3 1 2)
    ∧ decodeWord (formA 4 32 4 2 6) = .ok (.addD 4 2 6)
    ∧ decodeWord (formA 4 33 4 2 6) = .ok (.subD 4 2 6)
    ∧ decodeWord (formA 4 34 4 2 6) = .ok (.mulD 4 2 6)
    ∧ decodeWord (formA 4 35 4 2 6) = .ok (.shlD 4 2 6)
    ∧ decodeWord (formA 4 36 4 2 6) = .ok (.shrD 4 2 6)
    ∧ decodeWord (formA 4 37 4 2 6) = .ok (.sraD 4 2 6)
    ∧ decodeWord (formA 4 38 4 2 0) = .ok (.movD 4 2)
    ∧ decodeWord (formA 4 40 4 2 7) = .ok (.lea 0 4 2 7)
    ∧ decodeWord (formA 4 41 4 2 7) = .ok (.lea 1 4 2 7)
    ∧ decodeWord (formA 4 42 4 2 7) = .ok (.lea 2 4 2 7)
    ∧ decodeWord (formA 4 43 4 2 7) = .ok (.lea 3 4 2 7) := by decide +kernel

/-- R86: the immediates are −1 and −524,288. -/
theorem test_decode_immediate :
    decodeWord (5#5 ++ 5#7 ++ 4#7 ++ 0x1FFF#13) = .ok (.addi 5 4 0x1FFF)
    ∧ decodeWord (6#5 ++ 65#7 ++ 0x80000#20) = .ok (.lim 65 0x80000) := by decide +kernel

/-- R87. -/
theorem test_decode_fp :
    decodeWord (formA 7 1 4 2 6) = .ok (.addFmt 1 4 2 6)
    ∧ decodeWord (formA 7 6 4 2 6) = .ok (.subFmt 2 4 2 6)
    ∧ decodeWord (formA 7 11 4 2 6) = .ok (.mulFmt 3 4 2 6)
    ∧ decodeWord (formA 7 12 4 2 6) = .ok (.divFmt 0 4 2 6)
    ∧ decodeWord (formA 7 17 4 2 0) = .ok (.sqrtFmt 1 4 2)
    ∧ decodeWord (formA 7 22 4 2 6) = .ok (.minFmt 2 4 2 6)
    ∧ decodeWord (formA 7 27 4 2 6) = .ok (.maxFmt 3 4 2 6)
    ∧ decodeWord (formA 7 28 4 2 0) = .ok (.absFmt 0 4 2)
    ∧ decodeWord (formA 7 33 4 2 0) = .ok (.negFmt 1 4 2)
    ∧ decodeWord (formA 7 38 4 2 6) = .ok (.csgnFmt 2 4 2 6)
    ∧ decodeWord (formA 7 41 3 1 0) = .ok (.rcpF32 3 1)
    ∧ decodeWord (formA 7 45 3 1 0) = .ok (.rsqF32 3 1)
    ∧ decodeWord (formA 7 49 3 1 0) = .ok (.exp2F32 3 1)
    ∧ decodeWord (formA 7 53 3 1 0) = .ok (.log2F32 3 1)
    ∧ decodeWord (formA 7 57 3 1 0) = .ok (.sinF32 3 1)
    ∧ decodeWord (formA 7 61 3 1 0) = .ok (.cosF32 3 1) := by decide +kernel

/-- R88. -/
theorem test_decode_fma :
    decodeWord (formA 8 3 4 2 6) = .ok (.fma 3 4 2 6)
    ∧ decodeWord (formA 8 6 4 2 6) = .ok (.fms 2 4 2 6)
    ∧ decodeWord (formA 8 9 4 2 6) = .ok (.fnma 1 4 2 6)
    ∧ decodeWord (formA 8 12 4 2 6) = .ok (.fnms 0 4 2 6) := by decide +kernel

/-- R89. -/
theorem test_decode_cvt :
    decodeWord (formA 9 33 3 1 2) = .ok (.cvt 4 1 3 1 2)
    ∧ decodeWord (formA 9 5 4 1 0) = .ok (.cvt 0 5 4 1 0)
    ∧ decodeWord (formA 9 0 4 2 1) = .ok (.rintF64 4 2 1)
    ∧ decodeWord (formA 9 9 3 1 4) = .ok (.rintF32 3 1 4)
    ∧ decodeWord (formA 9 18 3 1 3) = .ok (.rintF16 3 1 3)
    ∧ decodeWord (formA 9 27 3 1 2) = .ok (.rintBf16 3 1 2)
    ∧ decodeWord (formA 9 48 3 1 0) = .ok (.bscale 3 1)
    ∧ decodeWord (formA 9 49 3 1 2) = .ok (.bquant 3 1 2)
    ∧ decodeWord (formA 9 50 3 1 2) = .ok (.bdeq 3 1 2) := by decide +kernel

/-- R90. -/
theorem test_decode_cmp :
    decodeWord (formA 10 0 31 2 6) = .ok (.cmpEq 0 31 2 6)
    ∧ decodeWord (formA 10 9 31 2 6) = .ok (.cmpNe 1 31 2 6)
    ∧ decodeWord (formA 10 18 31 2 6) = .ok (.cmpLt 2 31 2 6)
    ∧ decodeWord (formA 10 27 31 2 6) = .ok (.cmpLe 3 31 2 6)
    ∧ decodeWord (formA 10 36 31 2 6) = .ok (.cmpGt 4 31 2 6)
    ∧ decodeWord (formA 10 45 31 2 6) = .ok (.cmpGe 5 31 2 6)
    ∧ decodeWord (formA 10 54 31 1 2) = .ok (.cmpUn 2 31 1 2) := by decide +kernel

/-- R91. -/
theorem test_decode_prd :
    decodeWord (formA 11 0 3 1 2) = .ok (.pand 3 1 2)
    ∧ decodeWord (formA 11 1 3 1 2) = .ok (.por 3 1 2)
    ∧ decodeWord (formA 11 2 3 1 2) = .ok (.pxor 3 1 2)
    ∧ decodeWord (formA 11 3 3 1 2) = .ok (.pandn 3 1 2)
    ∧ decodeWord (formA 11 4 3 1 0) = .ok (.pnot 3 1)
    ∧ decodeWord (formA 11 5 3 1 0) = .ok (.pmov 3 1)
    ∧ decodeWord (formA 11 6 3 1 0) = .ok (.pset 3 1)
    ∧ decodeWord (formA 11 7 3 1 0) = .ok (.pget 3 1)
    ∧ decodeWord (formA 11 63 3 1 2) = .ok (.sel 31 3 1 2) := by decide +kernel

/-- R92. -/
theorem test_decode_msk :
    decodeWord (formA 12 0 0 31 0) = .ok (.mset 31)
    ∧ decodeWord (formA 12 1 0 31 0) = .ok (.mand 31)
    ∧ decodeWord (formA 12 2 0 31 0) = .ok (.mandn 31)
    ∧ decodeWord (formA 12 3 0 31 0) = .ok (.mor 31)
    ∧ decodeWord (formA 12 4 0 0 0) = .ok .mall
    ∧ decodeWord (formA 12 5 65 0 0) = .ok (.mcnt 65)
    ∧ decodeWord (formA 12 6 66 0 0) = .ok (.psave 66)
    ∧ decodeWord (formA 12 7 0 66 0) = .ok (.prest 66) := by decide +kernel

/-- R93. -/
theorem test_decode_lane :
    decodeWord (formA 13 0 3 1 2) = .ok (.lpullAt 3 1 2)
    ∧ decodeWord (formA 13 1 3 1 2) = .ok (.lpullBelow 3 1 2)
    ∧ decodeWord (formA 13 2 3 1 2) = .ok (.lpullAbove 3 1 2)
    ∧ decodeWord (formA 13 3 3 1 2) = .ok (.lpullXor 3 1 2)
    ∧ decodeWord (formA 13 4 3 1 2) = .ok (.rdlane 3 1 2)
    ∧ decodeWord (formA 13 5 3 1 2) = .ok (.wrlane 3 1 2)
    ∧ decodeWord (formA 13 6 3 1 0) = .ok (.lmask 3 1)
    ∧ decodeWord (formA 13 7 3 1 0) = .ok (.lany 3 1)
    ∧ decodeWord (formA 13 8 3 1 0) = .ok (.lall 3 1)
    ∧ decodeWord (formA 13 9 3 1 0) = .ok (.lsame 3 1)
    ∧ decodeWord (formA 13 10 3 1 0) = .ok (.redAdd 3 1)
    ∧ decodeWord (formA 13 11 3 1 0) = .ok (.redMin 3 1)
    ∧ decodeWord (formA 13 12 3 1 0) = .ok (.redMax 3 1)
    ∧ decodeWord (formA 13 13 3 1 0) = .ok (.redMinu 3 1)
    ∧ decodeWord (formA 13 14 3 1 0) = .ok (.redMaxu 3 1)
    ∧ decodeWord (formA 13 15 3 1 0) = .ok (.redFaddF32 3 1)
    ∧ decodeWord (formA 13 16 3 1 0) = .ok (.redFminF32 3 1)
    ∧ decodeWord (formA 13 17 3 1 0) = .ok (.redFmaxF32 3 1)
    ∧ decodeWord (formA 13 18 3 1 0) = .ok (.scanAdd 3 1)
    ∧ decodeWord (formA 13 19 3 1 0) = .ok (.scanFaddF32 3 1) := by decide +kernel

/-- R94. -/
theorem test_decode_grp :
    decodeWord (formA 14 0 0 65 0) = .ok (.setw 65)
    ∧ decodeWord (formA 14 1 65 0 0) = .ok (.regroup 65)
    ∧ decodeWord (formA 14 2 0 5 0) = .ok (.barSync 5)
    ∧ decodeWord (formA 14 3 0 5 0) = .ok (.barArv 5)
    ∧ decodeWord (formA 14 4 0 0 0) = .ok .cbar
    ∧ decodeWord (formA 14 5 0 0 0) = .ok .yield
    ∧ decodeWord (formA 14 6 0 65 0) = .ok (.exit 65)
    ∧ decodeWord (formA 14 7 0 65 0) = .ok (.launch 65) := by decide +kernel

/-- R95. -/
theorem test_decode_ld :
    decodeWord (formM 15 0 1 5 4 6 31) = .ok (.ldB 1 5 4 6 31)
    ∧ decodeWord (formM 15 1 1 5 4 6 31) = .ok (.ldH 1 5 4 6 31)
    ∧ decodeWord (formM 15 2 1 5 4 6 31) = .ok (.ldW 1 5 4 6 31)
    ∧ decodeWord (formM 15 3 1 5 4 6 31) = .ok (.ldD 1 5 4 6 31)
    ∧ decodeWord (formM 15 4 1 5 4 6 31) = .ok (.ldQ 1 5 4 6 31)
    ∧ decodeWord (formM 15 5 0 5 4 6 31) = .ok (.ldInvW 5 4 6 31)
    ∧ decodeWord (formM 15 6 0 5 4 6 31) = .ok (.ldInvD 5 4 6 31)
    ∧ decodeWord (formM 15 7 0 5 4 6 31) = .ok (.ldInvQ 5 4 6 31) := by decide +kernel

/-- R95. -/
theorem test_decode_st :
    decodeWord (formM 16 0 2 6 4 6 30) = .ok (.stB 2 6 4 6 30)
    ∧ decodeWord (formM 16 1 2 6 4 6 30) = .ok (.stH 2 6 4 6 30)
    ∧ decodeWord (formM 16 2 2 6 4 6 30) = .ok (.stW 2 6 4 6 30)
    ∧ decodeWord (formM 16 3 2 6 4 6 30) = .ok (.stD 2 6 4 6 30)
    ∧ decodeWord (formM 16 4 2 6 4 6 30) = .ok (.stQ 2 6 4 6 30) := by decide +kernel

/-- R96. -/
theorem test_decode_at :
    decodeWord (formM 17 0 3 7 4 6 29) = .ok (.atAddW 3 7 4 6 29)
    ∧ decodeWord (formM 17 1 3 7 4 6 29) = .ok (.atAddD 3 7 4 6 29)
    ∧ decodeWord (formM 17 2 3 7 4 6 29) = .ok (.atMinW 3 7 4 6 29)
    ∧ decodeWord (formM 17 3 3 7 4 6 29) = .ok (.atMaxW 3 7 4 6 29)
    ∧ decodeWord (formM 17 4 3 7 4 6 29) = .ok (.atMinuW 3 7 4 6 29)
    ∧ decodeWord (formM 17 5 3 7 4 6 29) = .ok (.atMaxuW 3 7 4 6 29)
    ∧ decodeWord (formM 17 6 3 7 4 6 29) = .ok (.atSwapW 3 7 4 6 29)
    ∧ decodeWord (formM 17 7 3 7 4 6 29) = .ok (.atCasW 3 7 4 6 29)
    ∧ decodeWord (formM 18 0 3 7 4 6 29) = .ok (.atAndW 3 7 4 6 29)
    ∧ decodeWord (formM 18 1 3 7 4 6 29) = .ok (.atOrW 3 7 4 6 29)
    ∧ decodeWord (formM 18 2 3 7 4 6 29) = .ok (.atXorW 3 7 4 6 29)
    ∧ decodeWord (formM 18 3 3 7 4 6 29) = .ok (.atSwapD 3 7 4 6 29)
    ∧ decodeWord (formM 18 4 3 7 4 6 29) = .ok (.atCasD 3 7 4 6 29)
    ∧ decodeWord (formM 18 5 3 7 4 6 29) = .ok (.atFaddF32 3 7 4 6 29)
    ∧ decodeWord (formM 18 6 3 7 4 6 29) = .ok (.atFminF32 3 7 4 6 29)
    ∧ decodeWord (formM 18 7 3 7 4 6 29) = .ok (.atFmaxF32 3 7 4 6 29) := by decide +kernel

/-- R97. -/
theorem test_decode_spm :
    decodeWord (formM 19 0 0 0 4 6 9) = .ok (.sldW 4 6 9)
    ∧ decodeWord (formM 19 1 0 0 4 6 9) = .ok (.sldD 4 6 9)
    ∧ decodeWord (formM 19 2 0 0 4 6 9) = .ok (.sldQ 4 6 9)
    ∧ decodeWord (formM 19 4 0 0 4 6 9) = .ok (.sstW 4 6 9)
    ∧ decodeWord (formM 19 5 0 0 4 6 9) = .ok (.sstD 4 6 9)
    ∧ decodeWord (formM 19 6 0 0 4 6 9) = .ok (.sstQ 4 6 9) := by decide +kernel

/-- R98. -/
theorem test_decode_sync :
    decodeWord (formM 20 0 3 4 0 0 0) = .ok (.fence 3 4)
    ∧ decodeWord (formM 20 1 0 0 0 65 5) = .ok (.waitp 65 5)
    ∧ decodeWord (formM 20 2 1 7 65 66 3) = .ok (.waitv 1 7 65 66 3) := by decide +kernel

/-- R99. -/
theorem test_decode_rill :
    decodeWord (formA 21 0 0 65 0) = .ok (.rcfg 65)
    ∧ decodeWord (formA 21 1 3 101 0) = .ok (.rstat 3 101)
    ∧ decodeWord (formA 21 2 0 105 0) = .ok (.rdrain 105)
    ∧ decodeWord (formA 21 3 3 104 0) = .ok (.rpeek 3 104) := by decide +kernel

/-- R100. -/
theorem test_decode_mtx :
    decodeWord (formA 22 0 7 66 68) = .ok (.mma 7 66 68)
    ∧ decodeWord (formA 22 1 7 66 68) = .ok (.mmaAcc 7 66 68)
    ∧ decodeWord (formA 22 2 7 66 68) = .ok (.mmaSacc 7 66 68)
    ∧ decodeWord (formA 22 4 7 0 0) = .ok (.mzero 7)
    ∧ decodeWord (formA 22 5 7 65 0) = .ok (.mscl 7 65)
    ∧ decodeWord (formA 22 6 3 7 2) = .ok (.mrd 3 7 2)
    ∧ decodeWord (formA 22 7 7 3 2) = .ok (.mwr 7 3 2)
    ∧ decodeWord (formA 22 8 7 66 0) = .ok (.msto 7 66)
    ∧ decodeWord (formA 22 9 7 66 0) = .ok (.mlda 7 66)
    ∧ decodeWord (formA 22 10 7 6 0) = .ok (.mmov 7 6) := by decide +kernel

/-- R101. -/
theorem test_decode_eng :
    decodeWord (formA 23 5 65 66 67) = .ok (.enqRunnel 5 65 66 67)
    ∧ decodeWord (formA 23 14 65 66 67) = .ok (.enqCascade 6 65 66 67)
    ∧ decodeWord (formA 23 16 0 65 0) = .ok (.publish 65)
    ∧ decodeWord (formA 23 17 0 65 66) = .ok (.land 65 66)
    ∧ decodeWord (formA 23 18 0 65 0) = .ok (.unland 65) := by decide +kernel

/-- The worked encodings after R103. -/
theorem test_decode_worked : decodeWord 0x20010082 = .ok (.add 4 1 2) ∧ decodeWord 0x200100F2 = .ok (.add 4 1 114)
    ∧ decodeWord 0x2010C082 = .ok (.add 67 1 2) ∧ decodeWord 0x7A583042 = .ok (.ldW 1 3 3 2 2)
    ∧ decodeWord 0x824830C2 = .error .order ∧ decodeWord 0x117FFFFD = .ok (.brAny 0x7FFFFD)
    ∧ (decodePair 0x08000020 0x7A083040).1 = .ok (.pfx 32 (some (.mem 15 2 0 1 3 2 0))) ∧ decodeWord 0xF8000000 = .error .reservedMajor
    ∧ decodeWord 0 = .error .reservedCell := by decide +kernel

/-- R79: a reserved field that is not 0, in an integer, a mask, a scratchpad and a system cell. -/
theorem test_decode_reserved : decodeWord (formA 4 29 3 1 2) = .error .reservedField
    ∧ decodeWord (formA 12 4 0 0 1) = .error .reservedField ∧ decodeWord (formM 19 0 0 1 3 2 0) = .error .order
    ∧ decodeWord (formS 0 1 1) = .error .reservedField ∧ decodeWord (formA 4 31 0 0 0) = .error .reservedCell := by decide +kernel

/-! ### Ill-formed terms, one for each check of `wellFormed` -/

theorem test_illFormed_words : Instr.wellFormed (.swrite 65 0x013) = false ∧ Instr.wellFormed (.cvt 1 1 3 1 0) = false
    ∧ Instr.wellFormed (.cvt 4 5 3 1 0) = false ∧ Instr.wellFormed (.cvt 6 0 3 1 0) = false ∧ Instr.wellFormed (.cvt 0 7 3 1 0) = false
    ∧ Instr.wellFormed (.ldW 2 0 3 2 0) = false ∧ Instr.wellFormed (.stW 1 0 3 2 0) = false ∧ Instr.wellFormed (.fence 0 3) = false
    ∧ Instr.wellFormed (.waitv 2 0 65 66 0) = false ∧ Instr.wellFormed (.enqRunnel 1 65 66 67) = false
    ∧ Instr.wellFormed (.enqCascade 4 65 66 67) = false := by decide

theorem test_illFormed_pairs : Instr.wellFormed (.pfx 5 none) = false ∧ Instr.wellFormed (.pfx 5 (some (.br 6 1))) = false
    ∧ Instr.wellFormed (.pfx 5 (some (.mem 20 0 1 0 0 0 0))) = false ∧ Instr.wellFormed (.pfx 5 (some (.mem 15 6 1 0 4 2 0))) = false
    ∧ Instr.wellFormed (.pfx 5 (some (.mem 19 3 0 0 4 2 0))) = false ∧ Instr.wellFormed (.pfx 5 (some (.mem 16 5 0 0 4 2 0))) = false
    ∧ Instr.wellFormed (.pfx 5 (some (.mem 21 0 0 0 4 2 0))) = false := by decide

theorem test_illFormed_device : Instr.wellFormed (.rillEntryFill 1 64 0) = false ∧ Instr.wellFormed (.rillEntryFill 1 0 6) = false
    ∧ Instr.wellFormed (.writeBufferDrain 512 0) = false ∧ Instr.wellFormed (.writeBufferDrain 0 8) = false
    ∧ Instr.wellFormed (.cacheMissFill 0 3 0 1) = false ∧ Instr.wellFormed (.cacheMissFill 0 0 0 0) = false
    ∧ Instr.wellFormed (.launchQueueDoorbell 128 0) = false ∧ Instr.wellFormed (.queueEntryConsume 128) = false
    ∧ Instr.wellFormed (.leaderElection 128) = false ∧ Instr.wellFormed (.dieFailure 16) = false
    ∧ Instr.wellFormed (.incarnationRefusal 16 0) = false ∧ Instr.wellFormed (.lifecycleAdvance 5) = false
    ∧ Instr.wellFormed (.attestationRequest 2) = false ∧ Instr.wellFormed (.uePortDown 8) = false
    ∧ Instr.wellFormed (.uePortTrain 8 0) = false := by decide

/-! ### Single steps, with results worked from the spec -/

/-- The state that follows. -/
def run (i : Instr) (s : State) : State :=
  match exec i s with
  | .next t => t
  | _ => State.reset

/-- The register `k` of lane `i` of the group in focus. -/
def reg (s : State) (i k : Nat) : Word := sget 0 (s.cur.threads.getD i (Thread.new 0)).stack k

/-- A lane of `base` whose v1 and v2 are given. -/
def vals (x y : Word) : State := withCur base fun g => { g with threads := [thr 0 [(1, x), (2, y)] 1, thr 1 [] 0] }

/-- R107: a sum wraps. -/
theorem test_add_wraps : reg (run (.add 3 1 2) (vals 0xFFFFFFFF 7)) 0 3 = 6 := by decide +kernel

/-- R107: a source that is also the destination. -/
theorem test_sub_same : reg (run (.sub 1 1 2) (vals 3 5)) 0 1 = 0xFFFFFFFE := by decide +kernel

/-- R107: the high half of a signed product, −2 times 3. -/
theorem test_mulhi_signed : reg (run (.mulhi 3 1 2) (vals 0xFFFFFFFE 3)) 0 3 = 0xFFFFFFFF := by decide +kernel

/-- R107: an arithmetic shift by 4. -/
theorem test_sra : reg (run (.sra 3 1 2) (vals 0x80000000 4)) 0 3 = 0xF8000000 := by decide +kernel

/-- R53: an inactive lane keeps its register. -/
theorem test_inactive_lane : reg (run (.add 1 1 2) (withCur base fun g => { g with em := 1 })) 1 1 = 6 := by decide +kernel

/-- R107: MAD adds the product of −1 and 7 to the destination. -/
theorem test_mad : reg (run (.mad 3 1 2) (vals 0xFFFFFFFF 7)) 0 3 = 0xFFFFFFF9 := by decide +kernel

/-- R135: 1.5 + 2.25 = 3.75 in FP32. -/
theorem test_addF32 : reg (run (.addFmt 1 3 1 2) (vals 0x3FC00000 0x40100000)) 0 3 = 0x40700000 := by decide +kernel

/-- R140: 1.5 · 2.0 + 1.0 = 4.0 in FP32, the addend in the destination. -/
theorem test_fmaF32 : reg (run (.fma 1 3 1 2) (withCur base fun g =>
    { g with threads := [thr 0 [(1, 0x3FC00000), (2, 0x40000000), (3, 0x3F800000)] 0, thr 1 [] 0] })) 0 3 = 0x40800000 := by decide +kernel

/-- R141: −2.75 rounds towards zero to −2. -/
theorem test_cvt_rtz : reg (run (.cvt 4 1 3 1 2) (vals 0xC0300000 0)) 0 3 = 0xFFFFFFFE := by decide +kernel

/-- R112: a signed comparison of −1 and 7 sets p5. -/
theorem test_cmp_signed : ((run (.cmpLt 0 5 1 2) (vals 0xFFFFFFFF 7)).cur.threads.getD 0 (Thread.new 0)).pred.getLsbD 5 = true := by
  decide +kernel

/-- R193: the sum of v1 over the two lanes, 5 and 6, written to s8. -/
theorem test_redAdd : sget 0 (run (.redAdd 72 1) base).cur.sregs 8 = 11 := by decide +kernel

/-- R194: an inclusive scan of 5 and 6. -/
theorem test_scanAdd : reg (run (.scanAdd 3 1) base) 1 3 = 11 := by decide +kernel

/-- R32, R149: a branch of −2 words goes to the word before the branch. -/
theorem test_br : (run (.br 0x7FFFFE) (uni base)).cur.pc = 0xFFFC := by decide +kernel

/-- R159, R366: a trap saves the mask and enters the handler. -/
theorem test_trap : (run (.trap 5) (uni base)).cur.pc = 0x1000 ∧ (run (.trap 5) (uni base)).cur.tem = 3
    ∧ (run (.trap 5) (uni base)).cur.intrap = true := by decide +kernel

/-- R164: the step after reset runs an instruction that is placed. -/
theorem test_withFetchWord : (match step (State.reset.withFetchWord 32 0x00200000) with
    | .next t => t.cur.pc
    | _ => 0) = 0x10004 := by decide +kernel

end Sys2Proof.Tests
end

section
/-! PROOF. The machine right after reset: every list it holds is empty or zero, and its sixteen dies are as their fuses state. -/
namespace Sys2Proof.Machine

/-- At reset no die has an incarnation, a corrected error or a clock step behind it, and none rebuilds its rows. -/
theorem die_reset_fresh : ∀ n < 16, (State.reset.die n).inc = 0 ∧ (State.reset.die n).ce = 0 ∧ (State.reset.die n).csteps = 0
    ∧ (State.reset.die n).rebuilding = false := by
  decide

/-- At reset nothing is in `poison`, no core has fallen and no host line is held, the three sources of poison. -/
theorem not_poisoned_reset (line : Nat) : State.reset.poisoned line = false := by
  have fallen : sget 0 State.reset.writers line &&& State.reset.fallen = 0 := BitVec.and_zero
  unfold State.poisoned
  rw [fallen]
  rfl

/-- Each of the six queues of a new thread is empty. -/
theorem thread_new_queue (tid p : Nat) : (Thread.new tid).queue p = [] := by
  unfold Thread.queue
  split <;> rfl

/-- Settles O57: but for the sixteen dies every part is empty or 0 in the state that `State.reset` writes out. -/
theorem resetState : Obligations.ResetState := by
  unfold Obligations.ResetState
  refine ⟨rfl, rfl, rfl, rfl, rfl, rfl, rfl, rfl, rfl, rfl, ?poison, ?memory, ?queues, sget_nil 0, sget_nil 0, sget_nil 0,
    rfl, rfl, rfl, rfl, rfl, rfl, rfl, rfl, rfl, rfl, rfl, die_reset_fresh, ?thread⟩
  case poison => exact not_poisoned_reset
  case memory => intro pa _; rfl
  case queues => intro q; exact ⟨rfl, rfl, rfl, rfl, rfl, rfl⟩
  case thread =>
    intro tid
    exact ⟨fun _ => rfl, rfl, rfl, thread_new_queue tid, rfl, rfl, rfl, rfl⟩
end Sys2Proof.Machine
end

section
/-! PROOF. What it means for the answer of an operation that memory stays in canonical form: for the answers that carry a state, that
state's memory is in canonical form. The lemmas `memOk.…` of a state say the same of each operation, so that a chain of operations has a chain
of lemmas. -/

namespace Sys2Proof.Machine

variable {s t : State}

/-! ### Answers that carry a state -/

/-- A move of the device that can be made leaves memory in canonical form. -/
def MoveOk : Option State → Prop
  | some t => t.memOk
  | none => True

/-- A step or the meaning of an instruction leaves memory in canonical form. -/
def OutOk : Out → Prop
  | .next t => t.memOk
  | _ => True

def Fetched.memOk : Fetched → Prop
  | .ok _ t => t.memOk
  | .fault _ _ t => t.memOk
  | .wait t => t.memOk
  | _ => True

def FetchedWord.memOk : FetchedWord → Prop
  | .ok _ _ t => t.memOk
  | .stop f => f.memOk

def FetchedInstr.memOk : FetchedInstr → Prop
  | .ok _ _ t => t.memOk
  | .stop f => f.memOk

def Checked.memOk : Checked → Prop
  | .ok _ t => t.memOk
  | .wait t => t.memOk
  | _ => True

def HubReach.memOk : HubReach → Prop
  | .wait t => t.memOk
  | _ => True

def HubPlace.memOk : HubPlace → Prop
  | .wait t => t.memOk
  | _ => True

def RecordRead.memOk : RecordRead → Prop
  | .wait t => t.memOk
  | _ => True

def DepRead.memOk : DepRead → Prop
  | .wait t => t.memOk
  | _ => True

def DepState.memOk : DepState → Prop
  | .wait t => t.memOk
  | _ => True

def MtxChecked.memOk : MtxChecked → Prop
  | .ok _ t => t.memOk
  | .wait t => t.memOk
  | _ => True

def Secure.memOk : Secure → Prop
  | .ok t _ => t.memOk
  | .drop t => t.memOk

/-! ### The state that an answer carries -/

theorem MoveOk.some {o : Option State} (h : MoveOk o) (e : o = Option.some t) : t.memOk := by subst e; exact h

theorem OutOk.next {o : Out} (h : OutOk o) (e : o = Host.Outcome.next t) : t.memOk := by subst e; exact h

theorem Fetched.memOk.ok {f : Fetched} {bs : List Byte} (h : f.memOk) (e : f = .ok bs t) : t.memOk := by subst e; exact h

theorem FetchedWord.memOk.ok {f : FetchedWord} {w : Word} {x : Half} (h : f.memOk) (e : f = .ok w x t) : t.memOk := by
  subst e; exact h

theorem FetchedWord.memOk.stop {f : FetchedWord} {x : Fetched} (h : f.memOk) (e : f = .stop x) : x.memOk := by
  subst e; exact h

theorem FetchedInstr.memOk.ok {f : FetchedInstr} {w : Word} {slot : IssueSlot} (h : f.memOk) (e : f = .ok w slot t) : t.memOk := by
  subst e; exact h

theorem FetchedInstr.memOk.stop {f : FetchedInstr} {x : Fetched} (h : f.memOk) (e : f = .stop x) : x.memOk := by
  subst e; exact h

theorem Checked.memOk.ok {c : Checked} {places : List (Nat × (DWord × Placed))} (h : c.memOk) (e : c = .ok places t) : t.memOk := by
  subst e; exact h

theorem Checked.memOk.wait {c : Checked} (h : c.memOk) (e : c = .wait t) : t.memOk := by subst e; exact h

theorem HubReach.memOk.wait {r : HubReach} (h : r.memOk) (e : r = .wait t) : t.memOk := by subst e; exact h

theorem HubPlace.memOk.wait {p : HubPlace} (h : p.memOk) (e : p = .wait t) : t.memOk := by subst e; exact h

theorem RecordRead.memOk.wait {r : RecordRead} (h : r.memOk) (e : r = .wait t) : t.memOk := by subst e; exact h

theorem DepRead.memOk.wait {r : DepRead} (h : r.memOk) (e : r = .wait t) : t.memOk := by subst e; exact h

theorem DepState.memOk.wait {d : DepState} (h : d.memOk) (e : d = .wait t) : t.memOk := by subst e; exact h

theorem Secure.memOk.ok {x : Secure} {text : List Byte} (h : x.memOk) (e : x = .ok t text) : t.memOk := by subst e; exact h

theorem Secure.memOk.drop {x : Secure} (h : x.memOk) (e : x = .drop t) : t.memOk := by subst e; exact h

/-! ### How answers are put together -/

theorem State.memOk.same (h : s.memOk) (e : t.mem = s.mem) : t.memOk := memOk_of_mem h e

theorem State.memOk.ite {p : Prop} [Decidable p] (hs : s.memOk) (ht : t.memOk) : (if p then s else t).memOk := by
  split
  · exact hs
  · exact ht

theorem State.memOk.foldl {β : Type} {f : State → β → State} {bs : List β} (h : s.memOk)
    (hf : ∀ (t : State) (b : β), t.memOk → (f t b).memOk) : (bs.foldl f s).memOk := memOk_foldl f hf bs s h

/-- A move that is made only where a condition holds. -/
theorem MoveOk.guard {p : Prop} [Decidable p] {o : Option State} (h : MoveOk o) : MoveOk (if p then o else none) := by
  split
  · exact h
  · trivial

/-- A move that is made only where no condition forbids it. -/
theorem MoveOk.unless {p : Prop} [Decidable p] {o : Option State} (h : MoveOk o) : MoveOk (if p then none else o) := by
  split
  · trivial
  · exact h

theorem State.memOk.guard {p : Prop} [Decidable p] (h : t.memOk) : MoveOk (if p then some t else none) := MoveOk.guard (o := some t) h

theorem State.memOk.unless {p : Prop} [Decidable p] (h : t.memOk) : MoveOk (if p then none else some t) :=
  MoveOk.unless (o := some t) h

theorem MoveOk.map {o : Option State} {f : State → State} (h : MoveOk o) (hf : ∀ t : State, t.memOk → (f t).memOk) :
    MoveOk (o.map f) := by
  cases o with
  | none => trivial
  | some t => exact hf t h

theorem MoveOk.bind {o : Option State} {f : State → Option State} (h : MoveOk o) (hf : ∀ t : State, t.memOk → MoveOk (f t)) :
    MoveOk (o.bind f) := by
  cases o with
  | none => trivial
  | some t => exact hf t h

theorem MoveOk.getD {o : Option State} (h : MoveOk o) (hs : s.memOk) : (o.getD s).memOk := by
  cases o with
  | none => exact hs
  | some t => exact h

theorem OutOk.ofOption {o : Option State} {name : String} (h : MoveOk o) : OutOk (Out.ofOption name o) := by
  cases o with
  | none => trivial
  | some t => exact h

end Sys2Proof.Machine
end

section
/-! PROOF. The operations that the meanings of instructions share keep the canonical form of memory: focus, numbers, the end of an
instruction, stalls, regions, traps, flights, and the cells that compute a value. -/

namespace Sys2Proof.Machine

variable {s : State}

/-! ### Operations that leave memory as it is -/

theorem State.memOk.modCur {f : Group → Group} (h : s.memOk) : (s.modCur f).memOk := h

theorem State.memOk.setTeam {t : Team} (h : s.memOk) : (s.setTeam t).memOk := h

theorem State.memOk.setLaunch {l : Launch} (h : s.memOk) : (s.setLaunch l).memOk := h

theorem State.memOk.modLaunch {l : Nat} {f : Launch → Launch} (h : s.memOk) : (s.modLaunch l f).memOk := h

theorem State.memOk.setCommand {c : Command} (h : s.memOk) : (s.setCommand c).memOk := h

theorem State.memOk.setQueue {q : Nat} {x : Queue} (h : s.memOk) : (s.setQueue q x).memOk := h

theorem State.memOk.setDie {d : Nat} {x : Die} (h : s.memOk) : (s.setDie d x).memOk := h

theorem State.memOk.mapGroups {p : Group → Bool} {f : Group → Group} (h : s.memOk) : (s.mapGroups p f).memOk := h

theorem State.memOk.setPoison {line : Nat} {p : Bool} (h : s.memOk) : (s.setPoison line p).memOk := h

theorem State.memOk.remember {line : Nat} (h : s.memOk) : (s.remember line).memOk := h

theorem State.memOk.notify {line : Nat} {hit : Nat → Nat → Bool} (h : s.memOk) : (s.notify line hit).memOk := h

theorem State.memOk.number (h : s.memOk) : s.number.2.memOk := h

theorem State.memOk.tookInput (h : s.memOk) : s.tookInput.memOk := h

theorem State.memOk.addShared {i unit : Nat} {n : DWord} (h : s.memOk) : (s.addShared i unit n).memOk := h

theorem State.memOk.finish {b0 : DWord} (h : s.memOk) : (s.finish b0).memOk := h

theorem State.memOk.finishAt {pc : DWord} {b0 : Nat → DWord} (h : s.memOk) : (s.finishAt pc b0).memOk := h

theorem State.memOk.finishLanes {b0 : Nat → DWord} (h : s.memOk) : (s.finishLanes b0).memOk := h

theorem State.memOk.progress (h : s.memOk) : s.progress.memOk := h

theorem State.memOk.stallFor {hold : Hold} {w : Wait} {cause : Nat} (h : s.memOk) : (s.stallFor hold w cause).memOk := h

theorem State.memOk.stallAt {w : Wait} {cause : Nat} (h : s.memOk) : (s.stallAt w cause).memOk := h

theorem State.memOk.stallOn {hold : Hold} {cause : Nat} (h : s.memOk) : (s.stallOn hold cause).memOk := h

theorem State.memOk.stall {cause : Nat} (h : s.memOk) : (s.stall cause).memOk := h

theorem State.memOk.stallPorts {w : Wait} {m : LaneMask} {pops : List Nat} {push : Option Nat} (h : s.memOk) :
    (s.stallPorts w m pops push).memOk := h

theorem State.memOk.startRegion (h : s.memOk) : s.startRegion.memOk := h

theorem State.memOk.launchFlight {path : Nat} {kind : FlightKind} (h : s.memOk) : (s.launchFlight path kind).memOk := h

theorem State.memOk.launchWalk {va : DWord} {info : Nat} {kind : FlightKind} (h : s.memOk) : (s.launchWalk va info kind).memOk := h

theorem State.memOk.takePops {m : LaneMask} {pops : List Nat} (h : s.memOk) : (s.takePops m pops).memOk := h

theorem State.memOk.jump {target b0 : DWord} (h : s.memOk) : (s.jump target b0).memOk := h

theorem State.memOk.withGroups {gs : List Group} (h : s.memOk) : (s.withGroups gs).memOk := by
  unfold State.withGroups
  split
  · exact h
  · exact h

theorem State.memOk.commit (h : s.memOk) : s.commit.memOk := h.same (mem_commit s)

theorem State.memOk.endRegion (h : s.memOk) : s.endRegion.memOk := h.same (mem_endRegion s)

/-! ### Groups out of focus -/

/-- A move of a group that is brought into focus for it. -/
theorem State.memOk.inGroup? {g : Nat} {f : State → Option State} (h : s.memOk) (hf : ∀ t : State, t.memOk → MoveOk (f t)) :
    MoveOk (s.inGroup? g f) := by
  unfold State.inGroup?
  split
  · trivial
  · split
    next t e => exact memOk_focus _ _ ((hf _ (memOk_focus s g h)).some e)
    next => trivial

theorem State.memOk.inEach {gs : List Nat} {f : State → State} (h : s.memOk) (hf : ∀ t : State, t.memOk → (f t).memOk) :
    (s.inEach gs f).memOk := h.foldl fun _ _ ht => memOk_inGroup _ _ _ hf (ht.same rfl)

/-! ### Traps -/

theorem State.memOk.trap {cause : Nat} {tval : DWord} (h : s.memOk) : (s.trap cause tval).memOk := memOk_trap _ _ _ h

theorem State.memOk.poisonTrap {pre : Group → Group} {tpc tval : DWord} (h : s.memOk) : (s.poisonTrap pre tpc tval).memOk :=
  memOk_poisonTrap _ _ _ _ h

theorem State.memOk.illegal (h : s.memOk) : s.illegal.memOk := h.trap

theorem State.memOk.badOperand (h : s.memOk) : s.badOperand.memOk := h.trap

theorem State.memOk.trapDone {pre : Group → Group} {cause : Nat} {tpc tval : DWord} (h : s.memOk) :
    (s.trapDone pre cause tpc tval).memOk := memOk_trapAfter _ _ _ _ _ h

theorem State.memOk.endLaunch {launch info : Nat} {va pc : DWord} {tid0 tix : Word} (h : s.memOk) :
    (s.endLaunch launch va pc tid0 tix info).memOk := memOk_endLaunch _ _ _ _ _ _ _ h

theorem State.memOk.endOwnLaunch {cause : Nat} {tval : DWord} (h : s.memOk) : (s.endOwnLaunch cause tval).memOk := h.endLaunch

theorem State.memOk.park {va : DWord} {kind info : Nat} (h : s.memOk) : (s.park va kind info).memOk := h

/-! ### Meanings that run past a check or a wait -/

section
variable {f : State → State} (hf : ∀ t : State, t.memOk → (f t).memOk)
include hf

theorem State.memOk.regionEnder (h : s.memOk) : (s.regionEnder f).memOk := by
  unfold State.regionEnder
  split
  · exact h.stall
  · exact hf _ h.endRegion

theorem State.memOk.syncing {sync : Bool} (h : s.memOk) : (s.syncing sync f).memOk := by
  unfold State.syncing
  split
  · exact h
  · exact hf _ h

theorem State.memOk.afterWait {paths : BitVec 6} (h : s.memOk) : (s.afterWait paths f).memOk := by
  unfold State.afterWait
  split
  · exact h.poisonTrap
  · exact hf _ h

theorem State.memOk.raising {path : Nat} (h : s.memOk) : (s.raising path f).memOk := by
  unfold State.raising
  split
  · exact h.stallOn
  · exact hf _ h

theorem State.memOk.throughPorts {m : LaneMask} {pops : List Nat} {push : Option Nat} (h : s.memOk) :
    (s.throughPorts m pops push f).memOk := by
  unfold State.throughPorts
  split
  · exact h.stallPorts.ite h.endRegion.stallPorts
  · exact h.regionEnder hf

theorem State.memOk.sound {lanes : List Nat} {srcs : List Src} (h : s.memOk) : (s.sound lanes srcs f).memOk := by
  unfold State.sound
  split
  · exact h.poisonTrap
  · exact hf _ h

theorem State.memOk.uniformOp {srcs : List Src} (h : s.memOk) : (s.uniformOp srcs f).memOk := by
  unfold State.uniformOp
  split
  · exact h.illegal
  · split
    · exact h.badOperand
    · exact hf _ h

theorem State.memOk.readOp {srcs : List Src} (h : s.memOk) : (s.readOp srcs f).memOk := h.uniformOp fun _ ht => ht.sound hf

theorem State.memOk.aligned4 {target : DWord} (h : s.memOk) : (s.aligned4 target f).memOk := by
  unfold State.aligned4
  split
  · exact h.trap
  · exact hf _ h

theorem State.memOk.withScope {scope : Nat} (h : s.memOk) : (s.withScope scope f).memOk := by
  unfold State.withScope
  split
  · exact hf _ h
  · exact h.trap

theorem State.memOk.afterRelease {scope cause : Nat} (h : s.memOk) : (s.afterRelease scope cause f).memOk := by
  unfold State.afterRelease
  split
  · exact hf _ (memOk_release _ _ h)
  · exact h.stallOn

end

/-! ### Cells that compute a value -/

theorem State.memOk.reserve {s0 : State} {port lane : Nat} {e : RillEntry} (h : s.memOk) : (s.reserve s0 port lane e).memOk := by
  unfold State.reserve
  split
  · exact h
  · exact h

theorem State.memOk.reserveAll {s0 : State} {m : LaneMask} {port : Nat} {entry : Nat → RillEntry} (h : s.memOk) :
    (s.reserveAll s0 m port entry).memOk := h.foldl fun _ _ ht => ht.reserve

theorem State.memOk.deliver {tag : Nat} {dst : Dst} {vals : List (Nat × Nat)} (h : s.memOk) : (s.deliver tag dst vals).memOk := by
  unfold State.deliver
  split
  · exact h.foldl fun _ _ ht => ht
  · exact h

theorem State.memOk.cellRunFixed {c : Cell} (h : s.memOk) : (c.runFixed s).memOk := by
  unfold Cell.runFixed
  split
  · exact h
  · refine State.memOk.finishLanes (State.memOk.modCur ?_)
    split
    · exact h.takePops.reserveAll
    · exact h.takePops

theorem State.memOk.cellRunLong {c : Cell} (h : s.memOk) : (c.runLong s).memOk := by
  unfold Cell.runLong
  split
  · exact h
  · refine State.memOk.finish (State.memOk.modCur (State.memOk.launchFlight ?_))
    split
    · exact h.takePops.reserveAll
    · exact h.takePops

theorem State.memOk.cellProceed {c : Cell} (h : s.memOk) : (c.proceed s).memOk := by
  have run (t : State) (ht : t.memOk) : (if c.long then c.runLong t else c.runFixed t).memOk := ht.cellRunLong.ite ht.cellRunFixed
  unfold Cell.proceed
  dsimp only
  split
  · exact h.stallOn
  · split
    · exact run s h
    · exact h.throughPorts fun t ht => (run t ht).startRegion.progress

theorem State.memOk.cellExec {c : Cell} (h : s.memOk) : (c.exec s).memOk := by
  unfold Cell.exec
  split
  · exact h.trap
  · exact h.sound fun _ ht => ht.cellProceed

end Sys2Proof.Machine
end

section
/-! PROOF. Control, special registers, accesses and synchronisation keep the canonical form of memory. -/

namespace Sys2Proof.Machine

variable {s : State}

/-! ### Control -/

theorem State.memOk.branch {c : Bool} {off : DWord} (h : s.memOk) : (s.branch c off).memOk :=
  h.uniformOp fun _ ht => ht.jump.ite ht.finish

theorem State.memOk.call {target : DWord} {f : Nat} (h : s.memOk) : (s.call target f).memOk := h.trapDone.ite h.modCur.jump

theorem State.memOk.callCell {any : Bool} {f : Nat} {off : DWord} (h : s.memOk) : (s.callCell any f off).memOk :=
  h.uniformOp fun _ ht => ht.finish.ite ht.call

theorem State.memOk.brCell {cond : Nat} {off : DWord} (h : s.memOk) : (s.brCell cond off).memOk :=
  h.branch.ite (h.illegal.ite h.callCell)

theorem State.memOk.ret (h : s.memOk) : s.ret.memOk := h.trapDone.ite h.modCur.jump

theorem State.memOk.callrCell {any : Bool} {a b : Code} (h : s.memOk) : (s.callrCell any a b).memOk :=
  h.readOp fun _ ht => ht.aligned4 fun _ hu => hu.finish.ite hu.call

theorem State.memOk.wbase {w : DWord} (h : s.memOk) : (s.wbase w).memOk :=
  h.badOperand.ite (h.trapDone.ite (h.trapDone.ite h.modCur.finish))

theorem State.memOk.ucmp {k : Nat} {a b : Code} (h : s.memOk) : (s.ucmp k a b).memOk := h.readOp fun _ ht => ht.modCur.finish

theorem State.memOk.rtt (h : s.memOk) : s.rtt.memOk :=
  h.illegal.ite (h.trap.ite (h.regionEnder fun _ ht => ht.finishAt.modCur.startRegion.progress))

theorem State.memOk.maskCell {a : Code} {f : LaneMask → LaneMask → LaneMask} (h : s.memOk) : (s.maskCell a f).memOk :=
  h.readOp fun _ ht => ht.modCur.finish

/-! ### Special registers, spills and fills -/

theorem State.memOk.countShared {i : Nat} (h : s.memOk) : (s.countShared i).memOk := by
  unfold State.countShared
  split
  · split
    · exact h.addShared
    · exact h
  · exact h

theorem State.memOk.sreadAt {d : Code} {i : Nat} (h : s.memOk) : (s.sreadAt d i).memOk := by
  unfold State.sreadAt
  dsimp only
  split
  · exact h.trap
  · exact h.badOperand.ite h.countShared.cellProceed

theorem State.memOk.settle {a : Agent} {desc : CtxDesc} {r : LaunchRec} {acc : Access} {va : DWord} (h : s.memOk) :
    (s.settle a desc r acc va).memOk := memOk_settle _ _ _ _ _ _ h

theorem State.memOk.storeBytes {a : Agent} {scope pa n x : Nat} {home : Home} (h : s.memOk) :
    (s.storeBytes a scope home pa n x).memOk := memOk_storeBytes _ _ _ _ _ _ _ h

theorem State.memOk.spillOne {va : DWord} {x : Word} (h : s.memOk) : (s.spillOne va x).memOk := by
  unfold State.spillOne
  dsimp only
  split
  · exact h.settle.storeBytes.modCur
  · exact h.settle

theorem State.memOk.windowSpill {n : Nat} {vas : List (Nat × (Nat × DWord))} (h : s.memOk) : (s.windowSpill n vas).memOk :=
  (h.foldl fun _ _ ht => ht.spillOne).modCur

theorem State.memOk.windowFill {n : Nat} {vas : List (Nat × (Nat × DWord))} (h : s.memOk) : (s.windowFill n vas).memOk :=
  (h.foldl fun _ _ ht => ht.settle).modCur.foldl fun _ _ ht => ht.modCur

theorem State.memOk.window {spill : Bool} {n : Nat} (h : s.memOk) : (s.window spill n).memOk := by
  unfold State.window
  refine h.badOperand.ite (h.trap.ite (h.trap.ite ?_))
  dsimp only
  generalize s.windowStop _ _ = stop
  split
  · exact h.trap
  · exact h.trap
  · exact h.settle.stallOn
  · exact h.stallOn.ite (h.poisonTrap.ite (h.windowSpill.ite h.windowFill).finish)

theorem State.memOk.swriteAt {a : Code} {i : Nat} (h : s.memOk) : (s.swriteAt a i).memOk :=
  h.uniformOp fun _ ht => ht.badOperand.ite (ht.sound fun _ hu => hu.window.ite hu.modCur.finish)

/-! ### The checks of an access -/

theorem State.memOk.checkAccess {acc : Access} {size : Nat} {eas : List (Nat × DWord)} (h : s.memOk) :
    (s.checkAccess acc size eas).memOk := by
  unfold State.checkAccess
  split
  · trivial
  · split
    · trivial
    · dsimp only
      split
      · trivial
      · trivial
      · exact h.settle
      · exact h.foldl fun _ _ ht => ht.settle

theorem State.memOk.checkOne {acc : Access} {size kind : Nat} {va : DWord} {f : Placed → State → State} (h : s.memOk)
    (hf : ∀ (p : Placed) (t : State), t.memOk → (f p t).memOk) : (s.checkOne acc size va kind f).memOk := by
  unfold State.checkOne
  split
  next => exact h.trap
  next e => exact (h.checkAccess.wait e).stallOn
  next => exact h.park
  next e =>
    have ht := h.checkAccess.ok e
    split
    · exact ht
    · exact hf _ _ ht

theorem State.memOk.endAccess {ends : Bool} (h : s.memOk) : (s.endAccess ends).memOk :=
  h.finish.progress.commit.startRegion.ite h.finish.progress

theorem State.memOk.heldAfter {acquire : Bool} (h : s.memOk) : (s.heldAfter acquire).memOk := h.modCur.ite h

/-! ### Loads -/

theorem State.memOk.loadStart {c : LoadCell} {places : List (Nat × (DWord × Placed))} {ends : Bool} (h : s.memOk) :
    (c.start s places ends).memOk := by
  unfold LoadCell.start
  refine State.memOk.heldAfter (State.memOk.endAccess (State.memOk.launchFlight ?_))
  split
  · exact h.reserveAll
  · exact h

theorem State.memOk.loadAccess {c : LoadCell} {ends : Bool} (h : s.memOk) : (c.access ends s).memOk := by
  unfold LoadCell.access
  split
  next => exact h.trap
  next e => exact (h.checkAccess.wait e).stallOn
  next => exact h.park.ite h.launchWalk.endAccess.heldAfter
  next e => exact (h.checkAccess.ok e).syncing fun _ hu => hu.loadStart

theorem State.memOk.loadExec {c : LoadCell} (h : s.memOk) : (c.exec s).memOk := by
  unfold LoadCell.exec
  split
  · exact h.trap
  · refine h.withScope fun _ ht => ht.sound fun _ hu => hu.raising fun _ hv => ?_
    split
    · exact hv.throughPorts fun _ hw => hw.loadAccess
    · exact hv.loadAccess

/-! ### Stores -/

theorem State.memOk.storeDone {c : StoreCell} {lines : List Nat} {sync ends : Bool} (h : s.memOk) :
    (c.done s lines sync ends).memOk := h.takePops.modCur.launchFlight.endAccess

theorem State.memOk.storeBuffer {c : StoreCell} {xs : List (Nat × Placed)} {ends : Bool} (h : s.memOk) :
    (c.buffer s xs ends).memOk := h.trap.ite (h.stallOn.ite h.modCur.storeDone)

theorem State.memOk.keepOld {lines : List Nat} (h : s.memOk) : (s.keepOld lines).memOk := h

theorem State.memOk.storeNow {c : StoreCell} {xs : List (Nat × Placed)} {sync : Bool} (h : s.memOk) : (c.now s xs sync).memOk :=
  (h.keepOld.foldl fun _ _ ht => ht.storeBytes).storeDone

theorem State.memOk.storeTable {c : StoreCell} {xs : List (Nat × Placed)} (h : s.memOk) : (c.table s xs).memOk :=
  h.regionEnder fun _ ht => ht.stallOn.ite ht.storeNow

theorem State.memOk.storeStart {c : StoreCell} {places : List (Nat × (DWord × Placed))} {ends : Bool} (h : s.memOk) :
    (c.start s places ends).memOk :=
  (h.syncing fun _ ht => ht.afterRelease fun _ hu => hu.storeNow).ite (h.storeTable.ite h.storeBuffer)

theorem State.memOk.storeAccess {c : StoreCell} {ends : Bool} (h : s.memOk) : (c.access ends s).memOk := by
  unfold StoreCell.access
  split
  next => exact h.trap
  next e => exact (h.checkAccess.wait e).stallOn
  next => exact h.stall.ite h.park
  next e => exact (h.checkAccess.ok e).storeStart

theorem State.memOk.storeExec {c : StoreCell} (h : s.memOk) : (c.exec s).memOk := by
  unfold StoreCell.exec
  split
  · exact h.trap
  · exact h.withScope fun _ ht => ht.sound fun _ hu => hu.raising fun _ hv =>
      (hv.throughPorts fun _ hw => hw.storeAccess).ite hv.storeAccess

/-! ### Atomics -/

theorem State.memOk.atomicStart {c : AtomicCell} {places : List (Nat × (DWord × Placed))} (h : s.memOk) :
    (c.start s places).memOk := h.launchFlight.endAccess.heldAfter

theorem State.memOk.atomicAccess {c : AtomicCell} (h : s.memOk) : (c.access s).memOk := by
  unfold AtomicCell.access
  split
  next => exact h.trap
  next e => exact (h.checkAccess.wait e).stallOn
  next => exact h.park
  next e => exact (h.checkAccess.ok e).syncing fun _ hu => (hu.afterRelease fun _ hv => hv.atomicStart).ite hu.atomicStart

theorem State.memOk.atomicExec {c : AtomicCell} (h : s.memOk) : (c.exec s).memOk := by
  unfold AtomicCell.exec
  split
  · exact h.trap
  · exact h.withScope fun _ ht => ht.sound fun _ hu => hu.raising fun _ hv => hv.regionEnder fun _ hw => hw.atomicAccess

/-! ### The scratchpad -/

theorem State.memOk.spmChecked {c : SpmCell} {f : List (Nat × Nat) → State} (h : s.memOk) (hf : ∀ eas, (f eas).memOk) :
    (c.checked s f).memOk := by
  unfold SpmCell.checked
  dsimp only
  split
  · exact h.trap
  · exact hf _

theorem State.memOk.spmLoad {c : SpmCell} {eas : List (Nat × Nat)} {ends : Bool} (h : s.memOk) : (c.load s eas ends).memOk := by
  unfold SpmCell.load
  refine State.memOk.endAccess (State.memOk.launchFlight (State.memOk.addShared ?_))
  split
  · exact h.reserveAll
  · exact h

theorem State.memOk.spmStore {c : SpmCell} {eas : List (Nat × Nat)} {ends : Bool} (h : s.memOk) : (c.store s eas ends).memOk :=
  h.takePops.modCur.addShared.launchFlight.endAccess

theorem State.memOk.spmExecLoad {c : SpmCell} (h : s.memOk) : (c.execLoad s).memOk := by
  unfold SpmCell.execLoad
  split
  · exact h.trap
  · exact h.sound fun _ ht => ht.raising fun _ hu =>
      (hu.throughPorts fun _ hv => hv.spmChecked fun _ => hv.spmLoad).ite (hu.spmChecked fun _ => hu.spmLoad)

theorem State.memOk.spmExecStore {c : SpmCell} (h : s.memOk) : (c.execStore s).memOk := by
  unfold SpmCell.execStore
  split
  · exact h.trap
  · exact h.sound fun _ ht => ht.raising fun _ hu =>
      (hu.spmChecked fun _ => hu.spmStore).ite (hu.throughPorts fun _ hv => hv.spmChecked fun _ => hv.spmStore)

/-! ### Fences and monitors -/

theorem State.memOk.release {scope : Nat} (h : s.memOk) : (s.release scope).memOk := memOk_release _ _ h

theorem State.memOk.acquire {scope : Nat} (h : s.memOk) : (s.acquire scope).memOk := memOk_acquire _ _ h

theorem State.memOk.fenceAcquire {scope : Nat} (h : s.memOk) : (s.fenceAcquire scope).memOk :=
  h.stallOn.ite (h.afterWait fun _ ht => ht.acquire.finish)

theorem State.memOk.fence {ord : BitVec 2} {scope : Nat} (h : s.memOk) : (s.fence ord scope).memOk :=
  h.uniformOp fun _ ht => ht.withScope fun _ hu =>
    (hu.regionEnder fun _ hv => hv.stallOn.ite
      (hv.afterWait fun _ hw => (hw.release.acquire.ite hw.release).finish.startRegion)).ite hu.fenceAcquire

theorem State.memOk.endWaitv {d : Code} {x va : DWord} {poisoned : Bool} (h : s.memOk) : (s.endWaitv d x va poisoned).memOk :=
  h.modCur.finish.progress.modCur.ite h.modCur.finish.progress

theorem State.memOk.readWaitv {acq : Bool} {scope : Nat} {d : Code} {va : DWord} {p : Placed} (h : s.memOk) :
    (s.readWaitv acq scope d va p).memOk :=
  h.stallOn.ite (h.stallAt.ite ((h.acquire.endWaitv.ite h.stallOn).ite h.endWaitv))

theorem State.memOk.waitv {acq : Bool} {scope : Nat} {d a : Code} {units : DWord} (h : s.memOk) :
    (s.waitv acq scope d a units).memOk := by
  refine h.uniformOp fun _ ht => ht.withScope fun _ hu => hu.sound fun v hv => ?_
  dsimp only
  split
  next => exact hv.trap
  next e => exact (hv.checkAccess.wait e).stallOn
  next => exact hv.stall.ite hv.park
  next e =>
    have hw := hv.checkAccess.ok e
    split
    · exact hw
    · exact hw.syncing fun _ hx => hx.readWaitv

/-! ### Pairs of words -/

theorem State.memOk.memCell {major kind : Nat} {ord : BitVec 2} {scope : BitVec 3} {d a : Code} {units : DWord} (h : s.memOk) :
    (s.memCell major kind ord scope d a units).memOk := by
  unfold State.memCell
  split
  iterate 8 exact h.loadExec
  iterate 5 exact h.storeExec
  iterate 16 exact h.atomicExec
  iterate 3 exact h.spmExecLoad
  iterate 3 exact h.spmExecStore
  · exact h.waitv
  · exact h.illegal

theorem State.memOk.pair {imm : BitVec 27} {second : Option Prefixed} (h : s.memOk) : (s.pair imm second).memOk := by
  unfold State.pair
  split
  · exact h.illegal
  · split
    · exact h.illegal
    · exact h.cellExec
    · exact h.cellExec
    · exact h.brCell
    · exact h.memCell

/-! ### Lanes and rill -/

theorem State.memOk.pull {k : Nat} {d a b : Code} (h : s.memOk) : (s.pull k d a b).memOk := h.cellExec

theorem State.memOk.vote {d a : Code} {f : List DWord → Bool} (h : s.memOk) : (s.vote d a f).memOk := h.cellExec

theorem State.memOk.reduce {d a : Code} {ext : Ext} {f : Combine} {q : Lone} (h : s.memOk) : (s.reduce d a ext f q).memOk :=
  h.cellExec

theorem State.memOk.scan {d a : Code} {f : Combine} {q : Lone} (h : s.memOk) : (s.scan d a f q).memOk := h.cellExec

theorem State.memOk.cellExecUniformB {c : Cell} {b : Code} (h : s.memOk) : (c.execUniformB b s).memOk := by
  unfold Cell.execUniformB
  split
  · exact h.trap
  · exact (h.sound fun _ ht => ht.cellProceed).ite h.badOperand

theorem State.memOk.withPort {a : Code} {f : Nat → State} (h : s.memOk) (hf : ∀ p, (f p).memOk) : (s.withPort a f).memOk :=
  (hf _).ite h.badOperand

theorem State.memOk.rdrain {port : Nat} (h : s.memOk) : (s.rdrain port).memOk :=
  (h.ite h.endRegion).stallFor.ite (h.regionEnder fun _ ht => ht.modCur.finish.startRegion.progress)

end Sys2Proof.Machine
end

section
/-! PROOF. Rendezvous, barriers, the reading of records, placement, the end of a team and `LAUNCH` keep the canonical form of
memory. -/

namespace Sys2Proof.Machine

variable {s : State}

/-! ### Rendezvous -/

theorem State.memOk.pullIn {core scope : Nat} (h : s.memOk) : (s.pullIn core scope).memOk := memOk_pullIn _ _ _ h

theorem State.memOk.trapTeam {cause : Nat} {tval : Group → DWord} (h : s.memOk) : (s.trapTeam cause tval).memOk :=
  h.inEach fun _ ht => ht.trap

theorem State.memOk.passAll {team : Nat} {b0 : Group → DWord} (h : s.memOk) : (s.passAll team b0).memOk :=
  h.inEach fun _ ht => ht.finish.modCur.startRegion.progress

theorem State.memOk.settleStores {t : Team} (h : s.memOk) : (s.settleStores t).memOk :=
  (h.inEach fun _ ht => ht.release).foldl fun _ _ ht => ht.pullIn.ite ht

theorem State.memOk.rendezvous {which : Nat} {operand : DWord} {f : State → State} (h : s.memOk)
    (hf : ∀ t : State, t.memOk → (f t).memOk) : (s.rendezvous which operand f).memOk :=
  h.illegal.ite (h.regionEnder fun _ ht =>
    have hu := ht.stallAt
    hu.trap.ite (hu.ite (hu.trapTeam.ite (hu.ite (hu.ite (hf _ hu))))))

theorem State.memOk.nameGroups {gs : List Group} (h : s.memOk) : (s.nameGroups gs).1.memOk := by
  refine List.foldlRecOn (motive := fun acc : State × List Group => acc.1.memOk) gs _ h fun acc hacc g _ => ?_
  split
  · exact hacc
  · exact hacc

theorem State.memOk.replaceGroups {team : Nat} {gs : List Group} (h : s.memOk) : (s.replaceGroups team gs).memOk :=
  State.memOk.withGroups (s := { s with draws := s.draws + 1 }) h

theorem State.memOk.reslice {t : Team} {w : Nat} (h : s.memOk) : (s.reslice t w).memOk := h.nameGroups.setTeam.replaceGroups

theorem State.memOk.repack {t : Team} (h : s.memOk) : (s.repack t).memOk := h.setTeam.replaceGroups

theorem State.memOk.setwEffect (h : s.memOk) : s.setwEffect.memOk :=
  h.trapTeam.ite (h.trapTeam.ite (h.passAll.ite h.settleStores.reslice.passAll))

theorem State.memOk.regroupEffect {d : Nat} (h : s.memOk) : (s.regroupEffect d).memOk :=
  h.trapTeam.ite (h.trapTeam.ite
    ((h.inEach fun _ ht => ht.modCur).settleStores.repack.inEach fun _ ht => ht.modCur).passAll)

theorem State.memOk.rcfgEffect (h : s.memOk) : s.rcfgEffect.memOk := h.trapTeam.ite (h.trapTeam.ite h.setTeam.passAll)

/-! ### Barriers -/

theorem State.memOk.settleBar {team k : Nat} (h : s.memOk) : (s.settleBar team k).memOk := by
  unfold State.settleBar
  split
  · exact h
  · exact h.setTeam.mapGroups.ite h

theorem State.memOk.settleBars {team : Nat} (h : s.memOk) : (s.settleBars team).memOk := h.foldl fun _ _ ht => ht.settleBar

theorem State.memOk.arrive {k : Nat} (h : s.memOk) : (s.arrive k).memOk := h.setTeam.modCur.settleBar

theorem State.memOk.withdrawBar {k : Nat} (h : s.memOk) : (s.withdrawBar k).memOk := h.setTeam.modCur

theorem State.memOk.passBar {scope : Nat} (h : s.memOk) : (s.passBar scope).memOk :=
  h.stallFor.ite h.acquire.finish.startRegion.progress

theorem State.memOk.waitBar {k : Nat} {phase : BitVec 16} (h : s.memOk) : (s.waitBar k phase).memOk :=
  h.passBar.ite (h.withdrawBar.trap.ite h.stallAt)

theorem State.memOk.barCell {sync : Bool} {a : Code} (h : s.memOk) : (s.barCell sync a).memOk := by
  refine h.uniformOp fun t ht => ?_
  have arrives {k : Nat} {phase : BitVec 16} : (if t.cur.arrived.contains (k, phase) then
        (if sync && t.barNeedsTrapped k then t.trap causeWatchdog 1 else t.stallOn (.arrived k sync) stallBarrier)
      else
        t.regionEnder fun s => s.afterRelease s.team.scope stallBarrier fun s =>
          if sync then (s.arrive k).waitBar k phase else ((s.arrive k).finish 0).startRegion).memOk :=
    (ht.trap.ite ht.stallOn).ite (ht.regionEnder fun _ hu => hu.afterRelease fun _ hv =>
      hv.arrive.waitBar.ite hv.arrive.finish.startRegion)
  dsimp only
  split
  · exact ht.waitBar.ite arrives
  · exact arrives

theorem State.memOk.settleCbar {launch : Nat} (h : s.memOk) : (s.settleCbar launch).memOk := by
  unfold State.settleCbar
  split
  · exact h
  · exact h.setLaunch.ite h

theorem State.memOk.arriveCbar (h : s.memOk) : s.arriveCbar.memOk := h.setLaunch.ite h.setLaunch

theorem State.memOk.waitCbar {phase : Word} (h : s.memOk) : (s.waitCbar phase).memOk :=
  h.passBar.ite (h.setLaunch.trap.ite h.stallAt)

/-! ### What a hub reads -/

theorem State.memOk.noteAts {hub page : Nat} (h : s.memOk) : (s.noteAts hub page).memOk := memOk_noteAts _ _ _ h

theorem State.memOk.hubReach {hub pa n : Nat} {acc : Access} (h : s.memOk) : (s.hubReach hub acc pa n).memOk := by
  unfold State.hubReach
  dsimp only
  split
  · exact h.noteAts
  · exact h.noteAts
  · split
    · exact h
    · trivial
  · trivial

theorem State.memOk.hubReachAll {hub : Nat} {xs : List (Access × (Nat × Nat))} (h : s.memOk) : (s.hubReachAll hub xs).memOk := by
  induction xs with
  | nil => trivial
  | cons x rest ih =>
    unfold State.hubReachAll
    split
    · exact ih
    · exact h.hubReach

/-- The state that an access of a hub waits in. -/
theorem HubReach.memOk.waits {r : HubReach} (h : r.memOk) : MoveOk r.waits := by
  cases r with
  | wait t => exact h
  | ready => trivial
  | refused => trivial

theorem State.memOk.hubPlace {hub : Nat} {d : CtxDesc} {r : LaunchRec} {acc : Access} {va : DWord} (h : s.memOk) :
    (s.hubPlace hub d r acc va).memOk := by
  unfold State.hubPlace
  split
  · trivial
  · trivial
  · exact h.settle
  · exact h.settle
  · split
    · exact h
    · trivial

theorem State.memOk.ringsWait {hub : Nat} {d : CtxDesc} (h : s.memOk) : MoveOk (s.ringsWait hub d) := h.hubReachAll.waits

theorem State.memOk.recordAt {hub : Nat} {d : CtxDesc} {clean : Bool} {p q : Placed} (h : s.memOk) :
    (s.recordAt hub d clean p q).memOk := by
  unfold State.recordAt
  lift_lets
  intro a x second whole r
  split
  · trivial
  · split
    next => trivial
    next e => exact h.hubPlace.wait e
    next =>
      split
      next e => exact h.ringsWait.some e
      next => trivial

theorem State.memOk.readRecord {hub ctx : Nat} {va : DWord} (h : s.memOk) : (s.readRecord hub ctx va).memOk := by
  unfold State.readRecord
  split
  · trivial
  · split
    next => trivial
    next e => exact h.hubReach.wait e
    next =>
      dsimp only
      split
      · trivial
      · split
        next => exact h.recordAt
        next e => exact h.hubPlace.wait e
        next _ e => exact h.hubPlace.wait e
        next => trivial

theorem State.memOk.recordTouched {hub ctx : Nat} {va : DWord} (h : s.memOk) : (s.recordTouched hub ctx va).memOk :=
  h.foldl fun _ _ ht => ht.settle.ite ht

theorem State.memOk.atomicAt {a : Agent} {scope pa : Nat} {home : Home} {f : Nat → Nat} (h : s.memOk) :
    (s.atomicAt a scope home pa f).memOk := h.storeBytes

theorem State.memOk.countAt {a : Agent} {scope r : Nat} {d : CtxDesc} {rec : LaunchRec} {ctr : DWord} (h : s.memOk) :
    (s.countAt a scope d rec ctr r).memOk := by
  unfold State.countAt
  split
  · exact h.settle.atomicAt
  · exact h

theorem State.memOk.countRecord {hub r : Nat} {d : CtxDesc} {rec : LaunchRec} (h : s.memOk) : (s.countRecord hub d rec r).memOk :=
  h.countAt

theorem State.memOk.countWaits {hub : Nat} {d : CtxDesc} {rec : LaunchRec} (h : s.memOk) : MoveOk (s.countWaits hub d rec) := by
  unfold State.countWaits
  split
  next e => exact h.hubPlace.wait e
  next => trivial

theorem State.memOk.waitFrom {s t : State} (h : t.memOk) : MoveOk (s.waitFrom t) := h.unless

theorem State.memOk.counted {hub r : Nat} {d : CtxDesc} {rec : LaunchRec} {f : State → State} (h : s.memOk)
    (hf : ∀ t : State, t.memOk → (f t).memOk) : MoveOk (s.counted hub d rec r f) := by
  unfold State.counted
  split
  next e => exact (h.countWaits.some e).waitFrom
  next => exact hf _ h.countRecord

/-! ### Placing a team, and its end -/

theorem State.memOk.setFrames {pfr c : Nat} (h : s.memOk) : (s.setFrames pfr c).memOk := by
  unfold State.setFrames
  split
  · exact h
  · exact memOk_filter h _ rfl

theorem State.memOk.addTeam {t : Team} {d : CtxDesc} {r : LaunchRec} {pipes : List Nat} (h : s.memOk) :
    (s.addTeam t d r pipes).memOk :=
  State.memOk.same (s := (coresOf t.pspan t.core).foldl (fun u c => u.setFrames d.pfr c) s) (h.foldl fun _ _ ht => ht.setFrames) rfl

theorem State.memOk.endTeam {t : Team} (h : s.memOk) : (s.endTeam t).memOk := by
  unfold State.endTeam
  dsimp only
  split
  · exact h
  · exact h

theorem State.memOk.refuseSuccessor {t : Team} {l : Launch} (h : s.memOk) : (s.refuseSuccessor t l).memOk := h.setLaunch.endTeam

theorem State.memOk.startSuccessor {t : Team} {l : Launch} {valid : Bool} (h : s.memOk) : (s.startSuccessor t l valid).memOk := by
  unfold State.startSuccessor
  refine h.refuseSuccessor.ite ?_
  dsimp only
  split
  · exact h.refuseSuccessor
  · exact State.memOk.foldl (State.memOk.addTeam h.number.setLaunch.endTeam) fun _ _ ht => ht.pullIn

theorem State.memOk.lastExit {t : Team} {ctx : Nat} {v : DWord} (h : s.memOk) : (s.lastExit t ctx v).memOk := by
  unfold State.lastExit
  refine h.endTeam.ite ?_
  split
  · exact h.startSuccessor
  · dsimp only
    split
    · exact State.memOk.startSuccessor (h.recordTouched.same rfl)
    · split
      · exact h.recordTouched.setLaunch.endTeam
      · exact h.recordTouched.endTeam

theorem State.memOk.recordReady {ctx tix : Nat} {v : DWord} (h : s.memOk) : MoveOk (s.recordReady ctx v tix) := by
  unfold State.recordReady
  refine MoveOk.unless ?_
  split
  · exact h.ringsWait
  · split
    next e => exact h.readRecord.wait e
    next => trivial

theorem State.memOk.exitWith {n : DWord} (h : s.memOk) : (s.exitWith n).memOk := by
  unfold State.exitWith
  refine h.badOperand.ite ?_
  dsimp only
  split
  next e => exact ((MoveOk.guard h.recordReady).some e).stallOn
  next =>
    have retired {scope : Nat} {t : Team} : ((s.release scope).setTeam t).retire.memOk := State.memOk.same (h.release (scope := scope)) rfl
    exact h.stallOn.ite (retired.lastExit.ite retired.settleBars).settleCbar

/-! ### `LAUNCH` -/

theorem State.memOk.touchEng (h : s.memOk) : s.touchEng.memOk := h.launchFlight.modCur

theorem State.memOk.launchDone (h : s.memOk) : s.launchDone.memOk := h.touchEng.finish.startRegion.progress

theorem State.memOk.launchRefused {ctx : Nat} {va : DWord} (h : s.memOk) : (s.launchRefused ctx va).memOk := by
  unfold State.launchRefused
  split
  next e => exact (h.readRecord.wait e).stallOn
  next => exact h.recordTouched.launchDone
  next =>
    dsimp only
    split
    next e => exact (h.recordTouched.countWaits.some e).stallOn
    next => exact h.recordTouched.countRecord.launchDone

theorem State.memOk.launchRecord {x : DWord} (h : s.memOk) : (s.launchRecord x).memOk := by
  unfold State.launchRecord
  refine State.memOk.ite (h.stallOn.ite ?_) h.launchRefused
  split
  next e => exact (h.hubReach.wait e).stallOn
  next => exact h.launchRefused
  next => exact h.storeBytes.setQueue.launchDone

end Sys2Proof.Machine
end

section
/-! PROOF. Fetching, the waits before an instruction, the choice of a group, and the returns of operations in flight keep the
canonical form of memory. -/

namespace Sys2Proof.Machine

variable {s : State}

/-! ### Fetching -/

theorem State.memOk.fetchAt {src n : Nat} {va : DWord} (h : s.memOk) : (s.fetchAt src va n).memOk := by
  unfold State.fetchAt
  dsimp only
  split
  · trivial
  · split
    · trivial
    · exact h.settle
    · exact h.settle
    · exact h.settle
    · split
      · trivial
      · exact h.settle

theorem State.memOk.fetchWord {src : Nat} {pc : DWord} (h : s.memOk) : (s.fetchWord src pc).memOk := by
  unfold State.fetchWord
  split
  next e =>
    have ht := h.fetchAt.ok e
    split
    next e' => exact ht.fetchAt.ok e'
    next => exact ht.fetchAt
  next => exact h.fetchAt

theorem State.memOk.fetchNew (h : s.memOk) : s.fetchNew.memOk := by
  unfold State.fetchNew
  split
  next e => exact h.fetchWord.stop e
  next e =>
    have ht := h.fetchWord.ok e
    split
    · split
      next e' => exact ht.fetchWord.stop e'
      next e' => exact ht.fetchWord.ok e'
    · exact ht

theorem State.memOk.fetchInstr (h : s.memOk) : s.fetchInstr.memOk := by
  unfold State.fetchInstr
  split
  · exact h
  · exact h.fetchNew

theorem State.memOk.fetchStop {f : Fetched} (h : s.memOk) (hf : f.memOk) : (s.fetchStop f).memOk := by
  cases f with
  | ok bs t => exact hf
  | fault va info t => exact memOk_parkFetch t va info hf
  | protect va => exact h.trap
  | poison va => exact h.poisonTrap
  | wait t => exact hf

/-! ### Before the next instruction -/

theorem State.memOk.leaveBarrier (h : s.memOk) : s.leaveBarrier.memOk := by
  unfold State.leaveBarrier
  split
  · exact h
  · exact h
  · exact h

theorem State.memOk.enterReslice (h : s.memOk) : s.enterReslice.memOk := h.leaveBarrier.commit.modCur.startRegion

theorem State.memOk.before (h : s.memOk) : MoveOk s.before := by
  unfold State.before
  dsimp only
  split
  · exact h.poisonTrap
  · split
    · exact h.modCur.ite h.enterReslice
    · exact h.trap.guard

theorem State.memOk.begin {w : Word} {slot : IssueSlot} (h : s.memOk) : (s.begin w slot).memOk := by
  unfold State.begin
  dsimp only
  split
  · exact h
  · exact h

theorem State.memOk.takePipe {g : Group} (h : s.memOk) : (s.takePipe g).memOk :=
  State.memOk.same (memOk_focus _ g.id h.mapGroups) rfl

theorem State.memOk.passPipe {g : Group} (h : s.memOk) : (s.passPipe g).memOk := h.takePipe.same rfl

theorem State.memOk.yieldTo {g : Group} (h : s.memOk) : (s.yieldTo g).memOk := h.stall.passPipe

theorem State.memOk.afterWaits {first : Bool} {run : State → Out} (h : s.memOk) (hr : ∀ t : State, t.memOk → OutOk (run t)) :
    OutOk (s.afterWaits first run) := by
  unfold State.afterWaits
  split
  · exact h.passPipe
  · split
    · exact h.stall
    · split
      · exact h.stall
      · split
        · exact h.stallOn
        · split
          · exact h.poisonTrap
          · split
            · exact h.yieldTo
            · exact hr _ (h.ite h.acquire.progress)

theorem State.memOk.issueWith {run : Instr → State → Out} (h : s.memOk) (hr : ∀ (i : Instr) (t : State), t.memOk → OutOk (run i t)) :
    OutOk (s.issueWith run) := by
  unfold State.issueWith
  split
  next e => exact h.before.some e
  next =>
    split
    next e => exact h.fetchStop (h.fetchInstr.stop e)
    next e =>
      refine (h.fetchInstr.ok e).begin.afterWaits fun u hu => ?_
      split
      · exact hr _ _ hu
      · exact hu.illegal

/-! ### Which group has the pipe -/

theorem State.memOk.chooseGroup {g : Nat} (h : s.memOk) : MoveOk (s.chooseGroup g) := by
  unfold State.chooseGroup
  split
  next => trivial
  next x _ => exact h.takePipe.guard

theorem State.memOk.endRun (h : s.memOk) : MoveOk s.endRun := by
  unfold State.endRun
  refine MoveOk.unless ?_
  split
  next => trivial
  next e =>
    refine MoveOk.unless ?_
    have hu {w : Word} {slot : IssueSlot} := (h.fetchInstr.ok e).begin (w := w) (slot := slot)
    cases (State.begin _ _ _).overTo with
    | none => trivial
    | some g => exact hu.yieldTo

theorem State.memOk.rillTimeout (h : s.memOk) : MoveOk s.rillTimeout := by
  unfold State.rillTimeout
  split
  · exact h.trap.guard
  · trivial

theorem State.memOk.walkEnds {tag : Nat} (h : s.memOk) : MoveOk (s.walkEnds tag) := by
  unfold State.walkEnds
  split
  · trivial
  · exact h.park.guard

theorem State.memOk.wake {p : Bool → Bool → Bool} (h : s.memOk) : MoveOk (s.wake p) := by
  unfold State.wake
  split
  · exact h.modCur.guard
  · trivial

/-! ### Returns of loads and atomics -/

theorem State.memOk.touch {line : Nat} (h : s.memOk) : (s.touch line).memOk := memOk_touch _ _ h

theorem State.memOk.readLine {scope line : Nat} {home : Home} (h : s.memOk) : (s.readLine scope home line).memOk :=
  h.touch.ite (h.touch.same rfl)

/-- Of an operation in flight whose values have come, some lanes may be left. -/
theorem State.memOk.completed {p q : Prop} [Decidable p] [Decidable q] {f g : Group → Group} {scope : Nat} (h : s.memOk) :
    (if p then (if q then (s.modCur f).acquire scope else s.modCur f) else s.modCur g).memOk :=
  (h.modCur.acquire.ite h.modCur).ite h.modCur

theorem State.memOk.returnLoad {f : Flight} {size scope : Nat} {dst : Dst} {acq inv : Bool} {lanes : List LaneAcc} {m : LaneMask}
    (h : s.memOk) : (s.returnLoad f size dst scope acq inv lanes m).memOk := by
  have touched : (lanes.foldl (fun (t : State) x => if m.getLsbD x.lane then
      (if inv then t.touch (x.pa / 64) else t.readLine scope x.home (x.pa / 64)) else t) s).memOk :=
    h.foldl fun _ _ ht => (ht.touch.ite ht.readLine).ite ht
  exact State.memOk.completed (State.memOk.same touched.deliver rfl)

theorem State.memOk.atomicOne {op : AtomOp} {size scope : Nat} {x : LaneAcc} (h : s.memOk) :
    (s.atomicOne op size scope x).1.memOk := by
  have ht : ((if s.inHostBias (x.pa / 64) then s.takeFromHost (x.pa / 64) else s).touch (x.pa / 64)).memOk :=
    (State.memOk.ite (memOk_takeFromHost _ _ h) h).touch
  unfold State.atomicOne
  dsimp only
  split
  · exact ht.storeBytes
  · exact ht

theorem State.memOk.atomicAll {op : AtomOp} {size scope : Nat} {lanes : List LaneAcc} (h : s.memOk) :
    (s.atomicAll op size scope lanes).1.memOk := by
  induction lanes generalizing s with
  | nil => exact h
  | cons x rest ih => exact ih h.atomicOne

theorem State.memOk.atomicReturned {f : Flight} {op : AtomOp} {size scope : Nat} {dst : Dst} {acq : Bool}
    {values : List (Nat × Nat)} {rest : List LaneAcc} (h : s.memOk) :
    (s.atomicReturned f op size dst scope acq values rest).memOk := h.deliver.completed

theorem State.memOk.returnAtomic {f : Flight} {op : AtomOp} {size scope : Nat} {dst : Dst} {acq : Bool} {lanes : List LaneAcc}
    {m : LaneMask} (h : s.memOk) : (s.returnAtomic f op size dst scope acq lanes m).memOk := by
  unfold State.returnAtomic
  dsimp only
  split
  · exact h.keepOld.atomicAll.modCur.atomicReturned
  · exact h.keepOld.atomicAll.modCur.modCur

theorem State.memOk.countQueues {cluster : Nat} (h : s.memOk) : (s.countQueues cluster).memOk := h.addShared.ite h

theorem State.memOk.shootDown {lines : List Nat} (h : s.memOk) : (s.shootDown lines).memOk := h

theorem State.memOk.loadResult {tag : Nat} {m : LaneMask} (h : s.memOk) : MoveOk (s.loadResult tag m) := by
  unfold State.loadResult
  split
  · trivial
  · split
    · exact h.countQueues.returnLoad.guard
    · exact h.countQueues.returnAtomic.guard
    · exact h.shootDown.atomicReturned.unless
    · trivial

theorem State.memOk.acknowledge {tag : Nat} (h : s.memOk) : MoveOk (s.acknowledge tag) := by
  unfold State.acknowledge
  split
  · trivial
  · split
    · exact h.shootDown.modCur.unless
    · trivial

/-! ### Other returns -/

theorem State.memOk.drainBank {core bank : Nat} (h : s.memOk) : MoveOk (s.drainBank core bank) := by
  unfold State.drainBank
  split
  · trivial
  · exact State.memOk.guard (memOk_drainAll _ (memOk_performEntry _ _ _ h))

theorem State.memOk.scratchLoad {f : Flight} {n : Nat} {dst : Dst} {lanes : List (Nat × Nat)} {m : LaneMask} (h : s.memOk) :
    (s.scratchLoad f n dst lanes m).memOk := h.deliver.modCur

theorem State.memOk.scratchPerformed {tag : Nat} {m : LaneMask} (h : s.memOk) : MoveOk (s.scratchPerformed tag m) := by
  unfold State.scratchPerformed
  split
  · trivial
  · refine MoveOk.unless ?_
    split
    · exact State.memOk.unless h.scratchLoad
    · exact State.memOk.unless (State.memOk.modCur (State.memOk.setTeam h))
    · trivial

theorem State.memOk.longResult {tag : Nat} (h : s.memOk) : MoveOk (s.longResult tag) := by
  unfold State.longResult
  split
  · trivial
  · split
    · exact h.deliver.modCur.unless
    · trivial

theorem State.memOk.fillEntry {g lane port : Nat} (h : s.memOk) : MoveOk (s.fillEntry g lane port) := by
  unfold State.fillEntry
  split
  · trivial
  · split
    · trivial
    · split
      · trivial
      · exact h

end Sys2Proof.Machine
end

section
/-! PROOF. Engine commands, their deliveries on this device and to peers, and what arrives over Ultra Ethernet keep the canonical form of
memory. -/

namespace Sys2Proof.Machine

variable {s : State}

/-! ### Commands -/

theorem State.memOk.enqueue {cascade : Bool} {scope : Nat} {d a b : Code} (h : s.memOk) :
    (s.enqueue cascade scope d a b).memOk := State.memOk.endAccess (State.memOk.launchFlight (h.number.same rfl))

theorem State.memOk.enq {cascade : Bool} {scope : Nat} {d a b : Code} (h : s.memOk) : (s.enq cascade scope d a b).memOk :=
  h.uniformOp fun _ h1 => h1.withScope fun _ h2 => h2.sound fun _ h3 => h3.raising fun _ h4 => h4.regionEnder fun _ h5 =>
    h5.checkOne fun _ _ h6 => h6.checkOne fun _ _ h7 => h7.stallOn.ite (h7.afterRelease fun _ h8 => h8.enqueue)

theorem State.memOk.dropCopies {p : Copy → Bool} (h : s.memOk) : (s.dropCopies p).memOk := memOk_dropCopies _ _ h

theorem State.memOk.flip {p : PubDesc} {plan : List (Nat × DWord)} (h : s.memOk) : (s.flip p plan).memOk :=
  (h.foldl fun _ _ ht => ht.storeBytes).dropCopies.storeBytes.storeBytes

theorem State.memOk.publish {va : DWord} {p : PubDesc} (h : s.memOk) : (s.publish va p).memOk := by
  unfold State.publish
  refine h.trap.ite (h.withScope fun t ht => ?_)
  split
  · exact ht.park
  · exact ht.afterRelease fun _ hu => hu.stallOn.ite hu.flip.touchEng.endAccess

theorem State.memOk.landEntry {tag length : Nat} {shadow : Bool} {va : DWord} (h : s.memOk) :
    (s.landEntry tag shadow va length).memOk :=
  h.trap.ite (State.memOk.endAccess (State.memOk.touchEng (h.same rfl)))

theorem State.memOk.land {va x : DWord} (h : s.memOk) : (s.land va x).memOk :=
  h.badOperand.ite
    ((h.badOperand.ite (h.checkOne fun _ _ ht => ht.trap.ite (ht.withScope fun _ hu => hu.landEntry))).ite
      (h.badOperand.ite h.landEntry))

theorem State.memOk.unland {x : DWord} (h : s.memOk) : (s.unland x).memOk :=
  State.memOk.ite (h.stallOn.ite (State.memOk.endAccess (State.memOk.touchEng (h.same rfl)))) h.badOperand

theorem State.memOk.partySettle {a : Agent} {l : Launch} {acc : Access} {va : DWord} (h : s.memOk) :
    (s.partySettle a l acc va).memOk := h.settle

theorem State.memOk.commandFault {c : Command} {va : DWord} {write : Bool} (h : s.memOk) : (s.commandFault c va write).memOk := h

theorem State.memOk.beginWait {a : Agent} {l : Launch} {acc : Access} {va : DWord} (h : s.memOk) :
    MoveOk (s.beginWait a l acc va) := by
  unfold State.beginWait
  split
  · exact h.partySettle.unless
  · exact h.partySettle.unless
  · trivial

theorem State.memOk.refuseCommand {c : Command} (h : s.memOk) : (s.refuseCommand c).memOk := h.setCommand

theorem State.memOk.engFalls {c : Command} (h : s.memOk) : (s.engFalls c).memOk := memOk_inGroup _ _ _ (fun _ ht => ht.modCur) h

theorem State.memOk.takeShape {c : Command} {x : Nat} {poisoned : Bool} (h : s.memOk) : (s.takeShape c x poisoned).memOk :=
  h.engFalls.refuseCommand.ite h.engFalls.setCommand

theorem State.memOk.peerReach {c : Command} (h : s.memOk) : (s.peerReach c).memOk := by
  unfold State.peerReach
  split
  · trivial
  · exact h.hubReach

theorem State.memOk.readShape {id : Nat} (h : s.memOk) : MoveOk (s.readShape id) := by
  unfold State.readShape
  split
  · trivial
  · refine MoveOk.unless ?_
    split
    · exact h.engFalls.refuseCommand
    · dsimp only
      split
      · refine MoveOk.unless ?_
        split
        next e => exact (h.peerReach.waits.some e).waitFrom
        next => exact h.partySettle.touch.takeShape
      · exact h.engFalls.refuseCommand
      · exact h.commandFault
      · exact h.beginWait
      · exact h.beginWait

/-! ### Boxes -/

theorem State.memOk.perform {a : Agent} {scope line : Nat} {home : Home} {mask : BitVec 64} {data : BitVec 512} {p : Bool}
    (h : s.memOk) : (s.perform a scope home line mask data p).memOk := memOk_perform _ _ _ _ _ _ _ _ h

theorem State.memOk.writePiece {c : Command} {p : LinePiece} (h : s.memOk) : (s.writePiece c p).memOk := by
  unfold State.writePiece
  split
  · exact h.perform
  · split
    · exact h.setTeam
    · exact h

theorem State.memOk.settleSpot {a : Agent} {l : Launch} {acc : Access} {x : Spot} (h : s.memOk) :
    (s.settleSpot a l acc x).memOk := by
  unfold State.settleSpot
  split
  · exact h.partySettle
  · exact h

theorem State.memOk.touchSpot {x : Spot} (h : s.memOk) : (s.touchSpot x).memOk := by
  unfold State.touchSpot
  split
  · exact h.touch
  · exact h

theorem State.memOk.combine {a : Agent} {scope rop n pa src : Nat} {home : Home} {poison : Bool} (h : s.memOk) :
    (s.combine a scope rop n home pa src poison).memOk := h.touch.perform

/-- Elements that are combined with what lies at their places, one after the other. -/
theorem State.memOk.combineAll {a : Agent} {scope rop n : Nat} {xs : List (Spot × (List Byte × Bool))} (h : s.memOk) :
    (xs.foldl (fun u e => match e.1 with
      | .mem _ pa home => u.combine a scope rop n home pa (leNat e.2.1) e.2.2
      | _ => u) s).memOk := by
  refine h.foldl fun t e ht => ?_
  split
  · exact ht.combine
  · exact ht

theorem State.memOk.moveBox {c : Command} {x : ShapeRec} {xs : List (Spot × Spot)} {todo : List (Nat × Nat)} (h : s.memOk) :
    (s.moveBox c x xs todo).memOk := by
  have read {a : Agent} {l : Launch} {acc : Access} :
      (xs.foldl (fun t e => ((t.settleSpot a l .load e.1).settleSpot a l acc e.2).touchSpot e.1) s).memOk :=
    h.foldl fun _ _ ht => ht.settleSpot.settleSpot.touchSpot
  exact State.memOk.setCommand (State.memOk.same (read.combineAll.ite (read.foldl fun _ _ ht => ht.writePiece)) rfl)

theorem State.memOk.runnel {op id : Nat} (h : s.memOk) : MoveOk (s.runnel op id) := by
  unfold State.runnel
  split
  · trivial
  · split
    · trivial
    · dsimp only
      refine MoveOk.unless ?_
      split
      · exact h.refuseCommand
      · exact h.commandFault
      · exact h.beginWait
      · split
        · exact h.commandFault
        · exact h.beginWait
        · exact h.commandFault
        · exact h.beginWait
        · exact h.moveBox.tookInput.unless

/-! ### Packets that leave -/

theorem State.memOk.sendOn {e : PeerEntry} {path : Nat} {q : SentPacket} (h : s.memOk) : (s.sendOn e path q).memOk := by
  unfold State.sendOn
  dsimp only
  split
  · exact h
  · split
    · exact h
    · exact h

theorem State.memOk.spray {c : Command} {avoid : Option Nat} {q : SentPacket} (h : s.memOk) : (s.spray c avoid q).memOk := by
  unfold State.spray
  split
  · exact h
  · dsimp only
    split
    · exact h
    · exact State.memOk.sendOn (h.same rfl)

theorem State.memOk.spend {k : Nat} (h : s.memOk) : (s.spend k).memOk := by
  unfold State.spend
  split
  · exact h
  · split
    · exact h
    · exact h

theorem State.memOk.sendPackets {c : Command} {avoid : Option Nat} {qs : List SentPacket} (h : s.memOk) :
    (s.sendPackets c avoid qs).memOk := (h.foldl fun _ _ ht => ht.spray).spend

theorem State.memOk.sendFlag {c : Command} {x : ShapeRec} {d : Delivery} (h : s.memOk) : (s.sendFlag c x d).memOk :=
  State.memOk.sendPackets (State.memOk.setCommand (h.same rfl))

theorem State.memOk.sendDeliveries {id : Nat} {x : ShapeRec} {ds : List Delivery} (h : s.memOk) :
    (s.sendDeliveries id x ds).memOk := by
  refine h.foldl fun t d ht => ?_
  split
  · exact ht
  · exact ht.ite (ht.sendFlag.ite ht.sendPackets)

theorem State.memOk.startDeliveries {c : Command} {x : ShapeRec} {xs : List Spot} (h : s.memOk) :
    (s.startDeliveries c x xs).memOk := by
  have read : (xs.foldl (fun t y => (t.settleSpot c.agent (s.launchOf c) .load y).touchSpot y) s).memOk :=
    h.foldl fun _ _ ht => ht.settleSpot.touchSpot
  exact read.setCommand.ite (State.memOk.sendDeliveries (State.memOk.same read rfl))

theorem State.memOk.cascade {op id : Nat} (h : s.memOk) : MoveOk (s.cascade op id) := by
  unfold State.cascade
  split
  · trivial
  · split
    · trivial
    · refine MoveOk.unless ?_
      dsimp only
      split
      · exact h.commandFault
      · exact h.beginWait
      · exact h.startDeliveries.unless

/-! ### Deliveries on this device -/

theorem State.memOk.raiseArrival {a : Agent} {scope : Nat} {x : Spot} (h : s.memOk) : (s.raiseArrival a scope x).memOk := by
  unfold State.raiseArrival
  split
  · exact h.touch.atomicAt
  · exact h

theorem State.memOk.writeElems {a : Agent} {scope rop size : Nat} {xs : List (Spot × (List Byte × Bool))} (h : s.memOk) :
    (s.writeElems a scope rop size xs).memOk := by
  refine State.memOk.same (State.memOk.ite (h.foldl fun t p ht => ?_) h.combineAll) rfl
  split
  · exact ht.perform
  · exact ht

theorem State.memOk.landDelivery {c : Command} {x : ShapeRec} {d : Delivery} {l : Launch} {base : DWord}
    {pub : Option (Nat × BitVec 512)} (h : s.memOk) : MoveOk (s.landDelivery c x d l base pub) := by
  unfold State.landDelivery
  dsimp only
  split
  · exact h.commandFault
  · exact h.beginWait
  · have written {acc : Access} {xs : List (Spot × (List Byte × Bool))} {ctr : Spot} :
        (((xs.foldl (fun t e => t.settleSpot c.agent l acc e.1) s).settleSpot c.agent l .atomic ctr).writeElems c.agent c.scope
          x.rop x.esize xs).memOk := State.memOk.writeElems (State.memOk.settleSpot (h.foldl fun _ _ ht => ht.settleSpot))
    exact State.memOk.unless (written.raiseArrival.setCommand.ite written.setCommand).tookInput

theorem State.memOk.deliverLocal {id cluster : Nat} (h : s.memOk) : MoveOk (s.deliverLocal id cluster) := by
  unfold State.deliverLocal
  split
  · trivial
  · split
    · refine MoveOk.unless ?_
      dsimp only
      split
      · exact h.setCommand
      · split
        · exact h.setCommand
        · split
          · exact h.setCommand
          · exact h.commandFault
          · exact h.beginWait
          · exact h.landDelivery
    · trivial

theorem State.memOk.endCommand {id : Nat} (h : s.memOk) : MoveOk (s.endCommand id) := by
  unfold State.endCommand
  split
  · trivial
  · refine MoveOk.unless ?_
    dsimp only
    split
    · exact h.commandFault
    · exact h.beginWait
    · exact State.memOk.unless (State.memOk.same h.countAt rfl)
    · exact State.memOk.same h.countAt rfl

/-! ### What arrives from a peer -/

theorem State.memOk.secure {sender : Nat} {prot : Bool} {said : Word} {pn : DWord} {auth : BitVec 128} {headers : List Nat}
    {data : List Byte} (h : s.memOk) : (s.secure sender prot said pn auth headers data).memOk := by
  unfold State.secure
  dsimp only
  split
  · split
    · exact h
    · exact h
  · split
    · exact h
    · split
      · exact h
      · exact h

theorem State.memOk.placePacket {p : UetPacket} {sender : Nat} {e : Landing} {l : Launch} (h : s.memOk) :
    MoveOk (s.placePacket p sender e l) := by
  unfold State.placePacket
  dsimp only
  split
  · exact h
  · trivial
  · exact h.beginWait
  · split
    · exact h.beginWait
    · trivial
    · exact State.memOk.unless
        (State.memOk.same (State.memOk.writeElems (h.foldl fun _ _ ht => ht.settleSpot)) rfl)

theorem State.memOk.dataPacket {p : UetPacket} (h : s.memOk) : MoveOk (s.dataPacket p) := by
  unfold State.dataPacket
  dsimp only
  split
  next e => exact h.secure.drop e
  next e =>
    have ht := h.secure.ok e
    split
    · exact ht
    · split
      · exact ht
      · exact ht.placePacket

theorem State.memOk.counterMessage {m : UetFlag} (h : s.memOk) : MoveOk (s.counterMessage m) := by
  unfold State.counterMessage
  dsimp only
  split
  next e => exact h.secure.drop e
  next e =>
    have ht := h.secure.ok e
    split
    · exact ht
    · split
      · exact ht
      · split
        · exact ht
        · trivial
        · exact ht.beginWait
        · split
          · trivial
          · exact ht.beginWait
          · exact State.memOk.unless (State.memOk.same (State.memOk.raiseArrival ht.settleSpot) rfl)

/-! ### Acknowledgements, lost packets and paths -/

theorem State.memOk.setTimeouts {hub n p k : Nat} (h : s.memOk) : (s.setTimeouts hub n p k).memOk := h

theorem State.memOk.downPath {hub n p : Nat} (h : s.memOk) : (s.downPath hub n p).memOk := h.ite (h.same rfl)

theorem State.memOk.packetAck {id cluster off path : Nat} {refused : Bool} (h : s.memOk) :
    MoveOk (s.packetAck id cluster off path refused) := by
  unfold State.packetAck
  split
  · trivial
  · split
    · trivial
    · refine MoveOk.unless ?_
      split
      · exact h.setTimeouts.setCommand
      · split
        · exact h.setTimeouts.setCommand.ite h.setTimeouts
        · split
          · exact h.setTimeouts.tookInput.sendFlag.ite h.setTimeouts.tookInput.setCommand
          · exact h.setTimeouts

theorem State.memOk.retransmit {peer path id cluster off : Nat} (h : s.memOk) : MoveOk (s.retransmit peer path id cluster off) := by
  unfold State.retransmit
  split
  · trivial
  · split
    · trivial
    · exact State.memOk.unless (h.setTimeouts.downPath.ite h.setTimeouts).sendPackets

theorem State.memOk.probe {hub peer path : Nat} {answered : Bool} (h : s.memOk) : MoveOk (s.probe hub peer path answered) := by
  unfold State.probe
  refine MoveOk.guard ?_
  split
  · split
    · exact State.memOk.guard (State.memOk.setTimeouts (h.same rfl))
    · trivial
  · exact h

theorem State.memOk.pathTimeout {id cluster : Nat} (h : s.memOk) : MoveOk (s.pathTimeout id cluster) := by
  unfold State.pathTimeout
  split
  · trivial
  · split
    · trivial
    · exact h.setCommand.unless

theorem State.memOk.portDown {port : Nat} (h : s.memOk) : MoveOk (s.portDown port) :=
  State.memOk.guard (State.memOk.foldl (h.same rfl) fun _ _ ht => ht.downPath)

theorem State.memOk.portTrain {port : Nat} {fast : Bool} (h : s.memOk) : MoveOk (s.portTrain port fast) :=
  State.memOk.guard (h.same rfl)

end Sys2Proof.Machine
end

section
/-! PROOF. Fault records and replies, launches, caches, the host's links, and the device as a whole keep the canonical form of
memory. -/

namespace Sys2Proof.Machine

variable {s : State}

/-! ### Fault records and replies -/

theorem State.memOk.hubStore {hub pa : Nat} {bs : List Byte} (h : s.memOk) : (s.hubStore hub pa bs).memOk := by
  induction bs generalizing s pa with
  | nil => exact h
  | cons b rest ih => exact ih h.storeBytes

theorem State.memOk.appendRecord {ctx : Nat} (h : s.memOk) : MoveOk (s.appendRecord ctx) := by
  unfold State.appendRecord
  split
  · trivial
  · dsimp only
    split
    next e => exact (h.hubReachAll.wait e).waitFrom
    next => trivial
    next => exact State.memOk.guard (State.memOk.same h.hubStore.hubStore (by dsimp only))

theorem State.memOk.replyWaits {ctx : Nat} (h : s.memOk) : MoveOk (s.replyWaits ctx) := by
  unfold State.replyWaits
  split
  · trivial
  · exact h.hubReachAll.waits

/-- The state after a reply has been taken from its area. -/
theorem State.memOk.takeReply {ctx : Nat} (h : s.memOk) : MoveOk ((s.takeReply ctx).map (·.2)) := by
  unfold State.takeReply
  split
  · trivial
  · dsimp only
    split
    · exact h.hubStore
    · trivial

theorem State.memOk.replyTaken {ctx : Nat} {r : ReplyEntry × State} (h : s.memOk) (e : s.takeReply ctx = some r) : r.2.memOk :=
  h.takeReply.some (by rw [e]; rfl)

theorem State.memOk.mapCommands {cs : List Command} {f : Command → Command} (h : s.memOk) : (s.mapCommands cs f).memOk := h

theorem State.memOk.endByReply (h : s.memOk) : s.endByReply.memOk := by
  unfold State.endByReply
  split
  · exact h.endOwnLaunch
  · exact h

theorem State.memOk.endCommandLaunches {cs : List Command} (h : s.memOk) : (s.endCommandLaunches cs).memOk :=
  h.foldl fun _ _ ht => ht.endLaunch

theorem State.memOk.endSaved {seq : BitVec 16} {u : SavedUnit} (h : s.memOk) : (s.endSaved seq u).memOk := by
  unfold State.endSaved
  split
  · split
    · exact h.endLaunch
    · exact h
  · exact h

theorem State.memOk.answerSaved {ctx act : Nat} {seq : BitVec 16} (h : s.memOk) : (s.answerSaved ctx act seq).memOk :=
  State.memOk.ite (h.foldl fun _ _ ht => ht.endSaved) (h.same rfl)

theorem State.memOk.answerHere {ctx act : Nat} {seq : BitVec 16} (h : s.memOk) : (s.answerHere ctx act seq).memOk := by
  unfold State.answerHere
  dsimp only
  split
  · exact (h.inEach fun _ ht => ht.modCur).mapCommands
  · exact (h.inEach fun _ ht => ht.modCur.trap).mapCommands
  · exact (h.inEach fun _ ht => ht.endByReply).endCommandLaunches.mapCommands

theorem State.memOk.answer {ctx act : Nat} {seq : BitVec 16} (h : s.memOk) : (s.answer ctx act seq).memOk :=
  h.answerHere.answerSaved

theorem State.memOk.reply {ctx act : Nat} (h : s.memOk) : MoveOk (s.reply ctx act) := by
  unfold State.reply
  split
  next e => exact (h.replyWaits.some e).waitFrom
  next e => exact State.memOk.guard (h.replyTaken e).answer
  next => trivial

theorem State.memOk.replyLost {ctx : Nat} (h : s.memOk) : MoveOk (s.replyLost ctx) := by
  unfold State.replyLost
  refine MoveOk.guard ?_
  split
  next e => exact State.memOk.unless (h.replyTaken e)
  next => trivial

theorem State.memOk.watchdogFires (h : s.memOk) : MoveOk s.watchdogFires := by
  unfold State.watchdogFires
  refine MoveOk.unless ?_
  split
  · exact h.trap
  · refine MoveOk.guard ?_
    split
    · exact h.withdrawBar.trap
    · exact h.setLaunch.trap
    · exact h.trap

/-! ### Launch queues -/

theorem State.memOk.ring {q : Nat} {wr : Word} (h : s.memOk) : MoveOk (s.ring q wr) := h.setQueue.guard

theorem State.memOk.withdraw (h : s.memOk) : s.withdraw.memOk := h

theorem State.memOk.electLeader {q : Nat} (h : s.memOk) : MoveOk (s.electLeader q) := by
  unfold State.electLeader
  refine MoveOk.guard ?_
  dsimp only
  cases State.elect _ q with
  | none => trivial
  | some d => exact h

theorem State.memOk.consumed {q : Nat} {err : Bool} (h : s.memOk) : (s.consumed q err).memOk := h.setQueue

theorem State.memOk.admitRec {q : Nat} {va : DWord} {x : ReadRec} (h : s.memOk) : MoveOk (s.admitRec q va x) := by
  unfold State.admitRec
  split
  · exact State.memOk.consumed (h.same rfl)
  · exact h.counted fun _ ht => ht.consumed

theorem State.memOk.takeEntry {q : Nat} {entry : Nat × Bool} (h : s.memOk) : MoveOk (s.takeEntry q entry) := by
  unfold State.takeEntry
  dsimp only
  split
  · exact h.consumed
  · split
    next => exact h.recordTouched.admitRec
    next => exact h.recordTouched.consumed
    next e => exact (h.readRecord.wait e).waitFrom

theorem State.memOk.consume {q : Nat} (h : s.memOk) : MoveOk (s.consume q) := by
  unfold State.consume
  refine MoveOk.unless ?_
  split
  · exact h.consumed
  · dsimp only
    split
    next e => exact (h.hubReach.wait e).waitFrom
    next => exact h.consumed
    next => exact h.takeEntry

/-! ### Dependences, placement and completion of launches -/

theorem State.memOk.refuseLaunch {l : Launch} (h : s.memOk) : MoveOk (s.refuseLaunch l) := h.counted fun _ ht => ht.same rfl

theorem State.memOk.settleDeps {l : Launch} (h : s.memOk) : (s.settleDeps l).memOk := h.foldl fun _ _ ht => ht.ite ht.settle

theorem State.memOk.readDep {hub : Nat} {l : Launch} {va : DWord} (h : s.memOk) : (s.readDep hub l va).memOk := by
  unfold State.readDep
  dsimp only
  split
  · trivial
  · split
    next =>
      split
      · trivial
      · trivial
    next => trivial
    next e => exact h.hubPlace.wait e

theorem State.memOk.depState {hub thr : Nat} {l : Launch} {va : DWord} (h : s.memOk) : (s.depState hub l va thr).memOk := by
  unfold State.depState
  split
  · trivial
  · split
    next => trivial
    next e => exact h.readDep.wait e
    next =>
      split
      · split
        · trivial
        · trivial
      · trivial

/-- Of two dependences, one that waits leaves the state of the two. -/
theorem DepState.memOk.join {x y : DepState} (hx : x.memOk) (hy : y.memOk) : (joinDep x y).memOk := by
  unfold joinDep
  split
  · trivial
  · trivial
  · exact hx
  · exact hy
  · trivial
  · exact hy

theorem State.memOk.checkDeps {launch : Nat} (h : s.memOk) : MoveOk (s.checkDeps launch) := by
  unfold State.checkDeps
  split
  · trivial
  · refine MoveOk.unless ?_
    split
    next => exact h.refuseLaunch
    next e => exact ((h.depState.join h.depState).wait e).waitFrom
    next => trivial
    next => exact h.settleDeps.number.setLaunch

theorem State.memOk.putTeam {l : Launch} {tix : Nat} {p : Placement} (h : s.memOk) : (s.putTeam l tix p).memOk :=
  State.memOk.addTeam (State.memOk.foldl (h.same rfl) fun _ _ ht => ht.pullIn.ite ht)

theorem State.memOk.placeAll {l : Launch} {tix : Nat} {cores : List Nat} (h : s.memOk) : MoveOk (s.placeAll l tix cores) := by
  induction cores generalizing s tix with
  | nil => exact h
  | cons c rest ih =>
    unfold State.placeAll
    split
    · trivial
    · exact ih h.putTeam

theorem State.memOk.place? {launch : Nat} {cores : List Nat} (h : s.memOk) : MoveOk (s.place? launch cores) := by
  unfold State.place?
  split
  · trivial
  · exact MoveOk.unless (h.placeAll.map fun _ ht => ht.modLaunch)

theorem State.memOk.flushLaunch {l : Launch} (h : s.memOk) : (s.flushLaunch l).memOk :=
  State.memOk.foldl (h.same rfl) fun _ _ ht => memOk_pushOut _ _ _ ht

theorem State.memOk.performEntry {e : WriteEntry} {scope : Nat} (h : s.memOk) : (s.performEntry e scope).memOk :=
  memOk_performEntry _ _ _ h

theorem State.memOk.drainLaunch {launch : Nat} (h : s.memOk) : (s.drainLaunch launch).memOk :=
  State.memOk.foldl (h.same rfl) fun _ _ ht => ht.performEntry

theorem State.memOk.forget {launch : Nat} (h : s.memOk) : (s.forget launch).memOk := State.memOk.same h.withGroups rfl

theorem State.memOk.completeLaunch {launch : Nat} (h : s.memOk) : MoveOk (s.completeLaunch launch) := by
  unfold State.completeLaunch
  split
  · trivial
  · exact MoveOk.guard (h.drainLaunch.flushLaunch.counted fun _ ht => ht.forget)

/-! ### Caches -/

theorem State.memOk.noteOrder {all : List Request} {line : Nat} (h : s.memOk) : (s.noteOrder all line).memOk := h.mapGroups

theorem State.memOk.heldInOrder (h : s.memOk) : s.heldInOrder.memOk := h.foldl fun _ _ ht => ht.noteOrder

theorem State.memOk.makeRoom {a : Agent} {level line : Nat} (h : s.memOk) : (s.makeRoom a level line).memOk :=
  memOk_makeRoom _ _ _ _ h

theorem State.memOk.fill {a : Agent} {level unit line scope : Nat} (h : s.memOk) : (s.fill a level unit line scope).memOk :=
  memOk_fill _ _ _ _ _ _ h

theorem State.memOk.missFill {core level line scope : Nat} (h : s.memOk) : MoveOk (s.missFill core level line scope) := by
  unfold State.missFill
  dsimp only
  split
  · trivial
  · exact State.memOk.guard (State.memOk.fill h.noteOrder)

theorem State.memOk.evictCopy {c : Copy} (h : s.memOk) : (s.evictCopy c).memOk := memOk_pushOutward _ _ (memOk_roomBeyond _ _ h)

theorem State.memOk.evict {level unit line : Nat} (h : s.memOk) : MoveOk (s.evict level unit line) := by
  unfold State.evict
  dsimp only
  split
  · trivial
  · exact State.memOk.unless (State.memOk.tookInput (State.memOk.foldl (h.same rfl) fun _ _ ht => ht.evictCopy))

theorem State.memOk.performAt {a : Agent} {scope line : Nat} {mask : BitVec 64} {data : BitVec 512} {p : Bool} (h : s.memOk) :
    (s.performAt a scope line mask data p).memOk := memOk_performAt _ _ _ _ _ _ _ h

theorem State.memOk.dirEvict {level unit line : Nat} (h : s.memOk) : MoveOk (s.dirEvict level unit line) := by
  refine State.memOk.unless (State.memOk.dropCopies (h.foldl fun _ _ ht => ht.ite ?_))
  exact (ht.makeRoom.ite ht).performAt

/-! ### The host -/

theorem State.memOk.flipped {page : Nat} (h : s.memOk) : (s.flipped page).memOk :=
  State.memOk.foldl (h.same rfl) fun _ _ ht => ht.notify

theorem State.memOk.flushLineBy {line : Nat} {rev : Bool} (h : s.memOk) : (s.flushLineBy line rev).memOk :=
  memOk_flushLineBy _ _ _ h

theorem State.memOk.recallAll {line : Nat} {rev : Bool} (h : s.memOk) : (s.recallAll line rev).memOk :=
  State.memOk.same h.flushLineBy.dropCopies rfl

theorem State.memOk.flipToHost {page : Nat} (h : s.memOk) : (s.flipToHost page).memOk :=
  h.ite (State.memOk.same (State.memOk.flipped (h.foldl fun _ _ ht => ht.recallAll)) (by dsimp only))

theorem State.memOk.hostGivesUp {line : Nat} {lost : Bool} (h : s.memOk) : (s.hostGivesUp line lost).memOk := by
  unfold State.hostGivesUp
  split
  · exact h
  · exact State.memOk.ite (h.same rfl) (memOk_takeFromHost _ _ h)

theorem State.memOk.flipToDevice {page : Nat} (h : s.memOk) : (s.flipToDevice page).memOk :=
  h.ite (State.memOk.same (State.memOk.flipped (h.foldl fun _ _ ht => ht.hostGivesUp)) (by dsimp only))

theorem State.memOk.pushForHost {line : Nat} (h : s.memOk) : (s.pushForHost line).memOk := State.memOk.same h.touch.flushLineBy rfl

theorem State.memOk.noteHostCopy {line : Nat} (h : s.memOk) : (s.noteHostCopy line).memOk := State.memOk.ite (h.same rfl) h

theorem State.memOk.hostRead {line : Nat} (h : s.memOk) : MoveOk (s.hostRead line) :=
  State.memOk.guard (State.memOk.same h.pushForHost.noteHostCopy rfl)

theorem State.memOk.hostOwn {line : Nat} {mask : BitVec 64} {data : BitVec 512} {p : Bool} (h : s.memOk) :
    (s.hostOwn line mask data p).memOk := h.same rfl

theorem State.memOk.hostPut {line : Nat} {mask : BitVec 64} {data : BitVec 512} {p : Bool} (h : s.memOk) :
    (s.hostPut line mask data p).memOk := State.memOk.notify (memOk_putHome _ _ _ _ _ h.remember)

theorem State.memOk.hostWrite {pa : Nat} {bs : List Byte} (h : s.memOk) : MoveOk (s.hostWrite pa bs) := by
  have ht := h.tookInput
  unfold State.hostWrite
  refine MoveOk.unless ?_
  split
  · exact ht.dropCopies.hostPut
  · refine MoveOk.unless ?_
    split
    · exact ht.hostOwn
    · exact ht.pushForHost.dropCopies.hostPut

theorem State.memOk.snoop {line : Nat} (h : s.memOk) : MoveOk (s.snoop line) := by
  have ht := h.pushForHost (line := line)
  unfold State.snoop
  generalize s.pushForHost line = t at ht ⊢
  refine MoveOk.guard ?_
  dsimp only
  split
  · exact ht
  · exact ht

theorem State.memOk.invalidate {hub page : Nat} (h : s.memOk) : MoveOk (s.invalidate hub page) :=
  State.memOk.guard (h.same rfl)

theorem State.memOk.translated {hub page : Nat} {read write : Bool} (h : s.memOk) : MoveOk (s.translated hub page read write) :=
  State.memOk.guard (h.same rfl)

theorem State.memOk.linkTrain {hub width gen : Nat} {cxl3 : Bool} (h : s.memOk) : MoveOk (s.linkTrain hub width gen cxl3) :=
  State.memOk.guard (h.same rfl)

/-! ### Dies -/

theorem State.memOk.withDie {d : Nat} {p : Die → Bool} {f : Die → Die} (h : s.memOk) : MoveOk (s.withDie d p f) :=
  h.setDie.guard

theorem State.memOk.markWriters {f : Nat} (h : s.memOk) : (s.markWriters f).memOk := by
  refine State.memOk.same (State.memOk.dropCopies (State.memOk.foldl h ?_)) rfl
  exact fun _ _ ht => ht.same rfl

theorem State.memOk.loseGroups {f : Nat} (h : s.memOk) : (s.loseGroups f).memOk := h

theorem State.memOk.failDie {f : Nat} (h : s.memOk) : (s.failDie f).memOk := by
  refine State.memOk.withdraw (State.memOk.foldl (State.memOk.foldl (State.memOk.loseGroups ?_) ?_) ?_)
  · exact State.memOk.same h.setDie.markWriters rfl
  · exact fun _ _ ht => ht.endLaunch
  · exact fun _ _ ht => ht.setCommand

theorem State.memOk.wipeDie {f : Nat} (h : s.memOk) : (s.wipeDie f).memOk := memOk_filter h _ rfl

theorem State.memOk.sweep {f : Nat} (h : s.memOk) : (s.sweep f).memOk :=
  State.memOk.same (h.foldl fun _ _ ht => ht.setPoison) rfl

theorem State.memOk.rejoin {f : Nat} (h : s.memOk) : (s.rejoin f).memOk :=
  State.memOk.setDie (State.memOk.same h.wipeDie.sweep rfl)

theorem State.memOk.refuseFlit {die : Nat} {inc : BitVec 16} (h : s.memOk) : MoveOk (s.refuseFlit die inc) := by
  unfold State.refuseFlit
  refine MoveOk.unless ?_
  split
  · exact h.failDie.unless
  · exact h.wipeDie

theorem State.memOk.linkDown {link : Nat} (h : s.memOk) : MoveOk (s.linkDown link) := by
  unfold State.linkDown
  refine MoveOk.unless ?_
  dsimp only
  split
  · split
    · exact State.memOk.failDie (h.same rfl)
    · exact h.same rfl
  · exact h.same rfl

/-! ### The device as a whole -/

theorem State.memOk.wiped {fuses : Fuses} {power : Power} (h : s.memOk) : (s.wiped fuses power).memOk := memOk_filter h _ rfl

theorem State.memOk.wipeEnds (h : s.memOk) : MoveOk s.wipeEnds := by
  unfold State.wipeEnds
  refine MoveOk.guard ?_
  split
  · exact h
  · exact h

theorem State.memOk.attest {hub : Nat} (h : s.memOk) : MoveOk (s.attest hub) := by
  unfold State.attest
  split
  next => exact h
  next =>
    split
    next => exact State.memOk.same h.hubStore rfl
    next => exact h
    next e =>
      have ht := h.hubReachAll.wait e
      split
      · exact ht.waitFrom
      · exact ht.same rfl

theorem State.memOk.writeBias {x : DWord} (h : s.memOk) : (s.writeBias x).memOk := h.ite (h.same rfl)

theorem State.memOk.mgmtWrite {off : Nat} {x : DWord} (h : s.memOk) : (s.mgmtWrite off x).memOk := by
  unfold State.mgmtWrite
  refine h.ite (State.memOk.ite (h.setDie.ite h) (State.memOk.ite (h.same rfl) (State.memOk.ite h.setQueue ?_)))
  refine h.writeBias.ite (State.memOk.ite (h.same rfl) (State.memOk.ite (h.same rfl) (State.memOk.ite (h.same rfl) ?_)))
  refine State.memOk.ite (h.same rfl) (State.memOk.ite (h.same rfl) (State.memOk.ite (h.same rfl) ?_))
  exact State.memOk.ite (h.same rfl) (State.memOk.ite (State.memOk.ite (h.attest.getD h) h) h)

end Sys2Proof.Machine
end

section
/-! PROOF. The matrix unit, and units of teams that are saved and come back, keep the canonical form of memory. -/

namespace Sys2Proof.Machine

variable {s : State}

/-! ### Cells that stall at issue and are accepted -/

theorem State.memOk.stallCell (h : s.memOk) : s.stallCell.memOk := h.number.stallAt

theorem State.memOk.mtxIssue {i : Instr} {uniform ends : Bool} {ok : State → Bool} {pops : List Nat} {push : Option Nat}
    (h : s.memOk) : (s.mtxIssue i uniform ok ends pops push).memOk := by
  refine h.illegal.ite (h.badOperand.ite (h.sound fun _ ht => ht.raising fun u hu => ?_))
  split
  · exact hu.stallPorts
  · exact hu.stall.ite hu.stallCell

theorem State.memOk.accepted {op : MtxOp} {flags : BitVec 7} {ends : Bool} (h : s.memOk) : (s.accepted op flags ends).memOk := by
  unfold State.accepted
  refine State.memOk.ite (State.memOk.startRegion (State.memOk.finish ?_)) (State.memOk.finish ?_)
  all_goals
    dsimp only
    split
    · exact h
    · exact h

theorem State.memOk.afterStores {f : State → Option State} (h : s.memOk) (hf : ∀ t : State, t.memOk → MoveOk (f t)) :
    MoveOk (s.afterStores f) := by
  unfold State.afterStores
  dsimp only
  split
  · exact h.endRegion.guard
  · exact hf _ h.endRegion.release

theorem State.memOk.afterPorts {pops : List Nat} {push : Option Nat} {f : State → State} (h : s.memOk)
    (hf : ∀ t : State, t.memOk → (f t).memOk) : (s.afterPorts pops push f).memOk := by
  unfold State.afterPorts
  split
  · exact h.stallPorts
  · exact hf _ h

theorem State.memOk.withRows {kind : Nat} {c : MtxChecked} {f : List (List Seg) → State → Option State} (h : s.memOk) (hc : c.memOk)
    (hf : ∀ (rows : List (List Seg)) (t : State), t.memOk → MoveOk (f rows t)) : MoveOk (s.withRows kind c f) := by
  cases c with
  | ok rows t => exact hf rows t hc
  | trap cause tval => exact h.trap
  | fault va info => exact h.endRegion.park
  | wait t => exact hc.unless

theorem State.memOk.checkRows {acc : Access} {rows : List (DWord × Nat)} {align : DWord → Bool} (h : s.memOk) :
    (s.checkRows acc rows align).memOk := by
  unfold State.checkRows
  split
  · trivial
  · dsimp only
    split
    next => trivial
    next => trivial
    next e => exact h.checkAccess.wait e
    next e => exact h.checkAccess.ok e

theorem State.memOk.mmaRows {a b : Code} (h : s.memOk) : (s.mmaRows a b).memOk := h.checkRows

theorem State.memOk.pinFill {t : Team} {pins : List Nat} (h : s.memOk) : (s.pinFill t pins).memOk := by
  have filled {lines : List Nat} : (lines.foldl (fun u l => u.fill s.fetchUnit 1 (clusterOf s.cur.core) l 2) s).memOk :=
    h.foldl fun _ _ ht => ht.fill
  exact filled.ite filled.addShared

theorem State.memOk.pinCell {t : Team} {n : Nat} {w : Word} {i : Instr} (h : s.memOk) : MoveOk (s.pinCell t n w i) := by
  have pin {ok : State → Bool} {a b : Code} {f : List (List Seg) → State → Option State}
      (hf : ∀ (rows : List (List Seg)) (u : State), u.memOk → MoveOk (f rows u)) :
      MoveOk (if !ok s then some s.badOperand else s.withRows 0 (s.mmaRows a b) f) := by
    split
    · exact h.badOperand
    · exact h.withRows h.mmaRows hf
  unfold State.pinCell
  dsimp only
  split
  iterate 3 exact pin fun _ _ hu => hu.modCur.pinFill.unless
  · exact h

theorem State.memOk.acceptMma {ctl : Nat} {d a b : Code} (h : s.memOk) : MoveOk (s.acceptMma ctl d a b) :=
  h.withRows h.mmaRows fun _ _ ht => State.memOk.accepted (ht.same rfl)

theorem State.memOk.acceptMrd {d a b : Code} (h : s.memOk) : (s.acceptMrd d a b).memOk := by
  unfold State.acceptMrd
  refine State.memOk.ite (State.memOk.progress (State.memOk.accepted ?_)) (State.memOk.accepted ?_)
  all_goals
    split
    · exact h.reserveAll
    · exact h

theorem State.memOk.acceptMwr {d a b : Code} (h : s.memOk) : (s.acceptMwr d a b).memOk :=
  h.takePops.accepted.progress.ite h.takePops.accepted

theorem State.memOk.acceptMsto {d a : Code} (h : s.memOk) : MoveOk (s.acceptMsto d a) :=
  h.withRows h.checkRows fun _ _ ht => ht.accepted

theorem State.memOk.acceptMlda {d a : Code} (h : s.memOk) : MoveOk (s.acceptMlda d a) :=
  h.withRows h.checkRows fun _ _ ht => State.memOk.accepted (ht.same rfl)

theorem State.memOk.acceptCell {i : Instr} (h : s.memOk) : MoveOk (s.acceptCell i) := by
  have checked {ok : State → Bool} {o : Option State} (ho : MoveOk o) : MoveOk (if ok s then o else some s.badOperand) := by
    split
    · exact ho
    · exact h.badOperand
  unfold State.acceptCell
  split
  · exact h.poisonTrap
  · dsimp only
    split
    iterate 3 exact checked (h.afterStores fun _ ht => ht.acceptMma)
    iterate 3 exact h.endRegion.accepted
    · exact checked (h.afterPorts fun _ ht => (ht.endRegion.ite ht).acceptMrd)
    · exact checked (h.afterPorts fun _ ht => ht.endRegion.acceptMwr)
    · exact checked (h.afterStores fun _ ht => ht.acceptMsto)
    · exact h.afterStores fun _ ht => ht.acceptMlda
    · trivial

theorem State.memOk.mtxAccept (h : s.memOk) : MoveOk s.mtxAccept := by
  unfold State.mtxAccept
  split
  · refine MoveOk.unless ?_
    split
    · trivial
    · dsimp only
      refine MoveOk.map (MoveOk.bind ?_ fun v hv => ?_) fun _ ht => ht.same rfl
      · split
        · exact State.memOk.pinCell (h.same rfl)
        · exact h
      · have after {p : Prop} [Decidable p] {i : Instr} : MoveOk (if p then v.acceptCell i else none) := MoveOk.guard hv.acceptCell
        split
        next e => exact after.some e
        next => exact hv.guard
  · trivial

/-! ### Cells that retire -/

theorem State.memOk.storePiece {core : Nat} {e : Seg × Nat} (h : s.memOk) : (s.storePiece core e).memOk :=
  State.memOk.dropCopies (State.memOk.storeBytes (h.foldl fun _ _ ht => ht.perform))

theorem State.memOk.retireOp {tag : Nat} {t : Team} {op : MtxOp} (h : s.memOk) : (s.retireOp tag t op).memOk := by
  unfold State.retireOp
  dsimp only
  split
  · split
    · exact h
    · exact h
  · exact h.setTeam
  · exact h.setTeam
  · exact h.setTeam
  · split
    · exact h
    · exact h
  · exact h.deliver
  · exact h.setTeam
  · exact h.foldl fun _ _ ht => ht.storePiece

theorem State.memOk.mtxRetire {tag : Nat} (h : s.memOk) : MoveOk (s.mtxRetire tag) := by
  unfold State.mtxRetire
  split
  · split
    · exact State.memOk.guard (State.memOk.modCur (State.memOk.setTeam (State.memOk.same h.retireOp rfl)))
    · trivial
  · trivial

end Sys2Proof.Machine
end

section
/-! PROOF. Preemption, the save block of a unit, and its resume keep the canonical form of memory. -/

namespace Sys2Proof.Machine

variable {s : State}

/-! ### Preemption and the save block -/

theorem State.memOk.preempt {launch tix : Nat} (h : s.memOk) : MoveOk (s.preempt launch tix) := by
  unfold State.preempt
  split
  · trivial
  · dsimp only
    split
    · trivial
    · exact State.memOk.unless (State.memOk.mapGroups (h.same rfl))

theorem State.memOk.carryOut {ts : List Team} (h : s.memOk) : (s.carryOut ts).memOk := by
  refine State.memOk.foldl (State.memOk.foldl (State.memOk.mapGroups (h.same rfl)) ?_) ?_
  · exact fun _ _ ht => ht.performEntry
  · exact fun _ _ ht => ht.foldl fun _ _ hu => hu.perform

theorem State.memOk.writeBlocks {ms : Group → Masks} {pa : Nat} {ts : List Team} (h : s.memOk) :
    (s.writeBlocks ms pa ts).1.memOk := by
  induction ts generalizing s pa with
  | nil => exact h
  | cons t rest ih => exact ih (h.hubStore.foldl fun _ _ ht => ht.setPoison)

theorem State.memOk.freeTeams {ts : List Team} (h : s.memOk) : (s.freeTeams ts).memOk := State.memOk.same h.withGroups rfl

theorem State.memOk.saveUnit {u : SavedUnit} {l : Launch} {ts : List Team} {ms : List (Nat × Masks)} (h : s.memOk) :
    (s.saveUnit u l ts ms).memOk := State.memOk.same h.writeBlocks.hubStore.freeTeams (by dsimp only [State.saveUnit])

theorem State.memOk.passOver (h : s.memOk) : s.passOver.memOk := by
  unfold State.passOver
  split
  · dsimp only
    split
    · exact State.memOk.passBar (h.same rfl)
    · exact State.memOk.passBar (h.same rfl)
    · exact h.same rfl
  · exact h

theorem State.memOk.passOvers {ts : List Team} (h : s.memOk) : (s.passOvers ts).memOk := h.inEach fun _ ht => ht.passOver

theorem State.memOk.saveBlock {unit : Nat} (h : s.memOk) : MoveOk (s.saveBlock unit) := by
  unfold State.saveBlock
  split
  · trivial
  · dsimp only
    refine MoveOk.unless ?_
    split
    next => exact h.beginWait
    next =>
      split
      next e => exact (h.hubReachAll.wait e).waitFrom
      next => trivial
      next => exact h.passOvers.mapGroups.carryOut.saveUnit

/-! ### Resume -/

theorem State.memOk.placeSaved {t : SavedTeam} {u : SavedUnit} {l : Launch} {c : Nat} (h : s.memOk) :
    MoveOk (s.placeSaved t u l c) := by
  unfold State.placeSaved
  dsimp only
  refine MoveOk.unless ?_
  split
  · trivial
  · split
    · trivial
    · exact State.memOk.same (State.memOk.nameGroups (State.memOk.modLaunch
        (h.number.foldl fun _ _ ht => ht.setFrames.pullIn))) (by dsimp only)

theorem State.memOk.placeUnit {u : SavedUnit} {l : Launch} {xs : List (SavedTeam × Nat)} (h : s.memOk) :
    MoveOk (s.placeUnit u l xs) := by
  induction xs generalizing s with
  | nil => exact h
  | cons x rest ih =>
    unfold State.placeUnit
    split
    next => trivial
    next e => exact ih (h.placeSaved.some e)

theorem State.memOk.consumeReplies {ctx n : Nat} (h : s.memOk) : (s.consumeReplies ctx n).memOk := by
  induction n generalizing s with
  | zero => exact h
  | succ n ih =>
    unfold State.consumeReplies
    split
    next => exact h
    next e => exact ih ((h.replyTaken e).answer.ite (h.replyTaken e))

theorem State.memOk.applyKept {ctx : Nat} {u : SavedUnit} (h : s.memOk) : (s.applyKept ctx u).memOk :=
  h.foldl fun _ _ ht => ht.answerHere

theorem State.memOk.walkPending (h : s.memOk) : s.walkPending.memOk := by
  unfold State.walkPending
  split
  · exact h
  · split
    · exact h
    · exact h.modCur

theorem State.memOk.unitBack {u : SavedUnit} {l : Launch} {header : Nat} (h : s.memOk) : (s.unitBack u l header).memOk :=
  State.memOk.inEach (State.memOk.consumeReplies (State.memOk.applyKept (h.same rfl))) fun _ ht => ht.walkPending

theorem State.memOk.readReach {u : SavedUnit} {l : Launch} (h : s.memOk) : (s.readReach u l).memOk := by
  unfold State.readReach
  dsimp only
  split
  · exact h.hubReachAll
  · exact h.hubReachAll

theorem State.memOk.resumeWaits {u : SavedUnit} {l : Launch} (h : s.memOk) : MoveOk (s.resumeWaits u l) := by
  unfold State.resumeWaits
  split
  next e => exact h.readReach.waits.some e
  next => exact h.replyWaits

theorem State.memOk.resumeUnit {unit : Nat} {cores : List Nat} (h : s.memOk) : MoveOk (s.resumeUnit unit cores) := by
  unfold State.resumeUnit
  split
  · trivial
  · split
    · trivial
    · refine MoveOk.unless ?_
      split
      next e => exact (h.resumeWaits.some e).waitFrom
      next =>
        split
        · exact h.endLaunch
        · refine MoveOk.unless ?_
          split
          next => trivial
          next e => exact State.memOk.guard (h.placeUnit.some e).unitBack

end Sys2Proof.Machine
end

section
/-! PROOF. The rows of the opcode table whose meanings are written out in place keep the canonical form of memory. -/

namespace Sys2Proof.Machine

variable {s : State}

/-! ### Instructions whose meanings are written out -/

theorem State.memOk.execTrap {code : BitVec 21} (h : s.memOk) : OutOk (execTrap code s) := h.uniformOp fun _ ht => ht.trapDone

theorem State.memOk.execIsync (h : s.memOk) : OutOk (execIsync s) := h.uniformOp fun _ ht => ht.modCur.finish

theorem State.memOk.execRet (h : s.memOk) : OutOk (execRet s) := h.uniformOp fun _ ht => ht.sound fun _ hu => hu.ret

theorem State.memOk.execJmpr {a : Code} (h : s.memOk) : OutOk (execJmpr a s) :=
  h.readOp fun _ ht => ht.aligned4 fun _ hu => hu.jump

theorem State.memOk.execRgn (h : s.memOk) : OutOk (execRgn s) :=
  h.uniformOp fun _ ht => ht.regionEnder fun _ hu => hu.finish.startRegion

theorem State.memOk.execPsave {d : Code} (h : s.memOk) : OutOk (execPsave d s) :=
  h.uniformOp fun _ ht => ht.badOperand.ite ht.modCur.finish

theorem State.memOk.execPrest {a : Code} (h : s.memOk) : OutOk (execPrest a s) :=
  h.uniformOp fun _ ht => ht.badOperand.ite (ht.sound fun _ hu => hu.modCur.finish)

theorem State.memOk.execSetw {a : Code} (h : s.memOk) : OutOk (execSetw a s) :=
  h.readOp fun _ ht => ht.rendezvous fun _ hu => hu.setwEffect

theorem State.memOk.execRegroup {d : Code} (h : s.memOk) : OutOk (execRegroup d s) :=
  h.uniformOp fun _ ht => (ht.rendezvous fun _ hu => hu.regroupEffect).settleBars.settleCbar

theorem State.memOk.execRcfg {a : Code} (h : s.memOk) : OutOk (execRcfg a s) :=
  h.readOp fun _ ht => ht.rendezvous fun _ hu => hu.rcfgEffect

theorem State.memOk.execCbar (h : s.memOk) : OutOk (execCbar s) := by
  refine h.uniformOp fun t ht => ht.illegal.ite ?_
  split
  · exact ht.waitCbar
  · exact ht.regionEnder fun _ hu => hu.syncing fun _ hv => hv.afterRelease fun _ hw => hw.arriveCbar.waitCbar

theorem State.memOk.execYield (h : s.memOk) : OutOk (execYield s) := by
  refine h.uniformOp fun t ht => ?_
  dsimp only
  split
  · exact ht.finish.modCur.passPipe
  · exact ht.finish.modCur

theorem State.memOk.execExit {a : Code} (h : s.memOk) : OutOk (execExit a s) := by
  refine h.uniformOp fun t ht => ht.illegal.ite (ht.sound fun u hu => ?_)
  split
  · exact hu.stallOn
  · exact hu.afterWait fun _ hv => hv.stallOn.ite (hv.regionEnder fun _ hw => hw.exitWith)

theorem State.memOk.execLaunch {a : Code} (h : s.memOk) : OutOk (execLaunch a s) :=
  h.readOp fun _ ht => ht.raising fun _ hu => hu.regionEnder fun _ hv => hv.afterRelease fun _ hw => hw.launchRecord

theorem State.memOk.execWaitp {a : Code} {path : BitVec 5} (h : s.memOk) : OutOk (execWaitp a path s) :=
  h.readOp fun _ ht => ht.stallOn.ite (ht.afterWait fun _ hu => hu.finish)

theorem State.memOk.execRstat {d a : Code} (h : s.memOk) : OutOk (execRstat d a s) := by
  show State.memOk (match (rillCell d []).cause s with | some _ => _ | none => _)
  split
  · exact h.trap
  · exact h.withPort fun _ => h.cellExec

theorem State.memOk.execRpeek {d a : Code} (h : s.memOk) : OutOk (execRpeek d a s) := by
  show State.memOk (match (rillCell d []).cause s with | some _ => _ | none => _)
  split
  · exact h.trap
  · refine h.withPort fun p => ?_
    split
    · exact h.stallPorts
    · exact h.sound fun _ ht => ht.cellExec

theorem State.memOk.execRdrain {a : Code} (h : s.memOk) : OutOk (execRdrain a s) := h.illegal.ite (h.withPort fun _ => h.rdrain)

theorem State.memOk.execPublish {a : Code} (h : s.memOk) : OutOk (execPublish a s) :=
  h.readOp fun _ ht => ht.raising fun _ hu => hu.regionEnder fun _ hv => hv.checkOne fun _ _ hw => hw.publish

theorem State.memOk.execLand {a b : Code} (h : s.memOk) : OutOk (execLand a b s) :=
  h.readOp fun _ ht => ht.raising fun _ hu => hu.regionEnder fun _ hv => hv.land

theorem State.memOk.execUnland {a : Code} (h : s.memOk) : OutOk (execUnland a s) :=
  h.readOp fun _ ht => ht.raising fun _ hu => hu.regionEnder fun _ hv => hv.unland

/-! ### Operations of the device whose meanings are written out -/

theorem State.memOk.execRunLimitExpiry {g : Nat} (h : s.memOk) : OutOk (execRunLimitExpiry g s) := .ofOption h.endRun.guard

theorem State.memOk.execDieFailure {die : Nat} (h : s.memOk) : OutOk (execDieFailure die s) := .ofOption h.failDie.guard

theorem State.memOk.execRebuildComplete {die : Nat} (h : s.memOk) : OutOk (execRebuildComplete die s) :=
  .ofOption h.heldInOrder.withDie

theorem State.memOk.execDieRejoin {die : Nat} (h : s.memOk) : OutOk (execDieRejoin die s) := .ofOption h.rejoin.guard

theorem State.memOk.execLifecycleAdvance {next : BitVec 3} (h : s.memOk) : OutOk (execLifecycleAdvance next s) :=
  .ofOption h.wiped.guard

theorem State.memOk.execAttestationRequest {hub : Nat} (h : s.memOk) : OutOk (execAttestationRequest hub s) :=
  .ofOption h.attest.guard

theorem State.memOk.execBiasFlipToHost {page : Nat} (h : s.memOk) : OutOk (execBiasFlipToHost page s) :=
  .ofOption h.flipToHost.guard

theorem State.memOk.execBiasFlipToDevice {page : Nat} (h : s.memOk) : OutOk (execBiasFlipToDevice page s) :=
  .ofOption h.flipToDevice.guard

theorem State.memOk.execMgmtRegisterWrite {off : Nat} {value : DWord} (h : s.memOk) : OutOk (execMgmtRegisterWrite off value s) :=
  .ofOption h.mgmtWrite.guard

theorem State.memOk.execClockStepDown {die : Nat} (h : s.memOk) : OutOk (execClockStepDown die s) :=
  .ofOption (h.withDie.map fun _ ht => ht.withdraw)

theorem State.memOk.execDieDrainedByTheHost {die : Nat} (h : s.memOk) : OutOk (execDieDrainedByTheHost die s) :=
  .ofOption (h.withDie.map fun _ ht => ht.withdraw)

theorem State.memOk.execMigrationPull {desc line : Nat} (h : s.memOk) : OutOk (execMigrationPull desc line s) := by
  refine OutOk.ofOption ?_
  cases (s.pulls.find? fun p => p.1 == desc && p.2.1 == line).filter fun _ => s.pullFree desc line with
  | none => trivial
  | some p => exact memOk_pullLine _ _ _ _ h

/-- A move of a group that is brought into focus for it. -/
theorem State.memOk.ofGroup {name : String} {g : Nat} {f : State → Option State} (h : s.memOk)
    (hf : ∀ t : State, t.memOk → MoveOk (f t)) : OutOk (Out.ofOption name (s.inGroup? g f)) := .ofOption (h.inGroup? hf)

end Sys2Proof.Machine
end

section
/-! PROOF. The meaning of every row of the opcode table, and every error of storage, keeps the canonical form of memory. -/

namespace Sys2Proof.Machine

variable {s : State}

/-! ### The rows of the opcode table -/

/-- The meaning of every instruction and of every operation of the device, family by family. -/
theorem State.memOk.exec (h : s.memOk) : ∀ i : Instr, OutOk (exec i s)
  -- Cells that compute a value, a predicate or a vote over lanes.
  | .add .. | .sub .. | .mul .. | .mulhi .. | .mulhu .. | .div .. | .divu .. | .rem .. | .remu .. | .and .. | .or .. | .xor ..
  | .andn .. | .shl .. | .shr .. | .sra .. | .shli .. | .shri .. | .srai .. | .min .. | .max .. | .minu .. | .maxu .. | .abs ..
  | .clz .. | .popc .. | .brev .. | .sextb .. | .sexth .. | .mov .. | .mad .. | .addD .. | .subD .. | .mulD .. | .shlD ..
  | .shrD .. | .sraD .. | .movD .. | .lea .. | .addi .. | .lim .. | .addFmt .. | .subFmt .. | .mulFmt .. | .divFmt ..
  | .sqrtFmt .. | .minFmt .. | .maxFmt .. | .absFmt .. | .negFmt .. | .csgnFmt .. | .rcpF32 .. | .rsqF32 .. | .exp2F32 ..
  | .log2F32 .. | .sinF32 .. | .cosF32 .. | .fma .. | .fms .. | .fnma .. | .fnms .. | .cvt .. | .rintF64 .. | .rintF32 ..
  | .rintF16 .. | .rintBf16 .. | .bscale .. | .bquant .. | .bdeq .. | .cmpEq .. | .cmpNe .. | .cmpLt .. | .cmpLe .. | .cmpGt ..
  | .cmpGe .. | .cmpUn .. | .pand .. | .por .. | .pxor .. | .pandn .. | .pnot .. | .pmov .. | .pset .. | .pget .. | .sel ..
  | .lmask .. | .lsame .. => h.cellExec
  | .rdlane .. | .wrlane .. => h.cellExecUniformB
  | .lpullAt .. | .lpullBelow .. | .lpullAbove .. | .lpullXor .. => h.pull
  | .lany .. | .lall .. => h.vote
  | .redAdd .. | .redMin .. | .redMax .. | .redMinu .. | .redMaxu .. | .redFaddF32 .. | .redFminF32 .. | .redFmaxF32 .. => h.reduce
  | .scanAdd .. | .scanFaddF32 .. => h.scan
  -- Control flow, masks and special registers.
  | .pfx .. => h.pair
  | .nop => h.uniformOp fun _ ht => ht.finish
  | .trap .. => h.execTrap
  | .rtt => h.uniformOp fun _ ht => ht.rtt
  | .isync => h.execIsync
  | .sread .. => h.sreadAt
  | .swrite .. | .swriteEm .. | .swriteFpc .. | .wspill .. | .wfill .. => h.swriteAt
  | .br .. | .brNone .. | .brAny .. | .brAll .. | .brUc .. | .brNuc .. | .call .. | .callAny .. => h.brCell
  | .ret => h.execRet
  | .jmpr .. => h.execJmpr
  | .callr .. | .callrAny .. => h.callrCell
  | .wbase .. => h.readOp fun _ ht => ht.wbase
  | .rgn => h.execRgn
  | .ucmpEq .. | .ucmpNe .. | .ucmpLt .. | .ucmpLe .. | .ucmpLtu .. | .ucmpLeu .. => h.ucmp
  | .mset .. | .mand .. | .mandn .. | .mor .. => h.maskCell
  | .mall | .mcnt .. => h.uniformOp fun _ ht => ht.modCur.finish
  | .psave .. => h.execPsave
  | .prest .. => h.execPrest
  -- Teams, barriers, exits and launches.
  | .setw .. => h.execSetw
  | .regroup .. => h.execRegroup
  | .barSync .. | .barArv .. => h.barCell
  | .cbar => h.execCbar
  | .yield => h.execYield
  | .exit .. => h.execExit
  | .launch .. => h.execLaunch
  -- Memory, scratchpad, and waits for it.
  | .ldB .. | .ldH .. | .ldW .. | .ldD .. | .ldQ .. | .ldInvW .. | .ldInvD .. | .ldInvQ .. => h.loadExec
  | .stB .. | .stH .. | .stW .. | .stD .. | .stQ .. => h.storeExec
  | .atAddW .. | .atAddD .. | .atMinW .. | .atMaxW .. | .atMinuW .. | .atMaxuW .. | .atSwapW .. | .atCasW .. | .atAndW ..
  | .atOrW .. | .atXorW .. | .atSwapD .. | .atCasD .. | .atFaddF32 .. | .atFminF32 .. | .atFmaxF32 .. => h.atomicExec
  | .sldW .. | .sldD .. | .sldQ .. => h.spmExecLoad
  | .sstW .. | .sstD .. | .sstQ .. => h.spmExecStore
  | .fence .. => h.fence
  | .waitp .. => h.execWaitp
  | .waitv .. => h.waitv
  -- Rills, the matrix unit and the engines.
  | .rcfg .. => h.execRcfg
  | .rstat .. => h.execRstat
  | .rdrain .. => h.execRdrain
  | .rpeek .. => h.execRpeek
  | .mma .. | .mmaAcc .. | .mmaSacc .. | .mzero .. | .mscl .. | .mrd .. | .mwr .. | .msto .. | .mlda .. | .mmov .. => h.mtxIssue
  | .enqRunnel .. | .enqCascade .. => h.enq
  | .publish .. => h.execPublish
  | .land .. => h.execLand
  | .unland .. => h.execUnland
  -- Moves of a group: its turn, its flights and its waits.
  | .groupIssueChoice .. => .ofOption h.chooseGroup
  | .runLimitExpiry .. => h.execRunLimitExpiry
  | .rillBlockTimeout .. => h.ofGroup fun _ ht => ht.rillTimeout
  | .rillEntryFill .. => .ofOption h.fillEntry
  | .loadResultReturn .. => h.ofGroup fun _ ht => ht.loadResult
  | .storeAcknowledge .. => h.ofGroup fun _ ht => ht.acknowledge
  | .scratchpadAccessPerformed .. => h.ofGroup fun _ ht => ht.scratchPerformed
  | .longLatencyResult .. => h.ofGroup fun _ ht => ht.longResult
  | .translationComplete .. => h.ofGroup fun _ ht => ht.walkEnds
  | .waitvMonitorPoll .. | .waitvMonitorFire .. => h.ofGroup fun _ ht => ht.wake
  | .watchdogTrap .. => h.ofGroup fun _ ht => ht.watchdogFires
  | .mtxAccept .. => h.ofGroup fun _ ht => ht.mtxAccept
  | .mtxRetire .. => h.ofGroup fun _ ht => ht.mtxRetire
  -- Caches, write buffers and migration.
  | .cacheMissFill .. => .ofOption h.missFill
  | .narrowCopyEviction .. => .ofOption h.evict
  | .directoryEvictionRecall .. => .ofOption h.dirEvict
  | .writeBufferDrain .. => .ofOption h.drainBank
  | .migrationPull .. => h.execMigrationPull
  -- Fault records and the host's replies.
  | .faultRecordAppend .. => .ofOption h.appendRecord
  | .replyReplay .. | .replyDeliver .. | .replyEndLaunch .. => .ofOption h.reply
  | .replyNoEffect .. => .ofOption h.replyLost
  -- Engine commands and packets between devices.
  | .engineRecordRead .. => .ofOption h.readShape
  | .runnelLoad .. | .runnelStore .. | .runnelGather .. | .runnelScatter .. | .runnelRedstore .. => .ofOption h.runnel
  | .cascadeMcast .. | .cascadeMcred .. => .ofOption h.cascade
  | .cascadeDelivery .. => .ofOption h.deliverLocal
  | .engineCommandEnd .. => .ofOption h.endCommand
  | .uetDataPacket .. => .ofOption h.dataPacket
  | .uetCounterMessage .. => .ofOption h.counterMessage
  | .uetPacketAck .. => .ofOption h.packetAck
  | .uetRetransmitTimeout .. => .ofOption h.retransmit
  | .pathProbe .. => .ofOption h.probe
  | .deliveryPathTimeout .. => .ofOption h.pathTimeout
  | .uePortDown .. => .ofOption h.portDown
  | .uePortTrain .. => .ofOption h.portTrain
  -- Launch queues, placement and pre-emption.
  | .launchQueueDoorbell .. => .ofOption h.ring
  | .leaderElection .. => .ofOption h.electLeader
  | .queueEntryConsume .. => .ofOption h.consume
  | .dependenceCheck .. => .ofOption h.checkDeps
  | .launchPlacement .. => .ofOption h.place?
  | .launchCompletion .. => .ofOption h.completeLaunch
  | .preemption .. => .ofOption h.preempt
  | .saveBlockWrite .. => .ofOption h.saveBlock
  | .resume .. => .ofOption h.resumeUnit
  -- Dies, resets and the management window.
  | .clockStepDown .. => h.execClockStepDown
  | .clockStepUp .. => .ofOption h.withDie
  | .dieDrainedByTheHost .. => h.execDieDrainedByTheHost
  | .dieFailure .. => h.execDieFailure
  | .rebuildComplete .. => h.execRebuildComplete
  | .dieRejoin .. => h.execDieRejoin
  | .incarnationRefusal .. => .ofOption h.refuseFlit
  | .pomasLinkDown .. => .ofOption h.linkDown
  | .deviceReset | .moduleUnpowered => h.wiped
  | .wipeComplete => .ofOption h.wipeEnds
  | .lifecycleAdvance .. => h.execLifecycleAdvance
  | .attestationRequest .. => h.execAttestationRequest
  | .mgmtRegisterWrite .. => h.execMgmtRegisterWrite
  -- The host's accesses and its translations.
  | .biasFlipToHost .. => h.execBiasFlipToHost
  | .biasFlipToDevice .. => h.execBiasFlipToDevice
  | .hostCxlRead .. => .ofOption h.hostRead
  | .hostCxlWrite .. => .ofOption h.hostWrite
  | .hostSnoop .. => .ofOption h.snoop
  | .atsInvalidation .. => .ofOption h.invalidate
  | .atsTranslationResponse .. => .ofOption h.translated
  | .hostLinkTrain .. => .ofOption h.linkTrain

/-! ### Errors of storage -/

theorem State.memOk.modThread {g lane : Nat} {f : Thread → Thread} (h : s.memOk) : (s.modThread g lane f).memOk := h

theorem State.memOk.upsetCache {level unit line : Nat} (h : s.memOk) : (s.upsetCache level unit line).memOk := by
  have hd : ((s.remember line).dropCopies fun c =>
      (c.level == level && c.unit == unit && c.line == line) && c.dirty == 0 && c.level < 3).memOk := h.remember.dropCopies
  exact State.memOk.ite (State.memOk.setPoison (hd.same rfl)) (hd.same rfl)

theorem State.memOk.upset (h : s.memOk) (u : Upset) : (s.upset u).memOk := by
  cases u with
  | corrected d => exact h.setDie
  | dram line => exact h.remember.setPoison
  | cache level unit line => exact h.upsetCache
  | scratch team block => exact h
  | control d => exact h.failDie.ite h
  | silent d => exact h.setDie.ite h
  | stack g lane i => exact h.modThread
  | pred g lane i => exact h.modThread
  | queue g lane port k => exact h.modThread
  | uniform g handler i => exact h.mapGroups
  | element team i => exact h

end Sys2Proof.Machine
end

section
/-! PROOF. Every move that is due is the meaning of an operation of the device, so it keeps the canonical form of memory; and so does
every step. -/

namespace Sys2Proof.Machine

variable {s : State}

/-! ### The moves that are due -/

/-- Every move of a list is the meaning of a row of the opcode table. -/
def AreRows (ms : List Move) : Prop := ∀ m ∈ ms, ∃ i : Instr, exec i = m

theorem AreRows.nil : AreRows [] := by simp [AreRows]

theorem AreRows.cons {i : Instr} {m : Move} {ms : List Move} (e : exec i = m) (h : AreRows ms) : AreRows (m :: ms) :=
  List.forall_mem_cons.mpr ⟨⟨i, e⟩, h⟩

theorem AreRows.one {i : Instr} {m : Move} (e : exec i = m) : AreRows [m] := AreRows.nil.cons e

theorem AreRows.append {ms ns : List Move} (hm : AreRows ms) (hn : AreRows ns) : AreRows (ms ++ ns) :=
  List.forall_mem_append.mpr ⟨hm, hn⟩

theorem AreRows.ite {p : Prop} [Decidable p] {ms ns : List Move} (hm : AreRows ms) (hn : AreRows ns) :
    AreRows (if p then ms else ns) := by
  split
  · exact hm
  · exact hn

theorem AreRows.when {p : Prop} [Decidable p] {ms : List Move} (hm : AreRows ms) : AreRows (if p then ms else []) := hm.ite .nil

theorem AreRows.map {α : Type} {f : α → Move} {xs : List α} (hf : ∀ x, ∃ i, exec i = f x) : AreRows (xs.map f) :=
  List.forall_mem_map.mpr fun x _ => hf x

theorem AreRows.flatMap {α : Type} {f : α → List Move} {xs : List α} (hf : ∀ x, AreRows (f x)) : AreRows (xs.flatMap f) :=
  List.forall_mem_flatMap.mpr fun x _ => hf x

theorem flight_moves_areRows (g : Nat) (f : Flight) : AreRows (f.moves g) := by
  unfold Flight.moves
  refine .ite .nil (.ite (.one (i := .translationComplete g f.tag) rfl) ?_)
  split
  · exact .one (i := .loadResultReturn ..) rfl
  · exact .one (i := .loadResultReturn ..) rfl
  · exact .one (i := .loadResultReturn ..) rfl
  · exact .one (i := .storeAcknowledge ..) rfl
  · exact .one (i := .scratchpadAccessPerformed ..) rfl
  · exact .one (i := .scratchpadAccessPerformed ..) rfl
  · exact .one (i := .longLatencyResult ..) rfl
  · exact .one (i := .engineRecordRead ..) rfl
  · exact .one (i := .mtxRetire ..) rfl

theorem fillMoves_areRows (g lane : Nat) (t : Thread) : AreRows (fillMoves g lane t) :=
  .map fun p => ⟨.rillEntryFill g lane p, rfl⟩

theorem group_moves_areRows (g : Group) : AreRows g.moves := by
  unfold Group.moves
  refine .append (.append (.flatMap (flight_moves_areRows g.id)) (.flatMap fun e => fillMoves_areRows _ _ _)) ?_
  split
  · exact .ite (.one (i := .waitvMonitorFire ..) rfl) (.one (i := .waitvMonitorPoll ..) rfl)
  · exact .one (i := .mtxAccept ..) rfl
  · exact .one (i := .watchdogTrap ..) rfl
  · exact .one (i := .watchdogTrap ..) rfl
  · exact .one (i := .watchdogTrap ..) rfl
  · exact .nil

theorem command_moves_areRows (c : Command) : AreRows c.moves := by
  unfold Command.moves
  split
  · exact .one (i := .engineRecordRead ..) rfl
  · exact .cons (i := .runnelLoad ..) rfl <| .cons (i := .runnelStore ..) rfl <| .cons (i := .runnelGather ..) rfl <|
      .cons (i := .runnelScatter ..) rfl <| .cons (i := .runnelRedstore ..) rfl <| .cons (i := .cascadeMcast ..) rfl <|
      .one (i := .cascadeMcred ..) rfl
  · exact .append (.map fun d => ⟨.cascadeDelivery c.id d.cluster, rfl⟩) (.one (i := .engineCommandEnd ..) rfl)
  · exact .one (i := .engineCommandEnd ..) rfl

theorem placeMoves_areRows (l : Launch) : AreRows l.placeMoves := .when (.map fun cs => ⟨.launchPlacement l.id cs, rfl⟩)

theorem launch_moves_areRows (l : Launch) : AreRows l.moves := by
  unfold Launch.moves
  split
  · exact .one (i := .dependenceCheck ..) rfl
  · exact placeMoves_areRows l
  · exact .cons (i := .launchCompletion ..) rfl (placeMoves_areRows l)
  · exact .nil

theorem replyMoves_areRows (ctx : Nat) : AreRows (replyMoves ctx) :=
  .cons (i := .replyReplay ..) rfl <| .cons (i := .replyDeliver ..) rfl <| .cons (i := .replyEndLaunch ..) rfl <|
    .one (i := .replyNoEffect ..) rfl

theorem unitMoves_areRows (s : State) (u : SavedUnit) : AreRows (s.unitMoves u) := by
  unfold State.unitMoves
  refine .ite ?_ (.one (i := .saveBlockWrite ..) rfl)
  split
  · exact .map fun cs => ⟨.resume u.id cs, rfl⟩
  · exact .nil

theorem queueMoves_areRows (q : Nat) (b : Queue) : AreRows (queueMoves q b) :=
  .when <| .cons (i := .leaderElection ..) rfl <| .one (i := .queueEntryConsume ..) rfl

theorem windowMoves_areRows (s : State) : AreRows s.windowMoves := by
  refine .append (.when ?_) (.when (.one (i := .attestationRequest ..) rfl))
  split
  · exact .one (i := .biasFlipToDevice ..) rfl
  · exact .one (i := .biasFlipToHost ..) rfl

/-- The device makes no move of its own but those of the opcode table. -/
theorem dueMoves_areRows (s : State) : AreRows s.dueMoves := by
  unfold State.dueMoves
  refine .append (.append (.append (.append (.append (.append (.append (.append (.append (.append
    ?wipe ?window) ?groups) ?pulls) ?buffers) ?commands) ?faults) ?replies) ?launches) ?units) ?queues
  case wipe => exact .when (.one (i := .wipeComplete) rfl)
  case window => exact windowMoves_areRows s
  case groups => exact .flatMap group_moves_areRows
  case pulls => exact .map fun p => ⟨.migrationPull p.1 p.2.1, rfl⟩
  case buffers => exact .map fun e => ⟨.writeBufferDrain e.core (bankOf e.line), rfl⟩
  case commands => exact .flatMap command_moves_areRows
  case faults => exact .map fun r => ⟨.faultRecordAppend r.ctx, rfl⟩
  case replies => exact .flatMap replyMoves_areRows
  case launches => exact .flatMap launch_moves_areRows
  case units => exact .flatMap (unitMoves_areRows s)
  case queues => exact .flatMap fun e => queueMoves_areRows e.1 e.2

theorem AreRows.rotate {ms : List Move} (h : AreRows ms) (n : Nat) : AreRows (rotate n ms) :=
  .append (fun m hm => h m (List.mem_of_mem_drop hm)) (fun m hm => h m (List.mem_of_mem_take hm))

theorem State.memOk.firstMove (h : s.memOk) {ms : List Move} (hm : AreRows ms) : MoveOk (firstMove s ms) := by
  induction ms with
  | nil => trivial
  | cons m rest ih =>
    obtain ⟨⟨i, rfl⟩, hr⟩ := List.forall_mem_cons.mp hm
    unfold Machine.firstMove
    split
    next t e => exact (h.exec i).next e
    next => exact ih hr

theorem State.memOk.moved (h : s.memOk) : MoveOk s.moved := h.firstMove ((dueMoves_areRows s).rotate _)

/-! ### Steps -/

theorem State.memOk.issue (h : s.memOk) : OutOk (Machine.issue s) := h.issueWith fun i _ ht => ht.exec i

theorem State.memOk.stay (h : s.memOk) : OutOk (if s.canIssue s.cur then Machine.issue s else .next s) := by
  split
  · exact h.issue
  · exact h

theorem State.memOk.turn (h : s.memOk) : OutOk (turn s) := by
  unfold Machine.turn
  dsimp only
  split
  · split
    next t e => exact h.moved.some e
    next =>
      split
      · exact h.takePipe.issue
      · exact h.stay
  · split
    · exact h.takePipe.issue
    next =>
      split
      next t e => exact h.moved.some e
      next => exact h.stay

/-- A step that answers a next state leaves memory in canonical form. -/
theorem State.memOk.step (h : s.memOk) : OutOk (step s) := by
  unfold Machine.step
  split
  next u rest e => exact State.memOk.upset (s := { s with upsets := rest }) h u
  next =>
    split
    next i rest e =>
      split
      · exact State.memOk.exec (s := { s with script := rest }) h i
      · trivial
    next =>
      split
      · exact State.memOk.issue (s := { s with burst := s.burst + 1 }) h
      · exact State.memOk.turn (s := { s with burst := 0, cursor := s.cursor + 1 }) h

/-- Settles O59: an error of storage, a move of the device and an instruction each keep the canonical form, and a step is one of
them. -/
theorem stepKeepsMemoryForm : Obligations.StepKeepsMemoryForm := by
  intro s t h e
  exact (State.memOk.step h).next e

end Sys2Proof.Machine
end

section
/-! PROOF. The lanes of a group: changing some of them at once, masks of lanes, and the value of a lane in a list of results (R48, R104). -/

namespace Sys2Proof.Machine

/-! ### Threads by lane -/

theorem modLane_eq_modify (f : Thread → Thread) (n : Nat) (ts : List Thread) : modLane f n ts = ts.modify n f := by
  induction ts generalizing n with
  | nil => cases n <;> simp [modLane]
  | cons t rest ih =>
    cases n with
    | zero => simp [modLane]
    | succ n => simp [modLane, ih]

@[simp] theorem length_modLane (f : Thread → Thread) (n : Nat) (ts : List Thread) : (modLane f n ts).length = ts.length := by
  simp [modLane_eq_modify]

/-- Changes to different lanes, one after the other, are one change of all of them. -/
theorem foldl_modLane (f : Nat → Thread → Thread) (ls : List Nat) (hn : ls.Nodup) (ts : List Thread) :
    ls.foldl (fun ts l => modLane (f l) l ts) ts = ts.mapIdx fun l t => if l ∈ ls then f l t else t := by
  induction ls generalizing ts with
  | nil => exact List.ext_getElem? fun l => by simp
  | cons a rest ih =>
    obtain ⟨ha, hr⟩ := List.nodup_cons.mp hn
    rw [List.foldl_cons, ih hr, modLane_eq_modify]
    refine List.ext_getElem? fun l => ?_
    simp only [List.getElem?_mapIdx, List.getElem?_modify, List.mem_cons]
    by_cases h : a = l
    · subst h; cases ts[a]? <;> simp [ha]
    · cases ts[l]? <;> simp [h, Ne.symm h]

theorem getD_mapIdx {α : Type} (f : Nat → α → α) (ts : List α) (l : Nat) (d : α) (h : l < ts.length) :
    (ts.mapIdx f).getD l d = f l (ts.getD l d) := by
  simp [List.getD_eq_getElem?_getD, List.getElem?_mapIdx, List.getElem?_eq_getElem h]

theorem getD_modLane (f : Thread → Thread) (k : Nat) (ts : List Thread) (l : Nat) (d : Thread) (h : l < ts.length) :
    (modLane f k ts).getD l d = if k = l then f (ts.getD l d) else ts.getD l d := by
  rw [modLane_eq_modify]
  by_cases hk : k = l
  · subst hk; simp [List.getD_eq_getElem?_getD, List.getElem?_eq_getElem h]
  · simp [List.getD_eq_getElem?_getD, hk]

/-- The thread in a lane of a group whose threads have all been changed by lane. -/
theorem lane_mapIdx {g h : Group} {f : Nat → Thread → Thread} (e : h.threads = g.threads.mapIdx f) (l : Nat)
    (hl : l < g.threads.length) : h.lane l = f l (g.lane l) := by
  rw [Group.lane, e, getD_mapIdx _ _ _ _ hl, Group.lane]

theorem lane_of_threads {g h : Group} (e : h.threads = g.threads) (l : Nat) : h.lane l = g.lane l := by
  rw [Group.lane, e, Group.lane]

/-! ### Masks of lanes -/

theorem mem_lanesOf (s : State) (m : LaneMask) (l : Nat) :
    l ∈ s.lanesOf m ↔ l < s.cur.threads.length ∧ m.getLsbD l = true := by simp [State.lanesOf]

theorem nodup_lanesOf (s : State) (m : LaneMask) : (s.lanesOf m).Nodup := List.nodup_range.filter _

/-- The mask names no vacant lane. -/
def LaneMask.within (m : LaneMask) (s : State) : Prop := ∀ l, m.getLsbD l = true → l < s.cur.threads.length

theorem getLsbD_lowMask (n l : Nat) : (lowMask n).getLsbD l = (decide (l < 64) && decide (l < n)) := by
  simp [lowMask, BitVec.getLsbD_ofNat, Nat.testBit_two_pow_sub_one]

/-- Only lanes with a thread are active (R166, R196). -/
theorem em_within (s : State) : LaneMask.within s.em s := by
  intro l h
  simp only [State.em, BitVec.getLsbD_and, Group.present, getLsbD_lowMask, Bool.and_eq_true, decide_eq_true_eq] at h
  exact h.2.2

theorem mem_lanesOf_within {s : State} {m : LaneMask} (hm : LaneMask.within m s) (l : Nat) : l ∈ s.lanesOf m ↔ m.getLsbD l = true := by
  rw [mem_lanesOf]
  exact ⟨fun h => h.2, fun h => ⟨hm l h, h⟩⟩

theorem getLsbD_lanesIn {α : Type} (vals : List (Nat × α)) (l : Nat) :
    (lanesIn vals).getLsbD l = (decide (l < 64) && vals.any (·.1 == l)) := by
  have acc : ∀ m : LaneMask, (vals.foldl (fun m e => if e.1 < 64 then m ||| 1#64 <<< e.1 else m) m).getLsbD l
      = (m.getLsbD l || (decide (l < 64) && vals.any (·.1 == l))) := by
    induction vals with
    | nil => simp
    | cons e rest ih =>
      intro m
      rw [List.foldl_cons, ih, List.any_cons]
      have bit : (if e.1 < 64 then m ||| 1#64 <<< e.1 else m).getLsbD l = (m.getLsbD l || (decide (l < 64) && e.1 == l)) := by
        split
        · simp only [BitVec.getLsbD_or, BitVec.getLsbD_shiftLeft, BitVec.getLsbD_one]
          by_cases h : e.1 = l
          · subst h; simp
          · have : ¬(l - e.1 = 0 ∧ e.1 ≤ l) := by omega
            by_cases h2 : l < e.1
            · simp [h, h2]
            · have h3 : ¬ l - e.1 = 0 := by omega
              simp [h, h3]
        · by_cases h : e.1 = l
          · subst h; simp [*]
          · simp [h]
      rw [bit]
      cases m.getLsbD l <;> cases decide (l < 64) <;> cases e.1 == l <;> simp
  rw [lanesIn, acc]
  simp

/-- A result in each lane of a mask: these lanes are the mask. -/
theorem lanesIn_lanesOf {α : Type} {s : State} {m : LaneMask} (hm : LaneMask.within m s) (f : Nat → α) :
    lanesIn ((s.lanesOf m).map fun l => (l, f l)) = m := by
  refine BitVec.eq_of_getLsbD_eq fun l hl => ?_
  rw [getLsbD_lanesIn, Bool.eq_iff_iff]
  simp [hl, mem_lanesOf_within hm]

theorem laneVal_lanesOf (s : State) (m : LaneMask) (v : Nat → DWord) (l : Nat) (hl : l < s.cur.threads.length) :
    laneVal ((s.lanesOf m).map fun l => (l, v l)) l = if m.getLsbD l then v l else 0 := by
  have find : ∀ ls : List Nat, laneVal (ls.map fun l => (l, v l)) l = if l ∈ ls then v l else 0 := by
    intro ls
    induction ls with
    | nil => rfl
    | cons a rest ih =>
      by_cases h : a = l
      · subst h; simp [laneVal]
      · simp only [laneVal, List.map_cons, List.find?_cons, beq_eq_false_iff_ne.mpr h, List.mem_cons, Ne.symm h, false_or] at ih ⊢
        exact ih
  rw [find]
  simp [mem_lanesOf, hl]

end Sys2Proof.Machine
end

section
/-! PROOF. Where the result of a cell goes: stack entries and predicates of the lanes that take part, with the values before the write
below their latency (R50, R57, R60, R104, R106). -/

namespace Sys2Proof.Machine

/-! ### Threads -/

/-- A thread with one entry of its stack written. -/
def Thread.setEntry (t : Thread) (i : Nat) (x : Word) : Thread :=
  { t with stack := sset 0 t.stack i x, badStack := t.badStack.filter (· ≠ i) }

/-- A thread with one predicate written. -/
def Thread.setPred (t : Thread) (i : Nat) (b : Bool) : Thread :=
  { t with pred := setBit t.pred i b, badPreds := t.badPreds.filter (· ≠ i) }

/-- A thread with a result written to destination code `d` of a class; `x` is what enters b0. -/
def Thread.withResult (t : Thread) (dst : DstCls) (wb d : Nat) (x : DWord) : Thread :=
  match dst with
  | .pred => t.setPred d (x != 0)
  | .pair => if isV d then (t.setEntry (wb + d) (low32 x)).setEntry (wb + d + 1) (high32 x) else t
  | _ => if isV d then t.setEntry (wb + d) (low32 x) else t

theorem getLsbD_setBit {n : Nat} (w : BitVec n) (i : Nat) (b : Bool) (j : Nat) (hj : j < n) :
    (setBit w i b).getLsbD j = if j = i then b else w.getLsbD j := by
  have pow : (BitVec.ofNat n (2 ^ i)).getLsbD j = decide (i = j) := by
    rw [BitVec.getLsbD_ofNat, Nat.testBit_two_pow, decide_eq_true hj, Bool.true_and]
  unfold setBit
  generalize BitVec.ofNat n (2 ^ i) = p at pow
  have : (if j = i then b else w.getLsbD j) = if i = j then b else w.getLsbD j := by simp only [eq_comm]
  rw [this]
  cases b
  · simp only [Bool.false_eq_true, if_false, BitVec.getLsbD_and, BitVec.getLsbD_not, pow, hj, decide_true, Bool.true_and]
    by_cases h : i = j <;> simp [h]
  · simp only [if_true, BitVec.getLsbD_or, pow]
    by_cases h : i = j <;> simp [h]

theorem sget_setEntry (t : Thread) (i j : Nat) (x : Word) :
    sget 0 (t.setEntry i x).stack j = if j = i then x else sget 0 t.stack j := sget_sset ..

/-- What enters b0 holds in its low half what a 32-bit result is. -/
theorem low32_latched {dst : DstCls} (h : dst ≠ .pred) (x : DWord) : low32 (Spec.latched dst x) = x.setWidth 32 := by
  have mask : low32 (x &&& 0xFFFFFFFF) = x.setWidth 32 := by
    unfold low32
    refine BitVec.eq_of_getLsbD_eq fun i hi => ?_
    have ones : (0xFFFFFFFF : DWord).getLsbD i = true := by revert i; decide
    rw [BitVec.getLsbD_setWidth, BitVec.getLsbD_and, ones, BitVec.getLsbD_setWidth, Bool.and_true]
  cases dst with
  | w ext => exact mask
  | v => exact mask
  | pair => rfl
  | pred => exact absurd rfl h

theorem zext64_low32 (x : DWord) : zext64 (low32 x) = x &&& 0xFFFFFFFF := by
  refine BitVec.eq_of_toNat_eq ?_
  have ones : (0xFFFFFFFF : DWord).toNat = 2 ^ 32 - 1 := rfl
  rw [BitVec.toNat_and, ones, Nat.and_two_pow_sub_one_eq_mod, zext64, low32, BitVec.toNat_setWidth, BitVec.toNat_setWidth]
  omega

/-- The register stack after a result (R50, R106). -/
theorem sget_withResult (t : Thread) (dst : DstCls) (wb d : Nat) (x : DWord) (i : Nat) :
    sget 0 (t.withResult dst wb d (Spec.latched dst x)).stack i = (Spec.written dst wb d x i).getD (sget 0 t.stack i) := by
  have word (h : dst ≠ .pred) : sget 0 (t.setEntry (wb + d) (low32 (Spec.latched dst x))).stack i
      = if i = wb + d then x.setWidth 32 else sget 0 t.stack i := by rw [sget_setEntry, low32_latched h]
  cases dst with
  | pred => simp [Thread.withResult, Thread.setPred, Spec.written]
  | pair =>
    cases hv : isV d
    · simp [Thread.withResult, Spec.written, hv]
    · simp only [Thread.withResult, hv, if_true, sget_setEntry (i := wb + d + 1), word (by decide)]
      by_cases h1 : i = wb + d + 1
      · have : i ≠ wb + d := by omega
        simp [Spec.written, hv, h1, Spec.latched, high32]
      · by_cases h0 : i = wb + d
        · simp [Spec.written, hv, h0]
        · simp [Spec.written, hv, h0, h1]
  | w ext =>
    cases hv : isV d
    · simp [Thread.withResult, Spec.written, hv]
    · simp only [Thread.withResult, hv, if_true, word (by simp)]
      by_cases h0 : i = wb + d <;> simp [Spec.written, hv, h0]
  | v =>
    cases hv : isV d
    · simp [Thread.withResult, Spec.written, hv]
    · simp only [Thread.withResult, hv, if_true, word (by simp)]
      by_cases h0 : i = wb + d <;> simp [Spec.written, hv, h0]

/-- The predicates after a result. -/
theorem pred_withResult (t : Thread) (dst : DstCls) (wb d : Nat) (x : DWord) (i : Nat) (hi : i < 32) :
    (t.withResult dst wb d (Spec.latched dst x)).pred.getLsbD i =
      if dst = .pred ∧ i = d then decide (x ≠ 0) else t.pred.getLsbD i := by
  cases dst with
  | pred =>
    have bit : (Spec.latched .pred x != 0) = decide (x ≠ 0) := by
      by_cases hx : x = 0
      · simp [Spec.latched, hx]
      · have : Spec.latched .pred x = 1 := if_neg hx
        rw [this, decide_eq_true hx]
        rfl
    rw [Thread.withResult, Thread.setPred, getLsbD_setBit _ _ _ _ hi, bit]
    simp only [true_and]
  | pair => cases hv : isV d <;> simp [Thread.withResult, hv, Thread.setEntry]
  | w ext => cases hv : isV d <;> simp [Thread.withResult, hv, Thread.setEntry]
  | v => cases hv : isV d <;> simp [Thread.withResult, hv, Thread.setEntry]

/-- A result leaves the number, the place and the queues of a thread, and marks no register. -/
theorem keepsQueues_withResult (t : Thread) (dst : DstCls) (wb d : Nat) (x : DWord) :
    Spec.KeepsQueues t (t.withResult dst wb d x) := by
  have none : Spec.KeepsQueues t t := ⟨rfl, fun _ h => h, fun _ h => h⟩
  have entry (i : Nat) (y : Word) : Spec.KeepsQueues t (t.setEntry i y) :=
    ⟨rfl, fun _ h => (List.mem_filter.mp h).1, fun _ h => h⟩
  cases dst with
  | pred => exact ⟨rfl, fun _ h => h, fun _ h => (List.mem_filter.mp h).1⟩
  | pair =>
    cases hv : isV d
    · simpa [Thread.withResult, hv] using none
    · simp only [Thread.withResult, hv, if_true]
      exact ⟨rfl, fun _ h => (List.mem_filter.mp (List.mem_filter.mp h).1).1, fun _ h => h⟩
  | w ext => cases hv : isV d <;> simp [Thread.withResult, hv, none, entry]
  | v => cases hv : isV d <;> simp [Thread.withResult, hv, none, entry]

/-- A result leaves the latches: they move when the instruction ends. -/
theorem latches_withResult (t : Thread) (dst : DstCls) (wb d : Nat) (x : DWord) :
    (t.withResult dst wb d x).b0 = t.b0 ∧ (t.withResult dst wb d x).b1 = t.b1 ∧ (t.withResult dst wb d x).b2 = t.b2 := by
  unfold Thread.withResult
  cases dst with
  | pred => exact ⟨rfl, rfl, rfl⟩
  | pair => dsimp only; split <;> exact ⟨rfl, rfl, rfl⟩
  | w ext => dsimp only; split <;> exact ⟨rfl, rfl, rfl⟩
  | v => dsimp only; split <;> exact ⟨rfl, rfl, rfl⟩

/-! ### Groups -/

/-- Two groups hold the same registers in every lane, and have last issued at the same time. -/
def Group.SameRegisters (g h : Group) : Prop :=
  g.threads.map (fun t => (t.stack, t.pred)) = h.threads.map (fun t => (t.stack, t.pred)) ∧ g.lastIssue = h.lastIssue

theorem Group.SameRegisters.stackOld {g h : Group} (e : g.SameRegisters h) (i : Nat) : g.stackOld i = h.stackOld i := by
  have := congrArg (List.map fun x : List (Nat × Word) × Word => zext64 (sget 0 x.1 i)) e.1
  simpa [Group.stackOld, Function.comp_def] using this

theorem Group.SameRegisters.predOld {g h : Group} (e : g.SameRegisters h) (i : Nat) :
    (g.threads.map fun t => if t.pred.getLsbD i then (1 : DWord) else 0) = h.threads.map fun t => if t.pred.getLsbD i then 1 else 0 := by
  have := congrArg (List.map fun x : List (Nat × Word) × Word => if x.2.getLsbD i then (1 : DWord) else 0) e.1
  simpa [Function.comp_def] using this

theorem foldl_setStack (i : Nat) (v : Nat → Word) (ls : List Nat) (g : Group) :
    ls.foldl (fun g l => g.setStack l i (v l)) g
      = { g with threads := ls.foldl (fun ts l => modLane (fun t => t.setEntry i (v l)) l ts) g.threads } := by
  induction ls generalizing g with
  | nil => rfl
  | cons l rest ih => exact ih _

/-- A stack entry written in different lanes. -/
theorem writeStack_eq (g : Group) (i : Nat) (ls : List Nat) (hn : ls.Nodup) (v : Nat → DWord) (left : Nat) :
    g.writeStack i (ls.map fun l => (l, v l)) left =
      { g.hazardIn (.v i) (g.stackOld i) left (lanesIn (ls.map fun l => (l, v l))) with
        threads := g.threads.mapIdx fun l t => if l ∈ ls then t.setEntry i (low32 (v l)) else t } := by
  have same : (g.hazardIn (.v i) (g.stackOld i) left (lanesIn (ls.map fun l => (l, v l)))).threads = g.threads := by
    unfold Group.hazardIn; split <;> rfl
  rw [Group.writeStack, List.foldl_map, foldl_setStack i fun l => low32 (v l)]
  rw [foldl_modLane (fun l t => t.setEntry i (low32 (v l))) ls hn, same]

/-- A predicate written in different lanes. -/
theorem writePred_eq (g : Group) (i : Nat) (ls : List Nat) (hn : ls.Nodup) (v : Nat → Bool) (left : Nat) :
    g.writePred i (ls.map fun l => (l, v l)) left =
      { g.hazardIn (.p i) (g.threads.map fun t => if t.pred.getLsbD i then 1 else 0) left (lanesIn (ls.map fun l => (l, v l))) with
        threads := g.threads.mapIdx fun l t => if l ∈ ls then t.setPred i (v l) else t } := by
  have same (o : List DWord) (m : LaneMask) : (g.hazardIn (.p i) o left m).threads = g.threads := by
    unfold Group.hazardIn; split <;> rfl
  rw [Group.writePred, List.foldl_map, same]
  exact congrArg (fun ts => { Group.hazardIn g _ _ left _ with threads := ts })
    (foldl_modLane (fun l t => t.setPred i (v l)) ls hn g.threads)

theorem mapIdx_unchanged (ts : List Thread) (p : Nat → Bool) : (ts.mapIdx fun l t => if p l then t else t) = ts :=
  List.ext_getElem? fun l => by simp

theorem withResult_other {dst : DstCls} {d : Nat} (hp : dst ≠ .pred) (hv : isV d = false) (t : Thread) (wb : Nat) (x : DWord) :
    t.withResult dst wb d x = t := by
  cases dst <;> simp_all [Thread.withResult]

theorem pending_other {dst : DstCls} {d : Nat} (hp : dst ≠ .pred) (hv : isV d = false) (s : State) (lat : Nat) (m : LaneMask) :
    Spec.pending s dst d lat m = [] := by
  simp [Spec.pending, hp, hv]

section
variable {c : Cell} {s : State} {m : LaneMask} {g : Group} (hm : LaneMask.within m s) (hg : g.SameRegisters s.cur)
  (hlat : c.lat ≠ 0) (v : Nat → DWord)

include hm hg hlat in
/-- A v-register written in the lanes of a mask. -/
theorem Cell.writeReg_lanes (hv : isV c.d = true) :
    c.writeReg s ((s.lanesOf m).map fun l => (l, v l)) g =
      { g with
        threads := g.threads.mapIdx fun l t => if l ∈ s.lanesOf m then t.setEntry (s.cur.wb + c.d) (low32 (v l)) else t,
        hazards := Spec.before s (.v (s.cur.wb + c.d)) (s.cur.stackOld (s.cur.wb + c.d)) c.lat m :: g.hazards } := by
  unfold Cell.writeReg
  rw [if_pos hv, writeStack_eq _ _ _ (nodup_lanesOf s m), lanesIn_lanesOf hm, Group.hazardIn, if_neg hlat, hg.stackOld, hg.2]
  rfl

theorem Cell.writeReg_other (hv : isV c.d = false) (hd : isS c.d = false) (vals : List (Nat × DWord)) : c.writeReg s vals g = g := by
  unfold Cell.writeReg
  rw [hv, hd]
  rfl

/-- Writes to one stack entry leave what another held. -/
theorem stackOld_setEntry (p : Nat → Prop) [DecidablePred p] (i j : Nat) (hj : j ≠ i) (x : Nat → Word) (hs : List Hazard) :
    ({ g with threads := g.threads.mapIdx fun l t => if p l then t.setEntry i (x l) else t, hazards := hs } : Group).stackOld j
      = g.stackOld j := by
  refine List.ext_getElem? fun l => ?_
  simp only [Group.stackOld, List.getElem?_map, List.getElem?_mapIdx]
  cases g.threads[l]? with
  | none => rfl
  | some t => by_cases h : p l <;> simp only [h, if_true, if_false, Option.map_some, sget_setEntry, if_neg hj]

/-- Two words, one after the other, are a pair. -/
theorem mapIdx_setEntry_pair (p : Nat → Prop) [DecidablePred p] (wb d : Nat) (hv : isV d = true) (ts : List Thread) :
    ((ts.mapIdx fun l t => if p l then t.setEntry (wb + d) (low32 (v l)) else t).mapIdx fun l t =>
        if p l then t.setEntry (wb + d + 1) (low32 (zext64 (high32 (v l)))) else t)
      = ts.mapIdx fun l t => if p l then t.withResult .pair wb d (v l) else t := by
  have low (x : Word) : low32 (zext64 x) = x := by simp [low32, zext64]
  refine List.ext_getElem? fun l => ?_
  simp only [List.getElem?_mapIdx]
  cases ts[l]? with
  | none => rfl
  | some t => by_cases h : p l <;> simp [h, Thread.withResult, hv, low]

include hm hg hlat in
/-- A cell that writes no s-register changes the registers of the lanes that take part, and holds their values before the write below
its latency (R60, R104). -/
theorem Cell.write_lanes (hd : c.dcls ≠ .pred → isS c.d = false) :
    c.write s ((s.lanesOf m).map fun l => (l, v l)) g =
      { g with
        threads := g.threads.mapIdx fun l t => if l ∈ s.lanesOf m then t.withResult c.dcls s.cur.wb c.d (v l) else t,
        hazards := Spec.pending s c.dcls c.d c.lat m ++ g.hazards } := by
  have hn := nodup_lanesOf s m
  have unchanged := mapIdx_unchanged g.threads fun l => decide (l ∈ s.lanesOf m)
  cases hc : c.dcls with
  | pred =>
    simp only [Cell.write, hc, List.map_map]
    rw [Function.comp_def, writePred_eq g c.d (s.lanesOf m) hn (fun l => v l != 0) c.lat, lanesIn_lanesOf hm, Group.hazardIn,
      if_neg hlat, hg.predOld, hg.2]
    rfl
  | pair =>
    have hp : c.dcls ≠ .pred := by simp [hc]
    cases hv : isV c.d
    · simp only [decide_eq_true_eq] at unchanged
      simp only [Cell.write, hc, hv, withResult_other (hc ▸ hp) hv, pending_other (hc ▸ hp) hv, writeReg_other hv (hd hp), unchanged]
      rfl
    · simp only [Cell.write, hc, hv, if_true, writeReg_lanes hm hg hlat v hv, List.map_map]
      rw [Function.comp_def, writeStack_eq _ _ _ hn, lanesIn_lanesOf hm, Group.hazardIn, if_neg hlat,
        stackOld_setEntry _ _ _ (by omega), hg.stackOld, hg.2, mapIdx_setEntry_pair _ _ _ _ hv]
      simp only [Spec.pending, hv]
      rfl
  | w ext =>
    have hp : c.dcls ≠ .pred := by simp [hc]
    cases hv : isV c.d
    · simp only [decide_eq_true_eq] at unchanged
      simp only [Cell.write, hc, withResult_other (hc ▸ hp) hv, pending_other (hc ▸ hp) hv, writeReg_other hv (hd hp), unchanged]
      rfl
    · simp only [Cell.write, hc, hv, Spec.pending, Thread.withResult, if_true, writeReg_lanes hm hg hlat v hv]
      rfl
  | v =>
    have hp : c.dcls ≠ .pred := by simp [hc]
    cases hv : isV c.d
    · simp only [decide_eq_true_eq] at unchanged
      simp only [Cell.write, hc, withResult_other (hc ▸ hp) hv, pending_other (hc ▸ hp) hv, writeReg_other hv (hd hp), unchanged]
      rfl
    · simp only [Cell.write, hc, hv, Spec.pending, Thread.withResult, if_true, writeReg_lanes hm hg hlat v hv]
      rfl

end

end Sys2Proof.Machine
end

section
/-! PROOF. Rill queues: which queues a pop and a push change, and that nothing else does (R211 to R217). -/

namespace Sys2Proof.Machine

/-! ### Groups by number -/

theorem group?_cur {s : State} (h : s.cur.id ≠ 0) : s.group? s.cur.id = some s.cur := by simp [State.group?, State.groups, h]

theorem group?_other {s : State} {g : Nat} (h : g ≠ s.cur.id) : s.group? g = s.others.find? (·.id == g) := by
  unfold State.group? State.groups
  split
  · rfl
  · simp [Ne.symm h]

theorem mem_of_group? {s : State} {g : Nat} {x : Group} (h : s.group? g = some x) : x ∈ s.groups := List.mem_of_find?_eq_some h

theorem id_of_group? {s : State} {g : Nat} {x : Group} (h : s.group? g = some x) : x.id = g := by
  simpa using List.find?_some h

theorem find?_id_map (f : Group → Group) (hf : ∀ x, (f x).id = x.id) (gs : List Group) (g : Nat) :
    (gs.map f).find? (·.id == g) = (gs.find? (·.id == g)).map f := by
  rw [List.find?_map]
  simp [hf]

/-- The groups after a change of some of them. -/
theorem groups_mapGroups {s : State} {p : Group → Bool} {f : Group → Group} (hf : ∀ x, (f x).id = x.id) :
    (s.mapGroups p f).groups = s.groups.map fun x => if p x then f x else x := by
  by_cases h : s.cur.id = 0
  · simp [State.groups, State.mapGroups, h]
  · by_cases hp : p s.cur = true
    · simp [State.groups, State.mapGroups, h, hp, hf]
    · simp [State.groups, State.mapGroups, h, hp]

theorem group?_mapGroups {s : State} {p : Group → Bool} {f : Group → Group} (hf : ∀ x, (f x).id = x.id) (g : Nat) :
    (s.mapGroups p f).group? g = (s.group? g).map fun x => if p x then f x else x := by
  rw [State.group?, groups_mapGroups hf, find?_id_map _ (fun x => by split <;> simp [hf])]
  rfl

/-! ### Threads that differ in their queues alone -/

/-- A thread is as before, but for its inbound queues. -/
def Thread.SameButQueues (x y : Thread) : Prop :=
  y = { x with xp := y.xp, xm := y.xm, yp := y.yp, ym := y.ym, zp := y.zp, zm := y.zm }

theorem Thread.SameButQueues.refl (x : Thread) : x.SameButQueues x := rfl

theorem Thread.SameButQueues.trans {x y z : Thread} (h : x.SameButQueues y) (k : y.SameButQueues z) : x.SameButQueues z := by
  unfold Thread.SameButQueues at *
  rw [k, h]

theorem Thread.SameButQueues.latches {x y : Thread} (h : x.SameButQueues y) : y.b0 = x.b0 ∧ y.b1 = x.b1 ∧ y.b2 = x.b2 := by
  unfold Thread.SameButQueues at h
  rw [h]
  exact ⟨rfl, rfl, rfl⟩

theorem setQueue_sameButQueues (t : Thread) (p : Nat) (q : List RillEntry) : t.SameButQueues (t.setQueue p q) := by
  unfold Thread.setQueue
  split <;> rfl

theorem drops_sameButQueues (t : Thread) (pops : List Nat) : t.SameButQueues (t.drops pops) := by
  unfold Thread.drops
  induction pops generalizing t with
  | nil => exact .refl t
  | cons p rest ih => exact (setQueue_sameButQueues t p _).trans (ih _)

theorem forall₂_mapIdx {α : Type} {R : α → α → Prop} (f : Nat → α → α) (hf : ∀ l x, R x (f l x)) (xs : List α) :
    List.Forall₂ R xs (xs.mapIdx f) := by
  refine List.forall₂_iff_get.mpr ⟨by simp, fun i h k => ?_⟩
  simpa using hf i xs[i]

theorem forall₂_modLane {R : Thread → Thread → Prop} (hr : ∀ t, R t t) (f : Thread → Thread) (hf : ∀ t, R t (f t)) (l : Nat)
    (ts : List Thread) : List.Forall₂ R ts (modLane f l ts) := by
  induction ts generalizing l with
  | nil => cases l <;> exact .nil
  | cons t rest ih =>
    cases l with
    | zero => exact .cons (hf t) (List.forall₂_same.mpr fun x _ => hr x)
    | succ l => exact .cons (hr t) (ih l)

/-! ### States that differ in queues alone -/

/-- Nothing but inbound queues has changed in the group in focus, and nothing outside the groups. -/
def QueuesOnly (s t : State) : Prop :=
  t = { s with cur := { s.cur with threads := t.cur.threads }, others := t.others }
    ∧ List.Forall₂ Thread.SameButQueues s.cur.threads t.cur.threads

theorem QueuesOnly.refl (s : State) : QueuesOnly s s := ⟨rfl, List.forall₂_same.mpr fun x _ => .refl x⟩

theorem forall₂_trans {α : Type} {R : α → α → Prop} (hR : ∀ x y z, R x y → R y z → R x z) {xs ys zs : List α}
    (h : List.Forall₂ R xs ys) (k : List.Forall₂ R ys zs) : List.Forall₂ R xs zs := by
  induction h generalizing zs with
  | nil => exact k
  | cons a _ ih =>
    cases k with
    | cons b rest => exact .cons (hR _ _ _ a b) (ih rest)

theorem QueuesOnly.trans {s t u : State} (h : QueuesOnly s t) (k : QueuesOnly t u) : QueuesOnly s u := by
  refine ⟨?_, forall₂_trans (R := Thread.SameButQueues) (fun _ _ _ => Thread.SameButQueues.trans) h.2 k.2⟩
  rw [k.1, h.1]

theorem QueuesOnly.length {s t : State} (h : QueuesOnly s t) : t.cur.threads.length = s.cur.threads.length := h.2.length_eq.symm

theorem QueuesOnly.lane {s t : State} (h : QueuesOnly s t) (l : Nat) : (s.cur.lane l).SameButQueues (t.cur.lane l) := by
  unfold Group.lane
  by_cases hl : l < s.cur.threads.length
  · rw [List.getD_eq_getElem _ _ hl, List.getD_eq_getElem _ _ (h.length.symm ▸ hl)]
    exact (List.forall₂_iff_get.mp h.2).2 l hl (h.length.symm ▸ hl)
  · rw [List.getD_eq_default _ _ (Nat.le_of_not_lt hl), List.getD_eq_default _ _ (Nat.le_of_not_lt (h.length.symm ▸ hl))]
    exact .refl _

theorem QueuesOnly.sameRegisters {s t : State} (h : QueuesOnly s t) : t.cur.SameRegisters s.cur := by
  refine ⟨?_, by rw [h.1]⟩
  have := h.2
  generalize s.cur.threads = xs, t.cur.threads = ys at this
  induction this with
  | nil => rfl
  | cons a _ ih => rw [List.map_cons, List.map_cons, ih, a]

namespace QueuesOnly
variable {s t : State} (h : QueuesOnly s t)
include h

theorem id : t.cur.id = s.cur.id := by rw [h.1]
theorem pc : t.cur.pc = s.cur.pc := by rw [h.1]
theorem teamNumber : t.cur.team = s.cur.team := by rw [h.1]
theorem core : t.cur.core = s.cur.core := by rw [h.1]
theorem pipe : t.cur.pipe = s.cur.pipe := by rw [h.1]
theorem gcyc : t.cur.gcyc = s.cur.gcyc := by rw [h.1]
theorem latches : t.cur.latches = s.cur.latches := by rw [h.1]
theorem sregs : t.cur.sregs = s.cur.sregs := by rw [h.1]
theorem hregs : t.cur.hregs = s.cur.hregs := by rw [h.1]
theorem hazards : t.cur.hazards = s.cur.hazards := by rw [h.1]
theorem flags : t.cur.flags = s.cur.flags := by rw [h.1]
theorem gstat : t.cur.gstat = s.cur.gstat := by rw [h.1]
theorem bad : t.cur.bad = s.cur.bad := by rw [h.1]
theorem flights : t.cur.flights = s.cur.flights := by rw [h.1]
theorem nextTag : t.cur.nextTag = s.cur.nextTag := by rw [h.1]
theorem em : t.cur.em = s.cur.em := by rw [h.1]
theorem fpc : t.cur.fpc = s.cur.fpc := by rw [h.1]
theorem wb : t.cur.wb = s.cur.wb := by rw [h.1]
theorem issue : t.issue = s.issue := by rw [h.1]
theorem draws : t.draws = s.draws := by rw [h.1]
theorem pipes : t.pipes = s.pipes := by rw [h.1]
theorem teams : t.teams = s.teams := by rw [h.1]
theorem launches : t.launches = s.launches := by rw [h.1]
theorem mem : t.mem = s.mem := by rw [h.1]
theorem pipeKey : t.cur.pipeKey = s.cur.pipeKey := by rw [Group.pipeKey, h.core, h.pipe, Group.pipeKey]
theorem team : t.team = s.team := by rw [State.team, State.team?, h.teams, h.teamNumber]; rfl

end QueuesOnly

theorem takePops_queuesOnly (s : State) (m : LaneMask) (pops : List Nat) : QueuesOnly s (s.takePops m pops) := by
  refine ⟨rfl, forall₂_mapIdx _ (fun l t => ?_) _⟩
  cases m.getLsbD l
  · exact .refl t
  · exact drops_sameButQueues t pops

/-- No field pops a port. -/
theorem takePops_nil (s : State) (m : LaneMask) : s.takePops m [] = s := by
  have : (s.cur.threads.mapIdx fun i t => cond (m.getLsbD i) (t.drops []) t) = s.cur.threads := by
    refine List.ext_getElem? fun i => ?_
    simp [Thread.drops]
  simp only [State.takePops, State.modCur, this]

theorem modQueue_queuesOnly (s : State) (seat : Seat) (p : Nat) (f : List RillEntry → List RillEntry) :
    QueuesOnly s (s.modQueue seat p f) := by
  unfold State.modQueue State.mapGroups
  by_cases h : s.cur.id ≠ 0 ∧ (s.cur.id == seat.1) = true
  · refine ⟨by rw [if_pos h], ?_⟩
    rw [if_pos h]
    exact forall₂_modLane .refl _ (fun t => setQueue_sameButQueues t p _) _ _
  · refine ⟨by rw [if_neg h], ?_⟩
    rw [if_neg h]
    exact (QueuesOnly.refl s).2

theorem reserve_queuesOnly (s s0 : State) (port l : Nat) (e : RillEntry) : QueuesOnly s (s.reserve s0 port l e) := by
  unfold State.reserve
  split
  · exact .refl s
  · exact modQueue_queuesOnly ..

theorem foldl_reserve_queuesOnly (s0 : State) (port : Nat) (entry : Nat → RillEntry) (ls : List Nat) (s : State) :
    QueuesOnly s (ls.foldl (fun t l => t.reserve s0 port l (entry l)) s) := by
  induction ls generalizing s with
  | nil => exact .refl s
  | cons l rest ih => exact (reserve_queuesOnly ..).trans (ih _)

theorem reserveAll_queuesOnly (s s0 : State) (m : LaneMask) (port : Nat) (entry : Nat → RillEntry) :
    QueuesOnly s (s.reserveAll s0 m port entry) := foldl_reserve_queuesOnly ..

/-! ### A queue after pops and pushes -/

theorem queue_setQueue {t : Thread} {p q : Nat} (hp : p < 6) (hq : q < 6) (x : List RillEntry) :
    (t.setQueue p x).queue q = if p = q then x else t.queue q := by
  match p, q, hp, hq with
  | 0, 0, _, _ | 0, 1, _, _ | 0, 2, _, _ | 0, 3, _, _ | 0, 4, _, _ | 0, 5, _, _ => rfl
  | 1, 0, _, _ | 1, 1, _, _ | 1, 2, _, _ | 1, 3, _, _ | 1, 4, _, _ | 1, 5, _, _ => rfl
  | 2, 0, _, _ | 2, 1, _, _ | 2, 2, _, _ | 2, 3, _, _ | 2, 4, _, _ | 2, 5, _, _ => rfl
  | 3, 0, _, _ | 3, 1, _, _ | 3, 2, _, _ | 3, 3, _, _ | 3, 4, _, _ | 3, 5, _, _ => rfl
  | 4, 0, _, _ | 4, 1, _, _ | 4, 2, _, _ | 4, 3, _, _ | 4, 4, _, _ | 4, 5, _, _ => rfl
  | 5, 0, _, _ | 5, 1, _, _ | 5, 2, _, _ | 5, 3, _, _ | 5, 4, _, _ | 5, 5, _, _ => rfl

theorem opposite_lt {p : Nat} (h : p < 6) : opposite p < 6 := by
  unfold opposite
  split <;> omega

/-- Each pop of a port drops one entry of its queue. -/
theorem queue_drops (t : Thread) (pops : List Nat) (hp : ∀ p ∈ pops, p < 6) (q : Nat) (hq : q < 6) :
    (t.drops pops).queue q = (t.queue q).drop (popCountOf pops q) := by
  unfold Thread.drops
  induction pops generalizing t with
  | nil => rfl
  | cons p rest ih =>
    obtain ⟨h0, hr⟩ := List.forall_mem_cons.mp hp
    rw [List.foldl_cons, ih _ hr, queue_setQueue h0 hq]
    by_cases h : p = q
    · subst h; simp [popCountOf, Nat.add_comm]
    · simp [popCountOf, h]

/-- A seat holds a thread. -/
def State.Seated (s : State) (seat : Seat) : Prop := ∃ x, s.group? seat.1 = some x ∧ seat.2 < x.threads.length

theorem queueAt_of_group? {s : State} {g : Nat} {x : Group} (h : s.group? g = some x) (l q : Nat) :
    s.queueAt (g, l) q = (x.lane l).queue q := by simp [State.queueAt, h]

theorem group?_modQueue (s : State) (seat : Seat) (p : Nat) (f : List RillEntry → List RillEntry) (g : Nat) :
    (s.modQueue seat p f).group? g = (s.group? g).map fun x => if x.id == seat.1 then
      { x with threads := modLane (fun t => t.setQueue p (f (t.queue p))) seat.2 x.threads } else x :=
  group?_mapGroups (f := fun x => { x with threads := modLane (fun t => t.setQueue p (f (t.queue p))) seat.2 x.threads })
    (fun _ => rfl) g

section
variable {s : State} {g l : Nat} (hs : s.Seated (g, l))
include hs

theorem seated_modQueue (seat : Seat) (p : Nat) (f : List RillEntry → List RillEntry) : (s.modQueue seat p f).Seated (g, l) := by
  obtain ⟨x, hx, hl⟩ := hs
  refine ⟨_, by rw [group?_modQueue, hx]; rfl, ?_⟩
  dsimp only
  split <;> simpa using hl

theorem queueAt_modQueue (seat : Seat) {p q : Nat} (hp : p < 6) (hq : q < 6) (f : List RillEntry → List RillEntry) :
    (s.modQueue seat p f).queueAt (g, l) q = if seat = (g, l) ∧ p = q then f (s.queueAt (g, l) q) else s.queueAt (g, l) q := by
  obtain ⟨x, hx, hl⟩ := hs
  have hm : (s.modQueue seat p f).group? g = some (if x.id == seat.1 then
      { x with threads := modLane (fun t => t.setQueue p (f (t.queue p))) seat.2 x.threads } else x) := by
    rw [group?_modQueue, hx]; rfl
  rw [queueAt_of_group? hm, queueAt_of_group? hx, id_of_group? hx]
  obtain ⟨h, k⟩ := seat
  by_cases hg : g = h
  · subst hg
    simp only [beq_self_eq_true, if_true, Group.lane, getD_modLane _ _ _ _ _ hl, Prod.mk.injEq, true_and]
    by_cases hk : k = l
    · subst hk
      simp only [if_true, queue_setQueue hp hq, true_and]
      by_cases h : p = q
      · subst h; rfl
      · simp [h]
    · simp [hk]
  · simp [hg, Ne.symm hg]

theorem seated_reserve (s0 : State) (port k : Nat) (e : RillEntry) : (s.reserve s0 port k e).Seated (g, l) := by
  unfold State.reserve
  split
  · exact hs
  · exact seated_modQueue hs ..

theorem queueAt_reserve (s0 : State) {port q : Nat} (hp : port < 6) (hq : q < 6) (k : Nat) (e : RillEntry) :
    (s.reserve s0 port k e).queueAt (g, l) q =
      s.queueAt (g, l) q ++ (if s0.link k port = some (g, l) ∧ opposite port = q then [e] else []) := by
  unfold State.reserve
  cases h : s0.link k port with
  | none => simp
  | some seat =>
    dsimp only
    rw [queueAt_modQueue hs seat (opposite_lt hp) hq]
    by_cases hc : seat = (g, l) ∧ opposite port = q
    · simp [hc]
    · simp [hc]

theorem queueAt_foldl_reserve (s0 : State) {port q : Nat} (hp : port < 6) (hq : q < 6) (entry : Nat → RillEntry) (ls : List Nat) :
    (ls.foldl (fun t k => t.reserve s0 port k (entry k)) s).queueAt (g, l) q =
      s.queueAt (g, l) q ++ ls.filterMap fun k => if s0.link k port = some (g, l) ∧ opposite port = q then some (entry k) else none := by
  induction ls generalizing s with
  | nil => simp
  | cons k rest ih =>
    rw [List.foldl_cons, ih (seated_reserve hs ..), queueAt_reserve hs s0 hp hq, List.filterMap_cons]
    split <;> simp

theorem seated_foldl_reserve (s0 : State) (port : Nat) (entry : Nat → RillEntry) (ls : List Nat) :
    (ls.foldl (fun t k => t.reserve s0 port k (entry k)) s).Seated (g, l) := by
  induction ls generalizing s with
  | nil => exact hs
  | cons k rest ih => exact ih (seated_reserve hs ..)

/-- Every lane's push adds its entry at the tail of the queue that its link leads to (R217). -/
theorem queueAt_reserveAll (s0 : State) {port q : Nat} (hp : port < 6) (hq : q < 6) (m : LaneMask) (entry : Nat → RillEntry) :
    (s.reserveAll s0 m port entry).queueAt (g, l) q = s.queueAt (g, l) q ++ Spec.arrivals s0 m (some port) (g, l) q entry :=
  queueAt_foldl_reserve hs s0 hp hq entry _

end

/-- The pops of the lanes of a mask drop entries of the group in focus (R217). -/
theorem queueAt_takePops {s : State} (h0 : s.cur.id ≠ 0) {g l q : Nat} (hs : s.Seated (g, l)) (m : LaneMask) {pops : List Nat}
    (hp : ∀ p ∈ pops, p < 6) (hq : q < 6) :
    (s.takePops m pops).queueAt (g, l) q =
      if g = s.cur.id ∧ m.getLsbD l = true then (s.queueAt (g, l) q).drop (popCountOf pops q) else s.queueAt (g, l) q := by
  obtain ⟨x, hx, hl⟩ := hs
  by_cases hg : g = s.cur.id
  · subst hg
    obtain rfl : s.cur = x := Option.some.inj ((group?_cur h0).symm.trans hx)
    have ht : (s.takePops m pops).group? s.cur.id = some (s.takePops m pops).cur := group?_cur (s := s.takePops m pops) h0
    rw [queueAt_of_group? ht, queueAt_of_group? hx, lane_mapIdx (g := s.cur) rfl l hl]
    cases m.getLsbD l
    · simp
    · simp [queue_drops _ _ hp _ hq]
  · have ht : (s.takePops m pops).group? g = some x := by
      rw [group?_other (s := s.takePops m pops) hg]
      exact (group?_other hg).symm.trans hx
    rw [queueAt_of_group? ht, queueAt_of_group? hx]
    simp [hg]

theorem seated_takePops {s : State} (h0 : s.cur.id ≠ 0) {g l : Nat} (hs : s.Seated (g, l)) (m : LaneMask) (pops : List Nat) :
    (s.takePops m pops).Seated (g, l) := by
  obtain ⟨x, hx, hl⟩ := hs
  by_cases hg : g = s.cur.id
  · subst hg
    obtain rfl : s.cur = x := Option.some.inj ((group?_cur h0).symm.trans hx)
    exact ⟨_, group?_cur (s := s.takePops m pops) h0, by simpa [State.takePops] using hl⟩
  · exact ⟨x, (group?_other (s := s.takePops m pops) hg).trans ((group?_other hg).symm.trans hx), hl⟩

/-- Every queue depends on the groups alone, and on the queues of the group in focus. -/
theorem queueAt_congr {s t : State} (hid : t.cur.id = s.cur.id) (ho : t.others = s.others)
    (hq : ∀ l < s.cur.threads.length, ∀ q, (t.cur.lane l).queue q = (s.cur.lane l).queue q) {g l : Nat} (hs : s.Seated (g, l))
    (q : Nat) : t.queueAt (g, l) q = s.queueAt (g, l) q := by
  obtain ⟨x, hx, hl⟩ := hs
  by_cases hg : g = s.cur.id
  · subst hg
    by_cases h0 : s.cur.id = 0
    · simp [State.queueAt, State.group?, State.groups, hid, ho, h0]
    · obtain rfl : s.cur = x := Option.some.inj ((group?_cur h0).symm.trans hx)
      have ht : t.group? s.cur.id = some t.cur := hid ▸ group?_cur (hid ▸ h0)
      rw [queueAt_of_group? ht, queueAt_of_group? hx, hq l hl]
  · have ht : t.group? g = s.group? g := by rw [group?_other hg, group?_other (hid ▸ hg), ho]
    rw [queueAt_of_group? (ht.trans hx), queueAt_of_group? hx]

end Sys2Proof.Machine
end

section
/-! PROOF. What an instruction reads is the same before and after the region ends, and before and after a translation: its operands, the
active lanes, and the threads that its ports lead to (R60, R212 to R215, R367). -/

namespace Sys2Proof.Machine

/-! ### Operands -/

/-- The two states differ in nothing that an operand reads. -/
def SameReads (s t : State) : Prop :=
  (∃ buf start base wait, t.cur = { s.cur with storeBuf := buf, rstart := start, rwb := base, wait := wait })
    ∧ t.issue = s.issue ∧ t.draws = s.draws ∧ t.teams = s.teams ∧ t.launches = s.launches

theorem SameReads.refl (s : State) : SameReads s s := ⟨⟨_, _, _, _, rfl⟩, rfl, rfl, rfl, rfl⟩

theorem SameReads.trans {s t u : State} (h : SameReads s t) (k : SameReads t u) : SameReads s u := by
  obtain ⟨⟨b1, r1, w1, x1, e1⟩, i1, d1, t1, l1⟩ := h
  obtain ⟨⟨b2, r2, w2, x2, e2⟩, i2, d2, t2, l2⟩ := k
  exact ⟨⟨b2, r2, w2, x2, by rw [e2, e1]⟩, i2.trans i1, d2.trans d1, t2.trans t1, l2.trans l1⟩

theorem sameReads_endRegion (s : State) : SameReads s s.endRegion := by
  obtain ⟨buf, entries, h⟩ := endRegion_spec s
  rw [h]
  exact ⟨⟨buf, s.cur.pc, s.cur.wb, s.cur.wait, rfl⟩, rfl, rfl, rfl, rfl⟩

namespace SameReads
variable {s t : State} (h : SameReads s t)
include h

theorem threads : t.cur.threads = s.cur.threads := by obtain ⟨⟨_, _, _, _, e⟩, -⟩ := h; rw [e]
theorem id : t.cur.id = s.cur.id := by obtain ⟨⟨_, _, _, _, e⟩, -⟩ := h; rw [e]
theorem pc : t.cur.pc = s.cur.pc := by obtain ⟨⟨_, _, _, _, e⟩, -⟩ := h; rw [e]
theorem flights : t.cur.flights = s.cur.flights := by obtain ⟨⟨_, _, _, _, e⟩, -⟩ := h; rw [e]
theorem intrap : t.cur.intrap = s.cur.intrap := by obtain ⟨⟨_, _, _, _, e⟩, -⟩ := h; rw [Group.intrap, e]; rfl

theorem walking : t.cur.walking = s.cur.walking := by rw [Group.walking, h.flights, Group.walking]
theorem count (path : Nat) : t.cur.count path = s.cur.count path := by rw [Group.count, h.flights, Group.count]

theorem u : t.u = s.u := by rw [State.u, h.2.1, State.u]

theorem team : t.team = s.team := by
  obtain ⟨⟨_, _, _, _, e⟩, -, -, ht, -⟩ := h
  rw [State.team, State.team?, ht, e]; rfl

theorem launch : t.launch = s.launch := by
  have ht := h.team
  obtain ⟨-, -, -, -, hl⟩ := h
  rw [State.launch, State.launch?, ht, hl]; rfl

theorem scopeOk (scope : Nat) : t.scopeOk scope = s.scopeOk scope := by rw [State.scopeOk, h.launch, State.scopeOk]

theorem seen (x : Target) (src lane : Nat) (v : DWord) : t.seen x src lane v = s.seen x src lane v := by
  obtain ⟨⟨_, _, _, _, e⟩, -, hd, -⟩ := h
  rw [State.seen, State.seen, e, hd]

theorem em : t.em = s.em := by
  have := h.seen
  obtain ⟨⟨_, _, _, _, e⟩, -⟩ := h
  rw [State.em, this, e]; rfl

theorem lanesOf (m : LaneMask) : t.lanesOf m = s.lanesOf m := by rw [State.lanesOf, h.threads, State.lanesOf]

theorem lane (l : Nat) : t.cur.lane l = s.cur.lane l := lane_of_threads h.threads l

theorem within {m : LaneMask} (hm : LaneMask.within m s) : LaneMask.within m t := fun l hl => h.threads ▸ hm l hl

theorem rmSeen : t.rmSeen = s.rmSeen := by
  have := h.seen
  obtain ⟨⟨_, _, _, _, e⟩, -⟩ := h
  rw [State.rmSeen, this, e]; rfl

theorem vreg (src lane i : Nat) : t.vreg src lane i = s.vreg src lane i := by
  have hs := h.seen
  have hl := h.lane
  obtain ⟨⟨_, _, _, _, e⟩, -⟩ := h
  rw [State.vreg, hs, hl, e]; rfl

theorem sreg (src i : Nat) : t.sreg src i = s.sreg src i := by
  have hs := h.seen
  obtain ⟨⟨_, _, _, _, e⟩, -⟩ := h
  rw [State.sreg, hs, e]; rfl

theorem pred (src lane i : Nat) : t.pred src lane i = s.pred src lane i := by rw [State.pred, h.seen, h.lane, State.pred]

theorem latch (lane k : Nat) : t.latch lane k = s.latch lane k := by
  have hl := h.lane
  obtain ⟨⟨_, _, _, _, e⟩, -⟩ := h
  rw [State.latch, State.latch, hl, e]

theorem popValue (lane port k : Nat) : t.popValue lane port k = s.popValue lane port k := by
  rw [State.popValue, State.popValue, h.lane]

theorem roSpecial (code lane : Nat) : t.roSpecial code lane = s.roSpecial code lane := by
  have hl := h.lane lane
  have ht := h.team
  obtain ⟨hgix, hcore⟩ : t.cur.gix = s.cur.gix ∧ t.cur.core = s.cur.core := by obtain ⟨⟨_, _, _, _, e⟩, -⟩ := h; rw [e]; exact ⟨rfl, rfl⟩
  simp only [State.roSpecial, hl, ht, hgix, hcore]

theorem operand (pairs : Bool) (src lane k code : Nat) : t.operand pairs src lane k code = s.operand pairs src lane k code := by
  simp only [State.operand, h.vreg, h.sreg, h.latch, h.popValue, h.roSpecial]

theorem source (lane : Nat) (before : List Nat) (src : Nat) (x : Src) : t.source lane before src x = s.source lane before src x := by
  simp only [State.source, h.operand, h.vreg, h.sreg, h.pred]

theorem sources (lane i : Nat) (before : List Nat) (xs : List Src) : t.sources lane i before xs = s.sources lane i before xs := by
  induction xs generalizing i before with
  | nil => rfl
  | cons x rest ih => rw [State.sources, State.sources, h.source, ih]

theorem losesLatch (codes : List Nat) : t.cur.losesLatch codes = s.cur.losesLatch codes := by
  obtain ⟨⟨_, _, _, _, e⟩, -⟩ := h
  rw [e]; rfl

end SameReads

/-! ### Ports -/

/-- Two groups hold the same place and the same threads. -/
def Group.SamePlace (x y : Group) : Prop :=
  y.id = x.id ∧ y.team = x.team ∧ y.live = x.live ∧ y.gix = x.gix ∧ y.threads = x.threads

theorem Group.SamePlace.refl (x : Group) : x.SamePlace x := ⟨rfl, rfl, rfl, rfl, rfl⟩

theorem forall₂_filter {α : Type} {R : α → α → Prop} {p : α → Bool} (hp : ∀ x y, R x y → p x = p y) {xs ys : List α}
    (h : List.Forall₂ R xs ys) : List.Forall₂ R (xs.filter p) (ys.filter p) := by
  induction h with
  | nil => exact .nil
  | cons a _ ih =>
    rw [List.filter_cons, List.filter_cons, hp _ _ a]
    split
    · exact .cons a ih
    · exact ih

theorem forall₂_insertByGix {x y : Group} (h : x.SamePlace y) {xs ys : List Group} (k : List.Forall₂ Group.SamePlace xs ys) :
    List.Forall₂ Group.SamePlace (insertByGix x xs) (insertByGix y ys) := by
  induction k with
  | nil => exact .cons h .nil
  | cons a rest ih =>
    rw [insertByGix, insertByGix, h.2.2.2.1, a.2.2.2.1]
    split
    · exact .cons h (.cons a rest)
    · exact .cons a ih

/-- The live groups of a team stand in the same order where their places are the same. -/
theorem teamGroups_congr {s t : State} (h : List.Forall₂ Group.SamePlace s.groups t.groups) (team : Nat) :
    List.Forall₂ Group.SamePlace (s.teamGroups team) (t.teamGroups team) := by
  have mine := forall₂_filter (p := fun g => g.team == team && g.live) (fun x y e => by rw [e.2.1, e.2.2.1]) h
  unfold State.teamGroups
  generalize s.groups.filter _ = xs, t.groups.filter _ = ys at mine
  induction mine with
  | nil => exact .nil
  | cons a _ ih => exact forall₂_insertByGix a ih

theorem seat_congr {s t : State} (h : List.Forall₂ Group.SamePlace s.groups t.groups) (team : Nat) (p : Thread → Bool) :
    t.seat team p = s.seat team p := by
  have gs := teamGroups_congr h team
  unfold State.seat
  generalize s.teamGroups team = xs, t.teamGroups team = ys at gs
  induction gs with
  | nil => rfl
  | cons a _ ih => rw [List.findSome?_cons, List.findSome?_cons, ih, a.1, a.2.2.2.2]

/-- A port leads to the same thread where the teams, the launches and the places of the groups are the same. -/
theorem link_congr {s t : State} (h : SameReads s t) (hg : List.Forall₂ Group.SamePlace s.groups t.groups) (lane port : Nat) :
    t.link lane port = s.link lane port := by
  have hteam := h.team
  have hlane := h.lane
  obtain ⟨-, -, -, ht, hl⟩ := h
  have hcohort (x : Team) : t.cohort x = s.cohort x := by rw [State.cohort, ht, State.cohort]
  have hz (x : Team) : t.zPeer x = s.zPeer x := by simp only [State.zPeer, State.launch?, hl, hcohort]
  simp only [State.link, hteam, hlane, seat_congr hg, State.yNeighbour, State.zNeighbour, State.launch?, hl, hcohort, hz]

theorem samePlace_groups {s t : State} (hc : s.cur.SamePlace t.cur) (ho : List.Forall₂ Group.SamePlace s.others t.others) :
    List.Forall₂ Group.SamePlace s.groups t.groups := by
  unfold State.groups
  rw [hc.1]
  split
  · exact ho
  · exact .cons hc ho

theorem link_endRegion (s : State) (lane port : Nat) : s.endRegion.link lane port = s.link lane port := by
  refine link_congr (sameReads_endRegion s) ?_ lane port
  obtain ⟨buf, entries, h⟩ := endRegion_spec s
  rw [h]
  exact samePlace_groups (.refl s.cur) (List.forall₂_same.mpr fun x _ => .refl x)

end Sys2Proof.Machine
end

section
/-! PROOF. The end of an instruction, and a cell of fixed latency in its per-thread form: the state that it leaves, field by field (R57, R60,
R62, R63, R104, R129, R156). -/

namespace Sys2Proof.Machine

/-! ### The end of an instruction -/

/-- A thread whose latches have moved. -/
def Thread.shifted (t : Thread) (x : DWord) : Thread := { t with b3 := t.b2, b2 := t.b1, b1 := t.b0, b0 := x }

theorem keepsQueues_refl (t : Thread) : Spec.KeepsQueues t t := ⟨rfl, fun _ h => h, fun _ h => h⟩

theorem keepsQueues_shifted {x y : Thread} (h : Spec.KeepsQueues x y) (v : DWord) : Spec.KeepsQueues x (y.shifted v) := by
  obtain ⟨e, hs, hp⟩ := h
  refine ⟨?_, hs, hp⟩
  rw [e]
  rfl

theorem lane_finishAt (s : State) (pc : DWord) (b0 : Nat → DWord) (l : Nat) (hl : l < s.cur.threads.length) :
    (s.finishAt pc b0).cur.lane l = (s.cur.lane l).shifted (b0 l) :=
  lane_mapIdx (g := s.cur) (f := fun l t => t.shifted (b0 l)) rfl l hl

theorem barsNow_all {s t : State} (h : t.team = s.team) : t.barsNow (BitVec.allOnes 6) = Spec.barPhases s := by
  have all : ((List.range 6).filter fun k => (BitVec.allOnes 6).getLsbD k) = List.range 6 := by decide
  rw [State.barsNow, all, h, Spec.barPhases]

theorem latches_shift (g : Group) (v : Nat → DWord) : (g.shift v).latches = Nat.min (g.latches + 1) 4 := by
  have : (if g.latches < 4 then g.latches + 1 else 4) = Nat.min (g.latches + 1) 4 := by
    simp only [Nat.min_def]
    split <;> split <;> omega
  exact this

/-- What the end of an instruction looks at is as it was when the instruction began. -/
structure AtEnd (s t : State) : Prop where
  issue : t.issue = s.issue
  draws : t.draws = s.draws
  team : t.team = s.team
  gcyc : t.cur.gcyc = s.cur.gcyc
  latches : t.cur.latches = s.cur.latches
  length : t.cur.threads.length = s.cur.threads.length
  lanes : ∀ l < s.cur.threads.length, (t.cur.lane l).b0 = (s.cur.lane l).b0 ∧ (t.cur.lane l).b1 = (s.cur.lane l).b1
    ∧ (t.cur.lane l).b2 = (s.cur.lane l).b2

theorem AtEnd.goesOn {s t : State} (h : AtEnd s t) (pc : DWord) (b0 : Nat → DWord) : Spec.GoesOn s (t.finishAt pc b0).cur pc b0 := by
  refine ⟨⟨rfl, rfl, rfl, rfl, barsNow_all h.team, ?_, h.draws, ?_, fun l hl => ?_⟩, rfl, ?_⟩
  · rw [← h.gcyc, ← h.issue]; rfl
  · simpa using h.length
  · obtain ⟨h0, h1, h2⟩ := h.lanes l hl
    rw [lane_finishAt _ _ _ _ (h.length ▸ hl)]
    exact ⟨rfl, h0, h1, h2⟩
  · rw [← h.latches]
    exact latches_shift t.cur b0

theorem goesOn_congr {s : State} {g : Group} {pc : DWord} {b c : Nat → DWord} (h : Spec.GoesOn s g pc b)
    (e : ∀ l < s.cur.threads.length, b l = c l) : Spec.GoesOn s g pc c := by
  obtain ⟨⟨hpc, hwait, hcame, hstalled, hbar, hcyc, hlast, hlen, hlanes⟩, hlatched⟩ := h
  exact ⟨⟨hpc, hwait, hcame, hstalled, hbar, hcyc, hlast, hlen, fun l hl => e l hl ▸ hlanes l hl⟩, hlatched⟩

/-- The run of the pipe goes on or begins (R410). -/
theorem pipesAfter_eq {s t : State} (hi : t.issue = s.issue) (hp : t.pipes = s.pipes) (hk : t.cur.pipeKey = s.cur.pipeKey)
    (hid : t.cur.id = s.cur.id) : t.pipesAfter = Spec.issuedPipes s := by
  unfold State.pipesAfter Spec.issuedPipes State.holder
  rw [hi, hp, hk, hid]

/-! ### Flags and latches -/

theorem raiseAfter_eq (g : Group) (f : FpFlags) {lat : Nat} (hlat : lat ≠ 0) :
    g.raiseAfter f lat = { g with flags := g.flags ++ if f = 0 then [] else [⟨f, lat⟩] } := by
  unfold Group.raiseAfter
  by_cases h : f = 0
  · rw [if_pos h, if_pos h, List.append_nil]
  · rw [if_neg h, if_neg hlat, if_neg h]

/-- A lost latch is noted in gstat, and in what an `SREAD` too close still reads there (R63). -/
theorem noteLatches_eq (s : State) (m : LaneMask) (codes : List Nat) (g : Group) :
    s.noteLatches m codes g =
      { g with gstat := if m ≠ 0 ∧ s.cur.losesLatch codes = true then g.gstat ||| 1 else g.gstat,
               hazards := Spec.afterLoss (decide (m ≠ 0 ∧ s.cur.losesLatch codes = true)) g.hazards } := by
  have cond : (m != 0 && s.cur.losesLatch codes) = decide (m ≠ 0 ∧ s.cur.losesLatch codes = true) := by
    rw [Bool.eq_iff_iff]; simp
  unfold State.noteLatches
  rw [cond]
  by_cases h : m ≠ 0 ∧ s.cur.losesLatch codes = true
  · rw [decide_eq_true h, if_pos rfl, if_pos h]
    rfl
  · rw [decide_eq_false h, if_neg (by decide), if_neg h]
    rfl

/-- No value before the write of a result is of gstat. -/
theorem afterLoss_pending (lost : Bool) (s : State) (dst : DstCls) (d lat : Nat) (m : LaneMask) (hs : List Hazard) :
    Spec.afterLoss lost (Spec.pending s dst d lat m ++ hs) = Spec.pending s dst d lat m ++ Spec.afterLoss lost hs := by
  cases lost with
  | false => rfl
  | true =>
    have keep : ∀ h ∈ Spec.pending s dst d lat m, h.target ≠ .special 5 := by
      unfold Spec.pending
      dsimp only
      split
      · simp [Spec.before]
      · split
        · split <;> simp [Spec.before]
        · simp
    have same : Spec.afterLoss true (Spec.pending s dst d lat m) = Spec.pending s dst d lat m := by
      rw [Spec.afterLoss, if_pos rfl]
      exact (List.map_congr_left fun h hh => if_neg (keep h hh)).trans (List.map_id' _)
    simp only [Spec.afterLoss, if_true, List.map_append] at same ⊢
    rw [same]

/-! ### The per-thread form of a cell -/

/-- What a per-thread computation in state `s` leaves, where the ports of its operands have made `t` of it: the effect of R57, R60, R62,
R104 and R129, with the queues as they are in `t`. -/
structure Computed (s t u : State) (dst : DstCls) (d lat : Nat) (m : LaneMask) (codes : List Nat) (val : Nat → DWord × FpFlags) :
    Prop where
  rest : u = { t with cur := u.cur, pipes := Spec.issuedPipes s }
  group : Spec.OnlyRegisters s.cur u.cur
  goesOn : Spec.GoesOn s u.cur s.nextPc fun l => if m.getLsbD l then Spec.latched dst (val l).1 else 0
  written : Spec.LanesWritten s u dst d m fun l => (val l).1
  lanes : ∀ l < s.cur.threads.length, Spec.KeepsQueues (t.cur.lane l) (u.cur.lane l)
  sregs : u.cur.sregs = s.cur.sregs
  hregs : u.cur.hregs = s.cur.hregs
  hazards : u.cur.hazards =
    Spec.pending s dst d lat m ++ Spec.afterLoss (decide (m ≠ 0 ∧ s.cur.losesLatch codes = true)) s.cur.hazards
  flags : u.cur.flags = s.cur.flags ++ Spec.raised s m lat fun l => (val l).2
  gstat : u.cur.gstat = if m ≠ 0 ∧ s.cur.losesLatch codes = true then s.cur.gstat ||| 1 else s.cur.gstat

theorem Computed.threadEffect {s u : State} {dst : DstCls} {d lat : Nat} {m : LaneMask} {codes : List Nat}
    {val : Nat → DWord × FpFlags} (h : Computed s s u dst d lat m codes val) : Spec.ThreadEffect s u dst d lat m codes val :=
  ⟨h.rest, h.group, h.goesOn, h.written, h.lanes, h.sregs, h.hregs, h.hazards, h.flags, h.gstat⟩

/-- The result of a lane, as it enters b0. -/
theorem Cell.result_lane (c : Cell) (s : State) (l : Nat) (hd : c.dcls ≠ .pred → isS c.d = false) :
    c.result s l = (Spec.latched c.dcls (c.f s.rmSeen (s.sources l 0 [] c.srcs)).1, (c.f s.rmSeen (s.sources l 0 [] c.srcs)).2) := by
  unfold Cell.result
  cases hc : c.dcls with
  | w e =>
    have : isS c.d = false := hd (by simp [hc])
    simp [this, Spec.latched, zext64_low32]
  | v => simp [Spec.latched, zext64_low32]
  | pair => rfl
  | pred => rfl

/-- The group once the results of the lanes are written, before the instruction ends. -/
def Cell.groupAfter (c : Cell) (s : State) (m : LaneMask) (val : Nat → DWord × FpFlags) (g : Group) : Group :=
  { g with
    threads := g.threads.mapIdx fun l t =>
      if l ∈ s.lanesOf m then t.withResult c.dcls s.cur.wb c.d (Spec.latched c.dcls (val l).1) else t,
    hazards := Spec.pending s c.dcls c.d c.lat m
      ++ Spec.afterLoss (decide (m ≠ 0 ∧ s.cur.losesLatch c.codes = true)) g.hazards,
    flags := g.flags ++ Spec.raised s m c.lat fun l => (val l).2,
    gstat := if m ≠ 0 ∧ s.cur.losesLatch c.codes = true then g.gstat ||| 1 else g.gstat }

section
variable {c : Cell} {s t : State} {m : LaneMask} {val : Nat → DWord × FpFlags} (hm : LaneMask.within m s) (h : QueuesOnly s t)
  (hlat : c.lat ≠ 0) (hd : c.dcls ≠ .pred → isS c.d = false)

include hm h hlat hd in
theorem Cell.write_groupAfter :
    s.noteLatches m c.codes ((c.write s ((s.lanesOf m).map fun l => (l, Spec.latched c.dcls (val l).1)) t.cur).raiseAfter
        ((s.lanesOf m).foldl (fun (f : FpFlags) l => f ||| (val l).2) 0) c.lat)
      = c.groupAfter s m val t.cur := by
  rw [noteLatches_eq, raiseAfter_eq _ _ hlat, Cell.write_lanes hm h.sameRegisters hlat _ hd]
  simp only [afterLoss_pending]
  rfl

/-- The instruction's end after the results. -/
def Cell.stateAfter (c : Cell) (s t : State) (m : LaneMask) (val : Nat → DWord × FpFlags) : State :=
  (t.modCur (c.groupAfter s m val)).finishLanes
    (laneVal ((s.lanesOf m).map fun l => (l, Spec.latched c.dcls (val l).1)))

include h in
theorem Cell.lane_stateAfter (l : Nat) (hl : l < s.cur.threads.length) :
    (c.stateAfter s t m val).cur.lane l =
      (if m.getLsbD l then (t.cur.lane l).withResult c.dcls s.cur.wb c.d (Spec.latched c.dcls (val l).1) else t.cur.lane l).shifted
        (if m.getLsbD l then Spec.latched c.dcls (val l).1 else 0) := by
  have hl' : l < t.cur.threads.length := h.length.symm ▸ hl
  rw [Cell.stateAfter, State.finishLanes, lane_finishAt _ _ _ _ (by simpa [Cell.groupAfter] using hl'), laneVal_lanesOf _ _ _ _ hl]
  rw [lane_mapIdx (g := t.cur) (h := (t.modCur (c.groupAfter s m val)).cur) rfl l hl']
  simp only [mem_lanesOf, hl, true_and]

include h in
theorem Cell.atEnd_groupAfter : AtEnd s (t.modCur (c.groupAfter s m val)) := by
  refine ⟨h.issue, h.draws, h.team, h.gcyc, h.latches, ?_, fun l hl => ?_⟩
  · simpa [Cell.groupAfter] using h.length
  · rw [lane_mapIdx (g := t.cur) (h := (t.modCur (c.groupAfter s m val)).cur) rfl l (h.length.symm ▸ hl)]
    obtain ⟨h0, h1, h2⟩ := (h.lane l).latches
    split
    · obtain ⟨k0, k1, k2⟩ := latches_withResult (t.cur.lane l) c.dcls s.cur.wb c.d (Spec.latched c.dcls (val l).1)
      exact ⟨k0.trans h0, k1.trans h1, k2.trans h2⟩
    · exact ⟨h0, h1, h2⟩

/-- The group at the end: what the results leave, then what every instruction's end does. -/
theorem Cell.cur_stateAfter : ∃ pc threads latches bars,
    (c.stateAfter s t m val).cur = { t.cur with
      pc := pc, threads := threads, gcyc := t.cur.gcyc + BitVec.ofNat 64 t.issue.beats, lastIssue := t.draws, latches := latches,
      switch := false, came := false, stalled := 0, wait := .none, barWait := bars,
      hazards := Spec.pending s c.dcls c.d c.lat m
        ++ Spec.afterLoss (decide (m ≠ 0 ∧ s.cur.losesLatch c.codes = true)) t.cur.hazards,
      flags := t.cur.flags ++ Spec.raised s m c.lat fun l => (val l).2,
      gstat := if m ≠ 0 ∧ s.cur.losesLatch c.codes = true then t.cur.gstat ||| 1 else t.cur.gstat } := by
  rw [Cell.stateAfter, State.finishLanes, finishAt_spec, Group.shift, modCur_cur, Cell.groupAfter]
  exact ⟨_, _, _, _, rfl⟩

include h in
/-- A cell of fixed latency leaves what R57 to R62 and R129 give its results. -/
theorem Cell.stateAfter_computed : Computed s t (c.stateAfter s t m val) c.dcls c.d c.lat m c.codes val := by
  have lane := fun l hl => Cell.lane_stateAfter (c := c) (m := m) (val := val) h l hl
  obtain ⟨_, _, _, _, cur⟩ := Cell.cur_stateAfter (c := c) (s := s) (t := t) (m := m) (val := val)
  have pc : (t.modCur (c.groupAfter s m val)).nextPc = s.nextPc := by
    simp only [State.nextPc, modCur_cur, modCur_issue, Cell.groupAfter, h.pc, h.issue]
  constructor
  case rest =>
    have pipes : (t.modCur (c.groupAfter s m val)).pipesAfter = Spec.issuedPipes s :=
      pipesAfter_eq h.issue h.pipes h.pipeKey h.id
    rw [← pipes]
    rfl
  case group =>
    generalize (c.stateAfter s t m val).cur = g at cur
    rw [h.1] at cur
    rw [cur]
    exact ⟨rfl, fun _ hx => hx⟩
  case goesOn =>
    rw [Cell.stateAfter, State.finishLanes, pc]
    exact goesOn_congr ((Cell.atEnd_groupAfter h).goesOn _ _) fun l hl => laneVal_lanesOf s m _ l hl
  case written =>
    intro l hl
    have same := h.lane l
    unfold Thread.SameButQueues at same
    rw [lane l hl]
    have stack : (t.cur.lane l).stack = (s.cur.lane l).stack := by rw [same]
    have pred : (t.cur.lane l).pred = (s.cur.lane l).pred := by rw [same]
    cases m.getLsbD l
    · exact ⟨fun i => by rw [← stack]; rfl, fun i _ => by simp [Thread.shifted, pred]⟩
    · simp only [if_true, Thread.shifted, true_and]
      exact ⟨fun i => by rw [sget_withResult, stack], fun i hi => by rw [pred_withResult _ _ _ _ _ _ hi, pred]⟩
  case lanes =>
    intro l hl
    rw [lane l hl]
    refine keepsQueues_shifted ?_ _
    split
    · exact keepsQueues_withResult ..
    · exact keepsQueues_refl _
  case sregs => rw [cur]; exact h.sregs
  case hregs => rw [cur]; exact h.hregs
  case hazards => rw [cur, ← h.hazards]
  case flags => rw [cur, ← h.flags]
  case gstat => rw [cur, ← h.gstat]

end

end Sys2Proof.Machine
end

section
/-! PROOF. A cell as it runs past its checks: the per-thread form with and without rill ports, and the uniform form (R58, R62, R103, R106,
R217, R220). -/

namespace Sys2Proof.Machine

/-! ### Checks that pass -/

theorem sound_of (s : State) {lanes : List Nat} {srcs : List Src} (h : Spec.Sound s lanes srcs) (f : State → State) :
    s.sound lanes srcs f = f s := by
  have : lanes.any (fun l => s.cur.badSources l [] srcs) = false := List.any_eq_false.mpr fun l hl => by simp [h l hl]
  simp [State.sound, this]

/-- A per-thread destination is no s-register. -/
theorem isS_of_threadDst {dst : DstCls} {d : Nat} (h : dst.ok false d = true) : isS d = false := by
  simp only [isS, Bool.and_eq_false_iff, decide_eq_false_iff_not]
  cases dst <;> simp [DstCls.ok, isV, isPort, codeNul] at h <;> omega

theorem isPort_false_of_isS {d : Nat} (h : isS d = true) : isPort d = false := by
  simp only [isS, isPort, Bool.and_eq_true, decide_eq_true_eq, Bool.and_eq_false_iff, decide_eq_false_iff_not] at *
  omega

theorem isS_false_of_isPort {d : Nat} (h : isPort d = true) : isS d = false := by
  simp only [isS, isPort, Bool.and_eq_true, decide_eq_true_eq, Bool.and_eq_false_iff, decide_eq_false_iff_not] at *
  omega

theorem isS_false_of_isV {d : Nat} (h : isV d = true) : isS d = false := by
  simp only [isS, isV, decide_eq_true_eq, Bool.and_eq_false_iff, decide_eq_false_iff_not] at *
  omega

theorem port_lt {d : Nat} (h : isPort d = true) : d - 100 < 6 := by
  simp only [isPort, Bool.and_eq_true, decide_eq_true_eq] at h
  omega

theorem popsOf_lt (srcs : List Src) : ∀ p ∈ popsOf srcs, p < 6 := by
  intro p hp
  obtain ⟨x, hx, rfl⟩ := List.mem_map.mp hp
  exact port_lt (Bool.and_eq_true_iff.mp (List.mem_filter.mp hx).2).2

/-! ### The queues that a cell moves -/

/-- The state once the ports of a cell have been popped and pushed. -/
def Cell.queued (c : Cell) (s : State) (entry : Nat → RillEntry) : State :=
  match c.push with
  | some p => (s.takePops (c.mask s) c.pops).reserveAll s (c.mask s) p entry
  | none => s.takePops (c.mask s) c.pops

theorem Cell.queued_queuesOnly (c : Cell) (s : State) (entry : Nat → RillEntry) : QueuesOnly s (c.queued s entry) := by
  unfold Cell.queued
  split
  · exact (takePops_queuesOnly ..).trans (reserveAll_queuesOnly ..)
  · exact takePops_queuesOnly ..

theorem Cell.queued_noPorts {c : Cell} (hp : c.pops = []) (hq : c.push = none) (s : State) (entry : Nat → RillEntry) :
    c.queued s entry = s := by
  rw [Cell.queued, hp, hq]
  exact takePops_nil ..

theorem Cell.push_lt {c : Cell} {p : Nat} (h : c.push = some p) : p < 6 := by
  unfold Cell.push at h
  split at h
  · split at h
    · obtain rfl := Option.some.inj h
      exact port_lt ‹_›
    · cases h
  · cases h

theorem arrivals_congr {s : State} {m : LaneMask} {push : Option Nat} {seat : Seat} {q : Nat} {e f : Nat → RillEntry}
    (h : ∀ l ∈ s.lanesOf m, e l = f l) : Spec.arrivals s m push seat q e = Spec.arrivals s m push seat q f := by
  unfold Spec.arrivals
  split
  · rfl
  · exact List.filterMap_congr fun l hl => by rw [h l hl]

/-- The queues after the pops and pushes of a cell (R217). -/
theorem Cell.queueAt_queued (c : Cell) {s : State} (h0 : s.cur.id ≠ 0) {g l q : Nat} (hs : s.Seated (g, l)) (hq : q < 6)
    (entry : Nat → RillEntry) :
    (c.queued s entry).queueAt (g, l) q =
      (if g = s.cur.id ∧ (c.mask s).getLsbD l = true then (s.queueAt (g, l) q).drop (popCountOf c.pops q) else s.queueAt (g, l) q)
        ++ Spec.arrivals s (c.mask s) c.push (g, l) q entry := by
  have pops := queueAt_takePops h0 hs (c.mask s) (popsOf_lt c.srcs) hq
  unfold Cell.queued
  cases hp : c.push with
  | none => exact pops.trans (List.append_nil _).symm
  | some p => exact (queueAt_reserveAll (seated_takePops h0 hs ..) s (Cell.push_lt hp) hq ..).trans (congrArg (· ++ _) pops)

theorem Cell.seated_queued (c : Cell) {s : State} (h0 : s.cur.id ≠ 0) {g l : Nat} (hs : s.Seated (g, l)) (entry : Nat → RillEntry) :
    (c.queued s entry).Seated (g, l) := by
  have pops := seated_takePops h0 hs (c.mask s) c.pops
  unfold Cell.queued
  split
  · exact seated_foldl_reserve pops ..
  · exact pops

/-! ### The per-thread form past its checks -/

/-- What a cell computes in a lane. -/
def Cell.val (c : Cell) (s : State) (l : Nat) : DWord × FpFlags := c.f s.rmSeen (s.sources l 0 [] c.srcs)

/-- The entry that a lane pushes: the low word of its result. -/
def Cell.pushed (c : Cell) (s : State) (l : Nat) : RillEntry := .ready (low32 (laneVal ((c.results s).map fun e => (e.1, e.2.1)) l))

theorem Cell.mask_within (c : Cell) (s : State) : LaneMask.within (c.mask s) s := by
  intro l hl
  unfold Cell.mask at hl
  split at hl
  · exact em_within s l hl
  · split at hl
    · exact em_within s l (by simpa using (Bool.and_eq_true_iff.mp (BitVec.getLsbD_and ▸ hl)).1)
    · simp at hl

theorem Cell.runFixed_queued {c : Cell} {s : State} (hu : c.isUniform s = false) :
    c.runFixed s = ((c.queued s (c.pushed s)).modCur fun g => s.noteLatches (c.mask s) c.codes
      ((c.write s ((c.results s).map fun e => (e.1, e.2.1)) g).raiseAfter
        ((c.results s).foldl (fun (f : FpFlags) e => f ||| e.2.2) 0) c.lat)).finishLanes
      (laneVal ((c.results s).map fun e => (e.1, e.2.1))) := by
  rw [Cell.runFixed, hu, if_neg (by decide)]
  rfl

section
variable {c : Cell} {s : State} (hd : c.dcls ≠ .pred → isS c.d = false)
include hd

theorem Cell.results_eq : c.results s = (s.lanesOf (c.mask s)).map fun l => (l, (Spec.latched c.dcls (c.val s l).1, (c.val s l).2)) :=
  List.map_congr_left fun l _ => by rw [Cell.result_lane c s l hd]; rfl

theorem Cell.values_eq :
    ((c.results s).map fun e => (e.1, e.2.1)) = (s.lanesOf (c.mask s)).map fun l => (l, Spec.latched c.dcls (c.val s l).1) := by
  rw [Cell.results_eq hd, List.map_map]
  rfl

/-- A cell of fixed latency writes the results of its lanes. -/
theorem Cell.runFixed_lanes (hu : c.isUniform s = false) (hlat : c.lat ≠ 0) :
    c.runFixed s = c.stateAfter s (c.queued s (c.pushed s)) (c.mask s) (c.val s) := by
  have flags : (c.results s).foldl (fun (f : FpFlags) e => f ||| e.2.2) 0
      = (s.lanesOf (c.mask s)).foldl (fun (f : FpFlags) l => f ||| (c.val s l).2) 0 := by
    rw [Cell.results_eq hd, List.foldl_map]
  rw [Cell.runFixed_queued hu, flags, Cell.values_eq hd, Cell.stateAfter, State.modCur, State.modCur,
    Cell.write_groupAfter (c.mask_within s) (c.queued_queuesOnly s (c.pushed s)) hlat hd]

end

end Sys2Proof.Machine
end

section
/-! PROOF. The rows of the tables of statements that a cell computes: its three forms and the traps of its fields, for every cell whose kind
follows its destination (R58, R103, R106, R217, R220, R364, R424). -/

namespace Sys2Proof.Machine

/-! ### Cells and rows -/

/-- The instruction of a row with given fields runs the cell, which computes the row's value over the row's sources. -/
structure Cell.Runs (c : Cell) (i : Instr) (r : Spec.Row) (d a b : Code) : Prop where
  exec : ∀ s, Machine.exec i s = .next (c.exec s)
  kind : c.kind = .byDest
  code : c.d = d.toNat
  dst : c.dcls = r.dst
  srcs : c.srcs = r.srcs d a b
  lat : c.lat = r.lat
  value : c.f = r.value
  extra : ∀ k, c.extra k = false
  only : c.only = none

section
variable {c : Cell} {i : Instr} {r : Spec.Row} {d a b : Code} (h : c.Runs i r d a b)
include h

theorem Cell.Runs.mask (s : State) : c.mask s = s.em := by rw [Cell.mask, h.only]

theorem Cell.Runs.val (s : State) : c.val s = r.val d a b s := by
  funext l
  rw [Cell.val, h.value, h.srcs, Spec.Row.val]

theorem Cell.Runs.isUniform (s : State) : c.isUniform s = (isS d.toNat || s.u) := by
  rw [Cell.isUniform, h.kind, h.code]
  rfl

theorem Cell.Runs.pops : c.pops = popsOf (r.srcs d a b) := by rw [Cell.pops, h.srcs]

theorem Cell.Runs.codes : c.codes = Spec.general (r.srcs d a b) := by rw [Cell.codes, h.srcs, Spec.general]

theorem Cell.Runs.push : c.push = Spec.pushOf r.dst d.toNat := by
  cases hd : r.dst <;> simp only [Cell.push, Spec.pushOf, h.dst, h.code, hd]

theorem Cell.Runs.threadDst (hd : r.dst.ok false d.toNat = true) : isS c.d = false := by
  rw [h.code]
  exact isS_of_threadDst hd

/-- The checks of a per-thread form pass (R58, R78). -/
theorem Cell.Runs.cause_thread {s : State} (hu : s.u = false) (hd : r.dst.ok false d.toNat = true)
    (hs : (r.srcs d a b).all (Src.ok false) = true) : c.cause s = none := by
  have hS := isS_of_threadDst hd
  have kind : Kind.byDest.uOk false d.toNat = true := by
    unfold Kind.uOk
    rw [hS]
    cases isV d.toNat || isPort d.toNat <;> rfl
  rw [Cell.cause, h.isUniform, h.kind, h.code, h.dst, h.srcs, hu, hS, kind, Bool.false_or, hd, hs]
  rfl

/-- The checks of a uniform form pass. -/
theorem Cell.Runs.cause_uniform {s : State} (hu : s.u = true) (hd : r.dst.ok true d.toNat = true)
    (hp : r.dst ≠ .pred) (hs : (r.srcs d a b).all (Src.ok true) = true) : c.cause s = none := by
  have kind : Kind.byDest.uOk true d.toNat = true := by
    unfold Kind.uOk
    cases hS : isS d.toNat
    · have nul : d.toNat = codeNul := by
        cases hc : r.dst with
        | w ext => simpa [hc, DstCls.ok, hS] using hd
        | v => simp [hc, DstCls.ok] at hd
        | pair => simp [hc, DstCls.ok, hS] at hd
        | pred => exact absurd hc hp
      rw [nul]
      rfl
    · rfl
  rw [Cell.cause, h.isUniform, h.kind, h.code, h.dst, h.srcs, hu, kind, Bool.or_true, hd, hs]
  rfl

theorem Cell.Runs.exec_thread {s : State} (hu : s.u = false) (hd : r.dst.ok false d.toNat = true)
    (hs : (r.srcs d a b).all (Src.ok false) = true) (hok : Spec.Sound s (s.lanesOf s.em) (r.srcs d a b)) :
    c.exec s = c.proceed s := by
  have readers : c.readers s = s.lanesOf s.em := by
    rw [Cell.readers, h.isUniform, hu, isS_of_threadDst hd, h.mask]
    rfl
  rw [Cell.exec, h.cause_thread hu hd hs, readers, h.srcs]
  exact sound_of s hok _

theorem Cell.Runs.exec_uniform {s : State} (hu : s.u = true) (hd : r.dst.ok true d.toNat = true) (hp : r.dst ≠ .pred)
    (hs : (r.srcs d a b).all (Src.ok true) = true) (hok : Spec.Sound s [0] (r.srcs d a b)) : c.exec s = c.proceed s := by
  have readers : c.readers s = [0] := by rw [Cell.readers, h.isUniform, hu, Bool.or_true, if_pos rfl]
  rw [Cell.exec, h.cause_uniform hu hd hp hs, readers, h.srcs]
  exact sound_of s hok _

end

/-! ### The per-thread form (R57, R106) -/

theorem pushOf_none {dst : DstCls} {d : Nat} (h : isPort d = false) : Spec.pushOf dst d = none := by
  unfold Spec.pushOf
  split <;> simp [h]

theorem Cell.Runs.threadForm {c : Cell} {i : Instr} {r : Spec.Row} {d a b : Code} (h : c.Runs i r d a b) (hl : c.long = false)
    (hlat : r.lat ≠ 0) : Spec.threadForm i (r.srcs d a b) r.dst d.toNat r.lat (r.val d a b) := by
  intro s hu hd hport hs hpops hok
  have hS : c.dcls ≠ .pred → isS c.d = false := fun _ => h.threadDst hd
  have pops : c.pops = [] := h.pops.trans hpops
  have push : c.push = none := h.push.trans (pushOf_none hport)
  refine ⟨_, h.exec s, ?_⟩
  have hu' : c.isUniform s = false := by rw [h.isUniform, hu, isS_of_threadDst hd]; rfl
  rw [h.exec_thread hu hd hs hok, Cell.proceed_plain c s hl (by simp [pops]) (by simp [push]),
    Cell.runFixed_lanes hS hu' (h.lat ▸ hlat), Cell.queued_noPorts pops push]
  have done := Cell.stateAfter_computed (c := c) (m := c.mask s) (val := c.val s) (QueuesOnly.refl s)
  rw [h.dst, h.code, h.lat, h.codes] at done
  rw [h.mask, h.val] at done ⊢
  exact done.threadEffect

/-! ### The form with rill ports (R217, R220) -/

/-- No port blocks and no translation is outstanding: the region ends, and the rest runs. -/
theorem throughPorts_of {s : State} {m : LaneMask} {pops : List Nat} {push : Option Nat} (hw : s.cur.walking = false)
    (hb : s.rillBlocked m pops push = none) (f : State → State) : s.throughPorts m pops push f = f s.endRegion := by
  rw [State.throughPorts, hb]
  dsimp only
  rw [State.regionEnder, hw]
  rfl

section
variable {s t : State} (h : SameReads s t)
include h

theorem SameReads.barPhases : Spec.barPhases t = Spec.barPhases s := by rw [Spec.barPhases, h.team, Spec.barPhases]

theorem SameReads.nextPc : t.nextPc = s.nextPc := by rw [State.nextPc, h.pc, h.2.1, State.nextPc]

/-- The end of an instruction, seen from the state before its region ended. -/
theorem SameReads.goesOn {g : Group} {pc : DWord} {b0 : Nat → DWord} (hg : Spec.GoesOn t g pc b0) : Spec.GoesOn s g pc b0 := by
  have phases := h.barPhases
  obtain ⟨⟨_, _, _, _, cur⟩, issue, draws, -⟩ := h
  unfold Spec.GoesOn Spec.MovedOn Spec.Latched at *
  rw [cur, issue, draws, phases] at hg
  exact hg

theorem SameReads.lanesWritten {u : State} {dst : DstCls} {d : Nat} {m : LaneMask} {val : Nat → DWord}
    (hw : Spec.LanesWritten t u dst d m val) : Spec.LanesWritten s u dst d m val := by
  obtain ⟨⟨_, _, _, _, cur⟩, -⟩ := h
  unfold Spec.LanesWritten at *
  rw [cur] at hw
  exact hw

theorem SameReads.rowVal (r : Spec.Row) (d a b : Code) : r.val d a b t = r.val d a b s := by
  funext l
  rw [Spec.Row.val, h.rmSeen, h.sources, Spec.Row.val]

end

theorem mem_of_queuesOnly_endRegion {s t : State} (h : QueuesOnly s.endRegion t) : t.mem = s.mem ∧ t.teams = s.teams ∧ t.launches = s.launches :=
  ⟨h.mem.trans (mem_endRegion s), h.teams.trans (sameReads_endRegion s).2.2.2.1, h.launches.trans (sameReads_endRegion s).2.2.2.2⟩

theorem seated_endRegion {s : State} {seat : Seat} (hs : s.Seated seat) : s.endRegion.Seated seat := by
  obtain ⟨buf, entries, h⟩ := endRegion_spec s
  obtain ⟨x, hx, hl⟩ := hs
  rw [h]
  unfold State.Seated State.group? State.groups at *
  dsimp only
  by_cases h0 : s.cur.id = 0
  · simp only [h0, if_true] at hx ⊢
    exact ⟨x, hx, hl⟩
  · simp only [h0, if_false, List.cons_append, List.nil_append, List.find?_cons] at hx ⊢
    split at hx
    · obtain rfl := Option.some.inj hx
      exact ⟨_, rfl, hl⟩
    · exact ⟨x, hx, hl⟩

theorem queueAt_endRegion {s : State} {g l : Nat} (hs : s.Seated (g, l)) (q : Nat) : s.endRegion.queueAt (g, l) q = s.queueAt (g, l) q := by
  have reads := sameReads_endRegion s
  obtain ⟨buf, entries, h⟩ := endRegion_spec s
  exact queueAt_congr reads.id (by rw [h]) (fun k _ p => by rw [reads.lane]) hs q

/-- The queues after a cell whose region ends with it. -/
theorem Cell.queuesMoved {c : Cell} {s t : State} (h0 : s.cur.id ≠ 0) (entry : Nat → RillEntry)
    (hid : t.cur.id = s.cur.id) (ho : t.others = (c.queued s.endRegion entry).others)
    (hq : ∀ l < s.cur.threads.length, Spec.KeepsQueues ((c.queued s.endRegion entry).cur.lane l) (t.cur.lane l)) :
    Spec.QueuesMoved s t (c.mask s.endRegion) c.pops c.push entry := by
  intro g l q x hx hl hq6
  have reads := sameReads_endRegion s
  have only := c.queued_queuesOnly s.endRegion entry
  have seated : s.Seated (g, l) := ⟨x, hx, hl⟩
  have moved := c.queueAt_queued (s := s.endRegion) (reads.id ▸ h0) (seated_endRegion seated) hq6 entry
  have same : (c.queued s.endRegion entry).Seated (g, l) :=
    c.seated_queued (reads.id ▸ h0) (seated_endRegion seated) entry
  rw [queueAt_congr (s := c.queued s.endRegion entry) (hid.trans (reads.id.symm.trans only.id.symm)) ho (fun k hk p => ?_) same q, moved]
  · rw [queueAt_endRegion seated, reads.id]
    congr 1
    unfold Spec.arrivals
    simp only [link_endRegion, reads.lanesOf]
  · rw [(hq k (by rwa [only.length, reads.threads] at hk)).1]
    rfl

/-- The entry that a lane pushes is the low word of its result (R217). -/
theorem Cell.arrivals_pushed {c : Cell} {s : State} (hd : c.dcls ≠ .pred → isS c.d = false) (t : State) (ht : ∀ m, t.lanesOf m = s.lanesOf m)
    (seat : Seat) (q : Nat) :
    Spec.arrivals t (c.mask s) c.push seat q (c.pushed s)
      = Spec.arrivals t (c.mask s) c.push seat q fun l => .ready ((c.val s l).1.setWidth 32) := by
  by_cases hp : c.dcls = .pred
  · have : c.push = none := by rw [Cell.push, hp]
    rw [this]; rfl
  · refine arrivals_congr fun l hl => ?_
    have hl' := (mem_lanesOf t (c.mask s) l).mp hl
    have mem : l ∈ s.lanesOf (c.mask s) := ht _ ▸ hl
    rw [Cell.pushed, Cell.values_eq hd, laneVal_lanesOf _ _ _ _ ((mem_lanesOf s _ l).mp mem).1, if_pos hl'.2, low32_latched hp]

/-- The registers and the memory that a form with a port leaves, where `u` is what its computation makes of the queues `q`. -/
theorem Computed.portRegisters {s q u : State} {dst : DstCls} {d lat : Nat} {m : LaneMask} {codes : List Nat}
    {val : Nat → DWord × FpFlags} (moved : QueuesOnly s.endRegion q) (done : Computed s.endRegion q u dst d lat m codes val) :
    (u.startRegion.progress.mem = s.mem ∧ u.startRegion.progress.teams = s.teams ∧ u.startRegion.progress.launches = s.launches)
      ∧ Spec.GoesOn s u.startRegion.progress.cur s.nextPc (fun l => if m.getLsbD l then Spec.latched dst (val l).1 else 0)
      ∧ Spec.LanesWritten s u.startRegion.progress dst d m (fun l => (val l).1)
      ∧ (u.cur.sregs = s.cur.sregs ∧ u.cur.hregs = s.cur.hregs ∧ u.cur.em = s.cur.em ∧ u.cur.fpc = s.cur.fpc)
      ∧ u.cur.pc = s.nextPc ∧ u.cur.wb = s.cur.wb := by
  have reads := sameReads_endRegion s
  obtain ⟨mem, teams, launches⟩ := mem_of_queuesOnly_endRegion moved
  have pc := reads.nextPc ▸ done.goesOn
  obtain ⟨buf, rstart, rwb, wait, cur⟩ := reads.1
  have hu := done.rest
  refine ⟨⟨?_, ?_, ?_⟩, ?_, ?_, ⟨?_, ?_, ?_, ?_⟩, ?_, ?_⟩
  · rw [← mem, hu]; rfl
  · rw [← teams, hu]; rfl
  · rw [← launches, hu]; rfl
  · exact reads.goesOn (t := s.endRegion) pc
  · exact reads.lanesWritten (t := s.endRegion) done.written
  · rw [done.sregs, cur]
  · rw [done.hregs, cur]
  · rw [done.group.1, cur]
  · rw [done.group.1, cur]
  · exact pc.1.1
  · rw [done.group.1, cur]

theorem Cell.Runs.portForm {c : Cell} {i : Instr} {r : Spec.Row} {d a b : Code} (h : c.Runs i r d a b) (hl : c.long = false)
    (hlat : r.lat ≠ 0) : Spec.portForm i (r.srcs d a b) r.dst d.toNat (r.val d a b) := by
  intro s hu hd hs hports h0 hw hfree hok
  have hS : c.dcls ≠ .pred → isS c.d = false := fun _ => h.threadDst hd
  have reads := sameReads_endRegion s
  have touches : (c.pops.isEmpty && c.push.isNone) = false := by
    rw [h.pops, h.push, Bool.and_eq_false_iff, List.isEmpty_eq_false_iff, Option.isNone_eq_false_iff, Option.isSome_iff_ne_none]
    exact hports
  have hfree' : s.rillBlocked (c.mask s) c.pops c.push = none := by rw [h.mask, h.pops, h.push]; exact hfree
  have hu' : c.isUniform s.endRegion = false := by rw [h.isUniform, reads.u, hu, isS_of_threadDst hd]; rfl
  have mask : c.mask s.endRegion = s.em := (h.mask _).trans reads.em
  have val : c.val s.endRegion = r.val d a b s := (h.val _).trans (reads.rowVal r d a b)
  have moved := c.queued_queuesOnly s.endRegion (c.pushed s.endRegion)
  have done := Cell.stateAfter_computed (c := c) (m := c.mask s.endRegion) (val := c.val s.endRegion) moved
  have arrive := Cell.arrivals_pushed (s := s.endRegion) hS s fun m => (reads.lanesOf m).symm
  have runs : c.exec s = (c.stateAfter s.endRegion (c.queued s.endRegion (c.pushed s.endRegion)) (c.mask s.endRegion)
      (c.val s.endRegion)).startRegion.progress := by
    rw [h.exec_thread hu hd hs hok, Cell.proceed, hl]
    simp only [Bool.false_and, Bool.false_eq_true, if_false, touches]
    rw [throughPorts_of hw hfree', Cell.runFixed_lanes hS hu' (h.lat ▸ hlat)]
  have queues : Spec.QueuesMoved s (c.exec s) (c.mask s.endRegion) c.pops c.push (c.pushed s.endRegion) := by
    generalize c.stateAfter s.endRegion _ _ _ = u at runs done
    rw [runs]
    refine Cell.queuesMoved h0 _ ?_ ?_ fun l hl => done.lanes l (reads.threads ▸ hl)
    · refine Eq.trans ?_ reads.id
      change u.cur.id = _
      rw [done.group.1]
    · change u.others = _
      rw [done.rest]
  generalize c.stateAfter s.endRegion _ _ _ = u at runs done
  rw [mask, val, h.dst, h.code] at done
  obtain ⟨⟨mem, teams, launches⟩, pc, regs, ⟨sregs, hregs, em, fpc⟩, next, wb⟩ := done.portRegisters moved
  refine ⟨c.exec s, h.exec s, ?_⟩
  refine ⟨runs ▸ mem, runs ▸ teams, runs ▸ launches, runs ▸ pc, runs ▸ regs, runs ▸ sregs, runs ▸ hregs, runs ▸ em, runs ▸ fpc, runs ▸ next,
    runs ▸ wb, by rw [runs]; rfl, ?_⟩
  intro g l q x hx hl' hq
  have at_ := queues g l q x hx hl' hq
  rw [arrive, mask, val, h.pops, h.push] at at_
  exact at_

end Sys2Proof.Machine
end

section
/-! PROOF. The uniform form of a cell that computes a value, and the traps of its fields (R58, R103, R106, R159, R364, R424). -/

namespace Sys2Proof.Machine

/-! ### The uniform form (R106) -/

theorem isPort_false_of_uniformSrc {k : Nat} (h : uniformSrc k = true) : isPort k = false := by
  simp only [uniformSrc, isS, isPort, Bool.or_eq_true, Bool.and_eq_true, decide_eq_true_eq, beq_iff_eq, Bool.and_eq_false_iff,
    decide_eq_false_iff_not] at *
  omega

/-- A uniform instruction pops nothing. -/
theorem popsOf_uniform {srcs : List Src} (h : srcs.all (Src.ok true) = true) : popsOf srcs = [] := by
  have none : ∀ x ∈ srcs, ¬((x.cls == .w || x.cls == .wide) && isPort x.code) = true := by
    intro x hx general
    obtain ⟨hcls, hport⟩ := Bool.and_eq_true_iff.mp general
    have hok : uniformSrc x.code = true := by
      have := List.all_eq_true.mp h x hx
      unfold Src.ok at this
      cases hc : x.cls <;> simp [hc] at hcls this
      · exact this
      · exact this
    simp [isPort_false_of_uniformSrc hok] at hport
  rw [popsOf, List.filter_eq_nil_iff.mpr none]
  rfl

theorem pushOf_uniform {dst : DstCls} {d : Nat} (h : dst.ok true d = true) : Spec.pushOf dst d = none := by
  cases dst with
  | w e =>
    refine pushOf_none ?_
    simp only [DstCls.ok, if_true, Bool.or_eq_true, beq_iff_eq] at h
    obtain h | h := h
    · exact isPort_false_of_isS h
    · rw [h]; rfl
  | v => rfl
  | pair => rfl
  | pred => rfl

/-- The result of the uniform form: extended to an s-register, its low word alone where it goes to nul. -/
theorem Cell.uniformResult_eq {c : Cell} (s : State) (hd : c.dcls.ok true c.d = true) (hp : c.dcls ≠ .pred) :
    c.uniformResult s = (if isS c.d = true ∨ c.dcls = .w .full ∨ c.dcls = .pair then Spec.extended c.dcls (c.val s 0).1
      else (c.val s 0).1 &&& 0xFFFFFFFF, (c.val s 0).2) := by
  unfold Cell.uniformResult Cell.val
  cases hc : c.dcls with
  | w e =>
    have low := zext64_low32 (c.f s.rmSeen (s.sources 0 0 [] c.srcs)).1
    cases e with
    | full => simp [Spec.extended, Ext.apply]
    | sign =>
      cases isS c.d
      · simp [low]
      · rfl
    | zero =>
      cases isS c.d
      · simp [low]
      · simp [Spec.extended, Ext.apply, low]
  | v => simp [hc, DstCls.ok] at hd
  | pair => simp [Spec.extended]
  | pred => exact absurd hc hp

/-- An s-register written, with what is below its latency (R60, R159). -/
theorem sWritten_writeS (s : State) (i : Nat) (x : DWord) :
    Spec.sWritten s.cur i x (s.cur.writeS i x 2)
      ∧ (s.cur.writeS i x 2).hazards = Spec.before s (s.cur.sTarget i) [s.cur.sreg i] 2 (BitVec.allOnes 64) :: s.cur.hazards
      ∧ Spec.OnlyRegisters s.cur (s.cur.writeS i x 2) ∧ (s.cur.writeS i x 2).flags = s.cur.flags
      ∧ (s.cur.writeS i x 2).gstat = s.cur.gstat ∧ (s.cur.writeS i x 2).threads = s.cur.threads
      ∧ (s.cur.writeS i x 2).gcyc = s.cur.gcyc ∧ (s.cur.writeS i x 2).latches = s.cur.latches
      ∧ (s.cur.writeS i x 2).pc = s.cur.pc := by
  have bank : (s.cur.hazard (s.cur.sTarget i) [s.cur.sreg i] 2).isHandlerReg i = s.cur.isHandlerReg i := rfl
  have same : s.cur.isHandlerReg i = true ↔ s.cur.intrap = true ∧ 24 ≤ i ∧ i < 32 := by
    simp [Group.isHandlerReg, and_assoc]
  unfold Spec.sWritten Group.writeS Group.setSreg
  rw [bank]
  by_cases h : s.cur.isHandlerReg i = true
  · rw [if_pos (same.mp h), if_pos h]
    exact ⟨⟨rfl, fun j => sget_sset ..⟩, rfl, ⟨rfl, fun e he => (List.mem_filter.mp he).1⟩, rfl, rfl, rfl, rfl, rfl, rfl⟩
  · rw [if_neg (mt same.mpr h), if_neg h]
    exact ⟨⟨rfl, fun j => sget_sset ..⟩, rfl, ⟨rfl, fun e he => (List.mem_filter.mp he).1⟩, rfl, rfl, rfl, rfl, rfl, rfl⟩

/-- The group with the result of a uniform instruction. -/
def State.withUniform (s : State) (d : Nat) (x : DWord) : Group := if isS d then s.cur.writeS (d - 64) x 2 else s.cur

theorem withUniform_spec (s : State) (d : Nat) (x : DWord) :
    (if isS d then Spec.sWritten s.cur (d - 64) x (s.withUniform d x)
        ∧ (s.withUniform d x).hazards = Spec.before s (s.cur.sTarget (d - 64)) [s.cur.sreg (d - 64)] 2 (BitVec.allOnes 64) :: s.cur.hazards
      else (s.withUniform d x).sregs = s.cur.sregs ∧ (s.withUniform d x).hregs = s.cur.hregs
        ∧ (s.withUniform d x).hazards = s.cur.hazards)
      ∧ Spec.OnlyRegisters s.cur (s.withUniform d x) ∧ (s.withUniform d x).flags = s.cur.flags
      ∧ (s.withUniform d x).gstat = s.cur.gstat ∧ (s.withUniform d x).threads = s.cur.threads
      ∧ (s.withUniform d x).gcyc = s.cur.gcyc ∧ (s.withUniform d x).latches = s.cur.latches ∧ (s.withUniform d x).pc = s.cur.pc := by
  obtain ⟨written, hazards, rest⟩ := sWritten_writeS s (d - 64) x
  unfold State.withUniform
  cases isS d
  · exact ⟨⟨rfl, rfl, rfl⟩, ⟨rfl, fun _ h => h⟩, rfl, rfl, rfl, rfl, rfl, rfl⟩
  · exact ⟨⟨written, hazards⟩, rest⟩

/-- An instruction that writes one s-register, or nul, and ends (R106). -/
theorem uniformEffect_finish (s : State) (d : Nat) {x b0 : DWord} (fl : FpFlags) (hx : isS d = true → x = b0) :
    Spec.UniformEffect s ((s.modCur fun _ => (s.withUniform d b0).raiseAfter fl 2).finish b0) d x b0 fl := by
  obtain ⟨written, ⟨only, bad⟩, flags, gstat, threads, gcyc, latches, pc⟩ := withUniform_spec s d b0
  generalize s.withUniform d b0 = g at *
  have raised := raiseAfter_eq g fl (lat := 2) (by decide)
  have ended : AtEnd s (s.modCur fun _ => g.raiseAfter fl 2) := by
    rw [raised]
    exact ⟨rfl, rfl, by rw [State.team, State.team?, modCur_cur, only]; rfl, gcyc, latches, by simp [threads],
      fun l _ => by simp [Group.lane, threads]⟩
  have next : (s.modCur fun _ => g.raiseAfter fl 2).nextPc = s.nextPc := by
    simp only [State.nextPc, modCur_cur, modCur_issue, raised, pc]
  have lane : ∀ l < s.cur.threads.length, ((s.modCur fun _ => g.raiseAfter fl 2).finish b0).cur.lane l = (s.cur.lane l).shifted b0 := by
    intro l hl
    rw [State.finish, lane_finishAt _ _ _ _ (by simpa [raised, threads] using hl)]
    congr 1
    simp [raised, Group.lane, threads]
  have goes : Spec.GoesOn s ((s.modCur fun _ => g.raiseAfter fl 2).finish b0).cur s.nextPc fun _ => b0 := by
    rw [State.finish, next]
    exact ended.goesOn _ _
  refine ⟨?_, ⟨?_, ?_⟩, goes, fun l hl => ?_, ?_, ?_, ?_⟩
  · have key : (s.modCur fun _ => g.raiseAfter fl 2).cur.pipeKey = s.cur.pipeKey := by
      simp only [modCur_cur, raised, Group.pipeKey]; rw [only]
    have id : (s.modCur fun _ => g.raiseAfter fl 2).cur.id = s.cur.id := by
      simp only [modCur_cur, raised]; rw [only]
    rw [Spec.OnlyFocus, ← pipesAfter_eq (s := s) (t := s.modCur fun _ => g.raiseAfter fl 2) rfl rfl key id]
    rfl
  · simp only [State.finish, finishAt_cur, modCur_cur, raised]
    rw [only]
    rfl
  · simpa [State.finish, finishAt_cur, raised] using bad
  · rw [lane l hl]
    exact ⟨keepsQueues_shifted (keepsQueues_refl _) _, rfl, rfl⟩
  · cases hS : isS d
    · simpa [hS, State.finish, finishAt_cur, raised] using written
    · rw [hx hS]
      simpa [hS, Spec.sWritten, State.finish, finishAt_cur, raised] using written
  · simp [State.finish, finishAt_cur, raised, flags]
  · simp [State.finish, finishAt_cur, raised, gstat]

theorem Cell.Runs.uniformForm {c : Cell} {i : Instr} {r : Spec.Row} {d a b : Code} (h : c.Runs i r d a b) (hl : c.long = false)
    (hp : r.dst ≠ .pred) : Spec.uniformForm i (r.srcs d a b) r.dst d.toNat fun s => r.val d a b s 0 := by
  intro s hu hd hs hok
  have result := c.uniformResult_eq s (h.dst ▸ h.code ▸ hd) (h.dst ▸ hp)
  rw [h.dst, h.code, h.val] at result
  have runs : c.exec s = (s.modCur fun _ => (s.withUniform d.toNat (c.uniformResult s).1).raiseAfter (c.uniformResult s).2 2).finish
      (c.uniformResult s).1 := by
    rw [h.exec_uniform hu hd hp hs hok, Cell.proceed_plain c s hl (by rw [h.pops, popsOf_uniform hs]; rfl)
      (by rw [h.push, pushOf_uniform hd]; rfl), Cell.runFixed, h.isUniform, hu, Bool.or_true, if_pos rfl, h.code]
    rfl
  refine ⟨c.exec s, h.exec s, ?_⟩
  rw [runs, result]
  exact uniformEffect_finish s d.toNat _ fun hS => by simp [hS]

/-! ### Traps (R103, R159, R424) -/

/-- The entry to a handler commits the region's lines, of which a first part moves to the write buffer. -/
theorem trapped_enter (s : State) (cause : Nat) (tpc tval : DWord) :
    Spec.Trapped s ((s.commit.modCur fun g => g.enter cause tpc tval g.hva).startRegion) s.cur cause tpc tval := by
  obtain ⟨k, hk, -⟩ := drainCommitted_spec
    (s.modCur fun g => { g with storeBuf := g.storeBuf.map fun l => { l with committed := true } })
  have commit := (rfl : s.commit = _).trans hk
  have hazards : (s.cur.hazards.filter fun h => h.target != .em && h.target != .special 0x009 && h.target != .special 0x00B)
      = s.cur.hazards.filter fun h => decide (h.target ≠ .em ∧ h.target ≠ .special 9 ∧ h.target ≠ .special 0xB) :=
    List.filter_congr fun h _ => by simp [bne, Bool.and_assoc, Bool.beq_eq_decide_eq]
  rw [commit]
  unfold Spec.Trapped
  rw [← hazards]
  exact ⟨rfl, rfl, k, rfl, rfl⟩

theorem trapped_trap {s : State} (h : Spec.canTrap s) (cause : Nat) (tval : DWord) :
    Spec.Trapped s (s.trap cause tval) s.cur cause s.cur.pc tval := by
  obtain ⟨hi, hw⟩ := h
  have enters : s.trap cause tval = (s.commit.modCur fun g => g.enter cause s.cur.pc tval g.hva).startRegion := by
    rw [State.trap, State.trapAfter, hi, hw]
    rfl
  exact enters ▸ trapped_enter s cause s.cur.pc tval

/-- A source with an error takes the poison trap, where the launch asks for it. -/
theorem trapped_unsound {s : State} (h : Spec.canTrap s) (hp : s.launch.record.poison = true) {lanes : List Nat} {srcs : List Src}
    (hbad : ¬Spec.Sound s lanes srcs) (f : State → State) : Spec.Trapped s (s.sound lanes srcs f) s.cur causePoison s.cur.pc 1 := by
  obtain ⟨hi, hw⟩ := h
  have bad : lanes.any (fun l => s.cur.badSources l [] srcs) = true := by
    simpa [Spec.Sound] using hbad
  have flawed : s.cur.intact = false := by
    by_contra intact
    refine hbad fun l _ => badSources_intact (by simpa using intact) l [] srcs
  have enters : s.sound lanes srcs f = (s.commit.modCur fun g => g.enter causePoison s.cur.pc 1 g.hva).startRegion := by
    rw [State.sound, bad, flawed, State.poisonTrap, hi, hw, hp]
    rfl
  exact enters ▸ trapped_enter s causePoison s.cur.pc 1

section
variable {c : Cell} {i : Instr} {r : Spec.Row} {d a b : Code} (h : c.Runs i r d a b)
include h

theorem Cell.Runs.refused {s : State} (ht : Spec.canTrap s) {cause : Nat} (hc : c.cause s = some cause) :
    Spec.Refused i s cause := by
  refine ⟨_, h.exec s, ?_⟩
  rw [Cell.exec, hc]
  exact trapped_trap ht cause _

/-- The other kind of half-word is an illegal instruction (R58). -/
theorem Cell.Runs.cause_kind {s : State} (hk : Kind.byDest.uOk s.u d.toNat = false) : c.cause s = some causeIllegal := by
  rw [Cell.cause, h.kind, h.code, hk]
  rfl

/-- A field that names nothing valid is an illegal operand (R53, R78). -/
theorem Cell.Runs.cause_field {s : State} (hk : Kind.byDest.uOk s.u d.toNat = true)
    (hf : (r.dst.ok (isS d.toNat || s.u) d.toNat && (r.srcs d a b).all (Src.ok (isS d.toNat || s.u))) = false) :
    c.cause s = some causeOperand := by
  rw [Cell.cause, h.isUniform, h.kind, h.code, h.dst, h.srcs, h.extra, Bool.or_false, hk, hf]
  rfl

theorem Cell.Runs.cause_none {s : State} (hk : Kind.byDest.uOk s.u d.toNat = true)
    (hf : (r.dst.ok (isS d.toNat || s.u) d.toNat && (r.srcs d a b).all (Src.ok (isS d.toNat || s.u))) = true) :
    c.cause s = none := by
  rw [Cell.cause, h.isUniform, h.kind, h.code, h.dst, h.srcs, h.extra, Bool.or_false, hk, hf]
  rfl

end

/-- The half-word agrees with the d field, which an s-register alone makes uniform (R58). -/
theorem uOk_of_kindOk {s : State} {d : Code} (h : Spec.kindOk s d) :
    Kind.byDest.uOk s.u d.toNat = true ∧ (isS d.toNat || s.u) = s.u := by
  obtain ⟨hS, hV⟩ := h
  unfold Kind.uOk
  cases h1 : isS d.toNat
  · refine ⟨?_, rfl⟩
    cases h2 : isV d.toNat || isPort d.toNat
    · rfl
    · simp [hV (by simpa using h2)]
  · simp [hS h1]

/-- The traps of a row of kind D. -/
theorem Cell.Runs.refusals {r : Spec.Row} {c : Code → Code → Code → Cell} (h : ∀ d a b, (c d a b).Runs (r.instr d a b) r d a b) :
    r.refusals := by
  intro d a b s ht
  have row := h d a b
  refine ⟨fun hS hu => ?_, fun hV hu => ?_, fun hk hf => ?_, fun hk hf hp hbad => ?_⟩
  · exact row.refused ht (row.cause_kind (by simp [Kind.uOk, hS, hu]))
  · have hS : isS d.toNat = false := hV.elim isS_false_of_isV isS_false_of_isPort
    exact row.refused ht (row.cause_kind (by simpa [Kind.uOk, hS, hu] using or_iff_not_imp_left.mp hV))
  · obtain ⟨kind, form⟩ := uOk_of_kindOk hk
    exact row.refused ht (row.cause_field kind (by rw [form]; exact hf))
  · obtain ⟨kind, form⟩ := uOk_of_kindOk hk
    refine ⟨_, row.exec s, ?_⟩
    have readers : (c d a b).readers s = if s.u then [0] else s.lanesOf s.em := by
      rw [Cell.readers, row.isUniform, form, row.mask]
    rw [Cell.exec, row.cause_none kind (by rw [form]; exact hf), readers, row.srcs]
    exact trapped_unsound ht hp hbad _

/-- The forms and the traps of a row that a cell of fixed latency computes (R103, R106). -/
theorem Cell.Runs.row {r : Spec.Row} {c : Code → Code → Code → Cell} (h : ∀ d a b, (c d a b).Runs (r.instr d a b) r d a b)
    (hl : ∀ d a b, (c d a b).long = false) (hlat : r.lat ≠ 0) (hp : r.dst ≠ .pred) : r.forms ∧ r.refusals :=
  ⟨⟨fun d a b => (h d a b).threadForm (hl d a b) hlat, fun d a b => (h d a b).uniformForm (hl d a b) hp,
    fun d a b => (h d a b).portForm (hl d a b) hlat⟩, Cell.Runs.refusals h⟩

end Sys2Proof.Machine
end

section
/-! PROOF. O1: the 32-bit integer instructions of fixed latency compute the results of R107. -/

namespace Sys2Proof.Machine

/-! ### The values of R107, each in the integers -/

theorem high32_ofInt (x : Int) : high32 (BitVec.ofInt 64 x) = BitVec.ofInt 32 (x / 2 ^ 32) := by
  apply BitVec.eq_of_toNat_eq
  simp only [high32, BitVec.extractLsb'_toNat, BitVec.toNat_ofInt, Nat.shiftRight_eq_div_pow]
  omega

theorem sext64_eq (x : Word) : sext64 x = BitVec.ofInt 64 x.toInt := rfl

theorem mulHiS_eq (a b : Word) : mulHiS a b = BitVec.ofInt 32 (a.toInt * b.toInt / 2 ^ 32) := by
  have product : sext64 a * sext64 b = BitVec.ofInt 64 (a.toInt * b.toInt) := by
    rw [BitVec.ofInt_mul, sext64_eq, sext64_eq]
  rw [mulHiS, product, high32_ofInt]

theorem mulHiU_eq (a b : Word) : mulHiU a b = BitVec.ofNat 32 (a.toNat * b.toNat / 2 ^ 32) := by
  have product : zext64 a * zext64 b = BitVec.ofInt 64 ((a.toNat * b.toNat : Nat) : Int) := by
    rw [BitVec.ofInt_natCast, BitVec.ofNat_mul, zext64, zext64, ← BitVec.ofNat_toNat, ← BitVec.ofNat_toNat]
  rw [mulHiU, product, high32_ofInt, ← BitVec.ofInt_natCast]
  rfl

theorem sra32_eq (a : Word) (n : Nat) : sra32 a n = BitVec.ofInt 32 (a.toInt / 2 ^ n) := by
  rw [sra32, BitVec.sshiftRight, Int.shiftRight_eq_div_pow]
  rfl

theorem minS_eq (a b : Word) : minS a b = if a.toInt < b.toInt then a else b := by
  simp only [minS, BitVec.slt, decide_eq_true_eq]

theorem maxS_eq (a b : Word) : maxS a b = if a.toInt < b.toInt then b else a := by
  simp only [maxS, BitVec.slt, decide_eq_true_eq]
  rcases lt_trichotomy a.toInt b.toInt with h | h | h
  · rw [if_neg (by omega), if_pos h]
  · rw [BitVec.toInt_inj.mp h]
  · rw [if_pos h, if_neg (by omega)]

theorem minU_eq (a b : Word) : minU a b = if a.toNat < b.toNat then a else b := by
  simp only [minU, BitVec.ult, decide_eq_true_eq]

theorem maxU_eq (a b : Word) : maxU a b = if a.toNat < b.toNat then b else a := by
  simp only [maxU, BitVec.ult, decide_eq_true_eq]
  rcases lt_trichotomy a.toNat b.toNat with h | h | h
  · rw [if_neg (by omega), if_pos h]
  · rw [BitVec.toNat_inj.mp h]
  · rw [if_pos h, if_neg (by omega)]

theorem clz32_eq (a : Word) : clz32 a = BitVec.ofNat 32 (32 - Nat.size a.toNat) := by
  unfold clz32
  split
  · next h => subst h; simp
  · next h =>
    have pos : a.toNat ≠ 0 := fun e => h (BitVec.eq_of_toNat_eq e)
    have size : Nat.size a.toNat = Nat.log2 a.toNat + 1 := by
      refine le_antisymm (Nat.size_le.mpr (Nat.log2_lt pos |>.mp (Nat.lt_succ_self _))) (Nat.lt_size.mpr (Nat.log2_self_le pos))
    rw [size]
    congr 1
    omega

theorem foldl_count (p : Nat → Bool) (is : List Nat) (k : Nat) :
    is.foldl (fun acc i => if p i then acc + 1 else acc) k = k + (is.filter p).length := by
  induction is generalizing k with
  | nil => rfl
  | cons i rest ih =>
    rw [List.foldl_cons, ih, List.filter_cons]
    split
    · rw [List.length_cons]; omega
    · rfl

theorem popc32_eq (a : Word) : popc32 a = BitVec.ofNat 32 ((List.range 32).filter fun i => a.getLsbD i).length := by
  rw [popc32, popCount, foldl_count, Nat.zero_add]

/-! ### Rows of one shape -/

section
variable {ext : Ext}

theorem row2_holds {instr : Code → Code → Code → Instr} {lat : Nat} (f g : Word → Word → Word) (hfg : ∀ x y, f x y = g x y)
    (hlat : lat ≠ 0) (hexec : ∀ d a b s, Machine.exec (instr d a b) s = .next ((intCell2 d a b ext lat f).exec s)) :
    (Spec.row2 instr ext lat g).forms ∧ (Spec.row2 instr ext lat g).refusals := by
  obtain rfl : f = g := funext fun x => funext (hfg x)
  exact Cell.Runs.row (c := fun d a b => intCell2 d a b ext lat f)
    (fun d a b => ⟨hexec d a b, rfl, rfl, rfl, rfl, rfl, rfl, fun _ => rfl, rfl⟩) (fun _ _ _ => rfl) hlat (by simp [Spec.row2])

theorem rowCnt_holds {instr : Code → Code → Code → Instr} (f g : Word → Nat → Word) (hfg : ∀ x n, f x n = g x n)
    (hexec : ∀ d a b s, Machine.exec (instr d a b) s = .next ((intCellCnt d a b ext f).exec s)) :
    (Spec.rowCnt instr ext g).forms ∧ (Spec.rowCnt instr ext g).refusals := by
  obtain rfl : f = g := funext fun x => funext (hfg x)
  exact Cell.Runs.row (c := fun d a b => intCellCnt d a b ext f)
    (fun d a b => ⟨hexec d a b, rfl, rfl, rfl, rfl, rfl, rfl, fun _ => rfl, rfl⟩) (fun _ _ _ => rfl) (by simp [Spec.rowCnt]) (by simp [Spec.rowCnt])

theorem row1_holds {instr : Code → Code → Instr} (f g : Word → Word) (hfg : ∀ x, f x = g x)
    (hexec : ∀ d a s, Machine.exec (instr d a) s = .next ((intCell1 d a ext f).exec s)) :
    (Spec.row1 instr ext g).forms ∧ (Spec.row1 instr ext g).refusals := by
  obtain rfl : f = g := funext hfg
  exact Cell.Runs.row (c := fun d a _ => intCell1 d a ext f)
    (fun d a _ => ⟨hexec d a, rfl, rfl, rfl, rfl, rfl, rfl, fun _ => rfl, rfl⟩) (fun _ _ _ => rfl) (by simp [Spec.row1]) (by simp [Spec.row1])

end

/-- The row of `MAD`, which reads its destination as the addend. -/
theorem mad_runs (r : Spec.Row) (hi : r.instr = .mad) (hs : r.srcs = fun d a b => Spec.two d a b ++ [⟨d.toNat, .w⟩])
    (hd : r.dst = .w .sign) (hl : r.lat = 4)
    (hv : r.value = fun _ xs => Spec.plain (Spec.word xs 2 + Spec.word xs 0 * Spec.word xs 1)) (d a b : Code) :
    (madCell d a b).Runs (r.instr d a b) r d a b := by
  refine ⟨fun s => ?_, rfl, rfl, hd.symm, ?_, hl.symm, ?_, fun _ => rfl, rfl⟩
  · rw [hi]; rfl
  · rw [hs]; rfl
  · rw [hv]; rfl

/-- Settles O1: each instruction is a cell whose function is that of its row. -/
theorem integerResults : Obligations.IntegerResults := by
  unfold Obligations.IntegerResults Spec.integerRows
  simp only [List.forall_mem_append, List.forall_mem_cons, List.not_mem_nil, false_imp_iff, implies_true, and_true]
  refine ⟨⟨⟨⟨?_, ?_, ?_, ?_, ?_, ?_, ?_, ?_, ?_, ?_, ?_, ?_, ?_, ?_, ?_, ?_⟩, ?_, ?_, ?_⟩, ?_, ?_, ?_, ?_, ?_, ?_, ?_⟩, ?_⟩
  · exact row2_holds _ _ (fun _ _ => rfl) (by decide) fun _ _ _ _ => rfl
  · exact row2_holds _ _ (fun _ _ => rfl) (by decide) fun _ _ _ _ => rfl
  · exact row2_holds _ _ (fun _ _ => rfl) (by decide) fun _ _ _ _ => rfl
  · exact row2_holds _ _ mulHiS_eq (by decide) fun _ _ _ _ => rfl
  · exact row2_holds _ _ mulHiU_eq (by decide) fun _ _ _ _ => rfl
  · exact row2_holds _ _ (fun _ _ => rfl) (by decide) fun _ _ _ _ => rfl
  · exact row2_holds _ _ (fun _ _ => rfl) (by decide) fun _ _ _ _ => rfl
  · exact row2_holds _ _ (fun _ _ => rfl) (by decide) fun _ _ _ _ => rfl
  · exact row2_holds _ _ (fun _ _ => rfl) (by decide) fun _ _ _ _ => rfl
  · exact row2_holds _ _ (fun _ _ => rfl) (by decide) fun _ _ _ _ => rfl
  · exact row2_holds _ _ (fun _ _ => rfl) (by decide) fun _ _ _ _ => rfl
  · exact row2_holds _ _ (fun _ _ => sra32_eq _ _) (by decide) fun _ _ _ _ => rfl
  · exact row2_holds _ _ minS_eq (by decide) fun _ _ _ _ => rfl
  · exact row2_holds _ _ maxS_eq (by decide) fun _ _ _ _ => rfl
  · exact row2_holds _ _ minU_eq (by decide) fun _ _ _ _ => rfl
  · exact row2_holds _ _ maxU_eq (by decide) fun _ _ _ _ => rfl
  · exact rowCnt_holds _ _ (fun _ _ => rfl) fun _ _ _ _ => rfl
  · exact rowCnt_holds _ _ (fun _ _ => rfl) fun _ _ _ _ => rfl
  · exact rowCnt_holds _ _ sra32_eq fun _ _ _ _ => rfl
  · exact row1_holds _ _ (fun x => by simp [BitVec.slt]) fun _ _ _ => rfl
  · exact row1_holds _ _ clz32_eq fun _ _ _ => rfl
  · exact row1_holds _ _ popc32_eq fun _ _ _ => rfl
  · exact row1_holds _ _ (fun _ => rfl) fun _ _ _ => rfl
  · exact row1_holds _ _ (fun _ => rfl) fun _ _ _ => rfl
  · exact row1_holds _ _ (fun _ => rfl) fun _ _ _ => rfl
  · exact row1_holds _ _ (fun _ => rfl) fun _ _ _ => rfl
  · exact Cell.Runs.row (mad_runs _ rfl rfl rfl rfl rfl) (fun _ _ _ => rfl) (by decide) (by decide)

end Sys2Proof.Machine
end

section
/-! PROOF. O4: a cell of the lng path puts one operation in flight, in each of its three forms (R64, R65, R108, R138, R219). -/

namespace Sys2Proof.Machine

/-! ### One more operation in flight -/

/-- What an instruction in state `s` leaves that begins an operation, where the ports of its operands have made `t` of `s`. -/
structure Launched (s t u : State) (path : Nat) (kind : FlightKind) : Prop where
  rest : u = { t with cur := u.cur, pipes := Spec.issuedPipes s }
  goesOn : Spec.GoesOn s u.cur s.nextPc fun _ => 0
  nextTag : u.cur.nextTag = s.cur.nextTag + 1
  flights : u.cur.flights = s.cur.flights ++ [Spec.newFlight s path kind]
  group : u.cur = { s.cur with pc := u.cur.pc, threads := u.cur.threads, gstat := u.cur.gstat, gcyc := u.cur.gcyc,
                               lastIssue := u.cur.lastIssue, latches := u.cur.latches, switch := u.cur.switch,
                               came := u.cur.came, stalled := u.cur.stalled, hazards := u.cur.hazards,
                               wait := u.cur.wait, barWait := u.cur.barWait, flights := u.cur.flights,
                               nextTag := u.cur.nextTag }
  lost : u.cur.gstat = s.cur.gstat ∧ u.cur.hazards = s.cur.hazards
    ∨ u.cur.gstat = s.cur.gstat ||| 1 ∧ u.cur.hazards = Spec.afterLoss true s.cur.hazards
  lanes : ∀ l < s.cur.threads.length, u.cur.lane l = (t.cur.lane l).shifted 0

theorem Launched.raised {s u : State} {path : Nat} {kind : FlightKind} (h : Launched s s u path kind) :
    Spec.Raised s u path kind fun _ => 0 := by
  refine ⟨h.rest, h.goesOn, h.nextTag, h.flights, h.group, h.lost, fun l hl => ?_⟩
  rw [h.lanes l hl]
  exact ⟨rfl, rfl, keepsQueues_shifted (keepsQueues_refl _) _⟩

/-- The operation in flight of an instruction whose ports have been read, with a lost latch noted. -/
def State.lifted (s t : State) (path : Nat) (kind : FlightKind) (m : LaneMask) (codes : List Nat) : State :=
  (t.launchFlight path kind).modCur (s.noteLatches m codes)

theorem launched_lifted {s t : State} (h : QueuesOnly s t) (path : Nat) (kind : FlightKind) (m : LaneMask) (codes : List Nat) :
    Launched s t ((s.lifted t path kind m codes).finish 0) path kind := by
  have cur : (s.lifted t path kind m codes).cur = { t.cur with
      flights := s.cur.flights ++ [Spec.newFlight s path kind], nextTag := s.cur.nextTag + 1,
      gstat := if m ≠ 0 ∧ s.cur.losesLatch codes = true then s.cur.gstat ||| 1 else s.cur.gstat,
      hazards := Spec.afterLoss (decide (m ≠ 0 ∧ s.cur.losesLatch codes = true)) s.cur.hazards } := by
    rw [State.lifted, modCur_cur, noteLatches_eq, ← h.gstat, ← h.hazards, ← h.flights, ← h.nextTag, Spec.newFlight, ← h.pc, ← h.draws,
      ← h.nextTag]
    rfl
  have rest : s.lifted t path kind m codes = { t with cur := (s.lifted t path kind m codes).cur } := rfl
  generalize s.lifted t path kind m codes = x at cur rest
  have threads : x.cur.threads = t.cur.threads := by rw [cur]
  have length : x.cur.threads.length = s.cur.threads.length := by rw [threads, h.length]
  have lane : ∀ l, x.cur.lane l = t.cur.lane l := lane_of_threads threads
  have ended : AtEnd s x := by
    refine ⟨by rw [rest]; exact h.issue, by rw [rest]; exact h.draws, ?_, by rw [cur]; exact h.gcyc, by rw [cur]; exact h.latches, length,
      fun l _ => lane l ▸ (h.lane l).latches⟩
    rw [State.team, State.team?, cur, rest]
    exact h.team
  have next : x.nextPc = s.nextPc := by
    rw [State.nextPc, cur, rest]
    simp only [h.pc, h.issue, State.nextPc]
  constructor
  case rest =>
    have pipes : x.pipesAfter = Spec.issuedPipes s := by
      refine pipesAfter_eq (by rw [rest]; exact h.issue) (by rw [rest]; exact h.pipes) ?_ (by rw [cur]; exact h.id)
      rw [Group.pipeKey, cur]
      exact h.pipeKey
    rw [← pipes]
    simp only [State.finish, State.finishAt]
    rw [rest]
    rfl
  case goesOn =>
    rw [State.finish, next]
    exact ended.goesOn _ _
  case nextTag => rw [State.finish, finishAt_cur, cur]; rfl
  case flights => rw [State.finish, finishAt_cur, cur]; rfl
  case group =>
    simp only [State.finish, finishAt_cur]
    rw [cur, h.1]
    rfl
  case lost =>
    simp only [State.finish, finishAt_cur]
    rw [cur]
    by_cases hl : m ≠ 0 ∧ s.cur.losesLatch codes = true
    · rw [if_pos hl, decide_eq_true hl]
      exact .inr ⟨rfl, rfl⟩
    · rw [if_neg hl, decide_eq_false hl]
      exact .inl ⟨rfl, rfl⟩
  case lanes =>
    intro l hl
    rw [State.finish, lane_finishAt _ _ _ _ (length ▸ hl), lane]

/-! ### Where the result will go -/

section
variable {s t : State} (h : SameReads s t)
include h

theorem SameReads.newFlight (path : Nat) (kind : FlightKind) : Spec.newFlight t path kind = Spec.newFlight s path kind := by
  obtain ⟨⟨_, _, _, _, cur⟩, -, draws, -⟩ := h
  rw [Spec.newFlight, cur, draws, Spec.newFlight]

theorem SameReads.destination (dst : DstCls) (d : Nat) : Spec.destination t dst d = Spec.destination s dst d := by
  have intrap := h.intrap
  obtain ⟨⟨_, _, _, _, cur⟩, -⟩ := h
  rw [Spec.destination, intrap, cur, Spec.destination]

theorem SameReads.nextTag : t.cur.nextTag = s.cur.nextTag := by
  obtain ⟨⟨_, _, _, _, e⟩, -⟩ := h
  rw [e]

end

/-- A valid destination is a register, a port or nul. -/
theorem Cell.dst_eq {c : Cell} (s : State) {uniform : Bool} (hd : c.dcls.ok uniform c.d = true) (hp : c.dcls ≠ .pred) :
    c.dst s = Spec.destination s c.dcls c.d := by
  have bank : s.sDst c.d 1 = if s.cur.intrap = true ∧ 24 ≤ c.d - 64 ∧ c.d - 64 < 32 then .s true (c.d - 88) 1 else .s false (c.d - 64) 1 := by
    have same : s.cur.isHandlerReg (c.d - 64) = true ↔ s.cur.intrap = true ∧ 24 ≤ c.d - 64 ∧ c.d - 64 < 32 := by
      simp [Group.isHandlerReg, and_assoc]
    simp only [State.sDst, same]
  unfold Cell.dst Spec.destination
  rw [bank]
  cases hc : c.dcls with
  | w e => simp
  | v =>
    have hv : isV c.d = true := by simpa [hc, DstCls.ok] using (Bool.and_eq_true_iff.mp (hc ▸ hd)).2
    simp [hv]
  | pair =>
    cases hv : isV c.d
    · cases uniform with
      | false => simp [hc, DstCls.ok, hv] at hd
      | true =>
        have hS : isS c.d = true := by simpa [hc, DstCls.ok] using hd
        simp [hS]
    · simp
  | pred => exact absurd hc hp

/-! ### The forms of a cell of the lng path -/

/-- The operation that the lanes of a cell begin. -/
def Cell.flight (c : Cell) (s : State) : FlightKind :=
  .long (Spec.destination s c.dcls c.d) ((s.lanesOf (c.mask s)).map fun l => (l, (Spec.latched c.dcls (c.val s l).1).toNat))
    ((s.lanesOf (c.mask s)).foldl (fun (f : FpFlags) l => f ||| (c.val s l).2) 0)

theorem Cell.runLong_lanes {c : Cell} {s : State} (hd : c.dcls.ok false c.d = true) (hp : c.dcls ≠ .pred) (hu : c.isUniform s = false) :
    c.runLong s = (s.lifted (c.queued s fun l => .reserved s.cur.id (64 * s.cur.nextTag + l)) 5 (c.flight s) (c.mask s) c.codes).finish 0 := by
  have hS : c.dcls ≠ .pred → isS c.d = false := fun _ => isS_of_threadDst hd
  have flags : (c.results s).foldl (fun (f : FpFlags) e => f ||| e.2.2) 0
      = (s.lanesOf (c.mask s)).foldl (fun (f : FpFlags) l => f ||| (c.val s l).2) 0 := by
    rw [Cell.results_eq hS, List.foldl_map]
  rw [Cell.runLong, hu, if_neg (by decide)]
  simp only [flags, Cell.values_eq hS, List.map_map, c.dst_eq s hd hp]
  rfl

theorem Cell.runLong_uniform {c : Cell} {s : State} (hd : c.dcls.ok true c.d = true) (hp : c.dcls ≠ .pred) (hu : c.isUniform s = true) :
    c.runLong s = (s.lifted s 5
      (.long (Spec.destination s c.dcls c.d) [(0, (c.uniformResult s).1.toNat)] (c.uniformResult s).2) 0 []).finish 0 := by
  rw [Cell.runLong, hu, if_pos rfl, c.dst_eq s hd hp]
  rfl

theorem Cell.proceed_room {c : Cell} (hl : c.long = true) {s : State} (hc : s.cur.count 5 < 63) (hpops : c.pops = [])
    (hpush : c.push = none) : c.proceed s = c.runLong s := by
  rw [Cell.proceed_long c s hl (by simp [hpops]) (by simp [hpush]), if_neg (by omega)]

section
variable {c : Cell} {i : Instr} {r : Spec.Row} {d a b : Code} (h : c.Runs i r d a b) (hp : r.dst ≠ .pred)
include h

theorem Cell.Runs.flight (s : State) : c.flight s = .long (Spec.destination s r.dst d.toNat)
    (Spec.heldResults s r.dst fun l => (r.val d a b s l).1) (Spec.allFlags s fun l => (r.val d a b s l).2) := by
  rw [Cell.flight, h.mask, h.val, h.dst, h.code]
  rfl

include hp

theorem Cell.Runs.longThread (hl : c.long = true) {s : State} (hu : s.u = false) (hd : r.dst.ok false d.toNat = true)
    (hport : isPort d.toNat = false) (hs : (r.srcs d a b).all (Src.ok false) = true) (hpops : popsOf (r.srcs d a b) = [])
    (hok : Spec.Sound s (s.lanesOf s.em) (r.srcs d a b)) (hc : s.cur.count 5 < 63) :
    ∃ t, Machine.exec i s = .next t ∧ Spec.Raised s t 5
        (.long (Spec.destination s r.dst d.toNat) (Spec.heldResults s r.dst fun l => (r.val d a b s l).1)
          (Spec.allFlags s fun l => (r.val d a b s l).2)) (fun _ => 0) := by
  have pops : c.pops = [] := h.pops.trans hpops
  have push : c.push = none := h.push.trans (pushOf_none hport)
  have hu' : c.isUniform s = false := by rw [h.isUniform, hu, isS_of_threadDst hd]; rfl
  refine ⟨_, h.exec s, ?_⟩
  rw [h.exec_thread hu hd hs hok, Cell.proceed_room hl hc pops push,
    Cell.runLong_lanes (h.dst ▸ h.code ▸ hd) (h.dst ▸ hp) hu', Cell.queued_noPorts pops push, h.flight]
  exact (launched_lifted (.refl s) ..).raised

theorem Cell.Runs.longUniform (hl : c.long = true) (hfull : r.dst ≠ .w .full) {s : State} (hu : s.u = true)
    (hd : r.dst.ok true d.toNat = true) (hs : (r.srcs d a b).all (Src.ok true) = true) (hok : Spec.Sound s [0] (r.srcs d a b))
    (hc : s.cur.count 5 < 63) :
    ∃ t, Machine.exec i s = .next t ∧ Spec.Raised s t 5
        (.long (Spec.destination s r.dst d.toNat)
          [(0, (if isS d.toNat = true ∨ r.dst = .pair then Spec.extended r.dst (r.val d a b s 0).1
            else (r.val d a b s 0).1 &&& 0xFFFFFFFF).toNat)] (r.val d a b s 0).2) (fun _ => 0) := by
  have result := c.uniformResult_eq s (h.dst ▸ h.code ▸ hd) (h.dst ▸ hp)
  have hu' : c.isUniform s = true := by rw [h.isUniform, hu, Bool.or_true]
  rw [h.dst, h.code, h.val] at result
  simp only [hfull, false_or] at result
  refine ⟨_, h.exec s, ?_⟩
  rw [h.exec_uniform hu hd hp hs hok, Cell.proceed_room hl hc (h.pops.trans (popsOf_uniform hs)) (h.push.trans (pushOf_uniform hd)),
    Cell.runLong_uniform (h.dst ▸ h.code ▸ hd) (h.dst ▸ hp) hu', result, h.dst, h.code]
  exact (launched_lifted (.refl s) ..).raised

theorem Cell.Runs.longPort (hl : c.long = true) {s : State} (hu : s.u = false) (hd : r.dst.ok false d.toNat = true)
    (hs : (r.srcs d a b).all (Src.ok false) = true) (hports : popsOf (r.srcs d a b) ≠ [] ∨ Spec.pushOf r.dst d.toNat ≠ none)
    (h0 : s.cur.id ≠ 0) (hw : s.cur.walking = false) (hc : s.cur.count 5 < 63)
    (hfree : s.rillBlocked s.em (popsOf (r.srcs d a b)) (Spec.pushOf r.dst d.toNat) = none)
    (hok : Spec.Sound s (s.lanesOf s.em) (r.srcs d a b)) :
    ∃ t, Machine.exec i s = .next t
      ∧ t.mem = s.mem ∧ Spec.GoesOn s t.cur s.nextPc (fun _ => 0) ∧ t.cur.rstart = s.nextPc
      ∧ t.cur.flights = s.cur.flights ++ [Spec.newFlight s 5
          (.long (Spec.destination s r.dst d.toNat) (Spec.heldResults s r.dst fun l => (r.val d a b s l).1)
            (Spec.allFlags s fun l => (r.val d a b s l).2))]
      ∧ Spec.QueuesMoved s t s.em (popsOf (r.srcs d a b)) (Spec.pushOf r.dst d.toNat)
          (fun l => .reserved s.cur.id (64 * s.cur.nextTag + l)) := by
  have reads := sameReads_endRegion s
  have touches : (c.pops.isEmpty && c.push.isNone) = false := by
    rw [h.pops, h.push, Bool.and_eq_false_iff, List.isEmpty_eq_false_iff, Option.isNone_eq_false_iff, Option.isSome_iff_ne_none]
    exact hports
  have hfree' : s.rillBlocked (c.mask s) c.pops c.push = none := by rw [h.mask, h.pops, h.push]; exact hfree
  have hu' : c.isUniform s.endRegion = false := by rw [h.isUniform, reads.u, hu, isS_of_threadDst hd]; rfl
  have mask : c.mask s.endRegion = s.em := (h.mask _).trans reads.em
  have moved := c.queued_queuesOnly s.endRegion fun l => .reserved s.endRegion.cur.id (64 * s.endRegion.cur.nextTag + l)
  have done := launched_lifted moved 5 (c.flight s.endRegion) (c.mask s.endRegion) c.codes
  have room : ¬63 ≤ s.cur.count 5 := by omega
  have runs : c.exec s = ((s.endRegion.lifted (c.queued s.endRegion fun l => .reserved s.endRegion.cur.id (64 * s.endRegion.cur.nextTag + l))
      5 (c.flight s.endRegion) (c.mask s.endRegion) c.codes).finish 0).startRegion.progress := by
    rw [h.exec_thread hu hd hs hok, Cell.proceed, hl]
    simp only [Bool.true_and, room, decide_false, Bool.false_eq_true, if_false, if_true, touches]
    rw [throughPorts_of hw hfree', Cell.runLong_lanes (h.dst ▸ h.code ▸ hd) (h.dst ▸ hp) hu']
  have queues : Spec.QueuesMoved s (c.exec s) (c.mask s.endRegion) c.pops c.push
      fun l => .reserved s.endRegion.cur.id (64 * s.endRegion.cur.nextTag + l) := by
    generalize (s.endRegion.lifted _ _ _ _ _).finish 0 = u at runs done
    rw [runs]
    refine Cell.queuesMoved h0 _ ?_ ?_ fun l hl => ?_
    · refine Eq.trans ?_ reads.id
      change u.cur.id = _
      rw [done.group]
    · change u.others = _
      rw [done.rest]
    · have lane : u.startRegion.progress.cur.lane l = u.cur.lane l := rfl
      rw [lane, done.lanes l (reads.threads ▸ hl)]
      exact keepsQueues_shifted (keepsQueues_refl _) _
  generalize (s.endRegion.lifted _ _ _ _ _).finish 0 = u at runs done
  have flight : c.flight s.endRegion = .long (Spec.destination s r.dst d.toNat)
      (Spec.heldResults s r.dst fun l => (r.val d a b s l).1) (Spec.allFlags s fun l => (r.val d a b s l).2) := by
    rw [h.flight, reads.destination, reads.rowVal]
    simp only [Spec.heldResults, Spec.allFlags, reads.em, reads.lanesOf]
  have pc := done.goesOn
  have flights := done.flights
  rw [reads.nextPc] at pc
  rw [flight, reads.newFlight, reads.flights] at flights
  refine ⟨c.exec s, h.exec s, ?_, ?_, ?_, ?_, ?_⟩
  · rw [runs]
    change u.mem = _
    rw [done.rest]
    exact (mem_of_queuesOnly_endRegion moved).1
  · rw [runs]
    exact reads.goesOn (t := s.endRegion) pc
  · rw [runs]
    exact pc.1.1
  · rw [runs]
    exact flights
  · intro g l q x hx hl' hq
    have at_ := queues g l q x hx hl' hq
    rw [mask, h.pops, h.push, reads.id, reads.nextTag] at at_
    exact at_

end

/-- The three forms of a row of the lng path. -/
theorem Cell.Runs.longForms {r : Spec.Row} {c : Code → Code → Code → Cell} (h : ∀ d a b, (c d a b).Runs (r.instr d a b) r d a b)
    (hl : ∀ d a b, (c d a b).long = true) (hp : r.dst ≠ .pred) (hfull : r.dst ≠ .w .full) : r.longForms :=
  ⟨fun d a b _ hu hd hport hs hpops hok hc => (h d a b).longThread hp (hl d a b) hu hd hport hs hpops hok hc,
    fun d a b _ hu hd hs hok hc => (h d a b).longUniform hp (hl d a b) hfull hu hd hs hok hc,
    fun d a b _ hu hd hs hports h0 hw hc hfree hok => (h d a b).longPort hp (hl d a b) hu hd hs hports h0 hw hc hfree hok⟩

/-! ### The rows of R108, R137 and R138 -/

theorem division_longForms {ext : Ext} (hx : ext ≠ .full) {instr : Code → Code → Code → Instr} (f g : Word → Word → Word)
    (hfg : ∀ x y, f x y = g x y) (hexec : ∀ d a b s, Machine.exec (instr d a b) s = .next ((intCellLong d a b ext f).exec s)) :
    (Spec.row2 instr ext 0 g).longForms := by
  obtain rfl : f = g := funext fun x => funext (hfg x)
  refine Cell.Runs.longForms (c := fun d a b => intCellLong d a b ext f)
    (fun d a b => ⟨hexec d a b, rfl, rfl, rfl, rfl, rfl, rfl, fun _ => rfl, rfl⟩) (fun _ _ _ => rfl) (by simp [Spec.row2]) ?_
  simpa [Spec.row2] using hx

theorem divisionsInFlight : Spec.DivisionsInFlight := by
  unfold Spec.DivisionsInFlight Spec.divisionRows
  simp only [List.forall_mem_cons, List.not_mem_nil, false_imp_iff, implies_true, and_true]
  refine ⟨?_, ?_, ?_, ?_⟩
  · exact division_longForms (by decide) divS _ (fun _ _ => rfl) fun _ _ _ _ => rfl
  · exact division_longForms (by decide) divU _ (fun _ _ => rfl) fun _ _ _ _ => rfl
  · exact division_longForms (by decide) remS _ (fun _ _ => rfl) fun _ _ _ _ => rfl
  · exact division_longForms (by decide) remU _ (fun _ _ => rfl) fun _ _ _ _ => rfl

theorem fpDst_ne (f : FFmt) : Spec.fpDst f ≠ .pred ∧ Spec.fpDst f ≠ .w .full := by
  unfold Spec.fpDst
  split <;> simp

theorem float2_longForms (f : FFmt) (g : BitVec 2 → Nat → Nat → Nat × FpFlags) {instr : Code → Code → Code → Instr}
    (hexec : ∀ d a b s, Machine.exec (instr d a b) s = .next (({ fpCell2 f d a b g with long := true } : Cell).exec s)) :
    (Spec.fpRow2 instr f g).longForms :=
  Cell.Runs.longForms (c := fun d a b => { fpCell2 f d a b g with long := true })
    (fun d a b => ⟨hexec d a b, rfl, rfl, rfl, rfl, rfl, rfl, fun _ => rfl, rfl⟩) (fun _ _ _ => rfl) (fpDst_ne f).1 (fpDst_ne f).2

theorem float1_longForms (f : FFmt) (g : BitVec 2 → Nat → Nat × FpFlags) {instr : Code → Code → Instr}
    (hexec : ∀ d a s, Machine.exec (instr d a) s = .next (({ fpCell1 f d a g with long := true } : Cell).exec s)) :
    (Spec.fpRow1 instr f g).longForms :=
  Cell.Runs.longForms (c := fun d a _ => { fpCell1 f d a g with long := true })
    (fun d a _ => ⟨hexec d a, rfl, rfl, rfl, rfl, rfl, rfl, fun _ => rfl, rfl⟩) (fun _ _ _ => rfl) (fpDst_ne f).1 (fpDst_ne f).2

theorem floatInFlight : Spec.FloatInFlight := by
  intro fmt
  unfold Spec.floatLongRows
  simp only [List.forall_mem_cons, List.not_mem_nil, false_imp_iff, implies_true, and_true]
  refine ⟨?_, ?_, ?_, ?_, ?_, ?_, ?_, ?_⟩
  · exact float2_longForms (fmtOf fmt) _ fun _ _ _ _ => rfl
  · exact float1_longForms (fmtOf fmt) _ fun _ _ _ => rfl
  · exact float1_longForms f32 _ fun _ _ _ => rfl
  · exact float1_longForms f32 _ fun _ _ _ => rfl
  · exact float1_longForms f32 _ fun _ _ _ => rfl
  · exact float1_longForms f32 _ fun _ _ _ => rfl
  · exact float1_longForms f32 _ fun _ _ _ => rfl
  · exact float1_longForms f32 _ fun _ _ _ => rfl

/-- Settles O4: each instruction of the lng path is a cell, whose operands cannot make it trap. -/
theorem longLatency : Obligations.LongLatency := ⟨divisionsInFlight, floatInFlight⟩

end Sys2Proof.Machine
end

section
/-! PROOF. Groups by their numbers: what a change of the focus leaves (R182). -/

namespace Sys2Proof.Machine

/-- Every group has a number of its own. -/
def State.Distinct (s : State) : Prop := (s.groups.map (·.id)).Nodup ∧ ∀ g ∈ s.groups, g.id ≠ 0

theorem distinct_of_numbered {s : State} (h : Spec.Numbered s) : s.Distinct := ⟨h.2.1, fun g hg => (h.2.2 g hg).1⟩

theorem distinct_of_perm {s t : State} (hp : t.groups.Perm s.groups) (h : s.Distinct) : t.Distinct :=
  ⟨(hp.map _).nodup_iff.mpr h.1, fun g hg => h.2 g (hp.mem_iff.mp hg)⟩

/-- The numbers of the groups are all that keeps them apart. -/
theorem distinct_of_ids {s t : State} (hi : t.groups.map (·.id) = s.groups.map (·.id)) (h : s.Distinct) : t.Distinct := by
  refine ⟨hi ▸ h.1, fun g hg h0 => ?_⟩
  obtain ⟨x, hx, hx0⟩ := List.mem_map.mp (hi ▸ List.mem_map_of_mem (f := Group.id) hg)
  exact h.2 x hx (hx0.trans h0)

theorem distinct_of_cur {s t : State} (hc : t.cur.id = s.cur.id) (ho : t.others.map (·.id) = s.others.map (·.id))
    (h : s.Distinct) : t.Distinct := by
  refine distinct_of_ids ?_ h
  unfold State.groups
  rw [hc]
  split <;> simp [ho, hc]

theorem group?_eq_some_iff {s : State} (h : s.Distinct) {g : Nat} {x : Group} : s.group? g = some x ↔ x ∈ s.groups ∧ x.id = g := by
  refine ⟨fun e => ⟨mem_of_group? e, id_of_group? e⟩, fun ⟨hm, hid⟩ => ?_⟩
  cases hf : s.group? g with
  | none =>
    have := List.find?_eq_none.mp hf x hm
    simp [hid] at this
  | some y =>
    rw [List.inj_on_of_nodup_map h.1 (mem_of_group? hf) hm ((id_of_group? hf).trans hid.symm)]

theorem group?_of_mem {s : State} (h : s.Distinct) {x : Group} (hx : x ∈ s.groups) : s.group? x.id = some x :=
  (group?_eq_some_iff h).mpr ⟨hx, rfl⟩

theorem group?_of_perm {s t : State} (hp : t.groups.Perm s.groups) (h : s.Distinct) (g : Nat) : t.group? g = s.group? g :=
  Option.ext fun x => by
    rw [group?_eq_some_iff h, group?_eq_some_iff (distinct_of_perm hp h), hp.mem_iff]

theorem groups_of_cur {s : State} (h : s.cur.id ≠ 0) : s.groups = s.cur :: s.others := by simp [State.groups, h]

/-- Of a list with distinct numbers the one with a number, then the others. -/
theorem perm_cons_filter {gs : List Group} (hn : (gs.map (·.id)).Nodup) {x : Group} (hx : x ∈ gs) :
    (x :: gs.filter (·.id != x.id)).Perm gs := by
  induction gs with
  | nil => cases hx
  | cons y rest ih =>
    obtain ⟨hy, hrest⟩ := List.nodup_cons.mp hn
    rcases List.mem_cons.mp hx with rfl | hx
    · have all : rest.filter (·.id != x.id) = rest := List.filter_eq_self.mpr fun z hz => by
        simpa using fun e : z.id = x.id => hy (List.mem_map.mpr ⟨z, hz, e⟩)
      simp [all]
    · have hne : y.id ≠ x.id := fun e => hy (List.mem_map.mpr ⟨x, hx, e.symm⟩)
      rw [List.filter_cons_of_pos (by simpa using hne)]
      exact (List.Perm.swap ..).trans ((ih hrest hx).cons y)

theorem focus_frame (s : State) (g : Nat) : s.focus g = { s with cur := (s.focus g).cur, others := (s.focus g).others } := by
  unfold State.focus
  split
  · rfl
  · split <;> rfl

/-- A change of the focus puts the groups into another order. -/
theorem groups_focus {s : State} (h : s.Distinct) (g : Nat) : (s.focus g).groups.Perm s.groups := by
  unfold State.focus
  split
  · rfl
  · next hg =>
    cases hx : s.group? g with
    | none => exact List.Perm.of_eq rfl
    | some x =>
      obtain ⟨hm, rfl⟩ := (group?_eq_some_iff h).mp hx
      have split_ := perm_cons_filter h.1 hm
      have nz : x.id ≠ 0 := h.2 x hm
      refine List.Perm.trans ?_ split_
      simp only [State.groups, nz, if_false, List.cons_append, List.nil_append, List.filter_append]
      refine List.Perm.cons x (List.perm_append_comm.trans ?_)
      split
      · exact .refl _
      · rw [List.filter_cons_of_pos (by simpa using hg)]
        exact .refl _

theorem distinct_focus {s : State} (h : s.Distinct) (g : Nat) : (s.focus g).Distinct := distinct_of_perm (groups_focus h g) h

theorem group?_focus {s : State} (h : s.Distinct) (g k : Nat) : (s.focus g).group? k = s.group? k := group?_of_perm (groups_focus h g) h k

theorem cur_focus {s : State} {g : Nat} {x : Group} (hx : s.group? g = some x) (h : s.Distinct) : (s.focus g).cur = x := by
  obtain ⟨hm, rfl⟩ := (group?_eq_some_iff h).mp hx
  unfold State.focus
  split
  · next e =>
    exact Option.some.inj ((group?_cur (e ▸ h.2 x hm)).symm.trans (e ▸ hx))
  · rw [hx]

/-! ### Changes of every group -/

theorem distinct_mapGroups {s : State} (h : s.Distinct) {p : Group → Bool} {f : Group → Group} (hf : ∀ x, (f x).id = x.id) :
    (s.mapGroups p f).Distinct := by
  refine distinct_of_ids ?_ h
  rw [groups_mapGroups hf, List.map_map]
  refine List.map_congr_left fun x _ => ?_
  simp only [Function.comp]
  split
  · exact hf x
  · rfl

end Sys2Proof.Machine
end

section
/-! PROOF. How a pipe passes: the group that takes it, the cycles that ready groups count, and `YIELD` (R182, R204, R410, R411). -/

namespace Sys2Proof.Machine

/-! ### The focus moves to the group that takes the pipe -/

/-- A group counts the cycles until group `g` takes its pipe: it is ready, of that pipe, and does not hold it (R411). -/
def State.countsUntil (s : State) (g x : Group) : Bool := x.id != (s.holder g.pipeKey).1 && x.pipeKey == g.pipeKey && s.readyNow x

/-- A group once it has counted them. -/
def State.countedUntil (s : State) (g x : Group) : Group :=
  if s.countsUntil g x then x.countCycles stallChosen (BitVec.ofNat 64 (Config.elapsed s.draws)) else x

theorem countedUntil_stalls (s : State) (g x : Group) :
    s.countedUntil g x = { x with stalls := (s.countedUntil g x).stalls } := by
  unfold State.countedUntil
  split <;> rfl

theorem countedUntil_id (s : State) (g x : Group) : (s.countedUntil g x).id = x.id := by rw [countedUntil_stalls]

/-- The holder of the pipe counts nothing. -/
theorem countedUntil_holder {s : State} {g x : Group} (h : (s.holder g.pipeKey).1 = x.id) : s.countedUntil g x = x := by
  rw [State.countedUntil, State.countsUntil, h, bne_self_eq_false]
  rfl

/-- The state before the focus moves. -/
def State.allCounted (s : State) (g : Group) : State :=
  s.mapGroups (s.countsUntil g) fun x => x.countCycles stallChosen (BitVec.ofNat 64 (Config.elapsed s.draws))

theorem takePipe_eq (s : State) (g : Group) :
    s.takePipe g = { (s.allCounted g).focus g.id with draws := s.draws + 1, burst := 0 } := rfl

section
variable {s : State} (h : s.Distinct)
include h

theorem distinct_allCounted (g : Group) : (s.allCounted g).Distinct := distinct_mapGroups h fun _ => rfl

omit h in
theorem group?_allCounted (g : Group) (k : Nat) : (s.allCounted g).group? k = (s.group? k).map (s.countedUntil g) :=
  group?_mapGroups (s := s) (p := s.countsUntil g)
    (f := fun x => x.countCycles stallChosen (BitVec.ofNat 64 (Config.elapsed s.draws))) (fun _ => rfl) k

theorem group?_takePipe (g : Group) (k : Nat) : (s.takePipe g).group? k = (s.group? k).map (s.countedUntil g) :=
  (group?_focus (distinct_allCounted h g) g.id k).trans (group?_allCounted g k)

theorem cur_takePipe {g : Group} (hg : g ∈ s.groups) : (s.takePipe g).cur = s.countedUntil g g :=
  cur_focus (s := s.allCounted g) (by rw [group?_allCounted, group?_of_mem h hg]; rfl) (distinct_allCounted h g)

omit h in
/-- Nothing but groups and the moment changes. -/
theorem takePipe_frame (g : Group) :
    s.takePipe g = { s with cur := (s.takePipe g).cur, others := (s.takePipe g).others, draws := s.draws + 1, burst := 0 } := by
  rw [takePipe_eq, focus_frame]
  rfl

end

theorem pipeChoices : Spec.PipeChoices := by
  intro s g x hn hx he
  have hd := distinct_of_numbered hn
  obtain ⟨hm, rfl⟩ := (group?_eq_some_iff hd).mp hx
  refine ⟨s.takePipe x, ?_, ?_, takePipe_frame x, fun k y hy => ⟨s.countedUntil x y, ?_, countedUntil_stalls s x y, fun quiet => ?_⟩⟩
  · have : exec (.groupIssueChoice x.id) s = Out.ofOption "GROUP_ISSUE_CHOICE" (s.chooseGroup x.id) := rfl
    rw [this, State.chooseGroup, hx]
    simp only [he, if_true, Out.ofOption]
  · rw [cur_takePipe hd hm, countedUntil_id]
  · rw [group?_takePipe hd, hy]
    rfl
  · have not_counted : s.countsUntil x y = false := by
      rw [State.countsUntil, id_of_group? hy]
      rcases quiet with hr | hk | hh
      · simp [hr]
      · simp [hk]
      · simp [hh]
    rw [State.countedUntil, not_counted]
    rfl

/-! ### The pipe passes (R204) -/

theorem mem_of_oldestOf {s : State} {gs : List Group} {g : Group} (h : s.oldestOf gs = some g) : g ∈ gs := by
  induction gs generalizing g with
  | nil => cases h
  | cons x rest ih =>
    rw [State.oldestOf] at h
    cases hr : s.oldestOf rest with
    | none =>
      rw [hr] at h
      obtain rfl := Option.some.inj h
      exact List.mem_cons_self
    | some y =>
      rw [hr] at h
      dsimp only at h
      split at h <;> obtain rfl := Option.some.inj h
      · exact List.mem_cons_of_mem _ (ih hr)
      · exact List.mem_cons_self

theorem mem_rivals {s : State} {g x : Group} (h : x ∈ s.rivals g) : x ∈ s.groups ∧ x.id ≠ g.id ∧ x.pipeKey = g.pipeKey := by
  obtain ⟨hm, hp⟩ := List.mem_filter.mp h
  simp only [Bool.and_eq_true, bne_iff_ne, beq_iff_eq] at hp
  exact ⟨hm, hp.1.1, hp.1.2⟩

section
variable {s : State} (hd : s.Distinct) {g : Group} (hm : g ∈ s.groups) (key : g.pipeKey = s.cur.pipeKey)
include hd hm key

/-- The pipe has passed from the group in focus, which is as before where it was the holder. -/
theorem passPipe_spec :
    (s.passPipe g).holder s.cur.pipeKey = (g.id, 0) ∧ (s.passPipe g).cur = s.countedUntil g g
      ∧ (s.cur.id ≠ 0 → (s.passPipe g).group? s.cur.id = some (s.countedUntil g s.cur))
      ∧ s.passPipe g = { s with cur := (s.passPipe g).cur, others := (s.passPipe g).others, pipes := (s.passPipe g).pipes,
                                draws := s.draws + 1, burst := 0 } := by
  refine ⟨?_, cur_takePipe hd hm, fun h0 => ?_, ?_⟩
  · rw [← key]
    exact sget_sset_same _ _ _ _
  · exact (group?_takePipe hd g s.cur.id).trans (by rw [group?_cur h0]; rfl)
  · rw [State.passPipe, takePipe_frame]

end

/-- The group in focus has ended its instruction, as a switch point. -/
def State.yielded (s : State) : State := (s.finish 0).modCur fun g => { g with switch := true }

/-- The pipe passes to the next group, if there is one. -/
def State.passOn (s : State) : State :=
  match s.pipeNext with
  | some g => s.passPipe g
  | none => s

theorem exec_yield {s : State} (hu : s.u = true) : exec .yield s = .next s.yielded.passOn := by
  have run : exec .yield s = .next (s.uniformOp [] fun s => s.yielded.passOn) := rfl
  rw [run, State.uniformOp, hu]
  rfl

/-- The group that yields holds its pipe. -/
theorem holder_yielded (s : State) : (s.yielded.holder s.cur.pipeKey).1 = s.cur.id :=
  congrArg Prod.fst (sget_sset_same _ _ _ _)

theorem ended_finish (s : State) : Spec.Ended s (s.finish 0) s.cur s.nextPc fun _ => 0 := by
  have ended : AtEnd s s := ⟨rfl, rfl, rfl, rfl, rfl, rfl, fun _ _ => ⟨rfl, rfl, rfl⟩⟩
  refine ⟨rfl, ended.goesOn _ _, rfl, fun l hl => ?_⟩
  rw [State.finish, lane_finishAt _ _ _ _ hl]
  exact ⟨rfl, rfl, keepsQueues_shifted (keepsQueues_refl _) _⟩

/-- The pipe of a group that holds it passes to the ready group whose last issue is oldest, if there is one. -/
theorem passOn_spec {y : State} (hd : y.Distinct) (h0 : y.cur.id ≠ 0) (hh : (y.holder y.cur.pipeKey).1 = y.cur.id) :
    match y.pipeNext with
    | none => y.passOn = y
    | some g => y.cur ∈ y.passOn.groups ∧ g.id ≠ y.cur.id ∧ g.pipeKey = y.cur.pipeKey ∧ (∃ x, y.passOn.cur = { g with stalls := x })
        ∧ y.passOn.holder y.cur.pipeKey = (g.id, 0)
        ∧ y.passOn = { y with cur := y.passOn.cur, others := y.passOn.others, pipes := y.passOn.pipes, draws := y.draws + 1,
                              burst := 0 } := by
  unfold State.passOn
  cases hp : y.pipeNext with
  | none => rfl
  | some g =>
    obtain ⟨hm, hid, key⟩ := mem_rivals (mem_of_oldestOf hp)
    obtain ⟨holds, cur, own, frame⟩ := passPipe_spec hd hm key
    have kept : y.countedUntil g y.cur = y.cur := countedUntil_holder (key ▸ hh)
    exact ⟨mem_of_group? (kept ▸ own h0), hid, key, ⟨_, cur.trans (countedUntil_stalls ..)⟩, holds, frame⟩

theorem yielded_spec (s : State) :
    s.yielded.cur.id = s.cur.id ∧ s.yielded.cur.pipeKey = s.cur.pipeKey ∧ s.yielded.others = s.others := by
  have cur : s.yielded.cur = { (s.finish 0).cur with switch := true } := rfl
  have frame : s.yielded.others = (s.finish 0).others := rfl
  rw [frame, cur, State.finish, finishAt_spec]
  exact ⟨rfl, rfl, rfl⟩

theorem yieldPassesThePipe : Spec.YieldPassesThePipe := by
  intro s hu h0 hn
  obtain ⟨id, pipe, others⟩ := yielded_spec s
  have passed := passOn_spec (distinct_of_cur id (by rw [others]) (distinct_of_numbered hn)) (id.trans_ne h0)
    (by rw [pipe, id, holder_yielded])
  rw [pipe, id] at passed
  exact ⟨s.finish 0, s.yielded.passOn, ended_finish s, exec_yield hu, passed⟩

end Sys2Proof.Machine
end

section
/-! PROOF. What the memory system changes: memory, copies and what goes with them, and of the groups nothing but monitors that fire (R236 to
R247, R252, R266, R267, R274). -/

namespace Sys2Proof.Machine

/-! ### Groups but for monitors (R274) -/

theorem asBefore_refl (x : Group) : Spec.AsBefore x x := .inl rfl

theorem asBefore_trans {x y z : Group} (h : Spec.AsBefore x y) (k : Spec.AsBefore y z) : Spec.AsBefore x z := by
  rcases h with rfl | ⟨line, scope, entry, hw, rfl⟩
  · exact k
  · rcases k with rfl | ⟨_, _, _, hf, -⟩
    · exact .inr ⟨line, scope, entry, hw, rfl⟩
    · cases hf

theorem groupsStay_refl (s : State) : Spec.GroupsStay s s := ⟨asBefore_refl _, List.forall₂_same.mpr fun x _ => asBefore_refl x⟩

theorem groupsStay_trans {s t u : State} (h : Spec.GroupsStay s t) (k : Spec.GroupsStay t u) : Spec.GroupsStay s u :=
  ⟨asBefore_trans h.1 k.1, forall₂_trans (R := Spec.AsBefore) (fun _ _ _ => asBefore_trans) h.2 k.2⟩

theorem asBefore_monitor (x : Group) (line : Nat) (hit : Nat → Nat → Bool) : Spec.AsBefore x (x.monitor line hit) := by
  unfold Group.monitor
  split
  · next l scope entry fired hw =>
    split
    · cases fired
      · exact .inr ⟨l, scope, entry, hw, rfl⟩
      · exact .inl (by rw [← hw])
    · exact asBefore_refl x
  · exact asBefore_refl x

theorem asBefore_fields {x y : Group} (h : Spec.AsBefore x y) :
    y.id = x.id ∧ y.pc = x.pc ∧ y.threads = x.threads ∧ y.pipeKey = x.pipeKey := by
  rcases h with rfl | ⟨_, _, _, _, rfl⟩ <;> exact ⟨rfl, rfl, rfl, rfl⟩

theorem forall₂_groups {s t : State} (h : Spec.GroupsStay s t) : List.Forall₂ Spec.AsBefore s.groups t.groups := by
  unfold State.groups
  rw [(asBefore_fields h.1).1]
  split
  · exact h.2
  · exact .cons h.1 h.2

theorem find?_forall₂ {xs ys : List Group} (h : List.Forall₂ Spec.AsBefore xs ys) {g : Nat} {x : Group}
    (hx : xs.find? (·.id == g) = some x) : ∃ y, ys.find? (·.id == g) = some y ∧ Spec.AsBefore x y := by
  induction h with
  | nil => cases hx
  | cons hd _ ih =>
    rw [List.find?_cons] at hx ⊢
    rw [(asBefore_fields hd).1]
    split at hx
    · cases hx
      exact ⟨_, rfl, hd⟩
    · exact ih hx

/-- A group is still there, but for a monitor that may have fired. -/
theorem group?_stay {s t : State} (h : Spec.GroupsStay s t) {g : Nat} {x : Group} (hx : s.group? g = some x) :
    ∃ y, t.group? g = some y ∧ Spec.AsBefore x y := find?_forall₂ (forall₂_groups h) hx

theorem ids_of_forall₂ {xs ys : List Group} (h : List.Forall₂ Spec.AsBefore xs ys) : ys.map (·.id) = xs.map (·.id) := by
  induction h with
  | nil => rfl
  | cons hd _ ih => rw [List.map_cons, List.map_cons, ih, (asBefore_fields hd).1]

/-! ### The memory side of the machine -/

/-- Nothing but memory, its copies, what they have held, writer masks, write buffers and the host's lines has changed, and of groups
nothing but monitors. -/
def MemoryMoved (s t : State) : Prop :=
  t = { s with cur := t.cur, others := t.others, mem := t.mem, poison := t.poison, writeBuf := t.writeBuf, copies := t.copies,
               past := t.past, writers := t.writers, hostLines := t.hostLines, hostCopies := t.hostCopies }
    ∧ Spec.GroupsStay s t

theorem memoryMoved_refl (s : State) : MemoryMoved s s := ⟨rfl, groupsStay_refl s⟩

theorem MemoryMoved.trans {s t u : State} (h : MemoryMoved s t) (k : MemoryMoved t u) : MemoryMoved s u := by
  refine ⟨?_, groupsStay_trans h.2 k.2⟩
  rw [k.1, h.1]

theorem memoryMoved_foldl {β : Type} (f : State → β → State) (hf : ∀ s b, MemoryMoved s (f s b)) (bs : List β) (s : State) :
    MemoryMoved s (bs.foldl f s) := by
  induction bs generalizing s with
  | nil => exact memoryMoved_refl s
  | cons b rest ih => exact (hf s b).trans (ih _)

/-- A change of fields of the memory side alone. -/
theorem memoryMoved_fields {s t : State}
    (h : t = { s with mem := t.mem, poison := t.poison, writeBuf := t.writeBuf, copies := t.copies, past := t.past,
                      writers := t.writers, hostLines := t.hostLines, hostCopies := t.hostCopies }) : MemoryMoved s t := by
  rw [h]
  exact ⟨rfl, groupsStay_refl s⟩

/-! ### Every operation of memory moves the memory side alone -/

theorem memoryMoved_writeHome (s : State) (line : Nat) (mask : BitVec 64) (data : BitVec 512) :
    MemoryMoved s (s.writeHome line mask data) := by
  unfold State.writeHome
  refine MemoryMoved.trans (t := { s with hostLines := _ }) (memoryMoved_fields rfl) (memoryMoved_foldl _ (fun t i => ?_) _ _)
  split
  · exact memoryMoved_fields rfl
  · exact memoryMoved_refl t

theorem memoryMoved_touch (s : State) (line : Nat) : MemoryMoved s (s.touch line) := by
  unfold State.touch
  dsimp only
  split
  · exact memoryMoved_refl s
  · exact memoryMoved_fields rfl

theorem memoryMoved_putHome (s : State) (line : Nat) (mask : BitVec 64) (data : BitVec 512) (q : Bool) :
    MemoryMoved s (s.putHome line mask data q) := by
  have written := (memoryMoved_touch s line).trans (memoryMoved_writeHome _ line mask data)
  unfold State.putHome
  generalize (s.touch line).writeHome line mask data = t at written
  exact written.trans (memoryMoved_fields rfl)

theorem memoryMoved_remember (s : State) (line : Nat) : MemoryMoved s (s.remember line) := memoryMoved_fields rfl

theorem memoryMoved_takeFromHost (s : State) (line : Nat) : MemoryMoved s (s.takeFromHost line) := by
  unfold State.takeFromHost
  split
  · exact memoryMoved_refl s
  · refine MemoryMoved.trans ?_ (memoryMoved_putHome ..)
    exact (memoryMoved_remember s line).trans (memoryMoved_fields rfl)

theorem memoryMoved_notify (s : State) (line : Nat) (hit : Nat → Nat → Bool) : MemoryMoved s (s.notify line hit) := by
  refine ⟨rfl, asBefore_monitor .., ?_⟩
  simp only [State.notify, List.forall₂_map_right_iff]
  exact List.forall₂_same.mpr fun x _ => asBefore_monitor ..

theorem memoryMoved_dropCopies (s : State) (p : Copy → Bool) : MemoryMoved s (s.dropCopies p) := by
  have fired := memoryMoved_foldl (fun (t : State) (c : Copy) => (t.remember c.line).notify c.line c.atPoint)
    (fun t c => (memoryMoved_remember t c.line).trans (memoryMoved_notify ..)) (s.copies.filter p) s
  unfold State.dropCopies
  generalize (s.copies.filter p).foldl _ s = t at fired
  exact fired.trans (memoryMoved_fields rfl)

theorem memoryMoved_keepPins (s old : State) (line : Nat) : MemoryMoved s (s.keepPins old line) := by
  refine memoryMoved_foldl _ (fun t c => ?_) _ _
  split
  · exact memoryMoved_refl t
  · exact memoryMoved_fields rfl

theorem memoryMoved_gather (s : State) (a : Agent) (x line : Nat) : MemoryMoved s (s.gather a x line) := by
  unfold State.gather
  dsimp only
  split
  · exact (((memoryMoved_remember s line).trans (memoryMoved_foldl _ (fun t c => memoryMoved_putHome ..) _ _)).trans
      (memoryMoved_dropCopies ..)).trans (memoryMoved_notify ..)
  · exact memoryMoved_refl s

theorem memoryMoved_performHome (s : State) (a : Agent) (line : Nat) (mask : BitVec 64) (data : BitVec 512) (p : Bool) :
    MemoryMoved s (s.performHome a line mask data p) := by
  unfold State.performHome
  dsimp only
  refine MemoryMoved.trans (MemoryMoved.trans ?_ (memoryMoved_notify ..)) (memoryMoved_keepPins ..)
  exact ((((memoryMoved_gather s a 7 line).trans (memoryMoved_remember ..)).trans (memoryMoved_putHome ..)).trans
    (memoryMoved_dropCopies ..)).trans (memoryMoved_fields rfl)

theorem memoryMoved_reachPoint (s : State) (a : Agent) (scope x line : Nat) (v : Arrival) :
    MemoryMoved s (s.reachPoint a scope x line v) := by
  unfold State.reachPoint
  dsimp only
  refine MemoryMoved.trans ?_ (memoryMoved_notify ..)
  have dropped := fun p => (memoryMoved_remember s line).trans (memoryMoved_dropCopies _ p)
  split
  · exact ((dropped _).trans (memoryMoved_fields rfl)).trans (memoryMoved_putHome ..)
  · split
    · exact (dropped _).trans (memoryMoved_fields rfl)
    · exact (dropped _).trans (memoryMoved_fields rfl)

theorem memoryMoved_performAt (s : State) (a : Agent) (scope line : Nat) (mask : BitVec 64) (data : BitVec 512) (p : Bool) :
    MemoryMoved s (s.performAt a scope line mask data p) := by
  unfold State.performAt
  dsimp only
  generalize Arrival.add _ mask data p = v
  split
  · exact memoryMoved_refl s
  · exact (((memoryMoved_touch ..).trans (memoryMoved_gather ..)).trans (memoryMoved_reachPoint ..)).trans (memoryMoved_keepPins ..)

theorem memoryMoved_pushOutward (s : State) (c : Copy) : MemoryMoved s (s.pushOutward c) := by
  unfold State.pushOutward
  refine MemoryMoved.trans ?_ (memoryMoved_dropCopies ..)
  split
  · exact memoryMoved_refl s
  · exact memoryMoved_performAt ..

theorem memoryMoved_makeRoom3 (s : State) (unit line : Nat) : MemoryMoved s (s.makeRoom3 unit line) := by
  unfold State.makeRoom3
  split
  · exact memoryMoved_pushOutward ..
  · exact memoryMoved_refl s

theorem memoryMoved_roomBeyond2 (s : State) (c : Copy) : MemoryMoved s (s.roomBeyond2 c) := by
  unfold State.roomBeyond2
  split
  · exact memoryMoved_refl s
  · exact memoryMoved_makeRoom3 ..

theorem memoryMoved_makeRoom2 (s : State) (unit line : Nat) : MemoryMoved s (s.makeRoom2 unit line) := by
  unfold State.makeRoom2
  split
  · exact (memoryMoved_roomBeyond2 ..).trans (memoryMoved_pushOutward ..)
  · exact memoryMoved_refl s

theorem memoryMoved_roomBeyond1 (s : State) (c : Copy) : MemoryMoved s (s.roomBeyond1 c) := by
  unfold State.roomBeyond1
  split
  · exact memoryMoved_refl s
  · exact memoryMoved_makeRoom2 ..

theorem memoryMoved_makeRoom1 (s : State) (unit line : Nat) : MemoryMoved s (s.makeRoom1 unit line) := by
  unfold State.makeRoom1
  split
  · exact (memoryMoved_roomBeyond1 ..).trans (memoryMoved_pushOutward ..)
  · exact memoryMoved_refl s

theorem memoryMoved_makeRoom (s : State) (a : Agent) (level line : Nat) : MemoryMoved s (s.makeRoom a level line) := by
  unfold State.makeRoom
  split
  · exact memoryMoved_refl s
  · split
    · exact memoryMoved_makeRoom1 ..
    · split
      · exact memoryMoved_makeRoom2 ..
      · exact memoryMoved_makeRoom3 ..

theorem memoryMoved_perform (s : State) (a : Agent) (scope : Nat) (home : Home) (line : Nat) (mask : BitVec 64) (data : BitVec 512)
    (p : Bool) : MemoryMoved s (s.perform a scope home line mask data p) := by
  unfold State.perform
  split
  · exact memoryMoved_performHome ..
  · refine MemoryMoved.trans ?_ (memoryMoved_performAt ..)
    split
    · exact memoryMoved_makeRoom ..
    · exact memoryMoved_refl s

theorem memoryMoved_storeBytes (s : State) (a : Agent) (scope : Nat) (home : Home) (pa n x : Nat) :
    MemoryMoved s (s.storeBytes a scope home pa n x) := memoryMoved_perform ..

theorem memoryMoved_keepLine (s : State) (core scope line : Nat) : MemoryMoved s (s.keepLine core scope line) := by
  unfold State.keepLine
  split
  · exact memoryMoved_refl s
  · exact (memoryMoved_makeRoom1 ..).trans (memoryMoved_fields rfl)

theorem memoryMoved_performEntry (s : State) (e : WriteEntry) (scope : Nat) : MemoryMoved s (s.performEntry e scope) := by
  unfold State.performEntry
  dsimp only
  split
  · exact memoryMoved_perform ..
  · exact (memoryMoved_perform ..).trans (memoryMoved_keepLine ..)

theorem memoryMoved_pushOut (s : State) (core scope : Nat) : MemoryMoved s (s.pushOut core scope) := by
  unfold State.pushOut
  dsimp only
  exact ((memoryMoved_fields rfl).trans (memoryMoved_foldl _ (fun t e => memoryMoved_performEntry ..) _ _)).trans
    (memoryMoved_foldl _ (fun t l => memoryMoved_perform ..) _ _)

theorem memoryMoved_acquire (s : State) (scope : Nat) : MemoryMoved s (s.acquire scope) := by
  unfold State.acquire
  split
  · exact memoryMoved_refl s
  · exact ((memoryMoved_pushOut ..).trans (memoryMoved_dropCopies ..)).trans
      (memoryMoved_foldl _ (fun t l => memoryMoved_keepPins ..) _ _)

/-! ### Translations -/

/-- Beside the memory side, what a translation leaves behind: cached translations, what the access waits for, and pin overflows. -/
def Settled (s t : State) : Prop :=
  t = { s with cur := t.cur, others := t.others, mem := t.mem, poison := t.poison, writeBuf := t.writeBuf, copies := t.copies,
               past := t.past, writers := t.writers, hostLines := t.hostLines, hostCopies := t.hostCopies,
               dies := t.dies, tableLines := t.tableLines, pulls := t.pulls, atsMiss := t.atsMiss }
    ∧ Spec.GroupsStay s t

theorem settled_refl (s : State) : Settled s s := ⟨rfl, groupsStay_refl s⟩

theorem Settled.trans {s t u : State} (h : Settled s t) (k : Settled t u) : Settled s u := by
  refine ⟨?_, groupsStay_trans h.2 k.2⟩
  rw [k.1, h.1]

theorem MemoryMoved.settled {s t : State} (h : MemoryMoved s t) : Settled s t := by
  refine ⟨?_, h.2⟩
  rw [h.1]

theorem settled_fields {s t : State}
    (h : t = { s with copies := t.copies, dies := t.dies, tableLines := t.tableLines, pulls := t.pulls, atsMiss := t.atsMiss }) :
    Settled s t := by
  rw [h]
  exact ⟨rfl, groupsStay_refl s⟩

theorem settled_foldl {β : Type} (f : State → β → State) (hf : ∀ s b, Settled s (f s b)) (bs : List β) (s : State) :
    Settled s (bs.foldl f s) := by
  induction bs generalizing s with
  | nil => exact settled_refl s
  | cons b rest ih => exact (hf s b).trans (ih _)

theorem settled_pinLine (s : State) (line entryPa : Nat) : Settled s (s.pinLine line entryPa) := by
  have unpinned : Settled s s.unpin := settled_fields rfl
  unfold State.pinLine
  dsimp only
  split
  · exact unpinned
  · split
    · exact (unpinned.trans (memoryMoved_makeRoom3 ..).settled).trans (settled_fields rfl)
    · exact unpinned.trans (settled_fields rfl)

theorem settled_setAD (s : State) (a : Agent) (acc : Access) (entryPa : Nat) (e : DWord) : Settled s (s.setAD a acc entryPa e) := by
  unfold State.setAD
  split
  · exact settled_refl s
  · exact (memoryMoved_storeBytes ..).settled

theorem settled_settle (s : State) (a : Agent) (desc : CtxDesc) (r : LaunchRec) (acc : Access) (va : DWord) :
    Settled s (s.settle a desc r acc va) := by
  unfold State.settle
  split
  · next p _ =>
    dsimp only
    have table : Settled s { s with tableLines := p.tbl.foldl (fun acc l => ninsert l acc) s.tableLines } := settled_fields rfl
    split
    · refine (table.trans ?_).trans (settled_setAD ..)
      split
      · exact settled_pinLine ..
      · exact settled_refl _
    · exact table
  · unfold State.noteAts
    split
    · exact settled_refl s
    · exact settled_fields rfl
  · split
    · exact settled_refl s
    · exact settled_fields rfl
  · exact settled_refl s
  · exact settled_refl s

end Sys2Proof.Machine
end

section
/-! PROOF. O44: a run that ends passes its pipe to the ready group whose last issue is oldest (R410). -/

namespace Sys2Proof.Machine

/-! ### Fetching changes no group (R164) -/

theorem settled_fetchAt {s t : State} {src : Nat} {va : DWord} {n : Nat} {bs : List Byte} (h : s.fetchAt src va n = .ok bs t) :
    Settled s t := by
  unfold State.fetchAt at h
  dsimp only at h
  split at h
  · cases h
  · split at h
    · cases h
    · cases h
    · cases h
    · cases h
    · split at h
      · cases h
      · cases h
        exact settled_settle ..

theorem settled_fetchWord {s t : State} {src : Nat} {pc : DWord} {w : Word} {half : Half} (h : s.fetchWord src pc = .ok w half t) :
    Settled s t := by
  unfold State.fetchWord at h
  split at h
  · next first =>
    split at h
    · next second =>
      cases h
      exact (settled_fetchAt first).trans (settled_fetchAt second)
    · cases h
  · cases h

theorem settled_fetchInstr {s t : State} {w : Word} {slot : IssueSlot} (h : s.fetchInstr = .ok w slot t) : Settled s t := by
  unfold State.fetchInstr at h
  split at h
  · cases h
    exact settled_refl s
  · unfold State.fetchNew at h
    split at h
    · cases h
    · next first =>
      split at h
      · split at h
        · cases h
        · next second =>
          cases h
          exact (settled_fetchWord first).trans (settled_fetchWord second)
      · cases h
        exact settled_fetchWord first

/-! ### The instruction comes to issue -/

/-- The group in focus comes to its instruction, and nothing outside it changes but the issue slot, the moment and the core's cycles. -/
theorem begin_spec (s : State) (w : Word) (slot : IssueSlot) :
    s.begin w slot = { s with cur := (s.begin w slot).cur, issue := slot, draws := s.draws + 1, cycles := (s.begin w slot).cycles }
      ∧ (s.begin w slot).cur.id = s.cur.id ∧ (s.begin w slot).cur.pc = s.cur.pc ∧ (s.begin w slot).cur.threads = s.cur.threads
      ∧ (s.begin w slot).cur.pipeKey = s.cur.pipeKey := by
  unfold State.begin
  dsimp only
  split
  · refine ⟨rfl, ?_⟩
    simp only [modCur_cur]
    split <;> exact ⟨rfl, rfl, rfl, rfl⟩
  · refine ⟨rfl, ?_⟩
    simp only [modCur_cur]
    split <;> exact ⟨rfl, rfl, rfl, rfl⟩

/-! ### The oldest of a list of groups -/

theorem lastIssue_le_of_goesBefore {s : State} {g h : Group} (hb : s.goesBefore g h = true) : g.lastIssue ≤ h.lastIssue := by
  simp only [State.goesBefore, Bool.or_eq_true, Bool.and_eq_true, decide_eq_true_eq, beq_iff_eq] at hb
  omega

theorem lastIssue_le_of_not_goesBefore {s : State} {g h : Group} (hb : s.goesBefore g h = false) : h.lastIssue ≤ g.lastIssue := by
  simp only [State.goesBefore, Bool.or_eq_false_iff, decide_eq_false_iff_not] at hb
  omega

theorem oldestOf_eq_none {s : State} {gs : List Group} (h : s.oldestOf gs = none) : gs = [] := by
  cases gs with
  | nil => rfl
  | cons x rest =>
    rw [State.oldestOf] at h
    split at h
    · cases h
    · split at h <;> cases h

theorem lastIssue_oldestOf {s : State} {gs : List Group} {g : Group} (h : s.oldestOf gs = some g) :
    ∀ x ∈ gs, g.lastIssue ≤ x.lastIssue := by
  induction gs generalizing g with
  | nil => cases h
  | cons y rest ih =>
    rw [State.oldestOf] at h
    rw [List.forall_mem_cons]
    split at h
    · next none =>
      cases h
      exact ⟨le_refl _, by simp [oldestOf_eq_none none]⟩
    · next o some =>
      split at h
      · next before =>
        cases h
        exact ⟨lastIssue_le_of_goesBefore before, ih some⟩
      · next before =>
        cases h
        have le := lastIssue_le_of_not_goesBefore (by simpa using before)
        exact ⟨le_refl _, fun x hx => le_trans le (ih some x hx)⟩

/-! ### The run ends -/

/-- The group in focus stalls at issue, and its pipe passes to another group of it. -/
theorem yieldTo_spec {u : State} (hd : u.Distinct) {g : Group} (hm : g ∈ u.groups) (hid : g.id ≠ u.cur.id)
    (key : g.pipeKey = u.cur.pipeKey) (h0 : u.cur.id ≠ 0) :
    (u.yieldTo g).mem = u.mem ∧ (u.yieldTo g).teams = u.teams ∧ (u.yieldTo g).cur.id = g.id
      ∧ (u.yieldTo g).holder u.cur.pipeKey = (g.id, 0)
      ∧ ∃ y, (u.yieldTo g).group? u.cur.id = some y ∧ y.pc = u.cur.pc ∧ y.wait = .retry ∧ y.switch = true
          ∧ y.threads = u.cur.threads := by
  have stalls : ∃ counts, u.stall stallChosen = { u with cur := { u.cur with
      stalls := counts, wait := .retry, switch := true, latches := 0, stalled := stallChosen, hold := .cause } } := ⟨_, rfl⟩
  obtain ⟨counts, hs⟩ := stalls
  unfold State.yieldTo
  generalize u.stall stallChosen = x at hs
  have id : x.cur.id = u.cur.id := by rw [hs]
  have pipe : x.cur.pipeKey = u.cur.pipeKey := by rw [hs]; rfl
  have hx : x.Distinct := distinct_of_ids (by rw [hs]; simp [State.groups, h0]) hd
  have hmx : g ∈ x.groups := by
    rw [groups_of_cur h0] at hm
    rw [groups_of_cur (id.trans_ne h0), hs]
    exact List.mem_cons_of_mem _ ((List.mem_cons.mp hm).resolve_left fun e => hid (e ▸ rfl))
  obtain ⟨holds, cur, own, frame⟩ := passPipe_spec hx hmx (key.trans pipe.symm)
  refine ⟨?_, ?_, ?_, pipe ▸ holds, x.countedUntil g x.cur, id ▸ own (id.trans_ne h0), ?_⟩
  · rw [frame, hs]
  · rw [frame, hs]
  · rw [cur, countedUntil_id]
  · rw [countedUntil_stalls, hs]
    exact ⟨rfl, rfl, rfl, rfl⟩

/-- The run of the group in focus is over, and another group of its pipe is ready. -/
theorem endRun_eq {s t : State} {w : Word} {slot : IssueSlot} {g : Group} (hb : s.before = none) (hf : s.fetchInstr = .ok w slot t)
    (hw : (t.begin w slot).waitsOn = none) (hbar : (t.begin w slot).waitsBar = none)
    (hp : (t.begin w slot).pastRun (t.begin w slot).cur (t.begin w slot).issue = true) (hg : (t.begin w slot).pipeNext = some g) :
    s.endRun = some ((t.begin w slot).yieldTo g) := by
  rw [State.endRun, hb, hf]
  dsimp only
  rw [hw, hbar, State.overTo, hp, if_pos rfl, hg]
  rfl

theorem runsEnd : Spec.RunsEnd := by
  intro s t w slot h0 hn hc hb hf u hw hbar hp hr
  obtain ⟨g, hg⟩ : ∃ g, u.pipeNext = some g := by
    cases hx : u.pipeNext with
    | none => exact absurd (oldestOf_eq_none hx) hr
    | some g => exact ⟨g, rfl⟩
  have run : exec (.runLimitExpiry s.cur.id) s = .next (u.yieldTo g) := by
    have : exec (.runLimitExpiry s.cur.id) s = Out.ofOption "RUN_LIMIT_EXPIRY"
      (if s.cur.id = s.cur.id ∧ s.cur.id ≠ 0 ∧ s.canIssue s.cur = true then s.endRun else none) := rfl
    rw [this, if_pos ⟨rfl, h0, hc⟩, endRun_eq hb hf hw hbar hp hg]
    rfl
  obtain ⟨-, stay, others⟩ := settled_fetchInstr hf
  obtain ⟨id, pc, threads, pipe⟩ := asBefore_fields stay
  obtain ⟨frame, uid, upc, uthreads, upipe⟩ := begin_spec t w slot
  have hu : u = t.begin w slot := rfl
  clear_value u
  rw [← hu] at frame uid upc uthreads upipe
  have hd : u.Distinct := distinct_of_cur (uid.trans id) ((by rw [frame] : u.others.map (·.id) = t.others.map (·.id)).trans
    (ids_of_forall₂ others)) (distinct_of_numbered hn)
  have mem := mem_of_oldestOf hg
  obtain ⟨hm, hid, key⟩ := mem_rivals mem
  obtain ⟨vmem, vteams, vid, holds, y, hy, ypc, ywait, yswitch, ythreads⟩ :=
    yieldTo_spec hd hm hid key ((uid.trans id).trans_ne h0)
  refine ⟨_, run, vmem.trans (by rw [frame]), vteams.trans (by rw [frame]), ⟨g, mem, vid, ?_, lastIssue_oldestOf hg⟩, y, ?_,
    ypc.trans (upc.trans pc), ywait, yswitch, ?_⟩
  · rw [← pipe, ← upipe]
    exact holds
  · rw [← id, ← uid]
    exact hy
  · rw [ythreads, uthreads, threads]

/-- Settles O44: the pipe passes by `YIELD`, by the choice of a group that may have it, and at the end of a run. -/
theorem pipePasses : Obligations.PipePasses := ⟨yieldPassesThePipe, pipeChoices, runsEnd⟩

end Sys2Proof.Machine
end

section
/-! PROOF. Accesses past their checks: the translations of the lanes, what they leave as it was, and what begins in flight (R103, R114 to R116,
R247 to R253). -/

namespace Sys2Proof.Machine

/-! ### A translation leaves what an instruction reads -/

theorem asBefore_wait {x y : Group} (h : Spec.AsBefore x y) : y = { x with wait := y.wait } := by
  rcases h with rfl | ⟨_, _, _, _, rfl⟩ <;> rfl

theorem Settled.sameReads {s t : State} (h : Settled s t) : SameReads s t :=
  ⟨⟨_, _, _, _, asBefore_wait h.2.1⟩, by rw [h.1], by rw [h.1], by rw [h.1], by rw [h.1]⟩

theorem Settled.storeBuf {s t : State} (h : Settled s t) : t.cur.storeBuf = s.cur.storeBuf := by rw [asBefore_wait h.2.1]

/-! ### Translations do not read the group in focus or the write buffer -/

/-- The parts of the machine that a translation reads are as they were. -/
def SameMemory (s t : State) : Prop := t = { s with cur := t.cur, writeBuf := t.writeBuf }

theorem walkFrom_congr {s t : State} (h : SameMemory s t) (a : Agent) (acc : Access) (va : DWord) (n table : Nat) (tbl : List Nat) :
    t.walkFrom a acc va n table tbl = s.walkFrom a acc va n table tbl := by
  rw [h]
  generalize t.cur = c
  generalize t.writeBuf = w
  induction n generalizing table tbl with
  | zero => rfl
  | succ n ih =>
    rw [State.walkFrom, State.walkFrom]
    simp only [ih]
    rfl

theorem translate_congr {s t : State} (h : SameMemory s t) (a : Agent) (desc : CtxDesc) (r : LaunchRec) (acc : Access) (va : DWord) :
    t.translate a desc r acc va = s.translate a desc r acc va := by
  rw [State.translate, walkFrom_congr h, h]
  rfl

theorem sameMemory_endRegion (s : State) : SameMemory s s.endRegion := by
  obtain ⟨buf, entries, h⟩ := endRegion_spec s
  rw [SameMemory, h]

theorem xlate_endRegion (s : State) (acc : Access) (va : DWord) : s.endRegion.xlate acc va = s.xlate acc va := by
  have reads := sameReads_endRegion s
  have core : s.endRegion.cur.core = s.cur.core := by
    obtain ⟨⟨_, _, _, _, e⟩, -⟩ := reads
    rw [e]
  rw [State.xlate, reads.launch, core, translate_congr (sameMemory_endRegion s), State.xlate]

/-! ### Accesses that pass the checks of R116 -/

theorem addresses_eq (s : State) (d a : Code) (size : Nat) (units : DWord) :
    s.addresses (Spec.isUniform s d) size a units = (Spec.accessing s d).map fun l => (l, Spec.address s a units size l) := rfl

/-- The lanes with their addresses and translations. -/
def State.translations (s : State) (acc : Access) (size : Nat) (d a : Code) (units : DWord) : List (Nat × (DWord × Xlate)) :=
  (Spec.accessing s d).map fun l => (l, (Spec.address s a units size l, s.xlate acc (Spec.address s a units size l)))

theorem checkAccess_accessible {s : State} {acc : Access} {size : Nat} {d a : Code} {units : DWord}
    (h : Spec.Accessible s acc size d a units) :
    s.checkAccess acc size (s.addresses (Spec.isUniform s d) size a units)
      = .ok (placesOf (s.translations acc size d a units)) (Spec.translated s acc size d a units) := by
  have fits : ((Spec.accessing s d).map fun l => (l, Spec.address s a units size l)).find? (fun e => !aligned e.2 size) = none := by
    simp only [List.find?_eq_none, List.mem_map]
    rintro _ ⟨l, hl, rfl⟩
    simp [aligned, (h l hl).1]
  have inside : ((Spec.accessing s d).map fun l => (l, Spec.address s a units size l)).find? (fun e => !canonical e.2) = none := by
    simp only [List.find?_eq_none, List.mem_map]
    rintro _ ⟨l, hl, rfl⟩
    simp [(h l hl).2.1]
  have placed : firstStop (s.translations acc size d a units) = none := by
    simp only [firstStop, State.translations, List.findSome?_eq_none_iff, List.mem_map]
    rintro _ ⟨l, hl, rfl⟩
    obtain ⟨p, hp⟩ := (h l hl).2.2
    dsimp only
    rw [hp]
  have all : ((Spec.accessing s d).map fun l => (l, Spec.address s a units size l)).map (fun e => (e.1, (e.2, s.xlate acc e.2)))
      = s.translations acc size d a units := by
    rw [List.map_map]
    rfl
  rw [addresses_eq, State.checkAccess, fits, inside]
  simp only [all, placed, List.foldl_map]
  rfl

/-- What is made of the places of lanes whose translations give one. -/
theorem map_placesOf {β : Type} (f : Nat → Placed → β) (x : Nat → Xlate) (va : Nat → DWord) (ls : List Nat) :
    (placesOf (ls.map fun l => (l, (va l, x l)))).map (fun e => f e.1 e.2.2)
      = ls.filterMap fun l => match x l with
          | .ok p => some (f l p)
          | _ => none := by
  induction ls with
  | nil => rfl
  | cons l rest ih =>
    simp only [placesOf, List.map_cons, List.filterMap_cons] at ih ⊢
    cases x l <;> simp only [List.map_cons, ih]

/-- The translations settle one after another. -/
theorem settled_translated (s : State) (acc : Access) (size : Nat) (d a : Code) (units : DWord) :
    Settled s (Spec.translated s acc size d a units) :=
  settled_foldl (fun t l => t.settleVa acc (Spec.address s a units size l)) (fun _ _ => settled_settle ..) _ s

section
variable {s t : State} (h : SameReads s t)
include h

theorem SameReads.base (l a : Nat) : t.base l a = s.base l a := by
  simp only [State.base, h.sreg, h.vreg]

theorem SameReads.storeData (shape : Shape) (l d : Nat) : t.storeData shape l d = s.storeData shape l d := by
  simp only [State.storeData, h.source, h.vreg, h.sreg]

theorem SameReads.isUniform (d : Code) : Spec.isUniform t d = Spec.isUniform s d := by rw [Spec.isUniform, h.u, Spec.isUniform]

theorem SameReads.accessing (d : Code) : Spec.accessing t d = Spec.accessing s d := by
  rw [Spec.accessing, h.isUniform, h.lanesOf, h.em, Spec.accessing]

theorem SameReads.address (a : Code) (units : DWord) (size l : Nat) : Spec.address t a units size l = Spec.address s a units size l := by
  rw [Spec.address, h.base, Spec.address]

theorem SameReads.loadTags : t.cur.loadTags = s.cur.loadTags := by rw [Group.loadTags, h.flights, Group.loadTags]

end

/-! ### A memory instruction is over -/

/-- An operation in flight, from the state before the translations of its lanes. -/
theorem Launched.begun {s x t u v : State} {path : Nat} {kind : FlightKind} (reads : SameReads s x) (moved : QueuesOnly x t)
    (h : Launched x t u path kind)
    (hv : ∃ buf start base, v.cur = { u.cur with watchdog := 0, storeBuf := buf, rstart := start, rwb := base }) :
    Spec.AccessBegun s v path kind := by
  obtain ⟨buf, start, base, hv⟩ := hv
  have goes := reads.goesOn (reads.nextPc ▸ h.goesOn)
  have lanes : ∀ l < s.cur.threads.length, (v.cur.lane l).stack = (s.cur.lane l).stack ∧ (v.cur.lane l).pred = (s.cur.lane l).pred
      ∧ (v.cur.lane l).tid = (s.cur.lane l).tid := by
    intro l hl
    have lane : v.cur.lane l = u.cur.lane l := by rw [hv]; rfl
    have same : (s.cur.lane l).SameButQueues (t.cur.lane l) := reads.lane l ▸ moved.lane l
    rw [lane, h.lanes l (reads.threads ▸ hl)]
    rw [Thread.SameButQueues] at same
    rw [same]
    exact ⟨rfl, rfl, rfl⟩
  have flights : u.cur.flights = s.cur.flights ++ [Spec.newFlight s path kind] := by
    rw [h.flights, reads.newFlight, reads.flights]
  have tag : u.cur.nextTag = s.cur.nextTag + 1 := by rw [h.nextTag, reads.nextTag]
  have status : u.cur.gstat = s.cur.gstat ∨ u.cur.gstat = s.cur.gstat ||| 1 := by
    have gstat : x.cur.gstat = s.cur.gstat := by
      obtain ⟨⟨_, _, _, _, e⟩, -⟩ := reads
      rw [e]
    rw [← gstat]
    exact h.lost.imp And.left And.left
  have group := h.group
  obtain ⟨⟨_, _, _, _, cur⟩, -⟩ := reads
  rw [cur] at group
  refine ⟨?_, ?_, by rw [hv], ⟨lanes, ?_⟩, by rw [hv]; exact flights, by rw [hv]; exact tag⟩
  · have := goes.1
    rw [hv]
    exact this
  · have := goes.2
    rw [hv]
    exact this
  · rw [hv]
    dsimp only
    refine ⟨?_, ?_, ?_, ?_, ?_, ?_, status, ?_, ?_, ?_, ?_, ?_⟩ <;> rw [group]

end Sys2Proof.Machine
end

section
/-! PROOF. O31: a relaxed store enters the region store buffer, or overflows it (R68, R95, R118, R217, R277, R368). -/

namespace Sys2Proof.Machine

/-! ### The cells of the store instructions -/

/-- The cell of a row of stores, alone or as the second word of a pair. -/
theorem exec_store {r : Spec.MemRow} (hr : r ∈ Spec.storeRows) (imm : Option (BitVec 27)) (ord : BitVec 2) (scope : BitVec 3) (d a : Code)
    (off : BitVec 5) {s : State} (hi : Spec.issueOk s imm) :
    exec (Spec.inIssue 16 r imm ord scope d a off) s
      = .next ((storeCell r.size r.shape ord scope d a (Spec.offsetUnits imm off)).exec s) := by
  cases imm with
  | none =>
    simp only [Spec.storeRows, List.mem_cons, List.not_mem_nil, or_false] at hr
    rcases hr with rfl | rfl | rfl | rfl | rfl <;> rfl
  | some x =>
    have paired : s.issue.pairOk = true := hi.resolve_left (by simp)
    have run : exec (Spec.inIssue 16 r (some x) ord scope d a off) s
        = .next (s.pair x (some (.mem (BitVec.ofNat 5 16) (BitVec.ofNat 3 r.kind) ord scope d a off))) := rfl
    rw [run, State.pair, paired]
    simp only [Spec.storeRows, List.mem_cons, List.not_mem_nil, or_false] at hr
    rcases hr with rfl | rfl | rfl | rfl | rfl <;> rfl

/-- The data and the places of the lanes' stores, in lane order. -/
def State.stores (s : State) (size : Nat) (shape : Shape) (d a : Code) (units : DWord) : List (Nat × Placed) :=
  (Spec.accessing s d).filterMap fun l =>
    match s.xlate .store (Spec.address s a units size l) with
    | .ok p => some (s.storeData shape l d.toNat, p)
    | _ => none

theorem buffered_eq (s : State) (size scope : Nat) (shape : Shape) (d a : Code) (units : DWord) (buf : List StoreLine) :
    Spec.buffered s size scope shape d a units buf = bufferStores size scope s.cur.loadTags buf (s.stores size shape d a units) := rfl

/-- What the lanes store is read before and after their translations alike. -/
theorem data_translated (s : State) (c : StoreCell) :
    c.data (Spec.translated s .store c.size c.d c.a c.units) (placesOf (s.translations .store c.size c.d c.a c.units))
      = s.stores c.size c.shape c.d c.a c.units := by
  have reads := (settled_translated s .store c.size c.d c.a c.units).sameReads
  generalize Spec.translated s .store c.size c.d c.a c.units = t at reads
  have same : (fun e : Nat × (DWord × Placed) => (t.storeData c.shape e.1 c.d.toNat, e.2.2))
      = fun e => (s.storeData c.shape e.1 c.d.toNat, e.2.2) := funext fun e => by rw [reads.storeData]
  rw [StoreCell.data, same]
  exact map_placesOf (fun l p => (s.storeData c.shape l c.d.toNat, p)) _ _ _

theorem isTable_stores {s t : State} {size : Nat} {shape : Shape} {d a : Code} {units : DWord}
    (h : ∀ l ∈ Spec.accessing s d, ∀ p, s.xlate .store (Spec.address s a units size l) = .ok p → t.isTable p = false) :
    (s.stores size shape d a units).any (fun e => t.isTable e.2) = false := by
  simp only [State.stores, List.any_eq_false, List.mem_filterMap]
  rintro e ⟨l, hl, he⟩
  split at he
  · next p hp =>
    obtain rfl := Option.some.inj he
    simp [h l hl p hp]
  · cases he

section
variable {r : Spec.MemRow} {scope : BitVec 3} {d a : Code} {units : DWord} {s : State}

theorem StoreCell.cause_none (hk : Spec.kindOk s d) (hs : r.shape.srcOk (Spec.isUniform s d) d.toNat = true) (hb : Spec.baseField s d a)
    (ord : BitVec 2) : (storeCell r.size r.shape ord scope d a units).cause s = none := by
  have base : baseOk (Spec.isUniform s d) false a.toNat = true := by
    rcases hb with hS | ⟨hu, hv, even⟩
    · simp [baseOk, hS]
    · simp [baseOk, hu, hv, even]
  have uniform : (storeCell r.size r.shape ord scope d a units).uniform s = Spec.isUniform s d := rfl
  rw [StoreCell.cause, uniform]
  simp only [storeCell, (uOk_of_kindOk hk).1, hs, base]
  rfl

/-- A relaxed store past its checks. -/
theorem StoreCell.exec_relaxed (hk : Spec.kindOk s d) (hs : r.shape.srcOk (Spec.isUniform s d) d.toNat = true)
    (hb : Spec.baseField s d a) (hsc : s.scopeOk scope.toNat = true) (hc : s.cur.count 1 < 63) (hok : Spec.SoundData s r.shape d a) :
    (storeCell r.size r.shape 0 scope d a units).exec s
      = if (dataPops r.shape d.toNat).isEmpty then (storeCell r.size r.shape 0 scope d a units).access false s
        else s.throughPorts s.em (dataPops r.shape d.toNat) none ((storeCell r.size r.shape 0 scope d a units).access true) := by
  rw [StoreCell.exec, StoreCell.cause_none hk hs hb]
  have inScope : (storeCell r.size r.shape 0 scope d a units).scope = scope.toNat := rfl
  dsimp only
  rw [inScope, State.withScope, hsc, if_pos rfl]
  refine (sound_of s hok _).trans ?_
  have ends : (storeCell r.size r.shape 0 scope d a units).ends = !(dataPops r.shape d.toNat).isEmpty := rfl
  rw [State.raising, if_neg (by omega), ends]
  by_cases he : (dataPops r.shape d.toNat).isEmpty = true
  · rw [if_pos he, he]
    rfl
  · rw [if_neg he, Bool.not_eq_true] at *
    rw [he]
    rfl

/-- The store of accesses that all translate, none to a table line, enters the buffer. -/
theorem StoreCell.access_buffer (c : StoreCell) (hr : c.release = false) (hu : c.uniform s = Spec.isUniform s c.d)
    (ha : Spec.Accessible s .store c.size c.d c.a c.units)
    (ht : ∀ l ∈ Spec.accessing s c.d, ∀ p, s.xlate .store (Spec.address s c.a c.units c.size l) = .ok p →
      (Spec.translated s .store c.size c.d c.a c.units).isTable p = false) (ends : Bool) :
    c.access ends s
      = c.buffer (Spec.translated s .store c.size c.d c.a c.units) (s.stores c.size c.shape c.d c.a c.units) ends := by
  rw [StoreCell.access, hu, checkAccess_accessible ha]
  dsimp only
  rw [StoreCell.start, data_translated, hr]
  rw [if_neg (by decide), isTable_stores ht, if_neg (by decide)]

end

/-! ### The region store buffer (R277, R368) -/

theorem launchFlight_noteLatches (s t : State) (m : LaneMask) (codes : List Nat) (path : Nat) (kind : FlightKind) :
    (t.modCur (s.noteLatches m codes)).launchFlight path kind = s.lifted t path kind m codes := by
  have noted : s.noteLatches m codes = fun g => _ := funext (noteLatches_eq s m codes)
  rw [State.lifted, noted]
  rfl

theorem StoreCell.done_eq (c : StoreCell) (s : State) (lines : List Nat) (sync ends : Bool) :
    c.done s lines sync ends
      = (s.lifted (s.takePops s.em (dataPops c.shape c.d.toNat)) 1 (.store lines sync) s.em [c.d.toNat]).endAccess ends := by
  rw [StoreCell.done, launchFlight_noteLatches]

/-- The buffer with the stores of the lanes. -/
def StoreCell.buf (c : StoreCell) (s : State) : List StoreLine :=
  Spec.buffered s c.size c.scope c.shape c.d c.a c.units s.cur.storeBuf

/-- The state in which a relaxed store ends: its lanes have translated, and the buffer holds their lines. -/
def StoreCell.entered (c : StoreCell) (s : State) : State :=
  (Spec.translated s .store c.size c.d c.a c.units).modCur fun g => { g with storeBuf := c.buf s }

theorem StoreCell.buffer_eq (c : StoreCell) (s : State) (ends : Bool) :
    c.buffer (Spec.translated s .store c.size c.d c.a c.units) (s.stores c.size c.shape c.d c.a c.units) ends
      = if 32 < ((c.buf s).filter fun l => !l.committed).length then
          (Spec.translated s .store c.size c.d c.a c.units).trap causeOverflow 32
        else if 32 < (c.buf s).length then
          (Spec.translated s .store c.size c.d c.a c.units).stallOn (.room ((c.buf s).length - s.cur.storeBuf.length)) stallBuffer
        else c.done (c.entered s) [] false ends := by
  have settled := settled_translated s .store c.size c.d c.a c.units
  have same : bufferStores c.size c.scope (Spec.translated s .store c.size c.d c.a c.units).cur.loadTags
      (Spec.translated s .store c.size c.d c.a c.units).cur.storeBuf (s.stores c.size c.shape c.d c.a c.units) = c.buf s := by
    rw [settled.sameReads.loadTags, settled.storeBuf, StoreCell.buf, buffered_eq]
  rw [StoreCell.buffer, same, settled.storeBuf]
  rfl

theorem StoreCell.sameReads_entered (c : StoreCell) (s : State) : SameReads s (c.entered s) := by
  have reads := (settled_translated s .store c.size c.d c.a c.units).sameReads
  refine reads.trans ⟨⟨c.buf s, _, _, _, rfl⟩, rfl, rfl, rfl, rfl⟩

/-- The operation that a store puts in flight. -/
theorem StoreCell.launched (c : StoreCell) (s : State) (lines : List Nat) (sync : Bool) :
    Launched s (s.takePops s.em (dataPops c.shape c.d.toNat))
      ((s.lifted (s.takePops s.em (dataPops c.shape c.d.toNat)) 1 (.store lines sync) s.em [c.d.toNat]).finish 0) 1 (.store lines sync) :=
  launched_lifted (takePops_queuesOnly ..) ..

theorem storePops_eq (shape : Shape) (d : Code) : dataPops shape d.toNat = Spec.storePops shape d := by
  simp [dataPops, Spec.storePops]

/-- The store has entered the buffer: its operation is in flight, and the instruction is over. -/
theorem StoreCell.begun (c : StoreCell) {s x u v : State} (reads : SameReads s x) (hu : Launched x (x.takePops x.em (dataPops c.shape c.d.toNat))
    u 1 (.store [] false)) (hv : ∃ buf start base, v.cur = { u.cur with watchdog := 0, storeBuf := buf, rstart := start, rwb := base }) :
    Spec.AccessBegun s v 1 (.store [] false) :=
  hu.begun reads (takePops_queuesOnly ..) hv

theorem storesOfRegisters : Spec.StoresOfRegisters := by
  intro r hr imm scope d a off s hi hk hs hpops hb hsc hc hok units ha ht buf hbuf hroom
  let c := storeCell r.size r.shape 0 scope d a units
  have pops : dataPops r.shape d.toNat = [] := (storePops_eq r.shape d).trans hpops
  have launched := c.launched (c.entered s) [] false
  have runs : c.exec s
      = (((c.entered s).lifted ((c.entered s).takePops (c.entered s).em (dataPops c.shape c.d.toNat)) 1 (.store [] false)
          (c.entered s).em [c.d.toNat]).finish 0).progress := by
    have relaxed := StoreCell.exec_relaxed (units := units) hk hs hb hsc hc hok
    rw [pops, List.isEmpty_nil, if_pos rfl] at relaxed
    have full : ¬32 < ((c.buf s).filter fun l => !l.committed).length := Nat.not_lt.mpr hbuf
    have room : ¬32 < (c.buf s).length := Nat.not_lt.mpr hroom
    rw [relaxed, StoreCell.access_buffer c rfl rfl ha ht, StoreCell.buffer_eq, if_neg full, if_neg room, StoreCell.done_eq]
    rfl
  have popless : (c.entered s).takePops (c.entered s).em (dataPops c.shape c.d.toNat) = c.entered s := by
    rw [show dataPops c.shape c.d.toNat = [] from pops, takePops_nil]
  have reads := c.sameReads_entered s
  have frame : c.entered s = { Spec.translated s .store r.size d a units with cur := (c.entered s).cur } := rfl
  have inBuffer : (c.entered s).cur.storeBuf = buf := rfl
  have issued : Spec.issuedPipes (c.entered s) = Spec.issuedPipes (Spec.translated s .store r.size d a units) := rfl
  refine ⟨c.exec s, exec_store hr imm 0 scope d a off hi, ?_⟩
  rw [runs]
  generalize ((c.entered s).lifted _ _ _ _ _).finish 0 = u at launched
  generalize c.entered s = x at *
  refine ⟨c.begun reads launched ⟨_, _, _, rfl⟩, ?_, ?_⟩
  · change u.cur.storeBuf = buf
    rw [launched.group]
    exact inBuffer
  · have rest := launched.rest
    rw [popless, issued] at rest
    rw [Spec.OnlyFocus]
    change { u with cur := { u.cur with watchdog := 0 } } = _
    rw [rest, frame]
    rfl

theorem regionOverflow : Spec.RegionOverflow := by
  intro r hr scope d a off s hk hs hpops hb hsc hc htrap hok units ha ht hover
  let c := storeCell r.size r.shape 0 scope d a units
  have pops : dataPops r.shape d.toNat = [] := (storePops_eq r.shape d).trans hpops
  have reads := (settled_translated s .store r.size d a units).sameReads
  have runs : c.exec s = (Spec.translated s .store r.size d a units).trap causeOverflow 32 := by
    have relaxed := StoreCell.exec_relaxed (units := units) hk hs hb hsc hc hok
    have full : 32 < ((c.buf s).filter fun l => !l.committed).length := hover
    rw [pops, List.isEmpty_nil, if_pos rfl] at relaxed
    rw [relaxed, StoreCell.access_buffer c rfl rfl ha ht, StoreCell.buffer_eq, if_pos full]
    rfl
  refine ⟨c.exec s, exec_store hr none 0 scope d a off (.inl rfl), ?_⟩
  rw [runs, ← reads.pc]
  exact trapped_trap ⟨reads.intrap.trans htrap.1, reads.walking.trans htrap.2⟩ causeOverflow 32

/-! ### A store that pops a port (R217, R220) -/

theorem seated_stay {s t : State} (h : Spec.GroupsStay s t) {seat : Seat} (hs : s.Seated seat) : t.Seated seat := by
  obtain ⟨x, hx, hl⟩ := hs
  obtain ⟨y, hy, same⟩ := group?_stay h hx
  exact ⟨y, hy, (asBefore_fields same).2.2.1 ▸ hl⟩

theorem queueAt_stay {s t : State} (h : Spec.GroupsStay s t) {g l : Nat} (hs : s.Seated (g, l)) (q : Nat) :
    t.queueAt (g, l) q = s.queueAt (g, l) q := by
  obtain ⟨x, hx, -⟩ := hs
  obtain ⟨y, hy, same⟩ := group?_stay h hx
  rw [queueAt_of_group? hx, queueAt_of_group? hy, lane_of_threads (asBefore_fields same).2.2.1]

/-- The translations of a region that has ended are those of the instruction. -/
theorem accessible_endRegion {s : State} {acc : Access} {size : Nat} {d a : Code} {units : DWord}
    (h : Spec.Accessible s acc size d a units) : Spec.Accessible s.endRegion acc size d a units := by
  have reads := sameReads_endRegion s
  intro l hl
  rw [reads.accessing] at hl
  obtain ⟨fits, inside, placed⟩ := h l hl
  simp only [reads.address, xlate_endRegion]
  exact ⟨fits, inside, placed⟩

theorem stores_endRegion (s : State) (size : Nat) (shape : Shape) (d a : Code) (units : DWord) :
    s.endRegion.stores size shape d a units = s.stores size shape d a units := by
  have reads := sameReads_endRegion s
  simp only [State.stores, reads.accessing, reads.address, xlate_endRegion, reads.storeData]

/-- The region that an instruction ends commits its lines, and the next region begins. -/
theorem commit_startRegion (s : State) :
    ∃ buf entries, s.commit.startRegion =
      { s with writeBuf := s.writeBuf ++ entries, cur := { s.cur with storeBuf := buf, rstart := s.cur.pc, rwb := s.cur.wb } }
      ∧ ∀ l ∈ buf, l.committed = true := by
  obtain ⟨k, hk, -⟩ := drainCommitted_spec
    (s.modCur fun g => { g with storeBuf := g.storeBuf.map fun l => { l with committed := true } })
  have commit : s.commit = _ := hk
  refine ⟨_, _, by rw [commit]; rfl, fun l hl => ?_⟩
  obtain ⟨x, -, rfl⟩ := List.mem_map.mp (List.mem_of_mem_drop hl)
  rfl

theorem isUniform_port {s : State} {d : Code} (hu : s.u = false) (hp : isPort d.toNat = true) : Spec.isUniform s d = false := by
  rw [Spec.isUniform, hu, isS_false_of_isPort hp]
  rfl

/-- A port's store past its checks is in the buffer at the end of its own region. -/
theorem StoreCell.exec_port {r : Spec.MemRow} {scope : BitVec 3} {d a : Code} {units : DWord} {s : State} (hu : s.u = false)
    (hshape : r.shape = .word) (hport : isPort d.toNat = true) (hb : Spec.baseField s d a) (hsc : s.scopeOk scope.toNat = true)
    (hc : s.cur.count 1 < 63) (hw : s.cur.walking = false) (hfree : s.rillBlocked s.em [d.toNat - 100] none = none)
    (hok : Spec.SoundData s r.shape d a) (ha : Spec.Accessible s .store r.size d a units)
    (ht : ∀ l ∈ Spec.accessing s d, ∀ p, s.xlate .store (Spec.address s a units r.size l) = .ok p →
      (Spec.translated s.endRegion .store r.size d a units).isTable p = false)
    (hroom : (Spec.buffered s r.size scope.toNat r.shape d a units s.endRegion.cur.storeBuf).length ≤ 32) :
    (storeCell r.size r.shape 0 scope d a units).exec s = (storeCell r.size r.shape 0 scope d a units).done
      ((storeCell r.size r.shape 0 scope d a units).entered s.endRegion) [] false true := by
  let c := storeCell r.size r.shape 0 scope d a units
  have reads := sameReads_endRegion s
  have pops : dataPops r.shape d.toNat = [d.toNat - 100] := by simp [dataPops, hshape, hport]
  have kind : Spec.kindOk s d := ⟨fun hS => by simp [isS_false_of_isPort hport] at hS, fun _ => hu⟩
  have field : r.shape.srcOk (Spec.isUniform s d) d.toNat = true := by
    rw [hshape, isUniform_port hu hport]
    simp only [isPort, Bool.and_eq_true, decide_eq_true_eq] at hport
    simp only [Shape.srcOk, Src.ok, Bool.false_eq_true, if_false, decide_eq_true_eq]
    omega
  have tables : ∀ l ∈ Spec.accessing s.endRegion c.d, ∀ p, s.endRegion.xlate .store (Spec.address s.endRegion c.a c.units c.size l) = .ok p →
      (Spec.translated s.endRegion .store c.size c.d c.a c.units).isTable p = false := by
    intro l hl p hp
    rw [reads.accessing] at hl
    rw [reads.address, xlate_endRegion] at hp
    exact ht l hl p hp
  have room : (c.buf s.endRegion).length ≤ 32 := by
    rw [StoreCell.buf, buffered_eq, reads.loadTags, stores_endRegion]
    exact hroom
  have full : ¬32 < ((c.buf s.endRegion).filter fun l => !l.committed).length :=
    Nat.not_lt.mpr (le_trans (List.length_filter_le ..) room)
  have relaxed := StoreCell.exec_relaxed (units := units) kind field hb hsc hc hok
  rw [pops, if_neg (by simp), throughPorts_of hw hfree] at relaxed
  rw [relaxed, StoreCell.access_buffer c rfl rfl (accessible_endRegion ha) tables, StoreCell.buffer_eq, if_neg full,
    if_neg (Nat.not_lt.mpr room)]

/-- The queues before the lanes of a store pop a port. -/
theorem StoreCell.queueAt_entered (c : StoreCell) {s : State} {g l : Nat} (hs : s.Seated (g, l)) (q : Nat) :
    (c.entered s).Seated (g, l) ∧ (c.entered s).queueAt (g, l) q = s.queueAt (g, l) q := by
  have settled := settled_translated s .store c.size c.d c.a c.units
  rw [StoreCell.entered]
  generalize Spec.translated s .store c.size c.d c.a c.units = t at settled
  have seated := seated_stay settled.2 hs
  refine ⟨?_, ?_⟩
  · obtain ⟨x, hx, hl⟩ := seated
    by_cases h0 : t.cur.id = 0
    · exact ⟨x, by simpa [State.group?, State.groups, h0] using hx, hl⟩
    · by_cases hg : g = t.cur.id
      · subst hg
        obtain rfl : t.cur = x := Option.some.inj ((group?_cur h0).symm.trans hx)
        exact ⟨_, group?_cur (s := t.modCur fun g => { g with storeBuf := c.buf s }) h0, hl⟩
      · exact ⟨x, (group?_other (s := t.modCur fun g => { g with storeBuf := c.buf s }) hg).trans ((group?_other hg).symm.trans hx), hl⟩
  · rw [← queueAt_stay settled.2 hs]
    exact queueAt_congr (s := t) (t := t.modCur fun g => { g with storeBuf := c.buf s }) rfl rfl (fun _ _ _ => rfl) seated q

/-- The queues once the lanes of a store have popped a port, whatever else its end leaves. -/
theorem StoreCell.queuesMoved (c : StoreCell) {s t : State} (h0 : s.cur.id ≠ 0) {pops : List Nat} (hp : ∀ p ∈ pops, p < 6)
    (hid : t.cur.id = s.cur.id) (ho : t.others = (c.entered s.endRegion).others)
    (hq : ∀ l < s.cur.threads.length, ∀ q,
      (t.cur.lane l).queue q = (((c.entered s.endRegion).takePops (c.entered s.endRegion).em pops).cur.lane l).queue q)
    (entry : Nat → RillEntry) : Spec.QueuesMoved s t s.em pops none entry := by
  intro g l q x hx hl hq6
  have reads := (sameReads_endRegion s).trans (c.sameReads_entered s.endRegion)
  have seat : s.Seated (g, l) := ⟨x, hx, hl⟩
  obtain ⟨seated, same⟩ := c.queueAt_entered (seated_endRegion seat) q
  generalize c.entered s.endRegion = y at *
  have nz : y.cur.id ≠ 0 := reads.id ▸ h0
  have moved := queueAt_takePops nz seated y.em hp hq6
  have only := takePops_queuesOnly y y.em pops
  rw [queueAt_congr (s := y.takePops y.em pops) (hid.trans (reads.id.symm.trans only.id.symm)) (show t.others = (y.takePops y.em pops).others from ho)
    (fun k hk p => hq k (by rwa [only.length, reads.threads] at hk) p) (seated_takePops nz seated ..) q, moved, same, reads.id, reads.em,
    queueAt_endRegion seat]
  exact (List.append_nil _).symm

theorem storesFromPorts : Spec.StoresFromPorts := by
  intro r hr scope d a off s hu h0 hshape hport hb hsc hc hw hfree hok units ha ht hroom
  let c := storeCell r.size r.shape 0 scope d a units
  have reads := (sameReads_endRegion s).trans (c.sameReads_entered s.endRegion)
  have pops : dataPops c.shape c.d.toNat = [d.toNat - 100] := by
    change dataPops r.shape d.toNat = _
    simp [dataPops, hshape, hport]
  have launched := c.launched (c.entered s.endRegion) [] false
  have runs : c.exec s = _ :=
    (StoreCell.exec_port hu hshape hport hb hsc hc hw hfree hok ha ht hroom).trans (c.done_eq (c.entered s.endRegion) [] false true)
  have queues : ∀ t : State, t.cur.id = s.cur.id → _ := fun t => c.queuesMoved (t := t) h0 (pops := [d.toNat - 100])
    (by simpa using port_lt hport)
  rw [State.endAccess] at runs
  generalize ((c.entered s.endRegion).lifted _ _ _ _ _).finish 0 = u at launched runs
  obtain ⟨buf, entries, ends, committed⟩ := commit_startRegion u.progress
  refine ⟨c.exec s, exec_store hr none 0 scope d a off (.inl rfl), ?_⟩
  rw [runs, if_pos rfl, ends]
  have next : u.cur.pc = s.nextPc := launched.goesOn.1.1.trans reads.nextPc
  refine ⟨c.begun reads launched ⟨_, _, _, rfl⟩, next, committed, queues _ ?_ ?_ ?_ _⟩
  · change u.cur.id = _
    rw [launched.group]
    exact reads.id
  · change u.others = _
    rw [launched.rest]
    rfl
  · intro l hl q
    change (u.cur.lane l).queue q = _
    rw [launched.lanes l (reads.threads ▸ hl), pops]
    rfl

/-- Settles O31: a relaxed store is in the buffer once its lanes have translated, or takes the overflow trap; one of a port's entries pops
them and ends its region. -/
theorem storesEnterTheBuffer : Obligations.StoresEnterTheBuffer := ⟨storesOfRegisters, regionOverflow, storesFromPorts⟩

end Sys2Proof.Machine
end

section
/-! PROOF. The bytes of lines: merged under a mask, placed in a line, read as a number (R9, R277). -/

namespace Sys2Proof.Machine

/-! ### Bytes and numbers (R9) -/

theorem length_leBytes (n x : Nat) : (leBytes n x).length = n := by
  induction n generalizing x with
  | zero => rfl
  | succ n ih => simp [leBytes, ih]

theorem getElem_leBytes (n x i : Nat) (h : i < (leBytes n x).length) : (leBytes n x)[i] = BitVec.ofNat 8 (x / 256 ^ i) := by
  induction n generalizing x i with
  | zero => simp [leBytes] at h
  | succ n ih =>
    cases i with
    | zero => simp [leBytes]
    | succ i => simp [leBytes, ih, Nat.div_div_eq_div_mul, Nat.pow_succ']

/-- Byte `i` of a number of bytes. -/
theorem leNat_div (bs : List Byte) (i : Nat) (h : i < bs.length) : BitVec.ofNat 8 (leNat bs / 256 ^ i) = bs[i] := by
  induction bs generalizing i with
  | nil => simp at h
  | cons b rest ih =>
    cases i with
    | zero =>
      apply BitVec.eq_of_toNat_eq
      have := b.isLt
      simp only [leNat, BitVec.toNat_ofNat, List.getElem_cons_zero, Nat.pow_zero, Nat.div_one]
      omega
    | succ i =>
      have drop : (b.toNat + 256 * leNat rest) / 256 = leNat rest := by have := b.isLt; omega
      rw [List.getElem_cons_succ, ← ih i (by simpa using h), leNat, Nat.pow_succ', ← Nat.div_div_eq_div_mul, drop]

/-! ### Bytes of a line -/

theorem getLsbD_lineByte (d : BitVec 512) (j i : Nat) : (lineByte d j).getLsbD i = (decide (i < 8) && d.getLsbD (8 * j + i)) :=
  BitVec.getLsbD_extractLsb' ..

theorem lineByte_ofNat (x j : Nat) (h : j < 64) : lineByte (BitVec.ofNat 512 x) j = BitVec.ofNat 8 (x / 256 ^ j) := by
  apply BitVec.eq_of_getLsbD_eq
  intro i hi
  have two : (256 : Nat) ^ j = 2 ^ (8 * j) := by rw [Nat.pow_mul]
  have inside : 8 * j + i < 512 := by omega
  simp only [getLsbD_lineByte, BitVec.getLsbD_ofNat, two, Nat.testBit_div_two_pow, hi, inside, decide_true, Bool.true_and]
  rw [Nat.add_comm]

/-- The bits of one byte of a line. -/
theorem getLsbD_byteOnes (i k : Nat) (hk : k < 512) : (0xFF#512 <<< (8 * i)).getLsbD k = decide (k / 8 = i) := by
  have value : (0xFF#512).getLsbD (k - 8 * i) = decide (k - 8 * i < 8) := by
    rw [show (0xFF#512) = BitVec.ofNat 512 (2 ^ 8 - 1) from rfl, BitVec.getLsbD_ofNat, Nat.testBit_two_pow_sub_one]
    simp [show k - 8 * i < 512 by omega]
  rw [BitVec.getLsbD_shiftLeft, value, Bool.eq_iff_iff]
  simp only [hk, decide_true, Bool.true_and, Bool.and_eq_true, Bool.not_eq_true', decide_eq_true_eq, decide_eq_false_iff_not]
  omega

/-- The bits that the first bytes of a byte mask cover. -/
theorem getLsbD_expandUpTo (m : BitVec 64) (k n : Nat) (hk : k < 512) :
    ((List.range n).foldl (fun acc i => if m.getLsbD i then acc ||| (0xFF#512 <<< (8 * i)) else acc) 0).getLsbD k
      = (decide (k / 8 < n) && m.getLsbD (k / 8)) := by
  induction n with
  | zero => simp
  | succ n ih =>
    rw [List.range_succ, List.foldl_append, List.foldl_cons, List.foldl_nil]
    by_cases e : k / 8 = n
    · have before : ¬ k / 8 < n := by omega
      cases hm : m.getLsbD n
      · simp only [Bool.false_eq_true, if_false, ih, e, hm, Bool.and_false]
      · simp [BitVec.getLsbD_or, getLsbD_byteOnes _ _ hk, e, hm]
    · have same : k / 8 < n + 1 ↔ k / 8 < n := by omega
      split
      · rw [BitVec.getLsbD_or, ih, getLsbD_byteOnes _ _ hk, decide_eq_false e, Bool.or_false, decide_eq_decide.mpr same]
      · rw [ih, decide_eq_decide.mpr same]

theorem getLsbD_expandMask (m : BitVec 64) (k : Nat) (hk : k < 512) : (expandMask m).getLsbD k = m.getLsbD (k / 8) := by
  have inside : k / 8 < 64 := by omega
  rw [expandMask, getLsbD_expandUpTo m k 64 hk, decide_eq_true inside, Bool.true_and]

/-- A merged line has the new bytes where the mask says so. -/
theorem lineByte_mergeLine (m : BitVec 64) (old new : BitVec 512) (j : Nat) (h : j < 64) :
    lineByte (mergeLine m old new) j = if m.getLsbD j then lineByte new j else lineByte old j := by
  apply BitVec.eq_of_getLsbD_eq
  intro i hi
  have inside : 8 * j + i < 512 := by omega
  have quot : (8 * j + i) / 8 = j := by omega
  rw [getLsbD_lineByte, mergeLine, BitVec.getLsbD_or, BitVec.getLsbD_and, BitVec.getLsbD_and, BitVec.getLsbD_not,
    getLsbD_expandMask m _ inside, quot, decide_eq_true inside]
  cases m.getLsbD j <;> simp [getLsbD_lineByte]

theorem getLsbD_placeBytes_mask (off n x j : Nat) (h : off + n ≤ 64) :
    (placeBytes off n x).1.getLsbD j = decide (off ≤ j ∧ j < off + n) := by
  simp only [placeBytes, BitVec.getLsbD_ofNat, Nat.testBit_mul_two_pow, Nat.testBit_two_pow_sub_one]
  by_cases a : off ≤ j
  · by_cases b : j < off + n
    · have c : j < 64 := by omega
      have d : j - off < n := by omega
      simp [a, b, c, d]
    · have d : ¬ j - off < n := by omega
      simp [b, d]
  · simp [a]

/-- The bytes placed in a line are those of the number. -/
theorem lineByte_placeBytes (off n x i : Nat) (h : off + n ≤ 64) (hi : i < n) :
    lineByte (placeBytes off n x).2 (off + i) = BitVec.ofNat 8 (x / 256 ^ i) := by
  have p8 : ∀ k, (256 : Nat) ^ k = 2 ^ (8 * k) := fun k => by rw [Nat.pow_mul]
  have split_ : (2 : Nat) ^ (8 * n) = 2 ^ (8 * i) * 2 ^ (8 * (n - i)) := by rw [← Nat.pow_add]; congr 1; omega
  have wide : (256 : Nat) ∣ 2 ^ (8 * (n - i)) := ⟨2 ^ (8 * (n - i) - 8), by
    rw [show (256 : Nat) = 2 ^ 8 by norm_num, ← Nat.pow_add]; congr 1; omega⟩
  rw [placeBytes, lineByte_ofNat _ _ (by omega), p8, p8, Nat.mul_add, Nat.pow_add, Nat.mul_comm,
    Nat.mul_div_mul_left _ _ (Nat.two_pow_pos _), split_, Nat.mod_mul_right_div_self]
  apply BitVec.eq_of_toNat_eq
  simp only [BitVec.toNat_ofNat]
  exact Nat.mod_mod_of_dvd _ wide

end Sys2Proof.Machine
end

section
/-! PROOF. What an access sees of a line, byte by byte: the dirty bytes of the agent's own copies, innermost first, then the copy
that serves it or the home (R67, R280). -/

namespace Sys2Proof.Machine

/-! ### Own copies -/

theorem level_of_onPath {a : Agent} {c : Copy} (h : a.onPath c = true) : c.level ≤ 2 := by
  by_contra hl
  have h0 : c.level ≠ 0 := by omega
  have h1 : c.level ≠ 1 := by omega
  have h2 : c.level ≠ 2 := by omega
  simp [Agent.onPath, Agent.unit, h0, h1, h2] at h

/-- Whether a copy is on an agent's path is a matter of its place. -/
theorem onPath_congr {c d : Copy} (a : Agent) (hl : d.level = c.level) (hu : d.unit = c.unit) : a.onPath d = a.onPath c := by
  rw [Agent.onPath, Agent.onPath, hl, hu]

theorem mem_pathCopies {s : State} {a : Agent} {line : Nat} {c : Copy} :
    c ∈ s.pathCopies a line ↔ c ∈ s.copies ∧ c.line = line ∧ a.onPath c = true := by
  simp only [State.pathCopies, List.mem_append, List.mem_filter, Bool.and_eq_true, decide_eq_true_eq]
  constructor
  · rintro ((⟨h, -⟩ | ⟨h, -⟩) | ⟨h, -⟩) <;> exact h
  · intro h
    have := level_of_onPath h.2.2
    have : c.level = 0 ∨ c.level = 1 ∨ c.level = 2 := by omega
    rcases this with l | l | l
    · exact .inl (.inl ⟨h, l⟩)
    · exact .inl (.inr ⟨h, l⟩)
    · exact .inr ⟨h, l⟩

/-- The copies on a path stand innermost first. -/
theorem pathCopies_sorted (s : State) (a : Agent) (line : Nat) : (s.pathCopies a line).Pairwise (fun c d => c.level ≤ d.level) := by
  have same : ∀ (xs : List Copy) (k : Nat), (xs.filter (·.level = k)).Pairwise fun c d => c.level ≤ d.level := fun xs k =>
    List.pairwise_iff_getElem.mpr fun i j hi hj _ => by
      have hc := (List.mem_filter.mp (List.getElem_mem hi)).2
      have hd := (List.mem_filter.mp (List.getElem_mem hj)).2
      simp only [decide_eq_true_eq] at hc hd
      omega
  simp only [State.pathCopies, List.pairwise_append, List.mem_append, List.mem_filter, decide_eq_true_eq]
  refine ⟨⟨same .., same .., ?_⟩, same .., ?_⟩
  · rintro c ⟨-, hc⟩ d ⟨-, hd⟩
    omega
  · rintro c (⟨-, hc⟩ | ⟨-, hc⟩) d ⟨-, hd⟩ <;> omega

/-! ### Bytes under dirty bytes -/

theorem lineByte_withDirty (x : BitVec 512 × Bool) (c : Copy) {j : Nat} (hj : j < 64) :
    lineByte (withDirty x c).1 j = if c.dirty.getLsbD j then lineByte c.data j else lineByte x.1 j := by
  unfold withDirty
  split
  · next h => simp [h]
  · exact lineByte_mergeLine _ _ _ _ hj

/-- Dirty bytes over a line that all are one value leave that value. -/
theorem lineByte_overDirty {cs : List Copy} {x : BitVec 512 × Bool} {j : Nat} {b : Byte} (hj : j < 64)
    (hc : ∀ c ∈ cs, c.dirty.getLsbD j = true → lineByte c.data j = b) (hx : lineByte x.1 j = b) :
    lineByte (cs.foldl withDirty x).1 j = b := by
  induction cs generalizing x with
  | nil => exact hx
  | cons c rest ih =>
    refine ih (fun d hd => hc d (List.mem_cons_of_mem _ hd)) ?_
    rw [lineByte_withDirty _ _ hj]
    split
    · next h => exact hc c List.mem_cons_self h
    · exact hx

/-! ### Bytes that are seen -/

/-- No other die keeps bytes of a line at a scope that covers the agent. -/
def State.Unowned (s : State) (a : Agent) (line : Nat) : Prop :=
  ∀ c ∈ s.copies, c.line = line → c.owns = true → a.onPath c = false → a.covers c.reg c = false

/-- A byte of a line has one value in the agent's copies up to a level, where it is dirty, or in all of them and at the home. -/
def State.Shows (s : State) (a : Agent) (line k j : Nat) (b : Byte) : Prop :=
  (∀ c ∈ s.copies, c.line = line → a.onPath c = true → c.level ≤ k → lineByte c.data j = b)
    ∧ ((∃ c ∈ s.copies, c.line = line ∧ a.onPath c = true ∧ c.level = k ∧ c.dirty.getLsbD j = true)
      ∨ (k = 2 ∧ s.Unowned a line ∧ lineByte (s.homeLine line) j = b))

theorem outer_of_unowned {s : State} {a : Agent} {line : Nat} (h : s.Unowned a line) :
    s.outer a line = (s.homeLine line, s.poisoned line) := by
  have none_ : s.owners a line = [] := by
    have all : (s.copies.filter fun c => c.line == line && c.owns && !a.onPath c && a.covers c.reg c) = [] := by
      refine List.filter_eq_nil_iff.mpr fun c hc => ?_
      simp only [Bool.and_eq_true, beq_iff_eq, Bool.not_eq_true', not_and, Bool.not_eq_true]
      exact fun ⟨⟨hl, ho⟩, hp⟩ => h c hc hl ho hp
    simp [State.owners, all]
  rw [State.outer, none_, List.foldl_nil]

/-- A serving copy is one of the agent's own. -/
theorem servingCopy_mem {scope : Nat} {path : List Copy} {c : Copy} (h : servingCopy scope path = some c) : c ∈ path := by
  unfold servingCopy at h
  dsimp only at h
  split at h
  · next d hd =>
    cases h
    exact List.mem_of_find?_eq_some hd
  · exact List.mem_of_find?_eq_some h

/-- The line before dirty bytes shows what all own copies and the home show. -/
theorem lineByte_base {s : State} {a : Agent} {line j : Nat} {b : Byte} (scope : Nat) (home : Home)
    (own : ∀ c ∈ s.pathCopies a line, lineByte c.data j = b) (far : lineByte (s.outer a line).1 j = b) :
    lineByte (if s.uncachedLine home line then s.outer a line else s.served a scope line).1 j = b := by
  split
  · exact far
  · unfold State.served State.servedFrom
    split
    · next c hc => exact own c (List.mem_filter.mp (servingCopy_mem hc)).1
    · exact far

theorem overlaid_zero (s : State) (a : Agent) (line : Nat) (x : BitVec 512 × Bool) :
    s.overlaid a 0 line x = (s.pathCopies a line).reverse.foldl withDirty x := by
  simp [State.overlaid]

/-- An access sees a byte that shows. -/
theorem lineByte_view {s : State} {a : Agent} {line k j : Nat} {b : Byte} (hj : j < 64) (h : s.Shows a line k j b) (scope : Nat)
    (home : Home) : lineByte (s.view a scope home line).1 j = b := by
  obtain ⟨own, (⟨c, hc, hl, hp, hk, hd⟩ | ⟨rfl, unowned, hb⟩)⟩ := h
  · obtain ⟨before, after, e⟩ := List.append_of_mem (mem_pathCopies.mpr ⟨hc, hl, hp⟩)
    have inner : ∀ d ∈ before.reverse, lineByte d.data j = b := by
      intro d hd
      have le := (List.pairwise_append.mp (e ▸ pathCopies_sorted s a line)).2.2 d (List.mem_reverse.mp hd) c List.mem_cons_self
      obtain ⟨h1, h2, h3⟩ := mem_pathCopies.mp (e ▸ List.mem_append_left _ (List.mem_reverse.mp hd) : d ∈ s.pathCopies a line)
      exact own d h1 h2 h3 (hk ▸ le)
    rw [State.view, overlaid_zero, e, List.reverse_append, List.reverse_cons, List.append_assoc, List.foldl_append,
      List.singleton_append, List.foldl_cons]
    refine lineByte_overDirty hj (fun d hd _ => inner d hd) ?_
    rw [lineByte_withDirty _ _ hj, if_pos hd]
    exact own c hc hl hp hk.le
  · have all : ∀ c ∈ s.pathCopies a line, lineByte c.data j = b := fun c hc => by
      obtain ⟨h1, h2, h3⟩ := mem_pathCopies.mp hc
      exact own c h1 h2 h3 (level_of_onPath h3)
    rw [State.view, overlaid_zero]
    exact lineByte_overDirty hj (fun c hc _ => all c (List.mem_reverse.mp hc))
      (lineByte_base scope home all (outer_of_unowned unowned ▸ hb))

/-- Bytes that show are what is read. -/
theorem holds_of_shows {s : State} {a : Agent} {pa n x : Nat} (scope : Nat) (home : Home) (hn : pa % 64 + n ≤ 64)
    (h : ∀ i < n, ∃ k, s.Shows a (pa / 64) k (pa % 64 + i) (BitVec.ofNat 8 (x / 256 ^ i))) : Spec.Holds s a scope home pa n x := by
  refine List.ext_getElem (by simp [State.loadBytes, length_leBytes]) fun i hi _ => ?_
  have hin : i < n := by simpa [State.loadBytes] using hi
  obtain ⟨k, shown⟩ := h i hin
  rw [getElem_leBytes]
  simpa [State.loadBytes] using lineByte_view (by omega) shown scope home

end Sys2Proof.Machine
end

section
/-! PROOF. What the operations of memory leave of a line at its home and in the caches (R237, R245, R279, R286). -/

namespace Sys2Proof.Machine

/-! ### The home of a line -/

theorem lineByte_num (s : State) (pa j : Nat) (hj : j < 64) : lineByte (BitVec.ofNat 512 (s.num pa 64)) j = s.byte (pa + j) := by
  rw [lineByte_ofNat _ _ hj, State.num, leNat_div _ _ (by simpa [State.bytes] using hj)]
  simp [State.bytes]

theorem homeLine_congr {s t : State} (hl : t.hostLines = s.hostLines) (hm : t.mem = s.mem) (hp : t.hostMap = s.hostMap) (line : Nat) :
    t.homeLine line = s.homeLine line := by
  unfold State.homeLine State.num State.bytes State.byte State.homeKey
  rw [hl, hm, hp]

/-- The bytes that a write at home puts into memory. -/
theorem byte_writeBytes (key n j : Nat) (mask : BitVec 64) (data : BitVec 512) (s : State) (hj : j < n) :
    ((List.range n).foldl (fun t i => if mask.getLsbD i then t.setByte (key + i) (lineByte data i) else t) s).byte (key + j)
      = if mask.getLsbD j then lineByte data j else s.byte (key + j) := by
  have beyond : ∀ m ≤ j,
      ((List.range m).foldl (fun t i => if mask.getLsbD i then t.setByte (key + i) (lineByte data i) else t) s).byte (key + j)
        = s.byte (key + j) := by
    intro m
    induction m with
    | zero => intro; rfl
    | succ m ih =>
      intro hm
      rw [List.range_succ, List.foldl_append, List.foldl_cons, List.foldl_nil]
      split
      · rw [byte_setByte, if_neg (by omega), ih (by omega)]
      · exact ih (by omega)
  induction n with
  | zero => omega
  | succ n ih =>
    rw [List.range_succ, List.foldl_append, List.foldl_cons, List.foldl_nil]
    by_cases e : j = n
    · subst e
      split
      · rw [byte_setByte, if_pos rfl]
      · exact beyond j le_rfl
    · have before := ih (by omega)
      split
      · rw [byte_setByte, if_neg (by omega), before]
      · exact before

theorem writeHome_frame (s : State) (line : Nat) (mask : BitVec 64) (data : BitVec 512) :
    s.writeHome line mask data
      = { s with mem := (s.writeHome line mask data).mem,
                 hostLines := s.hostLines.map fun h => if h.line = line then { h with data := mergeLine mask h.data data } else h } := by
  unfold State.writeHome
  generalize List.range 64 = is
  generalize s.homeKey line = key
  generalize List.map _ s.hostLines = hs
  induction is using List.reverseRecOn with
  | nil => rfl
  | append_singleton is i ih =>
    rw [List.foldl_append, List.foldl_cons, List.foldl_nil]
    generalize List.foldl _ _ is = t at ih ⊢
    split
    · rw [ih]
      rfl
    · exact ih

/-- The line of the host's caches, after a change that keeps the lines' numbers. -/
theorem find?_map_hostLine (hs : List HostLine) (f : HostLine → HostLine) (hf : ∀ h, (f h).line = h.line) (line : Nat) :
    (hs.map f).find? (·.line == line) = (hs.find? (·.line == line)).map f := by
  have same : ((fun h : HostLine => h.line == line) ∘ f) = fun h => h.line == line := by
    funext h
    simp [hf]
  rw [List.find?_map, same]

/-- A write at home leaves the written bytes there. -/
theorem lineByte_writeHome (s : State) (line : Nat) (mask : BitVec 64) (data : BitVec 512) {j : Nat} (hj : j < 64) :
    lineByte ((s.writeHome line mask data).homeLine line) j
      = if mask.getLsbD j then lineByte data j else lineByte (s.homeLine line) j := by
  have lines := congrArg State.hostLines (writeHome_frame s line mask data)
  have key : (s.writeHome line mask data).homeKey line = s.homeKey line := by
    rw [State.homeKey, congrArg State.hostMap (writeHome_frame s line mask data), State.homeKey]
  unfold State.homeLine
  rw [lines, find?_map_hostLine _ _ (fun h => by split <;> rfl)]
  cases hf : s.hostLines.find? (·.line == line) with
  | some h =>
    have : h.line = line := by simpa using List.find?_some hf
    simp only [Option.map_some, this, if_true]
    exact lineByte_mergeLine _ _ _ _ hj
  | none =>
    simp only [Option.map_none]
    rw [lineByte_num _ _ _ hj, lineByte_num _ _ _ hj, key]
    exact byte_writeBytes _ _ _ _ _ _ hj

theorem homeLine_setPoison (s : State) (line other : Nat) (p : Bool) : (s.setPoison other p).homeLine line = s.homeLine line := by
  unfold State.homeLine
  have lines : (s.setPoison other p).hostLines = s.hostLines.map fun h => if h.line = other then { h with poison := p } else h := rfl
  have rest : (s.setPoison other p).num (64 * (s.setPoison other p).homeKey line) 64 = s.num (64 * s.homeKey line) 64 := rfl
  rw [lines, find?_map_hostLine _ _ (fun h => by split <;> rfl), rest]
  cases s.hostLines.find? (·.line == line) with
  | none => rfl
  | some h =>
    simp only [Option.map_some]
    split <;> rfl

theorem homeLine_touch (s : State) (line other : Nat) : (s.touch other).homeLine line = s.homeLine line := by
  unfold State.touch
  dsimp only
  split
  · rfl
  · exact (homeLine_congr rfl rfl rfl line).trans (homeLine_setPoison s line other true)

theorem lineByte_putHome (s : State) (line : Nat) (mask : BitVec 64) (data : BitVec 512) (q : Bool) {j : Nat} (hj : j < 64) :
    lineByte ((s.putHome line mask data q).homeLine line) j
      = if mask.getLsbD j then lineByte data j else lineByte (s.homeLine line) j := by
  have home : (s.putHome line mask data q).homeLine line = ((s.touch line).writeHome line mask data).homeLine line :=
    (homeLine_congr rfl rfl rfl line).trans (homeLine_setPoison _ line line q)
  rw [home, lineByte_writeHome _ _ _ _ hj, homeLine_touch]

/-! ### Copies -/

theorem copies_touch (s : State) (line : Nat) : (s.touch line).copies = s.copies := by
  unfold State.touch
  dsimp only
  split <;> rfl

theorem copies_putHome (s : State) (line : Nat) (mask : BitVec 64) (data : BitVec 512) (q : Bool) :
    (s.putHome line mask data q).copies = s.copies.map fun c => c.pinWritten line mask := by
  have written : ((s.touch line).writeHome line mask data).copies = s.copies := by
    rw [writeHome_frame]
    exact copies_touch s line
  unfold State.putHome
  dsimp only
  rw [← written]
  rfl

/-- Memory and caches are as they were: only monitors and what copies have held may have changed. -/
theorem firedOnDrop_frame (cs : List Copy) (s : State) :
    cs.foldl (fun (t : State) c => (t.remember c.line).notify c.line c.atPoint) s
      = { s with cur := (cs.foldl (fun (t : State) c => (t.remember c.line).notify c.line c.atPoint) s).cur,
                 others := (cs.foldl (fun (t : State) c => (t.remember c.line).notify c.line c.atPoint) s).others,
                 past := (cs.foldl (fun (t : State) c => (t.remember c.line).notify c.line c.atPoint) s).past } := by
  induction cs using List.reverseRecOn with
  | nil => rfl
  | append_singleton cs c ih =>
    rw [List.foldl_append, List.foldl_cons, List.foldl_nil]
    generalize List.foldl _ s cs = t at ih ⊢
    rw [ih]
    rfl

/-- Removing copies changes nothing else but what is remembered and monitors. -/
theorem dropCopies_frame (s : State) (p : Copy → Bool) :
    s.dropCopies p = { s with cur := (s.dropCopies p).cur, others := (s.dropCopies p).others, past := (s.dropCopies p).past,
                              copies := s.copies.filter fun c => !p c } := by
  unfold State.dropCopies
  dsimp only
  have fired := firedOnDrop_frame (s.copies.filter p) s
  generalize List.foldl _ s (s.copies.filter p) = t at fired ⊢
  rw [fired]

theorem copies_dropCopies (s : State) (p : Copy → Bool) : (s.dropCopies p).copies = s.copies.filter fun c => !p c :=
  congrArg State.copies (dropCopies_frame s p)

theorem homeLine_dropCopies (s : State) (p : Copy → Bool) (line : Nat) : (s.dropCopies p).homeLine line = s.homeLine line := by
  rw [dropCopies_frame]
  rfl

/-! ### The agent's own copies stay -/

/-- Every copy of a line on the agent's path is still there. -/
def State.KeepsOwn (s t : State) (a : Agent) (line : Nat) : Prop :=
  ∀ c ∈ s.copies, c.line = line → a.onPath c = true → ∃ d ∈ t.copies, d.level = c.level ∧ d.unit = c.unit ∧ d.line = line

theorem keepsOwn_of_mem {s t : State} {a : Agent} {line : Nat}
    (h : ∀ c ∈ s.copies, c.line = line → a.onPath c = true → c ∈ t.copies) : s.KeepsOwn t a line :=
  fun c hc hl hp => ⟨c, h c hc hl hp, rfl, rfl, hl⟩

theorem State.KeepsOwn.trans {s t u : State} {a : Agent} {line : Nat} (h : s.KeepsOwn t a line) (k : t.KeepsOwn u a line) :
    s.KeepsOwn u a line := by
  intro c hc hl hp
  obtain ⟨d, hd, dl, du, dn⟩ := h c hc hl hp
  obtain ⟨e, he, el, eu, en⟩ := k d hd dn (onPath_congr a dl du ▸ hp)
  exact ⟨e, he, el.trans dl, eu.trans du, en⟩

theorem keepsOwn_map {s t : State} {a : Agent} {line : Nat} {f : Copy → Copy} (ht : t.copies = s.copies.map f)
    (hf : ∀ c, (f c).level = c.level ∧ (f c).unit = c.unit ∧ (f c).line = c.line) : s.KeepsOwn t a line := by
  intro c hc hl _
  obtain ⟨fl, fu, fn⟩ := hf c
  exact ⟨f c, ht ▸ List.mem_map_of_mem hc, fl, fu, fn.trans hl⟩

theorem keepsOwn_dropCopies {s : State} {a : Agent} {line : Nat} {p : Copy → Bool}
    (h : ∀ c, c.line = line → a.onPath c = true → p c = false) : s.KeepsOwn (s.dropCopies p) a line :=
  keepsOwn_of_mem fun c hc hl hp => by
    rw [copies_dropCopies]
    exact List.mem_filter.mpr ⟨hc, by rw [h c hl hp]; rfl⟩

theorem keepsOwn_putCopy (s : State) (a : Agent) (line : Nat) (x : Copy) : s.KeepsOwn (s.putCopy x) a line := by
  intro c hc hl _
  by_cases e : c.level = x.level ∧ c.unit = x.unit ∧ c.line = x.line
  · obtain ⟨e1, e2, e3⟩ := e
    exact ⟨x, List.mem_cons_self, e1.symm, e2.symm, e3 ▸ hl⟩
  · refine ⟨c, List.mem_cons_of_mem _ (List.mem_filter.mpr ⟨hc, ?_⟩), rfl, rfl, hl⟩
    simp only [Bool.not_eq_true', Bool.and_eq_false_iff, beq_eq_false_iff_ne]
    tauto

theorem pinWritten_place (c : Copy) (line : Nat) (mask : BitVec 64) :
    (c.pinWritten line mask).level = c.level ∧ (c.pinWritten line mask).unit = c.unit ∧ (c.pinWritten line mask).line = c.line := by
  unfold Copy.pinWritten
  split <;> exact ⟨rfl, rfl, rfl⟩

theorem pinWritten_cached {c : Copy} (h : c.level ≤ 2) (line : Nat) (mask : BitVec 64) : c.pinWritten line mask = c := by
  rw [Copy.pinWritten, if_neg (by omega)]

theorem keepsOwn_putHome (s : State) (a : Agent) (line other : Nat) (mask : BitVec 64) (data : BitVec 512) (q : Bool) :
    s.KeepsOwn (s.putHome other mask data q) a line := keepsOwn_map (copies_putHome ..) fun _ => pinWritten_place ..

/-- Below a level, the copies after bytes have gone home are those before. -/
theorem mem_sentHome {cs : List Copy} {s : State} {c : Copy} (hc : c.level ≤ 2) :
    c ∈ (cs.foldl State.sendHome s).copies ↔ c ∈ s.copies := by
  induction cs generalizing s with
  | nil => rfl
  | cons d rest ih =>
    rw [List.foldl_cons, ih, State.sendHome, copies_putHome, List.mem_map]
    constructor
    · rintro ⟨e, he, rfl⟩
      rw [(pinWritten_place e _ _).1] at hc
      rwa [pinWritten_cached hc]
    · exact fun h => ⟨c, h, pinWritten_cached hc ..⟩

theorem level_of_owns {c : Copy} (h : c.owns = true) : c.level = 2 := by
  simp only [Copy.owns, Bool.and_eq_true, beq_iff_eq] at h
  exact h.1.1

/-! ### Other dies' bytes are gathered (R266, R279) -/

theorem keepsOwn_gather (s : State) (a : Agent) (x line : Nat) : s.KeepsOwn (s.gather a x line) a line := by
  unfold State.gather
  dsimp only
  split
  · have kept : s.KeepsOwn ((s.owners a line).foldl State.sendHome (s.remember line)) a line :=
      keepsOwn_of_mem fun c hc _ hp => (mem_sentHome (level_of_onPath hp)).mpr hc
    refine kept.trans (State.KeepsOwn.trans (keepsOwn_dropCopies fun c _ hp => ?_) (keepsOwn_of_mem fun c hc _ _ => hc))
    simp [hp]
  · exact keepsOwn_of_mem fun c hc _ _ => hc

/-- The scopes that lie beyond SYS are as wide as it. -/
theorem covers_min (a : Agent) (c : Copy) : a.covers (Nat.min 7 c.reg) c = a.covers c.reg c := by
  by_cases h : c.reg ≤ 7
  · rw [show Nat.min 7 c.reg = c.reg from Nat.min_eq_right h]
  · rw [show Nat.min 7 c.reg = 7 from Nat.min_eq_left (by omega)]
    have h1 : ¬ c.reg ≤ 1 := by omega
    have h2 : c.reg ≠ 2 := by omega
    have h3 : c.reg ≠ 3 := by omega
    have h4 : c.reg ≠ 4 := by omega
    have h5 : c.reg ≠ 5 := by omega
    simp [Agent.covers, h1, h2, h3, h4, h5]

theorem mem_owners {s : State} {a : Agent} {line : Nat} {c : Copy} (hc : c ∈ s.copies) (hl : c.line = line) (ho : c.owns = true)
    (hp : a.onPath c = false) (hv : a.covers c.reg c = true) : c ∈ s.owners a line := by
  have wide : 4 ≤ c.reg := by
    simp only [Copy.owns, Bool.and_eq_true, decide_eq_true_eq] at ho
    exact ho.1.2
  have mine : c ∈ s.copies.filter fun c => c.line == line && c.owns && !a.onPath c && a.covers c.reg c :=
    List.mem_filter.mpr ⟨hc, by simp [hl, ho, hp, hv]⟩
  simp only [State.owners, List.mem_append]
  have : 6 ≤ c.reg ∨ c.reg = 5 ∨ c.reg = 4 := by omega
  rcases this with h | h | h
  · exact .inl (.inl (List.mem_filter.mpr ⟨mine, by simpa using h⟩))
  · exact .inl (.inr (List.mem_filter.mpr ⟨mine, by simpa using h⟩))
  · exact .inr (List.mem_filter.mpr ⟨mine, by simpa using h⟩)

/-- An access performed at the home leaves no bytes with other dies. -/
theorem unowned_gather (s : State) (a : Agent) (line : Nat) : (s.gather a 7 line).Unowned a line := by
  unfold State.gather
  dsimp only
  split
  · intro c hc hl ho hp
    by_contra hv
    have dropped := (List.mem_filter.mp (copies_dropCopies .. ▸ hc)).2
    simp [hl, ho, hp, level_of_owns ho, hv] at dropped
  · next none_ =>
    intro c hc hl ho hp
    by_contra hv
    rw [Bool.not_eq_false] at hv
    refine none_ ⟨rfl, List.any_eq_true.mpr ⟨c, mem_owners hc hl ho hp hv, ?_⟩⟩
    rw [Agent.mutual, covers_min, hv]

end Sys2Proof.Machine
end

section
/-! PROOF. The last bytes performed at a place are what an access of its agent sees there (R245, R277 to R280, R332). -/

namespace Sys2Proof.Machine

/-! ### Pinned lines are updated in place (R332) -/

/-- A clean copy that is put off the agent's path changes nothing that the agent sees. -/
theorem shows_putCopy {s : State} {a : Agent} {line k j : Nat} {b : Byte} {x : Copy} (h : s.Shows a line k j b)
    (hp : a.onPath x = false) (hd : x.dirty = 0) : (s.putCopy x).Shows a line k j b := by
  obtain ⟨own, far⟩ := h
  refine ⟨fun c hc hl hon hk => ?_, ?_⟩
  · rcases List.mem_cons.mp hc with rfl | hc
    · simp [hp] at hon
    · exact own c (List.mem_filter.mp hc).1 hl hon hk
  · rcases far with ⟨c, hc, hl, hon, hk, hb⟩ | ⟨rfl, unowned, hb⟩
    · refine .inl ⟨c, List.mem_cons_of_mem _ (List.mem_filter.mpr ⟨hc, ?_⟩), hl, hon, hk, hb⟩
      by_contra e
      simp only [Bool.not_eq_true', Bool.not_eq_false, Bool.and_eq_true, beq_iff_eq] at e
      rw [onPath_congr a e.1.1 e.1.2, hp] at hon
      cases hon
    · refine .inr ⟨rfl, fun c hc hl ho hoff => ?_, hb⟩
      rcases List.mem_cons.mp hc with rfl | hc
      · simp [Copy.owns, hd] at ho
      · exact unowned c (List.mem_filter.mp hc).1 hl ho hoff

theorem shows_keepPins {s t : State} {a : Agent} {line k j : Nat} {b : Byte} (kept : s.KeepsOwn t a line)
    (h : t.Shows a line k j b) : (t.keepPins s line).Shows a line k j b := by
  unfold State.keepPins
  have pinned : ∀ c ∈ s.copies.filter (fun c => c.level == 1 && c.line == line && (s.tilePins c.unit).contains line),
      c ∈ s.copies ∧ c.level = 1 ∧ c.line = line := fun c hc => by
    obtain ⟨hm, hb⟩ := List.mem_filter.mp hc
    simp only [Bool.and_eq_true, beq_iff_eq] at hb
    exact ⟨hm, hb.1⟩
  generalize s.copies.filter _ = cs at pinned
  induction cs generalizing t with
  | nil => exact h
  | cons c rest ih =>
    rw [List.foldl_cons]
    obtain ⟨hm, hlevel, hline⟩ := pinned c List.mem_cons_self
    refine ih ?_ ?_ fun d hd => pinned d (List.mem_cons_of_mem _ hd)
    · split
      · exact kept
      · exact kept.trans (keepsOwn_putCopy _ _ _ _)
    · split
      · exact h
      · next missing =>
        refine shows_putCopy h ?_ rfl
        by_contra hon
        rw [Bool.not_eq_false] at hon
        obtain ⟨d, hd, dl, du, dn⟩ := kept c hm hline hon
        exact missing (List.any_eq_true.mpr ⟨d, hd, by simp [dl, du, dn, hlevel]⟩)

/-! ### Bytes at a coherence point -/

/-- The agent's copies inside a level take the bytes that are performed there. -/
def Copy.passed (c : Copy) (a : Agent) (scope x line : Nat) (v : Arrival) : Copy :=
  if c.line = line ∧ a.onPath c = true ∧ c.level < pointLevel x then c.refreshed scope x v else c

theorem refreshed_place (c : Copy) (scope x : Nat) (v : Arrival) :
    (c.refreshed scope x v).level = c.level ∧ (c.refreshed scope x v).unit = c.unit ∧ (c.refreshed scope x v).line = c.line := by
  unfold Copy.refreshed
  split
  · exact ⟨rfl, rfl, rfl⟩
  · split <;> exact ⟨rfl, rfl, rfl⟩

theorem passed_place (c : Copy) (a : Agent) (scope x line : Nat) (v : Arrival) :
    (c.passed a scope x line v).level = c.level ∧ (c.passed a scope x line v).unit = c.unit
      ∧ (c.passed a scope x line v).line = c.line := by
  unfold Copy.passed
  split
  · exact refreshed_place ..
  · exact ⟨rfl, rfl, rfl⟩

/-- A copy that takes bytes has them. -/
theorem lineByte_refreshed (c : Copy) (scope x : Nat) {v : Arrival} {j : Nat} (hj : j < 64) (hv : v.mask.getLsbD j = true) :
    lineByte (c.refreshed scope x v).data j = lineByte v.data j := by
  unfold Copy.refreshed
  split
  · rfl
  · split
    · exact (lineByte_mergeLine _ _ _ _ hj).trans (if_pos hv)
    · rfl

theorem lineByte_passed {c : Copy} {a : Agent} {scope x line : Nat} {v : Arrival} {j : Nat} (hj : j < 64)
    (hv : v.mask.getLsbD j = true) (hl : c.line = line) (hp : a.onPath c = true) (hx : c.level < pointLevel x) :
    lineByte (c.passed a scope x line v).data j = lineByte v.data j := by
  rw [Copy.passed, if_pos ⟨hl, hp, hx⟩, lineByte_refreshed _ _ _ hj hv]

/-- No cache of the agent is the point of scope `x`: the bytes go home (R245, R266). -/
def Agent.atHome (a : Agent) (x : Nat) : Bool := decide (6 < x) || ((a.unit (pointLevel x)).isNone && pointLevel x != 3)

/-- The copies of other agents that a store to a point of scope `x` invalidates. -/
def Copy.stale (c : Copy) (a : Agent) (x line : Nat) : Bool :=
  c.line == line && c.level < 3 && !a.onPath c && (a.mutual x c || (a.atHome x && c.dirty == 0))

theorem stale_own {c : Copy} {a : Agent} (x line : Nat) (h : a.onPath c = true) : c.stale a x line = false := by
  simp [Copy.stale, h]

/-- The state once the copies that a store invalidates are gone and those that it passes have its bytes. -/
def State.passing (s : State) (a : Agent) (scope x line : Nat) (v : Arrival) : State :=
  let t := (s.remember line).dropCopies fun c => c.stale a x line
  { t with copies := t.copies.map fun c => c.passed a scope x line v }

/-- The copy at a point that keeps what arrives there. -/
def State.pointCopy (s : State) (a : Agent) (x line : Nat) (v : Arrival) : Copy :=
  let own := (s.pathCopies a line).find? (·.level = pointLevel x)
  { level := pointLevel x, unit := (a.unit (pointLevel x)).getD 0, line := line, reg := Nat.max x 1,
    dirty := (match own with | some c => c.dirty | none => 0) ||| v.mask, data := v.data, poison := v.poison,
    whole := v.whole || (match own with | some c => c.whole | none => false), pinned := false }

theorem reachPoint_eq (s : State) (a : Agent) (scope x line : Nat) (v : Arrival) :
    s.reachPoint a scope x line v
      = (if a.atHome x then (s.passing a scope x line v).putHome line v.mask v.data v.poison
        else if pointLevel x = 3 then s.passing a scope x line v
        else (s.passing a scope x line v).putCopy (s.pointCopy a x line v)).notify line
          fun core sc => Nat.max sc 1 ≤ Nat.max x 1 && a.near (Nat.max sc 1) core := rfl

theorem copies_passing (s : State) (a : Agent) (scope x line : Nat) (v : Arrival) :
    (s.passing a scope x line v).copies
      = (s.copies.filter fun c => !c.stale a x line).map fun c => c.passed a scope x line v := by
  have dropped := copies_dropCopies (s.remember line) fun c => c.stale a x line
  rw [State.passing]
  dsimp only
  rw [dropped]
  rfl

theorem mem_passing {s : State} {a : Agent} {scope x line : Nat} {v : Arrival} {d : Copy}
    (h : d ∈ (s.passing a scope x line v).copies) : ∃ c ∈ s.copies, d = c.passed a scope x line v := by
  obtain ⟨c, hc, e⟩ := List.mem_map.mp (copies_passing .. ▸ h)
  exact ⟨c, (List.mem_filter.mp hc).1, e.symm⟩

theorem passed_mem {s : State} {a : Agent} (scope x line : Nat) (v : Arrival) {c : Copy} (hc : c ∈ s.copies)
    (hp : a.onPath c = true) : c.passed a scope x line v ∈ (s.passing a scope x line v).copies := by
  rw [copies_passing]
  exact List.mem_map.mpr ⟨c, List.mem_filter.mpr ⟨hc, by rw [stale_own x line hp]; rfl⟩, rfl⟩

theorem keepsOwn_passing (s : State) (a : Agent) (scope x line : Nat) (v : Arrival) :
    s.KeepsOwn (s.passing a scope x line v) a line := fun c hc hl hp => by
  obtain ⟨cl, cu, cn⟩ := passed_place c a scope x line v
  exact ⟨_, passed_mem scope x line v hc hp, cl, cu, cn.trans hl⟩

/-- The own copies of the line that are passed have the bytes. -/
theorem lineByte_passing {s : State} {a : Agent} {scope x line : Nat} {v : Arrival} {d : Copy} {j : Nat} (hj : j < 64)
    (hv : v.mask.getLsbD j = true) (h : d ∈ (s.passing a scope x line v).copies) (hl : d.line = line) (hp : a.onPath d = true)
    (hx : d.level < pointLevel x) : lineByte d.data j = lineByte v.data j := by
  obtain ⟨c, -, rfl⟩ := mem_passing h
  obtain ⟨cl, cu, cn⟩ := passed_place c a scope x line v
  exact lineByte_passed hj hv (cn ▸ hl) (onPath_congr a cl cu ▸ hp) (cl ▸ hx)

/-- Monitors aside, a byte shows after a notice as before. -/
theorem shows_notify {s : State} {a : Agent} {line k j : Nat} {b : Byte} (h : s.Shows a line k j b) (other : Nat)
    (hit : Nat → Nat → Bool) : (s.notify other hit).Shows a line k j b := h

theorem keepsOwn_reachPoint (s : State) (a : Agent) (scope x line : Nat) (v : Arrival) :
    s.KeepsOwn (s.reachPoint a scope x line v) a line := by
  rw [reachPoint_eq]
  have passing := keepsOwn_passing s a scope x line v
  refine State.KeepsOwn.trans ?_ (keepsOwn_of_mem fun c hc _ _ => hc)
  split
  · exact passing.trans (keepsOwn_putHome _ _ _ _ _ _ _)
  · split
    · exact passing
    · exact passing.trans (keepsOwn_putCopy _ _ _ _)

/-- Bytes at the point of a cache show there. -/
theorem shows_reachCache {s : State} {a : Agent} {x : Nat} (scope : Nat) {line j : Nat} {v : Arrival} (hj : j < 64)
    (hv : v.mask.getLsbD j = true) (hx : x ≤ 3) (home : a.atHome x = false) :
    (s.reachPoint a scope x line v).Shows a line (pointLevel x) j (lineByte v.data j) := by
  have level : pointLevel x ≠ 3 := by
    unfold pointLevel
    split_ifs <;> omega
  have unit : ∃ u, a.unit (pointLevel x) = some u := by
    rw [← Option.isSome_iff_exists]
    simpa [Agent.atHome, level, show ¬ 6 < x by omega, Option.isSome_iff_ne_none] using home
  obtain ⟨u, hu⟩ := unit
  have on : a.onPath (s.pointCopy a x line v) = true := by simp [Agent.onPath, State.pointCopy, hu]
  rw [reachPoint_eq, home, if_neg Bool.false_ne_true, if_neg level]
  refine shows_notify ⟨fun c hc hl hp hk => ?_, .inl ⟨_, List.mem_cons_self, rfl, on, rfl, ?_⟩⟩ _ _
  · rcases List.mem_cons.mp hc with rfl | hc
    · rfl
    · obtain ⟨hm, other⟩ := List.mem_filter.mp hc
      refine lineByte_passing hj hv hm hl hp (lt_of_le_of_ne hk fun e => ?_)
      have here : c.unit = u := by
        have := beq_iff_eq.mp hp
        rw [e, hu] at this
        exact (Option.some.inj this).symm
      simp [State.pointCopy, e, hl, here, hu] at other
  · simp [State.pointCopy, hv]

/-- Bytes that an L3 of the agent keeps show there. -/
theorem shows_reachOwner {s : State} {a : Agent} {x : Nat} (scope : Nat) {line j : Nat} {v : Arrival} (hj : j < 64)
    (hv : v.mask.getLsbD j = true) (h3 : 3 < x) (h6 : x ≤ 6) {c : Copy} (hc : c ∈ s.copies) (hl : c.line = line)
    (hp : a.onPath c = true) (h2 : c.level = 2) : (s.reachPoint a scope x line v).Shows a line 2 j (lineByte v.data j) := by
  have level : pointLevel x = 3 := by
    unfold pointLevel
    split_ifs <;> omega
  have home : a.atHome x = false := by simp [Agent.atHome, level, show ¬ 6 < x by omega]
  rw [reachPoint_eq, home, if_neg Bool.false_ne_true, if_pos level]
  obtain ⟨cl, cu, cn⟩ := passed_place c a scope x line v
  refine shows_notify ⟨fun d hd dl dp dk => lineByte_passing hj hv hd dl dp (by omega),
    .inl ⟨_, passed_mem scope x line v hc hp, cn.trans hl, onPath_congr a cl cu ▸ hp, cl.trans h2, ?_⟩⟩ _ _
  rw [Copy.passed, if_pos ⟨hl, hp, by omega⟩, Copy.refreshed, if_pos ⟨h2, level, h6⟩]
  simp [hv]

/-- Bytes that have gone home show there. -/
theorem shows_reachHome {s : State} {a : Agent} {x : Nat} (scope : Nat) {line j : Nat} {v : Arrival} (hj : j < 64)
    (hv : v.mask.getLsbD j = true) (hx : 6 < x) (unowned : s.Unowned a line) :
    (s.reachPoint a scope x line v).Shows a line 2 j (lineByte v.data j) := by
  have level : pointLevel x = 3 := by
    unfold pointLevel
    split_ifs <;> omega
  have home : a.atHome x = true := by simp [Agent.atHome, hx]
  have below : ∀ d ∈ ((s.passing a scope x line v).putHome line v.mask v.data v.poison).copies, d.level ≤ 2 →
      d ∈ (s.passing a scope x line v).copies := by
    intro d hd hk
    rw [copies_putHome] at hd
    obtain ⟨e, he, rfl⟩ := List.mem_map.mp hd
    rw [(pinWritten_place e _ _).1] at hk
    rwa [pinWritten_cached hk]
  rw [reachPoint_eq, home, if_pos rfl]
  refine shows_notify ⟨fun d hd dl dp dk => lineByte_passing hj hv (below d hd dk) dl dp (by omega), .inr ⟨rfl, ?_, ?_⟩⟩ _ _
  · intro d hd dl owner dp
    obtain ⟨c, hc, rfl⟩ := mem_passing (below d hd (level_of_owns owner).le)
    obtain ⟨cl, cu, cn⟩ := passed_place c a scope x line v
    have same : c.passed a scope x line v = c := by
      rw [Copy.passed, if_neg]
      rintro ⟨-, on, -⟩
      rw [onPath_congr a cl cu, on] at dp
      cases dp
    rw [same] at dl owner dp ⊢
    exact unowned c hc dl owner dp
  · exact (lineByte_putHome _ _ _ _ _ hj).trans (if_pos hv)

/-! ### The last bytes performed -/

theorem add_mask {x : Arrival} {mask : BitVec 64} {data : BitVec 512} {p : Bool} {j : Nat} (h : mask.getLsbD j = true) :
    (x.add mask data p).mask.getLsbD j = true := by
  simp [Arrival.add, h]

theorem add_data {x : Arrival} {mask : BitVec 64} {data : BitVec 512} {p : Bool} {j : Nat} (hj : j < 64)
    (h : mask.getLsbD j = true) : lineByte (x.add mask data p).data j = lineByte data j :=
  (lineByte_mergeLine _ _ _ _ hj).trans (if_pos h)

/-- The point that bytes come to: a cache of the agent, an L3 that keeps bytes of a wider scope, or the home. -/
theorem reach_cases (s : State) (a : Agent) (scope line : Nat) :
    s.reach a scope line ≤ 3
      ∨ (3 < s.reach a scope line ∧ s.reach a scope line ≤ 6
          ∧ ∃ c ∈ s.copies, c.line = line ∧ a.onPath c = true ∧ c.level = 2)
      ∨ s.reach a scope line = 7 := by
  unfold State.reach
  split
  · next c hc =>
    obtain ⟨hm, hl, hp⟩ := mem_pathCopies.mp (List.mem_of_find?_eq_some hc)
    have h2 : c.level = 2 := by simpa using List.find?_some hc
    generalize (if 3 ≤ scope ∧ c.dirty ≠ 0 then Nat.max scope c.reg else scope) = x
    dsimp only
    split
    · exact .inr (.inr rfl)
    · by_cases h3 : x ≤ 3
      · exact .inl h3
      · exact .inr (.inl ⟨by omega, by omega, c, hm, hl, hp, h2⟩)
  · split
    · exact .inr (.inr rfl)
    · exact .inl (by omega)

theorem atHome_ofCore (core : Nat) {x : Nat} (hx : x ≤ 6) : (Agent.ofCore core).atHome x = false := by
  have unit : pointLevel x ≠ 3 → ((Agent.ofCore core).unit (pointLevel x)).isNone = false := by
    unfold pointLevel
    split_ifs <;> simp [Agent.unit, Agent.ofCore]
  by_cases h : pointLevel x = 3
  · simp [Agent.atHome, h, show ¬ 6 < x by omega]
  · simp [Agent.atHome, unit h, show ¬ 6 < x by omega]

theorem shows_reachPoint {s : State} {core scope line x j : Nat} {v : Arrival} (hj : j < 64) (hv : v.mask.getLsbD j = true)
    (cases_ : x ≤ 3 ∨ (3 < x ∧ x ≤ 6 ∧ ∃ c ∈ s.copies, c.line = line ∧ (Agent.ofCore core).onPath c = true ∧ c.level = 2)
      ∨ (x = 7 ∧ s.Unowned (Agent.ofCore core) line)) :
    ∃ k, (s.reachPoint (Agent.ofCore core) scope x line v).Shows (Agent.ofCore core) line k j (lineByte v.data j) := by
  rcases cases_ with h3 | ⟨h3, h6, c, hc, hl, hp, h2⟩ | ⟨rfl, unowned⟩
  · exact ⟨_, shows_reachCache scope hj hv h3 (atHome_ofCore core (by omega))⟩
  · exact ⟨2, shows_reachOwner scope hj hv h3 h6 hc hl hp h2⟩
  · exact ⟨2, shows_reachHome scope hj hv (by omega) unowned⟩

/-- What a store leaves: nothing, or its bytes at their point after those that it carries along. -/
theorem performAt_eq (s : State) (a : Agent) (scope line : Nat) (mask : BitVec 64) (data : BitVec 512) (p : Bool) :
    ∃ v : Arrival, s.performAt a scope line mask data p
      = if (v.add mask data p).mask = 0 then s
        else (((s.touch line).gather a (s.reach a scope line) line).reachPoint a scope (s.reach a scope line) line
          (v.add mask data p)).keepPins s line := ⟨_, rfl⟩

theorem keepsOwn_gathered (s : State) (a : Agent) (x line : Nat) : s.KeepsOwn ((s.touch line).gather a x line) a line :=
  State.KeepsOwn.trans (keepsOwn_of_mem fun _ hc _ _ => copies_touch s line ▸ hc) (keepsOwn_gather (s.touch line) a x line)

/-- The bytes that a store performs at a point show. -/
theorem shows_performAt (s : State) (core scope line : Nat) {mask : BitVec 64} (data : BitVec 512) (p : Bool) {j : Nat} (hj : j < 64)
    (hm : mask.getLsbD j = true) :
    ∃ k, (s.performAt (Agent.ofCore core) scope line mask data p).Shows (Agent.ofCore core) line k j (lineByte data j) := by
  obtain ⟨v, e⟩ := performAt_eq s (Agent.ofCore core) scope line mask data p
  have place := reach_cases s (Agent.ofCore core) scope line
  rw [e]
  generalize s.reach (Agent.ofCore core) scope line = x at place ⊢
  have kept := keepsOwn_gathered s (Agent.ofCore core) x line
  have unowned := unowned_gather (s.touch line) (Agent.ofCore core) line
  have vm : (v.add mask data p).mask.getLsbD j = true := add_mask hm
  have some_ : (v.add mask data p).mask ≠ 0 := fun e => by simp [e] at vm
  have point : x ≤ 3
      ∨ (3 < x ∧ x ≤ 6 ∧ ∃ c ∈ ((s.touch line).gather (Agent.ofCore core) x line).copies,
          c.line = line ∧ (Agent.ofCore core).onPath c = true ∧ c.level = 2)
      ∨ (x = 7 ∧ ((s.touch line).gather (Agent.ofCore core) x line).Unowned (Agent.ofCore core) line) := by
    rcases place with h3 | ⟨h3, h6, c, hc, hl, hp, h2⟩ | rfl
    · exact .inl h3
    · obtain ⟨d, hd, dl, du, dn⟩ := kept c hc hl hp
      exact .inr (.inl ⟨h3, h6, d, hd, dn, onPath_congr _ dl du ▸ hp, dl.trans h2⟩)
    · exact .inr (.inr ⟨rfl, unowned⟩)
  obtain ⟨k, shown⟩ := shows_reachPoint (scope := scope) hj vm point
  rw [if_neg some_, ← add_data (x := v) (p := p) hj hm]
  exact ⟨k, shows_keepPins (kept.trans (keepsOwn_reachPoint _ _ _ _ _ _)) shown⟩

/-- An agent's own copy of a line after bytes have been performed at the home. -/
def Copy.homeWritten (c : Copy) (a : Agent) (line : Nat) (mask : BitVec 64) (data : BitVec 512) (p : Bool) : Copy :=
  if c.line = line ∧ a.onPath c = true then
    { c with data := mergeLine mask c.data data, dirty := c.dirty &&& ~~~mask, poison := poisonAfter mask c.poison p }
  else c

theorem homeWritten_place (c : Copy) (a : Agent) (line : Nat) (mask : BitVec 64) (data : BitVec 512) (p : Bool) :
    (c.homeWritten a line mask data p).level = c.level ∧ (c.homeWritten a line mask data p).unit = c.unit
      ∧ (c.homeWritten a line mask data p).line = c.line := by
  unfold Copy.homeWritten
  split <;> exact ⟨rfl, rfl, rfl⟩

/-- The state once bytes are at the home and clean copies elsewhere are gone. -/
def State.wentHome (s : State) (a : Agent) (line : Nat) (mask : BitVec 64) (data : BitVec 512) (p : Bool) : State :=
  let t := s.gather a 7 line
  ((t.remember line).putHome line mask data (poisonAfter mask ((t.remember line).poisoned line) p)).dropCopies fun c =>
    c.line == line && c.level < 3 && !a.onPath c && c.dirty == 0

theorem performHome_eq (s : State) (a : Agent) (line : Nat) (mask : BitVec 64) (data : BitVec 512) (p : Bool) :
    s.performHome a line mask data p
      = (({ s.wentHome a line mask data p with
              copies := (s.wentHome a line mask data p).copies.map fun c : Copy => c.homeWritten a line mask data p }).notify line
          fun _ _ => true).keepPins s line := rfl

theorem keepsOwn_wentHome (s : State) (a : Agent) (line : Nat) (mask : BitVec 64) (data : BitVec 512) (p : Bool) :
    s.KeepsOwn (s.wentHome a line mask data p) a line := by
  unfold State.wentHome
  dsimp only
  have gathered := keepsOwn_gather s a 7 line
  generalize s.gather a 7 line = t at gathered ⊢
  have remembered : t.KeepsOwn (t.remember line) a line := keepsOwn_of_mem fun c hc _ _ => hc
  refine ((gathered.trans remembered).trans (keepsOwn_putHome _ _ _ _ _ _ _)).trans (keepsOwn_dropCopies fun c _ hp => ?_)
  simp [hp]

theorem unowned_wentHome (s : State) (a : Agent) (line : Nat) (mask : BitVec 64) (data : BitVec 512) (p : Bool) :
    (s.wentHome a line mask data p).Unowned a line := by
  intro c hc hl ho hp
  unfold State.wentHome at hc
  dsimp only at hc
  rw [copies_dropCopies, copies_putHome] at hc
  obtain ⟨d, hd, rfl⟩ := List.mem_map.mp (List.mem_filter.mp hc).1
  have cached : d.level ≤ 2 := (pinWritten_place d line mask).1 ▸ (level_of_owns ho).le
  rw [pinWritten_cached cached] at hl ho hp ⊢
  exact unowned_gather s a line d hd hl ho hp

theorem homeLine_wentHome (s : State) (a : Agent) (line : Nat) {mask : BitVec 64} (data : BitVec 512) (p : Bool) {j : Nat}
    (hj : j < 64) (hm : mask.getLsbD j = true) : lineByte ((s.wentHome a line mask data p).homeLine line) j = lineByte data j := by
  unfold State.wentHome
  dsimp only
  rw [homeLine_dropCopies, lineByte_putHome _ _ _ _ _ hj, if_pos hm]

/-- The bytes that a store performs at the home show. -/
theorem shows_performHome (s : State) (a : Agent) (line : Nat) {mask : BitVec 64} (data : BitVec 512) (p : Bool) {j : Nat} (hj : j < 64)
    (hm : mask.getLsbD j = true) : (s.performHome a line mask data p).Shows a line 2 j (lineByte data j) := by
  have kept := keepsOwn_wentHome s a line mask data p
  have unowned := unowned_wentHome s a line mask data p
  have home := homeLine_wentHome s a line data p hj hm
  rw [performHome_eq]
  generalize s.wentHome a line mask data p = t at kept unowned home
  have place := fun c : Copy => homeWritten_place c a line mask data p
  refine shows_keepPins (kept.trans ((keepsOwn_map rfl place).trans (keepsOwn_of_mem fun c hc _ _ => hc))) (shows_notify ?_ _ _)
  refine ⟨fun d hd dl dp _ => ?_, .inr ⟨rfl, fun d hd dl owner dp => ?_, home⟩⟩
  · obtain ⟨c, -, rfl⟩ := List.mem_map.mp hd
    obtain ⟨cl, cu, cn⟩ := place c
    rw [Copy.homeWritten, if_pos ⟨cn ▸ dl, onPath_congr a cl cu ▸ dp⟩]
    exact (lineByte_mergeLine _ _ _ _ hj).trans (if_pos hm)
  · obtain ⟨c, hc, rfl⟩ := List.mem_map.mp hd
    obtain ⟨cl, cu, cn⟩ := place c
    have off : a.onPath c = false := onPath_congr a cl cu ▸ dp
    have same : c.homeWritten a line mask data p = c := by
      rw [Copy.homeWritten, if_neg (by simp [off])]
    rw [same] at dl owner ⊢
    exact unowned c hc dl owner off

theorem shows_perform (s : State) (core scope : Nat) (home : Home) (line : Nat) {mask : BitVec 64} (data : BitVec 512) (p : Bool)
    {j : Nat} (hj : j < 64) (hm : mask.getLsbD j = true) :
    ∃ k, (s.perform (Agent.ofCore core) scope home line mask data p).Shows (Agent.ofCore core) line k j (lineByte data j) := by
  unfold State.perform
  split
  · exact ⟨2, shows_performHome s _ line data p hj hm⟩
  · exact shows_performAt _ core scope line data p hj hm

/-- A core reads what it has stored. -/
theorem holds_storeBytes (s : State) (core scope : Nat) (home : Home) {pa n : Nat} (x : Nat) (hn : pa % 64 + n ≤ 64) :
    Spec.Holds (s.storeBytes (Agent.ofCore core) scope home pa n x) (Agent.ofCore core) scope home pa n x :=
  holds_of_shows scope home hn fun i hi => by
    have placed : (placeBytes (pa % 64) n x).1.getLsbD (pa % 64 + i) = true := by
      rw [getLsbD_placeBytes_mask _ _ _ _ hn]
      simpa using hi
    rw [← lineByte_placeBytes (pa % 64) n x i hn hi]
    exact shows_perform s core scope home (pa / 64) _ false (by omega) placed

end Sys2Proof.Machine
end

section
/-! PROOF. Operations in flight: the group that they belong to comes into focus for a move of the device, receives what they return, and
the operation is over or has lanes left (R61, R64, R117). -/

namespace Sys2Proof.Machine

/-! ### A move of one group -/

/-- Nothing but groups and the focus has changed. -/
def State.OnlyGroups (s t : State) : Prop := t = { s with cur := t.cur, others := t.others }

namespace State.OnlyGroups

variable {s t : State} (h : s.OnlyGroups t)
include h

theorem mem : t.mem = s.mem := by rw [h]
theorem teams : t.teams = s.teams := by rw [h]
theorem launches : t.launches = s.launches := by rw [h]
theorem writeBuf : t.writeBuf = s.writeBuf := by rw [h]
theorem tableLines : t.tableLines = s.tableLines := by rw [h]

end State.OnlyGroups

theorem onlyGroups_focus (s : State) (g : Nat) : s.OnlyGroups (s.focus g) := focus_frame s g

/-- The groups are the same ones. -/
def State.SameIds (s t : State) : Prop := t.cur.id = s.cur.id ∧ t.others.map (·.id) = s.others.map (·.id)

theorem State.SameIds.trans {s t u : State} (h : s.SameIds t) (k : t.SameIds u) : s.SameIds u := ⟨k.1.trans h.1, k.2.trans h.2⟩

/-- The result of a move of a group: the focus is where it was, and the group is as the move left it. -/
theorem inGroup?_next {s t : State} {g : Nat} {x : Group} {f : State → Option State} (name : String) (hs : s.Distinct)
    (hx : s.group? g = some x) (hf : f (s.focus g) = some t) (ids : (s.focus g).SameIds t) :
    ∃ r, Out.ofOption name (s.inGroup? g f) = .next r ∧ r.group? g = some t.cur ∧ t.OnlyGroups r
      ∧ (t.others = (s.focus g).others → Spec.OtherGroups s r g) := by
  have cur : (s.focus g).cur = x := cur_focus hx hs
  have number : t.cur.id = g := by rw [ids.1, cur, id_of_group? hx]
  have focused : (s.focus g).Distinct := distinct_focus hs g
  have distinct : t.Distinct := distinct_of_cur ids.1 ids.2 focused
  have nz : t.cur.id ≠ 0 := by
    rw [number, ← id_of_group? hx]
    exact hs.2 x (mem_of_group? hx)
  refine ⟨t.focus s.cur.id, ?_, ?_, focus_frame .., fun others h hne => ?_⟩
  · rw [State.inGroup?, hx, hf]
    rfl
  · rw [group?_focus distinct, ← number, group?_cur nz]
  · rw [group?_focus distinct, group?_other (number ▸ hne), others, ← group?_focus hs g h,
      group?_other (by rw [cur, id_of_group? hx]; exact hne)]

/-! ### What a group receives -/

/-- Of a group nothing has changed but registers, queues, poison that it has consumed and monitors. -/
def Group.Receives (x y : Group) : Prop :=
  y = { x with threads := y.threads, sregs := y.sregs, hregs := y.hregs, bad := y.bad, hazards := y.hazards, ppath := y.ppath,
               pva := y.pva, wait := y.wait }

theorem Group.Receives.trans {x y z : Group} (h : x.Receives y) (k : y.Receives z) : x.Receives z := by
  unfold Group.Receives at *
  rw [k, h]

theorem Group.Receives.fields {x y : Group} (h : x.Receives y) :
    y.id = x.id ∧ y.pc = x.pc ∧ y.em = x.em ∧ y.flights = x.flights ∧ y.fpc = x.fpc ∧ y.core = x.core ∧ y.team = x.team := by
  unfold Group.Receives at h
  rw [h]
  exact ⟨rfl, rfl, rfl, rfl, rfl, rfl, rfl⟩

theorem receives_foldl {β : Type} (f : Group → β → Group) (hf : ∀ (g : Group) b, g.Receives (f g b)) (bs : List β) (g : Group) :
    g.Receives (bs.foldl f g) := by
  induction bs generalizing g with
  | nil => rfl
  | cons b rest ih => exact (hf g b).trans (ih _)

theorem receives_setWords (g : Group) (lane first x n : Nat) : g.Receives (g.setWords lane first x n) := by
  induction n with
  | zero => rfl
  | succ n ih => exact ih.trans rfl

theorem receives_setUniforms (g : Group) (handler : Bool) (first x n : Nat) : g.Receives (g.setUniforms handler first x n) := by
  induction n with
  | zero => rfl
  | succ n ih =>
    refine ih.trans ?_
    rw [Group.setUniforms]
    cases handler <;> rfl

theorem receives_deliver (g : Group) (dst : Dst) (vals : List (Nat × Nat)) : g.Receives (g.deliver dst vals) := by
  have settled : ∀ m, g.Receives (g.settleDst dst m) := fun _ => rfl
  unfold Group.deliver
  cases dst with
  | none => exact settled _
  | v first words => exact (settled _).trans (receives_foldl _ (fun h e => receives_setWords ..) vals _)
  | s handler first count =>
    cases vals with
    | nil => exact settled _
    | cons e rest => exact (settled _).trans (receives_setUniforms ..)
  | sLow handler i =>
    cases vals with
    | nil => exact settled _
    | cons e rest => exact (settled _).trans (receives_setUniforms ..)
  | port p => exact settled _

theorem receives_notePoison (g : Group) (path : Nat) (va : DWord) : g.Receives (g.notePoison path va) := by
  unfold Group.notePoison
  split <;> rfl

theorem receives_noteLines (g : Group) (path : Nat) (vas : List DWord) : g.Receives (g.noteLines path vas) :=
  receives_foldl _ (fun _ _ => receives_notePoison ..) vas g

theorem receives_asBefore {x y : Group} (h : Spec.AsBefore x y) : x.Receives y := by
  rcases h with rfl | ⟨_, _, _, _, rfl⟩ <;> rfl

/-! ### The words of a result (R117) -/

/-- A thread with words of a number in its stack, from an entry on. -/
def Thread.withWords (first x : Nat) : Nat → Thread → Thread
  | 0, t => t
  | n + 1, t => (t.withWords first x n).setEntry (first + n) (numWord x n)

theorem threads_setWords (g : Group) (lane first x n : Nat) :
    (g.setWords lane first x n).threads = modLane (Thread.withWords first x n) lane g.threads := by
  induction n with
  | zero =>
    rw [modLane_eq_modify]
    exact (List.modify_id lane g.threads).symm
  | succ n ih =>
    have step : (g.setWords lane first x (n + 1)).threads
        = modLane (fun t => t.setEntry (first + n) (numWord x n)) lane (g.setWords lane first x n).threads := rfl
    rw [step, ih, modLane_eq_modify, modLane_eq_modify, modLane_eq_modify, List.modify_modify_eq]
    rfl

theorem sget_withWords (first x : Nat) (t : Thread) {n i : Nat} (hi : i < n) :
    sget 0 (t.withWords first x n).stack (first + i) = numWord x i := by
  induction n with
  | zero => omega
  | succ n ih =>
    have step : (t.withWords first x (n + 1)).stack = sset 0 (t.withWords first x n).stack (first + n) (numWord x n) := rfl
    rw [step, sget_sset]
    by_cases e : i = n
    · simp [e]
    · rw [if_neg (by omega), ih (by omega)]

theorem threads_delivered (g : Group) (first words : Nat) (vals : List (Nat × Nat)) :
    (g.deliver (.v first words) vals).threads
      = vals.foldl (fun ts e => modLane (Thread.withWords first e.2 words) e.1 ts) g.threads := by
  have fold : ∀ h : Group, (vals.foldl (fun g e => g.setWords e.1 first e.2 words) h).threads
      = vals.foldl (fun ts e => modLane (Thread.withWords first e.2 words) e.1 ts) h.threads := by
    induction vals with
    | nil => intro h; rfl
    | cons e rest ih =>
      intro h
      rw [List.foldl_cons, List.foldl_cons, ih, threads_setWords]
  exact fold _

/-- A lane that receives nothing stays. -/
theorem getD_words_other {first words l : Nat} {vals : List (Nat × Nat)} {ts : List Thread} (hl : l < ts.length)
    (h : l ∉ vals.map (·.1)) :
    (vals.foldl (fun ts e => modLane (Thread.withWords first e.2 words) e.1 ts) ts).getD l (Thread.new 0) = ts.getD l (Thread.new 0) := by
  induction vals generalizing ts with
  | nil => rfl
  | cons e rest ih =>
    simp only [List.map_cons, List.mem_cons, not_or] at h
    rw [List.foldl_cons, ih (by simpa using hl) h.2, getD_modLane _ _ _ _ _ hl, if_neg (Ne.symm h.1)]

theorem getD_words {first words : Nat} {vals : List (Nat × Nat)} {ts : List Thread} (hn : (vals.map (·.1)).Nodup) {e : Nat × Nat}
    (he : e ∈ vals) (hl : e.1 < ts.length) :
    ∃ t, (vals.foldl (fun ts e => modLane (Thread.withWords first e.2 words) e.1 ts) ts).getD e.1 (Thread.new 0)
      = Thread.withWords first e.2 words t := by
  induction vals generalizing ts with
  | nil => cases he
  | cons d rest ih =>
    obtain ⟨hd, hr⟩ := List.nodup_cons.mp hn
    rw [List.foldl_cons]
    rcases List.mem_cons.mp he with rfl | he
    · rw [getD_words_other (by simpa using hl) hd, getD_modLane _ _ _ _ _ hl, if_pos rfl]
      exact ⟨_, rfl⟩
    · exact ih hr he (by simpa using hl)

/-- A result of v-registers gives each lane its words. -/
theorem wordsDelivered_deliver {x g y : Group} (first words : Nat) (vals : List (Nat × Nat))
    (hx : x.threads.length = g.threads.length) (hy : y.threads = (g.deliver (.v first words) vals).threads) :
    Spec.WordsDelivered x y first words vals := by
  intro hn e he hl i hi
  obtain ⟨t, ht⟩ := getD_words (first := first) (words := words) (ts := g.threads) hn he (hx ▸ hl)
  rw [Group.lane, hy, threads_delivered, ht, sget_withWords first e.2 t hi, numWord]

theorem sregs_deliver_v (g : Group) (first words : Nat) (vals : List (Nat × Nat)) :
    (g.deliver (.v first words) vals).sregs = g.sregs ∧ (g.deliver (.v first words) vals).hregs = g.hregs := by
  have word : ∀ (h : Group) lane x n, (h.setWords lane first x n).sregs = h.sregs ∧ (h.setWords lane first x n).hregs = h.hregs := by
    intro h lane x n
    induction n with
    | zero => exact ⟨rfl, rfl⟩
    | succ n ih => exact ih
  have fold : ∀ h : Group, (vals.foldl (fun g e => g.setWords e.1 first e.2 words) h).sregs = h.sregs
      ∧ (vals.foldl (fun g e => g.setWords e.1 first e.2 words) h).hregs = h.hregs := by
    induction vals with
    | nil => exact fun h => ⟨rfl, rfl⟩
    | cons e rest ih =>
      intro h
      rw [List.foldl_cons, (ih _).1, (ih _).2]
      exact word ..
  exact fold _

/-- A result of one s-register. -/
theorem sget_deliver_s (g : Group) (i lane v : Nat) : sget 0 (g.deliver (.s false i 1) [(lane, v)]).sregs i = BitVec.ofNat 64 v := by
  have sregs : (g.deliver (.s false i 1) [(lane, v)]).sregs = sset 0 g.sregs (i + 0) (BitVec.ofNat 64 (v / 2 ^ (64 * 0))) := rfl
  rw [sregs, sget_sset]
  simp

/-! ### The operation is over, or has lanes left (R64, R65) -/

theorem mem_retireDone {path : Nat} {fs : List Flight} {f : Flight} (h : f ∈ retireDone path fs) : f ∈ fs := by
  induction fs with
  | nil => exact h
  | cons d rest ih =>
    unfold retireDone at h
    split at h
    · split at h
      · exact List.mem_cons_of_mem _ (ih h)
      · exact h
    · rcases List.mem_cons.mp h with rfl | h
      · exact List.mem_cons_self
      · exact List.mem_cons_of_mem _ (ih h)

theorem tag_of_flight? {g : Group} {tag : Nat} {f : Flight} (h : g.flight? tag = some f) : f.tag = tag := by
  have := List.find?_some h
  simp only [Bool.and_eq_true, beq_iff_eq] at this
  exact this.1

theorem flight?_complete (g : Group) (tag : Nat) : (g.complete tag).flight? tag = none := by
  unfold Group.complete
  split
  · next none_ =>
    refine List.find?_eq_none.mpr fun f hf => ?_
    have := List.find?_eq_none.mp none_ f hf
    simp only [beq_iff_eq] at this
    simp [this]
  · refine List.find?_eq_none.mpr fun f hf => ?_
    obtain ⟨d, -, rfl⟩ := List.mem_map.mp (mem_retireDone hf)
    split <;> simp_all

theorem flight?_setFlight {g : Group} {tag : Nat} {f : Flight} {h : Flight → Flight} (hf : g.flight? tag = some f)
    (ht : ∀ d, (h d).tag = d.tag) (hd : ∀ d, (h d).done = d.done) : (g.setFlight tag h).flight? tag = some (h f) := by
  have same : ((fun d : Flight => d.tag == tag && !d.done) ∘ fun d => if d.tag = tag then h d else d) = fun d => d.tag == tag && !d.done := by
    funext d
    simp only [Function.comp]
    split
    · rw [ht, hd]
    · rfl
  have tagged := tag_of_flight? hf
  rw [Group.flight?, Group.setFlight, List.find?_map, same]
  unfold Group.flight? at hf
  rw [hf, Option.map_some, if_pos tagged]

theorem flight?_of_flights {g h : Group} (e : h.flights = g.flights) (tag : Nat) : h.flight? tag = g.flight? tag := by
  rw [Group.flight?, e, Group.flight?]

end Sys2Proof.Machine
end

section
/-! PROOF. Results are delivered and operations end: stores acknowledged, results of the lng path, atomics on table lines (R61, R64, R129,
R253, R260). -/

namespace Sys2Proof.Machine

/-! ### What a move of a group in focus leaves -/

/-- The group in focus has received something; the groups are the same ones, and so are teams and launches. -/
structure State.Receives (s t : State) : Prop where
  ids : s.SameIds t
  cur : s.cur.Receives t.cur
  teams : t.teams = s.teams
  launches : t.launches = s.launches

theorem State.Receives.refl (s : State) : s.Receives s := ⟨⟨rfl, rfl⟩, rfl, rfl, rfl⟩

theorem State.Receives.trans {s t u : State} (h : s.Receives t) (k : t.Receives u) : s.Receives u :=
  ⟨h.ids.trans k.ids, h.cur.trans k.cur, k.teams.trans h.teams, k.launches.trans h.launches⟩

theorem receives_modCur (s : State) {f : Group → Group} (h : s.cur.Receives (f s.cur)) : s.Receives (s.modCur f) :=
  ⟨⟨h.fields.1, rfl⟩, h, rfl, rfl⟩

theorem MemoryMoved.receives {s t : State} (h : MemoryMoved s t) : s.Receives t := by
  refine ⟨⟨(asBefore_fields h.2.1).1, ids_of_forall₂ h.2.2⟩, receives_asBefore h.2.1, ?_, ?_⟩ <;> rw [h.1]

theorem asBefore_sregs {x y : Group} (h : Spec.AsBefore x y) : y.sregs = x.sregs ∧ y.hregs = x.hregs := by
  rcases h with rfl | ⟨_, _, _, _, rfl⟩ <;> exact ⟨rfl, rfl⟩

/-! ### Delivery (R61, R117) -/

theorem onlyGroups_deliver (s : State) (tag : Nat) (dst : Dst) (vals : List (Nat × Nat)) :
    s.OnlyGroups (s.deliver tag dst vals) := by
  unfold State.OnlyGroups
  cases dst with
  | port p =>
    unfold State.deliver
    dsimp only
    induction vals using List.reverseRecOn with
    | nil => rfl
    | append_singleton vals e ih =>
      rw [List.foldl_append, List.foldl_cons, List.foldl_nil]
      generalize List.foldl _ s vals = t at ih ⊢
      rw [ih]
      rfl
  | none => rfl
  | v first words => rfl
  | s handler first count => rfl
  | sLow handler i => rfl

/-- Reservations of an operation get their values: of the groups only queues change. -/
theorem receives_readyReserved (s : State) (group tag lane : Nat) (v : Word) : s.Receives (s.readyReserved group tag lane v) := by
  refine ⟨⟨?_, ?_⟩, ?_, rfl, rfl⟩
  · unfold State.readyReserved State.mapGroups
    dsimp only
    split <;> rfl
  · unfold State.readyReserved State.mapGroups
    simp
  · unfold State.readyReserved State.mapGroups
    dsimp only
    split <;> rfl

theorem deliver_group {dst : Dst} (h : ∀ p, dst ≠ .port p) (s : State) (tag : Nat) (vals : List (Nat × Nat)) :
    s.deliver tag dst vals = s.modCur fun g => g.deliver dst vals := by
  cases dst with
  | port p => exact absurd rfl (h p)
  | none => rfl
  | v first words => rfl
  | s handler first count => rfl
  | sLow handler i => rfl

theorem receives_delivered (s : State) (tag : Nat) (dst : Dst) (vals : List (Nat × Nat)) : s.Receives (s.deliver tag dst vals) := by
  by_cases h : ∃ p, dst = .port p
  · obtain ⟨p, rfl⟩ := h
    unfold State.deliver
    dsimp only
    generalize s.cur.id = id
    induction vals generalizing s with
    | nil => exact .refl s
    | cons e rest ih => exact (receives_readyReserved ..).trans (ih _)
  · rw [deliver_group (fun p e => h ⟨p, e⟩)]
    exact receives_modCur s (receives_deliver ..)

/-! ### The end of an operation, or of some of its lanes -/

/-- The operation with a tag is over, or goes on with the lanes that are left. -/
def Group.ended (g : Group) (tag : Nat) (over_ : Bool) (kind : FlightKind) : Group :=
  if over_ then g.complete tag else g.setFlight tag fun x => { x with kind := kind }

theorem ended_frame (g : Group) (tag : Nat) (over_ : Bool) (kind : FlightKind) :
    g.ended tag over_ kind = { g with flights := (g.ended tag over_ kind).flights } := by
  unfold Group.ended Group.complete
  split
  · split <;> rfl
  · rfl

theorem ended_fields (g : Group) (tag : Nat) (over_ : Bool) (kind : FlightKind) :
    let h := g.ended tag over_ kind
    h.id = g.id ∧ h.pc = g.pc ∧ h.em = g.em ∧ h.threads = g.threads ∧ h.sregs = g.sregs ∧ h.hregs = g.hregs ∧ h.fpc = g.fpc := by
  rw [ended_frame]
  exact ⟨rfl, rfl, rfl, rfl, rfl, rfl, rfl⟩

theorem flight?_ended {g : Group} {tag : Nat} {f : Flight} (hf : g.flight? tag = some f) (over_ : Bool) (kind : FlightKind) :
    (g.ended tag over_ kind).flight? tag = Spec.flightAfter f (!over_) kind := by
  cases over_ with
  | true => exact flight?_complete ..
  | false => exact flight?_setFlight hf (fun _ => rfl) fun _ => rfl

/-- The same in the state; an acquire that is over takes effect. -/
def State.ended (t : State) (tag scope : Nat) (acq over_ : Bool) (kind : FlightKind) : State :=
  let u := t.modCur fun g => g.ended tag over_ kind
  if over_ && acq then u.acquire scope else u

theorem memoryMoved_ended (t : State) (tag scope : Nat) (acq over_ : Bool) (kind : FlightKind) :
    MemoryMoved (t.modCur fun g => g.ended tag over_ kind) (t.ended tag scope acq over_ kind) := by
  unfold State.ended
  dsimp only
  split
  · exact memoryMoved_acquire ..
  · exact memoryMoved_refl _

theorem ended_relaxed (t : State) (tag scope : Nat) (over_ : Bool) (kind : FlightKind) :
    t.ended tag scope false over_ kind = t.modCur fun g => g.ended tag over_ kind := by
  rw [State.ended, Bool.and_false]
  rfl

/-- A group that has received something and whose operation has ended. -/
theorem flight?_returned {x z y : Group} {tag : Nat} {f : Flight} {over_ : Bool} {kind : FlightKind} (hf : x.flight? tag = some f)
    (hz : x.Receives z) (hy : (z.ended tag over_ kind).Receives y) : y.flight? tag = Spec.flightAfter f (!over_) kind := by
  obtain ⟨-, -, -, received, -⟩ := hz.fields
  obtain ⟨-, -, -, ended, -⟩ := hy.fields
  rw [flight?_of_flights ended, flight?_ended (flight?_of_flights received tag ▸ hf)]

/-- An operation of the group in focus has returned lanes, and is over or has lanes left. -/
structure Returned (s t u : State) (tag scope : Nat) (acq over_ : Bool) (kind : FlightKind) : Prop where
  received : s.Receives t
  ended : u = t.ended tag scope acq over_ kind

namespace Returned

variable {s t u : State} {tag scope : Nat} {acq over_ : Bool} {kind : FlightKind} (h : Returned s t u tag scope acq over_ kind)
include h

theorem moved : MemoryMoved (t.modCur fun g => g.ended tag over_ kind) u := h.ended ▸ memoryMoved_ended ..

theorem flight? {f : Flight} (hf : s.cur.flight? tag = some f) : u.cur.flight? tag = Spec.flightAfter f (!over_) kind :=
  flight?_returned hf h.received.cur h.moved.receives.cur

theorem ids : s.SameIds u := by
  have over_ids : t.SameIds (t.modCur fun g => g.ended tag over_ kind) := ⟨(ended_fields t.cur tag over_ kind).1, rfl⟩
  exact (h.received.ids.trans over_ids).trans h.moved.receives.ids

theorem fields : u.cur.pc = s.cur.pc ∧ u.cur.em = s.cur.em ∧ u.teams = s.teams ∧ u.launches = s.launches := by
  have moved := h.moved.receives
  obtain ⟨-, pc, em, -⟩ := ended_fields t.cur tag over_ kind
  obtain ⟨-, pc', em', -⟩ := h.received.cur.fields
  obtain ⟨-, pc'', em'', -⟩ := moved.cur.fields
  exact ⟨pc''.trans (pc.trans pc'), em''.trans (em.trans em'), moved.teams.trans h.received.teams,
    moved.launches.trans h.received.launches⟩

theorem threads : u.cur.threads = t.cur.threads := by
  obtain ⟨-, -, -, same, -⟩ := ended_fields t.cur tag over_ kind
  exact (asBefore_fields h.moved.2.1).2.2.1.trans same

theorem sregs : u.cur.sregs = t.cur.sregs ∧ u.cur.hregs = t.cur.hregs := by
  obtain ⟨-, -, -, -, sregs, hregs, -⟩ := ended_fields t.cur tag over_ kind
  have same := asBefore_sregs h.moved.2.1
  exact ⟨same.1.trans sregs, same.2.trans hregs⟩

theorem tableLines : u.tableLines = t.tableLines := by
  rw [h.moved.1]
  rfl

end Returned

end Sys2Proof.Machine
end

section
/-! PROOF. Stores acknowledged, atomics on table lines that return, and results of the lng path (R61, R64, R129, R253,
R260). -/

namespace Sys2Proof.Machine

theorem linesInUse_focus {s : State} (h : s.Distinct) (g : Nat) (lines : List Nat) :
    (s.focus g).linesInUse lines = s.linesInUse lines := by
  rw [State.linesInUse, (onlyGroups_focus s g).writeBuf, (groups_focus h g).any_eq, State.linesInUse]

/-! ### Stores (R64, R253) -/

theorem receives_shootDown (s : State) (lines : List Nat) : s.Receives (s.shootDown lines) := ⟨⟨rfl, rfl⟩, rfl, rfl, rfl⟩

/-- No table line that has changed is cached. -/
theorem tableLines_shootDown (s : State) (lines : List Nat) : ∀ l ∈ (s.shootDown lines).tableLines, l ∉ lines := by
  intro l hl
  have kept : l ∈ s.tableLines.filter fun l => !lines.contains l := hl
  simpa using (List.mem_filter.mp kept).2

theorem acknowledge_eq {s : State} {tag : Nat} {lines : List Nat} {sync : Bool} {f : Flight} (hf : s.cur.flight? tag = some f)
    (hk : f.kind = .store lines sync) (hu : s.linesInUse lines = false) :
    State.acknowledge tag s = some ((s.shootDown lines).modCur fun g => g.complete tag) := by
  simp [State.acknowledge, hf, hk, hu]

theorem complete_frame (g : Group) (tag : Nat) : g.complete tag = { g with flights := (g.complete tag).flights } :=
  ended_frame g tag true (.store [] false)

theorem storesAcknowledged : Spec.StoresAcknowledged := by
  intro s g tag lines sync x f hn hx hf hk hu
  have hs := distinct_of_numbered hn
  have cur : (s.focus g).cur = x := cur_focus hx hs
  have step := acknowledge_eq (s := s.focus g) (cur.symm ▸ hf) hk (linesInUse_focus hs g lines ▸ hu)
  have ids : (s.focus g).SameIds (((s.focus g).shootDown lines).modCur fun h => h.complete tag) :=
    ⟨(ended_fields (s.focus g).cur tag true (.store [] false)).1, rfl⟩
  obtain ⟨r, e, hy, frame, others⟩ := inGroup?_next "STORE_ACKNOWLEDGE" hs hx step ids
  have done : ((s.focus g).shootDown lines).cur.complete tag = x.complete tag := congrArg (Group.complete · tag) cur
  refine ⟨r, x.complete tag, e, hy.trans (congrArg some done), others rfl, ?_, complete_frame x tag, flight?_complete x tag, ?_⟩
  · exact frame.mem.trans (onlyGroups_focus s g).mem
  · intro l hl
    rw [frame.tableLines] at hl
    exact tableLines_shootDown (s.focus g) lines l hl

/-! ### Atomics on table lines (R253, R260) -/

theorem atomicReturned_eq (s : State) (f : Flight) (op : AtomOp) (size : Nat) (dst : Dst) (scope : Nat) (acq : Bool)
    (values : List (Nat × Nat)) (rest : List LaneAcc) :
    s.atomicReturned f op size dst scope acq values rest
      = (s.deliver f.tag dst values).ended f.tag scope acq rest.isEmpty (.atomic op size dst scope acq rest) := by
  unfold State.atomicReturned State.ended Group.ended
  cases rest.isEmpty <;> cases acq <;> rfl

theorem loadResult_returned {s : State} {tag : Nat} {f : Flight} {op : AtomOp} {size : Nat} {dst : Dst} {scope : Nat} {acq : Bool}
    {values : List (Nat × Nat)} {lines : List Nat} {rest : List LaneAcc} (m : LaneMask) (hf : s.cur.flight? tag = some f)
    (hk : f.kind = .returned op size dst scope acq values lines rest) (hu : s.linesInUse lines = false) :
    State.loadResult tag m s = some ((s.shootDown lines).atomicReturned f op size dst scope acq values rest) := by
  simp [State.loadResult, hf, hk, hu]

theorem returned_atomic (s t : State) (f : Flight) (op : AtomOp) (size : Nat) (dst : Dst) (scope : Nat) (acq : Bool)
    (values : List (Nat × Nat)) (rest : List LaneAcc) (h : s.Receives t) :
    Returned s (t.deliver f.tag dst values) (t.atomicReturned f op size dst scope acq values rest) f.tag scope acq rest.isEmpty
      (.atomic op size dst scope acq rest) :=
  ⟨h.trans (receives_delivered ..), atomicReturned_eq ..⟩

/-- The words that an operation returns in v-registers. -/
theorem Returned.words {s t u v : State} {tag scope : Nat} {acq over_ : Bool} {kind : FlightKind} {vals : List (Nat × Nat)}
    {first words : Nat} (h : Returned s u v tag scope acq over_ kind) (hu : u.cur.threads = (t.cur.deliver (.v first words) vals).threads)
    (ht : s.cur.threads.length = t.cur.threads.length) : Spec.WordsDelivered s.cur v.cur first words vals :=
  wordsDelivered_deliver first words vals ht (h.threads.trans hu)

theorem tableAtomicsReturn : Spec.TableAtomicsReturn := by
  intro s g tag size scope m op dst acq values lines rest x f hn hx hf hk hu
  have hs := distinct_of_numbered hn
  have cur : (s.focus g).cur = x := cur_focus hx hs
  have tagged := tag_of_flight? hf
  have step := loadResult_returned (s := s.focus g) m (cur.symm ▸ hf) hk (linesInUse_focus hs g lines ▸ hu)
  have done := returned_atomic (s.focus g) _ f op size dst scope acq values rest (receives_shootDown (s.focus g) lines)
  rw [tagged] at done
  obtain ⟨r, e, hy, frame, -⟩ := inGroup?_next "LOAD_RESULT_RETURN" hs hx step done.ids
  refine ⟨r, _, e, hy, done.flight? (cur.symm ▸ hf), ?_, ?_⟩
  · intro l hl
    rw [frame.tableLines] at hl
    refine tableLines_shootDown (s.focus g) lines l ?_
    rw [← (onlyGroups_deliver ((s.focus g).shootDown lines) tag dst values).tableLines]
    exact done.tableLines ▸ hl
  · rintro first words rfl -
    exact cur ▸ done.words (t := (s.focus g).shootDown lines) rfl rfl

/-! ### Results of the lng path (R61, R64, R129) -/

theorem longResult_eq {s : State} {tag : Nat} {dst : Dst} {values : List (Nat × Nat)} {flags : BitVec 7} {f : Flight}
    (hf : s.cur.flight? tag = some f) (hp : f.path = 5) (hk : f.kind = .long dst values flags)
    (first : ∀ h ∈ s.cur.older tag, h.path = 5 → h.done = true) :
    State.longResult tag s = some ((s.deliver tag dst values).modCur fun g => (g.raise flags).complete tag) := by
  have oldest : ((s.cur.older tag).any fun d => d.path == 5 && !d.done) = false := by
    simpa using first
  simp [State.longResult, hf, hk, hp, oldest]

theorem longResultsReturn : Spec.LongResultsReturn := by
  intro s g tag dst values flags x f hn hx hf hp hk first
  have hs := distinct_of_numbered hn
  have cur : (s.focus g).cur = x := cur_focus hx hs
  have step := longResult_eq (s := s.focus g) (cur.symm ▸ hf) hp hk (cur.symm ▸ first)
  have received := receives_delivered (s.focus g) tag dst values
  have delivered := onlyGroups_deliver (s.focus g) tag dst values
  have words : ∀ first words, dst = .v first words →
      ((s.focus g).deliver tag dst values).cur.threads = (x.deliver (.v first words) values).threads
        ∧ ((s.focus g).deliver tag dst values).others = (s.focus g).others := by
    rintro first words rfl
    exact ⟨congrArg (fun h : Group => (h.deliver (.v first words) values).threads) cur, rfl⟩
  generalize (s.focus g).deliver tag dst values = t at step received delivered words
  obtain ⟨id, pc, -, threads, -, -, fpc⟩ := ended_fields (t.cur.raise flags) tag true (.store [] false)
  obtain ⟨-, pc', -, -, fpc', -⟩ := received.cur.fields
  have ids : (s.focus g).SameIds (t.modCur fun h => (h.raise flags).complete tag) := received.ids.trans ⟨id, rfl⟩
  obtain ⟨r, e, hy, frame, others⟩ := inGroup?_next "LONG_LATENCY_RESULT" hs hx step ids
  refine ⟨r, _, e, hy, ?_, ?_, flight?_complete _ tag, ?_, ?_, ?_⟩
  · exact (frame.mem.trans delivered.mem).trans (onlyGroups_focus s g).mem
  · exact (frame.teams.trans received.teams).trans (onlyGroups_focus s g).teams
  · exact fpc.trans (congrArg (· ||| fpcBits flags) (fpc'.trans (congrArg Group.fpc cur)))
  · exact pc.trans (pc'.trans (congrArg Group.pc cur))
  · intro i n hv
    obtain ⟨ht, ho⟩ := words i n hv
    exact ⟨others ho, wordsDelivered_deliver i n values rfl (threads.trans ht)⟩

end Sys2Proof.Machine
end

section
/-! PROOF. Scratchpad accesses are performed: loads give lanes the bytes of the team's scratchpad, stores write theirs (R268 to R270). -/

namespace Sys2Proof.Machine

/-! ### Bytes of a scratchpad -/

/-- Bytes written one after the other, from a place on. -/
theorem sget_bytes (bs : List Byte) (a k b : Nat) (m : List (Nat × Byte)) :
    sget 0 ((bs.zipIdx k).foldl (fun m e => sset 0 m (a + e.2) e.1) m) b
      = if a + k ≤ b ∧ b < a + k + bs.length then bs.getD (b - (a + k)) 0 else sget 0 m b := by
  induction bs generalizing k m with
  | nil =>
    rw [if_neg (by rw [List.length_nil]; omega)]
    rfl
  | cons c rest ih =>
    rw [List.zipIdx_cons, List.foldl_cons, ih, sget_sset, List.length_cons]
    by_cases e : b = a + k
    · subst e
      simp
    · by_cases inside : a + (k + 1) ≤ b ∧ b < a + (k + 1) + rest.length
      · rw [if_pos inside, if_pos (by omega), show b - (a + k) = b - (a + (k + 1)) + 1 by omega, List.getD_cons_succ]
      · rw [if_neg inside, if_neg e, if_neg (by omega)]

theorem sget_setScratch (t : Team) (a b : Nat) (bs : List Byte) :
    sget 0 (t.setScratch a bs).scratch b = if a ≤ b ∧ b < a + bs.length then bs.getD (b - a) 0 else sget 0 t.scratch b :=
  sget_bytes bs a 0 b t.scratch

/-! ### Teams -/

/-- A team that takes the place of the one with its number is found by it. -/
theorem team?_setTeam {s : State} {id : Nat} {old new : Team} (h : s.team? id = some old) (hn : new.id = old.id) :
    (s.setTeam new).team? old.id = some new := by
  have number : old.id = id := by simpa using List.find?_some h
  unfold State.team? State.setTeam at *
  dsimp only
  have same : ((fun t : Team => t.id == old.id) ∘ fun t => if t.id = new.id then new else t) = fun t => t.id == id := by
    funext t
    simp only [Function.comp]
    split
    · next e => rw [hn, e, hn, number]
    · rw [number]
  rw [List.find?_map, same, h, Option.map_some, if_pos hn.symm]

theorem team_of_team? {s : State} {tm : Team} (h : s.team? s.cur.team = some tm) : s.team = tm := by rw [State.team, h]; rfl

/-! ### The accesses -/

theorem scratchPerformed_load {s : State} {tag n : Nat} {m : LaneMask} {f : Flight} {dst : Dst} {lanes : List (Nat × Nat)}
    (hf : s.cur.flight? tag = some f) (hw : s.cur.scratchWaits f m = false) (hk : f.kind = .sload n dst lanes)
    (hm : lanes = [] ∨ ∃ e ∈ lanes, m.getLsbD e.1 = true) :
    State.scratchPerformed tag m s = some (s.scratchLoad f n dst lanes m) := by
  have some_ : (!lanes.isEmpty && !(lanes.any fun x => m.getLsbD x.1)) = false := by
    rcases hm with rfl | ⟨e, he, hl⟩
    · rfl
    · have any : (lanes.any fun x => m.getLsbD x.1) = true := List.any_eq_true.mpr ⟨e, he, hl⟩
      rw [any, Bool.not_true, Bool.and_false]
  simp only [State.scratchPerformed, hf, hw, hk, some_, Bool.false_eq_true, if_false]

theorem scratchPerformed_store {s : State} {tag n l a : Nat} {lo hi : DWord} {m : LaneMask} {f : Flight}
    (hf : s.cur.flight? tag = some f) (hw : s.cur.scratchWaits f m = false) (hk : f.kind = .sstore n [(l, (a, (lo, hi)))])
    (hl : m.getLsbD l = true) :
    State.scratchPerformed tag m s
      = some ((s.setTeam (s.team.setScratch a (leBytes n (lo.toNat + 2 ^ 64 * hi.toNat)))).modCur fun g => g.complete f.tag) := by
  simp [State.scratchPerformed, hf, hw, hk, State.scratchStore, hl]

/-- Poison of blocks that lanes have read is noted. -/
def Group.notesBlocks (g : Group) (t : Team) (xs : List (Nat × Nat)) : Group :=
  (xs.filter fun x => t.blockPoisoned x.2).foldl (fun g x => g.notePoison 2 (BitVec.ofNat 64 (x.2 / 64 * 64))) g

theorem receives_notesBlocks (g : Group) (t : Team) (xs : List (Nat × Nat)) : g.Receives (g.notesBlocks t xs) :=
  receives_foldl _ (fun _ _ => receives_notePoison ..) _ g

theorem threads_notePoison (g : Group) (path : Nat) (va : DWord) : (g.notePoison path va).threads = g.threads := by
  unfold Group.notePoison
  split <;> rfl

theorem threads_notesBlocks (g : Group) (t : Team) (xs : List (Nat × Nat)) : (g.notesBlocks t xs).threads = g.threads := by
  unfold Group.notesBlocks
  generalize xs.filter _ = ys
  induction ys generalizing g with
  | nil => rfl
  | cons y rest ih => rw [List.foldl_cons, ih, threads_notePoison]

theorem scratchLoad_eq (s : State) (f : Flight) (n : Nat) (dst : Dst) (lanes : List (Nat × Nat)) (m : LaneMask) :
    s.scratchLoad f n dst lanes m
      = (((s.deliver f.tag dst ((lanes.filter fun x => m.getLsbD x.1).map fun x => (x.1, s.team.scratchNum x.2 n))).modCur
          fun g => g.notesBlocks s.team (lanes.filter fun x => m.getLsbD x.1)).ended f.tag 0 false
            (lanes.filter fun x => !m.getLsbD x.1).isEmpty (.sload n dst (lanes.filter fun x => !m.getLsbD x.1))) := by
  rw [ended_relaxed]
  rfl

theorem returned_scratch (s : State) (f : Flight) (n : Nat) (dst : Dst) (lanes : List (Nat × Nat)) (m : LaneMask) :
    Returned s ((s.deliver f.tag dst ((lanes.filter fun x => m.getLsbD x.1).map fun x => (x.1, s.team.scratchNum x.2 n))).modCur
        fun g => g.notesBlocks s.team (lanes.filter fun x => m.getLsbD x.1))
      (s.scratchLoad f n dst lanes m) f.tag 0 false (lanes.filter fun x => !m.getLsbD x.1).isEmpty
      (.sload n dst (lanes.filter fun x => !m.getLsbD x.1)) :=
  ⟨(receives_delivered ..).trans (receives_modCur _ (receives_notesBlocks ..)), scratchLoad_eq ..⟩

theorem scratchLoadsPerformed {s : State} {g tag n : Nat} {m : LaneMask} {x : Group} {f : Flight} {tm : Team} {dst : Dst}
    {lanes : List (Nat × Nat)} (hs : s.Distinct) (hx : s.group? g = some x) (hf : x.flight? tag = some f)
    (hw : x.scratchWaits f m = false) (ht : s.team? x.team = some tm) (hk : f.kind = .sload n dst lanes)
    (hm : lanes = [] ∨ ∃ e ∈ lanes, m.getLsbD e.1 = true) :
    let rest := lanes.filter fun e => !m.getLsbD e.1
    ∃ t y, exec (.scratchpadAccessPerformed g tag m) s = .next t ∧ t.group? g = some y ∧ t.mem = s.mem ∧ t.teams = s.teams
      ∧ y.flight? tag = Spec.flightAfter f (!rest.isEmpty) (.sload n dst rest)
      ∧ ∀ first words, dst = .v first words → Spec.OtherGroups s t g ∧ Spec.WordsDelivered x y first words
          ((lanes.filter fun e => m.getLsbD e.1).map fun e => (e.1, tm.scratchNum e.2 n)) := by
  have cur : (s.focus g).cur = x := cur_focus hx hs
  have team : (s.focus g).team = tm := team_of_team? (by rw [State.team?, (onlyGroups_focus s g).teams, cur]; exact ht)
  have step := scratchPerformed_load (s := s.focus g) (cur.symm ▸ hf) (cur.symm ▸ hw) hk hm
  have done := returned_scratch (s.focus g) f n dst lanes m
  rw [tag_of_flight? hf, team] at done
  obtain ⟨r, e, hy, frame, others⟩ := inGroup?_next "SCRATCHPAD_ACCESS_PERFORMED" hs hx step done.ids
  refine ⟨r, _, e, hy, ?_, ?_, done.flight? (cur.symm ▸ hf), ?_⟩
  · rw [frame.mem, done.ended, ended_relaxed]
    exact (onlyGroups_deliver ..).mem.trans (onlyGroups_focus s g).mem
  · rw [frame.teams, done.fields.2.2.1, (onlyGroups_focus s g).teams]
  · rintro first words rfl
    refine ⟨others ?_, cur ▸ done.words (t := s.focus g) (threads_notesBlocks ..) rfl⟩
    rw [done.ended, ended_relaxed]
    rfl

theorem scratchStorePerformed {s : State} {g tag n l a : Nat} {lo hi : DWord} {m : LaneMask} {x : Group} {f : Flight} {tm : Team}
    (hs : s.Distinct) (hx : s.group? g = some x) (hf : x.flight? tag = some f) (hw : x.scratchWaits f m = false)
    (ht : s.team? x.team = some tm) (hk : f.kind = .sstore n [(l, (a, (lo, hi)))]) (hl : m.getLsbD l = true) :
    ∃ t y z, exec (.scratchpadAccessPerformed g tag m) s = .next t ∧ t.group? g = some y ∧ Spec.OtherGroups s t g
      ∧ t.mem = s.mem ∧ y.flight? tag = none ∧ t.team? tm.id = some z
      ∧ ∀ b, sget 0 z.scratch b =
          if a ≤ b ∧ b < a + n then (leBytes n (lo.toNat + 2 ^ 64 * hi.toNat)).getD (b - a) 0 else sget 0 tm.scratch b := by
  have cur : (s.focus g).cur = x := cur_focus hx hs
  have found : (s.focus g).team? x.team = some tm := by rw [State.team?, (onlyGroups_focus s g).teams]; exact ht
  have step := scratchPerformed_store (s := s.focus g) (cur.symm ▸ hf) (cur.symm ▸ hw) hk hl
  rw [tag_of_flight? hf, team_of_team? (cur.symm ▸ found)] at step
  have ids : (s.focus g).SameIds
      (((s.focus g).setTeam (tm.setScratch a (leBytes n (lo.toNat + 2 ^ 64 * hi.toNat)))).modCur fun h => h.complete tag) :=
    ⟨(ended_fields (s.focus g).cur tag true (.store [] false)).1, rfl⟩
  obtain ⟨r, e, hy, frame, others⟩ := inGroup?_next "SCRATCHPAD_ACCESS_PERFORMED" hs hx step ids
  refine ⟨r, _, tm.setScratch a (leBytes n (lo.toNat + 2 ^ 64 * hi.toNat)), e, hy, others rfl, ?_, flight?_complete .., ?_, fun b => ?_⟩
  · exact frame.mem.trans (onlyGroups_focus s g).mem
  · rw [State.team?, frame.teams]
    exact team?_setTeam found rfl
  · rw [sget_setScratch, length_leBytes]

theorem scratchpadPerformed : Spec.ScratchpadPerformed := by
  intro s g tag n m x f tm hn hx hf hw ht
  have hs := distinct_of_numbered hn
  exact ⟨fun dst lanes hk hm => scratchLoadsPerformed hs hx hf hw ht hk hm,
    fun l a lo hi hk hl => scratchStorePerformed hs hx hf hw ht hk hl⟩

end Sys2Proof.Machine
end

section
/-! PROOF. Loads return what their core sees (R67, R117, R267, R280). -/

namespace Sys2Proof.Machine

/-! ### What a view depends on -/

/-- A line looks the same: the copies in caches, the home, and whether the page is the host's. -/
structure SameLine (s t : State) (line : Nat) : Prop where
  bias : t.hostBias = s.hostBias
  home : t.homeLine line = s.homeLine line
  caches : (t.copies.filter fun c => decide (c.level ≤ 2)) = s.copies.filter fun c => decide (c.level ≤ 2)

theorem SameLine.trans {s t u : State} {line : Nat} (h : SameLine s t line) (k : SameLine t u line) : SameLine s u line :=
  ⟨k.bias.trans h.bias, k.home.trans h.home, k.caches.trans h.caches⟩

theorem filter_cached (cs : List Copy) {p : Copy → Bool} (h : ∀ c, p c = true → c.level ≤ 2) :
    cs.filter p = (cs.filter fun c => decide (c.level ≤ 2)).filter p := by
  rw [List.filter_filter]
  refine List.filter_congr fun c _ => ?_
  cases hp : p c
  · rfl
  · simp [h c hp]

theorem pathCopies_congr {s t : State} {line : Nat} (h : SameLine s t line) (a : Agent) : t.pathCopies a line = s.pathCopies a line := by
  have own : ∀ c : Copy, (decide (c.line = line) && a.onPath c) = true → c.level ≤ 2 := fun c hc => by
    simp only [Bool.and_eq_true] at hc
    exact level_of_onPath hc.2
  unfold State.pathCopies
  rw [filter_cached t.copies own, h.caches, ← filter_cached s.copies own]

theorem owners_congr {s t : State} {line : Nat} (h : SameLine s t line) (a : Agent) : t.owners a line = s.owners a line := by
  have l3 : ∀ c : Copy, (c.line == line && c.owns && !a.onPath c && a.covers c.reg c) = true → c.level ≤ 2 := fun c hc => by
    simp only [Bool.and_eq_true] at hc
    exact (level_of_owns hc.1.1.2).le
  unfold State.owners
  rw [filter_cached t.copies l3, h.caches, ← filter_cached s.copies l3]

/-- The bytes under dirty bytes do not depend on poison. -/
theorem overDirty_data (cs : List Copy) {x y : BitVec 512 × Bool} (h : x.1 = y.1) :
    (cs.foldl withDirty x).1 = (cs.foldl withDirty y).1 := by
  induction cs generalizing x y with
  | nil => exact h
  | cons c rest ih =>
    refine ih ?_
    unfold withDirty
    split
    · exact h
    · rw [h]

theorem outer_congr {s t : State} {line : Nat} (h : SameLine s t line) (a : Agent) : (t.outer a line).1 = (s.outer a line).1 := by
  rw [State.outer, owners_congr h, State.outer]
  exact overDirty_data _ h.home

theorem view_congr {s t : State} {line : Nat} (h : SameLine s t line) (a : Agent) (scope : Nat) (home : Home) :
    (t.view a scope home line).1 = (s.view a scope home line).1 := by
  have uncached : t.uncachedLine home line = s.uncachedLine home line := by
    rw [State.uncachedLine, State.inHostBias, h.bias, State.uncachedLine, State.inHostBias]
  unfold State.view
  rw [overlaid_zero, overlaid_zero, pathCopies_congr h, uncached]
  refine overDirty_data _ ?_
  split
  · exact outer_congr h a
  · unfold State.served State.servedFrom
    rw [pathCopies_congr h]
    split
    · rfl
    · exact outer_congr h a

theorem loadBytes_congr {s t : State} {pa : Nat} (h : SameLine s t (pa / 64)) (a : Agent) (scope : Nat) (home : Home) (n : Nat) :
    (t.loadBytes a scope home pa n).1 = (s.loadBytes a scope home pa n).1 := by
  unfold State.loadBytes
  dsimp only
  rw [view_congr h]

theorem State.OnlyGroups.sameLine {s t : State} (h : s.OnlyGroups t) (line : Nat) : SameLine s t line := by
  unfold State.OnlyGroups at h
  rw [h]
  exact ⟨rfl, rfl, rfl⟩

/-! ### What a load leaves -/

/-- Nothing has changed but copies, what they have held, poison that became known, and counters of the device. -/
def State.Watched (s t : State) : Prop :=
  t = { s with copies := t.copies, past := t.past, poison := t.poison, writers := t.writers, hostLines := t.hostLines,
               shared := t.shared }

theorem State.Watched.refl (s : State) : s.Watched s := rfl

theorem State.Watched.trans {s t u : State} (h : s.Watched t) (k : t.Watched u) : s.Watched u := by
  unfold State.Watched at *
  rw [k, h]

theorem State.Watched.fields {s t : State} (h : s.Watched t) :
    t.cur = s.cur ∧ t.others = s.others ∧ t.mem = s.mem ∧ t.teams = s.teams ∧ t.launches = s.launches := by
  unfold State.Watched at h
  rw [h]
  exact ⟨rfl, rfl, rfl, rfl, rfl⟩

theorem State.Watched.receives {s t : State} (h : s.Watched t) : s.Receives t := by
  obtain ⟨cur, others, -, teams, launches⟩ := h.fields
  exact ⟨⟨by rw [cur], by rw [others]⟩, by rw [cur]; rfl, teams, launches⟩

theorem watched_touch (s : State) (line : Nat) : s.Watched (s.touch line) := by
  unfold State.touch
  dsimp only
  split <;> rfl

theorem watched_readLine (s : State) (scope : Nat) (home : Home) (line : Nat) : s.Watched (s.readLine scope home line) := by
  unfold State.readLine
  dsimp only
  split
  · exact watched_touch s line
  · exact (watched_touch s line).trans rfl

/-- The line that a lane of a load reads, if the mask names the lane. -/
def State.readLane (s : State) (inv : Bool) (scope : Nat) (m : LaneMask) (x : LaneAcc) : State :=
  if m.getLsbD x.lane then (if inv then s.touch (x.pa / 64) else s.readLine scope x.home (x.pa / 64)) else s

theorem watched_readLane (s : State) (inv : Bool) (scope : Nat) (m : LaneMask) (x : LaneAcc) :
    s.Watched (s.readLane inv scope m x) := by
  unfold State.readLane
  split
  · split
    · exact watched_touch ..
    · exact watched_readLine ..
  · exact .refl s

/-- The lines that the lanes of a load read. -/
def State.readLanes (s : State) (inv : Bool) (scope : Nat) (m : LaneMask) (lanes : List LaneAcc) : State :=
  lanes.foldl (fun t x => t.readLane inv scope m x) s

theorem watched_readLanes (s : State) (inv : Bool) (scope : Nat) (m : LaneMask) (lanes : List LaneAcc) :
    s.Watched (s.readLanes inv scope m lanes) := by
  unfold State.readLanes
  induction lanes generalizing s with
  | nil => exact .refl s
  | cons x rest ih => exact (watched_readLane s inv scope m x).trans (ih _)

theorem countQueues_frame (s : State) (cluster : Nat) : ∃ shared, s.countQueues cluster = { s with shared := shared } := by
  unfold State.countQueues
  dsimp only
  split
  · exact ⟨_, rfl⟩
  · exact ⟨s.shared, rfl⟩

theorem watched_countQueues (s : State) (cluster : Nat) : s.Watched (s.countQueues cluster) := by
  obtain ⟨shared, h⟩ := countQueues_frame s cluster
  rw [h]
  rfl

theorem sameLine_countQueues (s : State) (cluster line : Nat) : SameLine s (s.countQueues cluster) line := by
  obtain ⟨shared, h⟩ := countQueues_frame s cluster
  rw [h]
  exact ⟨rfl, rfl, rfl⟩

/-! ### The end of a load -/

/-- The values of a load, by lane. -/
def State.laneValues (s : State) (inv : Bool) (scope size : Nat) (xs : List LaneAcc) : List (Nat × Nat) :=
  (s.loadValues inv scope size xs).map fun v => (v.1.lane, leNat v.2.1)

/-- The state once the lanes of a load have their results. -/
def State.loadsDelivered (s : State) (f : Flight) (size : Nat) (dst : Dst) (scope : Nat) (inv : Bool) (lanes : List LaneAcc)
    (m : LaneMask) : State :=
  let t := (s.readLanes inv scope m lanes).deliver f.tag dst (s.laneValues inv scope size (pickLanes m lanes))
  let t := t.modCur fun g =>
    g.noteLines 0 (((s.loadValues inv scope size (pickLanes m lanes)).filter (·.2.2)).map (·.1.va))
  { t with draws := t.draws + 1 }

theorem returnLoad_eq (s : State) (f : Flight) (size : Nat) (dst : Dst) (scope : Nat) (acq inv : Bool) (lanes : List LaneAcc)
    (m : LaneMask) :
    s.returnLoad f size dst scope acq inv lanes m
      = (s.loadsDelivered f size dst scope inv lanes m).ended f.tag scope acq (restLanes m lanes).isEmpty
          (.load size dst scope acq inv (restLanes m lanes)) := by
  unfold State.returnLoad State.ended Group.ended
  dsimp only
  cases (restLanes m lanes).isEmpty <;> cases acq <;> rfl

theorem noteLines_frame (g : Group) (path : Nat) (vas : List DWord) :
    g.noteLines path vas = { g with ppath := (g.noteLines path vas).ppath, pva := (g.noteLines path vas).pva } := by
  unfold Group.noteLines
  induction vas using List.reverseRecOn with
  | nil => rfl
  | append_singleton vas va ih =>
    rw [List.foldl_append, List.foldl_cons, List.foldl_nil]
    generalize List.foldl _ g vas = h at ih ⊢
    rw [ih]
    unfold Group.notePoison
    split <;> rfl

theorem noteLines_fields (g : Group) (path : Nat) (vas : List DWord) :
    (g.noteLines path vas).threads = g.threads ∧ (g.noteLines path vas).sregs = g.sregs
      ∧ (g.noteLines path vas).hregs = g.hregs := by
  rw [noteLines_frame]
  exact ⟨rfl, rfl, rfl⟩

section
variable (s : State) (f : Flight) (size : Nat) (dst : Dst) (scope : Nat) (inv : Bool) (lanes : List LaneAcc) (m : LaneMask)

theorem receives_loadsDelivered : s.Receives (s.loadsDelivered f size dst scope inv lanes m) := by
  have read := (watched_readLanes s inv scope m lanes).receives
  unfold State.loadsDelivered
  dsimp only
  generalize s.readLanes inv scope m lanes = t at read ⊢
  have delivered := read.trans (receives_delivered t f.tag dst (s.laneValues inv scope size (pickLanes m lanes)))
  generalize t.deliver f.tag dst _ = u at delivered ⊢
  generalize List.map _ (List.filter _ (s.loadValues inv scope size (pickLanes m lanes))) = vas
  refine (delivered.trans (receives_modCur u (f := fun g => g.noteLines 0 vas) (receives_noteLines ..))).trans ?_
  exact ⟨⟨rfl, rfl⟩, rfl, rfl, rfl⟩

theorem mem_loadsDelivered : (s.loadsDelivered f size dst scope inv lanes m).mem = s.mem := by
  obtain ⟨-, -, mem, -⟩ := (watched_readLanes s inv scope m lanes).fields
  have delivered := (onlyGroups_deliver (s.readLanes inv scope m lanes) f.tag dst (s.laneValues inv scope size (pickLanes m lanes))).mem
  exact delivered.trans mem

theorem group_loadsDelivered (hd : ∀ p, dst ≠ .port p) :
    let t := s.loadsDelivered f size dst scope inv lanes m
    let g := s.cur.deliver dst (s.laneValues inv scope size (pickLanes m lanes))
    t.others = s.others ∧ t.cur.threads = g.threads ∧ t.cur.sregs = g.sregs ∧ t.cur.hregs = g.hregs := by
  obtain ⟨cur, others, -⟩ := (watched_readLanes s inv scope m lanes).fields
  unfold State.loadsDelivered
  dsimp only
  rw [deliver_group hd]
  generalize s.readLanes inv scope m lanes = t at cur others ⊢
  obtain ⟨threads, sregs, hregs⟩ := noteLines_fields
    (t.cur.deliver dst (s.laneValues inv scope size (pickLanes m lanes))) 0
    (((s.loadValues inv scope size (pickLanes m lanes)).filter (·.2.2)).map (·.1.va))
  rw [cur] at threads sregs hregs
  rw [← others]
  unfold State.modCur
  dsimp only
  rw [cur]
  exact ⟨rfl, threads, sregs, hregs⟩

theorem returned_load (acq : Bool) :
    Returned s (s.loadsDelivered f size dst scope inv lanes m) (s.returnLoad f size dst scope acq inv lanes m) f.tag scope acq
      (restLanes m lanes).isEmpty (.load size dst scope acq inv (restLanes m lanes)) :=
  ⟨receives_loadsDelivered .., returnLoad_eq ..⟩

end

/-- The state in which the caches answer an operation of a group. -/
def State.answering (s : State) (g : Nat) : State := (s.focus g).countQueues (clusterOf (s.focus g).cur.core)

theorem loadResult_load {s : State} {g tag size scope : Nat} {m : LaneMask} {dst : Dst} {acq inv : Bool} {accs : List LaneAcc}
    {f : Flight} (hf : (s.focus g).cur.flight? tag = some f) (hk : f.kind = .load size dst scope acq inv accs)
    (hm : Spec.MayReturn s g f m scope false accs) :
    State.loadResult tag m (s.focus g) = some ((s.answering g).returnLoad f size dst scope acq inv accs m) := by
  obtain ⟨can, answered⟩ := hm
  simp only [State.loadResult, hf, hk, can, answered, Bool.and_self, if_true]
  rfl

theorem sameLine_answering (s : State) (g line : Nat) : SameLine s (s.answering g) line :=
  ((onlyGroups_focus s g).sameLine line).trans (sameLine_countQueues ..)

theorem watched_answering (s : State) (g : Nat) : (s.focus g).Watched (s.answering g) := watched_countQueues ..

/-- The values that lanes receive are what their core sees. -/
theorem laneValues_answering {s : State} {g : Nat} {x : Group} (hc : (s.answering g).cur = x) (scope size : Nat) (xs : List LaneAcc) :
    (s.answering g).laneValues false scope size xs = xs.map fun a => (a.lane, Spec.loaded s x scope size a) := by
  unfold State.laneValues State.loadValues
  rw [List.map_map]
  refine List.map_congr_left fun a _ => ?_
  have seen := loadBytes_congr (sameLine_answering s g (a.pa / 64)) (Agent.ofCore x.core) scope a.home size
  simp only [Function.comp, Bool.false_eq_true, if_false, State.loadOne, hc, seen, Spec.loaded]

theorem loadsReturn : Spec.LoadsReturn := by
  intro s g tag size scope m dst acq inv accs x f hn hx hf hk hm
  have hs := distinct_of_numbered hn
  have focused : (s.focus g).cur = x := cur_focus hx hs
  obtain ⟨cur', others', mem', teams', launches'⟩ := (watched_answering s g).fields
  have cur : (s.answering g).cur = x := cur'.trans focused
  have step := loadResult_load (focused.symm ▸ hf) hk hm
  have done := returned_load (s.answering g) f size dst scope inv accs m acq
  rw [tag_of_flight? hf] at done
  have mem := mem_loadsDelivered (s.answering g) f size dst scope inv accs m
  have group := group_loadsDelivered (s.answering g) f size dst scope inv accs m
  have values := laneValues_answering cur scope size (pickLanes m accs)
  have relaxed : acq = false → (s.answering g).returnLoad f size dst scope acq inv accs m
      = ((s.answering g).loadsDelivered f size dst scope inv accs m).modCur fun h =>
          h.ended tag (restLanes m accs).isEmpty (.load size dst scope acq inv (restLanes m accs)) := by
    rintro rfl
    rw [done.ended, ended_relaxed]
  generalize (s.answering g).returnLoad f size dst scope acq inv accs m = v at step done relaxed
  generalize (s.answering g).loadsDelivered f size dst scope inv accs m = u at done mem group relaxed
  obtain ⟨pc, em, teams, launches⟩ := done.fields
  have ids := (watched_answering s g).receives.ids.trans done.ids
  obtain ⟨r, e, hy, frame, others⟩ := inGroup?_next "LOAD_RESULT_RETURN" hs hx step ids
  refine ⟨r, v.cur, e, hy, ?_, done.flight? (cur.symm ▸ hf), ?_, ?_, cur ▸ pc, cur ▸ em, ?_, ?_, ?_⟩
  · intro ha
    rw [frame.mem, relaxed ha]
    exact (mem.trans mem').trans (onlyGroups_focus s g).mem
  · exact (frame.teams.trans teams).trans (teams'.trans (onlyGroups_focus s g).teams)
  · exact (frame.launches.trans launches).trans (launches'.trans (onlyGroups_focus s g).launches)
  · intro ha hd
    refine others ?_
    rw [relaxed ha]
    exact (group hd).1.trans others'
  · rintro first words rfl
    obtain ⟨-, threads, sregs, hregs⟩ := group (by simp)
    obtain ⟨vs, vh⟩ := done.sregs
    obtain ⟨ds, dh⟩ := sregs_deliver_v (s.answering g).cur first words
      ((s.answering g).laneValues inv scope size (pickLanes m accs))
    refine ⟨?_, ?_, ?_⟩
    · rw [vs, sregs, ds, cur]
    · rw [vh, hregs, dh, cur]
    · rintro rfl
      rw [← values, ← cur]
      exact done.words (t := s.answering g) threads rfl
  · rintro i a rfl rfl hp
    obtain ⟨-, -, sregs, -⟩ := group (by simp)
    rw [done.sregs.1, sregs, values, hp]
    exact sget_deliver_s ..

end Sys2Proof.Machine
end

section
/-! PROOF. Atomics return the old value of their place and leave the new one (R260, R261, R435). -/

namespace Sys2Proof.Machine

/-! ### What an atomic does before it reads -/

theorem eq_of_lineByte {x y : BitVec 512} (h : ∀ j < 64, lineByte x j = lineByte y j) : x = y := by
  apply BitVec.eq_of_getLsbD_eq
  intro i hi
  have byte := congrArg (·.getLsbD (i % 8)) (h (i / 8) (by omega))
  simp only [getLsbD_lineByte, Nat.mod_lt i (by norm_num : 8 > 0), decide_true, Bool.true_and, Nat.div_add_mod] at byte
  exact byte

theorem sameLine_refl (s : State) (line : Nat) : SameLine s s line := ⟨rfl, rfl, rfl⟩

theorem sameLine_touch (s : State) (other line : Nat) : SameLine s (s.touch other) line := by
  refine ⟨?_, homeLine_touch s line other, by rw [copies_touch]⟩
  rw [(memoryMoved_touch s other).1]

theorem caches_pinWritten (cs : List Copy) (line : Nat) (mask : BitVec 64) :
    ((cs.map fun c => c.pinWritten line mask).filter fun c => decide (c.level ≤ 2)) = cs.filter fun c => decide (c.level ≤ 2) := by
  induction cs with
  | nil => rfl
  | cons c rest ih =>
    have level := (pinWritten_place c line mask).1
    rw [List.map_cons, List.filter_cons, List.filter_cons, ih, level]
    split
    · next h => rw [pinWritten_cached (by simpa using h)]
    · rfl

/-- The host's write-back leaves the line as it was seen. -/
theorem sameLine_takeFromHost (s : State) (line : Nat) : SameLine s (s.takeFromHost line) line := by
  have moved := memoryMoved_takeFromHost s line
  refine ⟨by rw [moved.1], ?_, ?_⟩
  · unfold State.takeFromHost
    split
    · rfl
    · next h hf =>
      have seen : s.homeLine line = h.data := by rw [State.homeLine, hf]
      dsimp only
      rw [seen]
      refine eq_of_lineByte fun j hj => ?_
      rw [lineByte_putHome _ _ _ _ _ hj, if_pos]
      rw [BitVec.getLsbD_allOnes]
      exact decide_eq_true hj
  · unfold State.takeFromHost
    split
    · rfl
    · dsimp only
      rw [copies_putHome]
      exact caches_pinWritten ..

/-- The state in which an atomic reads its place. -/
def State.claimed (s : State) (line : Nat) : State := (if s.inHostBias line then s.takeFromHost line else s).touch line

theorem sameLine_claimed (s : State) (line : Nat) : SameLine s (s.claimed line) line := by
  unfold State.claimed
  refine SameLine.trans ?_ (sameLine_touch ..)
  split
  · exact sameLine_takeFromHost ..
  · exact sameLine_refl ..

theorem memoryMoved_claimed (s : State) (line : Nat) : MemoryMoved s (s.claimed line) := by
  unfold State.claimed
  refine MemoryMoved.trans ?_ (memoryMoved_touch ..)
  split
  · exact memoryMoved_takeFromHost ..
  · exact memoryMoved_refl s

theorem mem_claimed {s : State} {line : Nat} (h : s.inHostBias line = false) : (s.claimed line).mem = s.mem := by
  rw [State.claimed, h]
  exact (watched_touch s line).fields.2.2.1

/-! ### One access -/

/-- What an atomic reads at its place. -/
def State.oldValue (s : State) (core size scope : Nat) (x : LaneAcc) : Nat :=
  leNat (s.loadBytes (Agent.ofCore core) scope x.home x.pa size).1

theorem oldValue_congr {s t : State} {x : LaneAcc} (h : SameLine s t (x.pa / 64)) (core size scope : Nat) :
    t.oldValue core size scope x = s.oldValue core size scope x := by
  rw [State.oldValue, loadBytes_congr h, State.oldValue]

theorem atomicOne_eq (s : State) (op : AtomOp) (size scope : Nat) (x : LaneAcc) :
    let old := s.oldValue s.cur.core size scope x
    ∃ p, s.atomicOne op size scope x
      = match op.apply (BitVec.ofNat 64 old) x.opnd x.opnd2 with
        | some v => ((s.claimed (x.pa / 64)).storeBytes (Agent.ofCore s.cur.core) scope x.home x.pa size v.toNat, (x.lane, (old, p)))
        | none => (s.claimed (x.pa / 64), (x.lane, (old, p))) := by
  dsimp only
  rw [← oldValue_congr (sameLine_claimed s (x.pa / 64))]
  exact ⟨_, rfl⟩

theorem memoryMoved_atomicOne (s : State) (op : AtomOp) (size scope : Nat) (x : LaneAcc) :
    MemoryMoved s (s.atomicOne op size scope x).1 := by
  obtain ⟨p, h⟩ := atomicOne_eq s op size scope x
  rw [h]
  split
  · exact (memoryMoved_claimed ..).trans (memoryMoved_storeBytes ..)
  · exact memoryMoved_claimed ..

theorem memoryMoved_atomicAll (op : AtomOp) (size scope : Nat) (xs : List LaneAcc) (s : State) :
    MemoryMoved s (s.atomicAll op size scope xs).1 := by
  induction xs generalizing s with
  | nil => exact memoryMoved_refl s
  | cons x rest ih => exact (memoryMoved_atomicOne s op size scope x).trans (ih _)

/-- The lane has its old value. -/
theorem atomicOne_old (s : State) (op : AtomOp) (size scope : Nat) (x : LaneAcc) :
    ∃ p, (s.atomicOne op size scope x).2 = (x.lane, (s.oldValue s.cur.core size scope x, p)) := by
  obtain ⟨p, h⟩ := atomicOne_eq s op size scope x
  refine ⟨p, ?_⟩
  rw [h]
  split <;> rfl

/-- The place has its new value. -/
theorem atomicOne_new {s : State} {op : AtomOp} {size scope : Nat} {x : LaneAcc} {v : DWord}
    (h : op.apply (BitVec.ofNat 64 (s.oldValue s.cur.core size scope x)) x.opnd x.opnd2 = some v) (hn : x.pa % 64 + size ≤ 64) :
    Spec.Holds (s.atomicOne op size scope x).1 (Agent.ofCore s.cur.core) scope x.home x.pa size v.toNat := by
  obtain ⟨p, e⟩ := atomicOne_eq s op size scope x
  rw [e, h]
  exact holds_storeBytes _ _ _ _ _ hn

/-- An atomic that fails writes nothing. -/
theorem atomicOne_failed {s : State} {op : AtomOp} {size scope : Nat} {x : LaneAcc}
    (h : op.apply (BitVec.ofNat 64 (s.oldValue s.cur.core size scope x)) x.opnd x.opnd2 = none) (hb : s.inHostBias (x.pa / 64) = false) :
    (s.atomicOne op size scope x).1.mem = s.mem := by
  obtain ⟨p, e⟩ := atomicOne_eq s op size scope x
  rw [e, h]
  exact mem_claimed hb

/-! ### The lanes of an atomic return -/

/-- The accesses of an atomic performed, with the old values by lane. -/
def State.atomics (s : State) (op : AtomOp) (size scope : Nat) (xs : List LaneAcc) : State × List (Nat × (Nat × Bool)) :=
  (s.keepOld (s.tableLinesOf scope xs)).atomicAll op size scope xs

/-- The state once an atomic has been performed and consumed poison is noted. -/
def State.atomicsNoted (s : State) (op : AtomOp) (size scope : Nat) (xs : List LaneAcc) : State :=
  let r := s.atomics op size scope xs
  r.1.modCur fun g => g.noteLines 0 ((xs.filter fun x => r.2.any fun v => v.1 == x.lane && v.2.2).map (·.va))

theorem returnAtomic_eq {s : State} {scope : Nat} {m : LaneMask} {lanes : List LaneAcc} (f : Flight) (op : AtomOp) (size : Nat) (dst : Dst)
    (acq : Bool) (h : s.tableLinesOf scope (pickLanes m lanes) = []) :
    s.returnAtomic f op size dst scope acq lanes m
      = (s.atomicsNoted op size scope (pickLanes m lanes)).atomicReturned f op size dst scope acq
          ((s.atomics op size scope (pickLanes m lanes)).2.map fun v => (v.1, v.2.1)) (restLanes m lanes) := by
  unfold State.returnAtomic
  dsimp only
  split
  · rfl
  · next l ls e =>
    rw [h] at e
    cases e

theorem receives_atomicsNoted (s : State) (op : AtomOp) (size scope : Nat) (xs : List LaneAcc) :
    s.Receives (s.atomicsNoted op size scope xs) := by
  have kept : s.Receives (s.keepOld (s.tableLinesOf scope xs)) := ⟨⟨rfl, rfl⟩, rfl, rfl, rfl⟩
  have done := kept.trans (memoryMoved_atomicAll op size scope xs _).receives
  unfold State.atomicsNoted State.atomics
  dsimp only
  generalize (s.keepOld (s.tableLinesOf scope xs)).atomicAll op size scope xs = r at done ⊢
  generalize List.map _ (List.filter _ xs) = vas
  exact done.trans (receives_modCur r.1 (f := fun g => g.noteLines 0 vas) (receives_noteLines ..))

theorem threads_atomicsNoted (s : State) (op : AtomOp) (size scope : Nat) (xs : List LaneAcc) :
    (s.atomicsNoted op size scope xs).cur.threads = s.cur.threads := by
  have moved := memoryMoved_atomicAll op size scope xs (s.keepOld (s.tableLinesOf scope xs))
  obtain ⟨-, -, threads, -⟩ := asBefore_fields moved.2.1
  unfold State.atomicsNoted State.atomics
  dsimp only
  generalize (s.keepOld (s.tableLinesOf scope xs)).atomicAll op size scope xs = r at threads ⊢
  exact (noteLines_fields ..).1.trans threads

theorem tableLinesOf_answering (s : State) (g scope : Nat) (xs : List LaneAcc) :
    (s.answering g).tableLinesOf scope xs = (s.focus g).tableLinesOf scope xs := by
  obtain ⟨shared, h⟩ := countQueues_frame (s.focus g) (clusterOf (s.focus g).cur.core)
  rw [State.answering, h]
  rfl

theorem loadResult_atomic {s : State} {g tag size scope : Nat} {m : LaneMask} {op : AtomOp} {dst : Dst} {acq : Bool}
    {accs : List LaneAcc} {f : Flight} (hf : (s.focus g).cur.flight? tag = some f) (hk : f.kind = .atomic op size dst scope acq accs)
    (hm : Spec.MayReturn s g f m scope true accs) (ht : (s.focus g).tableLinesOf scope (pickLanes m accs) = []) :
    State.loadResult tag m (s.focus g)
      = some (((s.answering g).atomicsNoted op size scope (pickLanes m accs)).atomicReturned f op size dst scope acq
          (((s.answering g).atomics op size scope (pickLanes m accs)).2.map fun v => (v.1, v.2.1)) (restLanes m accs)) := by
  obtain ⟨can, answered⟩ := hm
  rw [← returnAtomic_eq f op size dst acq (tableLinesOf_answering s g scope _ ▸ ht)]
  simp only [State.loadResult, hf, hk, can, answered, Bool.and_self, if_true]
  rfl

theorem State.OnlyGroups.trans {s t u : State} (h : s.OnlyGroups t) (k : t.OnlyGroups u) : s.OnlyGroups u := by
  unfold State.OnlyGroups at *
  rw [k, h]

theorem onlyGroups_modCur (s : State) (f : Group → Group) : s.OnlyGroups (s.modCur f) := rfl

theorem onlyGroups_atomicReturned (s : State) (f : Flight) (op : AtomOp) (size : Nat) (dst : Dst) (scope : Nat)
    (values : List (Nat × Nat)) (rest : List LaneAcc) : s.OnlyGroups (s.atomicReturned f op size dst scope false values rest) := by
  rw [atomicReturned_eq, ended_relaxed]
  exact (onlyGroups_deliver ..).trans (onlyGroups_modCur ..)

/-- One lane that returns: the old value is delivered, the place has what the operation makes of it. -/
theorem atomics_one (s : State) (op : AtomOp) (size scope : Nat) (a : LaneAcc) :
    let old := s.oldValue s.cur.core size scope a
    (s.atomics op size scope [a]).2.map (fun v => (v.1, v.2.1)) = [(a.lane, old)]
      ∧ match op.apply (BitVec.ofNat 64 old) a.opnd a.opnd2 with
        | some v => a.pa % 64 + size ≤ 64 →
            Spec.Holds (s.atomicsNoted op size scope [a]) (Agent.ofCore s.cur.core) scope a.home a.pa size v.toNat
        | none => s.inHostBias (a.pa / 64) = false → (s.atomicsNoted op size scope [a]).mem = s.mem := by
  have noted : (s.atomics op size scope [a]).1.OnlyGroups (s.atomicsNoted op size scope [a]) := by
    unfold State.atomicsNoted
    exact onlyGroups_modCur _ _
  have one : s.atomics op size scope [a]
      = (((s.keepOld (s.tableLinesOf scope [a])).atomicOne op size scope a).1,
          [((s.keepOld (s.tableLinesOf scope [a])).atomicOne op size scope a).2]) := rfl
  rw [one] at noted ⊢
  have same : SameLine s (s.keepOld (s.tableLinesOf scope [a])) (a.pa / 64) := ⟨rfl, rfl, rfl⟩
  have mem : (s.keepOld (s.tableLinesOf scope [a])).mem = s.mem := rfl
  have core : (s.keepOld (s.tableLinesOf scope [a])).cur.core = s.cur.core := rfl
  have bias : (s.keepOld (s.tableLinesOf scope [a])).inHostBias (a.pa / 64) = s.inHostBias (a.pa / 64) := rfl
  dsimp only
  rw [← oldValue_congr same, ← core, ← mem, ← bias]
  generalize s.keepOld (s.tableLinesOf scope [a]) = q at noted ⊢
  obtain ⟨p, old⟩ := atomicOne_old q op size scope a
  refine ⟨by rw [old]; rfl, ?_⟩
  split
  · next v hv => exact fun hn => (loadBytes_congr (noted.sameLine _) ..).trans (atomicOne_new hv hn)
  · next hv => exact fun hb => noted.mem.trans (atomicOne_failed hv hb)

theorem inHostBias_answering (s : State) (g line : Nat) : (s.answering g).inHostBias line = s.inHostBias line := by
  rw [State.inHostBias, (sameLine_answering s g line).bias, State.inHostBias]

theorem atomicsReturn : Spec.AtomicsReturn := by
  intro s g tag size scope m op dst acq accs x f hn hx hf hk hm ht
  have hs := distinct_of_numbered hn
  have focused : (s.focus g).cur = x := cur_focus hx hs
  obtain ⟨cur', -, mem', -⟩ := (watched_answering s g).fields
  have cur : (s.answering g).cur = x := cur'.trans focused
  have step := loadResult_atomic (focused.symm ▸ hf) hk hm ht
  have threads := threads_atomicsNoted (s.answering g) op size scope (pickLanes m accs)
  have done := returned_atomic (s.answering g) _ f op size dst scope acq
    (((s.answering g).atomics op size scope (pickLanes m accs)).2.map fun v => (v.1, v.2.1)) (restLanes m accs)
    (receives_atomicsNoted (s.answering g) op size scope (pickLanes m accs))
  rw [tag_of_flight? hf] at done
  obtain ⟨r, e, hy, frame, -⟩ := inGroup?_next "LOAD_RESULT_RETURN" hs hx step
    ((watched_answering s g).receives.ids.trans done.ids)
  refine ⟨r, _, e, hy, done.flight? (cur.symm ▸ hf), ?_⟩
  rintro a hp rfl
  obtain ⟨values, place⟩ := atomics_one (s.answering g) op size scope a
  have old := oldValue_congr (sameLine_answering s g (a.pa / 64)) x.core size scope
  rw [hp] at done threads frame ⊢
  rw [cur, old] at values place
  rw [inHostBias_answering] at place
  rw [values] at done frame ⊢
  have after := (onlyGroups_atomicReturned ((s.answering g).atomicsNoted op size scope [a]) f op size dst scope
    [(a.lane, s.oldValue x.core size scope a)] (restLanes m accs)).trans frame
  generalize ((s.answering g).atomicsNoted op size scope [a]).atomicReturned .. = v at done
  generalize (s.answering g).atomicsNoted op size scope [a] = u at done threads after place
  refine ⟨?_, ?_⟩
  · rintro first words rfl
    have delivered := done.words (t := u) rfl (congrArg List.length threads.symm)
    rwa [cur] at delivered
  · unfold State.oldValue at place
    split
    · next v hv =>
      rw [hv] at place
      exact fun hn => (loadBytes_congr (after.sameLine _) ..).trans (place hn)
    · next hv =>
      rw [hv] at place
      exact fun hb => (after.mem.trans (place hb)).trans (mem'.trans (onlyGroups_focus s g).mem)

end Sys2Proof.Machine
end

section
/-! PROOF. What is in flight returns (R61, R64, R117, R253, R260, R270). -/

namespace Sys2Proof.Machine

/-- Settles O42: the group comes into focus, receives what the operation returns, and the operation is over or goes on with the lanes that
are left. The new value of an atomic's place is what its core sees there, because the last bytes performed at a place are dirty in
the innermost copy that keeps them, or lie at the home with every copy of the core renewed. -/
theorem accessesReturn : Obligations.AccessesReturn :=
  ⟨loadsReturn, atomicsReturn, tableAtomicsReturn, storesAcknowledged, scratchpadPerformed, longResultsReturn⟩

end Sys2Proof.Machine
end

section
/-! PROOF. O55: the ten words decode to their instructions. -/

namespace Sys2Proof.Machine

/-- Settles O55: the decoder is computed on each word. -/
theorem decodeWords : Obligations.DecodeWords := by
  unfold Obligations.DecodeWords
  decide

end Sys2Proof.Machine
end

section
/-! PROOF. O12: a branch goes to its target where its condition holds (R73, R149, R378). -/

namespace Sys2Proof.Machine

theorem transfer_eq (g : Group) (target : DWord) : g.transfer target = Spec.transferred g target := rfl

theorem condition_eq_taken (s : State) (cond : Nat) : s.condition cond = Spec.taken s cond := by
  match cond with
  | 0 | 4 => rfl
  | 1 | 2 | 3 =>
    unfold State.condition Spec.taken
    rw [Bool.eq_iff_iff]
    simp
  | n + 5 => rfl

theorem branchTarget_sext (s : State) (off : BitVec 23) : s.branchTarget (sext64 off) = s.nextPc + BitVec.ofInt 64 (4 * off.toInt) := by
  have words : (4 : DWord) * sext64 off = BitVec.ofInt 64 (4 * off.toInt) := by
    rw [BitVec.ofInt_mul, sext64, BitVec.signExtend]
    rfl
  rw [State.branchTarget, words]

/-- A transfer that is not forward counts, and nothing else of the group changes before the instruction ends. -/
theorem transferred_fields (g : Group) (target : DWord) :
    ∃ n, Spec.transferred g target = { g with watchdog := n } := by
  unfold Spec.transferred
  split
  · exact ⟨_, rfl⟩
  · exact ⟨g.watchdog, rfl⟩

/-- An instruction that has only made a transfer is over at the target (R149, R378). -/
theorem ended_jump (s : State) (target : DWord) :
    Spec.Ended s (s.jump target 0) (Spec.transferred s.cur target) target fun _ => 0 := by
  obtain ⟨n, counted⟩ := transferred_fields s.cur target
  have run : s.jump target 0 = (s.modCur fun g => { g with watchdog := n }).finishAt target fun _ => 0 := by
    rw [State.jump, State.modCur, transfer_eq, counted]
    rfl
  have ended : AtEnd s (s.modCur fun g => { g with watchdog := n }) := ⟨rfl, rfl, rfl, rfl, rfl, rfl, fun _ _ => ⟨rfl, rfl, rfl⟩⟩
  rw [run, counted]
  refine ⟨rfl, ended.goesOn _ _, rfl, fun l hl => ?_⟩
  rw [lane_finishAt (s.modCur fun g => { g with watchdog := n }) _ _ _ hl]
  exact ⟨rfl, rfl, keepsQueues_shifted (keepsQueues_refl _) _⟩

theorem exec_branch {cond : Nat} (h : cond < 6) (off : BitVec 23) {s : State} (hu : s.u = true) :
    exec (Spec.branchInstr cond off) s
      = .next (if s.condition cond then s.jump (s.branchTarget (sext64 off)) 0 else s.finish 0) := by
  have run : exec (Spec.branchInstr cond off) s = .next (s.brCell cond (sext64 off)) := by
    match cond, h with
    | 0, _ | 1, _ | 2, _ | 3, _ | 4, _ | 5, _ => rfl
  rw [run, State.brCell, if_pos h, State.branch, State.uniformOp, hu]
  rfl

/-- Settles O12: a branch is a transfer where its condition holds, and otherwise only ends. -/
theorem branchResults : Obligations.BranchResults := by
  intro cond hcond off s hu
  refine ⟨_, exec_branch hcond off hu, ?_⟩
  rw [condition_eq_taken, branchTarget_sext]
  by_cases h : Spec.taken s cond = true
  · rw [if_pos h, if_pos h]
    exact ended_jump s _
  · rw [if_neg h, if_neg h]
    exact ended_finish s

end Sys2Proof.Machine
end

section
/-! PROOF. No operation of memory and no translation changes what waits in a write buffer: only a drain and a commit do (R252, R277). -/

namespace Sys2Proof.Machine

theorem writeBuf_foldl {β : Type} (f : State → β → State) (hf : ∀ s b, (f s b).writeBuf = s.writeBuf) (bs : List β) (s : State) :
    (bs.foldl f s).writeBuf = s.writeBuf := by
  induction bs generalizing s with
  | nil => rfl
  | cons b rest ih => exact (ih _).trans (hf s b)

/-! ### The home of a line, and copies -/

@[simp] theorem writeBuf_remember (s : State) (line : Nat) : (s.remember line).writeBuf = s.writeBuf := rfl

@[simp] theorem writeBuf_notify (s : State) (line : Nat) (hit : Nat → Nat → Bool) : (s.notify line hit).writeBuf = s.writeBuf := rfl

@[simp] theorem writeBuf_putCopy (s : State) (c : Copy) : (s.putCopy c).writeBuf = s.writeBuf := rfl

@[simp] theorem writeBuf_touch (s : State) (line : Nat) : (s.touch line).writeBuf = s.writeBuf := by
  unfold State.touch
  dsimp only
  split <;> rfl

@[simp] theorem writeBuf_putHome (s : State) (line : Nat) (mask : BitVec 64) (data : BitVec 512) (q : Bool) :
    (s.putHome line mask data q).writeBuf = s.writeBuf := by
  have written : ((s.touch line).writeHome line mask data).writeBuf = s.writeBuf := by
    rw [writeHome_frame]
    exact writeBuf_touch s line
  exact written

@[simp] theorem writeBuf_sendHome (s : State) (c : Copy) : (s.sendHome c).writeBuf = s.writeBuf := writeBuf_putHome ..

@[simp] theorem writeBuf_dropCopies (s : State) (p : Copy → Bool) : (s.dropCopies p).writeBuf = s.writeBuf := by
  rw [dropCopies_frame]

@[simp] theorem writeBuf_keepPins (s old : State) (line : Nat) : (s.keepPins old line).writeBuf = s.writeBuf := by
  refine writeBuf_foldl _ (fun t c => ?_) _ _
  split <;> rfl

/-! ### Bytes are performed -/

@[simp] theorem writeBuf_gather (s : State) (a : Agent) (x line : Nat) : (s.gather a x line).writeBuf = s.writeBuf := by
  unfold State.gather
  dsimp only
  split
  · exact (writeBuf_dropCopies ..).trans (writeBuf_foldl _ (fun t c => writeBuf_sendHome t c) _ _)
  · rfl

@[simp] theorem writeBuf_performHome (s : State) (a : Agent) (line : Nat) (mask : BitVec 64) (data : BitVec 512) (p : Bool) :
    (s.performHome a line mask data p).writeBuf = s.writeBuf := by
  simp [performHome_eq, State.wentHome]

@[simp] theorem writeBuf_reachPoint (s : State) (a : Agent) (scope x line : Nat) (v : Arrival) :
    (s.reachPoint a scope x line v).writeBuf = s.writeBuf := by
  have passing : (s.passing a scope x line v).writeBuf = s.writeBuf := writeBuf_dropCopies (s.remember line) _
  rw [reachPoint_eq, writeBuf_notify]
  split
  · exact (writeBuf_putHome ..).trans passing
  · split <;> exact passing

@[simp] theorem writeBuf_performAt (s : State) (a : Agent) (scope line : Nat) (mask : BitVec 64) (data : BitVec 512) (p : Bool) :
    (s.performAt a scope line mask data p).writeBuf = s.writeBuf := by
  obtain ⟨v, e⟩ := performAt_eq s a scope line mask data p
  rw [e]
  split
  · rfl
  · simp

/-! ### Ways of a set -/

@[simp] theorem writeBuf_pushOutward (s : State) (c : Copy) : (s.pushOutward c).writeBuf = s.writeBuf := by
  unfold State.pushOutward
  rw [writeBuf_dropCopies]
  split
  · rfl
  · exact writeBuf_performAt ..

@[simp] theorem writeBuf_makeRoom3 (s : State) (unit line : Nat) : (s.makeRoom3 unit line).writeBuf = s.writeBuf := by
  unfold State.makeRoom3
  split
  · exact writeBuf_pushOutward ..
  · rfl

@[simp] theorem writeBuf_roomBeyond2 (s : State) (c : Copy) : (s.roomBeyond2 c).writeBuf = s.writeBuf := by
  unfold State.roomBeyond2
  split
  · rfl
  · exact writeBuf_makeRoom3 ..

@[simp] theorem writeBuf_makeRoom2 (s : State) (unit line : Nat) : (s.makeRoom2 unit line).writeBuf = s.writeBuf := by
  unfold State.makeRoom2
  split
  · simp
  · rfl

@[simp] theorem writeBuf_roomBeyond1 (s : State) (c : Copy) : (s.roomBeyond1 c).writeBuf = s.writeBuf := by
  unfold State.roomBeyond1
  split
  · rfl
  · exact writeBuf_makeRoom2 ..

@[simp] theorem writeBuf_makeRoom1 (s : State) (unit line : Nat) : (s.makeRoom1 unit line).writeBuf = s.writeBuf := by
  unfold State.makeRoom1
  split
  · simp
  · rfl

@[simp] theorem writeBuf_makeRoom (s : State) (a : Agent) (level line : Nat) : (s.makeRoom a level line).writeBuf = s.writeBuf := by
  unfold State.makeRoom
  split
  · rfl
  · split
    · exact writeBuf_makeRoom1 ..
    · split
      · exact writeBuf_makeRoom2 ..
      · exact writeBuf_makeRoom3 ..

@[simp] theorem writeBuf_perform (s : State) (a : Agent) (scope : Nat) (home : Home) (line : Nat) (mask : BitVec 64) (data : BitVec 512)
    (p : Bool) : (s.perform a scope home line mask data p).writeBuf = s.writeBuf := by
  unfold State.perform
  split
  · exact writeBuf_performHome ..
  · rw [writeBuf_performAt]
    split
    · exact writeBuf_makeRoom ..
    · rfl

@[simp] theorem writeBuf_keepLine (s : State) (core scope line : Nat) : (s.keepLine core scope line).writeBuf = s.writeBuf := by
  unfold State.keepLine
  split
  · rfl
  · exact (writeBuf_putCopy ..).trans (writeBuf_makeRoom1 ..)

@[simp] theorem writeBuf_performEntry (s : State) (e : WriteEntry) (scope : Nat) : (s.performEntry e scope).writeBuf = s.writeBuf := by
  unfold State.performEntry
  dsimp only
  split <;> simp

/-! ### Translations -/

@[simp] theorem writeBuf_pinLine (s : State) (line entryPa : Nat) : (s.pinLine line entryPa).writeBuf = s.writeBuf := by
  unfold State.pinLine
  dsimp only
  split
  · rfl
  · split
    · exact writeBuf_makeRoom3 s.unpin (pinDie line) line
    · rfl

@[simp] theorem writeBuf_setAD (s : State) (a : Agent) (acc : Access) (entryPa : Nat) (e : DWord) :
    (s.setAD a acc entryPa e).writeBuf = s.writeBuf := by
  unfold State.setAD
  split
  · rfl
  · exact writeBuf_perform ..

@[simp] theorem writeBuf_settleVa (s : State) (acc : Access) (va : DWord) : (s.settleVa acc va).writeBuf = s.writeBuf := by
  unfold State.settleVa State.settle
  split
  · dsimp only
    split
    · rw [writeBuf_setAD]
      split
      · exact writeBuf_pinLine ..
      · rfl
    · rfl
  · unfold State.noteAts
    split <;> rfl
  · split <;> rfl
  · rfl
  · rfl

theorem writeBuf_translated (s : State) (acc : Access) (size : Nat) (d a : Code) (units : DWord) :
    (Spec.translated s acc size d a units).writeBuf = s.writeBuf := writeBuf_foldl _ (fun _ _ => writeBuf_settleVa ..) _ _

end Sys2Proof.Machine
end

section
/-! PROOF. What loads, atomics and scratchpad accesses share: their fields, the places of their lanes, room for a synchronisation
transaction, and the end of the instruction (R58, R74, R78, R103, R116, R267, R415, R416). -/

namespace Sys2Proof.Machine

/-! ### Fields -/

theorem baseOk_of_baseField {s : State} {d a : Code} (h : Spec.baseField s d a) (odd : Bool) :
    baseOk (Spec.isUniform s d) odd a.toNat = true := by
  rcases h with hS | ⟨hu, hv, even⟩
  · simp [baseOk, hS]
  · simp [baseOk, hu, hv, even]

theorem isHandlerReg_iff (g : Group) (i : Nat) : g.isHandlerReg i = true ↔ g.intrap = true ∧ 24 ≤ i ∧ i < 32 := by
  simp [Group.isHandlerReg, and_assoc]

theorem loadDst_eq (s : State) (shape : Shape) (d : Nat) : s.loadDst shape d = Spec.dstOf s shape d := by
  unfold State.loadDst Spec.dstOf State.sDst
  simp only [isHandlerReg_iff]
  cases shape <;> rfl

/-- A field that is no port names registers or nothing. -/
theorem dstOf_ne_port {s : State} {shape : Shape} {d : Nat} (h : isPort d = false) (p : Nat) : Spec.dstOf s shape d ≠ .port p := by
  unfold Spec.dstOf
  split_ifs <;> simp_all

theorem dstOf_port (s : State) (shape : Shape) {d : Nat} (h : isPort d = true) : Spec.dstOf s shape d = .port (d - 100) := by
  have hv : isV d = false := by
    by_contra hv
    simp only [isV, isPort, Bool.not_eq_false, Bool.and_eq_true, decide_eq_true_eq] at hv h
    omega
  unfold Spec.dstOf
  rw [hv, isS_false_of_isPort h, h]
  rfl

section
variable {s t : State} (h : SameReads s t)
include h

theorem SameReads.core : t.cur.core = s.cur.core := by obtain ⟨⟨_, _, _, _, e⟩, -⟩ := h; rw [e]

theorem SameReads.dstOf (shape : Shape) (d : Nat) : Spec.dstOf t shape d = Spec.dstOf s shape d := by
  have intrap := h.intrap
  obtain ⟨⟨_, _, _, _, e⟩, -⟩ := h
  unfold Spec.dstOf
  rw [intrap, e]

theorem SameReads.quiet : t.cur.quiet = s.cur.quiet := by rw [Group.quiet, h.flights, Group.quiet]

theorem SameReads.loadsQuiet : t.cur.loadsQuiet = s.cur.loadsQuiet := by rw [Group.loadsQuiet, h.flights, Group.loadsQuiet]

end

/-! ### The places of the lanes (R114, R116) -/

section
variable {s : State} {acc : Access} {size : Nat} {d a : Code} {units : DWord}

theorem mem_places {e : Nat × (DWord × Placed)} :
    e ∈ placesOf (s.translations acc size d a units)
      ↔ e.1 ∈ Spec.accessing s d ∧ e.2.1 = Spec.address s a units size e.1 ∧ s.xlate acc e.2.1 = .ok e.2.2 := by
  obtain ⟨l, va, p⟩ := e
  simp only [placesOf, State.translations, List.mem_filterMap, List.mem_map, exists_exists_and_eq_and]
  constructor
  · rintro ⟨k, hk, h⟩
    split at h
    · next q hq =>
      cases h
      exact ⟨hk, rfl, hq⟩
    · cases h
  · rintro ⟨hl, rfl, hp⟩
    exact ⟨l, hl, by rw [hp]⟩

/-- Every lane that makes an access has a place. -/
theorem lanes_places (h : Spec.Accessible s acc size d a units) :
    (placesOf (s.translations acc size d a units)).map (·.1) = Spec.accessing s d := by
  have placed : ∀ l ∈ Spec.accessing s d, ∃ p, s.xlate acc (Spec.address s a units size l) = .ok p := fun l hl => (h l hl).2.2
  unfold State.translations placesOf
  generalize Spec.accessing s d = ls at placed
  induction ls with
  | nil => rfl
  | cons l rest ih =>
    obtain ⟨p, hp⟩ := placed l List.mem_cons_self
    rw [List.map_cons, List.filterMap_cons]
    dsimp only
    rw [hp]
    exact congrArg (l :: ·) (ih fun k hk => placed k (List.mem_cons_of_mem _ hk))

theorem translations_endRegion : s.endRegion.translations acc size d a units = s.translations acc size d a units := by
  have reads := sameReads_endRegion s
  simp only [State.translations, reads.accessing, reads.address, xlate_endRegion]

/-- The accesses of an operation: each lane's place and operands. -/
theorem accessesOf_laneAccs (h : Spec.Accessible s acc size d a units) (x : State) {opnd : Nat → Nat} {f : Nat → DWord × DWord}
    (hf : ∀ l, f l = (BitVec.ofNat 64 (opnd l % 2 ^ (8 * size)), BitVec.ofNat 64 (opnd l / 2 ^ (8 * size)))) :
    Spec.AccessesOf s acc size d a units opnd (x.laneAccs size (placesOf (s.translations acc size d a units)) f) := by
  refine ⟨?_, ?_⟩
  · rw [← lanes_places h, State.laneAccs, List.map_map]
    rfl
  · intro y hy
    obtain ⟨e, he, rfl⟩ := List.mem_map.mp hy
    obtain ⟨-, va, place⟩ := mem_places.mp he
    exact ⟨va, place, by simp [hf], by simp [hf]⟩

/-! ### Room for a synchronisation transaction (R415, R416) -/

theorem crosses_places (t : State) (core : t.cur.core = s.cur.core) (scope : Nat) :
    t.crosses scope (placesOf (s.translations acc size d a units)) = Spec.crossing s acc scope size d a units := by
  rw [Bool.eq_iff_iff]
  simp only [State.crosses, Spec.crossing, List.any_eq_true, core]
  constructor
  · rintro ⟨e, he, h⟩
    obtain ⟨hl, va, place⟩ := mem_places.mp he
    refine ⟨e.1, hl, ?_⟩
    rw [← va, place]
    exact h
  · rintro ⟨l, hl, h⟩
    split at h
    · next p hp => exact ⟨(l, _, p), mem_places.mpr ⟨hl, rfl, hp⟩, h⟩
    · cases h

end

/-- Two groups run on one core and have the same operations in flight. -/
def Group.SameTraffic (x y : Group) : Prop := y.core = x.core ∧ y.flights = x.flights

theorem syncOpen_congr {s t : State} (id : t.cur.id = s.cur.id) (cur : s.cur.SameTraffic t.cur)
    (others : List.Forall₂ Group.SameTraffic s.others t.others) (core : Nat) : t.syncOpen core = s.syncOpen core := by
  have groups : List.Forall₂ Group.SameTraffic s.groups t.groups := by
    unfold State.groups
    rw [id]
    split
    · exact others
    · exact .cons cur others
  unfold State.syncOpen
  generalize s.groups = xs, t.groups = ys at groups
  induction groups with
  | nil => rfl
  | cons same _ ih => rw [List.flatMap_cons, List.flatMap_cons, List.length_append, List.length_append, ih, same.1, same.2]

theorem sameTraffic_asBefore {x y : Group} (h : Spec.AsBefore x y) : x.SameTraffic y := by
  rw [asBefore_wait h]
  exact ⟨rfl, rfl⟩

theorem Settled.syncOpen {s t : State} (h : Settled s t) (core : Nat) : t.syncOpen core = s.syncOpen core :=
  syncOpen_congr h.sameReads.id (sameTraffic_asBefore h.2.1) (h.2.2.imp fun _ _ => sameTraffic_asBefore) core

theorem syncOpen_endRegion (s : State) (core : Nat) : s.endRegion.syncOpen core = s.syncOpen core := by
  obtain ⟨buf, entries, h⟩ := endRegion_spec s
  exact syncOpen_congr (sameReads_endRegion s).id (by rw [h]; exact ⟨rfl, rfl⟩)
    (by rw [h]; exact List.forall₂_same.mpr fun x _ => ⟨rfl, rfl⟩) core

/-- Room for a synchronisation transaction is there at the end of the region too. -/
theorem syncRoom_endRegion {s : State} {acc : Access} {scope size : Nat} {d a : Code} {units : DWord}
    (h : Spec.SyncRoom s acc scope size d a units) : Spec.SyncRoom s.endRegion acc scope size d a units := by
  have core := (sameReads_endRegion s).core
  intro small crosses
  rw [core, syncOpen_endRegion]
  refine h small ?_
  rw [← crosses_places (s := s) s rfl, ← translations_endRegion, crosses_places (s := s.endRegion) s core.symm]
  exact crosses

/-- An access with room goes on. -/
theorem syncing_room {s : State} {sync : Bool} (h : sync = true → s.syncOpen s.cur.core < 32) (f : State → State) :
    s.syncing sync f = f s := by
  rcases syncing_cases s sync f with ⟨hs, full, -⟩ | ⟨-, run⟩
  · exact absurd (h hs) (Nat.not_lt.mpr full)
  · exact run

/-! ### The end of a memory instruction (R62, R267, R367, R378) -/

theorem launchFlight_eq_lifted (s t : State) (path : Nat) (kind : FlightKind) : t.launchFlight path kind = s.lifted t path kind 0 [] := rfl

/-- An acquire holds its group at the next instruction. -/
theorem heldAfter_spec (s : State) (acq : Bool) :
    s.heldAfter acq = { s with cur := { s.cur with
      switch := acq || s.cur.switch, latches := if acq then 0 else s.cur.latches } } := by
  cases acq <;> rfl

/-- The end of an access leaves of the finished instruction all but what the end of its region changes. -/
theorem endAccess_spec (s : State) (ends : Bool) : ∃ buf start base entries,
    s.endAccess ends = { s.finish 0 with
      writeBuf := (s.finish 0).writeBuf ++ entries,
      cur := { (s.finish 0).cur with watchdog := 0, storeBuf := buf, rstart := start, rwb := base } }
      ∧ (ends = true → start = (s.finish 0).cur.pc) ∧ (ends = false → entries = []) := by
  cases ends with
  | false => exact ⟨_, _, _, [], by rw [List.append_nil]; rfl, by simp, fun _ => rfl⟩
  | true =>
    obtain ⟨buf, entries, commit⟩ := commit_spec (s.finish 0).progress
    refine ⟨buf, (s.finish 0).cur.pc, (s.finish 0).cur.wb, entries, ?_, fun _ => rfl, by simp⟩
    have run : s.endAccess true = (s.finish 0).progress.commit.startRegion := rfl
    rw [run, commit]
    rfl

/-- An operation is in flight and its instruction is over: what there is of the state then, where `x` is the state before it and the
ports of its operands have made `t` of `x`. -/
structure AccessOver (x t v : State) (acq ends : Bool) (path : Nat) (kind : FlightKind) : Prop where
  begun : ∀ s, SameReads s x → Spec.Begun s v acq path kind
  rstart : ends = true → v.cur.rstart = x.nextPc
  frame : ends = false → v = { t with cur := v.cur, pipes := Spec.issuedPipes x }
  teams : v.teams = x.teams
  launches : v.launches = x.launches
  shared : v.shared = t.shared
  id : v.cur.id = x.cur.id
  others : v.others = t.others
  queues : ∀ l < x.cur.threads.length, ∀ q, (v.cur.lane l).queue q = (t.cur.lane l).queue q

theorem accessOver {x t : State} (moved : QueuesOnly x t) (path : Nat) (kind : FlightKind) (m : LaneMask) (codes : List Nat)
    (ends acq : Bool) : AccessOver x t (((x.lifted t path kind m codes).endAccess ends).heldAfter acq) acq ends path kind := by
  have launched := launched_lifted moved path kind m codes
  obtain ⟨buf, start, base, entries, after, region, still⟩ := endAccess_spec (x.lifted t path kind m codes) ends
  rw [heldAfter_spec, after]
  clear after
  generalize (x.lifted t path kind m codes).finish 0 = u at launched region still ⊢
  have rest := launched.rest
  constructor
  case begun =>
    intro s reads
    obtain ⟨moved_, ⟨switch, latches⟩, watchdog, kept, flights, tag⟩ := launched.begun reads moved
      (v := { u with cur := { u.cur with watchdog := 0, storeBuf := buf, rstart := start, rwb := base } }) ⟨_, _, _, rfl⟩
    refine ⟨moved_, ?_, watchdog, kept, flights, tag⟩
    cases acq with
    | true => exact ⟨rfl, rfl⟩
    | false => exact ⟨switch, latches⟩
  case rstart => exact fun h => (region h).trans launched.goesOn.1.1
  case frame =>
    intro h
    rw [still h, List.append_nil]
    rw [rest]
  case teams =>
    change u.teams = _
    rw [rest]
    exact moved.teams
  case launches =>
    change u.launches = _
    rw [rest]
    exact moved.launches
  case shared =>
    change u.shared = _
    rw [rest]
  case id =>
    change u.cur.id = _
    rw [launched.group]
  case others =>
    change u.others = _
    rw [rest]
  case queues =>
    intro l hl q
    change (u.cur.lane l).queue q = _
    rw [launched.lanes l hl]
    rfl

end Sys2Proof.Machine
end

section
/-! PROOF. O29: a load whose accesses translate is in flight, into registers or into a port (R67, R95, R114 to R122, R217, R219, R220,
R267). -/

namespace Sys2Proof.Machine

/-! ### The cells of the load instructions -/

/-- The cell of a row of loads, alone or as the second word of a pair. -/
theorem exec_load {r : Spec.MemRow} (hr : r ∈ Spec.loadRows ++ Spec.invariantRows) (imm : Option (BitVec 27)) {ord : BitVec 2}
    (scope : BitVec 3) (d a : Code) (off : BitVec 5) {s : State} (hi : Spec.issueOk s imm) (ho : 5 ≤ r.kind → ord = 0) :
    exec (Spec.inIssue 15 r imm ord scope d a off) s
      = .next ((loadCell r.size r.shape ord (decide (5 ≤ r.kind)) scope d a (Spec.offsetUnits imm off)).exec s) := by
  simp only [Spec.loadRows, Spec.invariantRows, List.mem_append, List.mem_cons, List.not_mem_nil, or_false] at hr
  cases imm with
  | none =>
    rcases hr with (rfl | rfl | rfl | rfl | rfl) | hr
    iterate 5 rfl
    rcases hr with rfl | rfl | rfl <;> (obtain rfl := ho (by decide); rfl)
  | some x =>
    have paired : s.issue.pairOk = true := hi.resolve_left (by simp)
    have run : exec (Spec.inIssue 15 r (some x) ord scope d a off) s
        = .next (s.pair x (some (.mem (BitVec.ofNat 5 15) (BitVec.ofNat 3 r.kind) ord scope d a off))) := rfl
    rw [run, State.pair, paired]
    rcases hr with (rfl | rfl | rfl | rfl | rfl) | rfl | rfl | rfl <;> rfl

section
variable {r : Spec.MemRow} {ord : BitVec 2} {inv : Bool} {scope : BitVec 3} {d a : Code} {units : DWord} {s : State}

theorem LoadCell.cause_none (hk : Spec.kindOk s d) (hd : Spec.loadField s r.shape d) (hb : Spec.baseField s d a) :
    (loadCell r.size r.shape ord inv scope d a units).cause s = none := by
  have uniform : (loadCell r.size r.shape ord inv scope d a units).uniform s = Spec.isUniform s d := rfl
  have field : r.shape.dstOk (Spec.isUniform s d) d.toNat = true := hd
  rw [LoadCell.cause, uniform]
  simp only [loadCell, (uOk_of_kindOk hk).1, field, baseOk_of_baseField hb]
  rfl

/-- A load past its checks. -/
theorem LoadCell.exec_checked (hk : Spec.kindOk s d) (hd : Spec.loadField s r.shape d) (hb : Spec.baseField s d a)
    (hsc : s.scopeOk scope.toNat = true) (hc : s.cur.count 0 < 63) (hok : Spec.SoundBase s d a) :
    (loadCell r.size r.shape ord inv scope d a units).exec s
      = if isPort d.toNat then (loadCell r.size r.shape ord inv scope d a units).pushing s
        else (loadCell r.size r.shape ord inv scope d a units).access false s := by
  have inScope : (loadCell r.size r.shape ord inv scope d a units).scope = scope.toNat := rfl
  rw [LoadCell.exec, LoadCell.cause_none hk hd hb]
  dsimp only
  rw [inScope, State.withScope, hsc, if_pos rfl]
  refine (sound_of s hok _).trans ?_
  rw [State.raising, if_neg (by omega)]
  exact apply_ite (fun run : State → State => run s) _ _ _

end

/-- Accesses that all translate, with room where they are synchronisation transactions, start the load. -/
theorem LoadCell.access_start (c : LoadCell) {s : State} (hu : c.uniform s = Spec.isUniform s c.d)
    (ha : Spec.Accessible s .load c.size c.d c.a c.units)
    (hroom : c.acquire = true → Spec.SyncRoom s .load c.scope c.size c.d c.a c.units) (ends : Bool) :
    c.access ends s = c.start (Spec.translated s .load c.size c.d c.a c.units)
      (placesOf (s.translations .load c.size c.d c.a c.units)) ends := by
  have settled := settled_translated s .load c.size c.d c.a c.units
  rw [LoadCell.access, hu, checkAccess_accessible ha]
  refine syncing_room (fun sync => ?_) _
  simp only [Bool.and_eq_true, decide_eq_true_eq, crosses_places _ settled.sameReads.core] at sync
  rw [settled.sameReads.core, settled.syncOpen]
  exact hroom sync.1.1 sync.1.2 sync.2

/-- The accesses that a load carries from the state in which its lanes have translated. -/
def LoadCell.lanes (c : LoadCell) (s x : State) : List LaneAcc :=
  x.laneAccs c.size (placesOf (s.translations .load c.size c.d c.a c.units)) fun _ => (0, 0)

/-! ### Loads into registers -/

theorem forwards_translated (s : State) (acc : Access) (size : Nat) (d a : Code) (units : DWord) (pa n : Nat) :
    (Spec.translated s acc size d a units).forwards pa n = s.forwards pa n := by
  have settled := settled_translated s acc size d a units
  have buf := settled.storeBuf
  have flights := settled.sameReads.flights
  have id := settled.sameReads.id
  have waiting := writeBuf_translated s acc size d a units
  simp only [State.forwards, buf, flights, id, waiting]

theorem LoadCell.start_registers (c : LoadCell) (s x : State) (hp : isPort c.d.toNat = false) (ends : Bool) :
    c.start x (placesOf (s.translations .load c.size c.d c.a c.units)) ends
      = ((x.lifted x 0 (c.kind (Spec.dstOf x c.shape c.d.toNat) (c.lanes s x)) 0 []).endAccess ends).heldAfter c.acquire := by
  rw [LoadCell.start, loadDst_eq, ← launchFlight_eq_lifted]
  have none := dstOf_ne_port (s := x) (shape := c.shape) hp
  cases hd : Spec.dstOf x c.shape c.d.toNat with
  | port p => exact absurd hd (none p)
  | none | v | s | sLow => rfl

theorem loadsIntoRegisters : Spec.LoadsIntoRegisters := by
  intro r hr imm ord scope d a off s hi ho hk hd hport hb hsc hc hok units ha hroom
  let c := loadCell r.size r.shape ord (decide (5 ≤ r.kind)) scope d a units
  let x := Spec.translated s .load r.size d a units
  have reads : SameReads s x := (settled_translated s .load r.size d a units).sameReads
  have runs : c.exec s = ((x.lifted x 0 (c.kind (Spec.dstOf x r.shape d.toNat) (c.lanes s x)) 0 []).endAccess false).heldAfter
      (ord == 1) := by
    rw [LoadCell.exec_checked hk hd hb hsc hc hok, if_neg (by simp [hport])]
    exact (c.access_start rfl ha (fun h => hroom (beq_iff_eq.mp h)) false).trans (c.start_registers s x hport false)
  have after := accessOver (.refl x) 0 (c.kind (Spec.dstOf x r.shape d.toNat) (c.lanes s x)) 0 [] false (ord == 1)
  have begun := after.begun s reads
  rw [reads.dstOf] at begun
  refine ⟨c.exec s, c.lanes s x, exec_load hr imm scope d a off hi ho, ?_, accessesOf_laneAccs ha x (by simp), ?_, ?_⟩
  · rw [runs, reads.dstOf]
    exact begun
  · intro y hy
    obtain ⟨e, -, rfl⟩ := List.mem_map.mp hy
    exact forwards_translated s .load r.size d a units e.2.2.pa r.size
  · rw [runs]
    exact after.frame rfl

/-! ### Loads into a port (R217, R219, R220) -/

theorem samePlace_asBefore {x y : Group} (h : Spec.AsBefore x y) : x.SamePlace y := by
  rw [asBefore_wait h]
  exact ⟨rfl, rfl, rfl, rfl, rfl⟩

theorem Settled.link {s t : State} (h : Settled s t) (lane port : Nat) : t.link lane port = s.link lane port :=
  link_congr h.sameReads ((forall₂_groups h.2).imp fun _ _ => samePlace_asBefore) lane port

/-- The region has ended and the lanes have translated. -/
def State.portReady (s : State) (acc : Access) (size : Nat) (d a : Code) (units : DWord) : State :=
  Spec.translated s.endRegion acc size d a units

section
variable (s : State) (acc : Access) (size : Nat) (d a : Code) (units : DWord)

theorem sameReads_portReady : SameReads s (s.portReady acc size d a units) :=
  (sameReads_endRegion s).trans (settled_translated s.endRegion acc size d a units).sameReads

theorem link_portReady (lane port : Nat) : (s.portReady acc size d a units).link lane port = s.link lane port :=
  ((settled_translated s.endRegion acc size d a units).link lane port).trans (link_endRegion s lane port)

theorem queueAt_portReady {g l : Nat} (hs : s.Seated (g, l)) (q : Nat) :
    (s.portReady acc size d a units).Seated (g, l) ∧ (s.portReady acc size d a units).queueAt (g, l) q = s.queueAt (g, l) q := by
  have settled := settled_translated s.endRegion acc size d a units
  have seated := seated_endRegion hs
  exact ⟨seated_stay settled.2 seated, (queueAt_stay settled.2 seated q).trans (queueAt_endRegion hs q)⟩

end

/-- The queues once each lane has reserved an entry outward, whatever else the end of the instruction leaves. -/
theorem queuesMoved_reserved (s : State) (acc : Access) (size : Nat) (d a : Code) (units : DWord) {port : Nat} (hp : port < 6)
    {entry : Nat → RillEntry} {v : State} {acq ends : Bool} {path : Nat} {kind : FlightKind}
    (h : AccessOver (s.portReady acc size d a units) ((s.portReady acc size d a units).reserveAll (s.portReady acc size d a units)
      (s.portReady acc size d a units).em port entry) v acq ends path kind) : Spec.QueuesMoved s v s.em [] (some port) entry := by
  intro g l q y hy hl hq
  have seat : s.Seated (g, l) := ⟨y, hy, hl⟩
  obtain ⟨seated, same⟩ := queueAt_portReady s acc size d a units seat q
  have link := link_portReady s acc size d a units
  have reads := sameReads_portReady s acc size d a units
  generalize s.portReady acc size d a units = x at *
  have only := reserveAll_queuesOnly x x x.em port entry
  have arrivals : Spec.arrivals x x.em (some port) (g, l) q entry = Spec.arrivals s s.em (some port) (g, l) q entry := by
    simp only [Spec.arrivals, reads.em, reads.lanesOf, link]
  have reserved := queueAt_reserveAll seated x hp hq x.em entry
  rw [arrivals, same] at reserved
  rw [queueAt_congr (h.id.trans only.id.symm) h.others (fun k hk p => h.queues k (by rwa [only.length] at hk) p)
    (seated_foldl_reserve seated x port entry _) q]
  simpa [popCountOf] using reserved

theorem LoadCell.start_port (c : LoadCell) (s x : State) (hp : isPort c.d.toNat = true) :
    c.start x (placesOf (s.translations .load c.size c.d c.a c.units)) true
      = ((x.lifted (x.reserveAll x x.em (c.d.toNat - 100) fun l => .reserved x.cur.id (64 * x.cur.nextTag + l)) 0
          (c.kind (.port (c.d.toNat - 100)) (c.lanes s x)) 0 []).endAccess true).heldAfter c.acquire := by
  rw [LoadCell.start, loadDst_eq, dstOf_port x c.shape hp]
  rfl

theorem loadsIntoPorts : Spec.LoadsIntoPorts := by
  intro r hr imm ord scope d a off s hi ho hu h0 hshape hport hb hsc hc hw hfree hok units ha hroom
  let c := loadCell r.size r.shape ord (decide (5 ≤ r.kind)) scope d a units
  let x := s.portReady .load r.size d a units
  have ended := sameReads_endRegion s
  have reads : SameReads s x := sameReads_portReady ..
  have kind : Spec.kindOk s d := ⟨fun hS => by simp [isS_false_of_isPort hport] at hS, fun _ => hu⟩
  have field : Spec.loadField s r.shape d := by
    rw [Spec.loadField, hshape, isUniform_port hu hport]
    simp [Shape.dstOk, DstCls.ok, hport]
  have room : c.acquire = true → Spec.SyncRoom s.endRegion .load scope.toNat r.size d a units :=
    fun h => syncRoom_endRegion (hroom (beq_iff_eq.mp h))
  let lanes := c.lanes s.endRegion x
  let reserved := x.reserveAll x x.em (d.toNat - 100) fun l => .reserved x.cur.id (64 * x.cur.nextTag + l)
  have runs : c.exec s = ((x.lifted reserved 0 (c.kind (.port (d.toNat - 100)) lanes) 0 []).endAccess true).heldAfter (ord == 1) := by
    rw [LoadCell.exec_checked kind field hb hsc hc hok, if_pos hport, LoadCell.pushing]
    refine (throughPorts_of hw hfree _).trans ?_
    exact (c.access_start rfl (accessible_endRegion ha) room true).trans (c.start_port s.endRegion x hport)
  have after := accessOver (reserveAll_queuesOnly x x x.em (d.toNat - 100) fun l => .reserved x.cur.id (64 * x.cur.nextTag + l)) 0
    (c.kind (.port (d.toNat - 100)) lanes) 0 [] true (ord == 1)
  refine ⟨c.exec s, lanes, exec_load hr imm scope d a off hi ho, ?_, ?_, ?_, ?_⟩
  · rw [runs]
    exact after.begun s reads
  · have all := (accessesOf_laneAccs (accessible_endRegion ha) x (opnd := fun _ => 0) (f := fun _ => (0, 0)) (by simp)).1
    refine all.trans ?_
    rw [ended.accessing, Spec.accessing, isUniform_port hu hport]
    rfl
  · rw [runs]
    exact (after.rstart rfl).trans reads.nextPc
  · rw [runs, ← reads.id, ← reads.nextTag]
    exact queuesMoved_reserved s .load r.size d a units (port_lt hport) after

/-- Settles O29: its lanes have translated, so the load is in flight with their places, and its instruction is over. -/
theorem loadsBegin : Obligations.LoadsBegin := ⟨loadsIntoRegisters, loadsIntoPorts⟩

end Sys2Proof.Machine
end

section
/-! PROOF. O32: an atomic whose release has nothing left to wait for is in flight, and is a region of its own (R96, R257 to R264,
R267). -/

namespace Sys2Proof.Machine

/-! ### Release (R267) -/

theorem sameReads_release (s : State) (scope : Nat) : SameReads s (s.release scope) := by
  by_cases h : scope = 0
  · rw [State.release, if_pos h]
    exact .refl s
  · rw [State.release, if_neg h]
    exact SameReads.trans ⟨⟨_, _, _, _, rfl⟩, rfl, rfl, rfl, rfl⟩ (memoryMoved_pushOut _ s.cur.core scope).settled.sameReads

/-- A release that waits for nothing goes on. -/
theorem afterRelease_ready {s : State} {scope : Nat} (quiet : s.cur.quiet = true) (free : s.heldLine s.cur.core scope = false)
    (cause : Nat) (f : State → State) : s.afterRelease scope cause f = f (s.release scope) := by
  rw [State.afterRelease, State.releaseReady, quiet, free]
  exact if_pos rfl

/-! ### The cells of the atomic instructions -/

/-- The cell of a row of atomics, alone or as the second word of a pair. -/
theorem exec_atomic {e : Spec.MemRow × (Nat × AtomOp)} (he : e ∈ Spec.atomicRows) (imm : Option (BitVec 27)) (ord : BitVec 2)
    (scope : BitVec 3) (d a : Code) (off : BitVec 5) {s : State} (hi : Spec.issueOk s imm) :
    exec (Spec.inIssue e.2.1 e.1 imm ord scope d a off) s
      = .next ((atomicCell e.2.2 e.1.size e.1.shape ord scope d a (Spec.offsetUnits imm off)).exec s) := by
  cases imm with
  | none =>
    simp only [Spec.atomicRows, List.mem_cons, List.not_mem_nil, or_false] at he
    rcases he with rfl | rfl | rfl | rfl | rfl | rfl | rfl | rfl | rfl | rfl | rfl | rfl | rfl | rfl | rfl | rfl <;> rfl
  | some x =>
    have paired : s.issue.pairOk = true := hi.resolve_left (by simp)
    have run : exec (Spec.inIssue e.2.1 e.1 (some x) ord scope d a off) s
        = .next (s.pair x (some (.mem (BitVec.ofNat 5 e.2.1) (BitVec.ofNat 3 e.1.kind) ord scope d a off))) := rfl
    rw [run, State.pair, paired]
    simp only [Spec.atomicRows, List.mem_cons, List.not_mem_nil, or_false] at he
    rcases he with rfl | rfl | rfl | rfl | rfl | rfl | rfl | rfl | rfl | rfl | rfl | rfl | rfl | rfl | rfl | rfl <;> rfl

/-- The shapes of the operands of an operation (R261). -/
def AtomOp.shapeOk (op : AtomOp) (size : Nat) (shape : Shape) : Prop :=
  if op = .cas then size = 4 ∧ shape = .pair ∨ size = 8 ∧ shape = .quad
  else size = 4 ∧ shape = .word ∨ size = 8 ∧ shape = .pair

theorem shapeOk_atomicRows {e : Spec.MemRow × (Nat × AtomOp)} (he : e ∈ Spec.atomicRows) : e.2.2.shapeOk e.1.size e.1.shape := by
  simp only [Spec.atomicRows, List.mem_cons, List.not_mem_nil, or_false] at he
  rcases he with rfl | rfl | rfl | rfl | rfl | rfl | rfl | rfl | rfl | rfl | rfl | rfl | rfl | rfl | rfl | rfl <;>
    simp [AtomOp.shapeOk]

/-- The old value goes to the registers of its size (R259, R261). -/
theorem AtomicCell.dst_eq (c : AtomicCell) (s : State) (h : c.op.shapeOk c.size c.shape)
    (hd : isV c.d.toNat = true ∨ isS c.d.toNat = true) : c.dst s = Spec.atomicDst s c.op c.size c.d.toNat := by
  rw [AtomicCell.dst, loadDst_eq]
  unfold Spec.atomicDst Spec.dstOf
  generalize c.d.toNat = d at hd ⊢
  rcases hd with hv | hs
  · by_cases hop : c.op = .cas <;> simp only [AtomOp.shapeOk, hop, if_true, if_false] at h <;>
      rcases h with ⟨size, shape⟩ | ⟨size, shape⟩ <;> simp [hv, hop, size, shape]
  · have hv : isV d = false := by
      cases hv : isV d
      · rfl
      · exact absurd hs (by simp [isS_false_of_isV hv])
    have held : (s.cur.intrap && decide (24 ≤ d - 64 ∧ d - 64 < 32)) = decide (s.cur.intrap = true ∧ 24 ≤ d - 64 ∧ d - 64 < 32) := by
      simp
    dsimp only
    rw [held]
    by_cases handler : s.cur.intrap = true ∧ 24 ≤ d - 64 ∧ d - 64 < 32 <;> by_cases hop : c.op = .cas <;>
      simp only [AtomOp.shapeOk, hop, if_true, if_false] at h <;>
      rcases h with ⟨size, shape⟩ | ⟨size, shape⟩ <;> simp only [hv, hs, hop, size, shape, handler] <;> rfl

theorem SameReads.atomicDst {s t : State} (h : SameReads s t) (op : AtomOp) (size d : Nat) :
    Spec.atomicDst t op size d = Spec.atomicDst s op size d := by
  have intrap := h.intrap
  obtain ⟨⟨_, _, _, _, e⟩, -⟩ := h
  unfold Spec.atomicDst
  rw [intrap, e]

section
variable {e : Spec.MemRow × (Nat × AtomOp)} {ord : BitVec 2} {scope : BitVec 3} {d a : Code} {units : DWord} {s : State}

theorem AtomicCell.cause_none (hk : Spec.kindOk s d) (hr : isV d.toNat = true ∨ isS d.toNat = true) (hd : Spec.loadField s e.1.shape d)
    (hb : Spec.baseField s d a) : (atomicCell e.2.2 e.1.size e.1.shape ord scope d a units).cause s = none := by
  have uniform : (atomicCell e.2.2 e.1.size e.1.shape ord scope d a units).uniform s = Spec.isUniform s d := rfl
  have field : (atomicCell e.2.2 e.1.size e.1.shape ord scope d a units).dOk (Spec.isUniform s d) = true := by
    rw [Spec.loadField] at hd
    rcases hr with hv | hs
    · have plain : Spec.isUniform s d = false := by rw [Spec.isUniform, isS_false_of_isV hv, hk.2 (.inl hv), Bool.or_self]
      rw [plain] at hd ⊢
      cases shape : e.1.shape <;> simp_all [AtomicCell.dOk, atomicCell, Shape.dstOk, DstCls.ok]
    · have uniform : Spec.isUniform s d = true := by rw [Spec.isUniform, hs, Bool.true_or]
      rw [uniform] at hd ⊢
      cases shape : e.1.shape <;> simp_all [AtomicCell.dOk, atomicCell, Shape.dstOk]
  rw [AtomicCell.cause, uniform, field]
  simp only [atomicCell, (uOk_of_kindOk hk).1, baseOk_of_baseField hb]
  rfl

/-- An atomic past its checks. -/
theorem AtomicCell.exec_checked (hk : Spec.kindOk s d) (hr : isV d.toNat = true ∨ isS d.toNat = true)
    (hd : Spec.loadField s e.1.shape d) (hb : Spec.baseField s d a) (hsc : s.scopeOk scope.toNat = true) (hc : s.cur.count 0 < 63)
    (hok : Spec.SoundData s e.1.shape d a) (hw : s.cur.walking = false) :
    (atomicCell e.2.2 e.1.size e.1.shape ord scope d a units).exec s
      = (atomicCell e.2.2 e.1.size e.1.shape ord scope d a units).access s.endRegion := by
  have inScope : (atomicCell e.2.2 e.1.size e.1.shape ord scope d a units).scope = scope.toNat := rfl
  rw [AtomicCell.exec, AtomicCell.cause_none hk hr hd hb]
  dsimp only
  rw [inScope, State.withScope, hsc, if_pos rfl]
  refine (sound_of s hok _).trans ?_
  rw [State.raising, if_neg (by omega), State.regionEnder, hw]
  rfl

end

/-- The state in which an atomic is put in flight: its region has ended, its lanes have translated, and its release is done. -/
def AtomicCell.ready (c : AtomicCell) (s : State) : State :=
  if c.release then (s.portReady .atomic c.size c.d c.a c.units).release c.scope else s.portReady .atomic c.size c.d c.a c.units

theorem AtomicCell.sameReads_ready (c : AtomicCell) (s : State) : SameReads s (c.ready s) := by
  have reads := sameReads_portReady s .atomic c.size c.d c.a c.units
  unfold AtomicCell.ready
  split
  · exact reads.trans (sameReads_release ..)
  · exact reads

/-- The places of an atomic's lanes. -/
def AtomicCell.places (c : AtomicCell) (s : State) : List (Nat × (DWord × Placed)) :=
  placesOf (s.translations .atomic c.size c.d c.a c.units)

/-- Accesses that all translate, with room where they are synchronisation transactions and nothing for a release to wait for, start the
atomic. -/
theorem AtomicCell.access_start (c : AtomicCell) {s : State} (hu : ∀ t, c.uniform t = Spec.isUniform t c.d)
    (ha : Spec.Accessible s .atomic c.size c.d c.a c.units) (hroom : Spec.SyncRoom s .atomic c.scope c.size c.d c.a c.units)
    (hrel : c.release = true → s.cur.quiet = true
      ∧ (s.portReady .atomic c.size c.d c.a c.units).heldLine s.cur.core c.scope = false) :
    c.access s.endRegion = c.start (c.ready s) (c.places s) := by
  have reads := sameReads_portReady s .atomic c.size c.d c.a c.units
  rw [AtomicCell.access, hu, checkAccess_accessible (accessible_endRegion ha)]
  have same : placesOf (s.endRegion.translations .atomic c.size c.d c.a c.units) = c.places s :=
    congrArg placesOf translations_endRegion
  have ready : Spec.translated s.endRegion .atomic c.size c.d c.a c.units = s.portReady .atomic c.size c.d c.a c.units := rfl
  dsimp only
  rw [same, ready]
  have room : (decide (c.size ≤ 8) && (s.portReady .atomic c.size c.d c.a c.units).crosses c.scope (c.places s)) = true →
      (s.portReady .atomic c.size c.d c.a c.units).syncOpen (s.portReady .atomic c.size c.d c.a c.units).cur.core < 32 := by
    intro sync
    rw [Bool.and_eq_true, decide_eq_true_eq, AtomicCell.places, crosses_places _ reads.core] at sync
    rw [reads.core, State.portReady, (settled_translated ..).syncOpen, syncOpen_endRegion]
    exact hroom sync.1 sync.2
  rw [syncing_room room, AtomicCell.ready]
  split
  · next h =>
    obtain ⟨quiet, free⟩ := hrel h
    exact afterRelease_ready (reads.quiet.trans quiet) (by rw [reads.core]; exact free) _ _
  · rfl

/-- The accesses that an atomic carries. -/
def AtomicCell.lanes (c : AtomicCell) (s : State) : List LaneAcc :=
  (c.ready s).laneAccs c.size (c.places s) (c.operands (c.ready s))

theorem AtomicCell.accessesOf_lanes (c : AtomicCell) {s : State} (ha : Spec.Accessible s .atomic c.size c.d c.a c.units) :
    Spec.AccessesOf s .atomic c.size c.d c.a c.units (fun l => s.storeData c.shape l c.d.toNat) (c.lanes s) :=
  accessesOf_laneAccs ha (c.ready s) fun l => by
    rw [AtomicCell.operands, (c.sameReads_ready s).storeData]

/-- Settles O32: its region has ended, its lanes have translated and its release is done, so the atomic is in flight with the places and
operands of its lanes, and its instruction is a region of its own. -/
theorem atomicsBegin : Obligations.AtomicsBegin := by
  intro e he imm ord scope d a off s hi hk hr hd hb hsc hc hok units ha hroom hord
  let c := atomicCell e.2.2 e.1.size e.1.shape ord scope d a units
  let kind : FlightKind := .atomic e.2.2 e.1.size (Spec.atomicDst s e.2.2 e.1.size d.toNat) scope.toNat (ord.getLsbD 0) (c.lanes s)
  have reads : SameReads s (c.ready s) := c.sameReads_ready s
  have walking : s.cur.walking = false := by
    split at hord
    · exact hord.1.1
    · exact hord
  have held : c.release = true → s.cur.quiet = true
      ∧ (s.portReady .atomic c.size c.d c.a c.units).heldLine s.cur.core c.scope = false := by
    intro h
    rw [if_pos (show ord.getLsbD 1 = true from h)] at hord
    exact ⟨hord.1.2.1, hord.2⟩
  have dst : c.dst (c.ready s) = Spec.atomicDst s e.2.2 e.1.size d.toNat :=
    (c.dst_eq _ (shapeOk_atomicRows he) hr).trans (reads.atomicDst ..)
  have runs : c.exec s = (((c.ready s).lifted (c.ready s) 0 kind 0 []).endAccess true).heldAfter (ord.getLsbD 0) := by
    rw [AtomicCell.exec_checked hk hr hd hb hsc hc hok walking, c.access_start (fun _ => rfl) ha hroom held, AtomicCell.start, dst,
      launchFlight_eq_lifted]
    rfl
  have after := accessOver (.refl (c.ready s)) 0 kind 0 [] true (ord.getLsbD 0)
  refine ⟨c.exec s, c.lanes s, exec_atomic he imm ord scope d a off hi, ?_, c.accessesOf_lanes ha, ?_⟩ <;> rw [runs]
  · exact after.begun s reads
  · obtain ⟨-, -, -, teams, launches⟩ := id reads
    exact ⟨(after.rstart rfl).trans reads.nextPc, after.teams.trans teams, after.launches.trans launches⟩

end Sys2Proof.Machine
end

section
/-! PROOF. O33: a scratchpad access inside the team's allocation is in flight, and its bank conflicts are counted (R97, R244, R268 to
R271). -/

namespace Sys2Proof.Machine

/-! ### The cells of the scratchpad instructions -/

/-- The cell of a row of scratchpad loads, alone or as the second word of a pair. -/
theorem exec_scratchLoad {r : Spec.MemRow} (hr : r ∈ Spec.scratchLoadRows) (imm : Option (BitVec 27)) (d a : Code) (off : BitVec 5)
    {s : State} (hi : Spec.issueOk s imm) :
    exec (Spec.inIssue 19 r imm 0 0 d a off) s = .next ((spmCell r.size r.shape d a (Spec.offsetUnits imm off)).execLoad s) := by
  cases imm with
  | none =>
    simp only [Spec.scratchLoadRows, List.mem_cons, List.not_mem_nil, or_false] at hr
    rcases hr with rfl | rfl | rfl <;> rfl
  | some x =>
    have paired : s.issue.pairOk = true := hi.resolve_left (by simp)
    have run : exec (Spec.inIssue 19 r (some x) 0 0 d a off) s
        = .next (s.pair x (some (.mem (BitVec.ofNat 5 19) (BitVec.ofNat 3 r.kind) 0 0 d a off))) := rfl
    rw [run, State.pair, paired]
    simp only [Spec.scratchLoadRows, List.mem_cons, List.not_mem_nil, or_false] at hr
    rcases hr with rfl | rfl | rfl <;> rfl

/-- The cell of a row of scratchpad stores, alone or as the second word of a pair. -/
theorem exec_scratchStore {r : Spec.MemRow} (hr : r ∈ Spec.scratchStoreRows) (imm : Option (BitVec 27)) (d a : Code) (off : BitVec 5)
    {s : State} (hi : Spec.issueOk s imm) :
    exec (Spec.inIssue 19 r imm 0 0 d a off) s = .next ((spmCell r.size r.shape d a (Spec.offsetUnits imm off)).execStore s) := by
  cases imm with
  | none =>
    simp only [Spec.scratchStoreRows, List.mem_cons, List.not_mem_nil, or_false] at hr
    rcases hr with rfl | rfl | rfl <;> rfl
  | some x =>
    have paired : s.issue.pairOk = true := hi.resolve_left (by simp)
    have run : exec (Spec.inIssue 19 r (some x) 0 0 d a off) s
        = .next (s.pair x (some (.mem (BitVec.ofNat 5 19) (BitVec.ofNat 3 r.kind) 0 0 d a off))) := rfl
    rw [run, State.pair, paired]
    simp only [Spec.scratchStoreRows, List.mem_cons, List.not_mem_nil, or_false] at hr
    rcases hr with rfl | rfl | rfl <;> rfl

section
variable {size : Nat} {shape : Shape} {d a : Code} {units : DWord} {s : State}

theorem SpmCell.cause_none (load : Bool) (hk : Spec.kindOk s d) (hb : baseOk (Spec.isUniform s d) true a.toNat = true)
    (hd : (if load then shape.dstOk (Spec.isUniform s d) d.toNat else shape.srcOk (Spec.isUniform s d) d.toNat) = true) :
    (spmCell size shape d a units).cause load s = none := by
  have uniform : (spmCell size shape d a units).uniform s = Spec.isUniform s d := rfl
  rw [SpmCell.cause, uniform]
  simp only [spmCell, (uOk_of_kindOk hk).1, hd, hb]
  rfl

/-- A scratchpad load into registers past its first checks. -/
theorem SpmCell.execLoad_checked (hk : Spec.kindOk s d) (hb : baseOk (Spec.isUniform s d) true a.toNat = true)
    (hd : Spec.loadField s shape d) (hport : isPort d.toNat = false) (hc : s.cur.count 2 < 63) (hok : Spec.SoundBase s d a) :
    (spmCell size shape d a units).execLoad s
      = (spmCell size shape d a units).checked s fun eas => (spmCell size shape d a units).load s eas false := by
  rw [SpmCell.execLoad, SpmCell.cause_none true hk hb hd]
  refine (sound_of s hok _).trans ?_
  rw [State.raising, if_neg (by omega)]
  exact if_neg (by simp [spmCell, hport])

/-- A scratchpad store of registers past its first checks. -/
theorem SpmCell.execStore_checked (hk : Spec.kindOk s d) (hb : baseOk (Spec.isUniform s d) true a.toNat = true)
    (hd : shape.srcOk (Spec.isUniform s d) d.toNat = true) (hport : isPort d.toNat = false) (hc : s.cur.count 2 < 63)
    (hok : Spec.SoundData s shape d a) :
    (spmCell size shape d a units).execStore s
      = (spmCell size shape d a units).checked s fun eas => (spmCell size shape d a units).store s eas false := by
  rw [SpmCell.execStore, SpmCell.cause_none false hk hb hd]
  refine (sound_of s hok _).trans ?_
  rw [State.raising, if_neg (by omega)]
  exact if_pos (by simp [spmCell, dataPops, hport])

end

/-! ### The access in flight -/

/-- The places of the lanes in the team's scratchpad. -/
def SpmCell.places (c : SpmCell) (s : State) : List (Nat × Nat) :=
  (Spec.accessing s c.d).map fun l => (l, (Spec.address s c.a c.units c.size l).toNat)

/-- Addresses that are aligned and inside the allocation pass the checks. -/
theorem SpmCell.checked_inside (c : SpmCell) (s : State) (hu : c.uniform s = Spec.isUniform s c.d)
    (h : ∀ l ∈ Spec.accessing s c.d, (Spec.address s c.a c.units c.size l).toNat % c.size = 0
      ∧ (Spec.address s c.a c.units c.size l).toNat + c.size ≤ s.team.spb) (f : List (Nat × Nat) → State) :
    c.checked s f = f (c.places s) := by
  have aligned_ : (s.addresses (Spec.isUniform s c.d) c.size c.a c.units).find? (fun e => !aligned e.2 c.size) = none := by
    simp only [addresses_eq, List.find?_eq_none, List.forall_mem_map]
    exact fun l hl => by simp [aligned, (h l hl).1]
  have inside : (s.addresses (Spec.isUniform s c.d) c.size c.a c.units).find? (fun e => s.team.spb < e.2.toNat + c.size) = none := by
    simp only [addresses_eq, List.find?_eq_none, List.forall_mem_map]
    exact fun l hl => by simpa using (h l hl).2
  rw [SpmCell.checked, hu, State.checkScratch, aligned_, inside]
  simp only [addresses_eq, List.map_map]
  rfl

theorem sameReads_countBanks (s : State) (size : Nat) (eas : List (Nat × Nat)) : SameReads s (s.countBanks size eas) :=
  ⟨⟨_, _, _, _, rfl⟩, rfl, rfl, rfl, rfl⟩

/-- The bank conflicts do not depend on a lost latch. -/
theorem countBanks_noteLatches (s : State) (m : LaneMask) (codes : List Nat) (size : Nat) (eas : List (Nat × Nat)) :
    (s.modCur (s.noteLatches m codes)).countBanks size eas
      = (s.countBanks size eas).modCur ((s.countBanks size eas).noteLatches m codes) := by
  rw [funext (noteLatches_eq s m codes), funext (noteLatches_eq (s.countBanks size eas) m codes)]
  rfl

theorem SpmCell.load_registers (c : SpmCell) (s : State) (hp : isPort c.d.toNat = false) (eas : List (Nat × Nat)) :
    c.load s eas false
      = (((s.countBanks c.size eas).lifted (s.countBanks c.size eas) 2 (.sload c.size (Spec.dstOf s c.shape c.d.toNat) eas) 0
          []).endAccess false).heldAfter false := by
  rw [SpmCell.load, loadDst_eq, ← launchFlight_eq_lifted]
  have none := dstOf_ne_port (s := s) (shape := c.shape) hp
  cases hd : Spec.dstOf s c.shape c.d.toNat with
  | port p => exact absurd hd (none p)
  | none | v | s | sLow => rfl

/-- The data of each lane at its place. -/
def SpmCell.data (c : SpmCell) (s : State) (eas : List (Nat × Nat)) : List (Nat × (Nat × (DWord × DWord))) :=
  eas.map fun e => (e.1, (e.2, dataHalves (s.storeData c.shape e.1 c.d.toNat)))

theorem SpmCell.store_registers (c : SpmCell) (s : State) (hp : isPort c.d.toNat = false) (eas : List (Nat × Nat)) :
    c.store s eas false
      = (((s.countBanks c.size eas).lifted (s.countBanks c.size eas) 2 (.sstore c.size (c.data s eas)) s.em
          [c.d.toNat]).endAccess false).heldAfter false := by
  have pops : dataPops c.shape c.d.toNat = [] := by simp [dataPops, hp]
  rw [SpmCell.store, pops, takePops_nil, countBanks_noteLatches, launchFlight_noteLatches]
  rfl

/-- An access is in flight, and of the rest of the machine only the counter of bank conflicts has changed. -/
theorem begun_countBanks (s : State) (size : Nat) (eas : List (Nat × Nat)) (kind : FlightKind) (m : LaneMask) (codes : List Nat) :
    let x := s.countBanks size eas
    let t := ((x.lifted x 2 kind m codes).endAccess false).heldAfter false
    (Spec.OnlyFocus { s with shared := t.shared } t ∧ t.shared = x.shared) ∧ Spec.AccessBegun s t 2 kind := by
  intro x t
  have after : AccessOver x x t false false 2 kind := accessOver (.refl x) 2 kind m codes false false
  refine ⟨⟨?_, after.shared⟩, after.begun s (sameReads_countBanks s size eas)⟩
  rw [Spec.OnlyFocus, after.shared]
  exact after.frame rfl

/-- Settles O33: the addresses pass the checks, the bank conflicts are counted and the access is in flight. -/
theorem scratchpadBegins : Obligations.ScratchpadBegins := by
  intro imm d a off s hi hk hport ha hc units inside places banks
  have base : baseOk (Spec.isUniform s d) true a.toNat = true := by
    rcases ha with hS | ⟨hu, hv⟩
    · simp [baseOk, hS]
    · simp [baseOk, hu, hv]
  constructor
  · intro r hr hd hok hin
    let c := spmCell r.size r.shape d a units
    refine ⟨c.execLoad s, exec_scratchLoad hr imm d a off hi, ?_⟩
    rw [SpmCell.execLoad_checked hk base hd hport hc hok, c.checked_inside s rfl hin, c.load_registers s hport]
    exact begun_countBanks s r.size (c.places s) ..
  · intro r hr hs hok hin
    let c := spmCell r.size r.shape d a units
    refine ⟨c.execStore s, exec_scratchStore hr imm d a off hi, ?_⟩
    rw [SpmCell.execStore_checked hk base hs hport hc hok, c.checked_inside s rfl hin, c.store_registers s hport]
    exact begun_countBanks s r.size (c.places s) ..

end Sys2Proof.Machine
end

section
/-! PROOF. O34: misaligned accesses and scopes that are too wide trap before any effect (R103, R116, R257, R268). -/

namespace Sys2Proof.Machine

/-! ### Misaligned accesses (R116, R268) -/

/-- Lane `l` is the first of the lanes whose address is not a multiple of the size. -/
def State.Misaligned (s : State) (size : Nat) (d a : Code) (units : DWord) (l : Nat) : Prop :=
  ∃ before after, Spec.accessing s d = before ++ l :: after
    ∧ (∀ k ∈ before, (Spec.address s a units size k).toNat % size = 0) ∧ (Spec.address s a units size l).toNat % size ≠ 0

section
variable {s : State} {size l : Nat} {d a : Code} {units : DWord}

theorem State.Misaligned.find (h : s.Misaligned size d a units l) :
    (s.addresses (Spec.isUniform s d) size a units).find? (fun e => !aligned e.2 size) = some (l, Spec.address s a units size l) := by
  obtain ⟨before, after, lanes, fits, odd⟩ := h
  have skip : (before.map fun k => (k, Spec.address s a units size k)).find? (fun e => !aligned e.2 size) = none := by
    simp only [List.find?_eq_none, List.forall_mem_map]
    exact fun k hk => by simp [aligned, fits k hk]
  have found : (!aligned (Spec.address s a units size l) size) = true := by simp [aligned, odd]
  rw [addresses_eq, lanes, List.map_append, List.find?_append, skip, Option.none_or, List.map_cons]
  exact List.find?_cons_of_pos found

theorem State.Misaligned.checkAccess (h : s.Misaligned size d a units l) (acc : Access) :
    s.checkAccess acc size (s.addresses (Spec.isUniform s d) size a units) = .trap causeAlign (Spec.address s a units size l) := by
  rw [State.checkAccess, h.find]

theorem LoadCell.access_misaligned (c : LoadCell) (hu : c.uniform s = Spec.isUniform s c.d) (h : s.Misaligned c.size c.d c.a c.units l)
    (ends : Bool) : c.access ends s = s.trap causeAlign (Spec.address s c.a c.units c.size l) := by
  rw [LoadCell.access, hu, h.checkAccess]

theorem StoreCell.access_misaligned (c : StoreCell) (hu : c.uniform s = Spec.isUniform s c.d) (h : s.Misaligned c.size c.d c.a c.units l)
    (ends : Bool) : c.access ends s = s.trap causeAlign (Spec.address s c.a c.units c.size l) := by
  rw [StoreCell.access, hu, h.checkAccess]

theorem SpmCell.checked_misaligned (c : SpmCell) (hu : c.uniform s = Spec.isUniform s c.d) (h : s.Misaligned c.size c.d c.a c.units l)
    (f : List (Nat × Nat) → State) : c.checked s f = s.trap causeAlign (Spec.address s c.a c.units c.size l) := by
  rw [SpmCell.checked, hu, State.checkScratch, h.find]

end

/-- Loads that are not invariant may have an order. -/
theorem kind_loadRows {r : Spec.MemRow} (hr : r ∈ Spec.loadRows) : r.kind < 5 := by
  simp only [Spec.loadRows, List.mem_cons, List.not_mem_nil, or_false] at hr
  rcases hr with rfl | rfl | rfl | rfl | rfl <;> decide

/-- The cell of a load that stands alone. -/
theorem exec_loadRow {r : Spec.MemRow} (hr : r ∈ Spec.loadRows) (ord : BitVec 2) (scope : BitVec 3) (d a : Code) (off : BitVec 5)
    (s : State) : exec (r.instr ord scope d a off) s
      = .next ((loadCell r.size r.shape ord (decide (5 ≤ r.kind)) scope d a (off.setWidth 64)).exec s) :=
  exec_load (List.mem_append_left _ hr) none scope d a off (.inl rfl) fun h => absurd (kind_loadRows hr) (by omega)

theorem alignmentTraps : Spec.AlignmentTraps := by
  intro ord scope d a off s l before after hk hb hport hsc hc0 hc1 hc2 htrap lanes hok misaligned
  have first {size : Nat} (h : misaligned size) : s.Misaligned size d a (off.setWidth 64) l := ⟨before, after, lanes, h.1, h.2⟩
  have base := baseOk_of_baseField hb true
  refine ⟨fun r hr hd hm => ?_, fun r hr hs hdata hm => ?_, fun r hr hd hm => ?_⟩
  · let c := loadCell r.size r.shape ord (decide (5 ≤ r.kind)) scope d a (off.setWidth 64)
    refine ⟨_, exec_loadRow hr ord scope d a off s, ?_⟩
    rw [LoadCell.exec_checked hk hd hb hsc hc0 hok, if_neg (by simp [hport]), c.access_misaligned rfl (first hm)]
    exact trapped_trap htrap ..
  · let c := storeCell r.size r.shape 0 scope d a (off.setWidth 64)
    have pops : dataPops r.shape d.toNat = [] := by simp [dataPops, hport]
    refine ⟨_, exec_store hr none 0 scope d a off (.inl rfl), ?_⟩
    rw [Spec.offsetUnits, StoreCell.exec_relaxed hk hs hb hsc hc1 hdata, pops, List.isEmpty_nil, if_pos rfl,
      c.access_misaligned rfl (first hm)]
    exact trapped_trap htrap ..
  · let c := spmCell r.size r.shape d a (off.setWidth 64)
    refine ⟨_, exec_scratchLoad hr none d a off (.inl rfl), ?_⟩
    rw [Spec.offsetUnits, SpmCell.execLoad_checked hk base hd hport hc2 hok, c.checked_misaligned rfl (first hm)]
    exact trapped_trap htrap ..

/-! ### Scopes that are too wide (R103, R257) -/

theorem scopeTraps : Spec.ScopeTraps := by
  intro r hr ord scope d a off s hk hd hb wide above htrap
  have refused : s.scopeOk scope.toNat = false := by
    simp only [State.scopeOk, Bool.or_eq_false_iff, decide_eq_false_iff_not]
    omega
  have inScope : (loadCell r.size r.shape ord (decide (5 ≤ r.kind)) scope d a (off.setWidth 64)).scope = scope.toNat := rfl
  have tval : BitVec.ofNat 64 scope.toNat = scope.setWidth 64 := by simp
  refine ⟨_, exec_loadRow hr ord scope d a off s, ?_⟩
  rw [LoadCell.exec, LoadCell.cause_none hk hd hb]
  dsimp only
  rw [inScope, State.withScope, refused, if_neg Bool.false_ne_true, tval]
  exact trapped_trap htrap ..

/-- Settles O34: the first misaligned lane, or the scope, is found before anything is put in flight. -/
theorem accessTraps : Obligations.AccessTraps := ⟨alignmentTraps, scopeTraps⟩

end Sys2Proof.Machine
end

section
/-! PROOF. O37: a wait on a value goes on where the value differs, and arms the monitor of the line where it is equal (R98, R258, R267,
R272 to R274). -/

namespace Sys2Proof.Machine

/-! ### Instructions of kind U that stall -/

theorem wide_of_isS (s : State) (k : Nat) {c : Code} (h : isS c.toNat = true) : s.wide k c = s.sreg k (c.toNat - 64) := by
  have hv : isV c.toNat = false := by
    cases hv : isV c.toNat
    · rfl
    · exact absurd h (by simp [isS_false_of_isV hv])
  rw [State.wide, State.operand, hv, h]
  rfl

/-- A group that stalls keeps its place and its registers. -/
theorem SameReads.stallFor {s u : State} (h : SameReads s u) (hold : Hold) (w : Wait) (cause : Nat) :
    (u.stallFor hold w cause).cur.pc = s.cur.pc ∧ (u.stallFor hold w cause).cur.wait = w
      ∧ Spec.RegistersKept s (u.stallFor hold w cause) := by
  obtain ⟨counts, stall⟩ := stallFor_spec u hold w cause
  obtain ⟨⟨_, _, _, _, e⟩, -⟩ := h
  rw [stall, Spec.RegistersKept]
  dsimp only
  rw [e]
  exact ⟨rfl, rfl, fun _ _ => ⟨rfl, rfl, rfl⟩, rfl, rfl, rfl, rfl, rfl, rfl, .inl rfl, rfl, rfl, rfl, rfl, rfl⟩

/-! ### The cell of WAITV -/

/-- The instruction alone or as the second word of a pair. -/
def waitvInstr (imm : Option (BitVec 27)) (ord : BitVec 2) (scope : BitVec 3) (d a : Code) (off : BitVec 5) : Instr :=
  match imm with
  | none => .waitv ord scope d a off
  | some x => .pfx x (some (.mem 20 2 ord scope d a off))

theorem exec_waitv (imm : Option (BitVec 27)) (ord : BitVec 2) (scope : BitVec 3) (d a : Code) (off : BitVec 5) {s : State}
    (hi : Spec.issueOk s imm) : exec (waitvInstr imm ord scope d a off) s
      = .next (s.waitv (ord == 1) scope.toNat d a (Spec.offsetUnits imm off)) := by
  cases imm with
  | none => rfl
  | some x =>
    have paired : s.issue.pairOk = true := hi.resolve_left (by simp)
    have run : exec (waitvInstr (some x) ord scope d a off) s = .next (s.pair x (some (.mem 20 2 ord scope d a off))) := rfl
    rw [run, State.pair, paired]
    rfl

/-- The checks of one access that is aligned and translates. -/
theorem checkAccess_one {s : State} {acc : Access} {size l : Nat} {va : DWord} {p : Placed} (fits : va.toNat % size = 0)
    (inside : canonical va = true) (hp : s.xlate acc va = .ok p) :
    s.checkAccess acc size [(l, va)] = .ok [(l, va, p)] (s.settleVa acc va) := by
  have aligned_ : aligned va size = true := by simp [aligned, fits]
  simp [State.checkAccess, aligned_, inside, hp, firstStop, placesOf]

/-- A wait on a value whose place is known, with room where it is a synchronisation transaction, reads the place. -/
theorem waitv_read {s : State} {scope : Nat} {d a : Code} {units va : DWord} {p : Placed}
    (hva : va = s.sreg 1 (a.toNat - 64) + 8 * units) (hu : s.u = true) (hd : isS d.toNat = true) (ha : isS a.toNat = true)
    (hsc : s.scopeOk scope = true) (hok : Spec.Sound s [0] [⟨d.toNat, .s⟩, ⟨a.toNat, .s⟩]) (fits : va.toNat % 8 = 0)
    (inside : canonical va = true) (hp : s.xlate .load va = .ok p)
    (hroom : crossesLink s.cur.core scope p.home p.pa = true → s.syncOpen s.cur.core < 32) (acq : Bool) :
    s.waitv acq scope d a units = (s.settleVa .load va).readWaitv acq scope d va p := by
  have settled : Settled s (s.settleVa .load va) := settled_settle ..
  have fields : [(⟨d.toNat, .s⟩ : Src), ⟨a.toNat, .s⟩].all (Src.ok true) = true := by simp [Src.ok, hd, ha]
  rw [State.waitv, State.uniformOp, hu, fields]
  simp only [Bool.not_true, Bool.false_eq_true, if_false]
  rw [State.withScope, if_pos hsc, sound_of s hok, wide_of_isS s 1 ha, ← hva, checkAccess_one fits inside hp]
  refine syncing_room (fun crosses => ?_) _
  rw [settled.sameReads.core, settled.syncOpen]
  refine hroom ?_
  rw [← settled.sameReads.core]
  simpa [State.crosses] using crosses

theorem goesOn_progress {s t : State} {pc : DWord} {b0 : Nat → DWord} (h : Spec.GoesOn s t.cur pc b0) :
    Spec.GoesOn s t.progress.cur pc b0 := h

/-- The end of a wait on a value: the value enters the register and b0. -/
theorem SameReads.endWaitv {s u : State} (h : SameReads s u) (d : Code) (x va : DWord) :
    Spec.GoesOn s (u.endWaitv d x va false).cur s.nextPc (fun _ => x)
      ∧ Spec.sWritten s.cur (d.toNat - 64) x (u.endWaitv d x va false).cur := by
  obtain ⟨written, -, ⟨only, -⟩, -, -, threads, gcyc, latches, pc⟩ := sWritten_writeS u (d.toNat - 64) x
  have run : u.endWaitv d x va false = ((u.modCur fun _ => u.cur.writeS (d.toNat - 64) x 2).finish x).progress := rfl
  rw [run]
  generalize u.cur.writeS (d.toNat - 64) x 2 = g at *
  have ended : AtEnd u (u.modCur fun _ => g) := by
    refine ⟨rfl, rfl, ?_, gcyc, latches, congrArg List.length threads, fun l _ => ?_⟩
    · rw [State.team, State.team?, modCur_cur, only]
      rfl
    · rw [modCur_cur, lane_of_threads threads]
      exact ⟨rfl, rfl, rfl⟩
  have next : (u.modCur fun _ => g).nextPc = s.nextPc := by
    rw [← h.nextPc]
    simp only [State.nextPc, modCur_cur, modCur_issue, pc]
  constructor
  · have after := h.goesOn (ended.goesOn (u.modCur fun _ => g).nextPc fun _ => x)
    rw [← next]
    exact goesOn_progress after
  · have intrap := h.intrap
    obtain ⟨⟨_, _, _, _, e⟩, -⟩ := h
    rw [Spec.sWritten] at written ⊢
    rw [intrap, e] at written
    exact written

/-- What the read of a wait on a value comes to, where no operation of the group is in flight to the place and the line is intact. -/
theorem SameReads.readWaitv {s u : State} (h : SameReads s u) {acq : Bool} {scope : Nat} {d : Code} (va : DWord) {p : Placed}
    (hd : isS d.toNat = true) (own : ∀ f ∈ s.cur.flights, f.touches p.pa 8 = false) (intact : (u.readOwn scope p 8).2 = false)
    (hacq : acq = true → s.cur.loadsQuiet = true ∧ u.heldLine s.cur.core scope = false) {x : DWord}
    (hx : x = BitVec.ofNat 64 (leNat (u.readOwn scope p 8).1)) :
    if x = s.sreg 0 (d.toNat - 64) then
      (u.readWaitv acq scope d va p).cur.pc = s.cur.pc ∧ Spec.RegistersKept s (u.readWaitv acq scope d va p)
        ∧ ∃ entry, (u.readWaitv acq scope d va p).cur.wait = .waitv (p.pa / 64) scope entry false
    else Spec.GoesOn s (u.readWaitv acq scope d va p).cur s.nextPc (fun _ => x)
        ∧ Spec.sWritten s.cur (d.toNat - 64) x (u.readWaitv acq scope d va p).cur := by
  have free : (u.cur.flights.any fun f => f.touches p.pa 8) = false := by
    rw [h.flights, List.any_eq_false]
    exact fun f hf => by simp [own f hf]
  have register : u.wide 0 d = s.sreg 0 (d.toNat - 64) := (wide_of_isS u 0 hd).trans (h.sreg ..)
  rw [State.readWaitv, free, if_neg Bool.false_ne_true]
  dsimp only
  rw [intact, register, ← hx]
  by_cases equal : x = s.sreg 0 (d.toNat - 64)
  · rw [if_pos equal, if_pos ⟨equal, rfl⟩]
    obtain ⟨pc, wait, kept⟩ := h.stallFor .cause (.waitv (p.pa / 64) scope (Config.readsOld u.draws) false) stallWaitv
    exact ⟨pc, kept, _, wait⟩
  · rw [if_neg equal, if_neg fun e => equal e.1]
    cases acq with
    | true =>
      obtain ⟨quiet, held⟩ := hacq rfl
      rw [if_pos rfl, h.loadsQuiet, quiet, h.core, held]
      exact (h.trans (memoryMoved_acquire u scope).settled.sameReads).endWaitv d x va
    | false => exact h.endWaitv d x va

/-- Settles O37: the word at the place is read once its address has translated; the rest follows from whether it is the register's. -/
theorem valueWaits : Obligations.ValueWaits := by
  intro imm ord scope d a off s p hi hu hd ha hsc hok va i fits inside hp own hroom u hacq x intact
  have reads : SameReads s u := (settled_settle ..).sameReads
  refine ⟨_, exec_waitv imm ord scope d a off hi, ?_⟩
  rw [waitv_read rfl hu hd ha hsc hok fits inside hp hroom (ord == 1)]
  exact reads.readWaitv va hd own intact (fun h => hacq (beq_iff_eq.mp h)) rfl

end Sys2Proof.Machine
end

section
/-! PROOF. Fences and waits on a counter go on where their waits are over (R98, R123, R265, R267). -/

namespace Sys2Proof.Machine

/-! ### The end of an instruction that has changed memory alone -/

/-- An instruction is over and has changed no register. -/
structure RegistersOver (s t : State) : Prop where
  goesOn : Spec.GoesOn s t.cur s.nextPc fun _ => 0
  kept : Spec.RegistersKept s t
  flights : t.cur.flights = s.cur.flights
  teams : t.teams = s.teams
  launches : t.launches = s.launches

/-- The end of an instruction before which nothing has changed that an instruction reads. -/
theorem SameReads.finish {s v : State} (h : SameReads s v) : RegistersOver s (v.finish 0) := by
  have threads := h.threads
  have tid (l : Nat) (hl : l < s.cur.threads.length) : ((v.finish 0).cur.lane l).tid = (s.cur.lane l).tid := by
    rw [State.finish, lane_finishAt _ _ _ _ (threads ▸ hl), h.lane]
    rfl
  obtain ⟨only, goes, base, lanes⟩ := ended_finish v
  have goes_ := h.nextPc ▸ h.goesOn goes
  rw [threads] at lanes
  simp only [h.lane] at lanes
  have flights : (v.finish 0).cur.flights = s.cur.flights := by rw [base, ← h.flights]
  have rest : (v.finish 0).teams = v.teams ∧ (v.finish 0).launches = v.launches := by
    rw [only]
    exact ⟨rfl, rfl⟩
  obtain ⟨⟨_, _, _, _, e⟩, -, -, teams, launches⟩ := h
  refine ⟨goes_, ⟨fun l hl => ?_, ?_⟩, flights, rest.1.trans teams, rest.2.trans launches⟩
  · obtain ⟨stack, pred, -⟩ := lanes l hl
    exact ⟨stack, pred, tid l hl⟩
  · rw [base, e]
    exact ⟨rfl, rfl, rfl, rfl, rfl, rfl, .inl rfl, rfl, rfl, rfl, rfl, rfl⟩

/-- The same where a region begins after it. -/
theorem RegistersOver.startRegion {s t : State} (h : RegistersOver s t) :
    RegistersOver s t.startRegion ∧ t.startRegion.cur.rstart = s.nextPc :=
  ⟨⟨h.goesOn, h.kept, h.flights, h.teams, h.launches⟩, h.goesOn.1.1⟩

/-- What lies in memory at the end of an instruction. -/
def State.SameMemory (s t : State) : Prop := t.mem = s.mem ∧ t.copies = s.copies ∧ t.poison = s.poison ∧ t.writeBuf = s.writeBuf

theorem sameMemory_finish (s : State) : s.SameMemory (s.finish 0) := ⟨rfl, rfl, rfl, rfl⟩

theorem State.SameMemory.startRegion {s t : State} (h : s.SameMemory t) : s.SameMemory t.startRegion := h

theorem SameReads.ppath {s t : State} (h : SameReads s t) : t.cur.ppath = s.cur.ppath := by obtain ⟨⟨_, _, _, _, e⟩, -⟩ := h; rw [e]

/-- No poison trap is pending on the paths. -/
theorem afterWait_clear {s : State} {paths : BitVec 6} (h : s.cur.ppath &&& paths = 0) (f : State → State) : s.afterWait paths f = f s := by
  rcases afterWait_cases s paths f with ⟨hp, -⟩ | ⟨-, run⟩
  · exact absurd h hp
  · exact run

/-! ### FENCE (R265, R267) -/

theorem sameReads_acquire (s : State) (scope : Nat) : SameReads s (s.acquire scope) := (memoryMoved_acquire s scope).settled.sameReads

theorem sameReads_released (s : State) (scope : Nat) : SameReads s (Spec.released s scope) :=
  (sameReads_endRegion s).trans (sameReads_release ..)

/-- The state after the release of a fence, where it has one. -/
def State.releasedIf (s : State) (rel : Bool) (scope : Nat) : State := if rel then Spec.released s scope else s

/-- The state in which a fence ends: its release is done, then its acquire. -/
def State.fenced (s : State) (acq rel : Bool) (scope : Nat) : State :=
  if acq then (s.releasedIf rel scope).acquire scope else s.releasedIf rel scope

theorem sameReads_fenced (s : State) (acq rel : Bool) (scope : Nat) : SameReads s (s.fenced acq rel scope) := by
  have released : SameReads s (s.releasedIf rel scope) := by
    cases rel
    · exact .refl s
    · exact sameReads_released s scope
  cases acq
  · exact released
  · exact released.trans (sameReads_acquire ..)

section
variable {ord : BitVec 2} {scope : BitVec 3} {s : State}

/-- A fence with release order whose waits are over is a region of its own. -/
theorem exec_fence_release (hu : s.u = true) (hsc : s.scopeOk scope.toNat = true) (hrel : ord.getLsbD 1 = true)
    (hp : s.cur.ppath &&& 5 = 0) (hw : Spec.Releases s scope.toNat) :
    exec (.fence ord scope) s = .next ((s.fenced (ord.getLsbD 0) true scope.toNat).finish 0).startRegion := by
  have run : exec (.fence ord scope) s = .next (s.fence ord scope.toNat) := rfl
  have ended := sameReads_endRegion s
  obtain ⟨walking, quiet, -, held⟩ := hw
  rw [run, State.fence, State.uniformOp, hu]
  simp only [Bool.not_true, Bool.false_eq_true, if_false, List.all_nil]
  rw [State.withScope, if_pos hsc, if_pos hrel, State.regionEnder, walking, if_neg Bool.false_ne_true, ended.quiet, quiet, ended.core, held]
  refine (congrArg Host.Outcome.next (if_neg Bool.false_ne_true)).trans ?_
  exact congrArg Host.Outcome.next (afterWait_clear (ended.ppath ▸ hp) _)

/-- An acquire alone whose waits are over. -/
theorem exec_fence_acquire (hu : s.u = true) (hsc : s.scopeOk scope.toNat = true) (hrel : ord.getLsbD 1 = false)
    (hp : s.cur.ppath &&& 5 = 0) (quiet : s.cur.loadsQuiet = true) (held : s.heldLine s.cur.core scope.toNat = false) :
    exec (.fence ord scope) s = .next ((s.fenced true false scope.toNat).finish 0) := by
  have run : exec (.fence ord scope) s = .next (s.fence ord scope.toNat) := rfl
  rw [run, State.fence, State.uniformOp, hu]
  simp only [Bool.not_true, Bool.false_eq_true, if_false, List.all_nil]
  rw [State.withScope, if_pos hsc, hrel, if_neg Bool.false_ne_true, State.fenceAcquire, quiet, held]
  refine (congrArg Host.Outcome.next (if_neg Bool.false_ne_true)).trans ?_
  exact congrArg Host.Outcome.next (afterWait_clear hp _)

end

/-- The order that is neither none nor a release is an acquire. -/
theorem acquire_of_order : ∀ ord : BitVec 2, ord ≠ 0 → ord.getLsbD 1 = false → ord.getLsbD 0 = true := by decide

theorem fencesComplete : Spec.FencesComplete := by
  intro ord scope s hu hsc h0 hp hw
  cases hrel : ord.getLsbD 1 with
  | true =>
    rw [if_pos hrel] at hw
    refine ⟨_, exec_fence_release hu hsc hrel hp hw, ?_⟩
    obtain ⟨after, begun⟩ := (sameReads_fenced s (ord.getLsbD 0) true scope.toNat).finish.startRegion
    exact ⟨after.goesOn, after.kept, after.flights, fun _ => begun, after.teams, after.launches, (sameMemory_finish _).startRegion⟩
  | false =>
    rw [hrel, if_neg Bool.false_ne_true] at hw
    refine ⟨_, exec_fence_acquire hu hsc hrel hp hw.1 hw.2, ?_⟩
    rw [acquire_of_order ord h0 hrel]
    have after := (sameReads_fenced s true false scope.toNat).finish
    exact ⟨after.goesOn, after.kept, after.flights, fun h => absurd h Bool.false_ne_true, after.teams, after.launches, sameMemory_finish _⟩

/-! ### WAITP (R123) -/

theorem exec_waitp {a : Code} {path : BitVec 5} {s : State} (hu : s.u = true) (ha : isS a.toNat = true) (hpath : path.toNat < 6)
    (hok : Spec.SoundU s [⟨a.toNat, .s⟩]) :
    exec (.waitp a path) s = .next
      (if (s.sreg 0 (a.toNat - 64)).toNat < s.cur.count path.toNat then
        s.stallOn (.path path.toNat (s.sreg 0 (a.toNat - 64)).toNat) (0x101 + path.toNat)
      else s.afterWait (BitVec.ofNat 6 (2 ^ path.toNat)) fun s => s.finish 0) := by
  have run : exec (.waitp a path) s = execWaitp a path s := rfl
  have fields : [(⟨a.toNat, .s⟩ : Src), ⟨path.toNat, .num 5⟩].all (Src.ok true) = true := by
    simp only [List.all_cons, List.all_nil, Src.ok, ha, Bool.and_true, Bool.true_and, decide_eq_true_eq]
    omega
  have sound : Spec.Sound s (0 :: List.range s.cur.threads.length) [⟨a.toNat, .s⟩, ⟨path.toNat, .num 5⟩] := fun l hl => by
    have register := hok l hl
    simpa [Group.badSources, Group.badSource] using register
  rw [run, execWaitp, State.readOp, State.uniformOp, hu, fields]
  simp only [Bool.not_true, Bool.false_eq_true, if_false]
  rw [sound_of s sound, wide_of_isS s 0 ha]

/-- The bit of one path. -/
theorem and_path_eq_zero {x : BitVec 6} {path : Nat} (h : x.getLsbD path = false) : x &&& BitVec.ofNat 6 (2 ^ path) = 0 := by
  apply BitVec.eq_of_getLsbD_eq
  intro i hi
  simp only [BitVec.getLsbD_and, BitVec.getLsbD_ofNat, Nat.testBit_two_pow]
  by_cases e : path = i
  · subst e
    simp [h]
  · simp [e]

theorem counterWaits : Spec.CounterWaits := by
  intro a path s hu ha hpath hok
  refine ⟨fun below clear => ⟨_, exec_waitp hu ha hpath hok, ?_⟩, fun above => ⟨_, exec_waitp hu ha hpath hok, ?_⟩⟩
  · rw [if_neg (Nat.not_lt.mpr below), afterWait_clear (and_path_eq_zero clear)]
    exact ended_finish s
  · rw [if_pos above]
    obtain ⟨pc, wait, kept⟩ := (SameReads.refl s).stallFor (.path path.toNat (s.sreg 0 (a.toNat - 64)).toNat) .retry (0x101 + path.toNat)
    exact ⟨pc, wait, kept⟩

end Sys2Proof.Machine
end

section
/-! PROOF. The push of one line brings the innermost dirty bytes of a core to the point of a scope (R266, R267, R280). -/

namespace Sys2Proof.Machine

/-! ### The point that bytes are pushed to -/

theorem pointLevel_mono {x y : Nat} (h : x ≤ y) : pointLevel x ≤ pointLevel y := by
  unfold pointLevel
  split_ifs <;> omega

theorem le_reach (s : State) (a : Agent) {scope : Nat} (h : scope ≤ 7) (line : Nat) : scope ≤ s.reach a scope line := by
  unfold State.reach
  split
  · next c _ =>
    have wider : scope ≤ if 3 ≤ scope ∧ c.dirty ≠ 0 then Nat.max scope c.reg else scope := by
      split
      · exact Nat.le_max_left ..
      · exact le_rfl
    dsimp only
    generalize (if 3 ≤ scope ∧ c.dirty ≠ 0 then Nat.max scope c.reg else scope) = x at wider ⊢
    split
    · exact h
    · exact wider
  · split
    · exact h
    · exact le_rfl

/-! ### The copies of an agent when other dies' bytes are gathered -/

/-- The state once the bytes of other dies that a push covers have gone home. -/
def State.gathered (s : State) (a : Agent) (x line : Nat) : State := (s.touch line).gather a x line

/-- A copy that is gone was clean or an L3's. -/
theorem mem_copies_gather {s : State} {a : Agent} {x line : Nat} {c : Copy} (hk : c.level ≤ 2) :
    (c ∈ (s.gather a x line).copies → c ∈ s.copies)
      ∧ (c ∈ s.copies → a.onPath c = true ∨ (c.dirty ≠ 0 ∧ c.level < 2) → c ∈ (s.gather a x line).copies) := by
  unfold State.gather
  dsimp only
  split
  · have sent : c ∈ ((s.owners a line).foldl State.sendHome (s.remember line)).copies ↔ c ∈ s.copies := mem_sentHome hk
    refine ⟨fun h => sent.mp (List.mem_filter.mp (copies_dropCopies .. ▸ h)).1, fun h stays => ?_⟩
    refine (copies_dropCopies .. ▸ List.mem_filter.mpr ⟨sent.mpr h, ?_⟩ : c ∈ (State.dropCopies _ _).copies)
    rcases stays with on | ⟨dirty, level⟩
    · simp [on]
    · have inner : c.owns = false := by
        by_contra owns
        have := level_of_owns (Bool.not_eq_false _ ▸ owns)
        omega
      have kept : (c.dirty == 0) = false := beq_false_of_ne dirty
      rw [kept, inner, Bool.false_and, Bool.or_false, Bool.and_false]
      rfl
  · exact ⟨id, fun h _ => h⟩

theorem mem_copies_gathered {s : State} {a : Agent} {x line : Nat} {c : Copy} (hk : c.level ≤ 2) :
    (c ∈ (s.gathered a x line).copies → c ∈ s.copies)
      ∧ (c ∈ s.copies → a.onPath c = true ∨ (c.dirty ≠ 0 ∧ c.level < 2) → c ∈ (s.gathered a x line).copies) := by
  have touched := copies_touch s line
  rw [← touched]
  exact mem_copies_gather hk

/-- The agent's own copies are those before. -/
theorem mem_pathCopies_gathered {s : State} {a : Agent} {x line other : Nat} {c : Copy} :
    c ∈ (s.gathered a x line).pathCopies a other ↔ c ∈ s.pathCopies a other := by
  rw [mem_pathCopies, mem_pathCopies]
  constructor
  · rintro ⟨h, hl, hp⟩
    exact ⟨(mem_copies_gathered (level_of_onPath hp)).1 h, hl, hp⟩
  · rintro ⟨h, hl, hp⟩
    exact ⟨(mem_copies_gathered (level_of_onPath hp)).2 h (.inl hp), hl, hp⟩

/-! ### The bytes that a push carries -/

/-- The agent's copies below a point whose dirty bytes are carried to it, innermost first. -/
def State.carriers (s : State) (a : Agent) (x line : Nat) : List Copy :=
  (s.pathCopies a line).filter fun c => c.level < pointLevel x && c.reg < x

/-- What arrives at the point of scope `x` when the agent's narrower dirty bytes are carried there. -/
def State.carried (s : State) (a : Agent) (x line : Nat) : Arrival :=
  let base := s.atLevel a (if (s.carriers a x line).any (·.level = 2) then 3 else Nat.min 2 (pointLevel x)) line
  (s.carriers a x line).reverse.foldl Arrival.carry ⟨0, base.1, base.2, false⟩

/-- A push: nothing, or what it carries at its point. -/
theorem performAt_push (s : State) (a : Agent) (scope line : Nat) :
    s.performAt a scope line 0 0 false
      = if (((s.gathered a (s.reach a scope line) line).carried a (s.reach a scope line) line).add 0 0 false).mask = 0 then s
        else ((s.gathered a (s.reach a scope line) line).reachPoint a scope (s.reach a scope line) line
          (((s.gathered a (s.reach a scope line) line).carried a (s.reach a scope line) line).add 0 0 false)).keepPins s line := rfl

/-- A push adds no bytes of its own. -/
theorem add_nothing (x : Arrival) {j : Nat} (hj : j < 64) :
    (x.add 0 0 false).mask = x.mask ∧ lineByte (x.add 0 0 false).data j = lineByte x.data j := by
  refine ⟨by simp [Arrival.add], (lineByte_mergeLine _ _ _ _ hj).trans (if_neg (by simp))⟩

theorem carry_mask (x : Arrival) (c : Copy) : (x.carry c).mask = x.mask ||| c.dirty := by
  unfold Arrival.carry
  split
  · next h => simp [h]
  · rfl

theorem carry_data (x : Arrival) (c : Copy) {j : Nat} (hj : j < 64) :
    lineByte (x.carry c).data j = if c.dirty.getLsbD j then lineByte c.data j else lineByte x.data j := by
  unfold Arrival.carry
  split
  · next h => simp [h]
  · exact lineByte_mergeLine _ _ _ _ hj

/-- A byte stays carried where every later copy that has it dirty holds the same. -/
theorem carried_foldl {cs : List Copy} {x : Arrival} {j : Nat} {b : Byte} (hj : j < 64)
    (same : ∀ c ∈ cs, c.dirty.getLsbD j = true → lineByte c.data j = b) (hm : x.mask.getLsbD j = true) (hx : lineByte x.data j = b) :
    (cs.foldl Arrival.carry x).mask.getLsbD j = true ∧ lineByte (cs.foldl Arrival.carry x).data j = b := by
  induction cs generalizing x with
  | nil => exact ⟨hm, hx⟩
  | cons c rest ih =>
    refine ih (fun d hd => same d (List.mem_cons_of_mem _ hd)) (by simp [carry_mask, hm]) ?_
    rw [carry_data _ _ hj]
    split
    · next h => exact same c List.mem_cons_self h
    · exact hx

/-- The mask of what is carried has the dirty bytes of the carriers. -/
theorem mask_foldl_carry (cs : List Copy) (x : Arrival) (j : Nat) :
    (cs.foldl Arrival.carry x).mask.getLsbD j = (x.mask.getLsbD j || cs.any fun c => c.dirty.getLsbD j) := by
  induction cs generalizing x with
  | nil => simp
  | cons c rest ih => rw [List.foldl_cons, ih, carry_mask, List.any_cons, BitVec.getLsbD_or, Bool.or_assoc]

/-- The copy is the agent's innermost with byte `j` dirty. -/
def State.Innermost (s : State) (a : Agent) (line j : Nat) (c : Copy) : Prop :=
  c ∈ s.pathCopies a line ∧ c.dirty.getLsbD j = true
    ∧ ∀ d ∈ s.pathCopies a line, d.level ≤ c.level → d.dirty.getLsbD j = true → d = c

/-- The innermost dirty byte is the one that arrives. -/
theorem carried_innermost {s : State} {a : Agent} {x line j : Nat} {c : Copy} (hj : j < 64) (h : s.Innermost a line j c)
    (below : c.level < pointLevel x) (narrow : c.reg < x) :
    (s.carried a x line).mask.getLsbD j = true ∧ lineByte (s.carried a x line).data j = lineByte c.data j := by
  obtain ⟨mem, dirty, first⟩ := h
  have carrier : c ∈ s.carriers a x line := List.mem_filter.mpr ⟨mem, by simp [below, narrow]⟩
  have sorted := (pathCopies_sorted s a line).filter fun c => c.level < pointLevel x && c.reg < x
  have own : ∀ d ∈ s.carriers a x line, d ∈ s.pathCopies a line := fun d hd => (List.mem_filter.mp hd).1
  unfold State.carried
  dsimp only
  generalize s.atLevel a _ line = base
  change (s.carriers a x line).Pairwise _ at sorted
  obtain ⟨inner, outer, e⟩ := List.append_of_mem carrier
  rw [e] at sorted own ⊢
  have same : ∀ d ∈ inner.reverse, d.dirty.getLsbD j = true → lineByte d.data j = lineByte c.data j := by
    intro d hd hj
    have hd := List.mem_reverse.mp hd
    have le := (List.pairwise_append.mp sorted).2.2 d hd c List.mem_cons_self
    rw [first d (own d (List.mem_append_left _ hd)) le hj]
  rw [List.reverse_append, List.reverse_cons, List.append_assoc, List.foldl_append, List.singleton_append, List.foldl_cons]
  refine carried_foldl hj same ?_ ?_
  · simp [carry_mask, dirty]
  · rw [carry_data _ _ hj, if_pos dirty]

/-! ### Bytes that arrive show -/

/-- Bytes that arrive at the point of a scope show there. -/
theorem shows_arrival (s : State) (core scope line : Nat) {v : Arrival} {j : Nat} (hj : j < 64) (hv : v.mask.getLsbD j = true) :
    ∃ k, (((s.gathered (Agent.ofCore core) (s.reach (Agent.ofCore core) scope line) line).reachPoint (Agent.ofCore core) scope
      (s.reach (Agent.ofCore core) scope line) line v).keepPins s line).Shows (Agent.ofCore core) line k j (lineByte v.data j) := by
  have place := reach_cases s (Agent.ofCore core) scope line
  generalize s.reach (Agent.ofCore core) scope line = x at place ⊢
  have kept : s.KeepsOwn (s.gathered (Agent.ofCore core) x line) (Agent.ofCore core) line := keepsOwn_gathered s (Agent.ofCore core) x line
  have unowned : (s.gathered (Agent.ofCore core) 7 line).Unowned (Agent.ofCore core) line :=
    unowned_gather (s.touch line) (Agent.ofCore core) line
  have point : x ≤ 3
      ∨ (3 < x ∧ x ≤ 6 ∧ ∃ c ∈ (s.gathered (Agent.ofCore core) x line).copies,
          c.line = line ∧ (Agent.ofCore core).onPath c = true ∧ c.level = 2)
      ∨ (x = 7 ∧ (s.gathered (Agent.ofCore core) x line).Unowned (Agent.ofCore core) line) := by
    rcases place with h3 | ⟨h3, h6, c, hc, hl, hp, h2⟩ | rfl
    · exact .inl h3
    · exact .inr (.inl ⟨h3, h6, c, (mem_copies_gathered h2.le).2 hc (.inl hp), hl, hp, h2⟩)
    · exact .inr (.inr ⟨rfl, unowned⟩)
  obtain ⟨k, shown⟩ := shows_reachPoint (scope := scope) hj hv point
  exact ⟨k, shows_keepPins (kept.trans (keepsOwn_reachPoint _ _ _ _ _ _)) shown⟩

/-- The push of a line brings the innermost dirty byte of the core to the point of the scope. -/
theorem shows_push {s : State} {core scope line j : Nat} {c : Copy} (hj : j < 64) (hs : scope ≤ 7)
    (h : s.Innermost (Agent.ofCore core) line j c) (below : c.level < pointLevel scope) (narrow : c.reg < scope) :
    ∃ k, (s.performAt (Agent.ofCore core) scope line 0 0 false).Shows (Agent.ofCore core) line k j (lineByte c.data j) := by
  have wide := le_reach s (Agent.ofCore core) hs line
  have shown := fun v => shows_arrival s core scope line (v := v) hj
  rw [performAt_push]
  generalize s.reach (Agent.ofCore core) scope line = x at wide shown ⊢
  have innermost : (s.gathered (Agent.ofCore core) x line).Innermost (Agent.ofCore core) line j c :=
    ⟨mem_pathCopies_gathered.mpr h.1, h.2.1, fun d hd => h.2.2 d (mem_pathCopies_gathered.mp hd)⟩
  obtain ⟨mask, data⟩ := carried_innermost hj innermost (below.trans_le (pointLevel_mono wide)) (narrow.trans_le wide)
  obtain ⟨added, same⟩ := add_nothing ((s.gathered (Agent.ofCore core) x line).carried (Agent.ofCore core) x line) hj
  rw [if_neg fun e => by rw [← added, e] at mask; simp at mask, ← data, ← same]
  exact shown _ (by rw [added]; exact mask)

end Sys2Proof.Machine
end

section
/-! PROOF. What performing bytes, and making room for them, leaves of other dirty copies (R237, R266, R279, R280, R332). -/

namespace Sys2Proof.Machine

/-! ### Pinned lines -/

/-- The pins of a line add clean copies alone, where none of the place is left. -/
theorem mem_copies_keepPins {t old : State} {line : Nat} {c : Copy} :
    (c ∈ t.copies → c ∈ (t.keepPins old line).copies) ∧ (c ∈ (t.keepPins old line).copies → c.dirty ≠ 0 → c ∈ t.copies) := by
  unfold State.keepPins
  have pinned : ∀ x ∈ old.copies.filter (fun x => x.level == 1 && x.line == line && (old.tilePins x.unit).contains line),
      x.level = 1 ∧ x.line = line := fun x hx => by
    obtain ⟨-, hb⟩ := List.mem_filter.mp hx
    simp only [Bool.and_eq_true, beq_iff_eq] at hb
    exact hb.1
  generalize old.copies.filter _ = xs at pinned
  induction xs generalizing t with
  | nil => exact ⟨id, fun h _ => h⟩
  | cons x rest ih =>
    obtain ⟨level, place⟩ := pinned x List.mem_cons_self
    have later := fun t => ih (t := t) fun y hy => pinned y (List.mem_cons_of_mem _ hy)
    rw [List.foldl_cons]
    split
    · exact later t
    · next missing =>
      refine ⟨fun h => (later _).1 (List.mem_cons_of_mem _ (List.mem_filter.mpr ⟨h, ?_⟩)), fun h dirty => ?_⟩
      · by_contra same
        simp only [Bool.not_eq_true', Bool.not_eq_false, Bool.and_eq_true, beq_iff_eq] at same
        exact missing (List.any_eq_true.mpr ⟨c, h, by simp [same.1.1, same.1.2, same.2, level, place]⟩)
      · rcases List.mem_cons.mp ((later _).2 h dirty) with rfl | h
        · exact absurd rfl dirty
        · exact (List.mem_filter.mp h).1

/-! ### Copies that bytes at a point do not reach -/

theorem passed_off {c : Copy} {a : Agent} {line : Nat} (h : c.line ≠ line ∨ a.onPath c = false) (scope x : Nat) (v : Arrival) :
    c.passed a scope x line v = c := by
  rw [Copy.passed, if_neg]
  rintro ⟨hl, hp, -⟩
  rcases h with h | h
  · exact h hl
  · rw [hp] at h
    cases h

/-- The copy at the point lies on the agent's path. -/
theorem onPath_pointCopy {s : State} {a : Agent} {x line : Nat} {v : Arrival} (home : a.atHome x = false) (level : pointLevel x ≠ 3) :
    a.onPath (s.pointCopy a x line v) = true := by
  have unit : (a.unit (pointLevel x)).isSome = true := by
    simp only [Agent.atHome, Bool.or_eq_false_iff, Bool.and_eq_false_iff, bne_eq_false_iff_eq] at home
    have := home.2.resolve_right level
    simpa [Option.isSome_iff_ne_none] using this
  obtain ⟨u, hu⟩ := Option.isSome_iff_exists.mp unit
  simp [Agent.onPath, State.pointCopy, hu]

/-- The copies that bytes at a point leave, but for those that they invalidate. -/
theorem mem_copies_reachPoint {s : State} {a : Agent} {scope x line : Nat} {v : Arrival} {c : Copy} (hk : c.level ≤ 2)
    (off : c.line ≠ line ∨ a.onPath c = false) :
    (c ∈ (s.reachPoint a scope x line v).copies → c ∈ s.copies)
      ∧ (c ∈ s.copies → c.stale a x line = false → c ∈ (s.reachPoint a scope x line v).copies) := by
  have passing : (c ∈ (s.passing a scope x line v).copies → c ∈ s.copies)
      ∧ (c ∈ s.copies → c.stale a x line = false → c ∈ (s.passing a scope x line v).copies) := by
    refine ⟨fun h => ?_, fun h stays => ?_⟩
    · obtain ⟨d, hd, e⟩ := mem_passing h
      obtain ⟨dl, du, dn⟩ := passed_place d a scope x line v
      rw [← e] at dl du dn
      have same : d.line ≠ line ∨ a.onPath d = false := off.imp (fun h => dn ▸ h) fun h => (onPath_congr a dl du).symm ▸ h
      rw [e, passed_off same]
      exact hd
    · rw [copies_passing]
      exact List.mem_map.mpr ⟨c, List.mem_filter.mpr ⟨h, by rw [stays]; rfl⟩, passed_off off ..⟩
  rw [reachPoint_eq]
  generalize s.passing a scope x line v = t at passing ⊢
  cases home : a.atHome x with
  | true =>
    have same : c ∈ (t.putHome line v.mask v.data v.poison).copies ↔ c ∈ t.copies := by
      rw [copies_putHome, List.mem_map]
      constructor
      · rintro ⟨d, hd, rfl⟩
        rw [(pinWritten_place d _ _).1] at hk
        rwa [pinWritten_cached hk]
      · exact fun h => ⟨c, h, pinWritten_cached hk ..⟩
    exact ⟨fun h => passing.1 (same.mp h), fun h stays => same.mpr (passing.2 h stays)⟩
  | false =>
    rw [if_neg Bool.false_ne_true]
    split
    · exact passing
    · next level =>
      have on := onPath_pointCopy (s := s) (line := line) (v := v) home level
      have place : (s.pointCopy a x line v).line = line := rfl
      refine ⟨fun h => ?_, fun h stays => List.mem_cons_of_mem _ (List.mem_filter.mpr ⟨passing.2 h stays, ?_⟩)⟩
      · rcases List.mem_cons.mp h with rfl | h
        · rcases off with off | off
          · exact absurd place off
          · rw [on] at off
            cases off
        · exact passing.1 (List.mem_filter.mp h).1
      · by_contra same
        simp only [Bool.not_eq_true', Bool.not_eq_false, Bool.and_eq_true, beq_iff_eq] at same
        rcases off with off | off
        · exact off (same.2.trans place)
        · rw [onPath_congr a same.1.1 same.1.2, on] at off
          cases off

/-- Dirty copies off the path of a store, or of another line, are those before, but for those that it invalidates. -/
theorem mem_copies_performAt {s : State} {a : Agent} {scope line : Nat} {mask : BitVec 64} {data : BitVec 512} {p : Bool} {c : Copy}
    (hk : c.level ≤ 2) (hd : c.dirty ≠ 0) (off : c.line ≠ line ∨ a.onPath c = false) :
    (c ∈ (s.performAt a scope line mask data p).copies → c ∈ s.copies)
      ∧ (c ∈ s.copies → c.level < 2 → (∀ x, a.mutual x c = false) → c ∈ (s.performAt a scope line mask data p).copies) := by
  obtain ⟨v, e⟩ := performAt_eq s a scope line mask data p
  rw [e]
  split
  · exact ⟨id, fun h _ _ => h⟩
  · generalize s.reach a scope line = x
    have gathered := mem_copies_gathered (s := s) (a := a) (x := x) (line := line) hk
    have reached := mem_copies_reachPoint (s := s.gathered a x line) (scope := scope) (x := x) (v := v.add mask data p) hk off
    refine ⟨fun h => gathered.1 (reached.1 (mem_copies_keepPins.2 h hd)), fun h level apart => ?_⟩
    have clean : (c.dirty == 0) = false := beq_false_of_ne hd
    have fresh : c.stale a x line = false := by
      rw [Copy.stale, apart, clean, Bool.and_false, Bool.or_self, Bool.and_false]
    exact mem_copies_keepPins.1 (reached.2 (gathered.2 h (.inr ⟨hd, level⟩)) fresh)

/-! ### Room in a cache -/

/-- The narrow dirty copies inside a level are those before. -/
def State.KeepsInner (s t : State) (k : Nat) : Prop :=
  (∀ c ∈ s.copies, c.level < k → c.reg ≤ k → c.dirty ≠ 0 → c ∈ t.copies) ∧ ∀ c ∈ t.copies, c.level < k → c.dirty ≠ 0 → c ∈ s.copies

theorem State.KeepsInner.refl (s : State) (k : Nat) : s.KeepsInner s k := ⟨fun _ h _ _ _ => h, fun _ h _ _ => h⟩

theorem State.KeepsInner.trans {s t u : State} {k : Nat} (h : s.KeepsInner t k) (g : t.KeepsInner u k) : s.KeepsInner u k :=
  ⟨fun c hc level reg dirty => g.1 c (h.1 c hc level reg dirty) level reg dirty,
    fun c hc level dirty => h.2 c (g.2 c hc level dirty) level dirty⟩

theorem State.KeepsInner.mono {s t : State} {j k : Nat} (h : s.KeepsInner t k) (hj : j ≤ k) : s.KeepsInner t j :=
  ⟨fun c hc level reg dirty => h.1 c hc (by omega) (by omega) dirty, fun c hc level dirty => h.2 c hc (by omega) dirty⟩

/-- No cache inside the level lies on the path of the agent. -/
def Agent.Beyond (a : Agent) (k : Nat) : Prop := ∀ j < k, a.unit j = none

theorem cacheAgent_beyond {level k : Nat} (unit : Nat) (h : k ≤ level) (hk : k ≤ 2) : (cacheAgent level unit).Beyond k := by
  intro j hj
  unfold cacheAgent
  split_ifs
  · omega
  · have : j = 0 := by omega
    simp [this, Agent.unit, Agent.ofCluster]
  · have : j = 0 ∨ j = 1 := by omega
    rcases this with rfl | rfl <;> rfl

/-- Stores from beyond a level do not cover the narrow copies inside it. -/
theorem mutual_beyond {a : Agent} {k : Nat} (h : a.Beyond k) (hk : k ≤ 2) {c : Copy} (level : c.level < k) (reg : c.reg ≤ k) (x : Nat) :
    a.mutual x c = false := by
  have core : a.core = none := h 0 (by omega)
  have narrow : Nat.min x c.reg ≤ k := (Nat.min_le_right ..).trans reg
  rw [Agent.mutual]
  generalize Nat.min x c.reg = y at narrow
  rcases (by omega : y ≤ 1 ∨ y = 2) with inner | rfl
  · simp [Agent.covers, inner, core]
  · have cluster : a.cluster = none := h 1 (by omega)
    simp [Agent.covers, cluster]

theorem onPath_beyond {a : Agent} {k : Nat} (h : a.Beyond k) {c : Copy} (level : c.level < k) : a.onPath c = false := by
  rw [Agent.onPath, h _ level]
  rfl

theorem keepsInner_performAt {s : State} {a : Agent} {k : Nat} (h : a.Beyond k) (hk : k ≤ 2) (scope line : Nat) (mask : BitVec 64)
    (data : BitVec 512) (p : Bool) : s.KeepsInner (s.performAt a scope line mask data p) k :=
  ⟨fun _ hc level reg dirty => (mem_copies_performAt (by omega) dirty (.inr (onPath_beyond h level))).2 hc (by omega)
      (mutual_beyond h hk level reg),
    fun _ hc level dirty => (mem_copies_performAt (by omega) dirty (.inr (onPath_beyond h level))).1 hc⟩

theorem keepsInner_pushOutward {s : State} {c : Copy} {k : Nat} (h : k ≤ c.level) (hk : k ≤ 2) : s.KeepsInner (s.pushOutward c) k := by
  have pushed : s.KeepsInner (if c.dirty = 0 then s else
      s.performAt (cacheAgent c.level c.unit) (if c.level = 2 then 7 else c.level + 2) c.line 0 0 false) k := by
    split
    · exact .refl s k
    · exact keepsInner_performAt (cacheAgent_beyond c.unit h hk) hk ..
  refine pushed.trans ⟨fun d hd level _ _ => ?_, fun d hd _ _ => ?_⟩ <;> unfold State.pushOutward at *
  · rw [copies_dropCopies]
    refine List.mem_filter.mpr ⟨hd, ?_⟩
    have apart : (d.level == c.level) = false := beq_false_of_ne (by omega)
    simp [apart]
  · rw [copies_dropCopies] at hd
    exact (List.mem_filter.mp hd).1

/-- The copy that gives up its way lies at the level, or is a mark of a pinned line beyond. -/
theorem level_victim {s : State} {level unit line : Nat} {c : Copy} (h : s.victim level unit line = some c) : level ≤ c.level := by
  unfold State.victim at h
  split at h
  · cases h
  · have hc := List.mem_of_find?_eq_some h
    rw [List.mem_reverse, State.inSet, List.mem_filter] at hc
    simp only [Bool.and_eq_true, Bool.or_eq_true, beq_iff_eq] at hc
    omega

theorem keepsInner_makeRoom3 (s : State) (unit line : Nat) : s.KeepsInner (s.makeRoom3 unit line) 2 := by
  unfold State.makeRoom3
  split
  · next c hc => exact keepsInner_pushOutward (level_victim hc) le_rfl
  · exact .refl s 2

theorem keepsInner_makeRoom2 (s : State) (unit line : Nat) : s.KeepsInner (s.makeRoom2 unit line) 1 := by
  unfold State.makeRoom2
  split
  · next c hc =>
    refine State.KeepsInner.trans ?_ (keepsInner_pushOutward (level_victim hc) (by decide))
    unfold State.roomBeyond2
    split
    · exact .refl s 1
    · exact (keepsInner_makeRoom3 ..).mono (by decide)
  · exact .refl s 1

/-- Room at the point of a scope leaves the copies inside it that are narrow and dirty. -/
theorem keepsInner_makeRoom (s : State) (a : Agent) {level : Nat} (h : level ≤ 2) (line : Nat) :
    s.KeepsInner (s.makeRoom a level line) level := by
  unfold State.makeRoom
  split
  · exact .refl s level
  · split_ifs with h0 h1
    · rw [h0]
      exact ⟨fun _ _ h => absurd h (Nat.not_lt_zero _), fun _ _ h => absurd h (Nat.not_lt_zero _)⟩
    · rw [h1]
      exact keepsInner_makeRoom2 ..
    · have : level = 2 := by omega
      rw [this]
      exact keepsInner_makeRoom3 ..

end Sys2Proof.Machine
end

section
/-! PROOF. A push leaves nothing narrow on the path of its core, and its bytes are what the core reads (R266, R267, R280). -/

namespace Sys2Proof.Machine

/-! ### Pushed bytes are seen -/

theorem pointLevel_lt {scope k : Nat} (h2 : 2 ≤ scope) (h3 : scope ≤ 3) (h : k < scope) : k ≤ pointLevel scope := by
  unfold pointLevel
  split_ifs <;> omega

/-- Room at the point of the scope leaves the innermost dirty byte where it is. -/
theorem innermost_makeRoom {s : State} {a b : Agent} {scope line j : Nat} {c : Copy} (h : s.Innermost a line j c) (h2 : 2 ≤ scope)
    (h3 : scope ≤ 3) (below : c.level < pointLevel scope) (narrow : c.reg < scope) (other : Nat) :
    (s.makeRoom b (pointLevel scope) other).Innermost a line j c := by
  obtain ⟨mem, dirty, first⟩ := h
  obtain ⟨mem_, hl, hp⟩ := mem_pathCopies.mp mem
  have nonzero {d : Copy} (hd : d.dirty.getLsbD j = true) : d.dirty ≠ 0 := fun e => by simp [e] at hd
  have level : pointLevel scope ≤ 2 := by
    unfold pointLevel
    split_ifs <;> omega
  obtain ⟨stay, come⟩ := keepsInner_makeRoom s b level other
  refine ⟨mem_pathCopies.mpr ⟨stay c mem_ below (pointLevel_lt h2 h3 narrow) (nonzero dirty), hl, hp⟩, dirty, fun d hd inner bit => ?_⟩
  obtain ⟨dm, dl, dp⟩ := mem_pathCopies.mp hd
  exact first d (mem_pathCopies.mpr ⟨come d dm (by omega) (nonzero bit), dl, dp⟩) inner bit

theorem uncachedLine_cached (s : State) (line : Nat) : s.uncachedLine .cached line = s.inHostBias line := rfl

theorem pushedBytesAreSeen : Spec.PushedBytesAreSeen := by
  intro s core scope line i c h2 h7 hi bias a mem below narrow dirty inner same
  have innermost : s.Innermost a line i c := by
    refine ⟨mem, dirty, fun d hd level bit => ?_⟩
    rcases Nat.lt_or_eq_of_le level with less | equal
    · rw [inner d hd less] at bit
      cases bit
    · exact same d hd equal
  rw [State.perform, uncachedLine_cached, bias, if_neg Bool.false_ne_true]
  have shown : ∃ k, ((if scope ≤ 3 then s.makeRoom a (pointLevel scope) line else s).performAt a scope line 0 0 false).Shows a line k i
      (lineByte c.data i) := by
    split
    · next h3 => exact shows_push hi h7 (innermost_makeRoom innermost h2 h3 below narrow line) below narrow
    · exact shows_push hi h7 innermost below narrow
  obtain ⟨k, shown⟩ := shown
  exact lineByte_view hi shown scope .cached

/-! ### Nothing narrow is left -/

/-- A dirty copy of the agent inside the point of a scope is narrower than the scope, and its page is not in host bias. -/
structure State.Narrow (s : State) (a : Agent) (scope : Nat) (c : Copy) : Prop where
  mem : c ∈ s.copies
  onPath : a.onPath c = true
  below : c.level < pointLevel scope
  dirty : c.dirty ≠ 0
  device : s.inHostBias c.line = false
  narrow : c.reg < scope

theorem refreshed_wide {c : Copy} {scope x : Nat} {v : Arrival} (wide : scope ≤ x) (dirty : (c.refreshed scope x v).dirty ≠ 0) :
    scope ≤ (c.refreshed scope x v).reg := by
  unfold Copy.refreshed at dirty ⊢
  by_cases owner : c.level = 2 ∧ pointLevel x = 3 ∧ x ≤ 6
  · rw [if_pos owner]
    exact wide
  · rw [if_neg owner] at dirty ⊢
    by_cases registered : scope ≤ c.reg
    · rw [if_pos registered]
      exact registered
    · rw [if_neg registered] at dirty
      exact absurd rfl dirty

/-- The agent's dirty copies inside a point are registered up to the scope once bytes have come to the point. -/
theorem wide_reachPoint {s : State} {a : Agent} {scope x line : Nat} {v : Arrival} {c : Copy} (wide : scope ≤ x)
    (mem : c ∈ (s.reachPoint a scope x line v).copies) (place : c.line = line) (on : a.onPath c = true) (below : c.level < pointLevel x)
    (dirty : c.dirty ≠ 0) : scope ≤ c.reg := by
  have passing : c ∈ (s.passing a scope x line v).copies := by
    rw [reachPoint_eq] at mem
    split_ifs at mem
    · rw [State.notify, copies_putHome] at mem
      obtain ⟨d, hd, rfl⟩ := List.mem_map.mp mem
      have := level_of_onPath on
      rw [(pinWritten_place d _ _).1] at this
      rwa [pinWritten_cached this]
    · exact mem
    · rcases List.mem_cons.mp mem with rfl | h
      · exact absurd below (lt_irrefl _)
      · exact (List.mem_filter.mp h).1
  obtain ⟨d, -, rfl⟩ := mem_passing passing
  obtain ⟨dl, du, dn⟩ := passed_place d a scope x line v
  rw [Copy.passed, if_pos ⟨dn ▸ place, onPath_congr a dl du ▸ on, dl ▸ below⟩] at dirty ⊢
  exact refreshed_wide wide dirty

theorem exists_bit {x : BitVec 64} (h : x ≠ 0) : ∃ j, x.getLsbD j = true := by
  by_contra none_
  refine h (BitVec.eq_of_getLsbD_eq fun j _ => ?_)
  simpa using fun e => none_ ⟨j, e⟩

/-- A push leaves no dirty copy of its line narrow. -/
theorem wide_performAt {s : State} {a : Agent} {scope line : Nat} {c : Copy} (h7 : scope ≤ 7)
    (mem : c ∈ (s.performAt a scope line 0 0 false).copies) (place : c.line = line) (on : a.onPath c = true)
    (below : c.level < pointLevel scope) (dirty : c.dirty ≠ 0) : scope ≤ c.reg := by
  have wide := le_reach s a h7 line
  rw [performAt_push] at mem
  generalize s.reach a scope line = x at wide mem
  have inside := below.trans_le (pointLevel_mono wide)
  split at mem
  · next empty =>
    by_contra narrow
    have carrier : c ∈ (s.gathered a x line).carriers a x line :=
      List.mem_filter.mpr ⟨mem_pathCopies_gathered.mpr (mem_pathCopies.mpr ⟨mem, place, on⟩), by simp; omega⟩
    obtain ⟨j, bit⟩ := exists_bit dirty
    have carried : ((s.gathered a x line).carried a x line).mask.getLsbD j = true := by
      rw [State.carried, mask_foldl_carry]
      simp only [List.any_reverse, Bool.or_eq_true, List.any_eq_true]
      exact .inr ⟨c, carrier, bit⟩
    rw [← (add_nothing _ (by decide : 0 < 64)).1, empty] at carried
    simp at carried
  · exact wide_reachPoint wide (mem_copies_keepPins.2 mem dirty) place on inside dirty

/-- Dirty copies of other lines are those before a store at the home. -/
theorem mem_copies_performHome {s : State} {a : Agent} {line : Nat} {mask : BitVec 64} {data : BitVec 512} {p : Bool} {c : Copy}
    (hk : c.level ≤ 2) (hd : c.dirty ≠ 0) (off : c.line ≠ line) (h : c ∈ (s.performHome a line mask data p).copies) : c ∈ s.copies := by
  rw [performHome_eq] at h
  obtain ⟨d, hm, e⟩ := List.mem_map.mp (mem_copies_keepPins.2 h hd)
  obtain ⟨-, -, dn⟩ := homeWritten_place d a line mask data p
  rw [e] at dn
  rw [Copy.homeWritten, if_neg fun both => off (dn.trans both.1)] at e
  subst e
  unfold State.wentHome at hm
  dsimp only at hm
  rw [copies_dropCopies, copies_putHome] at hm
  obtain ⟨b, hb, rfl⟩ := List.mem_map.mp (List.mem_filter.mp hm).1
  have inner : b.level ≤ 2 := (pinWritten_place b line mask).1 ▸ hk
  rw [pinWritten_cached inner]
  exact (mem_copies_gather inner).1 hb

theorem inHostBias_perform (s : State) (a : Agent) (scope : Nat) (home : Home) (line : Nat) (mask : BitVec 64) (data : BitVec 512)
    (p : Bool) (other : Nat) : (s.perform a scope home line mask data p).inHostBias other = s.inHostBias other := by
  rw [(memoryMoved_perform s a scope home line mask data p).1]
  rfl

/-- What is narrow after the push of a line was narrow before, and is of another line. -/
theorem narrow_perform {s : State} {a : Agent} {scope line : Nat} {c : Copy} (h7 : scope ≤ 7)
    (h : (s.perform a scope .cached line 0 0 false).Narrow a scope c) : s.Narrow a scope c ∧ c.line ≠ line := by
  obtain ⟨mem, on, below, dirty, device, narrow⟩ := h
  have level := level_of_onPath on
  rw [inHostBias_perform] at device
  rw [State.perform, uncachedLine_cached] at mem
  split at mem
  · next bias =>
    have off : c.line ≠ line := fun e => by
      rw [e, bias] at device
      cases device
    exact ⟨⟨mem_copies_performHome level dirty off mem, on, below, dirty, device, narrow⟩, off⟩
  · have off : c.line ≠ line := fun e => absurd (wide_performAt h7 mem e on below dirty) (by omega)
    refine ⟨⟨?_, on, below, dirty, device, narrow⟩, off⟩
    have before := (mem_copies_performAt level dirty (.inl off)).1 mem
    split at before
    · next h3 =>
      have inner : pointLevel scope ≤ 2 := by
        unfold pointLevel
        split_ifs <;> omega
      exact (keepsInner_makeRoom s a inner line).2 c before below dirty
    · exact before

/-- Pushes of lines leave narrow only what was narrow of other lines. -/
theorem narrow_foldl {a : Agent} {scope : Nat} {c : Copy} (h7 : scope ≤ 7) (lines : List Nat) {s : State}
    (h : (lines.foldl (fun t l => t.perform a scope .cached l 0 0 false) s).Narrow a scope c) : s.Narrow a scope c ∧ c.line ∉ lines := by
  induction lines generalizing s with
  | nil => exact ⟨h, List.not_mem_nil⟩
  | cons line rest ih =>
    obtain ⟨later, others⟩ := ih h
    obtain ⟨before, off⟩ := narrow_perform h7 later
    exact ⟨before, by simp [off, others]⟩

/-- The pushes of every narrow line leave nothing narrow. -/
theorem nothingNarrow_push (s : State) (core : Nat) {scope : Nat} (h7 : scope ≤ 7) :
    Spec.NothingNarrow ((s.narrowLines (Agent.ofCore core) scope).foldl
      (fun t l => t.perform (Agent.ofCore core) scope .cached l 0 0 false) s) core scope := by
  intro c mem on below dirty device
  by_contra narrow
  obtain ⟨before, pushed⟩ := narrow_foldl h7 _ ⟨mem, on, below, dirty, device, by omega⟩
  refine pushed (List.mem_map.mpr ⟨c, List.mem_filter.mpr ⟨before.mem, ?_⟩, rfl⟩)
  have kept : (c.dirty != 0) = true := bne_iff_ne.mpr dirty
  rw [on, kept, decide_eq_true below, decide_eq_true before.narrow]
  rfl

end Sys2Proof.Machine
end

section
/-! PROOF. O36: a release leaves no store of its core behind, in a buffer or in its caches (R265 to R267, R277, R278, R367). -/

namespace Sys2Proof.Machine

/-! ### The buffers at the end of a region (R277, R367) -/

/-- The lines of the group's buffer, committed. -/
def State.committedLines (s : State) : List StoreLine := s.cur.storeBuf.map fun l => { l with committed := true }

/-- The end of a region commits every line of it, and the first of them move to the write buffer. -/
theorem endRegion_lines (s : State) : ∃ k, s.endRegion =
    { s with writeBuf := s.writeBuf ++ (s.committedLines.take k).map fun l => l.toEntry s.cur,
             cur := { s.cur with storeBuf := s.committedLines.drop k, rstart := s.cur.pc, rwb := s.cur.wb } } := by
  obtain ⟨k, commit, -⟩ := drainCommitted_spec
    (s.modCur fun g => { g with storeBuf := g.storeBuf.map fun l => { l with committed := true } })
  have run : s.endRegion = s.commit.modCur fun g => { g with rwb := g.wb, rstart := g.pc } := rfl
  have committed : s.commit = _ := commit
  exact ⟨k, by rw [run, committed]; rfl⟩

theorem committed_endRegion (s : State) : ∀ l ∈ s.endRegion.cur.storeBuf, l.committed = true ∧ ∃ x ∈ s.cur.storeBuf, l.after = x.after := by
  obtain ⟨k, e⟩ := endRegion_lines s
  rw [e]
  intro l hl
  obtain ⟨x, hx, rfl⟩ := List.mem_map.mp (List.mem_of_mem_drop hl)
  exact ⟨rfl, x, hx, rfl⟩

theorem noRebuild_endRegion {s : State} (h : Spec.NoRebuild s) : Spec.NoRebuild s.endRegion := by
  obtain ⟨k, e⟩ := endRegion_lines s
  rw [e]
  exact h

/-! ### Lines that can leave a write buffer (R278, R419) -/

/-- Without a rebuild, a stopped die or a bias flip nothing holds a line. -/
theorem heldUp_noRebuild {s : State} (h : Spec.NoRebuild s) (write : Bool) (die scope line : Nat) :
    s.heldUp write die scope line = false := by
  obtain ⟨bias, dies⟩ := h
  have fine (d : Nat) : (s.die d).rebuilding = false ∧ (s.die d).silent = false := by
    unfold State.die
    cases found : s.dies.find? (·.1 == d) with
    | none => exact ⟨rfl, rfl⟩
    | some e => exact dies e (List.mem_of_find?_eq_some found)
  have whole (d : Nat) : (s.die d).halfLost = false := by rw [Die.halfLost, (fine d).1, (fine d).2]; rfl
  rw [State.heldUp, State.flipping, bias, (fine die).2, State.lostHalf]
  simp [whole]

/-- A line of the group in focus waits for loads alone, of which none is left. -/
theorem freeToDrain_own {s : State} (h : Spec.NoRebuild s) (h0 : s.cur.id ≠ 0) {e : WriteEntry} (mine : e.group = s.cur.id)
    (returned : ∀ f ∈ s.cur.flights, f.tag ∉ e.after) : s.freeToDrain e = true := by
  have group : s.group? e.group = some s.cur := by
    rw [State.group?, State.groups, if_neg h0, mine]
    exact List.find?_cons_of_pos (by simp)
  rw [State.freeToDrain, heldUp_noRebuild h, group]
  simp only [Bool.not_false, Bool.true_and, List.all_eq_true, Bool.or_eq_true, Bool.not_eq_true', List.contains_eq_mem,
    decide_eq_false_iff_not]
  exact fun f hf => .inr (returned f hf)

/-- Where every line of the core can leave the write buffer, none of them stays. -/
theorem drainable_all {s : State} {core : Nat} {es : List WriteEntry} (h : ∀ e ∈ es, e.core = core → s.freeToDrain e = true) :
    ∀ e ∈ (s.drainable core es []).2, e.core ≠ core := by
  induction es with
  | nil => exact fun e he => absurd he List.not_mem_nil
  | cons e rest ih =>
    have later := ih fun x hx => h x (List.mem_cons_of_mem _ hx)
    rw [State.drainable]
    by_cases mine : e.core = core
    · rw [if_pos ⟨mine, rfl, h e List.mem_cons_self mine⟩]
      exact later
    · rw [if_neg fun both => mine both.1, if_neg mine]
      intro x hx
      rcases List.mem_cons.mp hx with rfl | hx
      · exact mine
      · exact later x hx

/-! ### What a release leaves (R267) -/

/-- The state in which a release pushes: the group's committed lines stand in the write buffer. -/
def State.releasing (s : State) : State :=
  { (s.modCur fun g => { g with storeBuf := g.storeBuf.filter fun l => !l.committed }) with
    writeBuf := s.writeBuf ++ (s.cur.storeBuf.filter (·.committed)).map fun l => l.toEntry s.cur }

theorem release_pushOut (s : State) {scope : Nat} (h : scope ≠ 0) : s.release scope = s.releasing.pushOut s.cur.core scope := if_neg h

/-- The buffer of a group has no part in what its lines wait for. -/
theorem freeToDrain_releasing (s : State) (e : WriteEntry) : s.releasing.freeToDrain e = s.freeToDrain e := by
  have held : s.releasing.heldUp true (dieOf e.core) e.scope e.line = s.heldUp true (dieOf e.core) e.scope e.line := rfl
  have cur : s.releasing.cur = { s.cur with storeBuf := s.cur.storeBuf.filter fun l => !l.committed } := rfl
  have others : s.releasing.others = s.others := rfl
  rw [State.freeToDrain, State.freeToDrain, held, State.group?, State.group?, State.groups, State.groups, cur, others]
  by_cases h0 : s.cur.id = 0
  · rw [if_pos h0, if_pos h0]
  · rw [if_neg h0, if_neg h0, List.singleton_append, List.singleton_append, List.find?_cons, List.find?_cons]
    by_cases own : (s.cur.id == e.group) = true
    · rw [own]
    · rw [Bool.not_eq_true] at own
      rw [own]

/-- A push leaves in the write buffer what could not leave. -/
theorem writeBuf_pushOut (s : State) (core scope : Nat) : (s.pushOut core scope).writeBuf = (s.drainable core s.writeBuf []).2 := by
  unfold State.pushOut
  dsimp only
  rw [writeBuf_foldl _ fun t l => writeBuf_perform .., writeBuf_foldl _ fun t e => writeBuf_performEntry ..]

theorem nothingNarrow_pushOut (s : State) (core : Nat) {scope : Nat} (h7 : scope ≤ 7) :
    Spec.NothingNarrow (s.pushOut core scope) core scope :=
  nothingNarrow_push _ core h7

/-- Nothing that a release pushes has to wait: what was in the write buffer is free to leave, and the lines of the region wait for no
load. -/
theorem freeToDrain_releases {s : State} {scope : Nat} (h0 : s.cur.id ≠ 0) (hrel : Spec.Releases s scope)
    (waits : ∀ l ∈ s.cur.storeBuf, ∀ f ∈ s.cur.flights, f.tag ∉ l.after) :
    ∀ e ∈ s.endRegion.releasing.writeBuf, e.core = s.cur.core → s.endRegion.releasing.freeToDrain e = true := by
  obtain ⟨-, -, rebuild, held⟩ := hrel
  have reads := sameReads_endRegion s
  intro e he mine
  rw [freeToDrain_releasing]
  rcases List.mem_append.mp he with he | he
  · rw [State.heldLine, Bool.or_eq_false_iff, List.any_eq_false] at held
    have free : s.endRegion.freeToDrain e = true ∧ s.endRegion.heldUp true (dieOf e.core) scope e.line = false := by
      simpa [mine] using held.1 e he
    exact free.1
  · obtain ⟨l, hl, rfl⟩ := List.mem_map.mp he
    obtain ⟨-, x, hx, after⟩ := committed_endRegion s l (List.mem_filter.mp hl).1
    refine freeToDrain_own (noRebuild_endRegion rebuild) (reads.id ▸ h0) rfl fun f hf => ?_
    change f.tag ∉ l.after
    rw [after]
    exact waits x hx f (reads.flights ▸ hf)

theorem releasesPush : Spec.ReleasesPush := by
  intro scope s h1 h7 h0 hrel waits
  have released : Spec.released s scope = s.endRegion.releasing.pushOut s.cur.core scope := by
    rw [Spec.released, release_pushOut _ (by omega), (sameReads_endRegion s).core]
  rw [released]
  refine ⟨?_, ?_, nothingNarrow_pushOut _ _ h7⟩
  · rw [(memoryMoved_pushOut s.endRegion.releasing s.cur.core scope).settled.storeBuf]
    refine List.filter_eq_nil_iff.mpr fun l hl => ?_
    simp [(committed_endRegion s l hl).1]
  · rw [writeBuf_pushOut]
    exact drainable_all (freeToDrain_releases h0 hrel waits)

/-- Settles O36: the waits of the instructions are over, so they end; a push empties the write buffer of its core and leaves nothing of its
caches narrow, and the innermost dirty byte of each line is the one that arrives. -/
theorem fencesAndCounterWaits : Obligations.FencesAndCounterWaits := ⟨fencesComplete, releasesPush, pushedBytesAreSeen, counterWaits⟩

end Sys2Proof.Machine
end
